-- ==== Sys2Proof/Word.lean ====
section
/-!
DEFINITION. The word types of the CML-4096-A (R13: bit 0 is the least significant; memory is little-endian).
-/

namespace Sys2Proof

/-- A 64-bit register value (R44). -/
abbrev Word := BitVec 64

/-- One byte of memory or of a typed buffer. -/
abbrev Byte := BitVec 8

/-- One 96-bit instruction word (R149). -/
abbrev IWord := BitVec 96

/-- The field [lo + w - 1 : lo] of a number. -/
def bitsOf (x lo w : Nat) : Nat := (x >>> lo) % 2 ^ w

/-- Bit k of a number. -/
def bitOf (x k : Nat) : Bool := x.testBit k

/-- 1 for true, 0 for false. -/
def natOfBool (b : Bool) : Nat := if b then 1 else 0

end Sys2Proof
end

