-- ==== Sys2Proof/Syntax.lean ====
section
/-!
DEFINITION. The abstract syntax: one constructor of Instr per row of spec/opcode_table.json. The rows that the spec
encodes in a 96-bit word (R149 to R159) carry their operands as the word's fields, already read; the other rows are
the machine's events (95_what_each_step_holds.md) and carry what the event brings with it.
-/

namespace Sys2Proof

/-- The three sequencers of a core (R42). -/
inductive Strm where
  | l | c | s
  deriving DecidableEq, Repr

/-- A source operand of a 7-bit selector (R155). imm reads IMM32, widened by a PFXI (R158). -/
inductive Src where
  | n (k : Fin 16) | t (k : Fin 16) | q | zero | imm | small (v : BitVec 6)
  deriving DecidableEq, Repr

/-- A destination of a 7-bit selector (R155). -/
inductive Dst where
  | n (k : Fin 16) | q | t | discard
  deriving DecidableEq, Repr

/-- The offset register of format M and the descriptor selectors of format E (R152, R153). -/
inductive OReg where
  | n (k : Fin 16) | t (k : Fin 16) | q | zero
  deriving DecidableEq, Repr

/-- The fields common to every instruction word (R149): bits [83:68]. -/
structure Hdr where
  pneg : Bool
  pred : Fin 8
  wait : BitVec 8
  set  : Option (Fin 8)
  deriving DecidableEq, Repr

/-- Scope codes (R134). -/
inductive Scope where
  | core | die | pkg | pool
  deriving DecidableEq, Repr

/-- Rounding codes (R73). -/
inductive Rnd where
  | rne | rz | rd | ru
  deriving DecidableEq, Repr

/-- Element types (R67). -/
inductive EType where
  | f32 | bf16 | f16 | e4m3 | e5m2 | e2m1 | e8m0 | s8 | s16 | s32 | z8 | z16 | z32
  deriving DecidableEq, Repr

/-- The arithmetic types of the scalar float group (R179). -/
inductive SFTy where
  | f32 | bf16 | f16
  deriving DecidableEq, Repr

/-- Integer conditions (R175). -/
inductive ICond where
  | eq | ne | lt | ge | le | gt | tst | ntst
  deriving DecidableEq, Repr

/-- Float conditions of FCMP and conditions of VCMP (R181, R248). -/
inductive FCond where
  | eq | ne | lt | le | gt | ge
  deriving DecidableEq, Repr

/-- Signedness and width code W of a scalar integer operation: 8 <<< w bits (R150). -/
structure ITy where
  sgn : Bool
  w   : Fin 4
  deriving DecidableEq, Repr

/-! ### Operand records of format R -/

/-- ADD, SUB, MUL, DIV: the operations that accept SAT (R172). -/
structure IArith where
  sat : Bool
  ty  : ITy
  d   : Dst
  a   : Src
  b   : Src
  imm : BitVec 32
  deriving DecidableEq, Repr

/-- Two-source integer operations without SAT (R172). -/
structure IBin where
  ty  : ITy
  d   : Dst
  a   : Src
  b   : Src
  imm : BitVec 32
  deriving DecidableEq, Repr

/-- One-source integer operations (R172). -/
structure IUn where
  ty  : ITy
  d   : Dst
  a   : Src
  imm : BitVec 32
  deriving DecidableEq, Repr

/-- SEXT and ZEXT (R174): W = 3, S fixed by the mnemonic. -/
structure IExt where
  d   : Dst
  a   : Src
  b   : Src
  imm : BitVec 32
  deriving DecidableEq, Repr

/-- BFX (R174). -/
structure IBfx where
  sgn : Bool
  d   : Dst
  a   : Src
  b   : Src
  imm : BitVec 32
  deriving DecidableEq, Repr

/-- Three sources: BFI, and LEA with its shift (R174, R178). -/
structure ITri where
  d   : Dst
  a   : Src
  b   : Src
  c   : Src
  imm : BitVec 32
  deriving DecidableEq, Repr

/-- CMP (R175). -/
structure ICmp where
  cond : ICond
  ty   : ITy
  d    : Dst
  p    : Fin 8
  a    : Src
  b    : Src
  imm  : BitVec 32
  deriving DecidableEq, Repr

/-- SEL (R176). -/
structure ISel where
  ty  : ITy
  d   : Dst
  p   : Fin 8
  inv : Bool
  a   : Src
  b   : Src
  imm : BitVec 32
  deriving DecidableEq, Repr

/-- FADD and FMUL (R180). -/
structure FBin where
  ty  : SFTy
  rnd : Rnd
  d   : Dst
  a   : Src
  b   : Src
  imm : BitVec 32
  deriving DecidableEq, Repr

/-- FFMA (R180). -/
structure FTri where
  ty  : SFTy
  rnd : Rnd
  d   : Dst
  a   : Src
  b   : Src
  c   : Src
  imm : BitVec 32
  deriving DecidableEq, Repr

/-- FMIN and FMAX (R180). -/
structure FMinMax where
  ty  : SFTy
  d   : Dst
  a   : Src
  b   : Src
  imm : BitVec 32
  deriving DecidableEq, Repr

/-- FCMP (R181). -/
structure FCmp where
  cond : FCond
  ty   : SFTy
  d    : Dst
  p    : Fin 8
  a    : Src
  b    : Src
  imm  : BitVec 32
  deriving DecidableEq, Repr

/-- FCVT (R182): toSz is COND[3], from the other type to the SZ type. -/
structure FCvt where
  ty    : SFTy
  other : EType
  toSz  : Bool
  sat   : Bool
  rnd   : Rnd
  d     : Dst
  a     : Src
  imm   : BitVec 32
  deriving DecidableEq, Repr

/-- The count of LOOP (R192). -/
inductive LoopCount where
  | imm (c : BitVec 32)
  | src (a : Src)
  deriving DecidableEq, Repr

/-- One destination of format R and one source. -/
structure RUn where
  d   : Dst
  a   : Src
  imm : BitVec 32
  deriving DecidableEq, Repr

/-! ### Format M -/

/-- Capability-relative address: capability, offset register, 40-bit signed offset (R94, R152). -/
structure MAddr where
  cap  : Fin 16
  oreg : OReg
  off  : BitVec 40
  deriving DecidableEq, Repr

/-- LD (R207). size is the SIZE code 0 to 3. -/
structure LdOp where
  d     : Dst
  size  : Fin 4
  sx    : Bool
  p     : Bool
  scope : Scope
  m     : MAddr
  deriving DecidableEq, Repr

/-- The tile forms and the plain store: a data source (R209). -/
structure TileOp where
  a     : Src
  scope : Scope
  m     : MAddr
  deriving DecidableEq, Repr

/-- LDQ (R208) and STQ (R209): n is N - 1. -/
structure QMemOp where
  n     : Fin 8
  sx    : Bool
  size  : Fin 4
  scope : Scope
  m     : MAddr
  deriving DecidableEq, Repr

/-- ST (R209). -/
structure StOp where
  a     : Src
  size  : Fin 4
  scope : Scope
  m     : MAddr
  deriving DecidableEq, Repr

/-- The atomics but ACAS (R211). w64: SIZE 3. -/
structure AtOp where
  a     : Src
  w64   : Bool
  sgn   : Bool
  rl    : Bool
  aq    : Bool
  p     : Bool
  scope : Scope
  m     : MAddr
  deriving DecidableEq, Repr

/-- ACAS (R211): the pair n(2k), n(2k+1). -/
structure AcasOp where
  k     : Fin 8
  w64   : Bool
  sgn   : Bool
  rl    : Bool
  aq    : Bool
  p     : Bool
  scope : Scope
  m     : MAddr
  deriving DecidableEq, Repr

/-- AFADD (R211). -/
structure AfaddOp where
  a     : Src
  rl    : Bool
  aq    : Bool
  p     : Bool
  scope : Scope
  m     : MAddr
  deriving DecidableEq, Repr

/-- Operations of REDI, CRED and pool reductions (R213, R235). -/
inductive RedKind where
  | add | min | max | and | or | xor
  deriving DecidableEq, Repr

/-- Float reductions (R213). -/
inductive FRedKind where
  | add | min | max
  deriving DecidableEq, Repr

/-- REDI (R213). -/
structure RediOp where
  op    : RedKind
  sgn   : Bool
  w64   : Bool
  a     : Src
  scope : Scope
  m     : MAddr
  deriving DecidableEq, Repr

/-- REDF (R213). -/
structure RedfOp where
  op    : FRedKind
  a     : Src
  scope : Scope
  m     : MAddr
  deriving DecidableEq, Repr

/-- REL (R214). -/
structure RelOp where
  scope : Scope
  p     : Bool
  m     : MAddr
  deriving DecidableEq, Repr

/-- The destination of RELL (R216): a pair of named scalars, or two result entries. -/
inductive RelDst where
  | pair (k : Fin 8)
  | t
  deriving DecidableEq, Repr

/-- ACQ (R218), XCMB (R304). -/
structure AcqOp where
  d     : Dst
  p     : Bool
  scope : Scope
  m     : MAddr
  deriving DecidableEq, Repr

/-- CLD and CST (R226). -/
structure CapMemOp where
  cr    : Fin 16
  scope : Scope
  m     : MAddr
  deriving DecidableEq, Repr

/-- CNARROW (R227). mask bits: R, W, X, A, N. -/
structure CNarrowOp where
  cd   : Fin 16
  cs   : Fin 16
  off  : Src
  len  : Src
  mask : BitVec 5
  imm  : BitVec 32
  deriving DecidableEq, Repr

/-- CCHK (R227). -/
structure CChkOp where
  p    : Fin 8
  cs   : Fin 16
  off  : Src
  len  : Src
  mask : BitVec 5
  imm  : BitVec 32
  deriving DecidableEq, Repr

/-! ### Format E -/

/-- The wait and signal fields (R62, R153). -/
structure EHdr where
  wsem : BitVec 8
  wthr : BitVec 16
  ssem : BitVec 8
  sinc : BitVec 4
  deriving DecidableEq, Repr

/-- An engine command of three descriptor words. -/
structure E3 where
  e  : EHdr
  d0 : OReg
  d1 : OReg
  d2 : OReg
  deriving DecidableEq, Repr

/-- An engine command of four descriptor words. -/
structure E4 where
  e  : EHdr
  d0 : OReg
  d1 : OReg
  d2 : OReg
  d3 : OReg
  deriving DecidableEq, Repr

/-! ### Format V -/

/-- Shape select, arithmetic type and mask (R151). -/
structure VCom where
  shp  : Fin 4
  ty   : EType
  mask : Fin 16
  deriving DecidableEq, Repr

/-- Rounding of format V (R151, R245): with sr the code is ignored and the counter register is named. -/
structure VRound where
  rnd : Rnd
  sat : Bool
  sr  : Option (Fin 16)
  deriving DecidableEq, Repr

/-- The B operand of an element-wise instruction (R247). -/
inductive BOp where
  | full (vb : BitVec 10) | row (vb : BitVec 10) | col (vb : BitVec 10) | scal (n : Fin 16)
  deriving DecidableEq, Repr

structure VBin where
  v  : VCom
  r  : VRound
  vd : BitVec 10
  va : BitVec 10
  b  : BOp
  deriving DecidableEq, Repr

structure VTri where
  v  : VCom
  r  : VRound
  vd : BitVec 10
  va : BitVec 10
  b  : BOp
  vc : BitVec 10
  deriving DecidableEq, Repr

/-- Element-wise instructions that neither round nor saturate. -/
structure VBit where
  v  : VCom
  vd : BitVec 10
  va : BitVec 10
  b  : BOp
  deriving DecidableEq, Repr

/-- VABS and VNEG. -/
structure VAbsOp where
  v   : VCom
  sat : Bool
  vd  : BitVec 10
  va  : BitVec 10
  deriving DecidableEq, Repr

structure VCmpOp where
  v    : VCom
  cond : FCond
  md   : Fin 16
  va   : BitVec 10
  b    : BOp
  deriving DecidableEq, Repr

structure VSelOp where
  v  : VCom
  vd : BitVec 10
  va : BitVec 10
  b  : BOp
  mkr : Fin 16
  deriving DecidableEq, Repr

structure VMovOp where
  v  : VCom
  vd : BitVec 10
  va : BitVec 10
  deriving DecidableEq, Repr

/-- VBCAST: B must be a row, a column or a scalar (R250). -/
structure VBcOp where
  v  : VCom
  vd : BitVec 10
  b  : BOp
  deriving DecidableEq, Repr

structure VIotaOp where
  v   : VCom
  sel : Fin 3
  vd  : BitVec 10
  deriving DecidableEq, Repr

/-- VCVT and the VSFU instructions. -/
structure VUn where
  v  : VCom
  r  : VRound
  vd : BitVec 10
  va : BitVec 10
  deriving DecidableEq, Repr

/-- VQNT, VDQNT and their .mx forms, VSINCOS: a third tile register (R252, R253, R256). -/
structure VUn3 where
  v  : VCom
  r  : VRound
  vd : BitVec 10
  va : BitVec 10
  vx : BitVec 10
  deriving DecidableEq, Repr

/-- VRED (R254): col is DIR. -/
structure VRedOp where
  v   : VCom
  rnd : Rnd
  sat : Bool
  col : Bool
  vd  : BitVec 10
  va  : BitVec 10
  deriving DecidableEq, Repr

structure VScanOp where
  v    : VCom
  rnd  : Rnd
  sat  : Bool
  col  : Bool
  excl : Bool
  vd   : BitVec 10
  va   : BitVec 10
  deriving DecidableEq, Repr

/-- Shape and type only: VTRN and others whose MASK is zero. -/
structure VTrnOp where
  shp : Fin 4
  ty  : EType
  vd  : BitVec 10
  va  : BitVec 10
  deriving DecidableEq, Repr

structure VPermOp where
  v  : VCom
  gl : Bool
  vd : BitVec 10
  va : BitVec 10
  vb : BitVec 10
  deriving DecidableEq, Repr

structure VShufOp where
  v  : VCom
  k  : BitVec 10
  ax : Bool
  vd : BitVec 10
  va : BitVec 10
  deriving DecidableEq, Repr

/-- VSORT (R259): kv carries VB and VC. -/
structure VSortOp where
  v    : VCom
  desc : Bool
  kv   : Option (BitVec 10 × BitVec 10)
  vd   : BitVec 10
  va   : BitVec 10
  deriving DecidableEq, Repr

structure VMrgOp where
  shp  : Fin 4
  ty   : EType
  desc : Bool
  vd   : BitVec 10
  vc   : BitVec 10
  va   : BitVec 10
  vb   : BitVec 10
  deriving DecidableEq, Repr

/-- VDROP (R261): mkr with MO. -/
structure VDropOp where
  v  : VCom
  vd : BitVec 10
  va : BitVec 10
  np : Fin 16
  nc : Fin 16
  mkr : Option (Fin 16)
  deriving DecidableEq, Repr

structure VRngOp where
  v  : VCom
  vd : BitVec 10
  nc : Fin 16
  deriving DecidableEq, Repr

/-- VDEFER (R262): cnt is the value count minus 1. -/
structure VDeferOp where
  v    : VCom
  path : BitVec 6
  cnt  : Fin 4
  p    : Fin 8
  va   : BitVec 10
  vb   : BitVec 10
  vc   : BitVec 10
  vd   : BitVec 10
  deriving DecidableEq, Repr

/-- VDRAIN (R263). -/
structure VDrainOp where
  shp  : Fin 4
  ty   : EType
  path : BitVec 6
  cnt  : Fin 4
  idx  : Bool
  mkr  : Fin 16
  vd   : BitVec 10
  va   : BitVec 10
  vb   : BitVec 10
  vc   : BitVec 10
  deriving DecidableEq, Repr

/-- The value of VSHAPE (R264). -/
inductive ShapeVal where
  | imm (rows cols : BitVec 11) (ety : BitVec 4)
  | reg (n : Fin 16)
  deriving DecidableEq, Repr

/-- The element index of VEXT and VINS (R266). -/
inductive VIdx where
  | imm (i : BitVec 10)
  | reg (n : Fin 16)
  deriving DecidableEq, Repr

/-- UPD (R289). -/
structure UOp where
  v  : VCom
  r  : VRound
  vd : BitVec 10
  va : BitVec 10
  vb : BitVec 10
  vc : BitVec 10
  h  : Fin 16
  g  : Fin 16
  deriving DecidableEq, Repr

/-- The payload of PFXM (R159). -/
structure RowPfx where
  frow : BitVec 11
  nrow : BitVec 11
  fcol : BitVec 11
  ncol : BitVec 11
  mk2  : Fin 16
  mneg : Bool
  deriving DecidableEq, Repr

/-! ### What the events carry -/

/-- The header of a pool transaction (R422). -/
structure Txn where
  node : Nat
  src  : Nat
  tseq : Nat
  addr : Nat
  deriving DecidableEq, Repr

/-- A Claim: its header, and the fencing token and the package epoch that it carries (R422, R426). -/
structure ClaimTxn where
  head  : Txn
  tok   : BitVec 32
  epoch : BitVec 32
  deriving DecidableEq, Repr

/-- A flit as a port receives it (R418): its 256 bytes, and whether every codeword of theirs could be corrected (log entry 99). -/
structure Flit where
  raw : List Byte
  fec : Bool
  deriving DecidableEq, Repr

/-- Frequency in MHz and voltage in mV of an island (R9, log entry 73). -/
structure Island where
  mhz : Nat
  mv  : Nat
  deriving DecidableEq, Repr

/-- Atomic operations as a home performs them (R211). -/
inductive AtKind where
  | add | min | max | and | or | xor | swp | cas | fadd
  deriving DecidableEq, Repr

/-- What one participant of a collective sends (R237): who it is, what it asks for, its source bytes. -/
structure CollBlock where
  group : Nat
  seq   : Nat
  nrank : Nat
  rank  : Nat
  kind  : Nat
  op    : Nat
  ety   : Nat
  n     : Nat
  data  : List Byte
  deriving DecidableEq, Repr

/-- A port's bring-up: its laser bias and the wavelengths healthy at the two ends (R451). -/
structure PortUp where
  port : Nat
  bias : Nat
  near : BitVec 10
  far  : BitVec 10
  deriving DecidableEq, Repr

/-- What kindling takes from the supervisor image and the boot images, and what it finds at the ports (R449, R451). entryC and
entryS: where C and S of a control core start, from SVEC on (R453; log entry 30). -/
structure KindlingCfg where
  images   : List (List Byte)
  rootAddr : BitVec 40
  tdirAddr : BitVec 40
  dccCode  : BitVec 16
  entryC   : BitVec 32
  entryS   : BitVec 32
  ports    : List PortUp
  ftime    : BitVec 64
  deriving DecidableEq, Repr

/-- What a GET_MEASUREMENTS request carries beside its index (R450): the nonce and the certificate slot of one that asks for a
signature, and the requester's context. -/
structure MeasReq where
  nonce   : List Byte
  slot    : BitVec 8
  context : Word
  deriving DecidableEq, Repr

/-- One constructor per row of spec/opcode_table.json, in the table's order. -/
inductive Instr where
  | add (h : Hdr) (o : IArith)
  | sub (h : Hdr) (o : IArith)
  | mul (h : Hdr) (o : IArith)
  | mulh (h : Hdr) (o : IBin)
  | div (h : Hdr) (o : IArith)
  | rem (h : Hdr) (o : IBin)
  | and (h : Hdr) (o : IBin)
  | or (h : Hdr) (o : IBin)
  | xor (h : Hdr) (o : IBin)
  | andn (h : Hdr) (o : IBin)
  | shl (h : Hdr) (o : IBin)
  | shr (h : Hdr) (o : IBin)
  | sar (h : Hdr) (o : IBin)
  | rotl (h : Hdr) (o : IBin)
  | min (h : Hdr) (o : IBin)
  | max (h : Hdr) (o : IBin)
  | clz (h : Hdr) (o : IUn)
  | ctz (h : Hdr) (o : IUn)
  | popc (h : Hdr) (o : IUn)
  | sext (h : Hdr) (o : IExt)
  | zext (h : Hdr) (o : IExt)
  | bfx (h : Hdr) (o : IBfx)
  | bfi (h : Hdr) (o : ITri)
  | cmp (h : Hdr) (o : ICmp)
  | sel (h : Hdr) (o : ISel)
  | mov (h : Hdr) (o : IUn)
  | movi (h : Hdr) (d : Fin 16) (k : Fin 4) (v : BitVec 16)
  | lea (h : Hdr) (sh : Fin 16) (o : ITri)
  | fadd (h : Hdr) (o : FBin)
  | fmul (h : Hdr) (o : FBin)
  | ffma (h : Hdr) (o : FTri)
  | fmin (h : Hdr) (o : FMinMax)
  | fmax (h : Hdr) (o : FMinMax)
  | fcmp (h : Hdr) (o : FCmp)
  | fcvt (h : Hdr) (o : FCvt)
  | plog (h : Hdr) (pd pa pb : Fin 8) (tbl : BitVec 4)
  | br (h : Hdr) (off : BitVec 32)
  | brIndirect (h : Hdr) (a : Src)
  | bc (h : Hdr) (cond : ICond) (ty : ITy) (a b : Src) (off : BitVec 32)
  | bq (h : Hdr) (q inv : Bool) (pd : Fin 8) (off : BitVec 32)
  | bqNobranch (h : Hdr) (q inv : Bool) (pd : Fin 8)
  | bpush (h : Hdr) (tgt : Bool) (p : Fin 8) (inv : Bool)
  | jtab (h : Hdr) (a : Src) (cap : Fin 16) (len : BitVec 16) (off : BitVec 32)
  | call (h : Hdr) (link : Dst) (off : BitVec 32)
  | callIndirect (h : Hdr) (link : Dst) (a : Src)
  | ret (h : Hdr) (a : Src)
  | loop (h : Hdr) (cnt : LoopCount) (body : BitVec 16)
  | lbrk (h : Hdr) (n : Fin 4)
  | nop (h : Hdr)
  | ends (h : Hdr)
  | sbwait (h : Hdr) (all : Bool)
  | sleep (h : Hdr) (a : Src) (imm : BitVec 32)
  | sleepUntil (h : Hdr) (a : Src) (imm : BitVec 32)
  | sleepFor (h : Hdr) (a : Src) (imm : BitVec 32)
  | sleepEnd (k : Strm)
  | rdtime (h : Hdr) (ftime : Bool) (d : Dst)
  | rdid (h : Hdr) (sel : Fin 14) (d : Dst)
  | qpush (h : Hdr) (q : Fin 8) (p : Fin 8) (a : Src) (imm : BitVec 32)
  | qpop (h : Hdr) (q : Fin 8) (d : Dst) (p : Fin 8)
  | qcnt (h : Hdr) (q : Fin 8) (d : Dst)
  | pfxi (payload : BitVec 68)
  | pfxm (f : RowPfx)
  | ld (h : Hdr) (o : LdOp)
  | ldTile (h : Hdr) (o : TileOp)
  | ldq (h : Hdr) (o : QMemOp)
  | st (h : Hdr) (o : StOp)
  | stTile (h : Hdr) (o : TileOp)
  | stq (h : Hdr) (o : QMemOp)
  | pref (h : Hdr) (pv : Bool) (scope : Scope) (m : MAddr)
  | aadd (h : Hdr) (o : AtOp)
  | amin (h : Hdr) (o : AtOp)
  | amax (h : Hdr) (o : AtOp)
  | aand (h : Hdr) (o : AtOp)
  | aor (h : Hdr) (o : AtOp)
  | axor (h : Hdr) (o : AtOp)
  | aswp (h : Hdr) (o : AtOp)
  | acas (h : Hdr) (o : AcasOp)
  | afadd (h : Hdr) (o : AfaddOp)
  | redi (h : Hdr) (o : RediOp)
  | redf (h : Hdr) (o : RedfOp)
  | rel (h : Hdr) (o : RelOp)
  | relCommit (h : Hdr) (p : Bool) (m : MAddr)
  | rell (h : Hdr) (scope : Scope) (p : Bool) (d : RelDst)
  | releaseComplete (id : Nat)
  | acq (h : Hdr) (o : AcqOp)
  | acql (h : Hdr) (p : Bool) (a b : Src)
  | fence (h : Hdr) (scope : Scope) (kind : BitVec 4)
  | lsync (h : Hdr)
  | lstat (h : Hdr) (sel : Fin 6) (d : Dst)
  | waita (h : Hdr) (a : Src) (scope : Scope) (m : MAddr)
  | waitaArm (h : Hdr) (a : Src) (scope : Scope) (m : MAddr)
  | wcancel (h : Hdr) (d : Dst)
  | swait (h : Hdr) (sem : BitVec 8) (dec : Bool) (a : Src) (imm : BitVec 32)
  | ssig (h : Hdr) (sem : BitVec 8) (set : Bool) (a : Src) (imm : BitVec 32)
  | srd (h : Hdr) (sem : BitVec 8) (d : Dst)
  | cld (h : Hdr) (o : CapMemOp)
  | cst (h : Hdr) (o : CapMemOp)
  | cnarrow (h : Hdr) (o : CNarrowOp)
  | cinfo (h : Hdr) (fld : Fin 5) (d : Dst) (cs : Fin 16)
  | cchk (h : Hdr) (o : CChkOp)
  | cpy (h : Hdr) (o : E3)
  | cpyn (h : Hdr) (o : E4)
  | cpyt (h : Hdr) (cord : Bool) (o : E4)
  | cgath (h : Hdr) (o : E4)
  | cscat (h : Hdr) (o : E4)
  | cfill (h : Hdr) (o : E3)
  | cred (h : Hdr) (o : E3)
  | credc (h : Hdr) (o : E4)
  | ccoll (h : Hdr) (o : E4)
  | cbget (h : Hdr) (o : E3)
  | cstat (h : Hdr) (sel : Fin 4) (d : Dst) (p : Fin 8) (a : Src) (imm : BitVec 32)
  | draft (h : Hdr) (o : E4)
  | drstep (h : Hdr) (d : Dst) (a : Src)
  | copyCommandBegin
  | copyCommandComplete (tag : BitVec 16)
  | draftFetch (idx : Nat)
  | draftArrival (idx : Nat)
  | vadd (h : Hdr) (o : VBin)
  | vsub (h : Hdr) (o : VBin)
  | vmul (h : Hdr) (o : VBin)
  | vfma (h : Hdr) (o : VTri)
  | vmin (h : Hdr) (o : VBit)
  | vmax (h : Hdr) (o : VBit)
  | vabs (h : Hdr) (o : VAbsOp)
  | vneg (h : Hdr) (o : VAbsOp)
  | vand (h : Hdr) (o : VBit)
  | vor (h : Hdr) (o : VBit)
  | vxor (h : Hdr) (o : VBit)
  | vshl (h : Hdr) (o : VBit)
  | vshr (h : Hdr) (o : VBit)
  | vsar (h : Hdr) (o : VBit)
  | vcmp (h : Hdr) (o : VCmpOp)
  | vsel (h : Hdr) (o : VSelOp)
  | vmov (h : Hdr) (o : VMovOp)
  | vbcast (h : Hdr) (o : VBcOp)
  | viota (h : Hdr) (o : VIotaOp)
  | vcvt (h : Hdr) (o : VUn)
  | vqnt (h : Hdr) (o : VUn3)
  | vqntMx (h : Hdr) (o : VUn3)
  | vdqnt (h : Hdr) (o : VUn3)
  | vdqntMx (h : Hdr) (o : VUn3)
  | vrsum (h : Hdr) (o : VRedOp)
  | vrmax (h : Hdr) (o : VRedOp)
  | vramax (h : Hdr) (o : VRedOp)
  | vrmin (h : Hdr) (o : VRedOp)
  | vargmax (h : Hdr) (o : VRedOp)
  | vscan (h : Hdr) (o : VScanOp)
  | vexp2 (h : Hdr) (o : VUn)
  | vlog2 (h : Hdr) (o : VUn)
  | vrcp (h : Hdr) (o : VUn)
  | vrsqrt (h : Hdr) (o : VUn)
  | vsqrt (h : Hdr) (o : VUn)
  | vtanh (h : Hdr) (o : VUn)
  | vsincos (h : Hdr) (o : VUn3)
  | vsig (h : Hdr) (o : VUn)
  | vtrn (h : Hdr) (o : VTrnOp)
  | vperm (h : Hdr) (o : VPermOp)
  | vshuf (h : Hdr) (o : VShufOp)
  | vsort (h : Hdr) (o : VSortOp)
  | vmrg (h : Hdr) (o : VMrgOp)
  | vdrop (h : Hdr) (o : VDropOp)
  | vrng (h : Hdr) (o : VRngOp)
  | vdefer (h : Hdr) (o : VDeferOp)
  | vdrain (h : Hdr) (o : VDrainOp)
  | vshape (h : Hdr) (sh : Fin 4) (v : ShapeVal)
  | mlog (h : Hdr) (md ma mb : Fin 16) (tbl : BitVec 4)
  | mcnt (h : Hdr) (shp : Fin 4) (d : Dst) (ma : Fin 16)
  | mfirst (h : Hdr) (shp : Fin 4) (d : Dst) (ma : Fin 16)
  | vext (h : Hdr) (shp : Fin 4) (ty : EType) (d : Dst) (va : BitVec 10) (idx : VIdx)
  | vins (h : Hdr) (shp : Fin 4) (ty : EType) (vd : BitVec 10) (a : Src) (idx : VIdx)
  | mma (h : Hdr) (ck : Option (Fin 8)) (o : E4)
  | mmaz (h : Hdr) (ck : Option (Fin 8)) (o : E4)
  | azero (h : Hdr) (e : EHdr) (d0 : OReg)
  | adrain (h : Hdr) (ck : Option (Fin 8)) (o : E3)
  | aload (h : Hdr) (o : E3)
  | aacc (h : Hdr) (o : E3)
  | mstat (h : Hdr) (sel : Fin 3) (d : Dst) (p : Fin 8)
  | mstop (h : Hdr) (o : RUn)
  | mcksumOpen (h : Hdr) (slot : Fin 8) (e : EHdr) (d0 : OReg)
  | mcksumClose (h : Hdr) (slot : Fin 8) (e : EHdr)
  | matrixCommandBegin
  | matrixCommandComplete
  | uaxpby (h : Hdr) (o : UOp)
  | uadamw (h : Hdr) (o : UOp)
  | uema (h : Hdr) (o : UOp)
  | usgdm (h : Hdr) (nes : Bool) (o : UOp)
  | uclipVal (h : Hdr) (o : UOp)
  | uclipNrm (h : Hdr) (o : UOp)
  | xenq (h : Hdr) (d : Dst) (a : Src) (k : Fin 16) (rl p : Bool) (imm : BitVec 32)
  | xenqTile (h : Hdr) (d : Dst) (a w : Src) (rl p : Bool) (imm : BitVec 32)
  | xdeq (h : Hdr) (d : Dst) (a b c : Src) (imm : BitVec 32)
  | xcmb (h : Hdr) (o : AcqOp)
  | xstat (h : Hdr) (sel : Fin 8) (d : Dst) (a : Src) (imm : BitVec 32)
  | xkick (h : Hdr) (d : Dst) (a : Src) (imm : BitVec 32)
  | xdone (h : Hdr)
  | rickAgeExpiry (r : Nat)
  | rickFiring (die : Nat)
  | susp (h : Hdr) (tag : BitVec 7)
  | suspCmb (h : Hdr) (tag : BitVec 7) (a : Src) (imm : BitVec 32)
  | yield (h : Hdr) (tag : BitVec 7)
  | exit (h : Hdr)
  | spawn (h : Hdr) (d : Dst) (p : Bool) (m : MAddr)
  | join (h : Hdr) (tag : BitVec 7) (scope : Scope) (m : MAddr)
  | twheel (h : Hdr) (tag : BitVec 7) (a : Src) (imm : BitVec 32)
  | ctxliveTile (h : Hdr) (a b : Src) (imm : BitVec 32)
  | ctxliveAcc (h : Hdr) (a b : Src) (imm : BitVec 32)
  | ctxliveClr (h : Hdr)
  | trap (h : Hdr) (code : BitVec 16)
  | eret (h : Hdr)
  | csrr (h : Hdr) (d : Dst) (csr : BitVec 12)
  | csrw (h : Hdr) (csr : BitVec 12) (a : Src)
  | csrxSwp (h : Hdr) (d : Dst) (csr : BitVec 12) (a : Src)
  | csrxSet (h : Hdr) (d : Dst) (csr : BitVec 12) (a : Src)
  | csrxClr (h : Hdr) (d : Dst) (csr : BitVec 12) (a : Src)
  | tlbinvVa (h : Hdr) (pkg : Bool) (a b : Src) (imm : BitVec 32)
  | tlbinvTnt (h : Hdr) (pkg : Bool) (a b : Src) (imm : BitVec 32)
  | tlbinvAll (h : Hdr) (pkg : Bool) (a b : Src) (imm : BitVec 32)
  | tlbinvCap (h : Hdr) (pkg : Bool) (a b : Src) (imm : BitVec 32)
  | tlbinvIc (h : Hdr) (pkg : Bool) (a b : Src) (imm : BitVec 32)
  | ctxsv (h : Hdr) (d : Dst) (a b : Src) (imm : BitVec 32)
  | ctxld (h : Hdr) (d : Dst) (a b : Src) (imm : BitVec 32)
  | semmap (h : Hdr) (zero : Bool) (d : Dst) (a b : Src) (imm : BitVec 32)
  | mdrain (h : Hdr) (o : RUn)
  | preempt (h : Hdr) (wait : Bool) (o : RUn)
  | preemptStop
  | cmintMint (h : Hdr) (d : Dst) (a b c : Src) (imm : BitVec 32)
  | cmintRevoke (h : Hdr) (d : Dst) (a b c : Src) (imm : BitVec 32)
  | haltWfi (h : Hdr)
  | haltStop (h : Hdr)
  | trapTaken (k : Strm)
  | queueStallExpiry
  | watchdog
  | hostLaunch (fn : Nat)
  | dealChunk (region slot : Nat)
  | dispatch
  | claim (c : ClaimTxn)
  | continuationWake (rec : Nat)
  | jobComplete (region slot : Nat)
  | completionWordWrite (region slot : Nat)
  | supervisorFree (rec : Nat)
  | timerSlotBoundary
  | timerOverflowMove (rec : Nat)
  | groupGate (g : Nat)
  | groupWakeDone (g : Nat)
  | billetSpill (log seg : Nat)
  | compaction (log seg : Nat)
  | leaseRenewal (page : Nat)
  | leaseExpiry (page : Nat)
  | read (t : Txn) (len : Nat)
  | bulkGet (t : Txn) (len : Nat)
  | leaseAcquire (t : Txn)
  | leaseRenew (t : Txn) (grant : BitVec 64)
  | leaseRelease (t : Txn)
  | leaseRecall (t : Txn)
  | billetShip (t : Txn) (head area : List Byte)
  | stepCommit (t : Txn) (bodies : List (List Byte))
  | atomic (t : Txn) (op : AtKind) (w64 sgn : Bool) (a b : Word)
  | reduction (t : Txn) (op : RedKind) (ety : EType) (data : List Byte)
  | inPlaceWrite (t : Txn) (data : List Byte)
  | tokenRaise (t : Txn) (lost target : Nat)
  | collective (t : Txn) (b : CollBlock)
  | poison (t : Txn)
  | reassign (t : Txn) (region : Nat)
  | reservedTransaction (op : BitVec 8) (t : Txn)
  | lostCompletionWrite (space : Fin 2) (addr : Nat)
  | responseTimeout (node : Nat)
  | dataFlit (port : Nat) (f : Flit)
  | nakFlit (port : Nat) (f : Flit)
  | trainingFlit (port : Nat) (active : BitVec 10)
  | replayTimeout (port : Nat)
  | wavelengthWindow (port : Nat) (csym ucw : List Nat)
  | spareLock (port : Nat) (lambda : Nat) (ok : Bool)
  | portBringup (port : Nat) (bias : Nat) (near far : BitVec 10)
  | laserMeasurement (port : Nat) (bias : Nat)
  | launchRingDoorbell (fn : Nat) (tail : BitVec 32)
  | faultRingTailWrite (fn : Nat) (tail : BitVec 32)
  | hostWindowClose
  | hostWindowSet (base : BitVec 10) (size : BitVec 9)
  | hostRegisterWrite (fn : Nat) (off : Nat) (v : Word)
  | hostMemRequest (line : Nat) (excl : Bool) (store : Option (List Byte))
  | hostLoss
  | accinjWrite (v : Word)
  | corectlWrite (v : Word)
  | evpendClear (v : Word)
  | drtailWrite (v : Word)
  | draftRingConfigWrite (base : Bool) (v : Word)
  | csrWrite (csr : BitVec 12) (v : Word)
  | nodeStateWrite (node : Nat) (up : Bool)
  | rowRemapWrite (stack idx : Nat) (v : BitVec 31)
  | mgmtRegisterWrite (off : Nat) (v : Word)
  | ashUnfreeze (ring : Nat)
  | ue (code : BitVec 8) (loc : BitVec 24)
  | packageFatal
  | dccErrorStop (die : Nat)
  | hbmScrub (line : Nat) (bad : Bool)
  | rowSparing (stack bank row : Nat) (badSpares : List Nat) (lines : List Nat)
  | thermalReport (die temp : Nat)
  | thermalTrip (die : Nat)
  | powerCap (milliwatts : Nat) (die : Nat)
  | dvfsChange (island : Nat) (v : Island)
  | coldReset
  | warmReset
  | tinder (copyA copyB : List Byte)
  | kindling (k : KindlingCfg)
  | getVersion
  | getCapabilities
  | negotiateAlgorithms (hash asym : Bool)
  | getDigests
  | getCertificate (off len : Nat)
  | getMeasurements (idx : BitVec 8) (sign : Bool) (req : MeasReq)
  | unsupportedRequest
  | idleFlit (port : Nat) (f : Flit)
  | hostLinkTrained
  | hostSnoop (line : Nat)
  | accessComplete (id : Nat)
  deriving DecidableEq, Repr

end Sys2Proof
end

