-- ==== Sys2Proof/Decode.lean ====
section
/-!
DEFINITION. The decoder of the 96-bit instruction word (R149 to R160) and, after it, the encoder. The decoder is total:
it answers an instruction or a named error. Which stream may issue a word, its privilege and its prefixes are checked
where it issues (Machine/Ops.lean), in the order of R162.
-/

namespace Sys2Proof

/-- Why a word is not an instruction; each is ILLEGAL by R155, R161 or R162. -/
inductive DecodeError where
  | short | zeroWord | unassigned | slot | selector | reserved | code
  deriving DecidableEq, Repr

abbrev Dec := Except DecodeError

/-- A named condition of the decoder. -/
def need (c : Bool) (e : DecodeError) : Dec Unit := if c then .ok () else .error e

/-! ### Fields and formats -/

/-- Bits [95:68] of a word (R149). -/
structure WHead where
  grp   : BitVec 6
  minor : BitVec 6
  pneg  : BitVec 1
  pred  : BitVec 3
  wait  : BitVec 8
  seten : BitVec 1
  slot  : BitVec 3
  deriving DecidableEq, Repr

/-- Format R (R150). -/
structure FmtR where
  dst  : BitVec 7
  a    : BitVec 7
  b    : BitVec 7
  c    : BitVec 7
  cond : BitVec 4
  sz   : BitVec 4
  imm  : BitVec 32
  deriving DecidableEq, Repr

/-- Format V (R151). -/
structure FmtV where
  vd   : BitVec 10
  va   : BitVec 10
  vb   : BitVec 10
  vc   : BitVec 10
  shp  : BitVec 2
  ty   : BitVec 4
  mask : BitVec 4
  rnd  : BitVec 2
  sat  : BitVec 1
  fn   : BitVec 15
  deriving DecidableEq, Repr

/-- Format M (R152). -/
structure FmtM where
  data  : BitVec 7
  cap   : BitVec 4
  oreg  : BitVec 7
  size  : BitVec 3
  scope : BitVec 3
  kmod  : BitVec 4
  off   : BitVec 40
  deriving DecidableEq, Repr

/-- Format E (R153). -/
structure FmtE where
  wsem : BitVec 8
  wthr : BitVec 16
  ssem : BitVec 8
  sinc : BitVec 4
  d0   : BitVec 7
  d1   : BitVec 7
  d2   : BitVec 7
  d3   : BitVec 7
  emod : BitVec 4
  deriving DecidableEq, Repr

/-- Format B (R154). -/
structure FmtB where
  kind : BitVec 4
  opnd : BitVec 32
  off  : BitVec 32
  deriving DecidableEq, Repr

def WHead.unpack (w : IWord) : WHead :=
  ⟨w.extractLsb' 90 6, w.extractLsb' 84 6, w.extractLsb' 83 1, w.extractLsb' 80 3, w.extractLsb' 72 8,
    w.extractLsb' 71 1, w.extractLsb' 68 3⟩

def WHead.pack (f : WHead) : BitVec 28 :=
  f.grp ++ f.minor ++ f.pneg ++ f.pred ++ f.wait ++ f.seten ++ f.slot

def FmtR.unpack (w : IWord) : FmtR :=
  ⟨w.extractLsb' 61 7, w.extractLsb' 54 7, w.extractLsb' 47 7, w.extractLsb' 40 7, w.extractLsb' 36 4,
    w.extractLsb' 32 4, w.extractLsb' 0 32⟩

def FmtR.pack (f : FmtR) : BitVec 68 := f.dst ++ f.a ++ f.b ++ f.c ++ f.cond ++ f.sz ++ f.imm

def FmtV.unpack (w : IWord) : FmtV :=
  ⟨w.extractLsb' 58 10, w.extractLsb' 48 10, w.extractLsb' 38 10, w.extractLsb' 28 10, w.extractLsb' 26 2,
    w.extractLsb' 22 4, w.extractLsb' 18 4, w.extractLsb' 16 2, w.extractLsb' 15 1, w.extractLsb' 0 15⟩

def FmtV.pack (f : FmtV) : BitVec 68 :=
  f.vd ++ f.va ++ f.vb ++ f.vc ++ f.shp ++ f.ty ++ f.mask ++ f.rnd ++ f.sat ++ f.fn

def FmtM.unpack (w : IWord) : FmtM :=
  ⟨w.extractLsb' 61 7, w.extractLsb' 57 4, w.extractLsb' 50 7, w.extractLsb' 47 3, w.extractLsb' 44 3,
    w.extractLsb' 40 4, w.extractLsb' 0 40⟩

def FmtM.pack (f : FmtM) : BitVec 68 := f.data ++ f.cap ++ f.oreg ++ f.size ++ f.scope ++ f.kmod ++ f.off

def FmtE.unpack (w : IWord) : FmtE :=
  ⟨w.extractLsb' 60 8, w.extractLsb' 44 16, w.extractLsb' 36 8, w.extractLsb' 32 4, w.extractLsb' 25 7,
    w.extractLsb' 18 7, w.extractLsb' 11 7, w.extractLsb' 4 7, w.extractLsb' 0 4⟩

def FmtE.pack (f : FmtE) : BitVec 68 :=
  f.wsem ++ f.wthr ++ f.ssem ++ f.sinc ++ f.d0 ++ f.d1 ++ f.d2 ++ f.d3 ++ f.emod

def FmtB.unpack (w : IWord) : FmtB := ⟨w.extractLsb' 64 4, w.extractLsb' 32 32, w.extractLsb' 0 32⟩

def FmtB.pack (f : FmtB) : BitVec 68 := f.kind ++ f.opnd ++ f.off

/-! ### Selectors and codes -/

/-- R155, as a source of format R. -/
def Src.dec (s : BitVec 7) : Dec Src :=
  if s.getLsbD 6 then .ok (.small (s.extractLsb' 0 6))
  else if s.getLsbD 5 then
    if s = 0x20 then .ok .q else if s = 0x21 then .ok .zero else if s = 0x22 then .ok .imm else .error .selector
  else if s.getLsbD 4 then .ok (.t (s.extractLsb' 0 4).toFin)
  else .ok (.n (s.extractLsb' 0 4).toFin)

def Src.enc : Src → BitVec 7
  | .n k => (0 : BitVec 3) ++ (BitVec.ofFin k : BitVec 4)
  | .t k => (1 : BitVec 3) ++ (BitVec.ofFin k : BitVec 4)
  | .q => 0x20
  | .zero => 0x21
  | .imm => 0x22
  | .small v => (1 : BitVec 1) ++ v

/-- R155, as a source where the format has no IMM32: 0x22 is not accepted. -/
def Src.decNoImm (s : BitVec 7) : Dec Src := if s = 0x22 then .error .selector else Src.dec s

/-- R155, as a destination. -/
def Dst.dec (s : BitVec 7) : Dec Dst :=
  if s.extractLsb' 4 3 = 0 then .ok (.n (s.extractLsb' 0 4).toFin)
  else if s = 0x20 then .ok .q else if s = 0x23 then .ok .t else if s = 0x24 then .ok .discard
  else .error .selector

def Dst.enc : Dst → BitVec 7
  | .n k => (0 : BitVec 3) ++ (BitVec.ofFin k : BitVec 4)
  | .q => 0x20
  | .t => 0x23
  | .discard => 0x24

/-- OREG and the descriptor selectors (R152, R153). -/
def OReg.dec (s : BitVec 7) : Dec OReg :=
  if s.extractLsb' 4 3 = 0 then .ok (.n (s.extractLsb' 0 4).toFin)
  else if s.extractLsb' 4 3 = 1 then .ok (.t (s.extractLsb' 0 4).toFin)
  else if s = 0x20 then .ok .q else if s = 0x21 then .ok .zero else .error .selector

def OReg.enc : OReg → BitVec 7
  | .n k => (0 : BitVec 3) ++ (BitVec.ofFin k : BitVec 4)
  | .t k => (1 : BitVec 3) ++ (BitVec.ofFin k : BitVec 4)
  | .q => 0x20
  | .zero => 0x21

/-- The element type codes (R67). -/
def EType.dec (c : BitVec 4) : Dec EType :=
  match c.toNat with
  | 0 => .ok .f32 | 1 => .ok .bf16 | 2 => .ok .f16 | 3 => .ok .e4m3 | 4 => .ok .e5m2 | 5 => .ok .e2m1
  | 6 => .ok .e8m0 | 8 => .ok .s8 | 9 => .ok .s16 | 10 => .ok .s32 | 11 => .ok .z8 | 12 => .ok .z16
  | 13 => .ok .z32 | _ => .error .code

def EType.enc : EType → BitVec 4
  | .f32 => 0 | .bf16 => 1 | .f16 => 2 | .e4m3 => 3 | .e5m2 => 4 | .e2m1 => 5 | .e8m0 => 6
  | .s8 => 8 | .s16 => 9 | .s32 => 10 | .z8 => 11 | .z16 => 12 | .z32 => 13

def EType.isInt : EType → Bool
  | .s8 | .s16 | .s32 | .z8 | .z16 | .z32 => true
  | _ => false

def Rnd.dec (c : BitVec 2) : Rnd :=
  if c = 0 then .rne else if c = 1 then .rz else if c = 2 then .rd else .ru

def Rnd.enc : Rnd → BitVec 2
  | .rne => 0 | .rz => 1 | .rd => 2 | .ru => 3

def Scope.dec (c : BitVec 3) : Dec Scope :=
  if c = 0 then .ok .core else if c = 1 then .ok .die else if c = 2 then .ok .pkg
  else if c = 3 then .ok .pool else .error .code

def Scope.enc : Scope → BitVec 3
  | .core => 0 | .die => 1 | .pkg => 2 | .pool => 3

def ICond.dec (c : BitVec 3) : ICond :=
  if c = 0 then .eq else if c = 1 then .ne else if c = 2 then .lt else if c = 3 then .ge
  else if c = 4 then .le else if c = 5 then .gt else if c = 6 then .tst else .ntst

def ICond.enc : ICond → BitVec 3
  | .eq => 0 | .ne => 1 | .lt => 2 | .ge => 3 | .le => 4 | .gt => 5 | .tst => 6 | .ntst => 7

def FCond.dec (c : BitVec 4) : Dec FCond :=
  if c = 0 then .ok .eq else if c = 1 then .ok .ne else if c = 2 then .ok .lt else if c = 3 then .ok .le
  else if c = 4 then .ok .gt else if c = 5 then .ok .ge else .error .code

def FCond.enc : FCond → BitVec 4
  | .eq => 0 | .ne => 1 | .lt => 2 | .le => 3 | .gt => 4 | .ge => 5

def SFTy.dec (c : BitVec 4) : Dec SFTy :=
  if c = 0 then .ok .f32 else if c = 1 then .ok .bf16 else if c = 2 then .ok .f16 else .error .code

def SFTy.enc : SFTy → BitVec 4
  | .f32 => 0 | .bf16 => 1 | .f16 => 2

def bit1 (b : Bool) : BitVec 1 := BitVec.ofBool b

/-- Bits [83:68]: SLOT must be zero when SETEN is 0 (R149). -/
def Hdr.dec (f : WHead) : Dec Hdr := do
  need (f.seten = 1 || f.slot = 0) .slot
  return ⟨f.pneg = 1, f.pred.toFin, f.wait, if f.seten = 1 then some f.slot.toFin else none⟩

def Hdr.enc (g m : BitVec 6) (h : Hdr) : BitVec 28 :=
  (WHead.mk g m (bit1 h.pneg) (BitVec.ofFin h.pred) h.wait (bit1 h.set.isSome)
    (match h.set with | some k => BitVec.ofFin k | none => 0)).pack

/-- SZ of group SINT without SAT (R150). -/
def ITy.dec (sz : BitVec 4) : ITy := ⟨sz.getLsbD 3, (sz.extractLsb' 0 2).toFin⟩

def ITy.enc (t : ITy) (sat : Bool) : BitVec 4 := bit1 t.sgn ++ bit1 sat ++ (BitVec.ofFin t.w : BitVec 2)

/-- IMM32 is reserved where no source selects it (R149, R155). -/
def immOk (imm : BitVec 32) (srcs : List Src) : Bool := imm = 0 || srcs.contains .imm

/-! ### SINT, SFLT (R171 to R183) -/

def decIArith (f : FmtR) : Dec IArith := do
  let d ← Dst.dec f.dst
  let a ← Src.dec f.a
  let b ← Src.dec f.b
  need (f.c = 0 && f.cond = 0 && immOk f.imm [a, b]) .reserved
  return ⟨f.sz.getLsbD 2, ITy.dec f.sz, d, a, b, f.imm⟩

def encIArith (o : IArith) : FmtR := ⟨o.d.enc, o.a.enc, o.b.enc, 0, 0, o.ty.enc o.sat, o.imm⟩

def decIBin (f : FmtR) : Dec IBin := do
  let d ← Dst.dec f.dst
  let a ← Src.dec f.a
  let b ← Src.dec f.b
  need (f.c = 0 && f.cond = 0 && !f.sz.getLsbD 2 && immOk f.imm [a, b]) .reserved
  return ⟨ITy.dec f.sz, d, a, b, f.imm⟩

def encIBin (o : IBin) : FmtR := ⟨o.d.enc, o.a.enc, o.b.enc, 0, 0, o.ty.enc false, o.imm⟩

def decIUn (f : FmtR) : Dec IUn := do
  let d ← Dst.dec f.dst
  let a ← Src.dec f.a
  need (f.b = 0 && f.c = 0 && f.cond = 0 && !f.sz.getLsbD 2 && immOk f.imm [a]) .reserved
  return ⟨ITy.dec f.sz, d, a, f.imm⟩

def encIUn (o : IUn) : FmtR := ⟨o.d.enc, o.a.enc, 0, 0, 0, o.ty.enc false, o.imm⟩

/-- SEXT and ZEXT: SZ fixed (R174). -/
def decIExt (sz : BitVec 4) (f : FmtR) : Dec IExt := do
  let d ← Dst.dec f.dst
  let a ← Src.dec f.a
  let b ← Src.dec f.b
  need (f.c = 0 && f.cond = 0 && f.sz = sz && immOk f.imm [a, b]) .reserved
  return ⟨d, a, b, f.imm⟩

def encIExt (sz : BitVec 4) (o : IExt) : FmtR := ⟨o.d.enc, o.a.enc, o.b.enc, 0, 0, sz, o.imm⟩

def decIBfx (f : FmtR) : Dec IBfx := do
  let d ← Dst.dec f.dst
  let a ← Src.dec f.a
  let b ← Src.dec f.b
  need (f.c = 0 && f.cond = 0 && f.sz.extractLsb' 0 3 = 3 && immOk f.imm [a, b]) .reserved
  return ⟨f.sz.getLsbD 3, d, a, b, f.imm⟩

def encIBfx (o : IBfx) : FmtR := ⟨o.d.enc, o.a.enc, o.b.enc, 0, 0, bit1 o.sgn ++ (3 : BitVec 3), o.imm⟩

/-- BFI, and LEA with its shift in COND: W = 3, S = 0, SAT = 0 (R174, R178). -/
def decITri (f : FmtR) : Dec ITri := do
  let d ← Dst.dec f.dst
  let a ← Src.dec f.a
  let b ← Src.dec f.b
  let c ← Src.dec f.c
  need (f.sz = 3 && immOk f.imm [a, b, c]) .reserved
  return ⟨d, a, b, c, f.imm⟩

def encITri (cond : BitVec 4) (o : ITri) : FmtR := ⟨o.d.enc, o.a.enc, o.b.enc, o.c.enc, cond, 3, o.imm⟩

def decICmp (f : FmtR) : Dec ICmp := do
  let d ← Dst.dec f.dst
  let a ← Src.dec f.a
  let b ← Src.dec f.b
  need (f.cond.extractLsb' 3 1 = 0) .code
  need (f.c.extractLsb' 3 4 = 0 && !f.sz.getLsbD 2 && immOk f.imm [a, b]) .reserved
  return ⟨ICond.dec (f.cond.extractLsb' 0 3), ITy.dec f.sz, d, (f.c.extractLsb' 0 3).toFin, a, b, f.imm⟩

def encICmp (o : ICmp) : FmtR :=
  ⟨o.d.enc, o.a.enc, o.b.enc, (0 : BitVec 4) ++ (BitVec.ofFin o.p : BitVec 3), (0 : BitVec 1) ++ o.cond.enc,
    o.ty.enc false, o.imm⟩

def decISel (f : FmtR) : Dec ISel := do
  let d ← Dst.dec f.dst
  let a ← Src.dec f.a
  let b ← Src.dec f.b
  need (f.c.extractLsb' 4 3 = 0 && f.cond = 0 && !f.sz.getLsbD 2 && immOk f.imm [a, b]) .reserved
  return ⟨ITy.dec f.sz, d, (f.c.extractLsb' 0 3).toFin, f.c.getLsbD 3, a, b, f.imm⟩

def encISel (o : ISel) : FmtR :=
  ⟨o.d.enc, o.a.enc, o.b.enc, (0 : BitVec 3) ++ bit1 o.inv ++ (BitVec.ofFin o.p : BitVec 3), 0,
    o.ty.enc false, o.imm⟩

/-- MOVI (R177): DST n0 to n15, k in COND[1:0], the value in IMM32[15:0]. -/
def decMovi (h : Hdr) (f : FmtR) : Dec Instr := do
  need (f.dst.extractLsb' 4 3 = 0) .selector
  need (f.a = 0 && f.b = 0 && f.c = 0 && f.sz = 0 && f.cond.extractLsb' 2 2 = 0 && f.imm.extractLsb' 16 16 = 0)
    .reserved
  return .movi h (f.dst.extractLsb' 0 4).toFin (f.cond.extractLsb' 0 2).toFin (f.imm.extractLsb' 0 16)

def decSint (m : Nat) (h : Hdr) (f : FmtR) : Dec Instr :=
  match m with
  | 0x00 => return .add h (← decIArith f)
  | 0x01 => return .sub h (← decIArith f)
  | 0x02 => return .mul h (← decIArith f)
  | 0x03 => return .mulh h (← decIBin f)
  | 0x04 => return .div h (← decIArith f)
  | 0x05 => return .rem h (← decIBin f)
  | 0x06 => return .and h (← decIBin f)
  | 0x07 => return .or h (← decIBin f)
  | 0x08 => return .xor h (← decIBin f)
  | 0x09 => return .andn h (← decIBin f)
  | 0x0A => return .shl h (← decIBin f)
  | 0x0B => return .shr h (← decIBin f)
  | 0x0C => return .sar h (← decIBin f)
  | 0x0D => return .rotl h (← decIBin f)
  | 0x0E => return .min h (← decIBin f)
  | 0x0F => return .max h (← decIBin f)
  | 0x10 => return .clz h (← decIUn f)
  | 0x11 => return .ctz h (← decIUn f)
  | 0x12 => return .popc h (← decIUn f)
  | 0x13 => return .sext h (← decIExt 0xB f)
  | 0x14 => return .zext h (← decIExt 0x3 f)
  | 0x15 => return .bfx h (← decIBfx f)
  | 0x16 => do
    need (f.cond = 0) .reserved
    return .bfi h (← decITri f)
  | 0x17 => return .cmp h (← decICmp f)
  | 0x18 => return .sel h (← decISel f)
  | 0x19 => return .mov h (← decIUn f)
  | 0x1A => decMovi h f
  | 0x1B => return .lea h f.cond.toFin (← decITri f)
  | _ => .error .unassigned

def decFBin (f : FmtR) : Dec FBin := do
  let ty ← SFTy.dec f.sz
  let d ← Dst.dec f.dst
  let a ← Src.dec f.a
  let b ← Src.dec f.b
  need (f.c = 0 && f.cond.extractLsb' 2 2 = 0 && immOk f.imm [a, b]) .reserved
  return ⟨ty, Rnd.dec (f.cond.extractLsb' 0 2), d, a, b, f.imm⟩

def encFBin (o : FBin) : FmtR :=
  ⟨o.d.enc, o.a.enc, o.b.enc, 0, (0 : BitVec 2) ++ o.rnd.enc, o.ty.enc, o.imm⟩

def decFTri (f : FmtR) : Dec FTri := do
  let ty ← SFTy.dec f.sz
  let d ← Dst.dec f.dst
  let a ← Src.dec f.a
  let b ← Src.dec f.b
  let c ← Src.dec f.c
  need (f.cond.extractLsb' 2 2 = 0 && immOk f.imm [a, b, c]) .reserved
  return ⟨ty, Rnd.dec (f.cond.extractLsb' 0 2), d, a, b, c, f.imm⟩

def encFTri (o : FTri) : FmtR :=
  ⟨o.d.enc, o.a.enc, o.b.enc, o.c.enc, (0 : BitVec 2) ++ o.rnd.enc, o.ty.enc, o.imm⟩

def decFMinMax (f : FmtR) : Dec FMinMax := do
  let ty ← SFTy.dec f.sz
  let d ← Dst.dec f.dst
  let a ← Src.dec f.a
  let b ← Src.dec f.b
  need (f.c = 0 && f.cond = 0 && immOk f.imm [a, b]) .reserved
  return ⟨ty, d, a, b, f.imm⟩

def encFMinMax (o : FMinMax) : FmtR := ⟨o.d.enc, o.a.enc, o.b.enc, 0, 0, o.ty.enc, o.imm⟩

def decFCmp (f : FmtR) : Dec FCmp := do
  let ty ← SFTy.dec f.sz
  let cond ← FCond.dec f.cond
  let d ← Dst.dec f.dst
  let a ← Src.dec f.a
  let b ← Src.dec f.b
  need (f.c.extractLsb' 3 4 = 0 && immOk f.imm [a, b]) .reserved
  return ⟨cond, ty, d, (f.c.extractLsb' 0 3).toFin, a, b, f.imm⟩

def encFCmp (o : FCmp) : FmtR :=
  ⟨o.d.enc, o.a.enc, o.b.enc, (0 : BitVec 4) ++ (BitVec.ofFin o.p : BitVec 3), o.cond.enc, o.ty.enc, o.imm⟩

/-- FCVT (R182): a second type that is f32, bf16 or f16 is not accepted as the source with COND[3] = 1. -/
def decFCvt (f : FmtR) : Dec FCvt := do
  let ty ← SFTy.dec f.sz
  let other ← EType.dec (f.c.extractLsb' 0 4)
  need (!f.cond.getLsbD 3 || !(other = .f32 || other = .bf16 || other = .f16)) .code
  let d ← Dst.dec f.dst
  let a ← Src.dec f.a
  need (f.b = 0 && f.c.extractLsb' 4 3 = 0 && immOk f.imm [a]) .reserved
  return ⟨ty, other, f.cond.getLsbD 3, f.cond.getLsbD 2, Rnd.dec (f.cond.extractLsb' 0 2), d, a, f.imm⟩

def encFCvt (o : FCvt) : FmtR :=
  ⟨o.d.enc, o.a.enc, 0, (0 : BitVec 3) ++ o.other.enc, bit1 o.toSz ++ bit1 o.sat ++ o.rnd.enc, o.ty.enc, o.imm⟩

def decPlog (h : Hdr) (f : FmtR) : Dec Instr := do
  need (f.dst = 0 && f.sz = 0 && f.imm = 0 && f.a.extractLsb' 3 4 = 0 && f.b.extractLsb' 3 4 = 0 &&
    f.c.extractLsb' 3 4 = 0) .reserved
  return .plog h (f.c.extractLsb' 0 3).toFin (f.a.extractLsb' 0 3).toFin (f.b.extractLsb' 0 3).toFin f.cond

def decSflt (m : Nat) (h : Hdr) (f : FmtR) : Dec Instr :=
  match m with
  | 0x00 => return .fadd h (← decFBin f)
  | 0x01 => return .fmul h (← decFBin f)
  | 0x02 => return .ffma h (← decFTri f)
  | 0x03 => return .fmin h (← decFMinMax f)
  | 0x04 => return .fmax h (← decFMinMax f)
  | 0x05 => return .fcmp h (← decFCmp f)
  | 0x06 => return .fcvt h (← decFCvt f)
  | 0x07 => decPlog h f
  | _ => .error .unassigned

/-! ### CTRL (R184 to R202) -/

def p3 (x : BitVec 7) : Fin 8 := (x.extractLsb' 0 3).toFin

/-- A field of format B's operand bits, counted from payload bit 32. -/
def opF (f : FmtB) (lo w : Nat) : BitVec w := f.opnd.extractLsb' (lo - 32) w

/-- Every operand bit outside the mask is zero. -/
def opOnly (f : FmtB) (mask : BitVec 32) : Bool := f.opnd &&& ~~~mask = 0

def decB (m : Nat) (h : Hdr) (f : FmtB) : Dec Instr :=
  match m with
  | 0x00 =>
    if f.kind = 0 then do
      need (f.opnd = 0) .reserved
      return .br h f.off
    else if f.kind = 1 then do
      let a ← Src.decNoImm (opF f 57 7)
      need (opOnly f 0xFE000000 && f.off = 0) .reserved
      return .brIndirect h a
    else .error .code
  | 0x01 => do
    need (f.kind.extractLsb' 2 2 = 0) .code
    let a ← Src.decNoImm (opF f 57 7)
    let b ← Src.decNoImm (opF f 50 7)
    need (opOnly f 0xFFFFC000) .reserved
    return .bc h (ICond.dec (opF f 47 3)) ⟨(opF f 46 1) = 1, (f.kind.extractLsb' 0 2).toFin⟩ a b f.off
  | 0x02 => do
    need (f.kind.extractLsb' 3 1 = 0) .code
    need (opOnly f 7) .reserved
    if f.kind.getLsbD 2 then
      need (f.off = 0) .reserved
      return .bqNobranch h (f.kind.getLsbD 0) (f.kind.getLsbD 1) (opF f 32 3).toFin
    else return .bq h (f.kind.getLsbD 0) (f.kind.getLsbD 1) (opF f 32 3).toFin f.off
  | 0x04 => do
    need (f.kind = 0) .code
    let a ← Src.decNoImm (opF f 57 7)
    need (opOnly f 0xFFFFFFE0) .reserved
    need (f.off.extractLsb' 0 2 = 0) .code
    return .jtab h a (opF f 53 4).toFin (opF f 37 16) f.off
  | 0x05 =>
    if f.kind = 0 then do
      let d ← Dst.dec (opF f 57 7)
      need (opOnly f 0xFE000000) .reserved
      return .call h d f.off
    else if f.kind = 1 then do
      let d ← Dst.dec (opF f 57 7)
      let a ← Src.decNoImm (opF f 50 7)
      need (opOnly f 0xFFFC0000 && f.off = 0) .reserved
      return .callIndirect h d a
    else .error .code
  | 0x06 => do
    need (f.kind = 0) .code
    let a ← Src.decNoImm (opF f 57 7)
    need (opOnly f 0xFE000000 && f.off = 0) .reserved
    return .ret h a
  | 0x07 => do
    need (opF f 41 16 ≠ 0) .code
    if f.kind = 1 then
      need (opOnly f 0x01FFFE00) .reserved
      return .loop h (.imm f.off) (opF f 41 16)
    else if f.kind = 0 then
      let a ← Src.decNoImm (opF f 57 7)
      need (opOnly f 0xFFFFFE00 && f.off = 0) .reserved
      return .loop h (.src a) (opF f 41 16)
    else .error .code
  | 0x08 => do
    need (f.kind = 0 && opF f 32 2 ≠ 0) .code
    need (opOnly f 3 && f.off = 0) .reserved
    return .lbrk h (opF f 32 2).toFin
  | _ => .error .unassigned

def decCtrlR (m : Nat) (h : Hdr) (f : FmtR) : Dec Instr :=
  match m with
  | 0x03 => do
    need (f.dst = 0 && f.a = 0 && f.b = 0 && f.sz = 0 && f.imm = 0 && f.cond.extractLsb' 1 3 = 0 &&
      f.c.extractLsb' 4 3 = 0) .reserved
    return .bpush h (f.cond.getLsbD 0) (p3 f.c) (f.c.getLsbD 3)
  | 0x09 => do
    need (f = ⟨0, 0, 0, 0, 0, 0, 0⟩) .reserved
    return .nop h
  | 0x0A => do
    need (f = ⟨0, 0, 0, 0, 0, 0, 0⟩) .reserved
    return .ends h
  | 0x0B => do
    need (f.cond.extractLsb' 1 3 = 0) .code
    need (f.dst = 0 && f.a = 0 && f.b = 0 && f.c = 0 && f.sz = 0 && f.imm = 0) .reserved
    return .sbwait h (f.cond.getLsbD 0)
  | 0x0C => do
    need (f.cond.toNat < 3) .code
    let a ← Src.dec f.a
    need (f.dst = 0 && f.b = 0 && f.c = 0 && f.sz = 0 && immOk f.imm [a]) .reserved
    return if f.cond = 0 then .sleep h a f.imm else if f.cond = 1 then .sleepUntil h a f.imm
      else .sleepFor h a f.imm
  | 0x0D => do
    need (f.cond.extractLsb' 1 3 = 0) .code
    let d ← Dst.dec f.dst
    need (f.a = 0 && f.b = 0 && f.c = 0 && f.sz = 0 && f.imm = 0) .reserved
    return .rdtime h (f.cond.getLsbD 0) d
  | 0x0E => do
    let d ← Dst.dec f.dst
    need (f.a = 0 && f.b = 0 && f.c = 0 && f.sz = 0 && f.imm = 0) .reserved
    if c : f.cond.toNat < 14 then return .rdid h ⟨f.cond.toNat, c⟩ d else .error .code
  | 0x0F => do
    need (!f.cond.getLsbD 3) .code
    let a ← Src.dec f.a
    need (f.dst = 0 && f.b = 0 && f.c.extractLsb' 3 4 = 0 && f.sz = 0 && immOk f.imm [a]) .reserved
    return .qpush h (f.cond.extractLsb' 0 3).toFin (p3 f.c) a f.imm
  | 0x10 => do
    need (!f.cond.getLsbD 3) .code
    let d ← Dst.dec f.dst
    need (f.a = 0 && f.b = 0 && f.c.extractLsb' 3 4 = 0 && f.sz = 0 && f.imm = 0) .reserved
    return .qpop h (f.cond.extractLsb' 0 3).toFin d (p3 f.c)
  | 0x11 => do
    need (!f.cond.getLsbD 3) .code
    let d ← Dst.dec f.dst
    need (f.a = 0 && f.b = 0 && f.c = 0 && f.sz = 0 && f.imm = 0) .reserved
    return .qcnt h (f.cond.extractLsb' 0 3).toFin d
  | _ => .error .unassigned

/-! ### MEM, SYNC, CAP (R205 to R227) -/

def decMAddr (f : FmtM) : Dec MAddr := do
  return ⟨f.cap.toFin, ← OReg.dec f.oreg, f.off⟩

/-- A size below 4 (R206). -/
def size4 (s : BitVec 3) : Dec (Fin 4) :=
  if s.getLsbD 2 then .error .code else .ok (s.extractLsb' 0 2).toFin

/-- SIZE 2 or 3 of an atomic or REDI: true for 8 bytes. -/
def size23 (s : BitVec 3) : Dec Bool := if s = 2 then .ok false else if s = 3 then .ok true else .error .code

def decAt (f : FmtM) : Dec AtOp := do
  let w64 ← size23 f.size
  let scope ← Scope.dec f.scope
  let a ← Src.decNoImm f.data
  return ⟨a, w64, f.kmod.getLsbD 0, f.kmod.getLsbD 1, f.kmod.getLsbD 2, f.kmod.getLsbD 3, scope, ← decMAddr f⟩

def RedKind.dec (c : BitVec 3) : Dec RedKind :=
  if c = 0 then .ok .add else if c = 1 then .ok .min else if c = 2 then .ok .max
  else if c = 3 then .ok .and else if c = 4 then .ok .or else if c = 5 then .ok .xor else .error .code

def RedKind.enc : RedKind → BitVec 3
  | .add => 0 | .min => 1 | .max => 2 | .and => 3 | .or => 4 | .xor => 5

def FRedKind.dec (c : BitVec 2) : Dec FRedKind :=
  if c = 0 then .ok .add else if c = 1 then .ok .min else if c = 2 then .ok .max else .error .code

def FRedKind.enc : FRedKind → BitVec 2
  | .add => 0 | .min => 1 | .max => 2

def decMem (m : Nat) (h : Hdr) (f : FmtM) : Dec Instr :=
  match m with
  | 0x00 => do
    let scope ← Scope.dec f.scope
    if f.size = 5 then
      let a ← Src.decNoImm f.data
      need (f.kmod = 0) .reserved
      return .ldTile h ⟨a, scope, ← decMAddr f⟩
    else
      let size ← size4 f.size
      let d ← Dst.dec f.data
      need (f.kmod.extractLsb' 1 2 = 0) .reserved
      return .ld h ⟨d, size, f.kmod.getLsbD 0, f.kmod.getLsbD 3, scope, ← decMAddr f⟩
  | 0x01 => do
    let scope ← Scope.dec f.scope
    let size ← size4 f.size
    need (f.data = 0x20) .selector
    return .ldq h ⟨(f.kmod.extractLsb' 0 3).toFin, f.kmod.getLsbD 3, size, scope, ← decMAddr f⟩
  | 0x02 => do
    let scope ← Scope.dec f.scope
    let a ← Src.decNoImm f.data
    need (f.kmod = 0) .reserved
    if f.size = 5 then return .stTile h ⟨a, scope, ← decMAddr f⟩
    else
      let size ← size4 f.size
      return .st h ⟨a, size, scope, ← decMAddr f⟩
  | 0x03 => do
    let scope ← Scope.dec f.scope
    let size ← size4 f.size
    need (f.data = 0x20) .selector
    need (!f.kmod.getLsbD 3) .reserved
    return .stq h ⟨(f.kmod.extractLsb' 0 3).toFin, false, size, scope, ← decMAddr f⟩
  | 0x04 => do
    let scope ← Scope.dec f.scope
    need (f.data = 0 && f.size = 0 && f.kmod.extractLsb' 1 3 = 0) .reserved
    return .pref h (f.kmod.getLsbD 0) scope (← decMAddr f)
  | 0x05 => return .aadd h (← decAt f)
  | 0x06 => return .amin h (← decAt f)
  | 0x07 => return .amax h (← decAt f)
  | 0x08 => return .aand h (← decAt f)
  | 0x09 => return .aor h (← decAt f)
  | 0x0A => return .axor h (← decAt f)
  | 0x0B => return .aswp h (← decAt f)
  | 0x0C => do
    let w64 ← size23 f.size
    let scope ← Scope.dec f.scope
    need (f.data.extractLsb' 4 3 = 0 && !f.data.getLsbD 0) .selector
    return .acas h ⟨(f.data.extractLsb' 1 3).toFin, w64, f.kmod.getLsbD 0, f.kmod.getLsbD 1, f.kmod.getLsbD 2,
      f.kmod.getLsbD 3, scope, ← decMAddr f⟩
  | 0x0D => do
    need (f.size = 2) .code
    let scope ← Scope.dec f.scope
    let a ← Src.decNoImm f.data
    need (!f.kmod.getLsbD 0) .reserved
    return .afadd h ⟨a, f.kmod.getLsbD 1, f.kmod.getLsbD 2, f.kmod.getLsbD 3, scope, ← decMAddr f⟩
  | 0x0E => do
    let w64 ← size23 f.size
    let op ← RedKind.dec (f.kmod.extractLsb' 0 3)
    let scope ← Scope.dec f.scope
    let a ← Src.decNoImm f.data
    return .redi h ⟨op, f.kmod.getLsbD 3, w64, a, scope, ← decMAddr f⟩
  | 0x0F => do
    need (f.size = 2) .code
    let op ← FRedKind.dec (f.kmod.extractLsb' 0 2)
    let scope ← Scope.dec f.scope
    let a ← Src.decNoImm f.data
    need (f.kmod.extractLsb' 2 2 = 0) .reserved
    return .redf h ⟨op, a, scope, ← decMAddr f⟩
  | _ => .error .unassigned

/-- SYNC words of format M: REL, ACQ, FENCE, WAITA. -/
def decSyncM (m : Nat) (h : Hdr) (f : FmtM) : Dec Instr :=
  match m with
  | 0x00 => do
    let scope ← Scope.dec f.scope
    need (f.data = 0 && f.size = 4 && f.kmod.extractLsb' 1 2 = 0) .reserved
    let a ← decMAddr f
    if f.kmod.getLsbD 0 then
      need (f.scope = 3) .code
      return .relCommit h (f.kmod.getLsbD 3) a
    else return .rel h ⟨scope, f.kmod.getLsbD 3, a⟩
  | 0x02 => do
    let scope ← Scope.dec f.scope
    let d ← Dst.dec f.data
    need (f.size = 4 && f.kmod.extractLsb' 0 3 = 0) .reserved
    return .acq h ⟨d, f.kmod.getLsbD 3, scope, ← decMAddr f⟩
  | 0x04 => do
    let scope ← Scope.dec f.scope
    need (f.kmod.extractLsb' 0 2 ≠ 0 && f.kmod.extractLsb' 2 2 ≠ 0) .code
    need (f.data = 0 && f.cap = 0 && f.size = 0 && f.off = 0 && f.oreg = 0) .reserved
    return .fence h scope f.kmod
  | 0x07 => do
    let scope ← Scope.dec f.scope
    let a ← Src.decNoImm f.data
    need (f.size = 3 && f.kmod.extractLsb' 1 3 = 0) .reserved
    let m ← decMAddr f
    return if f.kmod.getLsbD 0 then .waitaArm h a scope m else .waita h a scope m
  | _ => .error .unassigned

/-- The semaphore number in bits [39:32] (R225). -/
def semOf (f : FmtR) : BitVec 8 := f.cond ++ f.sz

def decSyncR (m : Nat) (h : Hdr) (f : FmtR) : Dec Instr :=
  match m with
  | 0x01 => do
    need (f.a = 0 && f.b = 0 && f.c = 0 && f.sz = 0 && f.imm = 0 && !f.cond.getLsbD 2) .reserved
    let scope ← Scope.dec ((0 : BitVec 1) ++ f.cond.extractLsb' 0 2)
    if f.dst = 0x23 then return .rell h scope (f.cond.getLsbD 3) .t
    else
      need (f.dst.extractLsb' 4 3 = 0 && !f.dst.getLsbD 0) .selector
      return .rell h scope (f.cond.getLsbD 3) (.pair (f.dst.extractLsb' 1 3).toFin)
  | 0x03 => do
    let a ← Src.dec f.a
    let b ← Src.dec f.b
    need (f.dst = 0 && f.c = 0 && f.sz = 0 && f.imm = 0 && f.cond.extractLsb' 0 3 = 0) .reserved
    return .acql h (f.cond.getLsbD 3) a b
  | 0x05 => do
    need (f = ⟨0, 0, 0, 0, 0, 0, 0⟩) .reserved
    return .lsync h
  | 0x06 => do
    let d ← Dst.dec f.dst
    need (f.a = 0 && f.b = 0 && f.c = 0 && f.sz = 0 && f.imm = 0) .reserved
    if c : f.cond.toNat < 6 then return .lstat h ⟨f.cond.toNat, c⟩ d else .error .code
  | 0x08 => do
    let d ← Dst.dec f.dst
    need (f.a = 0 && f.b = 0 && f.c = 0 && f.cond = 0 && f.sz = 0 && f.imm = 0) .reserved
    return .wcancel h d
  | 0x09 => do
    let a ← Src.dec f.a
    need (f.dst = 0 && f.b.extractLsb' 1 6 = 0 && f.c = 0 && immOk f.imm [a]) .reserved
    return .swait h (semOf f) (f.b.getLsbD 0) a f.imm
  | 0x0A => do
    let a ← Src.dec f.a
    need (f.dst = 0 && f.b.extractLsb' 2 5 = 0 && !f.b.getLsbD 0 && f.c = 0 && immOk f.imm [a]) .reserved
    return .ssig h (semOf f) (f.b.getLsbD 1) a f.imm
  | 0x0B => do
    let d ← Dst.dec f.dst
    need (f.a = 0 && f.b = 0 && f.c = 0 && f.imm = 0) .reserved
    return .srd h (semOf f) d
  | _ => .error .unassigned

def decCapM (m : Nat) (h : Hdr) (f : FmtM) : Dec Instr := do
  let scope ← Scope.dec f.scope
  need (f.data.extractLsb' 4 3 = 0 && f.size = 4 && f.kmod = 0) .reserved
  let a ← decMAddr f
  let o : CapMemOp := ⟨(f.data.extractLsb' 0 4).toFin, scope, a⟩
  match m with
  | 0x00 => do
    need (o.cr ≠ 0) .selector
    return .cld h o
  | 0x01 => return .cst h o
  | _ => .error .unassigned

def decCapR (m : Nat) (h : Hdr) (f : FmtR) : Dec Instr :=
  match m with
  | 0x02 => do
    let off ← Src.dec f.b
    let len ← Src.dec f.c
    need (f.dst.extractLsb' 4 3 = 0 && f.a.extractLsb' 4 3 = 0 && f.sz.extractLsb' 1 3 = 0 &&
      immOk f.imm [off, len]) .reserved
    need (f.dst ≠ 0) .selector
    return .cnarrow h ⟨(f.dst.extractLsb' 0 4).toFin, (f.a.extractLsb' 0 4).toFin, off, len,
      f.sz.extractLsb' 0 1 ++ f.cond, f.imm⟩
  | 0x03 => do
    let d ← Dst.dec f.dst
    need (f.a.extractLsb' 4 3 = 0 && f.b = 0 && f.c = 0 && f.sz = 0 && f.imm = 0) .reserved
    if c : f.cond.toNat < 5 then return .cinfo h ⟨f.cond.toNat, c⟩ d (f.a.extractLsb' 0 4).toFin
    else .error .code
  | 0x04 => do
    let off ← Src.dec f.b
    let len ← Src.dec f.c
    need (f.dst.extractLsb' 3 4 = 0 && f.a.extractLsb' 4 3 = 0 && f.sz.extractLsb' 1 3 = 0 &&
      immOk f.imm [off, len]) .reserved
    return .cchk h ⟨p3 f.dst, (f.a.extractLsb' 0 4).toFin, off, len, f.sz.extractLsb' 0 1 ++ f.cond, f.imm⟩
  | _ => .error .unassigned

/-! ### COPY and MTX (R228 to R239, R272 to R287) -/

def decEHdr (f : FmtE) : EHdr := ⟨f.wsem, f.wthr, f.ssem, f.sinc⟩

def decE3 (f : FmtE) : Dec E3 := do
  let d0 ← OReg.dec f.d0
  let d1 ← OReg.dec f.d1
  let d2 ← OReg.dec f.d2
  need (f.d3 = 0) .reserved
  return ⟨decEHdr f, d0, d1, d2⟩

def decE4 (f : FmtE) : Dec E4 := do
  let d0 ← OReg.dec f.d0
  let d1 ← OReg.dec f.d1
  let d2 ← OReg.dec f.d2
  let d3 ← OReg.dec f.d3
  return ⟨decEHdr f, d0, d1, d2, d3⟩

def noEmod (f : FmtE) : Dec Unit := need (f.emod = 0) .reserved

def decCopyE (m : Nat) (h : Hdr) (f : FmtE) : Dec Instr :=
  match m with
  | 0x00 => do noEmod f; return .cpy h (← decE3 f)
  | 0x01 => do noEmod f; return .cpyn h (← decE4 f)
  | 0x02 => do
    need (f.emod.extractLsb' 1 3 = 0) .reserved
    return .cpyt h (f.emod.getLsbD 0) (← decE4 f)
  | 0x03 => do noEmod f; return .cgath h (← decE4 f)
  | 0x04 => do noEmod f; return .cscat h (← decE4 f)
  | 0x05 => do noEmod f; return .cfill h (← decE3 f)
  | 0x06 => do noEmod f; return .cred h (← decE3 f)
  | 0x07 => do noEmod f; return .credc h (← decE4 f)
  | 0x08 => do noEmod f; return .ccoll h (← decE4 f)
  | 0x09 => do noEmod f; return .cbget h (← decE3 f)
  | 0x0B => do noEmod f; return .draft h (← decE4 f)
  | _ => .error .unassigned

def decCopyR (m : Nat) (h : Hdr) (f : FmtR) : Dec Instr :=
  match m with
  | 0x0A => do
    let d ← Dst.dec f.dst
    let a ← Src.dec f.a
    need (f.cond.extractLsb' 2 2 = 0) .code
    need (f.b = 0 && f.c.extractLsb' 3 4 = 0 && f.sz = 0 && immOk f.imm [a]) .reserved
    return .cstat h (f.cond.extractLsb' 0 2).toFin d (p3 f.c) a f.imm
  | 0x0C => do
    let d ← Dst.dec f.dst
    let a ← Src.dec f.a
    need (f.b = 0 && f.c = 0 && f.cond = 0 && f.sz = 0 && f.imm = 0) .reserved
    return .drstep h d a
  | _ => .error .unassigned

/-- EMOD of MMA, MMAZ and ADRAIN: CK and CSLOT (R272, R282). -/
def decCk (f : FmtE) : Dec (Option (Fin 8)) :=
  if f.emod.getLsbD 0 then .ok (some (f.emod.extractLsb' 1 3).toFin)
  else if f.emod = 0 then .ok none else .error .reserved

def encCk : Option (Fin 8) → BitVec 4
  | some k => (BitVec.ofFin k : BitVec 3) ++ (1 : BitVec 1)
  | none => 0

def decMtxE (m : Nat) (h : Hdr) (f : FmtE) : Dec Instr :=
  match m with
  | 0x00 => do return .mma h (← decCk f) (← decE4 f)
  | 0x01 => do return .mmaz h (← decCk f) (← decE4 f)
  | 0x02 => do
    noEmod f
    need (f.d1 = 0 && f.d2 = 0 && f.d3 = 0) .reserved
    return .azero h (decEHdr f) (← OReg.dec f.d0)
  | 0x03 => do return .adrain h (← decCk f) (← decE3 f)
  | 0x04 => do noEmod f; return .aload h (← decE3 f)
  | 0x05 => do noEmod f; return .aacc h (← decE3 f)
  | 0x08 => do
    need (f.d1 = 0 && f.d2 = 0 && f.d3 = 0) .reserved
    if f.emod.getLsbD 0 then
      need (f.d0 = 0) .reserved
      return .mcksumClose h (f.emod.extractLsb' 1 3).toFin (decEHdr f)
    else return .mcksumOpen h (f.emod.extractLsb' 1 3).toFin (decEHdr f) (← OReg.dec f.d0)
  | _ => .error .unassigned

/-- A destination and one source, nothing else: MSTOP, MDRAIN, PREEMPT. -/
def decRUn (f : FmtR) : Dec RUn := do
  let d ← Dst.dec f.dst
  let a ← Src.dec f.a
  need (f.b = 0 && f.c = 0 && f.sz = 0 && immOk f.imm [a]) .reserved
  return ⟨d, a, f.imm⟩

def decMtxR (m : Nat) (h : Hdr) (f : FmtR) : Dec Instr :=
  match m with
  | 0x06 => do
    let d ← Dst.dec f.dst
    need (f.a = 0 && f.b = 0 && f.c.extractLsb' 3 4 = 0 && f.sz = 0 && f.imm = 0) .reserved
    if c : f.cond.toNat < 3 then return .mstat h ⟨f.cond.toNat, c⟩ d (p3 f.c) else .error .code
  | 0x07 => do
    need (f.cond = 0) .reserved
    return .mstop h (← decRUn f)
  | _ => .error .unassigned

/-! ### Format V (R241 to R266, R288 to R290) -/

def decVCom (f : FmtV) : Dec VCom := do
  return ⟨f.shp.toFin, ← EType.dec f.ty, f.mask.toFin⟩

/-- FN[14:10] of an instruction that rounds (R151): SR and the counter register. -/
def decSr (f : FmtV) : Dec (Option (Fin 16)) :=
  if f.fn.getLsbD 14 then .ok (some (f.fn.extractLsb' 10 4).toFin)
  else if f.fn.extractLsb' 10 4 = 0 then .ok none else .error .reserved

/-- RND, SAT and SR; integer arithmetic takes RND 0 and no SR (R245). -/
def decVRound (intArith : Bool) (f : FmtV) : Dec VRound := do
  let sr ← decSr f
  need (!intArith || (f.rnd = 0 && sr.isNone)) .reserved
  return ⟨Rnd.dec f.rnd, f.sat = 1, sr⟩

def encSr : Option (Fin 16) → BitVec 5
  | some k => (1 : BitVec 1) ++ (BitVec.ofFin k : BitVec 4)
  | none => 0

/-- BB and its operand (R247). -/
def decBOp (f : FmtV) : Dec BOp := do
  let bb := (f.fn.extractLsb' 5 2 : BitVec 2)
  need (!f.fn.getLsbD 4) .reserved
  if bb = 3 then
    need (f.vb = 0) .reserved
    return .scal (f.fn.extractLsb' 0 4).toFin
  else
    need (f.fn.extractLsb' 0 4 = 0) .reserved
    return if bb = 0 then .full f.vb else if bb = 1 then .row f.vb else .col f.vb

/-- FN[6:0] of a B operand. -/
def BOp.fn : BOp → BitVec 7
  | .full _ => 0
  | .row _ => 0x20
  | .col _ => 0x40
  | .scal k => (6 : BitVec 3) ++ (BitVec.ofFin k : BitVec 4)

def BOp.vb : BOp → BitVec 10
  | .full v | .row v | .col v => v
  | .scal _ => 0

def VCom.put (c : VCom) (vd va vb vc : BitVec 10) (rnd : BitVec 2) (sat : BitVec 1) (fn : BitVec 15) : FmtV :=
  ⟨vd, va, vb, vc, BitVec.ofFin c.shp, c.ty.enc, BitVec.ofFin c.mask, rnd, sat, fn⟩

/-- RND and SAT zero (R241). -/
def noRound (f : FmtV) : Bool := f.rnd = 0 && f.sat = 0

def decVBin (f : FmtV) : Dec VBin := do
  let v ← decVCom f
  let r ← decVRound v.ty.isInt f
  let b ← decBOp f
  need (f.vc = 0 && f.fn.extractLsb' 7 3 = 0) .reserved
  return ⟨v, r, f.vd, f.va, b⟩

def encVBin (o : VBin) : FmtV :=
  o.v.put o.vd o.va o.b.vb 0 o.r.rnd.enc (bit1 o.r.sat) (encSr o.r.sr ++ (0 : BitVec 3) ++ o.b.fn)

def decVTri (f : FmtV) : Dec VTri := do
  let v ← decVCom f
  let r ← decVRound v.ty.isInt f
  let b ← decBOp f
  need (f.fn.extractLsb' 7 3 = 0) .reserved
  return ⟨v, r, f.vd, f.va, b, f.vc⟩

def encVTri (o : VTri) : FmtV :=
  o.v.put o.vd o.va o.b.vb o.vc o.r.rnd.enc (bit1 o.r.sat) (encSr o.r.sr ++ (0 : BitVec 3) ++ o.b.fn)

def decVBit (f : FmtV) : Dec VBit := do
  let v ← decVCom f
  let b ← decBOp f
  need (f.vc = 0 && noRound f && f.fn.extractLsb' 7 8 = 0) .reserved
  return ⟨v, f.vd, f.va, b⟩

def encVBit (o : VBit) : FmtV := o.v.put o.vd o.va o.b.vb 0 0 0 ((0 : BitVec 8) ++ o.b.fn)

/-- VABS and VNEG: SAT for integers only (R247). -/
def decVAbs (f : FmtV) : Dec VAbsOp := do
  let v ← decVCom f
  need (f.vb = 0 && f.vc = 0 && f.rnd = 0 && f.fn = 0 && (v.ty.isInt || f.sat = 0)) .reserved
  return ⟨v, f.sat = 1, f.vd, f.va⟩

def encVAbs (o : VAbsOp) : FmtV := o.v.put o.vd o.va 0 0 0 (bit1 o.sat) 0

def decVCmp (f : FmtV) : Dec VCmpOp := do
  let v ← decVCom f
  let b ← decBOp f
  let cond ← FCond.dec ((0 : BitVec 1) ++ f.fn.extractLsb' 7 3)
  need (f.vc = 0 && noRound f && f.fn.extractLsb' 10 5 = 0 && f.vd.extractLsb' 4 6 = 0) .reserved
  return ⟨v, cond, (f.vd.extractLsb' 0 4).toFin, f.va, b⟩

def encVCmp (o : VCmpOp) : FmtV :=
  o.v.put ((0 : BitVec 6) ++ (BitVec.ofFin o.md : BitVec 4)) o.va o.b.vb 0 0 0
    ((0 : BitVec 5) ++ (o.cond.enc.extractLsb' 0 3 : BitVec 3) ++ o.b.fn)

def decVSel (f : FmtV) : Dec VSelOp := do
  let v ← decVCom f
  let b ← decBOp f
  need (noRound f && f.fn.extractLsb' 7 8 = 0 && f.vc.extractLsb' 4 6 = 0) .reserved
  return ⟨v, f.vd, f.va, b, (f.vc.extractLsb' 0 4).toFin⟩

def encVSel (o : VSelOp) : FmtV :=
  o.v.put o.vd o.va o.b.vb ((0 : BitVec 6) ++ (BitVec.ofFin o.mkr : BitVec 4)) 0 0 ((0 : BitVec 8) ++ o.b.fn)

def decVMov (f : FmtV) : Dec VMovOp := do
  let v ← decVCom f
  need (f.vb = 0 && f.vc = 0 && noRound f && f.fn = 0) .reserved
  return ⟨v, f.vd, f.va⟩

def decVBc (f : FmtV) : Dec VBcOp := do
  let v ← decVCom f
  let b ← decBOp f
  need (f.fn.extractLsb' 5 2 ≠ 0) .code
  need (f.va = 0 && f.vc = 0 && noRound f && f.fn.extractLsb' 7 8 = 0) .reserved
  return ⟨v, f.vd, b⟩

def decVIota (f : FmtV) : Dec VIotaOp := do
  let v ← decVCom f
  need (f.va = 0 && f.vb = 0 && f.vc = 0 && noRound f && f.fn.extractLsb' 2 13 = 0) .reserved
  if c : (f.fn.extractLsb' 0 2).toNat < 3 then return ⟨v, ⟨(f.fn.extractLsb' 0 2).toNat, c⟩, f.vd⟩
  else .error .code

/-- VCVT and the one-destination VSFU rows: FN[9:0], VB and VC zero. intConv: both types integer. -/
def decVUn (f : FmtV) : Dec VUn := do
  let v ← decVCom f
  let r ← decVRound false f
  need (f.vb = 0 && f.vc = 0 && f.fn.extractLsb' 0 10 = 0) .reserved
  return ⟨v, r, f.vd, f.va⟩

def encVUn (o : VUn) : FmtV :=
  o.v.put o.vd o.va 0 0 o.r.rnd.enc (bit1 o.r.sat) (encSr o.r.sr ++ (0 : BitVec 10))

/-- VQNT, VDQNT: FN[0] is SM; the third register stands in VB, or in VC for VQNT.mx (R252, R253). -/
def decVUn3 (inVc : Bool) (f : FmtV) : Dec VUn3 := do
  let v ← decVCom f
  let r ← decVRound false f
  need (f.fn.extractLsb' 1 9 = 0 && (if inVc then f.vb = 0 else f.vc = 0)) .reserved
  return ⟨v, r, f.vd, f.va, if inVc then f.vc else f.vb⟩

def encVUn3 (inVc sm : Bool) (o : VUn3) : FmtV :=
  o.v.put o.vd o.va (if inVc then 0 else o.vx) (if inVc then o.vx else 0) o.r.rnd.enc (bit1 o.r.sat)
    (encSr o.r.sr ++ (0 : BitVec 9) ++ bit1 sm)

/-- VRED rows but VSCAN: SAT only for an integer VRSUM; an integer TYPE takes RND 0 (R245, R254). -/
def decVRed (isSum : Bool) (f : FmtV) : Dec VRedOp := do
  let v ← decVCom f
  need (f.vb = 0 && f.vc = 0 && f.fn.extractLsb' 1 14 = 0 && (!v.ty.isInt || f.rnd = 0) &&
    (f.sat = 0 || (isSum && v.ty.isInt))) .reserved
  return ⟨v, Rnd.dec f.rnd, f.sat = 1, f.fn.getLsbD 0, f.vd, f.va⟩

def encVRed (o : VRedOp) : FmtV :=
  o.v.put o.vd o.va 0 0 o.rnd.enc (bit1 o.sat) ((0 : BitVec 14) ++ bit1 o.col)

def decVScan (f : FmtV) : Dec VScanOp := do
  let v ← decVCom f
  need (f.vb = 0 && f.vc = 0 && f.fn.extractLsb' 2 13 = 0 && (!v.ty.isInt || f.rnd = 0) &&
    (f.sat = 0 || v.ty.isInt)) .reserved
  return ⟨v, Rnd.dec f.rnd, f.sat = 1, f.fn.getLsbD 0, f.fn.getLsbD 1, f.vd, f.va⟩

def encVScan (o : VScanOp) : FmtV :=
  o.v.put o.vd o.va 0 0 o.rnd.enc (bit1 o.sat) ((0 : BitVec 13) ++ bit1 o.excl ++ bit1 o.col)

def decVec (m : Nat) (h : Hdr) (f : FmtV) : Dec Instr :=
  match m with
  | 0x00 => return .vadd h (← decVBin f)
  | 0x01 => return .vsub h (← decVBin f)
  | 0x02 => return .vmul h (← decVBin f)
  | 0x03 => return .vfma h (← decVTri f)
  | 0x04 => return .vmin h (← decVBit f)
  | 0x05 => return .vmax h (← decVBit f)
  | 0x06 => return .vabs h (← decVAbs f)
  | 0x07 => return .vneg h (← decVAbs f)
  | 0x08 => return .vand h (← decVBit f)
  | 0x09 => return .vor h (← decVBit f)
  | 0x0A => return .vxor h (← decVBit f)
  | 0x0B => return .vshl h (← decVBit f)
  | 0x0C => return .vshr h (← decVBit f)
  | 0x0D => return .vsar h (← decVBit f)
  | 0x0E => return .vcmp h (← decVCmp f)
  | 0x0F => return .vsel h (← decVSel f)
  | 0x10 => return .vmov h (← decVMov f)
  | 0x11 => return .vbcast h (← decVBc f)
  | 0x12 => return .viota h (← decVIota f)
  | 0x13 => return .vcvt h (← decVUn f)
  | 0x14 => if f.fn.getLsbD 0 then return .vqntMx h (← decVUn3 true f) else return .vqnt h (← decVUn3 false f)
  | 0x15 => if f.fn.getLsbD 0 then return .vdqntMx h (← decVUn3 false f) else return .vdqnt h (← decVUn3 false f)
  | _ => .error .unassigned

def decVred (m : Nat) (h : Hdr) (f : FmtV) : Dec Instr :=
  match m with
  | 0x00 => return .vrsum h (← decVRed true f)
  | 0x01 => return .vrmax h (← decVRed false f)
  | 0x02 => return .vramax h (← decVRed false f)
  | 0x03 => return .vrmin h (← decVRed false f)
  | 0x04 => return .vargmax h (← decVRed false f)
  | 0x05 => return .vscan h (← decVScan f)
  | _ => .error .unassigned

def decVsfu (m : Nat) (h : Hdr) (f : FmtV) : Dec Instr :=
  match m with
  | 0x00 => return .vexp2 h (← decVUn f)
  | 0x01 => return .vlog2 h (← decVUn f)
  | 0x02 => return .vrcp h (← decVUn f)
  | 0x03 => return .vrsqrt h (← decVUn f)
  | 0x04 => return .vsqrt h (← decVUn f)
  | 0x05 => return .vtanh h (← decVUn f)
  | 0x06 => do
    need (!f.fn.getLsbD 0) .reserved
    return .vsincos h (← decVUn3 false f)
  | 0x07 => return .vsig h (← decVUn f)
  | _ => .error .unassigned

def mreg (x : BitVec 10) : Fin 16 := (x.extractLsb' 0 4).toFin

def mregOnly (x : BitVec 10) : Bool := x.extractLsb' 4 6 = 0

def encMreg (k : Fin 16) : BitVec 10 := (0 : BitVec 6) ++ (BitVec.ofFin k : BitVec 4)

/-- MASK, TYPE, RND and SAT zero (R264, R265). -/
def bareV (f : FmtV) : Bool := f.ty = 0 && f.mask = 0 && f.rnd = 0 && f.sat = 0

/-- The selector form of an element index (R266). -/
def decVIdx (f : FmtV) : Dec VIdx :=
  if f.fn.extractLsb' 5 10 ≠ 0 then .error .reserved
  else if f.fn.getLsbD 4 then
    if f.vc = 0 then .ok (.reg (f.fn.extractLsb' 0 4).toFin) else .error .reserved
  else if f.fn.extractLsb' 0 4 = 0 then .ok (.imm f.vc) else .error .reserved

def VIdx.fn : VIdx → BitVec 15
  | .imm _ => 0
  | .reg k => (0 : BitVec 10) ++ (1 : BitVec 1) ++ (BitVec.ofFin k : BitVec 4)

def VIdx.vc : VIdx → BitVec 10
  | .imm i => i
  | .reg _ => 0

def decVdefer (f : FmtV) : Dec VDeferOp := do
  let v ← decVCom f
  let cnt := (f.fn.extractLsb' 6 2 : BitVec 2)
  need (noRound f && f.fn.extractLsb' 11 4 = 0 && (1 ≤ cnt.toNat || f.vb = 0) && (2 ≤ cnt.toNat || f.vc = 0) &&
    (3 ≤ cnt.toNat || f.vd = 0)) .reserved
  return ⟨v, f.fn.extractLsb' 0 6, cnt.toFin, (f.fn.extractLsb' 8 3).toFin, f.va, f.vb, f.vc, f.vd⟩

def encVdefer (o : VDeferOp) : FmtV :=
  o.v.put o.vd o.va o.vb o.vc 0 0
    ((0 : BitVec 4) ++ (BitVec.ofFin o.p : BitVec 3) ++ (BitVec.ofFin o.cnt : BitVec 2) ++ o.path)

def decVdrain (f : FmtV) : Dec VDrainOp := do
  let v ← decVCom f
  let cnt := (f.fn.extractLsb' 6 2 : BitVec 2)
  need (noRound f && f.mask = 0 && f.fn.extractLsb' 13 2 = 0 && (1 ≤ cnt.toNat || f.va = 0) &&
    (2 ≤ cnt.toNat || f.vb = 0) && (3 ≤ cnt.toNat || f.vc = 0)) .reserved
  need (!f.fn.getLsbD 8 || cnt = 3) .code
  return ⟨v.shp, v.ty, f.fn.extractLsb' 0 6, cnt.toFin, f.fn.getLsbD 8, (f.fn.extractLsb' 9 4).toFin, f.vd, f.va,
    f.vb, f.vc⟩

def encVdrain (o : VDrainOp) : FmtV :=
  (VCom.mk o.shp o.ty 0).put o.vd o.va o.vb o.vc 0 0
    ((0 : BitVec 2) ++ (BitVec.ofFin o.mkr : BitVec 4) ++ bit1 o.idx ++ (BitVec.ofFin o.cnt : BitVec 2) ++ o.path)

/-- VSHAPE (R264): the immediate form reads bits [57:28] as one raw field. -/
def decVshape (h : Hdr) (f : FmtV) : Dec Instr := do
  need (bareV f && f.shp = 0 && f.vd.extractLsb' 2 8 = 0 && f.fn.extractLsb' 5 10 = 0) .reserved
  let raw : BitVec 30 := f.va ++ f.vb ++ f.vc
  if f.fn.getLsbD 4 then
    need (raw = 0) .reserved
    return .vshape h (f.vd.extractLsb' 0 2).toFin (.reg (f.fn.extractLsb' 0 4).toFin)
  else
    need (raw.extractLsb' 0 4 = 0 && f.fn.extractLsb' 0 4 = 0) .reserved
    return .vshape h (f.vd.extractLsb' 0 2).toFin
      (.imm (raw.extractLsb' 19 11) (raw.extractLsb' 8 11) (raw.extractLsb' 4 4))

def encVshape (k : Fin 4) (v : ShapeVal) : FmtV :=
  let raw : BitVec 30 := match v with
    | .imm r c e => r ++ c ++ e ++ (0 : BitVec 4)
    | .reg _ => 0
  ⟨(0 : BitVec 8) ++ (BitVec.ofFin k : BitVec 2), raw.extractLsb' 20 10, raw.extractLsb' 10 10,
    raw.extractLsb' 0 10, 0, 0, 0, 0, 0,
    match v with
    | .imm _ _ _ => 0
    | .reg n => (0 : BitVec 10) ++ (1 : BitVec 1) ++ (BitVec.ofFin n : BitVec 4)⟩

def decVperm (m : Nat) (h : Hdr) (f : FmtV) : Dec Instr :=
  match m with
  | 0x00 => do
    let v ← decVCom f
    need (f.mask = 0 && f.vb = 0 && f.vc = 0 && noRound f && f.fn = 0) .reserved
    return .vtrn h ⟨v.shp, v.ty, f.vd, f.va⟩
  | 0x01 => do
    let v ← decVCom f
    need (f.vc = 0 && noRound f && f.fn.extractLsb' 1 14 = 0) .reserved
    return .vperm h ⟨v, f.fn.getLsbD 0, f.vd, f.va, f.vb⟩
  | 0x02 => do
    let v ← decVCom f
    need (f.vb = 0 && f.vc = 0 && noRound f && f.fn.extractLsb' 11 4 = 0) .reserved
    return .vshuf h ⟨v, f.fn.extractLsb' 0 10, f.fn.getLsbD 10, f.vd, f.va⟩
  | 0x03 => do
    let v ← decVCom f
    need (noRound f && f.fn.extractLsb' 2 13 = 0 && (f.fn.getLsbD 1 || (f.vb = 0 && f.vc = 0))) .reserved
    return .vsort h ⟨v, f.fn.getLsbD 0, if f.fn.getLsbD 1 then some (f.vb, f.vc) else none, f.vd, f.va⟩
  | 0x04 => do
    let v ← decVCom f
    need (f.mask = 0 && noRound f && f.fn.extractLsb' 1 14 = 0) .reserved
    return .vmrg h ⟨v.shp, v.ty, f.fn.getLsbD 0, f.vd, f.vc, f.va, f.vb⟩
  | 0x05 => do
    let v ← decVCom f
    need (f.vb = 0 && noRound f && f.fn.extractLsb' 9 6 = 0) .reserved
    need (if f.fn.getLsbD 8 then mregOnly f.vc else f.vc = 0) .reserved
    return .vdrop h ⟨v, f.vd, f.va, (f.fn.extractLsb' 0 4).toFin, (f.fn.extractLsb' 4 4).toFin,
      if f.fn.getLsbD 8 then some (mreg f.vc) else none⟩
  | 0x06 => do
    let v ← decVCom f
    need (f.va = 0 && f.vb = 0 && f.vc = 0 && noRound f && f.fn.extractLsb' 4 11 = 0) .reserved
    return .vrng h ⟨v, f.vd, (f.fn.extractLsb' 0 4).toFin⟩
  | 0x07 => return .vdefer h (← decVdefer f)
  | 0x08 => return .vdrain h (← decVdrain f)
  | 0x09 => decVshape h f
  | 0x0A => do
    need (bareV f && f.shp = 0 && mregOnly f.vd && mregOnly f.va && mregOnly f.vb && f.vc = 0 &&
      f.fn.extractLsb' 4 11 = 0) .reserved
    return .mlog h (mreg f.vd) (mreg f.va) (mreg f.vb) (f.fn.extractLsb' 0 4)
  | 0x0B => do
    need (bareV f && mregOnly f.va && f.vb = 0 && f.vc = 0 && f.fn = 0 && f.vd.extractLsb' 7 3 = 0) .reserved
    return .mcnt h f.shp.toFin (← Dst.dec (f.vd.extractLsb' 0 7)) (mreg f.va)
  | 0x0C => do
    need (bareV f && mregOnly f.va && f.vb = 0 && f.vc = 0 && f.fn = 0 && f.vd.extractLsb' 7 3 = 0) .reserved
    return .mfirst h f.shp.toFin (← Dst.dec (f.vd.extractLsb' 0 7)) (mreg f.va)
  | 0x0D => do
    let v ← decVCom f
    need (f.mask = 0 && noRound f && f.vb = 0 && f.vd.extractLsb' 7 3 = 0) .reserved
    return .vext h v.shp v.ty (← Dst.dec (f.vd.extractLsb' 0 7)) f.va (← decVIdx f)
  | 0x0E => do
    let v ← decVCom f
    need (f.mask = 0 && noRound f && f.vb = 0 && f.va.extractLsb' 7 3 = 0) .reserved
    return .vins h v.shp v.ty f.vd (← Src.dec (f.va.extractLsb' 0 7)) (← decVIdx f)
  | _ => .error .unassigned

/-- UPD (R289): which of VB, VC and ng an instruction uses. -/
def decUOp (useB useC useG even : Bool) (f : FmtV) : Dec UOp := do
  let v ← decVCom f
  let r ← decVRound false f
  need ((useB || f.vb = 0) && (useC || f.vc = 0) && !f.fn.getLsbD 9) .reserved
  need (useG || f.fn.extractLsb' 4 4 = 0) .reserved
  need (!even || (!f.fn.getLsbD 0 && !f.fn.getLsbD 4)) .code
  return ⟨v, r, f.vd, f.va, f.vb, f.vc, (f.fn.extractLsb' 0 4).toFin, (f.fn.extractLsb' 4 4).toFin⟩

def encUOp (b8 : Bool) (o : UOp) : FmtV :=
  o.v.put o.vd o.va o.vb o.vc o.r.rnd.enc (bit1 o.r.sat)
    (encSr o.r.sr ++ (0 : BitVec 1) ++ bit1 b8 ++ (BitVec.ofFin o.g : BitVec 4) ++ (BitVec.ofFin o.h : BitVec 4))

def decUpd (m : Nat) (h : Hdr) (f : FmtV) : Dec Instr :=
  let b8 := f.fn.getLsbD 8
  match m with
  | 0x00 => do
    need (!b8) .reserved
    return .uaxpby h (← decUOp true false false false f)
  | 0x01 => do
    need (!b8) .reserved
    return .uadamw h (← decUOp true true true true f)
  | 0x02 => do
    need (!b8) .reserved
    return .uema h (← decUOp false false false false f)
  | 0x03 => return .usgdm h b8 (← decUOp true false false true f)
  | 0x04 =>
    if b8 then return .uclipNrm h (← decUOp false false false false f)
    else return .uclipVal h (← decUOp false false false false f)
  | _ => .error .unassigned

/-! ### EXP, CONT, SYS (R291 to R315, R379) -/

def decExpR (m : Nat) (h : Hdr) (f : FmtR) : Dec Instr :=
  match m with
  | 0x00 => do
    let d ← Dst.dec f.dst
    let a ← Src.dec f.a
    need (!f.cond.getLsbD 2 && f.sz = 0) .reserved
    if f.cond.getLsbD 0 then
      let w ← Src.dec f.c
      need (f.b = 0 && immOk f.imm [a, w]) .reserved
      return .xenqTile h d a w (f.cond.getLsbD 1) (f.cond.getLsbD 3) f.imm
    else
      need (f.c = 0 && f.b.extractLsb' 4 3 = 0 && immOk f.imm [a]) .reserved
      return .xenq h d a (f.b.extractLsb' 0 4).toFin (f.cond.getLsbD 1) (f.cond.getLsbD 3) f.imm
  | 0x01 => do
    let d ← Dst.dec f.dst
    let a ← Src.dec f.a
    let b ← Src.dec f.b
    let c ← Src.dec f.c
    need (f.cond = 0 && f.sz = 0 && immOk f.imm [a, b, c]) .reserved
    return .xdeq h d a b c f.imm
  | 0x03 => do
    need (!f.cond.getLsbD 3) .code
    let d ← Dst.dec f.dst
    let a ← Src.dec f.a
    need (f.b = 0 && f.c = 0 && f.sz = 0 && immOk f.imm [a]) .reserved
    return .xstat h (f.cond.extractLsb' 0 3).toFin d a f.imm
  | 0x04 => do
    let d ← Dst.dec f.dst
    let a ← Src.dec f.a
    need (f.b = 0 && f.c = 0 && f.cond = 0 && f.sz = 0 && immOk f.imm [a]) .reserved
    return .xkick h d a f.imm
  | 0x05 => do
    need (f = ⟨0, 0, 0, 0, 0, 0, 0⟩) .reserved
    return .xdone h
  | _ => .error .unassigned

def decXcmb (h : Hdr) (f : FmtM) : Dec Instr := do
  let scope ← Scope.dec f.scope
  let d ← Dst.dec f.data
  need (f.size = 4 && f.kmod.extractLsb' 0 3 = 0) .reserved
  return .xcmb h ⟨d, f.kmod.getLsbD 3, scope, ← decMAddr f⟩

def decContR (m : Nat) (h : Hdr) (f : FmtR) : Dec Instr :=
  match m with
  | 0x00 =>
    if f.cond = 0 then do
      need (f.a = 0 && f.b = 0 && f.c = 0 && f.sz = 0 && f.imm = 0) .reserved
      return .susp h f.dst
    else if f.cond = 2 then do
      let a ← Src.dec f.a
      need (f.b = 0 && f.c = 0 && f.sz = 0 && immOk f.imm [a]) .reserved
      return .suspCmb h f.dst a f.imm
    else .error .code
  | 0x01 => do
    need (f.a = 0 && f.b = 0 && f.c = 0 && f.cond = 0 && f.sz = 0 && f.imm = 0) .reserved
    return .yield h f.dst
  | 0x02 => do
    need (f = ⟨0, 0, 0, 0, 0, 0, 0⟩) .reserved
    return .exit h
  | 0x05 => do
    let a ← Src.dec f.a
    need (f.b = 0 && f.c = 0 && f.cond = 0 && f.sz = 0 && immOk f.imm [a]) .reserved
    return .twheel h f.dst a f.imm
  | 0x06 =>
    if f.cond = 2 then do
      need (f.dst = 0 && f.a = 0 && f.b = 0 && f.c = 0 && f.sz = 0 && f.imm = 0) .reserved
      return .ctxliveClr h
    else do
      need (f.cond.extractLsb' 1 3 = 0) .code
      let a ← Src.dec f.a
      let b ← Src.dec f.b
      need (f.dst = 0 && f.c = 0 && f.sz = 0 && immOk f.imm [a, b]) .reserved
      return if f.cond.getLsbD 0 then .ctxliveAcc h a b f.imm else .ctxliveTile h a b f.imm
  | _ => .error .unassigned

def decContM (m : Nat) (h : Hdr) (f : FmtM) : Dec Instr :=
  match m with
  | 0x03 => do
    let d ← Dst.dec f.data
    need (f.size = 7 && f.scope = 2 && f.kmod.extractLsb' 0 3 = 0) .reserved
    return .spawn h d (f.kmod.getLsbD 3) (← decMAddr f)
  | 0x04 => do
    let scope ← Scope.dec f.scope
    need (f.size = 3 && f.kmod = 0) .reserved
    return .join h f.data scope (← decMAddr f)
  | _ => .error .unassigned

/-- A CSR number in IMM32[11:0] (R379). -/
def decCsr (f : FmtR) : Dec (BitVec 12) := do
  need (f.imm.extractLsb' 12 20 = 0) .reserved
  return f.imm.extractLsb' 0 12

def decCsrx (h : Hdr) (f : FmtR) : Dec Instr := do
  let d ← Dst.dec f.dst
  let a ← Src.decNoImm f.a
  need (f.b = 0 && f.c = 0 && f.sz = 0) .reserved
  let n ← decCsr f
  if f.cond = 0 then return .csrxSwp h d n a
  else if f.cond = 1 then return .csrxSet h d n a
  else if f.cond = 2 then return .csrxClr h d n a
  else .error .code

def decTlbinv (h : Hdr) (f : FmtR) : Dec Instr := do
  let a ← Src.dec f.a
  let b ← Src.dec f.b
  need (f.dst = 0 && f.c = 0 && f.sz = 0 && immOk f.imm [a, b]) .reserved
  let pkg := f.cond.getLsbD 3
  match (f.cond.extractLsb' 0 3).toNat with
  | 0 => return .tlbinvVa h pkg a b f.imm
  | 1 => return .tlbinvTnt h pkg a b f.imm
  | 2 => return .tlbinvAll h pkg a b f.imm
  | 3 => return .tlbinvCap h pkg a b f.imm
  | 4 => return .tlbinvIc h pkg a b f.imm
  | _ => .error .code

/-- CTXSV, CTXLD, SEMMAP: d, core and a virtual address. -/
def decSys3 (f : FmtR) : Dec (Dst × Src × Src) := do
  let d ← Dst.dec f.dst
  let a ← Src.dec f.a
  let b ← Src.dec f.b
  need (f.c = 0 && f.sz = 0 && immOk f.imm [a, b]) .reserved
  return (d, a, b)

def decSys (m : Nat) (h : Hdr) (f : FmtR) : Dec Instr :=
  match m with
  | 0x00 => do
    need (f.dst = 0 && f.a = 0 && f.b = 0 && f.c = 0 && f.cond = 0 && f.sz = 0 && f.imm.extractLsb' 16 16 = 0)
      .reserved
    return .trap h (f.imm.extractLsb' 0 16)
  | 0x01 => do
    need (f = ⟨0, 0, 0, 0, 0, 0, 0⟩) .reserved
    return .eret h
  | 0x02 => do
    let d ← Dst.dec f.dst
    need (f.a = 0 && f.b = 0 && f.c = 0 && f.cond = 0 && f.sz = 0) .reserved
    return .csrr h d (← decCsr f)
  | 0x03 => do
    let a ← Src.decNoImm f.a
    need (f.dst = 0 && f.b = 0 && f.c = 0 && f.cond = 0 && f.sz = 0) .reserved
    return .csrw h (← decCsr f) a
  | 0x04 => decCsrx h f
  | 0x05 => decTlbinv h f
  | 0x06 => do
    need (f.cond = 0) .code
    let (d, a, b) ← decSys3 f
    return .ctxsv h d a b f.imm
  | 0x07 => do
    need (f.cond = 0) .code
    let (d, a, b) ← decSys3 f
    return .ctxld h d a b f.imm
  | 0x08 => do
    need (f.cond.extractLsb' 1 3 = 0) .code
    let (d, a, b) ← decSys3 f
    return .semmap h (f.cond.getLsbD 0) d a b f.imm
  | 0x09 => do
    need (f.cond = 0) .code
    return .mdrain h (← decRUn f)
  | 0x0A => do
    need (f.cond.extractLsb' 1 3 = 0) .code
    return .preempt h (f.cond.getLsbD 0) (← decRUn f)
  | 0x0B => do
    let d ← Dst.dec f.dst
    let a ← Src.dec f.a
    let b ← Src.dec f.b
    let c ← Src.dec f.c
    need (f.sz = 0 && immOk f.imm [a, b, c]) .reserved
    if f.cond = 0 then return .cmintMint h d a b c f.imm
    else if f.cond = 1 then return .cmintRevoke h d a b c f.imm
    else .error .code
  | 0x0C => do
    need (f.cond.extractLsb' 1 3 = 0) .code
    need (f.dst = 0 && f.a = 0 && f.b = 0 && f.c = 0 && f.sz = 0 && f.imm = 0) .reserved
    return if f.cond.getLsbD 0 then .haltStop h else .haltWfi h
  | _ => .error .unassigned

/-! ### Prefixes (R156 to R159) -/

def decPfxm (w : IWord) : Dec Instr := do
  need (w.extractLsb' 49 19 = 0) .reserved
  let f : RowPfx := ⟨w.extractLsb' 0 11, w.extractLsb' 11 11, w.extractLsb' 22 11, w.extractLsb' 33 11,
    (w.extractLsb' 44 4).toFin, w.getLsbD 48⟩
  need (f.frow.toNat < 1024 && f.fcol.toNat < 1024 && f.nrow.toNat ≤ 1024 && f.ncol.toNat ≤ 1024) .code
  return .pfxm f

def encPfxm (f : RowPfx) : BitVec 68 :=
  (0 : BitVec 19) ++ bit1 f.mneg ++ (BitVec.ofFin f.mk2 : BitVec 4) ++ f.ncol ++ f.fcol ++ f.nrow ++ f.frow

/-! ### The whole word -/

/-- What R160 and R161 give a group and minor: the streams that may issue it and whether it is privileged; none
where the encoding is unassigned. -/
def opInfo (g m : Nat) : Option (List Strm × Bool) :=
  let any := [Strm.l, .c, .s]
  match g with
  | 0x01 => if m ≤ 0x1B then some (any, false) else none
  | 0x02 => if m ≤ 0x07 then some (any, false) else none
  | 0x03 => if m ≤ 0x11 then some (any, false) else none
  | 0x08 => if m ≤ 0x0F then some ([if m = 0x02 || m = 0x03 || m = 0x0E || m = 0x0F then Strm.s else Strm.l], false)
      else none
  | 0x09 =>
    if m = 0x00 || m = 0x01 || m = 0x05 then some ([.s], false)
    else if m = 0x02 || m = 0x03 || m = 0x07 || m = 0x08 then some ([.l], false)
    else if m ≤ 0x0B then some (any, false) else none
  | 0x0A => if m ≤ 0x04 then some ([.l], false) else none
  | 0x0C =>
    if m = 0x03 || m = 0x08 || m = 0x09 || m = 0x0B || m = 0x0C then some ([.l], false)
    else if m ≤ 0x0A then some ([.l, .s], false) else none
  | 0x10 => if m ≤ 0x15 then some ([.c], false) else none
  | 0x11 => if m ≤ 0x05 then some ([.c], false) else none
  | 0x12 => if m ≤ 0x07 then some ([.c], false) else none
  | 0x13 => if m ≤ 0x0E then some ([.c], false) else none
  | 0x18 => if m ≤ 0x08 then some ([.c], false) else none
  | 0x1A => if m ≤ 0x04 then some ([.s], false) else none
  | 0x1C =>
    if m = 0x00 then some ([.c, .s], false) else if m = 0x02 || m = 0x05 then some ([.s], false)
    else if m ≤ 0x05 then some ([.l], false) else none
  | 0x1D => if m ≤ 0x06 then some (any, false) else none
  | 0x30 => if m ≤ 0x0C then some (any, m ≠ 0) else none
  | 0x3E => if m = 0 then some (any, false) else none
  | 0x3F => if m = 0 then some ([.c, .s], false) else none
  | _ => none

/-- The payload of an assigned group and minor that is no prefix, by its format (R160). -/
def decodePayload (g m : Nat) (h : Hdr) (w : IWord) : Dec Instr :=
  match g with
  | 0x01 => decSint m h (FmtR.unpack w)
  | 0x02 => decSflt m h (FmtR.unpack w)
  | 0x03 => if m = 0x03 || 0x09 ≤ m then decCtrlR m h (FmtR.unpack w) else decB m h (FmtB.unpack w)
  | 0x08 => decMem m h (FmtM.unpack w)
  | 0x09 =>
    if m = 0x00 || m = 0x02 || m = 0x04 || m = 0x07 then decSyncM m h (FmtM.unpack w)
    else decSyncR m h (FmtR.unpack w)
  | 0x0A => if m ≤ 0x01 then decCapM m h (FmtM.unpack w) else decCapR m h (FmtR.unpack w)
  | 0x0C => if m = 0x0A || m = 0x0C then decCopyR m h (FmtR.unpack w) else decCopyE m h (FmtE.unpack w)
  | 0x10 => decVec m h (FmtV.unpack w)
  | 0x11 => decVred m h (FmtV.unpack w)
  | 0x12 => decVsfu m h (FmtV.unpack w)
  | 0x13 => decVperm m h (FmtV.unpack w)
  | 0x18 => if m = 0x06 || m = 0x07 then decMtxR m h (FmtR.unpack w) else decMtxE m h (FmtE.unpack w)
  | 0x1A => decUpd m h (FmtV.unpack w)
  | 0x1C => if m = 0x02 then decXcmb h (FmtM.unpack w) else decExpR m h (FmtR.unpack w)
  | 0x1D => if m = 0x03 || m = 0x04 then decContM m h (FmtM.unpack w) else decContR m h (FmtR.unpack w)
  | 0x30 => decSys m h (FmtR.unpack w)
  | _ => .error .unassigned

/-- A prefix word: bits [83:68] must be zero (R156). -/
def decodePfx (g : Nat) (w : IWord) : Dec Instr :=
  if w.extractLsb' 68 16 ≠ 0 then .error .reserved
  else if g = 0x3E then .ok (.pfxi (w.extractLsb' 0 68)) else decPfxm w

/-- A word whose bits [95:68] are read. -/
def decodeHead (hd : WHead) (w : IWord) : Dec Instr :=
  if opInfo hd.grp.toNat hd.minor.toNat = none then .error .unassigned
  else if 0x3E ≤ hd.grp.toNat then decodePfx hd.grp.toNat w
  else (Hdr.dec hd).bind fun h => decodePayload hd.grp.toNat hd.minor.toNat h w

/-- The decoder of one word (R149, R160). -/
def decodeWord (w : IWord) : Dec Instr :=
  if w = 0 then .error .zeroWord else decodeHead (WHead.unpack w) w

/-- The word that twelve bytes hold, the lowest address first (R13, R149). -/
def wordOfBytes (bs : List Byte) : IWord :=
  bs.foldr (fun b acc => acc <<< 8 ||| b.setWidth 96) 0

def bytesOfWord (w : IWord) : List Byte := (List.range 12).map fun i => w.extractLsb' (8 * i) 8

/-- Decode the instruction at the head of a list of bytes; what is left follows it. -/
def decode (bs : List Byte) : Dec (Instr × List Byte) := do
  need (12 ≤ bs.length) .short
  return (← decodeWord (wordOfBytes (bs.take 12)), bs.drop 12)

/-- The host's question: the instruction whose first nbits bits are w and whose other bits are zero. -/
def decodeTableWord (nbits w : Nat) : Option Instr :=
  match decode (bytesOfWord (BitVec.ofNat 96 (w % 2 ^ nbits))) with
  | .ok (i, _) => some i
  | .error _ => none

/-! ### The encoder, from the same tables -/

def encP (p : Fin 8) : BitVec 7 := (0 : BitVec 4) ++ (BitVec.ofFin p : BitVec 3)

def encPInv (p : Fin 8) (inv : Bool) : BitVec 7 := (0 : BitVec 3) ++ bit1 inv ++ (BitVec.ofFin p : BitVec 3)

def encC (c : Fin 16) : BitVec 7 := (0 : BitVec 3) ++ (BitVec.ofFin c : BitVec 4)

def encQ (q : Fin 8) : BitVec 4 := (0 : BitVec 1) ++ (BitVec.ofFin q : BitVec 3)

def encW64 (w64 : Bool) : BitVec 3 := if w64 then 3 else 2

def encMF (data : BitVec 7) (size scope : BitVec 3) (kmod : BitVec 4) (m : MAddr) : FmtM :=
  ⟨data, BitVec.ofFin m.cap, m.oreg.enc, size, scope, kmod, m.off⟩

def encAt (o : AtOp) : FmtM :=
  encMF o.a.enc (encW64 o.w64) o.scope.enc (bit1 o.p ++ bit1 o.aq ++ bit1 o.rl ++ bit1 o.sgn) o.m

def encE3 (o : E3) (emod : BitVec 4) : FmtE :=
  ⟨o.e.wsem, o.e.wthr, o.e.ssem, o.e.sinc, o.d0.enc, o.d1.enc, o.d2.enc, 0, emod⟩

def encE4 (o : E4) (emod : BitVec 4) : FmtE :=
  ⟨o.e.wsem, o.e.wthr, o.e.ssem, o.e.sinc, o.d0.enc, o.d1.enc, o.d2.enc, o.d3.enc, emod⟩

def encRUn (o : RUn) (cond : BitVec 4) : FmtR := ⟨o.d.enc, o.a.enc, 0, 0, cond, 0, o.imm⟩

def encR (g m : BitVec 6) (h : Hdr) (f : FmtR) : IWord := h.enc g m ++ f.pack
def encV (g m : BitVec 6) (h : Hdr) (f : FmtV) : IWord := h.enc g m ++ f.pack
def encM (g m : BitVec 6) (h : Hdr) (f : FmtM) : IWord := h.enc g m ++ f.pack
def encE (g m : BitVec 6) (h : Hdr) (f : FmtE) : IWord := h.enc g m ++ f.pack
def encB (g m : BitVec 6) (h : Hdr) (f : FmtB) : IWord := h.enc g m ++ f.pack

/-- The word of an instruction (R149 to R160); an event of the machine has no word and gives zero. -/
def encode (i : Instr) : IWord :=
  match i with
  | .add h o => encR 0x01 0x00 h (encIArith o)
  | .sub h o => encR 0x01 0x01 h (encIArith o)
  | .mul h o => encR 0x01 0x02 h (encIArith o)
  | .mulh h o => encR 0x01 0x03 h (encIBin o)
  | .div h o => encR 0x01 0x04 h (encIArith o)
  | .rem h o => encR 0x01 0x05 h (encIBin o)
  | .and h o => encR 0x01 0x06 h (encIBin o)
  | .or h o => encR 0x01 0x07 h (encIBin o)
  | .xor h o => encR 0x01 0x08 h (encIBin o)
  | .andn h o => encR 0x01 0x09 h (encIBin o)
  | .shl h o => encR 0x01 0x0a h (encIBin o)
  | .shr h o => encR 0x01 0x0b h (encIBin o)
  | .sar h o => encR 0x01 0x0c h (encIBin o)
  | .rotl h o => encR 0x01 0x0d h (encIBin o)
  | .min h o => encR 0x01 0x0e h (encIBin o)
  | .max h o => encR 0x01 0x0f h (encIBin o)
  | .clz h o => encR 0x01 0x10 h (encIUn o)
  | .ctz h o => encR 0x01 0x11 h (encIUn o)
  | .popc h o => encR 0x01 0x12 h (encIUn o)
  | .sext h o => encR 0x01 0x13 h (encIExt 0xB o)
  | .zext h o => encR 0x01 0x14 h (encIExt 0x3 o)
  | .bfx h o => encR 0x01 0x15 h (encIBfx o)
  | .bfi h o => encR 0x01 0x16 h (encITri 0 o)
  | .cmp h o => encR 0x01 0x17 h (encICmp o)
  | .sel h o => encR 0x01 0x18 h (encISel o)
  | .mov h o => encR 0x01 0x19 h (encIUn o)
  | .movi h d k v => encR 0x01 0x1a h ⟨(0 : BitVec 3) ++ (BitVec.ofFin d : BitVec 4), 0, 0, 0,
      (0 : BitVec 2) ++ (BitVec.ofFin k : BitVec 2), 0, (0 : BitVec 16) ++ v⟩
  | .lea h sh o => encR 0x01 0x1b h (encITri (BitVec.ofFin sh) o)
  | .fadd h o => encR 0x02 0x00 h (encFBin o)
  | .fmul h o => encR 0x02 0x01 h (encFBin o)
  | .ffma h o => encR 0x02 0x02 h (encFTri o)
  | .fmin h o => encR 0x02 0x03 h (encFMinMax o)
  | .fmax h o => encR 0x02 0x04 h (encFMinMax o)
  | .fcmp h o => encR 0x02 0x05 h (encFCmp o)
  | .fcvt h o => encR 0x02 0x06 h (encFCvt o)
  | .plog h pd pa pb tbl => encR 0x02 0x07 h ⟨0, encP pa, encP pb, encP pd, tbl, 0, 0⟩
  | .br h off => encB 0x03 0x00 h ⟨0, 0, off⟩
  | .brIndirect h a => encB 0x03 0x00 h ⟨1, a.enc ++ (0 : BitVec 25), 0⟩
  | .bc h c ty a b off => encB 0x03 0x01 h ⟨(0 : BitVec 2) ++ (BitVec.ofFin ty.w : BitVec 2),
      a.enc ++ b.enc ++ c.enc ++ bit1 ty.sgn ++ (0 : BitVec 14), off⟩
  | .bq h q inv pd off => encB 0x03 0x02 h ⟨(0 : BitVec 2) ++ bit1 inv ++ bit1 q,
      (0 : BitVec 29) ++ (BitVec.ofFin pd : BitVec 3), off⟩
  | .bqNobranch h q inv pd => encB 0x03 0x02 h ⟨(1 : BitVec 2) ++ bit1 inv ++ bit1 q,
      (0 : BitVec 29) ++ (BitVec.ofFin pd : BitVec 3), 0⟩
  | .bpush h tgt p inv => encR 0x03 0x03 h ⟨0, 0, 0, encPInv p inv, (0 : BitVec 3) ++ bit1 tgt, 0, 0⟩
  | .jtab h a cap len off => encB 0x03 0x04 h
      ⟨0, a.enc ++ (BitVec.ofFin cap : BitVec 4) ++ len ++ (0 : BitVec 5), off⟩
  | .call h d off => encB 0x03 0x05 h ⟨0, d.enc ++ (0 : BitVec 25), off⟩
  | .callIndirect h d a => encB 0x03 0x05 h ⟨1, d.enc ++ a.enc ++ (0 : BitVec 18), 0⟩
  | .ret h a => encB 0x03 0x06 h ⟨0, a.enc ++ (0 : BitVec 25), 0⟩
  | .loop h (.imm c) body => encB 0x03 0x07 h ⟨1, (0 : BitVec 7) ++ body ++ (0 : BitVec 9), c⟩
  | .loop h (.src a) body => encB 0x03 0x07 h ⟨0, a.enc ++ body ++ (0 : BitVec 9), 0⟩
  | .lbrk h n => encB 0x03 0x08 h ⟨0, (0 : BitVec 30) ++ (BitVec.ofFin n : BitVec 2), 0⟩
  | .nop h => encR 0x03 0x09 h ⟨0, 0, 0, 0, 0, 0, 0⟩
  | .ends h => encR 0x03 0x0a h ⟨0, 0, 0, 0, 0, 0, 0⟩
  | .sbwait h all => encR 0x03 0x0b h ⟨0, 0, 0, 0, (0 : BitVec 3) ++ bit1 all, 0, 0⟩
  | .sleep h a imm => encR 0x03 0x0c h ⟨0, a.enc, 0, 0, 0, 0, imm⟩
  | .sleepUntil h a imm => encR 0x03 0x0c h ⟨0, a.enc, 0, 0, 1, 0, imm⟩
  | .sleepFor h a imm => encR 0x03 0x0c h ⟨0, a.enc, 0, 0, 2, 0, imm⟩
  | .rdtime h ft d => encR 0x03 0x0d h ⟨d.enc, 0, 0, 0, (0 : BitVec 3) ++ bit1 ft, 0, 0⟩
  | .rdid h sel d => encR 0x03 0x0e h ⟨d.enc, 0, 0, 0, BitVec.ofNat 4 sel.val, 0, 0⟩
  | .qpush h q p a imm => encR 0x03 0x0f h ⟨0, a.enc, 0, encP p, encQ q, 0, imm⟩
  | .qpop h q d p => encR 0x03 0x10 h ⟨d.enc, 0, 0, encP p, encQ q, 0, 0⟩
  | .qcnt h q d => encR 0x03 0x11 h ⟨d.enc, 0, 0, 0, encQ q, 0, 0⟩
  | .pfxi p => (0x3E : BitVec 6) ++ (0 : BitVec 22) ++ p
  | .pfxm f => (0x3F : BitVec 6) ++ (0 : BitVec 22) ++ encPfxm f
  | .ld h o => encM 0x08 0x00 h (encMF o.d.enc ((0 : BitVec 1) ++ (BitVec.ofFin o.size : BitVec 2)) o.scope.enc
      (bit1 o.p ++ (0 : BitVec 2) ++ bit1 o.sx) o.m)
  | .ldTile h o => encM 0x08 0x00 h (encMF o.a.enc 5 o.scope.enc 0 o.m)
  | .ldq h o => encM 0x08 0x01 h (encMF 0x20 ((0 : BitVec 1) ++ (BitVec.ofFin o.size : BitVec 2)) o.scope.enc
      (bit1 o.sx ++ (BitVec.ofFin o.n : BitVec 3)) o.m)
  | .st h o => encM 0x08 0x02 h (encMF o.a.enc ((0 : BitVec 1) ++ (BitVec.ofFin o.size : BitVec 2)) o.scope.enc 0 o.m)
  | .stTile h o => encM 0x08 0x02 h (encMF o.a.enc 5 o.scope.enc 0 o.m)
  | .stq h o => encM 0x08 0x03 h (encMF 0x20 ((0 : BitVec 1) ++ (BitVec.ofFin o.size : BitVec 2)) o.scope.enc
      ((0 : BitVec 1) ++ (BitVec.ofFin o.n : BitVec 3)) o.m)
  | .pref h pv scope m => encM 0x08 0x04 h (encMF 0 0 scope.enc ((0 : BitVec 3) ++ bit1 pv) m)
  | .aadd h o => encM 0x08 0x05 h (encAt o)
  | .amin h o => encM 0x08 0x06 h (encAt o)
  | .amax h o => encM 0x08 0x07 h (encAt o)
  | .aand h o => encM 0x08 0x08 h (encAt o)
  | .aor h o => encM 0x08 0x09 h (encAt o)
  | .axor h o => encM 0x08 0x0a h (encAt o)
  | .aswp h o => encM 0x08 0x0b h (encAt o)
  | .acas h o => encM 0x08 0x0c h (encMF ((0 : BitVec 3) ++ (BitVec.ofFin o.k : BitVec 3) ++ (0 : BitVec 1))
      (encW64 o.w64) o.scope.enc (bit1 o.p ++ bit1 o.aq ++ bit1 o.rl ++ bit1 o.sgn) o.m)
  | .afadd h o => encM 0x08 0x0d h (encMF o.a.enc 2 o.scope.enc (bit1 o.p ++ bit1 o.aq ++ bit1 o.rl ++ (0 : BitVec 1)) o.m)
  | .redi h o => encM 0x08 0x0e h (encMF o.a.enc (encW64 o.w64) o.scope.enc (bit1 o.sgn ++ o.op.enc) o.m)
  | .redf h o => encM 0x08 0x0f h (encMF o.a.enc 2 o.scope.enc ((0 : BitVec 2) ++ o.op.enc) o.m)
  | .rel h o => encM 0x09 0x00 h (encMF 0 4 o.scope.enc (bit1 o.p ++ (0 : BitVec 3)) o.m)
  | .relCommit h p m => encM 0x09 0x00 h (encMF 0 4 3 (bit1 p ++ (1 : BitVec 3)) m)
  | .rell h scope p d => encR 0x09 0x01 h ⟨(match d with
      | .t => 0x23
      | .pair k => (0 : BitVec 3) ++ (BitVec.ofFin k : BitVec 3) ++ (0 : BitVec 1)), 0, 0, 0,
      bit1 p ++ (0 : BitVec 1) ++ (scope.enc.extractLsb' 0 2 : BitVec 2), 0, 0⟩
  | .acq h o => encM 0x09 0x02 h (encMF o.d.enc 4 o.scope.enc (bit1 o.p ++ (0 : BitVec 3)) o.m)
  | .acql h p a b => encR 0x09 0x03 h ⟨0, a.enc, b.enc, 0, bit1 p ++ (0 : BitVec 3), 0, 0⟩
  | .fence h scope kind => encM 0x09 0x04 h ⟨0, 0, 0, 0, scope.enc, kind, 0⟩
  | .lsync h => encR 0x09 0x05 h ⟨0, 0, 0, 0, 0, 0, 0⟩
  | .lstat h sel d => encR 0x09 0x06 h ⟨d.enc, 0, 0, 0, BitVec.ofNat 4 sel.val, 0, 0⟩
  | .waita h a scope m => encM 0x09 0x07 h (encMF a.enc 3 scope.enc 0 m)
  | .waitaArm h a scope m => encM 0x09 0x07 h (encMF a.enc 3 scope.enc 1 m)
  | .wcancel h d => encR 0x09 0x08 h ⟨d.enc, 0, 0, 0, 0, 0, 0⟩
  | .swait h sem dec a imm => encR 0x09 0x09 h ⟨0, a.enc, (0 : BitVec 6) ++ bit1 dec, 0, sem.extractLsb' 4 4,
      sem.extractLsb' 0 4, imm⟩
  | .ssig h sem set a imm => encR 0x09 0x0a h ⟨0, a.enc, (0 : BitVec 5) ++ bit1 set ++ (0 : BitVec 1), 0,
      sem.extractLsb' 4 4, sem.extractLsb' 0 4, imm⟩
  | .srd h sem d => encR 0x09 0x0b h ⟨d.enc, 0, 0, 0, sem.extractLsb' 4 4, sem.extractLsb' 0 4, 0⟩
  | .cld h o => encM 0x0A 0x00 h (encMF ((0 : BitVec 3) ++ (BitVec.ofFin o.cr : BitVec 4)) 4 o.scope.enc 0 o.m)
  | .cst h o => encM 0x0A 0x01 h (encMF ((0 : BitVec 3) ++ (BitVec.ofFin o.cr : BitVec 4)) 4 o.scope.enc 0 o.m)
  | .cnarrow h o => encR 0x0A 0x02 h ⟨encC o.cd, encC o.cs, o.off.enc, o.len.enc, o.mask.extractLsb' 0 4,
      (0 : BitVec 3) ++ (o.mask.extractLsb' 4 1 : BitVec 1), o.imm⟩
  | .cinfo h fld d cs => encR 0x0A 0x03 h ⟨d.enc, encC cs, 0, 0, BitVec.ofNat 4 fld.val, 0, 0⟩
  | .cchk h o => encR 0x0A 0x04 h ⟨encP o.p, encC o.cs, o.off.enc, o.len.enc, o.mask.extractLsb' 0 4,
      (0 : BitVec 3) ++ (o.mask.extractLsb' 4 1 : BitVec 1), o.imm⟩
  | .cpy h o => encE 0x0C 0x00 h (encE3 o 0)
  | .cpyn h o => encE 0x0C 0x01 h (encE4 o 0)
  | .cgath h o => encE 0x0C 0x03 h (encE4 o 0)
  | .cscat h o => encE 0x0C 0x04 h (encE4 o 0)
  | .cfill h o => encE 0x0C 0x05 h (encE3 o 0)
  | .cred h o => encE 0x0C 0x06 h (encE3 o 0)
  | .credc h o => encE 0x0C 0x07 h (encE4 o 0)
  | .ccoll h o => encE 0x0C 0x08 h (encE4 o 0)
  | .cbget h o => encE 0x0C 0x09 h (encE3 o 0)
  | .draft h o => encE 0x0C 0x0b h (encE4 o 0)
  | .cpyt h cord o => encE 0x0C 0x02 h (encE4 o ((0 : BitVec 3) ++ bit1 cord))
  | .cstat h sel d p a imm => encR 0x0C 0x0a h ⟨d.enc, a.enc, 0, encP p, (0 : BitVec 2) ++ (BitVec.ofFin sel : BitVec 2), 0, imm⟩
  | .drstep h d a => encR 0x0C 0x0c h ⟨d.enc, a.enc, 0, 0, 0, 0, 0⟩
  | .vadd h o => encV 0x10 0x00 h (encVBin o)
  | .vsub h o => encV 0x10 0x01 h (encVBin o)
  | .vmul h o => encV 0x10 0x02 h (encVBin o)
  | .vfma h o => encV 0x10 0x03 h (encVTri o)
  | .vmin h o => encV 0x10 0x04 h (encVBit o)
  | .vmax h o => encV 0x10 0x05 h (encVBit o)
  | .vabs h o => encV 0x10 0x06 h (encVAbs o)
  | .vneg h o => encV 0x10 0x07 h (encVAbs o)
  | .vand h o => encV 0x10 0x08 h (encVBit o)
  | .vor h o => encV 0x10 0x09 h (encVBit o)
  | .vxor h o => encV 0x10 0x0a h (encVBit o)
  | .vshl h o => encV 0x10 0x0b h (encVBit o)
  | .vshr h o => encV 0x10 0x0c h (encVBit o)
  | .vsar h o => encV 0x10 0x0d h (encVBit o)
  | .vcmp h o => encV 0x10 0x0e h (encVCmp o)
  | .vsel h o => encV 0x10 0x0f h (encVSel o)
  | .vmov h o => encV 0x10 0x10 h (o.v.put o.vd o.va 0 0 0 0 0)
  | .vbcast h o => encV 0x10 0x11 h (o.v.put o.vd 0 o.b.vb 0 0 0 ((0 : BitVec 8) ++ o.b.fn))
  | .viota h o => encV 0x10 0x12 h (o.v.put o.vd 0 0 0 0 0 ((0 : BitVec 13) ++ BitVec.ofNat 2 o.sel.val))
  | .vcvt h o => encV 0x10 0x13 h (encVUn o)
  | .vqnt h o => encV 0x10 0x14 h (encVUn3 false false o)
  | .vdqnt h o => encV 0x10 0x15 h (encVUn3 false false o)
  | .vqntMx h o => encV 0x10 0x14 h (encVUn3 true true o)
  | .vdqntMx h o => encV 0x10 0x15 h (encVUn3 false true o)
  | .vrsum h o => encV 0x11 0x00 h (encVRed o)
  | .vrmax h o => encV 0x11 0x01 h (encVRed o)
  | .vramax h o => encV 0x11 0x02 h (encVRed o)
  | .vrmin h o => encV 0x11 0x03 h (encVRed o)
  | .vargmax h o => encV 0x11 0x04 h (encVRed o)
  | .vscan h o => encV 0x11 0x05 h (encVScan o)
  | .vexp2 h o => encV 0x12 0x00 h (encVUn o)
  | .vlog2 h o => encV 0x12 0x01 h (encVUn o)
  | .vrcp h o => encV 0x12 0x02 h (encVUn o)
  | .vrsqrt h o => encV 0x12 0x03 h (encVUn o)
  | .vsqrt h o => encV 0x12 0x04 h (encVUn o)
  | .vtanh h o => encV 0x12 0x05 h (encVUn o)
  | .vsincos h o => encV 0x12 0x06 h (encVUn3 false false o)
  | .vsig h o => encV 0x12 0x07 h (encVUn o)
  | .vtrn h o => encV 0x13 0x00 h ((VCom.mk o.shp o.ty 0).put o.vd o.va 0 0 0 0 0)
  | .vperm h o => encV 0x13 0x01 h (o.v.put o.vd o.va o.vb 0 0 0 ((0 : BitVec 14) ++ bit1 o.gl))
  | .vshuf h o => encV 0x13 0x02 h (o.v.put o.vd o.va 0 0 0 0 ((0 : BitVec 4) ++ bit1 o.ax ++ o.k))
  | .vsort h o => encV 0x13 0x03 h (o.v.put o.vd o.va ((o.kv.map (·.1)).getD 0) ((o.kv.map (·.2)).getD 0) 0 0
      ((0 : BitVec 13) ++ bit1 o.kv.isSome ++ bit1 o.desc))
  | .vmrg h o => encV 0x13 0x04 h ((VCom.mk o.shp o.ty 0).put o.vd o.va o.vb o.vc 0 0 ((0 : BitVec 14) ++ bit1 o.desc))
  | .vdrop h o => encV 0x13 0x05 h (o.v.put o.vd o.va 0 ((o.mkr.map encMreg).getD 0) 0 0
      ((0 : BitVec 6) ++ bit1 o.mkr.isSome ++ (BitVec.ofFin o.nc : BitVec 4) ++ (BitVec.ofFin o.np : BitVec 4)))
  | .vrng h o => encV 0x13 0x06 h (o.v.put o.vd 0 0 0 0 0 ((0 : BitVec 11) ++ (BitVec.ofFin o.nc : BitVec 4)))
  | .vdefer h o => encV 0x13 0x07 h (encVdefer o)
  | .vdrain h o => encV 0x13 0x08 h (encVdrain o)
  | .vshape h k v => encV 0x13 0x09 h (encVshape k v)
  | .mlog h md ma mb tbl => encV 0x13 0x0a h ⟨encMreg md, encMreg ma, encMreg mb, 0, 0, 0, 0, 0, 0, (0 : BitVec 11) ++ tbl⟩
  | .mcnt h shp d ma => encV 0x13 0x0b h ⟨(0 : BitVec 3) ++ d.enc, encMreg ma, 0, 0, BitVec.ofFin shp, 0, 0, 0, 0, 0⟩
  | .mfirst h shp d ma => encV 0x13 0x0c h ⟨(0 : BitVec 3) ++ d.enc, encMreg ma, 0, 0, BitVec.ofFin shp, 0, 0, 0, 0, 0⟩
  | .vext h shp ty d va idx => encV 0x13 0x0d h ((VCom.mk shp ty 0).put ((0 : BitVec 3) ++ d.enc) va 0 idx.vc 0 0 idx.fn)
  | .vins h shp ty vd a idx => encV 0x13 0x0e h ((VCom.mk shp ty 0).put vd ((0 : BitVec 3) ++ a.enc) 0 idx.vc 0 0 idx.fn)
  | .mma h ck o => encE 0x18 0x00 h (encE4 o (encCk ck))
  | .mmaz h ck o => encE 0x18 0x01 h (encE4 o (encCk ck))
  | .azero h e d0 => encE 0x18 0x02 h ⟨e.wsem, e.wthr, e.ssem, e.sinc, d0.enc, 0, 0, 0, 0⟩
  | .adrain h ck o => encE 0x18 0x03 h (encE3 o (encCk ck))
  | .aload h o => encE 0x18 0x04 h (encE3 o 0)
  | .aacc h o => encE 0x18 0x05 h (encE3 o 0)
  | .mstat h sel d p => encR 0x18 0x06 h ⟨d.enc, 0, 0, encP p, BitVec.ofNat 4 sel.val, 0, 0⟩
  | .mstop h o => encR 0x18 0x07 h (encRUn o 0)
  | .mcksumOpen h k e d0 => encE 0x18 0x08 h ⟨e.wsem, e.wthr, e.ssem, e.sinc, d0.enc, 0, 0, 0,
      (BitVec.ofFin k : BitVec 3) ++ (0 : BitVec 1)⟩
  | .mcksumClose h k e => encE 0x18 0x08 h ⟨e.wsem, e.wthr, e.ssem, e.sinc, 0, 0, 0, 0,
      (BitVec.ofFin k : BitVec 3) ++ (1 : BitVec 1)⟩
  | .uaxpby h o => encV 0x1A 0x00 h (encUOp false o)
  | .uadamw h o => encV 0x1A 0x01 h (encUOp false o)
  | .uema h o => encV 0x1A 0x02 h (encUOp false o)
  | .usgdm h nes o => encV 0x1A 0x03 h (encUOp nes o)
  | .uclipVal h o => encV 0x1A 0x04 h (encUOp false o)
  | .uclipNrm h o => encV 0x1A 0x04 h (encUOp true o)
  | .xenq h d a k rl p imm => encR 0x1C 0x00 h ⟨d.enc, a.enc, encC k, 0, bit1 p ++ (0 : BitVec 1) ++ bit1 rl ++ (0 : BitVec 1), 0, imm⟩
  | .xenqTile h d a w rl p imm => encR 0x1C 0x00 h ⟨d.enc, a.enc, 0, w.enc, bit1 p ++ (0 : BitVec 1) ++ bit1 rl ++ (1 : BitVec 1), 0, imm⟩
  | .xdeq h d a b c imm => encR 0x1C 0x01 h ⟨d.enc, a.enc, b.enc, c.enc, 0, 0, imm⟩
  | .xcmb h o => encM 0x1C 0x02 h (encMF o.d.enc 4 o.scope.enc (bit1 o.p ++ (0 : BitVec 3)) o.m)
  | .xstat h sel d a imm => encR 0x1C 0x03 h ⟨d.enc, a.enc, 0, 0, encQ sel, 0, imm⟩
  | .xkick h d a imm => encR 0x1C 0x04 h ⟨d.enc, a.enc, 0, 0, 0, 0, imm⟩
  | .xdone h => encR 0x1C 0x05 h ⟨0, 0, 0, 0, 0, 0, 0⟩
  | .susp h tag => encR 0x1D 0x00 h ⟨tag, 0, 0, 0, 0, 0, 0⟩
  | .suspCmb h tag a imm => encR 0x1D 0x00 h ⟨tag, a.enc, 0, 0, 2, 0, imm⟩
  | .yield h tag => encR 0x1D 0x01 h ⟨tag, 0, 0, 0, 0, 0, 0⟩
  | .exit h => encR 0x1D 0x02 h ⟨0, 0, 0, 0, 0, 0, 0⟩
  | .spawn h d p m => encM 0x1D 0x03 h (encMF d.enc 7 2 (bit1 p ++ (0 : BitVec 3)) m)
  | .join h tag scope m => encM 0x1D 0x04 h (encMF tag 3 scope.enc 0 m)
  | .twheel h tag a imm => encR 0x1D 0x05 h ⟨tag, a.enc, 0, 0, 0, 0, imm⟩
  | .ctxliveTile h a b imm => encR 0x1D 0x06 h ⟨0, a.enc, b.enc, 0, 0, 0, imm⟩
  | .ctxliveAcc h a b imm => encR 0x1D 0x06 h ⟨0, a.enc, b.enc, 0, 1, 0, imm⟩
  | .ctxliveClr h => encR 0x1D 0x06 h ⟨0, 0, 0, 0, 2, 0, 0⟩
  | .trap h code => encR 0x30 0x00 h ⟨0, 0, 0, 0, 0, 0, (0 : BitVec 16) ++ code⟩
  | .eret h => encR 0x30 0x01 h ⟨0, 0, 0, 0, 0, 0, 0⟩
  | .csrr h d n => encR 0x30 0x02 h ⟨d.enc, 0, 0, 0, 0, 0, (0 : BitVec 20) ++ n⟩
  | .csrw h n a => encR 0x30 0x03 h ⟨0, a.enc, 0, 0, 0, 0, (0 : BitVec 20) ++ n⟩
  | .csrxSwp h d n a => encR 0x30 0x04 h ⟨d.enc, a.enc, 0, 0, 0, 0, (0 : BitVec 20) ++ n⟩
  | .csrxSet h d n a => encR 0x30 0x04 h ⟨d.enc, a.enc, 0, 0, 1, 0, (0 : BitVec 20) ++ n⟩
  | .csrxClr h d n a => encR 0x30 0x04 h ⟨d.enc, a.enc, 0, 0, 2, 0, (0 : BitVec 20) ++ n⟩
  | .tlbinvVa h pkg a b imm => encR 0x30 0x05 h ⟨0, a.enc, b.enc, 0, bit1 pkg ++ (0 : BitVec 3), 0, imm⟩
  | .tlbinvTnt h pkg a b imm => encR 0x30 0x05 h ⟨0, a.enc, b.enc, 0, bit1 pkg ++ (1 : BitVec 3), 0, imm⟩
  | .tlbinvAll h pkg a b imm => encR 0x30 0x05 h ⟨0, a.enc, b.enc, 0, bit1 pkg ++ (2 : BitVec 3), 0, imm⟩
  | .tlbinvCap h pkg a b imm => encR 0x30 0x05 h ⟨0, a.enc, b.enc, 0, bit1 pkg ++ (3 : BitVec 3), 0, imm⟩
  | .tlbinvIc h pkg a b imm => encR 0x30 0x05 h ⟨0, a.enc, b.enc, 0, bit1 pkg ++ (4 : BitVec 3), 0, imm⟩
  | .ctxsv h d a b imm => encR 0x30 0x06 h ⟨d.enc, a.enc, b.enc, 0, 0, 0, imm⟩
  | .ctxld h d a b imm => encR 0x30 0x07 h ⟨d.enc, a.enc, b.enc, 0, 0, 0, imm⟩
  | .semmap h z d a b imm => encR 0x30 0x08 h ⟨d.enc, a.enc, b.enc, 0, (0 : BitVec 3) ++ bit1 z, 0, imm⟩
  | .mdrain h o => encR 0x30 0x09 h (encRUn o 0)
  | .preempt h w o => encR 0x30 0x0a h (encRUn o ((0 : BitVec 3) ++ bit1 w))
  | .cmintMint h d a b c imm => encR 0x30 0x0b h ⟨d.enc, a.enc, b.enc, c.enc, 0, 0, imm⟩
  | .cmintRevoke h d a b c imm => encR 0x30 0x0b h ⟨d.enc, a.enc, b.enc, c.enc, 1, 0, imm⟩
  | .haltWfi h => encR 0x30 0x0c h ⟨0, 0, 0, 0, 0, 0, 0⟩
  | .haltStop h => encR 0x30 0x0c h ⟨0, 0, 0, 0, 1, 0, 0⟩
  | .sleepEnd _ | .releaseComplete _ | .copyCommandBegin | .copyCommandComplete _ | .draftFetch _
  | .draftArrival _ | .matrixCommandBegin | .matrixCommandComplete | .rickAgeExpiry _ | .rickFiring _
  | .preemptStop | .trapTaken _ | .queueStallExpiry | .watchdog | .hostLaunch _ | .dealChunk _ _ | .dispatch
  | .claim _ | .continuationWake _ | .jobComplete _ _ | .completionWordWrite _ _ | .supervisorFree _
  | .timerSlotBoundary | .timerOverflowMove _ | .groupGate _ | .groupWakeDone _ | .billetSpill _ _
  | .compaction _ _ | .leaseRenewal _ | .leaseExpiry _ | .read _ _ | .bulkGet _ _ | .leaseAcquire _
  | .leaseRenew _ _ | .leaseRelease _ | .leaseRecall _ | .billetShip _ _ _ | .stepCommit _ _ | .atomic _ _ _ _ _ _
  | .reduction _ _ _ _ | .inPlaceWrite _ _ | .tokenRaise _ _ _ | .collective _ _ | .poison _
  | .reassign _ _ | .reservedTransaction _ _ | .lostCompletionWrite _ _ | .responseTimeout _ | .dataFlit _ _
  | .nakFlit _ _ | .trainingFlit _ _ | .replayTimeout _ | .wavelengthWindow _ _ _ | .spareLock _ _ _
  | .portBringup _ _ _ _ | .laserMeasurement _ _ | .launchRingDoorbell _ _ | .faultRingTailWrite _ _
  | .hostWindowClose | .hostWindowSet _ _ | .hostRegisterWrite _ _ _ | .hostMemRequest _ _ _ | .hostLoss
  | .accinjWrite _ | .corectlWrite _ | .evpendClear _ | .drtailWrite _ | .draftRingConfigWrite _ _
  | .csrWrite _ _ | .nodeStateWrite _ _ | .rowRemapWrite _ _ _ | .mgmtRegisterWrite _ _ | .ashUnfreeze _
  | .ue _ _ | .packageFatal | .dccErrorStop _ | .hbmScrub _ _ | .rowSparing _ _ _ _ _ | .thermalReport _ _
  | .thermalTrip _ | .powerCap _ _ | .dvfsChange _ _ | .coldReset | .warmReset | .tinder _ _ | .kindling _
  | .getVersion | .getCapabilities | .negotiateAlgorithms _ _ | .getDigests | .getCertificate _ _
  | .getMeasurements _ _ _ | .unsupportedRequest | .idleFlit _ _ | .hostLinkTrained | .hostSnoop _
  | .accessComplete _ => 0

end Sys2Proof
end

