-- ==== Sys2Proof/Machine/Num.lean ====
section
/-!
DEFINITION. Element types and their arithmetic: exact values, one rounding, conversion, comparison, the kiln hash
(R67 to R80).
-/

namespace Sys2Proof.Machine

/-! ### Element types (R67) -/

end Sys2Proof.Machine

namespace Sys2Proof

open Machine

def EType.bits : EType → Nat
  | .f32 | .s32 | .z32 => 32
  | .bf16 | .f16 | .s16 | .z16 => 16
  | .e2m1 => 4
  | _ => 8

def EType.isFloat : EType → Bool
  | .f32 | .bf16 | .f16 | .e4m3 | .e5m2 | .e2m1 => true
  | _ => false

def EType.isSigned : EType → Bool
  | .s8 | .s16 | .s32 => true
  | _ => false

/-- The types of element-wise float arithmetic. -/
def EType.isArith : EType → Bool
  | .f32 | .bf16 | .f16 => true
  | _ => false

def SFTy.ety : SFTy → EType
  | .f32 => .f32
  | .bf16 => .bf16
  | .f16 => .f16

end Sys2Proof

namespace Sys2Proof.Machine

/-! ### Exact values -/

/-- The value of a number: NaN, an infinity, or ± man · 2^exp (a zero keeps its sign). -/
inductive FV where
  | nan
  | inf (neg : Bool)
  | fin (neg : Bool) (man : Nat) (exp : Int)
  deriving DecidableEq, Repr

/-- Significand bits after the point, bias and largest finite magnitude of a float type (R68). -/
def mantBits : EType → Nat
  | .f32 => 23
  | .bf16 => 7
  | .f16 => 10
  | .e5m2 => 2
  | .e4m3 => 3
  | _ => 1

def expBias : EType → Nat
  | .f32 | .bf16 => 127
  | .f16 | .e5m2 => 15
  | .e4m3 => 7
  | _ => 1

def maxMag : EType → Nat
  | .f32 => 0x7F7FFFFF
  | .bf16 => 0x7F7F
  | .f16 => 0x7BFF
  | .e5m2 => 0x7B
  | .e4m3 => 0x7E
  | _ => 7

def hasInf : EType → Bool
  | .f32 | .bf16 | .f16 | .e5m2 => true
  | _ => false

/-- The canonical NaN (R70); +0 for e2m1 and 0 for an integer (R75). -/
def canonNan : EType → Nat
  | .f32 => 0x7FC00000
  | .bf16 => 0x7FC0
  | .f16 => 0x7E00
  | .e5m2 => 0x7E
  | .e4m3 => 0x7F
  | .e8m0 => 0xFF
  | _ => 0

/-- The value of a pattern (R68, R69, R72). -/
def fvOf (ty : EType) (x : Nat) : FV :=
  let w := EType.bits ty
  let x := x % 2 ^ w
  if EType.isFloat ty then
    let neg := bitOf x (w - 1)
    let mag := x % 2 ^ (w - 1)
    let m := mantBits ty
    if mag ≤ maxMag ty then
      let e := mag / 2 ^ m
      if e = 0 then .fin neg mag (1 - (expBias ty : Int) - m)
      else .fin neg (2 ^ m + mag % 2 ^ m) ((e : Int) - expBias ty - m)
    else if hasInf ty && mag = maxMag ty + 1 then .inf neg
    else .nan
  else if ty = .e8m0 then
    if x = 0xFF then .nan else .fin false 1 ((x : Int) - 127)
  else if EType.isSigned ty && bitOf x (w - 1) then .fin true (2 ^ w - x) 0
  else .fin false x 0

/-! ### Rounding (R73, R77) -/

/-- How a result is rounded: a rounding code, or stochastically by a hash (R77). -/
inductive RMode where
  | rnd (r : Rnd)
  | sr (hash : Nat)
  deriving DecidableEq, Repr

/-- Does n + frac quanta round away from zero? frac is rem / 2^sh, with more below when sticky. -/
def roundsUp (mode : RMode) (neg : Bool) (n rem sh : Nat) (sticky : Bool) : Bool :=
  let exact := rem = 0 && !sticky
  match mode with
  | .rnd .rne =>
    let half := 2 ^ sh
    decide (half < 2 * rem) || (2 * rem = half && (sticky || n % 2 = 1))
  | .rnd .rz => false
  | .rnd .rd => neg && !exact
  | .rnd .ru => !neg && !exact
  | .sr h => decide (h < rem * 2 ^ 32 / 2 ^ sh)

/-- Bring ± man · 2^exp (and a little more when sticky) to a whole number of quanta 2^q. -/
def quanta (mode : RMode) (neg : Bool) (man : Nat) (exp q : Int) (sticky : Bool) : Nat :=
  if q ≤ exp then
    let n := man * 2 ^ (exp - q).toNat
    if roundsUp mode neg n 0 0 sticky then n + 1 else n
  else
    let sh := (q - exp).toNat
    let n := man / 2 ^ sh
    if roundsUp mode neg n (man % 2 ^ sh) sh sticky then n + 1 else n

/-- floor(log2 n) for n > 0. -/
def log2 (n : Nat) : Nat := Nat.log2 n

def signBit (ty : EType) (neg : Bool) : Nat := if neg then 2 ^ (EType.bits ty - 1) else 0

/-- The pattern of a float overflow (R74). -/
def overflowBits (ty : EType) (mode : RMode) (sat neg : Bool) : Nat :=
  signBit ty neg +
  match ty with
  | .e2m1 => 7
  | .e4m3 => if sat then 0x7E else 0x7F
  | .e5m2 => if sat then 0x7B else 0x7C
  | ty =>
    if sat then maxMag ty
    else match mode with
      | .rnd .rz => maxMag ty
      | .rnd .rd => if neg then maxMag ty + 1 else maxMag ty
      | .rnd .ru => if neg then maxMag ty else maxMag ty + 1
      | _ => maxMag ty + 1

/-- Round a finite value to a float type (R73, R74, R77). -/
def roundFloat (ty : EType) (mode : RMode) (sat neg : Bool) (man : Nat) (exp : Int) (sticky : Bool) : Nat :=
  if man = 0 && !sticky then signBit ty neg
  else
    let m : Int := mantBits ty
    let emin : Int := 1 - expBias ty
    let q := max (exp + log2 (max man 1)) emin - m
    let n := quanta mode neg man exp q sticky
    let mag := ((q + m + expBias ty) - 1).toNat * 2 ^ mantBits ty + n
    if maxMag ty < mag then overflowBits ty mode sat neg else signBit ty neg + mag

/-- Round a finite value to an integer, then bring it to the type's range (R73, R74). -/
def roundInt (ty : EType) (mode : RMode) (neg : Bool) (man : Nat) (exp : Int) (sticky : Bool) : Int :=
  let n : Int := quanta mode neg man exp 0 sticky
  let v := if neg then -n else n
  let w := EType.bits ty
  let lo : Int := if EType.isSigned ty then -(2 ^ (w - 1) : Nat) else 0
  let hi : Int := if EType.isSigned ty then (2 ^ (w - 1) : Nat) - 1 else (2 ^ w : Nat) - 1
  max lo (min hi v)

/-- The w low bits of an integer. -/
def wrapInt (w : Nat) (v : Int) : Nat := (v % (2 ^ w : Nat)).toNat

/-- Clamp to the range of an integer type. -/
def clampInt (ty : EType) (v : Int) : Int :=
  let w := EType.bits ty
  let lo : Int := if EType.isSigned ty then -(2 ^ (w - 1) : Nat) else 0
  let hi : Int := if EType.isSigned ty then (2 ^ (w - 1) : Nat) - 1 else (2 ^ w : Nat) - 1
  max lo (min hi v)

/-- floor(log2) of ± man · 2^exp as an e8m0 pattern (R75). -/
def toE8m0 (man : Nat) (exp : Int) : Nat :=
  if man = 0 then 0 else (max (-127) (min 127 (exp + log2 man)) + 127).toNat

/-- The pattern of a value in a type: floats by R73 to R75, e8m0 and integers by R75. -/
def packFV (ty : EType) (mode : RMode) (sat : Bool) : FV → Nat
  | .nan => canonNan ty
  | .inf neg =>
    if EType.isFloat ty then
      if sat && ty != .e2m1 then signBit ty neg + maxMag ty
      else match ty with
        | .e4m3 => signBit ty neg + 0x7F
        | .e2m1 => signBit ty neg + 7
        | ty => signBit ty neg + maxMag ty + 1
    else if ty = .e8m0 then 0xFF
    else
      let w := EType.bits ty
      if neg then (if EType.isSigned ty then 2 ^ (w - 1) else 0)
      else (if EType.isSigned ty then 2 ^ (w - 1) - 1 else 2 ^ w - 1)
  | .fin neg man exp =>
    if EType.isFloat ty then roundFloat ty mode sat neg man exp false
    else if ty = .e8m0 then toE8m0 man exp
    else wrapInt (EType.bits ty) (roundInt ty mode neg man exp false)

/-- A conversion (R73 to R75): between integers it wraps, or saturates. -/
def convertBits (dty sty : EType) (mode : RMode) (sat : Bool) (x : Nat) : Nat :=
  match fvOf sty x with
  | .fin neg man exp =>
    if EType.isInt dty && EType.isInt sty && !sat then wrapInt (EType.bits dty) (if neg then -(man : Int) else man)
    else packFV dty mode sat (.fin neg man exp)
  | v => packFV dty mode sat v

/-! ### Exact operations (R79) -/

def FV.isNan : FV → Bool
  | .nan => true
  | _ => false

def FV.neg : FV → FV
  | .nan => .nan
  | .inf n => .inf (!n)
  | .fin n m e => .fin (!n) m e

def FV.abs : FV → FV
  | .nan => .nan
  | .inf _ => .inf false
  | .fin _ m e => .fin false m e

/-- The exact sum; rd tells that the rounding is RD, for the sign of an exact zero (R73). -/
def FV.add (rd : Bool) : FV → FV → FV
  | .nan, _ | _, .nan => .nan
  | .inf a, .inf b => if a = b then .inf a else .nan
  | .inf a, _ => .inf a
  | _, .inf b => .inf b
  | .fin na ma ea, .fin nb mb eb =>
    let e := min ea eb
    let a : Int := ma * 2 ^ (ea - e).toNat
    let b : Int := mb * 2 ^ (eb - e).toNat
    let s := (if na then -a else a) + (if nb then -b else b)
    if s = 0 then .fin (if na = nb then na else rd) 0 0 else .fin (decide (s < 0)) s.natAbs e

def FV.mul : FV → FV → FV
  | .nan, _ | _, .nan => .nan
  | .inf a, .inf b => .inf (a != b)
  | .inf a, .fin b m _ | .fin b m _, .inf a => if m = 0 then .nan else .inf (a != b)
  | .fin na ma ea, .fin nb mb eb => .fin (na != nb) (ma * mb) (ea + eb)

def RMode.isRd : RMode → Bool
  | .rnd .rd => true
  | _ => false

/-- Operations on patterns of one float type, rounded once. -/
def fadd (ty : EType) (mode : RMode) (sat : Bool) (a b : Nat) : Nat :=
  packArith ty mode sat ((fvOf ty a).add mode.isRd (fvOf ty b))
where
  /-- Round a result of arithmetic: an infinity among the operands stays one (R79), saturation acts on rounding only. -/
  packArith (ty : EType) (mode : RMode) (sat : Bool) : FV → Nat
    | .inf neg => packFV ty mode false (.inf neg)
    | v => packFV ty mode sat v

def fsub (ty : EType) (mode : RMode) (sat : Bool) (a b : Nat) : Nat :=
  fadd.packArith ty mode sat ((fvOf ty a).add mode.isRd (fvOf ty b).neg)

def fmul (ty : EType) (mode : RMode) (sat : Bool) (a b : Nat) : Nat :=
  fadd.packArith ty mode sat ((fvOf ty a).mul (fvOf ty b))

def ffma (ty : EType) (mode : RMode) (sat : Bool) (a b c : Nat) : Nat :=
  fadd.packArith ty mode sat (((fvOf ty a).mul (fvOf ty b)).add mode.isRd (fvOf ty c))

/-- Order of two values that are no NaN: less, with -0 and +0 equal. -/
def FV.lt : FV → FV → Bool
  | .nan, _ | _, .nan => false
  | .inf a, .inf b => a && !b
  | .inf a, .fin _ _ _ => a
  | .fin _ _ _, .inf b => !b
  | .fin na ma ea, .fin nb mb eb =>
    let e := min ea eb
    let a : Int := ma * 2 ^ (ea - e).toNat
    let b : Int := mb * 2 ^ (eb - e).toNat
    decide ((if na then -a else a) < (if nb then -b else b))

def FV.isNeg : FV → Bool
  | .nan => false
  | .inf n => n
  | .fin n _ _ => n

def FV.isZero : FV → Bool
  | .fin _ m _ => m = 0
  | _ => false

/-- The total order of minimum, maximum, VARGMAX and VSORT: -0 is below +0. -/
def FV.below (a b : FV) : Bool := a.lt b || (a.isZero && b.isZero && a.isNeg && !b.isNeg)

/-- Equality of R79: -0 equals +0, NaN equals nothing. -/
def FV.eq (a b : FV) : Bool := !a.isNan && !b.isNan && !a.lt b && !b.lt a

def fmin (ty : EType) (a b : Nat) : Nat :=
  let x := fvOf ty a
  let y := fvOf ty b
  if x.isNan || y.isNan then canonNan ty else if y.below x then b % 2 ^ EType.bits ty else a % 2 ^ EType.bits ty

def fmax (ty : EType) (a b : Nat) : Nat :=
  let x := fvOf ty a
  let y := fvOf ty b
  if x.isNan || y.isNan then canonNan ty else if x.below y then b % 2 ^ EType.bits ty else a % 2 ^ EType.bits ty

/-- A comparison (R79, R181, R248). -/
def fcmp (c : FCond) (x y : FV) : Bool :=
  if x.isNan || y.isNan then c = .ne
  else match c with
    | .eq => x.eq y
    | .ne => !x.eq y
    | .lt => x.lt y
    | .le => !y.lt x
    | .gt => y.lt x
    | .ge => !x.lt y

/-! ### The kiln hash (R76) -/

def kilnRound (x : BitVec 64) : BitVec 64 :=
  let x := x ^^^ (x >>> 31)
  let x := x * 0xD6E8FEB86659FD93
  x ^^^ (x >>> 32)

def kiln (seed ctr : BitVec 64) (idx : Nat) : Nat :=
  let x := ctr ^^^ (BitVec.ofNat 64 idx * 0x9E3779B97F4A7C15)
  let x := x ^^^ seed
  (kilnRound (kilnRound (kilnRound x))).toNat % 2 ^ 32

/-- Keep an element under dropout (R78). -/
def kilnKeep (p : Nat) (h : Nat) : Bool := p = 0xFFFF || decide (h / 65536 < p)

/-! ### The pairwise tree (R80) -/

def pairUp {α : Type} (op : α → α → α) : List α → List α
  | a :: b :: l => op a b :: pairUp op l
  | l => l

def treeFold {α : Type} (op : α → α → α) : Nat → List α → List α
  | 0, l => l
  | f + 1, l =>
    match l with
    | [] => []
    | [x] => [x]
    | l => treeFold op f (pairUp op l)

/-- tree(x, op): at most 2^11 elements, so 11 levels. -/
def tree {α : Type} (op : α → α → α) (d : α) (l : List α) : α := (treeFold op (l.length + 1) l).headD d

end Sys2Proof.Machine
end

