-- ==== Sys2Proof/Config.lean ====
section
/-!
DEFINITION. What an implementation fixes, and the free values: constants without a body, so that nothing can be
proved of their value. A free value is applied to a counter that the state holds (State.free), or to the operands
it depends on.
-/

namespace Sys2Proof.Config

/-- A value that the spec leaves open (a byte, a word, a choice), numbered by State.free. Log entry 2. -/
opaque freeValue : Nat → BitVec 64

/-- The bits of a sealed capability image (R226: not architected). Log entry 3. -/
opaque sealBits : List Nat → BitVec 128

/-- What a sealed image binds, as the list of numbers that sealBits takes, where the image was not made in this
package's own state (R226). Log entry 3. -/
opaque unsealBits : BitVec 128 → List Nat

/-- Unloaded clocks from a core group to a slice for a 64-byte read (R61): per part, not given. Log entry 4. -/
opaque latency : Nat → Nat → BitVec 16

/-- The copy engine's estimate of a command's clocks to completion (R228): not given in numbers. Log entry 4. -/
opaque copyEstimate : Nat → Nat

/-- ML-DSA-44 verification of FIPS 204 (R448): public key, digest, signature. Log entry 5. -/
opaque mldsaVerify : List Byte → List Byte → List Byte → Bool

/-- An ECDSA P-384 signature of the collier's device key over a transcript (R450). Log entry 5. -/
opaque ecdsaSign : List Byte → List Byte

/-- The identity of this part: minor stepping (R16, R17 describe every stepping whose STEPMAJ is 0x00). -/
opaque stepMin : BitVec 8

/-- A fused value read by tinder: the hash of the signer's key for a slot (R448). -/
opaque fusedKeyHash : Nat → List Byte

/-- The fused minimum security version of a slot (R448). -/
opaque fusedSvnMin : Nat → Nat

/-- The certificate chain of the device key (R450). -/
opaque certChain : List Byte

/-- Whether a cache or TLB still holds at a clock an entry it was filled with (R5, R43, R103, R413: replacement is
not given). Log entry 7. -/
opaque keepsFree : Nat → Nat → Bool

/-- As keepsFree; in clock 0, the first after reset, nothing that has been filled is gone yet. -/
def keeps (clock key : Nat) : Bool := clock = 0 || keepsFree clock key

/-- Whether the wait table of a slice that holds a number of watches has no free entry (R223: its size is not given). Log entry
81. -/
opaque waitFull : Nat → Nat → Bool

/-- The bank and row of its stack (bank + 64 · row) in which a line of local HBM lies (R441: not given). Log entry 62. -/
opaque rowOf : Nat → Nat

/-- Where the device-information object of c15 stands in the virtual space, in units of 64 KiB (R60: outside every
object table; its address is not given). Log entry 8. -/
opaque devInfoPage : BitVec 41

end Sys2Proof.Config
end

