-- ==== Sys2Proof/Machine/State.lean ====
section
/-!
DEFINITION. The state of one CML-4096-A package and of what it meets outside (pool homes, host), as plain data; the
reasons a step can stop; and State.reset. A core of the package that no list names is as Core.reset.
-/

namespace Sys2Proof.Machine

/-- Sparse bytes: addresses strictly rising, no entry 0 (an unlisted byte reads as 0; log entry 6). -/
abbrev Mem := List Host.Cell

/-! ### Small records of the core -/

/-- A capability register that is not null (R93, R409): the binding. dev marks the device-information object. -/
structure Cap where
  dev  : Bool
  ten  : BitVec 16
  obj  : BitVec 16
  gen  : BitVec 32
  off  : Nat
  len  : Nat
  perm : BitVec 5
  deriving DecidableEq, Repr

/-- One entry of LDQ or SDQ (R50, R51): none is reserved and unfilled; fresh marks an entry filled in this clock. -/
structure QEnt where
  val   : Option Word
  fresh : Bool
  id    : Nat
  deriving DecidableEq, Repr

/-- A data queue, oldest entry first, with its ring head (R50). -/
structure DataQ where
  ents : List QEnt
  head : Nat
  deriving DecidableEq, Repr

/-- A branch-outcome queue, oldest first: (value, fresh), with its ring head. -/
structure BitQ where
  ents : List (Bool × Bool)
  head : Nat
  deriving DecidableEq, Repr

/-- One active hardware loop level (R49, R192): trip count, first body word, word after the body. -/
structure LoopLvl where
  count : BitVec 32
  start : BitVec 32
  stop  : BitVec 32
  deriving DecidableEq, Repr

/-- A section begun and not yet retired (R144): its serial, its number, whether the stream has left it. -/
structure SecRec where
  serial : Nat
  num    : BitVec 12
  left   : Bool
  deriving DecidableEq, Repr

/-- What a stream stalled at issue is held on (R52, R371); other covers waits that do not hold. -/
inductive Hold where
  | issuing | ldq | sdq | bq | gate | endIns | defq | other
  deriving DecidableEq, Repr


/-- Page kinds (R96). -/
inductive PageKind where
  | so | rc | uo
  deriving DecidableEq, Repr

/-- One part of an access: key address, length, page kind, virtual address, and POIS of its page (R97, R412). -/
structure Part where
  addr : Nat
  len  : Nat
  kind : PageKind
  va   : Nat
  pois : Bool
  deriving DecidableEq, Repr

/-- The end instruction a stream waits at (R306). JOIN: the address of its word, the tenant of the capability that names it, and
dev, that it lies in the device-information object. -/
inductive EndKind where
  | susp | suspCmb (a : Word) | yield | twheel (a : Word) | join (va : Nat) (ten : Nat) (dev : Bool) | exit
  deriving DecidableEq, Repr

/-- commit: S waits at the REL.commit before that instruction (R215). -/
structure EndWait where
  kind   : EndKind
  tag    : BitVec 7
  commit : Bool
  deriving DecidableEq, Repr

/-- A SLEEP in progress (R198): mode 0 promise, 1 until, 2 for; its operand; the prefix words before it; the clock from which mode
2 counts; the scoreboard slot that it holds until it ends. -/
structure Sleeping where
  mode  : Fin 3
  opnd  : Word
  npfx  : Nat
  since : BitVec 64
  set   : Option (Fin 8)
  deriving DecidableEq, Repr

/-- Trap causes (R366). -/
inductive Cause where
  | illegal | stream | priv | prefx | align | capfault | pagefault | perm | atomscope | promise | logfull | abft
  | poison | ownership | queue | xspill | launch | semovf | trap | preempt | ue | watchdog
  deriving DecidableEq, Repr

/-- A trap raised or pending: what TF0 to TF6 and the suspend record are written from (R370, R371). inHnd: it was raised while HND
was set on its stream (R374, R375). -/
structure Trap where
  cause : Cause
  inHnd : Bool
  word  : BitVec 2
  defd  : Bool
  eng   : Bool
  mtx   : Bool
  tag   : BitVec 16
  info  : BitVec 32
  ipc   : BitVec 32
  data  : Word
  fva   : Word
  aux   : Word
  slp   : Option Word
  srec  : List Word
  fill  : List Nat
  fillQ : List Nat
  seq   : Nat
  deriving DecidableEq, Repr

/-- What HANDLE entry saves beside the frame (R372). clk: the clock of the entry, none in a handler restored from an image. -/
structure Saved where
  rq      : List (Nat × Option Word)
  p       : Vector Bool 8
  lc      : Vector (BitVec 32) 3
  loops   : List LoopLvl
  lbv     : Bool
  begun   : BitVec 12
  retired : BitVec 12
  slp     : Option Sleeping
  ent     : Option Trap
  clk     : Option (BitVec 64)
  deriving DecidableEq, Repr

/-- One sequencer (R44, R49, R53, R144, R370). rq is newest first, each entry under the number rqN gave it when it was allocated,
none while it is unfilled. Bit 0 of p is never read (R45). lbuf: the loop buffer, each word that it holds under its word address
(R49). waitW is the word of a WAITA in progress and whether its watch has
fired. wide, rows and npfx hold the prefix words of the pair being issued, wideAt the place of the PFXI among them (R156). -/
structure Stream where
  n       : Vector Word 16
  p       : Vector Bool 8
  rq      : List (Nat × Option Word)
  rqN     : Nat
  lc      : Vector (BitVec 32) 3
  loops   : List LoopLvl
  lbv     : Bool
  lbuf    : List (BitVec 32 × BitVec 96)
  sb      : Vector (Fin 16) 8
  pc      : BitVec 32
  begun   : BitVec 12
  retired : BitVec 12
  shdr    : BitVec 32
  slen    : BitVec 16
  insec   : Bool
  secs    : List SecRec
  serial  : Nat
  hold    : Hold
  ended   : Option EndWait
  asleep  : Option Sleeping
  waitW   : Option (Nat × Bool)
  parked  : Bool
  pend    : List Trap
  hnd     : Bool
  stopo   : Bool
  tf      : Vector Word 16
  saved   : Option Saved
  astat   : Word
  wide    : Option (BitVec 68)
  wideAt  : Nat
  rows    : Option RowPfx
  npfx    : Nat
  deriving DecidableEq, Repr

/-! ### Logs (R107 to R121) -/

/-- A stamp key (R102). -/
structure Key where
  stamp : BitVec 64
  log   : BitVec 32
  rseq  : BitVec 32
  deriving DecidableEq, Repr

/-- The 16-byte release word (R115). -/
structure RelWord where
  stamp : BitVec 64
  hi    : BitVec 64
  deriving DecidableEq, Repr

/-- A log record (R108): target as a key address (space · 2^64 + physical address). vis is false for a copy record
whose command (tag) has not completed. -/
structure Rec where
  addr : Nat
  data : List Byte
  kind : Fin 4
  ce   : Bool
  tag  : BitVec 16
  vis  : Bool
  rseq : BitVec 32
  deriving DecidableEq, Repr

/-- A billet (R109, R110). first: RSEQ of its first record. area: where it stands in the region's log area (R111). bad: every
copy of it fails its CRC or is poisoned. -/
structure Billet where
  seg       : Nat
  first     : BitVec 32
  area      : Option Nat
  isSealed  : Bool
  lastRel   : Bool
  ftok      : BitVec 32
  stamp     : BitVec 64
  recs      : List Rec
  used      : Nat
  closed    : Bool
  spilled   : Bool
  compacted : Bool
  shipped   : Bool
  replayed  : Bool
  hk        : Fin 4
  pool      : Bool
  bad       : Bool
  deriving DecidableEq, Repr

/-- A log of this package, of a running step or of an ended one with billets still in use (R107). -/
structure LogSt where
  num    : BitVec 32
  tenant : BitVec 16
  region : BitVec 16
  stamp  : BitVec 64
  nrec   : BitVec 32
  bills  : List Billet
  live   : Bool
  budget : Bool
  deriving DecidableEq, Repr

/-! ### Outstanding accesses (R54, R119, R127) -/

/-- Where an outstanding access writes its result. -/
inductive ADst where
  | none | n (k : Fin 16) | pair (lo hi : Option (Fin 16)) | entry (i : Nat) | entries (i j : Nat)
  | ldq (ids : List Nat)
  deriving DecidableEq, Repr

/-- What an outstanding access does when it is performed. own holds the bytes of the step's own log (R113); pois: its page
has POIS set (R412). -/
inductive AccKind where
  | load (size : Nat) (sx : Bool) (elems : List (List Part)) (own : List (Nat × Byte))
  | loadTile (byte : Nat) (parts : List Part) (own : List (Nat × Byte))
  | atom (op : AtKind) (addr : Nat) (pois : Bool) (page : PageKind) (w64 sgn aq : Bool) (a b : Word)
  | redi (op : RedKind) (addr : Nat) (page : PageKind) (w64 sgn : Bool) (a : Word)
  | redf (op : FRedKind) (addr : Nat) (page : PageKind) (a : Word)
  | rel
  | acqFlag (addr : Nat) (pois : Bool)
  | acqWord (w : RelWord)
  | xenq (rick : Nat) (recs : List (List Byte)) (w : RelWord)
  | xstat (rick : Nat) (sel : Fin 8)
  | xkick (rick : Nat)
  | xcmb (addr : Nat) (pois : Bool)
  | spawn (region : BitVec 16) (card : List Byte) (bad : Bool) (w : RelWord)
  | lsync (log : BitVec 32) (upto : BitVec 32)
  | preempt (core : Nat)
  deriving DecidableEq, Repr

/-- A release sealed and not yet complete (R116 to R119): its word, its flag, whether it commits the record. -/
structure RelSt where
  log    : BitVec 32
  word   : RelWord
  pool   : Bool
  flag   : Option Nat
  commit : Bool
  deriving DecidableEq, Repr

/-- An outstanding access of a stream. since: FTIME when it was issued, from which its response timer runs (R428, R434). -/
structure Acc where
  id    : Nat
  strm  : Strm
  sec   : Nat
  slot  : Option (Fin 8)
  dst   : ADst
  pform : Bool
  p7w   : Bool
  ipc   : BitVec 32
  word  : BitVec 2
  hnd   : Bool
  rd    : Bool
  kind  : AccKind
  rel   : Option RelSt
  since : BitVec 64
  deriving DecidableEq, Repr

/-! ### Engines -/

/-- Copy commands (R228). -/
inductive CopyOp where
  | cpy | cpyn | cpyt (cord : Bool) | cgath | cscat | cfill | cred | credc | ccoll | cbget | draft
  deriving DecidableEq, Repr

/-- A range of bytes of a store (space 1 tile register file, 2 weight buffer, 3 accumulator store), read or written: an ownership
window (R65). -/
structure Win where
  space : Nat
  lo    : Nat
  len   : Nat
  wr    : Bool
  deriving DecidableEq, Repr

/-- A copy-engine command (R228 to R240, R404). marks: completed granules above wbase. seen: the step's records before its
beginning; hide: the records before it that were not visible then, of commands that had not completed; pins: bytes as the view had
them when the step's own later record took their place (R131). since: FTIME at its beginning (R428). acc: its place in the order
of acceptance (R368). comp: the block, scale and residuals of a granule compressed and not complete (R236); old: the words of a
granule read and not yet written back (R140). lay: the layout or group records it read (R232, R237). wins: the windows that it
opened (R65, R364). -/
structure CCmd where
  op     : CopyOp
  iw     : BitVec 96
  strm   : Strm
  slot   : Option (Fin 8)
  e      : EHdr
  d      : Vector Word 4
  tag    : BitVec 16
  prom   : Word
  ipc    : BitVec 32
  entry  : Nat
  begun  : Bool
  done   : Bool
  fault  : Option Cause
  fva    : Word
  wbase  : Nat
  marks  : List Nat
  unit   : Nat
  seen   : BitVec 32
  lay    : List Byte
  idx    : Nat
  wins   : List Win
  hide   : List (BitVec 32)
  pins   : List (Nat × Byte)
  since  : BitVec 64
  acc    : Nat
  comp   : List Byte
  old    : List (Nat × Nat)
  deriving DecidableEq, Repr

/-- The status kept of a command that has left the copy engine (R240). -/
structure CStat where
  tag  : BitVec 16
  wb   : Nat
  cnt  : Nat
  deriving DecidableEq, Repr

/-- Matrix-engine commands (R272 to R284). -/
inductive MtxOp where
  | mma (zero : Bool) (ck : Option (Fin 8)) | azero | adrain (ck : Option (Fin 8)) | aload | aacc
  | ckOpen (s : Fin 8) | ckClose (s : Fin 8)
  deriving DecidableEq, Repr

/-- A command held by the matrix engine (R267, R404). acc: its place in the order of acceptance (R368). -/
structure MCmd where
  op    : MtxOp
  iw    : BitVec 96
  slot  : Option (Fin 8)
  e     : EHdr
  d     : Vector Word 4
  ipc   : BitVec 32
  seq   : BitVec 32
  begun : Bool
  fault : Option Cause
  kp    : Nat
  own   : Bool
  acc   : Nat
  deriving DecidableEq, Repr

/-- An open checksum slot (R284): region word and hidden values as bit patterns. -/
structure CkSlot where
  reg   : Word
  csCol : List (BitVec 32)
  abCol : List (BitVec 32)
  csRow : List (BitVec 32)
  abRow : List (BitVec 32)
  deriving DecidableEq, Repr

structure MtxSt where
  q      : List MCmd
  slots  : List (Fin 8 × CkSlot)
  seq    : BitVec 32
  cmpl   : BitVec 32
  deriving DecidableEq, Repr

/-- An engine fault-queue record (R414). -/
structure FqRec where
  cause  : Cause
  mtx    : Bool
  tag    : BitVec 16
  unit   : BitVec 24
  tenant : BitVec 16
  fva    : Word
  deriving DecidableEq, Repr

/-- An entry of the deferral queue (R63): 16 data bytes as a number, and the tag. -/
structure DefEnt where
  data : BitVec 128
  tag  : BitVec 16
  deriving DecidableEq, Repr

/-- A range of CTXLIVE (R315). -/
structure LiveRange where
  acc   : Bool
  first : Nat
  count : Nat
  deriving DecidableEq, Repr

/-- The armed watch of a step (R223): virtual address, key address, comparand, fired. -/
structure Watch where
  va    : Nat
  addr  : Nat
  cmp   : Word
  fired : Bool
  deriving DecidableEq, Repr

/-- The firing bound to a continuation (R295, R302). batch: each record's bytes and its poisoned 8-byte words (R437). -/
structure Firing where
  rick    : Nat
  n       : Nat
  fired   : Nat
  slot    : Nat
  batch   : List (List Byte × List Nat)
  words   : List RelWord
  retired : Bool
  framed  : Bool
  deriving DecidableEq, Repr

/-! ### Continuations and steps (R28 to R41) -/

/-- STATE of a continuation record (R28). -/
inductive CState where
  | free | ready | running | suspended | done | faulted | parked
  deriving DecidableEq, Repr

/-- What a copy command of a pre-empted step keeps beside its record, which has no field for it (R404, log entry 103): the place
of its result entry among the unfilled ones of its stream, and what it sees of its step's records (R131). -/
structure HeldCopy where
  tag  : BitVec 16
  ent  : Nat
  seen : BitVec 32
  hide : List (BitVec 32)
  pins : List (Nat × Byte)
  deriving DecidableEq, Repr

/-- What the package keeps of a pre-empted step: the fault domain and the slices sampled at its dispatch (R21), and of its copy
commands. -/
structure Held where
  fdom   : BitVec 16
  sgrant : Nat
  copies : List HeldCopy
  deriving DecidableEq, Repr

/-- A continuation as this package's scheduling state keeps it (R28, R30). local says that its record lies in this package's HBM,
at key address pa. relw is the release that ended its last step (R122). raised: re-created by a reassigning agent (R41). imgKib:
what its context image is charged; frmKib: what restoring its frame asks for (R387). readyCk is the clock at which it became ready
(R390). capten: the function's tenant, in which a host launch's capabilities are bound (R388). held: of a pre-empted step. -/
structure Cont where
  va      : Nat
  pa      : Nat
  isLocal : Bool
  tenant  : BitVec 16
  state   : CState
  prio    : Fin 8
  region  : BitVec 16
  depth   : Fin 16
  first   : Bool
  rollb   : Bool
  affv    : Bool
  afftag  : BitVec 16
  codecap : BitVec 16
  argidx  : BitVec 48
  pcl     : BitVec 32
  pcc     : BitVec 32
  pcs     : BitVec 32
  secl    : BitVec 12
  secdc   : BitVec 10
  secds   : BitVec 10
  frame   : BitVec 57
  wkind   : BitVec 8
  wopnd   : BitVec 56
  okind   : Bool
  origin  : BitVec 64
  stepseq : BitVec 32
  ftoken  : BitVec 32
  card    : List Byte
  xyz     : List Nat
  readyAt : BitVec 64
  readyCk : BitVec 64
  relw    : Option RelWord
  joinw   : Option RelWord
  firing  : Option Firing
  cmbWake : Bool
  raised  : Bool
  imgKib  : Nat
  frmKib  : Nat
  job     : Option (BitVec 16 × Nat)
  capten  : Option (BitVec 16)
  held    : Option Held := none
  deriving DecidableEq, Repr

/-- What the dispatcher sampled from the region's block when it dispatched a step (R21, R363, R386, R402). -/
structure Sampled where
  seed   : Word
  displo : Word
  disphi : Word
  hndlc  : Word
  hndls  : BitVec 32
  wdlim  : BitVec 32
  sgrant : Nat
  deriving DecidableEq, Repr

/-- The running (or stopped) step of a core. -/
structure StepCtx where
  va      : Nat
  base    : Cont
  tenant  : BitVec 16
  region  : BitVec 16
  fdom    : BitVec 16
  smp     : Sampled
  log     : BitVec 32
  ftok    : BitVec 32
  seq     : BitVec 32
  depth   : Fin 16
  lrel    : RelWord
  lrstat  : BitVec 4
  hzn     : List (BitVec 32 × BitVec 16)
  hcst    : Option (BitVec 64)
  watch   : Option Watch
  decl    : List LiveRange
  declB   : Bool
  firing  : Option Firing
  ntag    : BitVec 16
  accKib  : Nat
  elapNs  : Nat
  wdRaised : Bool
  written : Bool
  heldTr  : List Trap
  deriving DecidableEq, Repr

/-- Whether a core runs (R384, R399, R439). -/
inductive CorePhase where
  | idle | running | stopping | stopped | drained | halted
  deriving DecidableEq, Repr

/-- A translation held by a TLB (R413). level: 1 4 KiB, 2 2 MiB, 3 1 GiB. -/
structure TlbEnt where
  tenant : BitVec 16
  vpn    : Nat
  level  : Nat
  pte    : BitVec 128
  deriving DecidableEq, Repr

/-- A cached object-table entry (R409). -/
structure CapEnt where
  tenant : BitVec 16
  obj    : BitVec 16
  gen    : BitVec 32
  entry  : BitVec 256
  deriving DecidableEq, Repr

/-- A trap that ends the step when the clock is over (R369): its stream, ROLLBACK or FAULT, double or not. -/
structure Ending where
  strm  : Strm
  trap  : Trap
  fault : Bool
  dbl   : Bool
  deriving DecidableEq, Repr

/-- A request to stop a core (R382, R400): the asking core and stream; code: none until the clock in which it arrives is over, then
none when it is accepted and the code of its refusal otherwise. -/
structure Ask where
  by_  : Nat
  strm : Strm
  code : Option (Option Nat)
  deriving DecidableEq, Repr

/-- One core or die control core (R5, R42 to R66, R363). shS and mregS are what stream S reads of sh and mreg: their values
at the start of the clock (R264). ending: the traps of this clock that end its step. asked: the request to stop it (R382). -/
structure Core where
  phase   : CorePhase
  l       : Stream
  c       : Stream
  s       : Stream
  ldq     : DataQ
  sdq     : DataQ
  bq      : Vector BitQ 6
  accs    : List Acc
  nextId  : Nat
  sh      : Vector (BitVec 32) 4
  mreg    : Vector (BitVec 1024) 16
  shS     : Vector (BitVec 32) 4
  mregS   : Vector (BitVec 1024) 16
  tile    : Mem
  wb      : Mem
  accs32  : Mem
  caps    : Vector (Option Cap) 16
  smap    : List (Nat × Nat)
  sems    : List (Nat × Nat)
  defq    : List DefEnt
  mtx     : MtxSt
  copy    : List CCmd
  cstat   : List CStat
  fq      : List FqRec
  ctx     : Option StepCtx
  chk     : Bool
  seed    : Word
  abftTol : BitVec 32
  abftCnt : BitVec 32
  accinj  : BitVec 25
  displo  : Word
  disphi  : Word
  hndlc   : Word
  hndls   : BitVec 32
  wdlim   : BitVec 32
  evpend  : BitVec 6
  evmask  : BitVec 6
  svec    : BitVec 32
  wbTag   : Option (BitVec 16)
  lastTen : Option (BitVec 16)
  idleAt  : BitVec 64
  l1      : List (Nat × List Byte)
  icache  : List (Nat × List Byte)
  tlb     : List TlbEnt
  ccache  : List CapEnt
  heldClk : Nat
  issued  : Bool
  asked   : Option Ask
  ending  : List Ending
  deriving DecidableEq, Repr

/-! ### Package-wide records -/

/-- One ash record (R443) as its 64 bytes. -/
structure AshRing where
  recs    : List (List Byte)
  widx    : Nat
  frozen  : Bool
  dropped : Nat
  deriving DecidableEq, Repr

/-- Die state (R363, R392, R444, R446). mhz, mv: the island's frequency and voltage; want: what the collier has set while the die
is not hot; haltClk: clocks of the stop of issue still to come. -/
structure Die where
  drbase  : Word
  drsize  : BitVec 17
  drhead  : BitVec 32
  drtail  : BitVec 32
  tlb     : List TlbEnt
  mhz     : Nat
  want    : Nat
  mv      : Nat
  haltClk : Nat
  temp    : Nat
  hot     : Bool
  deriving DecidableEq, Repr

/-- A draft entry's work in the memory controllers (R126, R238). since: FTIME when it was written, from which the timer of its
requests runs (R428). -/
structure DraftJob where
  die    : Nat
  idx    : BitVec 32
  core   : Nat
  tag    : BitVec 16
  slices : List Nat
  since  : BitVec 64
  deriving DecidableEq, Repr

/-- Power state of a core group (R392, R445). -/
inductive GroupPhase where
  | awake | gated | waking (at_ : BitVec 64)
  deriving DecidableEq, Repr

/-- A record held by a rick with its hidden values (R292, R293): FTIME and clock of its arrival, its release word; pois: its 8-byte
words that are poisoned (R437). -/
structure Token where
  bytes   : List Byte
  arrival : BitVec 64
  clock   : BitVec 64
  word    : RelWord
  pois    : List Nat
  deriving DecidableEq, Repr

/-- A rick's own state (R293 to R301). recs: the records on the die, at most 512. spill: the hidden values of those in the spill
ring, whose bytes stand in local HBM at rbase, a ring of rlen records, from place ring on (R293, R396). lost: spilled records
lost. -/
structure Rick where
  recs   : List Token
  enq    : BitVec 32
  taken  : BitVec 32
  fired  : BitVec 32
  inflt  : Nat
  kicked : Bool
  slots  : List Nat
  spill  : List Token
  ring   : Nat
  rbase  : Nat
  rlen   : Nat
  lost   : Nat
  deriving DecidableEq, Repr

/-- A lease page this package holds (R104, R106). used: a line of it was accessed in the current term; lapse: it was not renewed at
grant + 2 ms and runs out. -/
structure Lease where
  page  : Nat
  grant : BitVec 64
  used  : Bool
  lapse : Bool
  deriving DecidableEq, Repr

/-- A lease as a home keeps it (R104): page, holder's pod position, grant stamp. -/
structure HomeLease where
  page  : Nat
  pos   : Nat
  grant : BitVec 64
  deriving DecidableEq, Repr

/-- A job card in a pending-launch slot (R36, R37): its tenant, the (log, tail) of each group's final release, its
completion release once made, the error code of its completion word; host: launched by the host (R388); left: the groups of the
current chunk that wait for a free record (R27). -/
structure Job where
  region : Nat
  slot   : Nat
  tenant : BitVec 16
  hzn    : List (BitVec 32 × BitVec 16)
  hcst   : Option (BitVec 64)
  rel    : Option RelWord
  ecode  : Nat
  host   : Bool
  left   : Nat
  deriving DecidableEq, Repr

/-- A timer-wheel entry (R39, R398): store index, record, deadline, in its slot. -/
structure WheelEnt where
  idx   : Nat
  crec  : Nat
  due   : BitVec 64
  slot  : Bool
  deriving DecidableEq, Repr

/-- A watch of a slice's wait table (R223): by core and stream when L waits, by record when a continuation does. -/
structure WaitEnt where
  addr : Nat
  cmp  : Word
  crec : Option Nat
  core : Nat
  deriving DecidableEq, Repr

/-- A transaction that waits for a port's egress (R424): region, node, bytes. -/
structure Egress where
  region : Nat
  node   : Nat
  bytes  : List Byte
  deriving DecidableEq, Repr

/-- A data flit kept for replay (R419): its number, its 256 bytes, the nodes whose transactions it carries (R424). -/
structure SentFlit where
  seq   : BitVec 12
  bytes : List Byte
  nodes : List Nat
  deriving DecidableEq, Repr

/-- A port: link state (R418 to R421) and laser registers (R435). active, bad: maps of 10 wavelengths. disc: flits are discarded
until the expected one comes. line: bytes chosen for the next flits, each with its node. deficit: bytes that a region may still
send; lanes: the bytes that the last flit sent gave each wavelength. rxData: the payloads delivered to the transaction layer,
oldest first. owed: receive credits still to return. -/
structure Port where
  txSeq    : BitVec 12
  rxSeq    : BitVec 12
  disc     : Bool
  egress   : List Egress
  line     : List (Nat × Byte)
  deficit  : List (Nat × Nat)
  lanes    : List (Nat × List Byte)
  owed     : Nat
  unacked  : List SentFlit
  resent   : List (BitVec 12)
  fails    : Nat
  txFails  : Nat
  credits  : Nat
  sinceAck : Nat
  rxData   : List (List Byte)
  nakSent  : Nat
  active   : BitVec 10
  bad      : BitVec 10
  state    : Fin 4
  bias     : BitVec 24
  hours    : BitVec 32
  history  : List (Nat × BitVec 24)
  drift    : BitVec 32
  eol      : BitVec 32
  biasmax  : BitVec 24
  degth    : BitVec 32
  csym     : List (BitVec 32)
  ucw      : List (BitVec 16)
  deriving DecidableEq, Repr

/-- State of a pool node or peer in the route table (R428). -/
inductive NodeState where
  | up | unresponsive | dead
  deriving DecidableEq, Repr

/-- The outcome a home keeps of a sequence (R423). -/
structure Outc where
  src    : Nat
  node   : Nat
  tseq   : Nat
  status : Nat
  data   : List Byte
  deriving DecidableEq, Repr

/-- What a home has taken and not yet carried out: a billet, a commit, a store in place or a lost completion word that waits for the
recall of leases (R105), and a token raise that waits for billets and commits (R119, R427). -/
inductive Accepted where
  | ship (t : Txn) (body : List Byte)
  | commit (t : Txn) (bodies : List (List Byte))
  | write (t : Txn) (data : List Byte)
  | lost (space : Fin 2) (addr : Nat)
  | raise (t : Txn) (lost target : Nat)
  deriving DecidableEq, Repr

/-- A release of which a log home has applied some billets and not yet the last: its record, log and stamp, and FTIME at its last
arrival (R119). -/
structure OpenRel where
  pa    : Nat
  log   : BitVec 32
  stamp : BitVec 64
  since : BitVec 64
  deriving DecidableEq, Repr

/-- A function's register page (R429). -/
structure HostFn where
  lrbase  : Word
  lrsize  : BitVec 13
  lrtail  : BitVec 32
  lrhead  : BitVec 32
  fmbase  : Word
  fmsize  : BitVec 13
  fmhead  : BitVec 32
  fmtail  : BitVec 32
  fmlost  : BitVec 32
  tenroot : BitVec 16
  msix    : Nat
  deriving DecidableEq, Repr

/-- The participants of a collective that have arrived (R237). -/
structure CollPart where
  rank : Nat
  kind : Nat
  op   : Nat
  ety  : Nat
  n    : Nat
  data : List Byte
  core : Option (Nat × BitVec 16)
  deriving DecidableEq, Repr

structure Coll where
  group  : Nat
  seq    : Nat
  nrank  : Nat
  parts  : List CollPart
  failed : Option Cause
  deriving DecidableEq, Repr

/-- A row-remap entry (R441) and the line its copy has reached. -/
structure Remap where
  stack : Nat
  idx   : Nat
  word  : BitVec 31
  deriving DecidableEq, Repr

/-- The management registers of the collier that the spec names beyond the port blocks (R424, R428, R441, R444). moves: route
writes that wait for the old port (R424). -/
structure Mgmt where
  respto   : BitVec 32
  cap      : BitVec 32
  rowth    : BitVec 32
  routes   : List (Nat × Nat)
  moves    : List (Nat × Nat)
  epoch    : BitVec 32
  epochs   : List (Nat × Nat)
  remap    : List Remap
  spareBad : List (Nat × BitVec 32)
  other    : List (Nat × BitVec 64)
  deriving DecidableEq, Repr

/-- Where bring-up stands (R439, R447 to R449). -/
inductive BootPhase where
  | reset | tindered | running | dead | fatal
  deriving DecidableEq, Repr

/-- The host link and window (R431 to R434). dirs: (line, exclusive), least recently granted first. -/
structure HostLink where
  up     : Bool
  hwbase : BitVec 10
  hwsize : BitVec 9
  dirs   : List (Nat × Bool)
  resps  : List (Nat × Option (List Byte))
  deriving DecidableEq, Repr

/-- The collier's SPDM responder (R450). vca: the messages of version, capabilities and algorithms; meas: those of measurements
since the last signature. -/
structure Spdm where
  version : Bool
  caps    : Bool
  algs    : Bool
  vca     : List (List Byte)
  meas    : List (List Byte)
  out     : List (List Byte)
  deriving DecidableEq, Repr

/-- What moves next (log entry 1): the rotation L, C, S, one hardware event, the clock. -/
inductive Turn where
  | strm (k : Strm) | hw | tick
  deriving DecidableEq, Repr

/-- A move asked for from outside the rotation: an event, one turn of a stream, a number of clocks; and what the outside does that
the opcode table has no row for: another package acknowledges the recall of a lease page (R105); the fabric manager or the host
reads a register (R16, R424, R429, R435); a doorbell (R364); an error strikes a staging slice's word or a rick's record, or is
corrected (R437); an error that cannot be corrected arises in a line, corrected symbols are read in a row, a scrub period ends
(R440, R441); the supervisor has an image measured (R449) or makes a continuation ready (R30). -/
inductive Move where
  | ev (i : Instr) | strm (core : Nat) (k : Strm) | clocks (n : Nat)
  | recallAck (page pos : Nat)
  | mgmtRead (off : Nat) | hostRead (fn off : Nat) | dvsecRead
  | doorbell (die : Nat) (host : Bool)
  | lineError (line : Nat) | rowError (stack bank row : Nat) | scrubbed | sliceError (addr : Nat)
  | rickError (rick pos word : Nat) | corrected (unit : Nat)
  | makeReady (tenant va : Nat) | measure (img : List Byte)
  deriving DecidableEq, Repr

/-- The whole machine. core is the core in focus, number cid; others holds the rest of those that differ from Core.reset. spois:
poisoned 8-byte words of the staging slices, by address / 8 (R437). commits: the release word of the last commit of each record,
at its home (R122). recalls: lease pages whose recall is in progress at their home (R105); accepted, opens: what the homes hold
back for it. kept: until when draft entries keep pages leased (R126). faulty: lines with an uncorrectable error that nothing has
found yet (R440); rowErrs: corrected errors of each row (R441). fixed: corrected errors counted, by unit (R437). shown: what the
last register read from outside returned. -/
structure State where
  turn    : Turn
  who     : Strm
  agenda  : List Move
  cid     : Nat
  core    : Core
  others  : List (Nat × Core)
  free    : Nat
  cyc     : BitVec 64
  ftime   : BitVec 64
  frac    : Nat
  mem     : Mem
  keys    : List (Nat × Key)
  poisoned : List Nat
  faulty  : List Nat
  rowErrs : List (Nat × Nat)
  view    : Mem
  vkeys   : List (Nat × Key)
  vlines  : List Nat
  slices  : Mem
  spois   : List Nat
  leases  : List Lease
  kept    : List (Nat × BitVec 64)
  hleases : List HomeLease
  recalls : List Nat
  accepted : List Accepted
  opens   : List OpenRel
  logs    : List LogSt
  rlogs   : List LogSt
  commits : List (Nat × RelWord)
  logseq  : Nat
  conts   : List Cont
  seals   : List (BitVec 128 × Cap)
  root    : BitVec 40
  tdir    : BitVec 40
  rot     : BitVec 16
  ricks   : List (Nat × Rick)
  wheel   : List WheelEnt
  waits   : List WaitEnt
  dies    : List (Nat × Die)
  drafts  : List DraftJob
  groups  : List (Nat × GroupPhase)
  islands : List (Nat × Island)
  fixed   : List (Nat × Nat)
  ash     : List (Nat × AshRing)
  ports   : List (Nat × Port)
  nodes   : List (Nat × NodeState)
  holders : List (Nat × Nat)
  outs    : List Outc
  txseq   : List (Nat × Nat)
  answers : List (Nat × List Byte)
  colls   : List Coll
  fns     : List (Nat × HostFn)
  host    : HostLink
  mgmt    : Mgmt
  podpos  : BitVec 10
  devw    : List (Nat × Word)
  boot    : BootPhase
  mslots  : List (Nat × List Byte)
  spdm    : Spdm
  shown   : Option Word
  jobs    : List Job
  deriving DecidableEq, Repr

/-- Why a run stops. -/
inductive Fault where
  /-- Raised by a load, store, fetch, walk or engine granule whose physical address lies in local HBM at or above
  768 GiB, which R95 says does not exist. Safe. -/
  | hbmHole
  deriving DecidableEq, Repr

/-- Why a step has no meaning. -/
inductive Refusal where
  /-- Raised by an arm of exec whose instruction has no meaning in this model yet. Safe. -/
  | notModelled (mnemonic : String)
  deriving DecidableEq, Repr

/-! ### Reset -/

/-- A stream before any step (R44). -/
def Stream.reset : Stream where
  n := Vector.replicate 16 0
  p := Vector.replicate 8 false
  rq := []
  rqN := 0
  lc := Vector.replicate 3 0
  loops := []
  lbv := false
  lbuf := []
  sb := Vector.replicate 8 0
  pc := 0
  begun := 0xFFF
  retired := 0xFFF
  shdr := 0
  slen := 0
  insec := false
  secs := []
  serial := 0
  hold := .issuing
  ended := none
  asleep := none
  waitW := none
  parked := false
  pend := []
  hnd := false
  stopo := false
  tf := Vector.replicate 16 0
  saved := none
  astat := 0
  wide := none
  wideAt := 0
  rows := none
  npfx := 0

/-- A core at package reset: idle, every buffer zero (R445, R447), CSRs at the Reset column of R363. -/
def Core.reset : Core where
  phase := .idle
  l := Stream.reset
  c := Stream.reset
  s := Stream.reset
  ldq := ⟨[], 0⟩
  sdq := ⟨[], 0⟩
  bq := Vector.replicate 6 ⟨[], 0⟩
  accs := []
  nextId := 0
  sh := Vector.replicate 4 0
  mreg := Vector.replicate 16 0
  shS := Vector.replicate 4 0
  mregS := Vector.replicate 16 0
  tile := []
  wb := []
  accs32 := []
  caps := Vector.replicate 16 none
  smap := []
  sems := []
  defq := []
  mtx := ⟨[], [], 0, 0⟩
  copy := []
  cstat := []
  fq := []
  ctx := none
  chk := false
  seed := 0
  abftTol := 0x37800000
  abftCnt := 0
  accinj := 0
  displo := 0
  disphi := 0
  hndlc := 0
  hndls := 0
  wdlim := 0
  evpend := 0
  evmask := 0
  svec := 0
  wbTag := none
  lastTen := none
  idleAt := 0
  l1 := []
  icache := []
  tlb := []
  ccache := []
  heldClk := 0
  issued := false
  asked := none
  ending := []

def Die.reset : Die := ⟨0, 0, 0, 0, [], 1800, 1800, 0, 0, 0, false⟩

def Rick.reset : Rick := ⟨[], 0, 0, 0, 0, false, [], [], 0, 0, 0, 0⟩

def AshRing.reset : AshRing := ⟨[], 0, false, 0⟩

def HostFn.reset : HostFn := ⟨0, 0, 0, 0, 0, 0, 0, 0, 0, 0, 0⟩

def Port.reset : Port where
  txSeq := 0
  rxSeq := 0
  disc := false
  egress := []
  line := []
  deficit := []
  lanes := []
  owed := 0
  unacked := []
  resent := []
  fails := 0
  txFails := 0
  credits := 0
  sinceAck := 0
  rxData := []
  nakSent := 0
  active := 0
  bad := 0
  state := 0
  bias := 0
  hours := 0
  history := []
  drift := 0
  eol := 0xFFFFFFFF
  biasmax := 90000
  degth := 640
  csym := List.replicate 10 0
  ucw := List.replicate 10 0

/-- RESPTO in ns, the power cap in mW and ROWTH at their defaults (R428, R441, R444). -/
def Mgmt.reset : Mgmt := ⟨20000000, 4400000, 16, [], [], 0, [], [], [], []⟩

/-- The package right after a cold reset (R447): the collier is about to run tinder; no core runs. -/
def State.reset : State where
  turn := .strm .l
  who := .l
  agenda := []
  cid := 0
  core := Core.reset
  others := []
  free := 0
  cyc := 0
  ftime := 0
  frac := 0
  mem := []
  keys := []
  poisoned := []
  faulty := []
  rowErrs := []
  view := []
  vkeys := []
  vlines := []
  slices := []
  spois := []
  leases := []
  kept := []
  hleases := []
  recalls := []
  accepted := []
  opens := []
  logs := []
  rlogs := []
  commits := []
  logseq := 0
  conts := []
  seals := []
  root := 0
  tdir := 0
  rot := 0
  ricks := []
  wheel := []
  waits := []
  dies := []
  drafts := []
  groups := []
  islands := []
  fixed := []
  ash := []
  ports := []
  nodes := []
  holders := []
  outs := []
  txseq := []
  answers := []
  colls := []
  fns := []
  host := ⟨false, 0, 0, [], []⟩
  mgmt := Mgmt.reset
  podpos := 0
  devw := []
  boot := .reset
  mslots := (List.range 16).map fun i => (i, List.replicate 32 0)
  spdm := ⟨false, false, false, [], [], []⟩
  shown := none
  jobs := []

end Sys2Proof.Machine
end

