-- ==== Sys2Proof/Machine/Regs.lean ====
section
/-!
DEFINITION. Reading and writing the registers of a core: streams, result queues, data queues, branch-outcome queues,
tiles, semaphores; the core in focus and the others (R42 to R66).
-/

namespace Sys2Proof.Machine

/-! ### Cores and streams -/

def Core.strm (c : Core) : Strm → Stream
  | .l => c.l
  | .c => c.c
  | .s => c.s

def Core.setStrm (c : Core) (k : Strm) (x : Stream) : Core :=
  match k with
  | .l => { c with l := x }
  | .c => { c with c := x }
  | .s => { c with s := x }

def Core.mapStrms (c : Core) (f : Stream → Stream) : Core := { c with l := f c.l, c := f c.c, s := f c.s }

/-- The stream whose instruction issues. -/
def State.cur (s : State) : Stream := s.core.strm s.who

def State.setCur (s : State) (x : Stream) : State := { s with core := s.core.setStrm s.who x }

def State.mapCur (s : State) (f : Stream → Stream) : State := s.setCur (f s.cur)

def State.setCore (s : State) (c : Core) : State := { s with core := c }

def State.coreAt (s : State) (n : Nat) : Core := if n = s.cid then s.core else lookupD s.others n Core.reset

def State.putCore (s : State) (n : Nat) (c : Core) : State :=
  if n = s.cid then { s with core := c } else { s with others := insertAt s.others n c }

/-- Bring a core into focus. -/
def State.focus (s : State) (n : Nat) : State :=
  if n = s.cid then s
  else { s with cid := n, core := s.coreAt n, others := insertAt (removeAt s.others n) s.cid s.core }

/-- Every core that a list names, the one in focus included. -/
def State.known (s : State) : List Nat := s.cid :: s.others.map (·.1)

/-- Apply a function to every known core. -/
def State.mapCores (s : State) (f : Core → Core) : State :=
  { s with core := f s.core, others := s.others.map fun e => (e.1, f e.2) }

/-- Die control cores are numbered from 0x1000 (R201). -/
def isDcc (n : Nat) : Bool := decide (0x1000 ≤ n)

def dieOf (n : Nat) : Nat := if isDcc n then n - 0x1000 else n / 256

def State.die (s : State) (d : Nat) : Die := lookupD s.dies d Die.reset

def State.setDie (s : State) (d : Nat) (x : Die) : State := { s with dies := insertAt s.dies d x }

/-- The next free number: every use of a free value takes a fresh one (log entry 2). -/
def State.fresh (s : State) : BitVec 64 × State := (Config.freeValue s.free, { s with free := s.free + 1 })

/-! ### Scalars and predicates -/

def Stream.pred (x : Stream) (k : Fin 8) : Bool := k = 0 || x.p[k]

/-- A write to p0 is discarded (R45). -/
def Stream.setPred (x : Stream) (k : Fin 8) (b : Bool) : Stream := if k = 0 then x else { x with p := x.p.set k b }

def Stream.setN (x : Stream) (k : Fin 16) (v : Word) : Stream := { x with n := x.n.set k v }

/-- Will this destination still write n k? -/
def ADst.writes (d : ADst) (k : Fin 16) : Bool :=
  match d with
  | .n j => j = k
  | .pair lo hi => lo = some k || hi = some k
  | _ => false

/-- The destination without n k: a later write of the stream has taken its place (R43). -/
def ADst.without (d : ADst) (k : Fin 16) : ADst :=
  match d with
  | .n j => if j = k then .none else .n j
  | .pair lo hi => .pair (if lo = some k then Option.none else lo) (if hi = some k then Option.none else hi)
  | d => d

/-- Is the value of n k final (R43)? -/
def Core.nFinal (c : Core) (who : Strm) (k : Fin 16) : Bool :=
  c.accs.all fun a => !(a.strm = who && a.dst.writes k)

/-- Is the value of a predicate final? Only p7 is written by an access that is still outstanding (R205). -/
def Core.pFinal (c : Core) (who : Strm) (k : Fin 8) : Bool :=
  k != 7 || c.accs.all fun (a : Acc) => !(a.strm = who && a.p7w)

/-- Write n k: an older outstanding write to it no longer counts (R43). -/
def State.putN (s : State) (k : Fin 16) (v : Word) : State :=
  let c := s.core
  let c := { c with accs := c.accs.map fun (a : Acc) => if a.strm = s.who then { a with dst := a.dst.without k } else a }
  { s with core := c.setStrm s.who ((c.strm s.who).setN k v) }

/-- Write a predicate of the issuing stream, likewise. -/
def State.putPred (s : State) (k : Fin 8) (b : Bool) : State :=
  let c := s.core
  let c := if k = 7 then { c with accs := c.accs.map fun (a : Acc) => if a.strm = s.who then { a with p7w := false } else a }
    else c
  { s with core := c.setStrm s.who ((c.strm s.who).setPred k b) }

/-! ### The result queue (R46, R47) -/

/-- The entry allocated k allocations ago; one never allocated reads zero. -/
def Stream.entry (x : Stream) (k : Nat) : Option Word := (x.rq.getD k (0, some 0)).2

/-- Allocate one entry; the sixteenth oldest is pushed out. -/
def Stream.alloc (x : Stream) (v : Option Word) : Stream :=
  { x with rq := ((x.rqN, v) :: x.rq).take 16, rqN := x.rqN + 1 }

/-- Do n allocations push out filled entries only (R47)? -/
def Stream.canAlloc (x : Stream) (n : Nat) : Bool := (x.rq.drop (16 - n)).all fun e => e.2.isSome

def fillIn (l : List (Nat × Option Word)) (i : Nat) (v : Word) : List (Nat × Option Word) :=
  l.map fun e => if e.1 = i then (i, some v) else e

/-- Fill the entry with a number, in the queue or in what a handler saved (R46, R372). -/
def Stream.fill (x : Stream) (i : Nat) (v : Word) : Stream :=
  { x with rq := fillIn x.rq i v, saved := x.saved.map fun z => { z with rq := fillIn z.rq i v } }

/-- n entries filled with zero: the allocations of a predicated-false instruction (R48). -/
def Stream.allocZeros (x : Stream) : Nat → Stream
  | 0 => x
  | n + 1 => (x.alloc (some 0)).allocZeros n

/-! ### Data queues (R50, R51) -/

/-- Entries at the head that are filled and poppable. -/
def DataQ.poppable (q : DataQ) : List Word :=
  (q.ents.takeWhile fun e => e.val.isSome && !e.fresh).map fun e => e.val.getD 0

def DataQ.pop (q : DataQ) : DataQ := { ents := q.ents.tail, head := (q.head + 1) % 32 }

def DataQ.room (q : DataQ) (n : Nat) : Bool := decide (q.ents.length + n ≤ 32)

def DataQ.push (q : DataQ) (e : QEnt) : DataQ := { q with ents := q.ents ++ [e] }

def DataQ.fill (q : DataQ) (id : Nat) (v : Word) : DataQ :=
  { q with ents := q.ents.map fun e => if e.id = id && e.val.isNone then { e with val := some v, fresh := true } else e }

/-- The data queue a stream pops by selector 0x20: LDQ in C, SDQ in S (R155). -/
def Core.popQ (c : Core) : Strm → DataQ
  | .c => c.ldq
  | .s => c.sdq
  | .l => ⟨[], 0⟩

def Core.setPopQ (c : Core) (k : Strm) (q : DataQ) : Core :=
  match k with
  | .c => { c with ldq := q }
  | .s => { c with sdq := q }
  | .l => c

/-- The data queue a stream pushes: LDQ in L, SDQ in C. -/
def Core.pushQ (c : Core) : Strm → DataQ
  | .l => c.ldq
  | .c => c.sdq
  | .s => ⟨[], 0⟩

def Core.setPushQ (c : Core) (k : Strm) (q : DataQ) : Core :=
  match k with
  | .l => { c with ldq := q }
  | .c => { c with sdq := q }
  | .s => c

/-! ### Branch-outcome queues (R50, R142) -/

end Sys2Proof.Machine

namespace Sys2Proof

open Machine

/-- The other streams in the order of R142. -/
def Strm.first : Strm → Strm
  | .l => .c
  | .c => .l
  | .s => .l

def Strm.second : Strm → Strm
  | .l => .s
  | .c => .s
  | .s => .c

end Sys2Proof

namespace Sys2Proof.Machine

/-- The number of the branch-outcome queue from one stream to another: lc, ls, cl, cs, sl, sc. -/
def bqNum : Strm → Strm → Fin 6
  | .l, .s => 1
  | .l, _ => 0
  | .c, .s => 3
  | .c, _ => 2
  | .s, .c => 5
  | .s, _ => 4

def BitQ.head? (q : BitQ) : Option Bool :=
  match q.ents with
  | (v, false) :: _ => some v
  | _ => none

def BitQ.pop (q : BitQ) : BitQ := { ents := q.ents.tail, head := (q.head + 1) % 16 }

def BitQ.push (q : BitQ) (b : Bool) : BitQ := { q with ents := q.ents ++ [(b, true)] }

def Core.setBq (c : Core) (k : Fin 6) (q : BitQ) : Core := { c with bq := c.bq.set k q }

/-! ### Semaphores (R62, R395) -/

/-- The physical semaphore of a virtual one: the identity unless SEMMAP changed it. -/
def Core.semPhys (c : Core) (v : BitVec 8) : Nat := lookupD c.smap v.toNat v.toNat

def Core.sem (c : Core) (v : BitVec 8) : Nat := lookupD c.sems (c.semPhys v) 0

def Core.setSem (c : Core) (v : BitVec 8) (n : Nat) : Core := { c with sems := insertAt c.sems (c.semPhys v) n }

/-- Add to a count: the new core, and whether the count would have passed 65,535, where it then stays (R62). -/
def Core.addSem (c : Core) (v : BitVec 8) (n : Nat) : Core × Bool :=
  if c.sem v + n ≤ 65535 then (c.setSem v (c.sem v + n), false) else (c.setSem v 65535, true)

/-! ### Scoreboard (R53) -/

def Stream.sbWaits (x : Stream) (mask : BitVec 8) : Bool :=
  (List.finRange 8).any fun k => mask.getLsbD k && x.sb[k] != 0

def Stream.sbSet (x : Stream) (k : Fin 8) : Stream := { x with sb := x.sb.set k (x.sb[k] + 1) }

def Stream.sbClear (x : Stream) (k : Fin 8) : Stream := { x with sb := x.sb.set k (x.sb[k] - 1) }

def Stream.sbSet? (x : Stream) : Option (Fin 8) → Stream
  | some k => x.sbSet k
  | none => x

def Stream.sbClear? (x : Stream) : Option (Fin 8) → Stream
  | some k => x.sbClear k
  | none => x

/-! ### Masks -/

/-- m0 reads as all ones (R57). -/
def Core.mask (c : Core) (k : Fin 16) : BitVec 1024 := if k = 0 then BitVec.allOnes 1024 else c.mreg[k]

def Core.setMask (c : Core) (k : Fin 16) (v : BitVec 1024) : Core :=
  if k = 0 then c else { c with mreg := c.mreg.set k v }

/-! ### Sources and destinations (R155) -/

/-- IMM32 as selector 0x22 reads it: sign-extended, or widened by a PFXI (R158). -/
def State.immVal (s : State) (imm : BitVec 32) : Word :=
  match s.cur.wide with
  | some p => (p.extractLsb' 0 32 : BitVec 32) ++ imm
  | none => imm.signExtend 64

/-- The value of a source. A queue source reads the head; State.popSrc then removes it. -/
def State.srcVal (s : State) (imm : Word) : Src → Word
  | .n k => s.cur.n[k]
  | .t k => (s.cur.entry k).getD 0
  | .q => (s.core.popQ s.who).poppable.headD 0
  | .zero => 0
  | .imm => imm
  | .small v => v.signExtend 64

def State.popSrc (s : State) : Src → State
  | .q => { s with core := s.core.setPopQ s.who (s.core.popQ s.who).pop }
  | _ => s

end Sys2Proof.Machine

namespace Sys2Proof

open Machine

def OReg.src : OReg → Src
  | .n k => .n k
  | .t k => .t k
  | .q => .q
  | .zero => .zero

end Sys2Proof

namespace Sys2Proof.Machine

/-- Is a source final (R43, R46)? Queue entries are counted by State.popsReady. -/
def State.srcFinal (s : State) : Src → Bool
  | .n k => s.core.nFinal s.who k
  | .t k => (s.cur.entry k).isSome
  | _ => true

/-- Are there as many poppable entries as the sources pop (R51)? -/
def State.popsReady (s : State) (srcs : List Src) : Bool :=
  decide ((srcs.filter (· = .q)).length ≤ (s.core.popQ s.who).poppable.length)

/-- Write a destination now: a queue entry is filled at once and poppable in the next clock (R51). -/
def State.putDst (s : State) (d : Dst) (v : Word) : State :=
  match d with
  | .n k => s.putN k v
  | .t => s.setCur (s.cur.alloc (some v))
  | .q => { s with core := s.core.setPushQ s.who ((s.core.pushQ s.who).push ⟨some v, true, s.core.nextId⟩) }
  | .discard => s

/-- Take a destination whose value comes later: what the access will write. -/
def State.reserveDst (s : State) (d : Dst) : ADst × State :=
  match d with
  | .n k =>
    (.n k, { s with core := { s.core with accs := s.core.accs.map fun (a : Acc) =>
      if a.strm = s.who then { a with dst := a.dst.without k } else a } })
  | .t => (.entry s.cur.rqN, s.setCur (s.cur.alloc none))
  | .q =>
    let id := s.core.nextId
    (.ldq [id], { s with core := { s.core.setPushQ s.who ((s.core.pushQ s.who).push ⟨none, false, id⟩) with nextId := id + 1 } })
  | .discard => (.none, s)

end Sys2Proof.Machine

namespace Sys2Proof

open Machine

/-- Result entries a destination allocates. -/
def Dst.allocs : Dst → Nat
  | .t => 1
  | _ => 0

end Sys2Proof

namespace Sys2Proof.Machine

end Sys2Proof.Machine
end

