-- ==== Sys2Proof/Machine/Rows.lean ====
section
/-!
DEFINITION. The row remap CAM of each HBM stack and the beginning of a row's sparing (R441).
-/

namespace Sys2Proof.Machine

def remapBank (w : BitVec 31) : Nat := bitsOf w.toNat 0 6
def remapRow (w : BitVec 31) : Nat := bitsOf w.toNat 6 18
def remapSpare (w : BitVec 31) : Nat := bitsOf w.toNat 24 5
def remapUsed (w : BitVec 31) : Bool := bitOf w.toNat 29 || bitOf w.toNat 30

/-- An entry with CPY 1 and V 0, of a copy in progress. -/
def remapCopying (bank row spare : Nat) : BitVec 31 := BitVec.ofNat 31 (bank + row * 2 ^ 6 + spare * 2 ^ 24 + 2 ^ 30)

/-- An entry with V 1 and CPY 0, of a copy that is complete. -/
def remapWord (bank row spare : Nat) : BitVec 31 := BitVec.ofNat 31 (bank + row * 2 ^ 6 + spare * 2 ^ 24 + 2 ^ 29)

def State.setRemap (s : State) (stack idx : Nat) (w : BitVec 31) : State :=
  { s with mgmt := { s.mgmt with
      remap := ⟨stack, idx, w⟩ :: s.mgmt.remap.filter fun e => !(e.stack = stack && e.idx = idx) } }

/-- Key of a bank's spare bad map. -/
def bankKey (stack bank : Nat) : Nat := stack * 64 + bank

def State.spareBadMap (s : State) (stack bank : Nat) : BitVec 32 := lookupD s.mgmt.spareBad (bankKey stack bank) 0

def State.markSpare (s : State) (stack bank k : Nat) : State :=
  { s with mgmt := { s.mgmt with
      spareBad := insertAt s.mgmt.spareBad (bankKey stack bank) (s.spareBadMap stack bank ||| (1 <<< k)) } }

def State.spareInUse (s : State) (stack bank k : Nat) : Bool :=
  s.mgmt.remap.any fun e => e.stack = stack && remapUsed e.word && remapBank e.word = bank && remapSpare e.word = k

/-- The lowest usable spare of a bank. -/
def State.nextSpare (s : State) (stack bank : Nat) : Option Nat :=
  (List.range 32).find? fun k => !(s.spareBadMap stack bank).getLsbD k && !s.spareInUse stack bank k

/-- A free entry of a stack's CAM. -/
def State.freeRemap (s : State) (stack : Nat) : Option Nat :=
  (List.range 1024).find? fun i => s.mgmt.remap.all fun e => !(e.stack = stack && e.idx = i && remapUsed e.word)

/-- Is an entry of the CAM that of a row, in use? -/
def Remap.ofRow (e : Remap) (stack bank row : Nat) : Bool :=
  e.stack = stack && remapUsed e.word && remapBank e.word = bank && remapRow e.word = row

/-- The entry of a row in a stack's CAM. -/
def State.remapOf (s : State) (stack bank row : Nat) : Option Remap := s.mgmt.remap.find? fun e => e.ofRow stack bank row

/-- A row's sparing begins: an entry with the lowest usable spare, CPY 1 and V 0. Nothing begins when the row has its entry
already; without a usable spare or a free entry ROW_SPARING retires the row. -/
def State.beginSparing (s : State) (stack bank row : Nat) : State :=
  match s.remapOf stack bank row, s.nextSpare stack bank, s.freeRemap stack with
  | none, some k, some i => s.setRemap stack i (remapCopying bank row k)
  | _, _, _ => s

end Sys2Proof.Machine
end

