-- ==== Sys2Proof/Machine/Phys.lean ====
section
/-!
DEFINITION. Physical spaces, watches, ash records, poison, host copies of lines, page tables, TLBs, object tables and capability-relative
addresses (R93 to R97, R223, R407 to R413, R433, R443).
-/

namespace Sys2Proof.Machine

/-! ### Spaces (R95): one key address per byte of memory, space · 2^64 + physical address -/

def keyOf (space pa : Nat) : Nat := space * 2 ^ 64 + pa

def spaceOf (k : Nat) : Nat := k / 2 ^ 64

def paOf (k : Nat) : Nat := k % 2 ^ 64

/-- Bytes of local HBM: 768 GiB (R6, R95). -/
def hbmBytes : Nat := 768 * 2 ^ 30

/-- Space 4 stands for the device-information object of c15. -/
def devInfoSpace : Nat := 4

def poolNode (k : Nat) : Nat := paOf k / 2 ^ 52

def State.nodeUp (s : State) (n : Nat) : Bool := decide (lookupD s.nodes n .up = NodeState.up)

/-- The home slice of a local HBM address: die and slice (R100). -/
def homeDie (pa : Nat) : Nat := bitsOf pa 8 4

/-! ### Watches (R223) -/

/-- Take out of the wait tables every watch whose word now differs from its comparand, and tell its waiter. -/
def State.fireWatches (s : State) : State :=
  let fired := s.waits.filter fun w => BitVec.ofNat 64 (s.mem.nat w.addr 8) != w.cmp
  if fired.isEmpty then s
  else
    let s := { s with waits := s.waits.filter fun w => BitVec.ofNat 64 (s.mem.nat w.addr 8) = w.cmp }
    fired.foldl (fun s w =>
      match w.crec with
      | some _ => s
      | none =>
        let c := s.coreAt w.core
        let c := if c.l.waitW = some (w.addr, false) then { c with l := { c.l with waitW := some (w.addr, true) } } else c
        let c := { c with ctx := c.ctx.map fun x =>
          match x.watch with
          | some y => if y.addr = w.addr then { x with watch := some { y with fired := true } } else x
          | none => x }
        s.putCore w.core c) s

/-! ### Ash records (R442, R443) -/

def ashBytes (s : State) (src code unit ten reg : Nat) (addr : Nat) (detail : List Byte) : List Byte :=
  natLe 8 s.ftime.toNat ++ natLe 8 s.cyc.toNat ++ natLe 1 src ++ natLe 1 code ++ natLe 2 unit ++ natLe 2 ten ++
    natLe 2 reg ++ natLe 8 addr ++ ((detail ++ List.replicate 32 0).take 32)

/-- Write a record into a ring: a frozen ring counts it and drops it. -/
def AshRing.write (r : AshRing) (rec_ : List Byte) : AshRing :=
  if r.frozen then { r with dropped := r.dropped + 1 }
  else { r with recs := (rec_ :: r.recs).take 4096, widx := (r.widx + 1) % 4096 }

/-- Set event bits on a die control core (R364). -/
def Core.event (c : Core) (bit : Nat) : Core := { c with evpend := c.evpend ||| (1 <<< bit) }

def State.eventDcc (s : State) (die bit : Nat) : State :=
  s.putCore (0x1000 + die) ((s.coreAt (0x1000 + die)).event bit)

def State.eventAll (s : State) (bit : Nat) : State := (List.range 16).foldl (fun s d => s.eventDcc d bit) s

/-- Write one ash record into ring d, or ring 16; a record that is written sets EVPEND.ASH of its die, or of every die (R442). -/
def State.ashWrite (s : State) (ring : Nat) (rec_ : List Byte) : State :=
  let r := lookupD s.ash ring AshRing.reset
  let s := { s with ash := insertAt s.ash ring (r.write rec_) }
  if r.frozen then s else if ring < 16 then s.eventDcc ring 5 else s.eventAll 5

/-- The common record: source, code, unit, tenant, region, address, detail. -/
def State.ashNote (s : State) (ring src code unit ten reg addr : Nat) (detail : List Byte) : State :=
  s.ashWrite ring (ashBytes s src code unit ten reg addr detail)

def State.ashFreeze (s : State) (ring : Nat) : State :=
  { s with ash := insertAt s.ash ring { lookupD s.ash ring AshRing.reset with frozen := true } }

/-! ### Poison (R440): by 64-byte line -/

def State.linePois (s : State) (k : Nat) : Bool := s.poisoned.contains (k / 64)

/-- Any poisoned line among n bytes from key k? -/
def State.anyPois (s : State) (k n : Nat) : Bool :=
  s.poisoned.any fun l => decide (k < (l + 1) * 64) && decide (l * 64 < k + n)

def State.poisonLine (s : State) (line : Nat) : State :=
  if s.poisoned.contains line then s else { s with poisoned := insertBy (· < ·) line s.poisoned }

/-- Numbers of the lines of a size that [a, a + n) meets. -/
def linesOf (size a n : Nat) : List Nat :=
  if n = 0 then [] else (List.range ((a + n - 1) / size - a / size + 1)).map (· + a / size)

/-- A read of a line that cannot be corrected: the line is poisoned in place, an ash record written, its row's sparing begun (R440,
R441). -/
def State.foundBad (s : State) (line : Nat) : State :=
  let d := homeDie (line * 64)
  let s := State.poisonLine { s with faulty := s.faulty.filter (· != line) } line
  (s.ashNote d 2 0 d 0 0 (line * 64) []).beginSparing d (Config.rowOf line % 64) (Config.rowOf line / 64)

/-- A read of [a, a + n) of local HBM finds the errors that lie in its lines. -/
def State.detect (s : State) (a n : Nat) : State :=
  if s.faulty.isEmpty then s
  else (linesOf 64 a n).foldl (fun s l => if s.faulty.contains l then s.foundBad l else s) s

/-- A write of n bytes at a: a line wholly covered is good again; an error in a line covered in part is found, and poison stays
(R440). -/
def State.coverPoison (s : State) (a n : Nat) : State :=
  let part (l : Nat) : Bool := !(decide (a ≤ l * 64) && decide ((l + 1) * 64 ≤ a + n))
  State.detect { s with poisoned := s.poisoned.filter part, faulty := s.faulty.filter part } a n

/-! ### Host copies of window lines (R433) -/

/-- The byte that a device load of local HBM returns: of a line that the host holds exclusive, what the host wrote comes back. -/
def State.devByte (s : State) (a : Nat) : Byte :=
  if s.host.dirs.contains (a / 64, true) then
    match (s.host.resps.find? fun e => e.1 = a / 64).bind (·.2) with
    | some bs => bs.getD (a % 64) 0
    | none => s.mem.get a
  else s.mem.get a

def State.devBytes (s : State) (a n : Nat) : List Byte :=
  if s.host.dirs.isEmpty then s.mem.bytes a n else (List.range n).map fun i => s.devByte (a + i)

/-- What the device reads of its own records in local HBM. -/
def State.devNat (s : State) (a n : Nat) : Nat := leNat (s.devBytes a n)

/-- Back-invalidate the host's copy of one line: what the host wrote comes back, the entry is dropped. -/
def State.snoopLine (s : State) (line : Nat) : State :=
  match s.host.dirs.find? fun e => e.1 = line with
  | none => s
  | some (_, excl) =>
    let s := if excl then
        State.fireWatches
          (State.coverPoison { s with mem := s.mem.store (line * 64) ((List.range 64).map fun i => s.devByte (line * 64 + i)) }
            (line * 64) 64)
      else s
    { s with host := { s.host with
        dirs := s.host.dirs.filter fun e => e.1 != line, resps := s.host.resps.filter fun e => e.1 != line } }

/-- Before a device write into [a, a + n) of local HBM: every line the host holds. -/
def State.snoopWrite (s : State) (a n : Nat) : State :=
  if s.host.dirs.isEmpty then s else (linesOf 64 a n).foldl (fun s l => s.snoopLine l) s

/-- Before a device load: the lines the host holds E/M. -/
def State.snoopRead (s : State) (a n : Nat) : State :=
  if s.host.dirs.isEmpty then s
  else (linesOf 64 a n).foldl (fun s l => if s.host.dirs.contains (l, true) then s.snoopLine l else s) s

/-- A device load of [a, a + n) of local HBM: the host's E/M copies come back, errors in its lines are found (R433, R440). -/
def State.touch (s : State) (a n : Nat) : State := (s.snoopRead a n).detect a n

/-- A store of the device to a record of its own in local HBM. -/
def State.devStore (s : State) (a : Nat) (bs : List Byte) : State :=
  let s := (s.snoopWrite a bs.length).coverPoison a bs.length
  State.fireWatches { s with mem := s.mem.store a bs }

/-! ### The host window (R432) -/

def State.winBase (s : State) : Nat := s.host.hwbase.toNat * 2 ^ 30

def State.winSize (s : State) : Nat := s.host.hwsize.toNat * 2 ^ 30

def State.inWindow (s : State) (pa n : Nat) : Bool :=
  decide (s.winBase ≤ pa) && decide (pa + n ≤ s.winBase + s.winSize)

def State.meetsWindow (s : State) (pa n : Nat) : Bool :=
  decide (pa < s.winBase + s.winSize) && decide (s.winBase < pa + n) && decide (0 < s.winSize)

/-! ### Page tables (R407, R411, R412) -/

/-- A leaf of the page table. size in bytes; base is the key address of its first byte. -/
structure Page where
  base : Nat
  size : Nat
  kind : PageKind
  w    : Bool
  cow  : Bool
  x    : Bool
  sa   : Bool
  pois : Bool
  deriving DecidableEq, Repr

/-- Why an address has no page: a trap cause, or a physical address that does not exist. -/
inductive Bad where
  | cause (c : Cause) (fva : Nat)
  | hole
  deriving DecidableEq, Repr

def levelShift : Nat → Nat
  | 4 => 39
  | 3 => 30
  | 2 => 21
  | _ => 12

def levelBits : Nat → Nat
  | 4 => 18
  | _ => 9

/-- Is a 128-bit entry with V set malformed at its level (R412)? A leaf whose address does not fit its space's width (R95: 40 bits
of local HBM, 52 of host) counts as malformed (DESIGN CHOICE, log entry 74). -/
def State.pteBad (s : State) (e lvl : Nat) : Bool :=
  let pa := e % 2 ^ 64
  let leaf := bitOf e 65
  let space := bitsOf e 66 2
  let kind := bitsOf e 68 2
  let size := 2 ^ levelShift lvl
  bitsOf e 75 53 != 0 || kind = 3 || (leaf && lvl = 4) || (!leaf && lvl = 1) ||
    (if leaf then
      pa % size != 0 ||
      (match space with
        | 0 => decide (2 ^ 40 ≤ pa) || (kind = 0 && !s.inWindow pa size) || (kind != 0 && s.meetsWindow pa size)
        | 1 => false
        | 2 => kind != 0 || decide (2 ^ 52 ≤ pa)
        | _ => kind != 0)
    else decide (2 ^ 40 ≤ pa) || bitsOf e 66 62 != 0)

def pageOf (e lvl : Nat) : Page where
  base := keyOf (bitsOf e 66 2) (e % 2 ^ 64)
  size := 2 ^ levelShift lvl
  kind := match bitsOf e 68 2 with
    | 0 => .so
    | 1 => .rc
    | _ => .uo
  w := bitOf e 70
  cow := bitOf e 71
  x := bitOf e 72
  sa := bitOf e 73
  pois := bitOf e 74

/-- The tenant directory entry (R407), or none when EN is 0 or a reserved field is not. -/
def State.tenantEnt (s : State) (ten : Nat) : Option (Nat × Nat) :=
  let e := s.devNat (s.tdir.toNat + 32 * ten) 32
  if bitsOf e 40 24 = 0 && bitsOf e 104 24 = 0 && bitsOf e 128 128 = 1 then some (bitsOf e 0 40, bitsOf e 64 40)
  else none

/-- Walk the levels from a table (R412). The result names the level and the entry; a poisoned entry is PAGEFAULT
with an ash record. -/
def State.walkFrom (s : State) (va table : Nat) : List Nat → State × Except Bad (Nat × Nat)
  | [] => (s, .error (.cause .pagefault va))
  | lvl :: rest =>
    let p := table + 16 * bitsOf va (levelShift lvl) (levelBits lvl)
    let s := s.touch p 16
    if hbmBytes ≤ p then (s, .error .hole)
    else if s.anyPois p 16 then
      (s.ashNote (homeDie p) 2 0 (homeDie p) 0 0 p [], .error (.cause .pagefault va))
    else
      let e := s.devNat p 16
      if !bitOf e 64 || s.pteBad e lvl then (s, .error (.cause .pagefault va))
      else if bitOf e 65 then (s, .ok (lvl, e))
      else s.walkFrom va (bitsOf e 0 40) rest

def State.walk (s : State) (ten va : Nat) : State × Except Bad (Nat × Nat) :=
  let s := s.touch (s.tdir.toNat + 32 * ten) 32
  match s.tenantEnt ten with
  | none => (s, .error (.cause .pagefault va))
  | some (_, root) => if 2 ^ 57 ≤ va then (s, .error (.cause .pagefault va)) else s.walkFrom va root [4, 3, 2, 1]

def TlbEnt.hits (e : TlbEnt) (ten va : Nat) : Bool :=
  e.tenant.toNat = ten && e.vpn = va / 2 ^ levelShift e.level

/-- No TLB that the core in focus looks in keeps a page: a walk that ends in PAGEFAULT or PERM leaves no entry, so that a retry
walks again (R413). -/
def State.unenter (s : State) (ten va : Nat) : State :=
  let d := dieOf s.cid
  let drop (l : List TlbEnt) := l.filter fun e => !e.hits ten va
  let s := s.setDie d { s.die d with tlb := drop (s.die d).tlb }
  { s with core := { s.core with tlb := drop s.core.tlb } }

/-- Translate one address for the core in focus: its TLB, its die's TLB, then a walk, which fills both (R413). -/
def State.translate (s : State) (ten va : Nat) : State × Except Bad Page :=
  let kept (e : TlbEnt) : Bool := e.hits ten va && Config.keeps s.cyc.toNat (e.vpn * 4 + e.level)
  let d := dieOf s.cid
  match s.core.tlb.find? kept with
  | some e => (s, .ok (pageOf e.pte.toNat e.level))
  | none =>
    match (s.die d).tlb.find? kept with
    | some e =>
      ({ s with core := { s.core with tlb := (e :: s.core.tlb).take 128 } }, .ok (pageOf e.pte.toNat e.level))
    | none =>
      match s.walk ten va with
      | (s, .error b) => (s.unenter ten va, .error b)
      | (s, .ok (lvl, e)) =>
        let t : TlbEnt := ⟨BitVec.ofNat 16 ten, va / 2 ^ levelShift lvl, lvl, BitVec.ofNat 128 e⟩
        let x := s.die d
        let keep (l : List TlbEnt) := t :: l.filter fun e => !e.hits ten va
        let s := s.setDie d { x with tlb := (keep x.tlb).take 8192 }
        let g := pageOf e lvl
        if spaceOf g.base = 0 && decide (hbmBytes < paOf g.base + g.size) then (s, .error .hole)
        else ({ s with core := { s.core with tlb := (keep s.core.tlb).take 128 } }, .ok g)

/-! ### Capabilities (R93, R408, R409) -/

/-- The window that a capability register gives at a use: VBASE, LEN, PERM. -/
structure Window where
  vbase : Nat
  len   : Nat
  perm  : BitVec 5
  deriving DecidableEq, Repr

def permR : Nat := 0
def permW : Nat := 1
def permX : Nat := 2
def permA : Nat := 3
def permN : Nat := 4

/-- Bytes of the device-information object (R365). -/
def devInfoBytes : Nat := 0x30000

def devInfoBase : Nat := Config.devInfoPage.toNat * 65536

/-- Object-table entry fields (R408). -/
def entV (e : Nat) : Bool := bitOf e 224

def entGen (e : Nat) : Nat := bitsOf e 192 32

/-- The object-table entry of (tenant, index), through the capability cache of the core in focus (R409). -/
def State.objEntry (s : State) (ten obj : Nat) : State × Option Nat :=
  let kept (c : CapEnt) : Bool := c.tenant.toNat = ten && c.obj.toNat = obj && Config.keeps s.cyc.toNat obj
  match s.core.ccache.find? kept with
  | some c => (s, some c.entry.toNat)
  | none =>
    let s := s.touch (s.tdir.toNat + 32 * ten) 32
    match s.tenantEnt ten with
    | none => (s, none)
    | some (ot, _) =>
      let s := s.touch (ot + 32 * obj) 32
      let e := s.devNat (ot + 32 * obj) 32
      let c : CapEnt := ⟨BitVec.ofNat 16 ten, BitVec.ofNat 16 obj, BitVec.ofNat 32 (entGen e), BitVec.ofNat 256 e⟩
      let rest := s.core.ccache.filter fun c => !(c.tenant.toNat = ten && c.obj.toNat = obj)
      ({ s with core := { s.core with ccache := (c :: rest).take 64 } }, some e)

/-- The check each use of a capability makes before R94 (R409). -/
def State.window (s : State) (c : Option Cap) : State × Except Bad Window :=
  match c with
  | none => (s, .error (.cause .capfault 0))
  | some c =>
    if c.dev then (s, .ok ⟨devInfoBase + c.off, c.len, c.perm⟩)
    else
      match s.objEntry c.ten.toNat c.obj.toNat with
      | (s, none) => (s, .error (.cause .capfault 0))
      | (s, some e) =>
        if !entV e || entGen e != c.gen.toNat then (s, .error (.cause .capfault 0))
        else (s, .ok ⟨bitsOf e 0 57 + c.off, c.len, BitVec.ofNat 5 (bitsOf e 128 5) &&& c.perm⟩)

/-- A part of an access with its page (R97). -/
structure PPart where
  part : Part
  page : Page
  deriving DecidableEq, Repr

/-- The page that stands for the device-information object. -/
def devInfoPg : Page := ⟨keyOf devInfoSpace 0, devInfoBytes, .so, false, false, false, false, false⟩

/-- Split [va, va + n) at page boundaries and translate each part (R97). A part is at most one page. -/
def State.parts (s : State) (ten : Nat) (va : Nat) : Nat → Nat → State × Except Bad (List PPart)
  | _, 0 => (s, .ok [])
  | 0, _ => (s, .ok [])
  | fuel + 1, n =>
    match s.translate ten va with
    | (s, .error b) => (s, .error b)
    | (s, .ok g) =>
      let off := va % g.size
      let len := min n (g.size - off)
      match s.parts ten (va + len) fuel (n - len) with
      | (s, .error b) => (s, .error b)
      | (s, .ok ps) => (s, .ok (⟨⟨g.base + off, len, g.kind, va, g.pois⟩, g⟩ :: ps))

/-- What an access needs of its page beyond translation (R412 step 3). -/
inductive Need where
  | read | write | fetch
  deriving DecidableEq, Repr

def Page.allows (g : Page) : Need → Bool
  | .read => true
  | .write => g.w && !g.cow
  | .fetch => g.x

/-- Translate and check a range of virtual addresses: PAGEFAULT for any part, then PERM (R94, R412). -/
def State.range (s : State) (ten va n : Nat) (need : Need) : State × Except Bad (List PPart) :=
  match s.parts ten va (n / 4096 + 2) n with
  | (s, .error b) => (s, .error b)
  | (s, .ok ps) =>
    match ps.find? fun p => !p.page.allows need with
    | some p => (s.unenter ten p.part.va, .error (.cause .perm p.part.va))
    | none => (s, .ok ps)

/-- The offset of an address (R94): exact, no wrap. -/
def State.eaOf (s : State) (m : MAddr) (off : Word) : Int :=
  let imm : Int := match s.cur.wide with
    | some p => ((p.extractLsb' 0 24 : BitVec 24) ++ m.off).toInt
    | none => m.off.toInt
  imm + (if m.oreg = .zero then 0 else off.toInt)

/-- R94 and the checks after it: n bytes at offset ea through a capability that must carry the permission bits, with va a multiple
of align. The page tables are those of the capability's tenant: the step's, but for what a host launch binds (R388). -/
def State.access (s : State) (ten : Nat) (c : Option Cap) (ea : Int) (n align : Nat) (perms : List Nat) (need : Need) :
    State × Except Bad (List PPart) :=
  match s.window c with
  | (s, .error b) => (s, .error b)
  | (s, .ok w) =>
    if ea < 0 || (w.len : Int) < ea + n then (s, .error (.cause .capfault 0))
    else if perms.any fun p => !w.perm.getLsbD p then (s, .error (.cause .capfault 0))
    else
      let va := w.vbase + ea.toNat
      if va % align != 0 then (s, .error (.cause .align va))
      else if (c.map (·.dev)).getD false then
        (s, .ok [⟨⟨keyOf devInfoSpace (va - devInfoBase), n, .so, va, false⟩, devInfoPg⟩])
      else s.range ((c.map fun x => x.ten.toNat).getD ten) va n need

/-- The tenant in whose tables a step of the core in focus runs; tenant 0 on a die control core (R407). -/
def State.tenant (s : State) : Nat :=
  match s.core.ctx with
  | some x => x.tenant.toNat
  | none => 0

/-- The identification word (R16). -/
def idWord : Nat := 0x7C51100041000000 + Config.stepMin.toNat * 256

/-- A byte of the device-information object (R61, R365). -/
def State.devInfoByte (s : State) (off : Nat) : Byte :=
  let w (x lo : Nat) : Byte := BitVec.ofNat 8 (x >>> (8 * (off - lo)))
  if off < 0x8 then w idWord 0
  else if off < 0x10 then w 1 0x8
  else if off < 0x18 then w 0x101010 0x10
  else if off < 0x20 then w 1800 0x18
  else if off < 0x28 then w 3600 0x20
  else if off < 0x30 then w s.podpos.toNat 0x28
  else if off < 0x10000 then 0
  else if off < 0x30000 then
    let i := (off - 0x10000) / 2
    BitVec.ofNat 8 ((Config.latency (i / 256) (i % 256)).toNat >>> (8 * (off % 2)))
  else 0

end Sys2Proof.Machine
end

