-- ==== Sys2Proof/Machine/Region.lean ====
section
/-!
DEFINITION. The scheduling root, the region control blocks and their effective values, budgets and fences
(R18 to R21, R385 to R387, R394).
-/

namespace Sys2Proof.Machine

/-! ### The scheduling root block (R385) -/

def State.rootNat (s : State) (off n : Nat) : Nat := s.devNat (s.root.toNat + off) n

def State.rtBase (s : State) : Nat := s.rootNat 0 8 % 2 ^ 40
def State.fdBase (s : State) : Nat := s.rootNat 8 8 % 2 ^ 40
def State.rkBase (s : State) : Nat := s.rootNat 16 8 % 2 ^ 40
def State.twBase (s : State) : Nat := s.rootNat 24 8 % 2 ^ 40
def State.twCount (s : State) : Nat := bitsOf (s.rootNat 24 8) 40 24

/-- The aging quantum in µs; 0 is read as 50. -/
def State.ageq (s : State) : Nat := if s.rootNat 32 2 = 0 then 50 else s.rootNat 32 2

def State.gateIdle (s : State) : Nat := s.rootNat 34 2

/-! ### Region control blocks (R386) -/

def State.rcbAddr (s : State) (r : Nat) : Nat := s.rtBase + 256 * r

/-- A field of n bytes of the block of region r. -/
def State.rcb (s : State) (r off n : Nat) : Nat := s.devNat (s.rcbAddr r + off) n

/-- The device reads the root block and a block of its region table. -/
def State.touchBlock (s : State) (r : Nat) : State := (s.touch s.root.toNat 40).touch (s.rcbAddr r) 256

/-- The device writes usage fields at their home. -/
def State.setRcb (s : State) (r off n v : Nat) : State := s.devStore (s.rcbAddr r + off) (natLe n v)

def State.rcbParent (s : State) (r : Nat) : Nat := s.rcb r 0 2
def State.rcbMask (s : State) (r : Nat) (bit : Nat) : Bool := s.rcbParent r = 0xFFFF || bitOf (s.rcb r 2 2) bit
def State.rcbV (s : State) (r : Nat) : Bool := bitOf (s.rcb r 0 8) 36

/-- The regions from r to its root, r first; none when the path is longer than 8 levels (R20). -/
def State.pathFrom (s : State) : Nat → Nat → Option (List Nat)
  | 0, _ => none
  | fuel + 1, r =>
    let p := s.rcbParent r
    if p = 0xFFFF then some [r] else (s.pathFrom fuel p).map (r :: ·)

def State.path (s : State) (r : Nat) : Option (List Nat) := s.pathFrom 8 r

/-- The device reads every block on a region's path. -/
def State.touchPath (s : State) (r : Nat) : State := ((s.path r).getD [r]).foldl State.touchBlock s

/-- The region of a path whose own value is the effective one: the first with the mask bit set, else the root. -/
def State.ownerOn (s : State) (bit : Nat) : List Nat → Nat
  | [] => 0
  | [r] => r
  | r :: rest => if s.rcbMask r bit then r else s.ownerOn bit rest

/-- The region whose own field is the effective value of region r (R18). -/
def State.owner (s : State) (r bit : Nat) : Nat := s.ownerOn bit ((s.path r).getD [r])

def State.effPrio (s : State) (r : Nat) : Nat := bitsOf (s.rcb (s.owner r 5) 0 8) 32 3
def State.effFdom (s : State) (r : Nat) : Nat := s.rcb (s.owner r 6) 32 2
def State.effTenant (s : State) (r : Nat) : Nat := s.rcb (s.owner r 7) 34 2
def State.effPoolwt (s : State) (r : Nat) : Nat := s.rcb (s.owner r 4) 10 1
def State.effDispLo (s : State) (r : Nat) : Nat := s.rcb (s.owner r 8) 40 8
def State.effDispHi (s : State) (r : Nat) : Nat := s.rcb (s.owner r 8) 48 8
def State.effHandlerLC (s : State) (r : Nat) : Nat := s.rcb (s.owner r 9) 56 8
def State.effHandlerS (s : State) (r : Nat) : Nat := s.rcb (s.owner r 9) 64 4

/-- Every tenant root of a path has a parent whose effective tenant is 0 (R20). -/
def State.tenantsOk (s : State) : List Nat → Bool
  | [] => true
  | [_] => true
  | r :: rest => (!bitOf (s.rcb r 2 2) 7 || s.rcb (s.ownerOn 7 rest) 34 2 = 0) && s.tenantsOk rest

/-- Is region r well formed (R20)? -/
def State.wellFormed (s : State) (r : Nat) : Bool :=
  match s.path r with
  | none => false
  | some p => p.all (fun x => s.rcbV x) && s.tenantsOk p

/-- The function of a region: VF of the tenant root above it (R386). -/
def State.regionFn (s : State) (r : Nat) : Nat := s.rcb (s.owner r 7) 36 1 % 64

/-! ### Fences (R394) -/

def State.fenced (s : State) (fdom : Nat) : Bool := bitOf (s.devNat (s.fdBase + fdom / 8) 1) (fdom % 8)

/-- Fence a domain: an atomic OR at the home of the bit. -/
def State.setFence (s : State) (fdom : Nat) : State :=
  let a := s.fdBase + fdom / 8
  let s := s.touch a 1
  s.devStore a [s.devByte a ||| (1 <<< (fdom % 8))]

/-! ### Budgets (R19, R387) -/

/-- Budgeted resources: mask bit, limit field and usage field with their widths in bytes. -/
inductive Budget where
  | cores | acc | log | rick
  deriving DecidableEq, Repr

def Budget.mask : Budget → Nat
  | .cores => 0
  | .acc => 1
  | .log => 2
  | .rick => 3

def State.limit (s : State) (r : Nat) : Budget → Nat
  | .cores => s.rcb r 8 2 % 8192
  | .acc => s.rcb r 12 4
  | .log => s.rcb r 16 8
  | .rick => s.rcb r 24 8

def State.usage (s : State) (r : Nat) : Budget → Nat
  | .cores => s.rcb r 192 2 % 8192
  | .acc => s.rcb r 196 4
  | .log => s.rcb r 200 8
  | .rick => s.rcb r 208 8

def State.setUsage (s : State) (r : Nat) (b : Budget) (v : Nat) : State :=
  match b with
  | .cores => s.setRcb r 192 2 (v % 8192)
  | .acc => s.setRcb r 196 4 v
  | .log => s.setRcb r 200 8 v
  | .rick => s.setRcb r 208 8 v

/-- May region r take n more units (R19)? -/
def State.grantable (s : State) (r : Nat) (b : Budget) (n : Nat) : Bool :=
  n = 0 || ((s.path r).getD [r]).all fun x => !s.rcbMask x b.mask || decide (s.usage x b + n ≤ s.limit x b)

def State.charge (s : State) (r : Nat) (b : Budget) (n : Nat) : State :=
  ((s.path r).getD [r]).foldl (fun s x => s.setUsage x b (s.usage x b + n)) s

def State.uncharge (s : State) (r : Nat) (b : Budget) (n : Nat) : State :=
  ((s.path r).getD [r]).foldl (fun s x => s.setUsage x b (s.usage x b - n)) s

/-! ### Virtual addresses that the device itself uses -/

/-- Translate a range in a tenant's tables without a TLB, as the dispatcher, the rick unit and the wheel do. -/
def State.devParts (s : State) (ten : Nat) (va : Nat) : Nat → Nat → State × Except Bad (List PPart)
  | _, 0 => (s, .ok [])
  | 0, _ => (s, .ok [])
  | fuel + 1, n =>
    match s.walk ten va with
    | (s, .error b) => (s, .error b)
    | (s, .ok (lvl, e)) =>
      let g := pageOf e lvl
      let off := va % g.size
      let len := min n (g.size - off)
      match s.devParts ten (va + len) fuel (n - len) with
      | (s, .error b) => (s, .error b)
      | (s, .ok ps) => (s, .ok (⟨⟨g.base + off, len, g.kind, va, g.pois⟩, g⟩ :: ps))

def State.devRange (s : State) (ten va n : Nat) (need : Need) : State × Except Bad (List PPart) :=
  match s.devParts ten va (n / 4096 + 2) n with
  | (s, .error b) => (s, .error b)
  | (s, .ok ps) =>
    match ps.find? fun p => !p.page.allows need with
    | some p => (s, .error (.cause .perm p.part.va))
    | none => (s, .ok ps)

/-- The object-table entry of an index, read at its home: none when the tenant is not enabled. -/
def State.objNat (s : State) (ten obj : Nat) : Option Nat :=
  (s.tenantEnt ten).map fun e => s.devNat (e.1 + 32 * obj) 32

/-- The window of an object-table index, as the device itself resolves it (R37): none when null or invalid. -/
def State.objWindow (s : State) (ten obj : Nat) : Option Window :=
  match s.objNat ten obj with
  | none => none
  | some e => if entV e then some ⟨bitsOf e 0 57, bitsOf e 64 58, BitVec.ofNat 5 (bitsOf e 128 5)⟩ else none

/-- The capability that dispatch binds for an index, without checking V, with the permissions that keep names and the
narrowing off, len (R409). A tenant that is not enabled has no entry: generation 0 and length 0 then, and every use is
CAPFAULT. -/
def State.bindCap (s : State) (ten obj : Nat) (keep : BitVec 5) (off : Nat) (len : Option Nat) : Cap :=
  let e := (s.objNat ten obj).getD 0
  ⟨false, BitVec.ofNat 16 ten, BitVec.ofNat 16 obj, BitVec.ofNat 32 (entGen e), off, len.getD (bitsOf e 64 58),
    BitVec.ofNat 5 (bitsOf e 128 5) &&& keep⟩

end Sys2Proof.Machine
end

