-- ==== Sys2Proof/Machine/View.lean ====
section
/-!
DEFINITION. Copies of memory and the bytes that reads and writes see: stamp keys, homes, the package view, leases, the L1,
host copies of window lines, poison, watches (R97 to R106, R121, R223, R425, R431 to R434, R440).
-/

namespace Sys2Proof.Machine

/-! ### Stamps and keys (R102, R117) -/

/-- Stamp a is higher than stamp b (R117). -/
def stampHigher (a b : BitVec 64) : Bool := a != b && decide ((a - b).toNat < 2 ^ 63)

def Key.zero : Key := ⟨0, 0, 0⟩

/-- Key a is higher than key b (R102). -/
def Key.higher (a b : Key) : Bool :=
  if a.stamp != b.stamp then stampHigher a.stamp b.stamp
  else if a.log != b.log then decide (b.log.toNat < a.log.toNat)
  else decide (b.rseq.toNat < a.rseq.toNat)

/-- A stamp of FTIME with 16 low bits (R115). -/
def mkStamp (ftime : BitVec 64) (low : Nat) : BitVec 64 := BitVec.ofNat 64 ((ftime.toNat % 2 ^ 48) * 65536 + low % 65536)

/-- Raise a stamp, if need be, so that it is higher than another: by 1 in bits [63:16]. -/
def raiseStamp (s past : BitVec 64) : BitVec 64 :=
  if stampHigher s past then s
  else BitVec.ofNat 64 (((past.toNat / 65536 + 1) % 2 ^ 48) * 65536 + s.toNat % 65536)

def keyAt (ks : List (Nat × Key)) (a : Nat) : Key := lookupD ks a Key.zero

/-- Merge one byte into a copy (R102). -/
def mergeByte (m : Mem) (ks : List (Nat × Key)) (a : Nat) (b : Byte) (k : Key) : Mem × List (Nat × Key) :=
  if k.higher (keyAt ks a) then (m.put a b, insertAt ks a k) else (m, ks)

def mergeBytes (m : Mem) (ks : List (Nat × Key)) (a : Nat) (bs : List Byte) (k : Key) : Mem × List (Nat × Key) :=
  match bs with
  | [] => (m, ks)
  | b :: bs =>
    let (m, ks) := mergeByte m ks a b k
    mergeBytes m ks (a + 1) bs k

/-! ### Lines -/

/-- Bytes of an L1 line (R210). -/
def l1Line : Nat := 128

/-! ### Leases (R104 to R106, R425) -/

def leasePage (k : Nat) : Nat := k / 65536

/-- The package stops serving at grant + 4 ms - 10 µs (R104). -/
def Lease.served (l : Lease) (ftime : BitVec 64) : Bool := decide (ftime.toNat < l.grant.toNat + 3990000)

/-- Lose a lease page (R106): its lines leave the view and every L1; replayed bytes newer than the home's are kept. -/
def State.loseLease (s : State) (page : Nat) : State :=
  let inPage (a : Nat) : Bool := leasePage a = page
  let drop (a : Nat) : Bool := inPage a && !(keyAt s.vkeys a).higher (keyAt s.keys a)
  let s := { s with
    leases := s.leases.filter fun l => l.page != page
    vlines := s.vlines.filter fun l => !inPage (l * 64)
    view := s.view.filter fun c => !drop c.1
    vkeys := s.vkeys.filter fun e => !drop e.1 }
  s.mapCores fun c => { c with l1 := c.l1.filter fun e => !inPage (e.1 * l1Line) }

/-- Discard the pending replays of a page too (R428). -/
def State.discardPending (s : State) (page : Nat) : State :=
  { s with view := s.view.filter fun c => leasePage c.1 != page, vkeys := s.vkeys.filter fun e => leasePage e.1 != page }

/-- The home holds a lease until grant + 4 ms + 10 µs (R104). One FTIME serves every home (log entry 75). -/
def HomeLease.live (h : HomeLease) (ftime : BitVec 64) : Bool := decide (ftime.toNat < h.grant.toNat + 4010000)

/-- Do other packages hold live leases on a page? -/
def State.leasedOut (s : State) (page : Nat) : Bool :=
  s.hleases.any fun h => h.page = page && h.pos != s.podpos.toNat && h.live s.ftime

/-- Is a recall of the page in progress at its home: begun, and some holder has neither acknowledged nor expired (R105)? -/
def State.recallOn (s : State) (page : Nat) : Bool := s.recalls.contains page && s.leasedOut page

/-- This package gives a page up as a lease holder. -/
def State.yieldLease (s : State) (page : Nat) : State :=
  let s := s.loseLease page
  { s with hleases := s.hleases.filter fun h => !(h.page = page && h.pos = s.podpos.toNat) }

/-- Recall a page (R105): own says whether this package's own lease goes too. True: no other holder is left. -/
def State.recallPage (s : State) (page : Nat) (own : Bool) : State × Bool :=
  let s := if own then s.yieldLease page else s
  let rest := s.recalls.filter (· != page)
  if s.leasedOut page then ({ s with recalls := page :: rest }, false)
  else ({ s with recalls := rest, hleases := s.hleases.filter fun h => h.page != page || h.pos = s.podpos.toNat }, true)

/-- Recall several pages; true when a write to them may be applied. -/
def State.recallPages (s : State) (pages : List Nat) (own : Bool) : State × Bool :=
  pages.foldl (fun (r : State × Bool) p =>
    let (s, ok) := r.1.recallPage p own
    (s, r.2 && ok)) (s, true)

/-- The lease pages of the pool bytes among some ranges of bytes. -/
def poolPages (rs : List (Nat × Nat)) : List Nat :=
  ((rs.filter fun r => spaceOf r.1 = 1).flatMap fun r => linesOf 65536 r.1 r.2).eraseDups

/-- Before a home applies a write to pool bytes: the leases of their pages are recalled (R105). -/
def State.recallFor (s : State) (a n : Nat) : State := (s.recallPages (linesOf 65536 a n) true).1

/-! ### Transactions sent (R422, R424) -/

/-- The 16 bytes of a transaction header. -/
def txnHeader (op node src tseq addr : Nat) : List Byte :=
  natLe 4 (op % 256 + node % 4096 * 2 ^ 8 + src % 1024 * 2 ^ 20) ++ natLe 4 tseq ++ natLe 8 addr

/-- A port carries flits in STATE 2 and 3. -/
def Port.isUp (p : Port) : Bool := decide (2 ≤ p.state.val)

/-- The port that serves a node (R424). -/
def State.portOf (s : State) (node : Nat) : Nat := lookupD s.mgmt.routes node 0

/-- A transaction of the region whose step is in focus goes to the egress of the node's port, where it waits while that port is not
up (R424). Of a node that is not Up the port answers itself, and nothing is sent (R428). -/
def State.toPort (s : State) (node : Nat) (bytes : List Byte) : State :=
  let n := s.portOf node
  let p := lookupD s.ports n Port.reset
  let region := ((s.core.ctx.map fun x => x.region.toNat).getD 0)
  if s.nodeUp node then { s with ports := insertAt s.ports n { p with egress := p.egress ++ [⟨region, node, bytes⟩] } } else s

/-- Send a transaction: codes 0x07 to 0x0D take the next TSEQ of the destination (R422). -/
def State.send (s : State) (op node addr : Nat) (body : List Byte) : State :=
  let q := lookupD s.txseq node 0
  if 0x07 ≤ op && op ≤ 0x0D then
    State.toPort { s with txseq := insertAt s.txseq node ((q + 1) % 2 ^ 32) } node
      (txnHeader op node s.podpos.toNat q addr ++ body)
  else s.toPort node (txnHeader op node s.podpos.toNat 0 addr ++ body)

/-- Send a transaction about a pool address to its node; other addresses need none. -/
def State.sendAt (s : State) (op a : Nat) (body : List Byte) : State :=
  if spaceOf a = 1 then s.send op (poolNode a) (paOf a) body else s

/-- Keep an outcome: the last 4,096 of each sender at each home (R423). -/
def keepOutcome (l : List Outc) (o : Outc) : List Outc :=
  let same (x : Outc) : Bool := x.src = o.src && x.node = o.node
  let mine := l.filter same
  l.filter (fun x => !same x) ++ (mine ++ [o]).drop (mine.length + 1 - 4096)

/-- The node has carried out the last transaction that this package sent it, and keeps its outcome (R423). -/
def State.keepSent (s : State) (node st : Nat) (data : List Byte) : State :=
  let q := (lookupD s.txseq node 0 + (2 ^ 32 - 1)) % 2 ^ 32
  if s.nodeUp node then { s with outs := keepOutcome s.outs ⟨s.podpos.toNat, node, q, st, data⟩ } else s

/-- The same for a transaction about a pool address. -/
def State.keepSentAt (s : State) (a st : Nat) (data : List Byte) : State :=
  if spaceOf a = 1 then s.keepSent (poolNode a) st data else s

/-- The Reads of [a, a + n): aligned runs of 64 bytes to 4 KiB (R422). -/
def State.sendReads (s : State) (a n : Nat) : State :=
  (linesOf 4096 a n).foldl (fun (s : State) k =>
    let lo := max (a / 64 * 64) (k * 4096)
    let hi := min ((a + n + 63) / 64 * 64) ((k + 1) * 4096)
    s.sendAt 0x01 lo (natLe 4 (hi - lo))) s

/-! ### Holding leases -/

/-- Is the page held and still served? -/
def State.leaseHeld (s : State) (page : Nat) : Bool := s.leases.any fun l => l.page = page && l.served s.ftime

/-- A line of the page has been accessed in its current term (R104). -/
def State.useLease (s : State) (page : Nat) : State :=
  { s with leases := s.leases.map fun (x : Lease) => if x.page = page then { x with used := true } else x }

/-- The home grants the page to this package now. -/
def State.ownGrant (s : State) (page : Nat) : State :=
  let s := s.send 0x03 (poolNode (page * 65536)) (paOf (page * 65536)) []
  { s with
    leases := ⟨page, s.ftime, true, false⟩ :: s.leases.filter fun l => l.page != page
    hleases := ⟨page, s.podpos.toNat, s.ftime⟩ :: s.hleases.filter fun h => !(h.page = page && h.pos = s.podpos.toNat)
    recalls := s.recalls.filter (· != page) }

/-- Hold a lease on a page: acquire it when it is not held or no longer served. False: refused, the node being down or the page
under recall (R425, R428). -/
def State.takeLease (s : State) (page : Nat) : State × Bool :=
  if s.leaseHeld page then (s.useLease page, true)
  else if s.nodeUp (poolNode (page * 65536)) && !s.recallOn page then ((s.loseLease page).ownGrant page, true)
  else (s.loseLease page, false)

/-- Bring one byte of a pool line into the view: the home's, unless a pending replay is newer (R102, R106). -/
def fetchByte (home : Mem) (hks : List (Nat × Key)) (v : Mem × List (Nat × Key)) (a : Nat) : Mem × List (Nat × Key) :=
  if (keyAt v.2 a).higher (keyAt hks a) then v
  else (v.1.put a (home.get a), if keyAt hks a = Key.zero then removeAt v.2 a else insertAt v.2 a (keyAt hks a))

/-- Have a 64-byte pool line in the view. False: it cannot be had, and the read is poison (R428). -/
def State.fetchLine (s : State) (line : Nat) : State × Bool :=
  match s.takeLease (leasePage (line * 64)) with
  | (s, false) => (s, false)
  | (s, true) =>
    if s.vlines.contains line then (s, true)
    else
      let v := (List.range 64).foldl (fun v i => fetchByte s.mem s.keys v (line * 64 + i)) (s.view, s.vkeys)
      ({ s with view := v.1, vkeys := v.2, vlines := line :: s.vlines }, true)

/-! ### Reading -/

/-- A byte as read: its value and whether it is poisoned. -/
abbrev PByte := Byte × Bool

/-- A pool line read at its home without a lease, under the pending replays that are newer: what a page under recall answers (log
entry 75). -/
def State.bareLine (s : State) (line : Nat) : List PByte :=
  (List.range 64).map fun i =>
    let a := line * 64 + i
    (if (keyAt s.vkeys a).higher (keyAt s.keys a) then s.view.get a else s.mem.get a, s.poisoned.contains line)

/-- The bytes of one 64-byte line of the package view (R103), every byte poisoned when the line is. -/
def State.viewLine (s : State) (line : Nat) : State × List PByte :=
  if spaceOf (line * 64) = 1 then
    if s.nodeUp (poolNode (line * 64)) && s.recallOn (leasePage (line * 64)) && !s.leaseHeld (leasePage (line * 64)) then
      (s, s.bareLine line)
    else
      match s.fetchLine line with
      | (s, false) => (s, List.replicate 64 (0, true))
      | (s, true) => (s, (s.view.bytes (line * 64) 64).map fun b => (b, s.poisoned.contains line))
  else
    let s := s.detect (line * 64) 64
    (s, (s.mem.bytes (line * 64) 64).map fun b => (b, s.poisoned.contains line))

/-- May the L1 hold or serve a line: not of a pool page without a lease that is still served (R103, R104)? -/
def State.l1May (s : State) (line : Nat) : Bool :=
  spaceOf (line * l1Line) != 1 || s.leaseHeld (leasePage (line * l1Line))

/-- The bytes of a line that the L1 of the core in focus still holds. -/
def State.l1Hit (s : State) (line : Nat) : Option (List Byte) :=
  if s.l1May line then
    (s.core.l1.find? fun e => e.1 = line && Config.keeps s.cyc.toNat e.1).map (·.2)
  else none

/-- A line that misses the L1: the package view, which fills the L1 when no byte is poisoned; what the L1 had of the line goes. -/
def State.loadMiss (s : State) (line : Nat) : State × List PByte :=
  let (s, a) := s.viewLine (line * 2)
  let (s, b) := s.viewLine (line * 2 + 1)
  let bs := a ++ b
  let rest := s.core.l1.filter fun e => e.1 != line
  let l1 := if bs.any (·.2) || !s.l1May line then rest else ((line, bs.map (·.1)) :: rest).take 512
  ({ s with core := { s.core with l1 := l1 } }, bs)

/-- One 128-byte line for a load of the core in focus (R103): a hit counts as an access to the line's lease page (R104, R416). -/
def State.loadLine (s : State) (line : Nat) : State × List PByte :=
  match s.l1Hit line with
  | some bs =>
    (if spaceOf (line * l1Line) = 1 then s.useLease (leasePage (line * l1Line)) else s, bs.map fun b => (b, false))
  | none => s.loadMiss line

/-- Take len bytes at address a out of consecutive lines of a size read by a function. -/
def readLines (rd : State → Nat → State × List PByte) (size : Nat) (s : State) (a n : Nat) : State × List PByte :=
  let (s, bs) := (linesOf size a n).foldl (fun (p : State × List PByte) l =>
    let (s, bs) := rd p.1 l
    (s, p.2 ++ bs)) (s, [])
  (s, (bs.drop (a % size)).take n)

/-- Free bytes: device registers (R95: their contents are not given). -/
def State.freeBytes (s : State) : Nat → State × List Byte
  | 0 => (s, [])
  | n + 1 =>
    let (v, s) := s.fresh
    let (s, bs) := s.freeBytes n
    (s, v.setWidth 8 :: bs)

/-- The bytes at the home of an address, without a cache (R98, R100). -/
def State.homeRead (s : State) (a n : Nat) : State × List PByte :=
  match spaceOf a with
  | 0 =>
    let s := s.touch a n
    (s, (List.range n).map fun i => (s.mem.get (a + i), s.linePois (a + i)))
  | 1 =>
    if s.nodeUp (poolNode a) then (s, (List.range n).map fun i => (s.mem.get (a + i), s.linePois (a + i)))
    else (s, List.replicate n (0, true))
  | 2 => (s, (List.range n).map fun i => (s.mem.get (a + i), !s.host.up || s.linePois (a + i)))
  | 3 =>
    let (s, bs) := s.freeBytes n
    (s, bs.map fun b => (b, false))
  | _ => (s, (List.range n).map fun i => (s.devInfoByte (paOf a + i), false))

/-- A read of an SO page: a pool home is asked by a Read (R422). -/
def State.soRead (s : State) (a n : Nat) : State × List PByte :=
  (if spaceOf a = 1 then s.sendReads a n else s).homeRead a n

/-- Read one part of an access of the core in focus, without the step's own log (R97, R103, R412). -/
def State.readPart (s : State) (p : Part) : State × List PByte :=
  if p.pois then (s, List.replicate p.len (0, true))
  else if p.kind = .so then s.soRead p.addr p.len
  else readLines State.loadLine l1Line s p.addr p.len

/-- Read one part for a copy granule, a fetch or the device: the package view, not the L1. -/
def State.viewPart (s : State) (p : Part) : State × List PByte :=
  if p.pois then (s, List.replicate p.len (0, true))
  else if p.kind = .so then s.soRead p.addr p.len
  else readLines State.viewLine 64 s p.addr p.len

def State.readWith (rd : State → Part → State × List PByte) (s : State) (ps : List Part) : State × List PByte :=
  ps.foldl (fun (acc : State × List PByte) p =>
    let (s, bs) := rd acc.1 p
    (s, acc.2 ++ bs)) (s, [])

/-- The step's own log bytes over what was read (R113): own lists (address, byte), the newest first. A page with POIS set stays
poisoned (R412). -/
def overlayOwn (own : List (Nat × Byte)) (ps : List Part) (bs : List PByte) : List PByte :=
  let addrs := ps.flatMap fun p => (List.range p.len).map fun i => (p.addr + i, p.pois)
  (addrs.zip bs).map fun ((a, pois), b) =>
    match own.find? fun e => e.1 = a with
    | some e => if pois then b else (e.2, false)
    | none => b

/-! ### Writing in place -/

/-- Bytes written at a home also go into the copies that hold them (R98). -/
def updateLine (line : Nat) (old : List Byte) (a : Nat) (bs : List Byte) : List Byte :=
  old.zipIdx.map fun (b, i) =>
    let k := line * l1Line + i
    if a ≤ k && k < a + bs.length then bs.getD (k - a) b else b

def State.updateCopies (s : State) (a : Nat) (bs : List Byte) : State :=
  let s := s.mapCores fun c => { c with l1 := c.l1.map fun e => (e.1, updateLine e.1 e.2 a bs) }
  if spaceOf a = 1 then
    { s with view := bs.zipIdx.foldl (fun v (b, i) => if s.vlines.contains ((a + i) / 64) then v.put (a + i) b else v) s.view }
  else s

/-- Bytes are written in place at their home (R98). True: the home answered with poison (R428, R434). -/
def State.homePut (s : State) (a : Nat) (bs : List Byte) : State × Bool :=
  match spaceOf a with
  | 0 =>
    let s := (s.snoopWrite a bs.length).coverPoison a bs.length
    let s := { s with mem := s.mem.store a bs }
    ((s.updateCopies a bs).fireWatches, false)
  | 1 =>
    if s.nodeUp (poolNode a) then
      let s := { s with mem := s.mem.store a bs }
      ((s.coverPoison a bs.length).updateCopies a bs, false)
    else (s, true)
  | 2 => if s.host.up then ({ s with mem := s.mem.store a bs }, false) else (s, true)
  | 3 => ({ s with devw := insertAt s.devw (paOf a) (BitVec.ofNat 64 (leNat bs)) }, false)
  | _ => (s, false)

/-- Write bytes in place at their home: SO and UO stores, device writes, host writes. A pool home is sent an In-place write of what
lies in each 64-byte line (R422). -/
def State.homeWrite (s : State) (a : Nat) (bs : List Byte) : State × Bool :=
  let s := if spaceOf a = 1 then
      (linesOf 64 a bs.length).foldl (fun (s : State) l =>
        let lo := max a (l * 64)
        let hi := min (a + bs.length) ((l + 1) * 64)
        (s.sendAt 0x0B lo ((bs.drop (lo - a)).take (hi - lo))).keepSentAt lo 0 []) s
    else s
  s.homePut a bs

/-! ### Merging at a home (R102, R105, R121, R123) -/

/-- Merge a write with its key into the home copy; leases of pool pages are recalled when recalls says so. -/
def State.homeMerge (s : State) (a : Nat) (bs : List Byte) (k : Key) (recalls : Bool) : State :=
  let s := if spaceOf a = 0 then s.snoopWrite a bs.length else if recalls then s.recallFor a bs.length else s
  let s := s.coverPoison a bs.length
  let (m, ks) := mergeBytes s.mem s.keys a bs k
  State.fireWatches { s with mem := m, keys := ks }

/-- The key of an atomic at an address (R121). -/
def State.atomKey (s : State) (a n : Nat) : Key :=
  let cur := (List.range n).foldl (fun m i => if (keyAt s.keys (a + i)).higher m then keyAt s.keys (a + i) else m) Key.zero
  ⟨raiseStamp (mkStamp s.ftime 0xFFFF) cur.stamp, 0xFFFFFFFF, 0⟩

/-- After an atomic of this package on pool bytes its own copies of the line are dropped (R105). -/
def State.dropLine (s : State) (a : Nat) : State :=
  let s := s.mapCores fun c => { c with l1 := c.l1.filter fun e => e.1 != a / l1Line }
  if spaceOf a = 1 then
    { s with
      vlines := s.vlines.filter (· != a / 64)
      view := s.view.filter fun c => c.1 / 64 != a / 64 || (keyAt s.vkeys c.1).higher (keyAt s.keys c.1)
      vkeys := s.vkeys.filter fun e => e.1 / 64 != a / 64 || e.2.higher (keyAt s.keys e.1) }
  else s

/-- The write of an atomic at the home (R121, R212): on RC pages with its key, else in place. -/
def State.atomWrite (s : State) (a : Nat) (bs : List Byte) (rc : Bool) : State :=
  if rc then (s.homeMerge a bs (s.atomKey a bs.length) false).dropLine a
  else
    let s := (s.homePut a bs).1
    if spaceOf a = 1 then s.dropLine a else s

/-- An atomic write of bytes by this package: to a pool home an Atomic carries them (R422). -/
def State.atomSend (s : State) (a : Nat) (bs : List Byte) (rc : Bool) : State :=
  ((s.sendAt 0x09 a bs).atomWrite a bs rc).keepSentAt a 0 []

/-- A write of the device to a record in local HBM, as an atomic (R30, R121). -/
def State.devAtomic (s : State) (a : Nat) (bs : List Byte) : State := s.homeMerge a bs (s.atomKey a bs.length) false

end Sys2Proof.Machine
end

