-- ==== Sys2Proof/Machine/Logs.lean ====
section
/-!
DEFINITION. Logs: records and billets, reading a step's own writes, releases, shipping, acquires, compaction
(R107 to R124, R217 to R219).
-/

namespace Sys2Proof.Machine

/-! ### Finding logs -/

def State.log? (s : State) (num : BitVec 32) : Option LogSt := s.logs.find? fun g => g.num = num

def State.setLog (s : State) (g : LogSt) : State :=
  { s with logs := s.logs.map fun x => if x.num = g.num then g else x }

/-- The log number of the step of the core in focus; 0 without a step. -/
def State.logNum (s : State) : BitVec 32 :=
  match s.core.ctx with
  | some x => x.log
  | none => 0

def State.mapCtx (s : State) (f : StepCtx → StepCtx) : State := { s with core := { s.core with ctx := s.core.ctx.map f } }

/-- Is a sequence value still in use (R107)? -/
def State.logBusy (s : State) (num : BitVec 32) : Bool := s.logs.any fun g => g.num = num && (g.live || !g.bills.isEmpty)

/-- The next log number of this package: pod position and the next sequence value not in use (R107). -/
def State.newLogNum (s : State) : BitVec 32 × State :=
  let num (q : Nat) : BitVec 32 := BitVec.ofNat 32 (s.podpos.toNat * 2 ^ 22 + q % 2 ^ 22)
  let q := (leastFrom (fun q => !s.logBusy (num q)) s.logseq (s.logs.length + 1)).getD s.logseq
  (num q, { s with logseq := (q + 1) % 2 ^ 22 })

/-- Open a log. -/
def State.openLog (s : State) (ten reg : Nat) (budget : Bool) : BitVec 32 × State :=
  let (num, s) := s.newLogNum
  let g : LogSt := ⟨num, BitVec.ofNat 16 ten, BitVec.ofNat 16 reg, 0, 0, [], true, budget⟩
  (num, { s with logs := g :: s.logs.filter fun x => x.num != num })

/-! ### Appending (R107 to R111) -/

def pad8 (n : Nat) : Nat := (n + 7) / 8 * 8

/-- Bytes that a record takes in a billet (R108). -/
def Rec.size (r : Rec) : Nat := 16 + pad8 r.data.length

/-- The bytes of a billet's record area (R109). -/
def billetArea : Nat := 4032

/-! ### The bytes of records and billets (R108, R109) -/

/-- A record as it stands in its billet: the 16-byte header, the data, the padding. -/
def Rec.bytes (r : Rec) : List Byte :=
  natLe 8 (paOf r.addr) ++ natLe 2 (r.data.length + spaceOf r.addr % 4 * 2 ^ 11) ++ natLe 1 r.kind.val ++
    natLe 1 (natOfBool r.ce) ++ natLe 4 r.rseq.toNat ++ r.data ++ List.replicate (pad8 r.data.length - r.data.length) 0

/-- One bit of the CRC-32C register, reflected (log entry 76). -/
def crc32cBit (c : Nat) : Nat := if c % 2 = 1 then c / 2 ^^^ 0x82F63B78 else c / 2

def crc32cByte (c : Nat) (b : Byte) : Nat := (List.range 8).foldl (fun c _ => crc32cBit c) (c ^^^ b.toNat)

/-- The register after more bytes. The match has each step's value before the next, so that evaluating it does not nest. -/
def crc32cFrom (c : Nat) : List Byte → Nat
  | [] => c
  | b :: bs =>
    match crc32cByte c b with
    | 0 => crc32cFrom 0 bs
    | n + 1 => crc32cFrom (n + 1) bs

/-- CRC-32C (Castagnoli) of some bytes. -/
def crc32c (bs : List Byte) : Nat := crc32cFrom 0xFFFFFFFF bs ^^^ 0xFFFFFFFF

/-- The bytes 0 to 59 of a billet's header. -/
def Billet.head (b : Billet) (log : BitVec 32) : List Byte :=
  natLe 4 log.toNat ++ natLe 2 b.seg ++ natLe 2 (natOfBool b.isSealed + 2 * natOfBool b.lastRel) ++ natLe 4 b.ftok.toNat ++
    natLe 4 b.first.toNat ++ natLe 2 b.recs.length ++ natLe 2 b.used ++ natLe 8 b.stamp.toNat ++ List.replicate 32 0

/-- A billet's header and the bytes of its record area in use. -/
def Billet.bytes (b : Billet) (log : BitVec 32) : List Byte :=
  let area := b.recs.flatMap Rec.bytes
  b.head log ++ natLe 4 (crc32c (b.head log ++ area)) ++ area

/-- The records in some bytes of a record area; none when a header does not hold together. -/
def recsOf : Nat → List Byte → Option (List Rec)
  | _, [] => some []
  | 0, _ => none
  | n + 1, bs =>
    let f := bytesNat bs 8 2
    let len := f % 2 ^ 11
    let kind := bytesNat bs 10 1
    if bs.length < 16 + pad8 len || 4 ≤ kind then none
    else
      let r : Rec := ⟨keyOf (f / 2 ^ 11 % 4) (bytesNat bs 0 8), (bs.drop 16).take len, Fin.ofNat 4 kind, bytesNat bs 11 1 % 2 = 1, 0,
        true, BitVec.ofNat 32 (bytesNat bs 12 4)⟩
      (recsOf n (bs.drop (16 + pad8 len))).map (r :: ·)

/-- HK of the release whose tail billet holds some records, where no release word says it: a billet's bytes do not carry it (log
entry 77). -/
def hkOf (rs : List Rec) : Fin 4 :=
  match rs.getLast? with
  | some r => if r.kind != 2 then 0 else if bytesNat r.data 6 2 = 0 then 1 else 2
  | none => 0

/-- A billet read from its bytes, with its log: none when its CRC does not match. -/
def billetOf (bs : List Byte) : Option (BitVec 32 × Billet) :=
  let used := bytesNat bs 18 2
  let area := (bs.drop 64).take used
  if bs.length < 64 + used || billetArea < used || crc32c (bs.take 60 ++ area) != bytesNat bs 60 4 then none
  else
    (recsOf 252 area).map fun rs =>
      (BitVec.ofNat 32 (bytesNat bs 0 4),
        { seg := bytesNat bs 4 2
          first := BitVec.ofNat 32 (bytesNat bs 12 4)
          area := none
          isSealed := bitOf (bytesNat bs 6 2) 0
          lastRel := bitOf (bytesNat bs 6 2) 1
          ftok := BitVec.ofNat 32 (bytesNat bs 8 4)
          stamp := BitVec.ofNat 64 (bytesNat bs 20 8)
          recs := rs
          used := used
          closed := true
          spilled := true
          compacted := false
          shipped := false
          replayed := false
          hk := hkOf rs
          pool := true
          bad := false })

/-! ### The log area (R111, R386) -/

/-- Base of a region's log area: LAREA of its control block. -/
def State.logArea (s : State) (reg : Nat) : Nat := s.rcb reg 136 8 % 2 ^ 40 / 4096 * 4096

/-- Where the next billet of a log will stand in the log area of its region: the lowest 4 KiB slot that no billet of the region has
(log entry 78). A die control core's log has no region and no area. -/
def State.nextArea (s : State) (g : LogSt) : Option Nat :=
  if g.budget then
    let mine := (s.logs.filter fun x => x.budget && x.region = g.region && x.num != g.num).flatMap (·.bills) ++ g.bills
    let used := mine.filterMap (·.area)
    let base := s.logArea g.region.toNat
    (leastFrom (fun i => !used.contains (base + 4096 * i)) 0 (used.length + 1)).map fun i => base + 4096 * i
  else none

/-- Write a billet into its place in the log area. -/
def State.writeBillet (s : State) (log : BitVec 32) (b : Billet) : State :=
  match b.area with
  | some a => s.devStore a (b.bytes log)
  | none => s

/-- A billet as a reader finds it (R109): from the log buffer, or from the log area, where the CRC is checked; a billet that fails
there is fetched from the log home when it has been shipped. None: no good copy. -/
def State.fetchBillet (s : State) (log : BitVec 32) (b : Billet) : Option Billet :=
  match b.area with
  | some a =>
    if b.bad then none
    else if !b.spilled then some b
    else
      let raw := s.devBytes a (64 + b.used)
      if raw = b.bytes log && !s.anyPois a (64 + b.used) then some b
      else
        match (if s.anyPois a (64 + b.used) then none else billetOf raw) with
        | some (_, c) => some { b with recs := c.recs }
        | none => if b.shipped then some b else none
  | none => if b.bad then none else some b

/-- Why a record or a release cannot take its billet now. -/
inductive NoBillet where
  | full | busy
  deriving DecidableEq, Repr

/-- May the log allocate another billet (R111)? busy: no slot of the 16 is free, because spilling is behind. -/
def State.billetCheck (s : State) (g : LogSt) : Option NoBillet :=
  if 16 ≤ (g.bills.filter fun b => !b.spilled).length then some .busy
  else if 65535 ≤ g.bills.length then some .full
  else if g.budget && !s.grantable g.region.toNat .log 4096 then some .full
  else none

/-- Allocate the next billet of a log, closing the open one. -/
def State.newBillet (s : State) (g : LogSt) (ftok : BitVec 32) : Except NoBillet (State × LogSt) :=
  match s.billetCheck g with
  | some e => .error e
  | none =>
    let s := if g.budget then s.charge g.region.toNat .log 4096 else s
    let b : Billet := {
      seg := g.bills.length
      first := g.nrec
      area := s.nextArea g
      isSealed := false
      lastRel := false
      ftok := ftok
      stamp := 0
      recs := []
      used := 0
      closed := false
      spilled := false
      compacted := false
      shipped := false
      replayed := false
      hk := 0
      pool := false
      bad := false }
    .ok (s, { g with bills := (g.bills.map fun x => { x with closed := true }) ++ [b] })

/-- The open billet, when it has room for n bytes more. -/
def LogSt.openFor (g : LogSt) (n : Nat) : Bool :=
  match g.bills.getLast? with
  | some b => !b.isSealed && !b.closed && decide (b.used + n ≤ billetArea)
  | none => false

def LogSt.mapLast (g : LogSt) (f : Billet → Billet) : LogSt :=
  match g.bills.getLast? with
  | some b => { g with bills := g.bills.dropLast ++ [f b] }
  | none => g

def LogSt.push (g : LogSt) (r : Rec) : LogSt :=
  { (g.mapLast fun b => { b with recs := b.recs ++ [{ r with rseq := g.nrec }], used := b.used + r.size }) with nrec := g.nrec + 1 }

def State.appendTo (s : State) (g : LogSt) (ftok : BitVec 32) : List Rec → Except NoBillet (State × LogSt)
  | [] => .ok (s, g)
  | r :: rs =>
    if g.openFor r.size then s.appendTo (g.push r) ftok rs
    else
      match s.newBillet g ftok with
      | .error e => .error e
      | .ok (s, g) => s.appendTo (g.push r) ftok rs

/-- The byte that a load would find in the package view now, none where it is poisoned. -/
def State.viewNow (s : State) (a : Nat) : Option Byte :=
  if s.linePois a then none
  else if spaceOf a = 1 then
    some (if s.vlines.contains (a / 64) || (keyAt s.vkeys a).higher (keyAt s.keys a) then s.view.get a else s.mem.get a)
  else some (s.devByte a)

/-- Does a record meet some bytes of RC pages? -/
def Rec.meets (r : Rec) (p : Part) : Bool :=
  p.kind = .rc && decide (p.addr < r.addr + r.data.length) && decide (r.addr < p.addr + p.len)

/-- The bytes of some parts, on RC pages, as the view has them now: those that pass a test and are not the step's own already. -/
def State.pinned (s : State) (ps : List Part) (own : List (Nat × Byte)) (want : Nat → Bool) : List (Nat × Byte) :=
  (ps.filter fun p => p.kind = .rc).flatMap fun p =>
    ((List.range p.len).map (p.addr + ·)).filterMap fun a =>
      if want a && own.all fun e => e.1 != a then (s.viewNow a).map fun b => (a, b) else none

/-- A load issued before a store to the same bytes takes nothing from it (R113, R128): an element that the record meets keeps what
the view has now, whole, so that it is never a mix of two writes (R132). -/
def State.pinElem (s : State) (r : Rec) (own : List (Nat × Byte)) (ps : List Part) : List (Nat × Byte) :=
  if ps.any r.meets then s.pinned ps own fun _ => true else []

/-- A load of the step that is still outstanding when a record is appended; a tile load by aligned 8-byte words. -/
def State.pinLoad (s : State) (r : Rec) (a : Acc) : Acc :=
  match a.kind with
  | .load size sx elems own => { a with kind := .load size sx elems (own ++ elems.flatMap (s.pinElem r own)) }
  | .loadTile byte ps own =>
    let hit (a : Nat) : Bool := decide (a / 8 * 8 < r.addr + r.data.length) && decide (r.addr < a / 8 * 8 + 8)
    { a with kind := .loadTile byte ps (own ++ if ps.any r.meets then s.pinned ps own hit else []) }
  | _ => a

/-- Outstanding loads of the core in focus when some records are appended. -/
def State.pinLoads (s : State) (rs : List Rec) : State :=
  { s with core := { s.core with accs := s.core.accs.map fun a => rs.foldl (fun a r => s.pinLoad r a) a } }

/-- Does a copy command that has begun read memory? -/
def CCmd.reading (m : CCmd) : Bool := m.begun && !m.done && m.op != .cfill && m.op != .draft

/-- The begun copy commands of the core in focus when another instruction's or command's records are appended: they read on what the
view has now (R131). The oldest pin of a byte stands first. -/
def State.pinCopies (s : State) (rs : List Rec) : State :=
  if s.core.copy.any CCmd.reading then
    let pins (m : CCmd) : List (Nat × Byte) := (rs.filter fun r => !(r.ce && r.tag = m.tag)).flatMap fun r =>
      ((List.range r.data.length).map (r.addr + ·)).filterMap fun a => (s.viewNow a).map fun b => (a, b)
    { s with core := { s.core with
        copy := s.core.copy.map fun (m : CCmd) => if m.reading then { m with pins := m.pins ++ pins m } else m } }
  else s

/-- Append records to the log of the step of the core in focus. Nothing is appended when a billet cannot be had. -/
def State.appendRecs (s : State) (rs : List Rec) : Except NoBillet State :=
  match s.core.ctx, s.log? s.logNum with
  | some x, some g =>
    match s.appendTo g x.ftok rs with
    | .error e => .error e
    | .ok (s, g) => .ok (((s.pinLoads rs).pinCopies rs).setLog g)
  | _, _ => .ok s

/-! ### Reading one's own writes (R113) -/

/-- (address, byte) of a record, as overlayOwn takes them. -/
def Rec.cells (r : Rec) : List (Nat × Byte) := r.data.zipIdx.map fun (b, i) => (r.addr + i, b)

/-- The bytes of [a, a + n) that the step's own log has written, the newest record first. -/
def State.ownBytes (s : State) (ps : List Part) : List (Nat × Byte) :=
  match s.log? s.logNum with
  | none => []
  | some g =>
    let hit (r : Rec) : Bool := r.vis && (r.kind = 0 || r.kind = 1 || r.kind = 3) &&
      ps.any fun p => p.kind = .rc && decide (p.addr < r.addr + r.data.length) && decide (r.addr < p.addr + p.len)
    ((g.bills.flatMap (·.recs)).filter hit).reverse.flatMap Rec.cells

/-- The records of a copy command become visible when it completes (R114). -/
def State.showCopy (s : State) (tag : BitVec 16) : State :=
  match s.log? s.logNum with
  | none => s
  | some g => s.setLog { g with bills := g.bills.map fun b =>
      { b with recs := b.recs.map fun r => if r.ce && r.tag = tag then { r with vis := true } else r } }

/-! ### Releases (R115 to R119) -/

/-- The bytes of a release word. -/
def RelWord.bytes (w : RelWord) : List Byte := natLe 8 w.stamp.toNat ++ natLe 8 w.hi.toNat

def relWordOf (bs : List Byte) : RelWord := ⟨BitVec.ofNat 64 (bytesNat bs 0 8), BitVec.ofNat 64 (bytesNat bs 8 8)⟩

def RelWord.log (w : RelWord) : BitVec 32 := w.hi.extractLsb' 0 32
def RelWord.tail (w : RelWord) : BitVec 16 := w.hi.extractLsb' 32 16
def RelWord.hk (w : RelWord) : Fin 4 := Fin.ofNat 4 (w.hi.extractLsb' 57 2).toNat
def RelWord.poolScope (w : RelWord) : Bool := w.hi.getLsbD 59

/-- The horizon record's data (R118). -/
def horizonData (hzn : List (BitVec 32 × BitVec 16)) (hcst : Option (BitVec 64)) : List Byte :=
  (match hcst with
    | some c => natLe 8 c.toNat
    | none => []) ++ hzn.flatMap fun e => natLe 4 e.1.toNat ++ natLe 2 e.2.toNat ++ [0, 0]

/-- The (log, tail) pairs of a horizon record (R120): with HK = 2 the first entry is a stamp. -/
def horizonPairs (hk : Fin 4) (bs : List Byte) : List (BitVec 32 × BitVec 16) :=
  let n := bs.length / 8
  ((List.range n).drop (if hk = 2 then 1 else 0)).map fun i =>
    (BitVec.ofNat 32 (bytesNat bs (8 * i) 4), BitVec.ofNat 16 (bytesNat bs (8 * i + 4) 2))

/-- Seal every unsealed billet with a stamp; the last is the tail. -/
def sealBills (stamp : BitVec 64) (hk : Fin 4) (pool : Bool) (bs : List Billet) : List Billet :=
  let n := bs.length
  bs.zipIdx.map fun (b, i) =>
    if b.isSealed then b
    else { b with isSealed := true, closed := true, stamp := stamp, pool := pool, lastRel := i + 1 = n,
                  hk := if i + 1 = n then hk else 0 }

/-- The stamp of a log's next release (R117): of FTIME, raised above the log's previous stamp, if there is one. No release has stamp
0, which means never released (log entry 79). -/
def nextStamp (ftime : BitVec 64) (g : LogSt) : BitVec 64 :=
  let s := mkStamp ftime (g.num.toNat % 65536)
  if g.stamp = 0 && s != 0 then s else raiseStamp s g.stamp

/-- Billets that were spilled before their release get its stamp in the log area too. -/
def State.restamp (s : State) (g : LogSt) : State :=
  g.bills.foldl (fun s b => if b.spilled && b.stamp = g.stamp then s.writeBillet g.num b else s) s

/-- Release the log of the step of the core in focus: seal (R116, R117, R118). The word is the release's; the horizon record ends
the tail billet, and a release of no records has an empty billet for its tail (log entry 9). With HK 0 no type 2 record is written
(log entry 101). -/
def State.sealLog (s : State) (pool : Bool) : Except NoBillet (State × RelWord) :=
  match s.core.ctx, s.log? s.logNum with
  | some x, some g =>
    let data := horizonData x.hzn x.hcst
    let hk : Fin 4 := if x.hcst.isSome then 2 else if x.hzn.isEmpty then 0 else 1
    let hrec : Rec := ⟨0, data, 2, false, 0, true, 0⟩
    let need := if hk = 0 then 0 else hrec.size
    match (if g.openFor need then Except.ok (s, g) else s.newBillet g x.ftok) with
    | .error e => .error e
    | .ok (s, g) =>
      let hoff := match g.bills.getLast? with
        | some b => b.used / 8
        | none => 0
      let g := if hk = 0 then g else g.push hrec
      let stamp := nextStamp s.ftime g
      let tail := g.bills.length - 1
      let hi := g.num.toNat + tail * 2 ^ 32 + (if hk = 0 then 0 else hoff * 2 ^ 48) + hk.val * 2 ^ 57 + natOfBool pool * 2 ^ 59
      let g := { g with stamp := stamp, bills := sealBills stamp hk pool g.bills }
      .ok (((s.restamp g).setLog g).mapCtx fun x => { x with hcst := none }, ⟨stamp, BitVec.ofNat 64 hi⟩)
  | _, _ => .ok (s, ⟨0, 0⟩)

/-- Bytes of records not yet covered by a release (R220). -/
def LogSt.uncovered (g : LogSt) : Nat :=
  ((g.bills.filter fun b => !b.isSealed).flatMap (·.recs)).foldl (fun n r => n + r.size) 0

/-! ### Applying billets at their homes (R119, R123, R124) -/

def Billet.keyFor (b : Billet) (log : BitVec 32) (r : Rec) : Key := ⟨b.stamp, log, r.rseq⟩

/-- Records that target memory. -/
def Billet.data (b : Billet) : List Rec := b.recs.filter fun r => r.kind != 2

/-- Merge the records of a billet that lie in a space into their homes, in RSEQ order. -/
def State.applyHome (s : State) (log : BitVec 32) (b : Billet) (space : Nat) : State :=
  (b.data.filter fun r => spaceOf r.addr = space).foldl (fun s r =>
    s.homeMerge r.addr r.data (b.keyFor log r) true) s

def State.mapBillet (s : State) (log : BitVec 32) (seg : Nat) (f : Billet → Billet) : State :=
  { s with logs := s.logs.map fun g =>
      if g.num = log then { g with bills := g.bills.map fun b => if b.seg = seg then f b else b } else g }

def State.billet? (s : State) (log : BitVec 32) (seg : Nat) : Option Billet :=
  (s.log? log).bind fun g => g.bills.find? fun b => b.seg = seg

/-- A billet as a reader finds it; one without a good copy is marked bad. -/
def State.refetch (s : State) (log : BitVec 32) (b : Billet) : State × Option Billet :=
  let s := match b.area with
    | some a => if b.spilled then s.touch a (64 + b.used) else s
    | none => s
  match s.fetchBillet log b with
  | some c => (s, some c)
  | none => (s.mapBillet log b.seg fun b => { b with bad := true }, none)

/-- A closed or sealed billet goes to the log area (R111). -/
def State.spill (s : State) (log : BitVec 32) (seg : Nat) : State :=
  match s.billet? log seg with
  | none => s
  | some b =>
    if (b.closed || b.isSealed) && !b.spilled then
      (s.writeBillet log b).mapBillet log seg fun b => { b with spilled := true }
    else s

/-- COMPACTION of one sealed billet into local HBM (R123). -/
def State.compact (s : State) (log : BitVec 32) (seg : Nat) : State :=
  match s.billet? log seg with
  | none => s
  | some b =>
    if b.isSealed && !b.compacted then
      match s.refetch log b with
      | (s, some b) => (s.applyHome log b 0).mapBillet log seg fun b => { b with compacted := true }
      | (s, none) => s
    else s

/-- The nodes that a billet goes to: the log home when the step's record lies in pool memory, else every node that it targets
(R119). -/
def Billet.dests (b : Billet) (home : Nat) : List Nat :=
  if spaceOf home = 1 then [poolNode home]
  else ((b.data.filter fun r => spaceOf r.addr = 1).map fun r => poolNode r.addr).eraseDups

/-- Send a billet to the nodes that it goes to, which keep a status as its outcome. -/
def State.sendBillet (s : State) (log : BitVec 32) (b : Billet) (home st : Nat) : State :=
  (b.dests home).foldl (fun (s : State) n =>
    (s.send 0x07 n (if spaceOf home = 1 then paOf home else 0) (b.bytes log)).keepSent n st []) s

/-- Ship one sealed billet and apply it at every pool home it targets (R119). alone: it goes by itself, and not within its commit
(R422). -/
def State.ship (s : State) (log : BitVec 32) (seg home : Nat) (alone : Bool) : State :=
  match s.billet? log seg with
  | none => s
  | some b =>
    if b.isSealed && !b.shipped then
      match s.refetch log b with
      | (s, none) => s
      | (s, some b) =>
        ((if alone then s.sendBillet log b home 0 else s).applyHome log b 1).mapBillet log seg fun b => { b with shipped := true }
    else s

/-- Has every record of the billet reached its home? -/
def Billet.applied (b : Billet) : Bool :=
  (b.compacted || (b.data.all fun r => spaceOf r.addr != 0)) && (b.shipped || (b.data.all fun r => spaceOf r.addr != 1))

/-- The pairs in the horizon records of a log up to a tail. hk: what the release word of the billet at the tail says of its record,
where such a word is at hand (R115). -/
def LogSt.horizons (g : LogSt) (tail : Nat) (hk : Option (Fin 4)) : List (BitVec 32 × BitVec 16) :=
  (g.bills.filter fun b => b.isSealed && decide (b.seg ≤ tail)).flatMap fun b =>
    (b.recs.filter fun r => r.kind = 2).flatMap fun r => horizonPairs (if b.seg = tail then hk.getD b.hk else b.hk) r.data

/-- Free the billets of ended logs that are applied everywhere and whose horizons name no log with billets left
(R110, R112, log entry 10). -/
def State.reapLogs (s : State) : State :=
  let empty (n : BitVec 32) : Bool := (s.logs.all fun g => g.num != n || g.bills.isEmpty)
  let done (g : LogSt) : Bool := !g.live && !g.bills.isEmpty && (g.bills.all fun b => b.isSealed && b.applied) &&
    (g.horizons 65535 none).all fun e => e.1 = g.num || empty e.1
  s.logs.foldl (fun s g =>
    if done g then
      let s := if g.budget then s.uncharge g.region.toNat .log (4096 * g.bills.length) else s
      s.setLog { g with bills := [] }
    else s) s

/-! ### Shipping a release (R34, R119, R217) -/

/-- The token and the step count that the home of a record holds (R34). -/
def State.recToken (s : State) (pa : Nat) : Nat := s.devNat (pa + 60) 4
def State.recSteps (s : State) (pa : Nat) : Nat := s.devNat (pa + 56) 4

/-- The billets that a release covers. -/
def LogSt.covered (g : LogSt) (stamp : BitVec 64) : List Billet := g.bills.filter fun b => b.isSealed && b.stamp = stamp

/-- A flag whose home does not answer (R217, R428). -/
def State.flagDead (s : State) (r : RelSt) : Bool :=
  match r.flag with
  | some f => spaceOf f = 1 && !s.nodeUp (poolNode f)
  | none => false

/-- The status of shipping a release of the step of core ctx x: RERR of R217. -/
def State.shipStatus (s : State) (x : StepCtx) (r : RelSt) : Nat :=
  match s.log? r.log with
  | none => if s.flagDead r then 3 else 0
  | some g =>
    let bs := g.covered r.word.stamp
    let nodes := (bs.flatMap Billet.data).filterMap fun c => if spaceOf c.addr = 1 then some (poolNode c.addr) else none
    let pa := x.base.pa
    let dead := s.flagDead r || (r.pool && nodes.any fun n => !s.nodeUp n)
    if bs.any fun b => (s.fetchBillet r.log b).isNone then 4
    else if !r.pool then natOfBool dead * 3
    else if x.base.isLocal then
      if r.commit && s.recToken pa != x.ftok.toNat then 1
      else if r.commit && s.recSteps pa != x.seq.toNat then 2
      else natOfBool dead * 3
    else if !s.nodeUp (poolNode pa) then 3
    else if x.ftok.toNat < s.recToken pa || (r.commit && s.recToken pa != x.ftok.toNat) then 1
    else if r.commit && s.recSteps pa != x.seq.toNat then 2
    else natOfBool dead * 3

/-- Ranges of pool bytes that a release writes when its homes apply it: what its billets target, and its record when it commits. -/
def State.relRanges (s : State) (x : StepCtx) (r : RelSt) : List (Nat × Nat) :=
  if r.pool then
    (match s.log? r.log with
      | some g => ((g.covered r.word.stamp).flatMap Billet.data).map fun c => (c.addr, c.data.length)
      | none => []) ++ (if r.commit then [(x.base.pa, 64)] else [])
  else []

/-- Recall what a release of the step of the core in focus will write (R105); true when its homes may apply it. A release that will
fail recalls nothing. -/
def State.relRecall (s : State) (r : RelSt) : State × Bool :=
  match s.core.ctx with
  | none => (s, true)
  | some x => if s.shipStatus x r = 0 then s.recallPages (poolPages (s.relRanges x r)) true else (s, true)

/-- Put a release's billets in the log area and the index, and apply them at every home (pool scope). Those of a commit at a log
home go within the commit. -/
def State.shipRelease (s : State) (r : RelSt) (home : Nat) : State :=
  match s.log? r.log with
  | none => s
  | some g =>
    (g.covered r.word.stamp).foldl (fun s b =>
      let s := s.spill r.log b.seg
      if r.pool then (s.ship r.log b.seg home (!(r.commit && spaceOf home = 1))).compact r.log b.seg else s) s

/-- The Step commit of a release: FTOKEN, STEPSEQ and the billets, the type 3 record among their records; the home keeps a status as
its outcome (R34, R422). -/
def State.sendCommit (s : State) (x : StepCtx) (r : RelSt) (st : Nat) : State :=
  let bs := ((s.log? r.log).map fun g => g.covered r.word.stamp).getD []
  let pa := x.base.pa
  (s.sendAt 0x08 pa (natLe 4 x.ftok.toNat ++ natLe 4 x.seq.toNat ++ bs.flatMap fun b => b.bytes r.log)).keepSentAt pa st []

/-- The record of a commit: STEPSEQ raised at the home, its release kept there, the holder cleared when the record says done (R34,
R122, R426). -/
def State.commitRecord (s : State) (x : StepCtx) (r : RelSt) : State :=
  let pa := x.base.pa
  let s := s.sendCommit x r 0
  let s := { s with commits := insertAt s.commits pa r.word }
  let s := s.devAtomic (pa + 56) (natLe 4 (x.seq.toNat + 1))
  if s.mem.nat pa 1 % 16 = 4 then { s with holders := s.holders.filter fun h => h.1 != pa } else s

/-- What a log home refuses was sent to it: the commit, or the release's billets (R119, R423). -/
def State.sendRefused (s : State) (x : StepCtx) (r : RelSt) (st : Nat) : State :=
  if !r.pool || spaceOf x.base.pa != 1 || 2 < st then s
  else if r.commit then s.sendCommit x r st
  else (((s.log? r.log).map fun g => g.covered r.word.stamp).getD []).foldl (fun s b => s.sendBillet r.log b x.base.pa st) s

/-- Write a release word to its flag at the flag's home, merged by R121 (R115, R214). -/
def State.writeFlag (s : State) (flag : Nat) (w : RelWord) : State := s.atomSend flag w.bytes true

/-- RELEASE_COMPLETE for the step of the core in focus: apply, publish, keep the status (R119, R217, R220). -/
def State.finishRelease (s : State) (r : RelSt) : State × Nat :=
  match s.core.ctx with
  | none => (s, 0)
  | some x =>
    let st := s.shipStatus x r
    let s := if st = 0 then
        let s := s.shipRelease r x.base.pa
        let s := if r.commit then s.commitRecord x r else s
        match r.flag with
        | some f => s.writeFlag f r.word
        | none => s
      else s.sendRefused x r st
    let s := s.mapCtx fun x => { x with
      lrel := r.word, lrstat := BitVec.ofNat 4 (st + natOfBool r.commit * 8)
      seq := if r.commit && st = 0 then x.seq + 1 else x.seq }
    (s, st)

/-! ### Acquires (R118, R120, R219) -/

/-- A log as an acquire finds it: the package's index, then the log home when the word is of pool scope. A log of another tenant is
not found (R218). -/
def State.findLog (s : State) (num : BitVec 32) (pool : Bool) (ten : Nat) : Option LogSt :=
  let mine (g : LogSt) : Bool := g.num = num && g.tenant.toNat = ten
  match s.logs.find? mine with
  | some g => some g
  | none => if pool then s.rlogs.find? mine else none

/-- The closure of a release word w: pairs reached, and logs not found in order. -/
def State.closureFrom (s : State) (w : RelWord) (ten : Nat) :
    Nat → List (BitVec 32 × BitVec 16) → List (BitVec 32 × BitVec 16) → List (BitVec 32) →
      List (BitVec 32 × BitVec 16) × List (BitVec 32)
  | 0, _, seen, miss => (seen, miss)
  | _, [], seen, miss => (seen, miss)
  | fuel + 1, e :: todo, seen, miss =>
    match s.findLog e.1 w.poolScope ten with
    | none => s.closureFrom w ten fuel todo (seen ++ [e]) (if miss.contains e.1 then miss else miss ++ [e.1])
    | some g =>
      let hk := if e = (w.log, w.tail) then some w.hk else none
      let new := ((g.horizons e.2.toNat hk).eraseDups.filter fun h => !(seen ++ e :: todo).contains h)
      s.closureFrom w ten fuel (todo ++ new) (seen ++ [e]) miss

def State.closure (s : State) (w : RelWord) (ten : Nat) : List (BitVec 32 × BitVec 16) × List (BitVec 32) :=
  let n := ((s.logs ++ s.rlogs).flatMap (·.bills)).length
  s.closureFrom w ten (32 * n + 2) [(w.log, w.tail)] [] []

/-- Replay one record into the package view (R120): local HBM is its own view. -/
def State.replayRec (s : State) (k : Key) (r : Rec) : State :=
  if spaceOf r.addr = 0 then s.homeMerge r.addr r.data k true
  else
    let (v, ks) := mergeBytes s.view s.vkeys r.addr r.data k
    { s with view := v, vkeys := ks }

/-- Note of some billets of a log that they are replayed. -/
def State.markReplayed (s : State) (log : BitVec 32) (segs : List Nat) : State :=
  let mark (x : LogSt) : LogSt := if x.num = log then
      { x with bills := x.bills.map fun b => if segs.contains b.seg then { b with replayed := true } else b }
    else x
  { s with logs := s.logs.map mark, rlogs := s.rlogs.map mark }

/-- Is a log one of this package's, by its number (R107)? -/
def State.ownLog (s : State) (num : BitVec 32) : Bool := num.toNat / 2 ^ 22 = s.podpos.toNat

/-- The records of a billet that this package replays: what another package wrote in its own local HBM lies nowhere here. -/
def State.replays (s : State) (log : BitVec 32) (b : Billet) : List Rec :=
  b.data.filter fun r => spaceOf r.addr != 0 || s.ownLog log

/-- Replay the billets of one log up to a tail, each once; true when one has no good copy. -/
def State.replayLog (s : State) (g : LogSt) (tail : Nat) : State × Bool :=
  let bs := g.bills.filter fun b => b.isSealed && decide (b.seg ≤ tail)
  let todo := bs.filter fun b => !b.replayed
  let (s, done) := todo.foldl (fun (p : State × List Nat) b =>
    match p.1.refetch g.num b with
    | (s, some b) => ((s.replays g.num b).foldl (fun s r => s.replayRec (b.keyFor g.num r) r) s, b.seg :: p.2)
    | (s, none) => (s, p.2)) (s, [])
  (s.markReplayed g.num done, decide (done.length < todo.length))

/-- The acquire's status word (R219). -/
def acqStatus (miss : List (BitVec 32)) (pois : Bool) : Word :=
  BitVec.ofNat 64 (natOfBool (!miss.isEmpty) + 2 * natOfBool pois + 256 * min miss.length 255 +
    65536 * (miss.headD 0).toNat)

/-- Keep the highest tail of each log (R118). -/
def addHorizon (h : List (BitVec 32 × BitVec 16)) (e : BitVec 32 × BitVec 16) : List (BitVec 32 × BitVec 16) :=
  if h.any fun x => x.1 = e.1 then h.map fun x => if x.1 = e.1 && x.2.toNat < e.2.toNat then e else x else h ++ [e]

/-- Settle the held logs, up to their held tails (log entry 102): what lies in local HBM is compacted, what a package-scope log
wrote in pool memory replayed into the view (R118, R123). -/
def State.settle (s : State) (hzn : List (BitVec 32 × BitVec 16)) : State :=
  hzn.foldl (fun s e =>
    match s.log? e.1 with
    | none => s
    | some g =>
      let s := (s.replayLog g e.2.toNat).1
      (g.bills.filter fun b => decide (b.seg ≤ e.2.toNat)).foldl (fun s b => s.compact g.num b.seg) s) s

/-- Replay the closure of a word in a tenant. The answer is the status word. -/
def State.replay (s : State) (w : RelWord) (ten : Nat) : State × Word :=
  let (pairs, miss) := s.closure w ten
  let (s, pois) := pairs.foldl (fun (p : State × Bool) e =>
    match p.1.findLog e.1 w.poolScope ten with
    | none => p
    | some g =>
      let (s, bad) := p.1.replayLog g e.2.toNat
      (s, p.2 || bad)) (s, false)
  (s, acqStatus miss pois)

/-- Invalidate the L1 of the core in focus. -/
def State.dropL1 (s : State) : State := { s with core := { s.core with l1 := [] } }

/-- HORIZON_COLLAPSE (R118): when a 33rd log would be added, settle the held ones and empty the horizon. The home-commit stamp is of
no log: its low 16 bits are 0 (DESIGN CHOICE, log entry 80). -/
def State.extendHorizon (s : State) (e : BitVec 32 × BitVec 16) : State :=
  match s.core.ctx with
  | none => s
  | some x =>
    if 32 ≤ x.hzn.length && x.hzn.all fun h => h.1 != e.1 then
      let s := s.settle x.hzn
      s.mapCtx fun x => { x with hzn := [e], hcst := some (mkStamp s.ftime 0) }
    else s.mapCtx fun x => { x with hzn := addHorizon x.hzn e }

/-- An acquire of a release word by the step of the core in focus (R120). -/
def State.acquire (s : State) (w : RelWord) : State × Word :=
  if w.stamp = 0 then (s, 0)
  else
    let (s, st) := s.replay w s.tenant
    (s.dropL1.extendHorizon (w.log, w.tail), st)

end Sys2Proof.Machine
end

