-- ==== Sys2Proof/Machine/Conts.lean ====
section
/-!
DEFINITION. Continuation records, their state changes and wake conditions; pending traps (R28 to R30, R223, R366, R385 to
R390).
-/

namespace Sys2Proof.Machine

/-! ### Records (R28) -/

def CState.code : CState → Nat
  | .free => 0
  | .ready => 1
  | .running => 2
  | .suspended => 3
  | .done => 4
  | .faulted => 5
  | .parked => 6

def CState.ofCode : Nat → CState
  | 1 => .ready
  | 2 => .running
  | 3 => .suspended
  | 4 => .done
  | 5 => .faulted
  | 6 => .parked
  | _ => .free

/-- Bytes 0 to 7. -/
def Cont.head (c : Cont) : List Byte :=
  natLe 8 (c.state.code + c.prio.val * 2 ^ 4 + c.region.toNat * 2 ^ 8 + c.depth.val * 2 ^ 24 + natOfBool c.first * 2 ^ 32 +
    natOfBool c.rollb * 2 ^ 33 + natOfBool c.affv * 2 ^ 34 + c.afftag.toNat * 2 ^ 48)

/-- Bytes 40 to 47. -/
def Cont.wake (c : Cont) : List Byte := natLe 8 (c.wkind.toNat + c.wopnd.toNat * 256)

/-- The 64 bytes of a record. -/
def Cont.bytes (c : Cont) : List Byte :=
  c.head ++ natLe 8 (c.codecap.toNat + c.argidx.toNat * 2 ^ 16) ++ natLe 4 c.pcl.toNat ++ natLe 4 c.pcc.toNat ++
    natLe 4 c.pcs.toNat ++ natLe 4 (c.secl.toNat + c.secdc.toNat * 2 ^ 12 + c.secds.toNat * 2 ^ 22) ++
    natLe 8 c.frame.toNat ++ c.wake ++ natLe 8 (natOfBool c.okind + c.origin.toNat / 64 * 64) ++
    natLe 4 c.stepseq.toNat ++ natLe 4 c.ftoken.toNat

/-- A continuation as its record's bytes give it, with no scheduling state yet. -/
def contOf (va pa : Nat) (ten : BitVec 16) (bs : List Byte) : Cont :=
  let f (off n lo w : Nat) : Nat := bitsOf (bytesNat bs off n) lo w
  { va := va, pa := pa, isLocal := spaceOf pa = 0, tenant := ten
    state := CState.ofCode (f 0 8 0 4), prio := Fin.ofNat 8 (f 0 8 4 3), region := BitVec.ofNat 16 (f 0 8 8 16)
    depth := Fin.ofNat 16 (f 0 8 24 4), first := bitOf (bytesNat bs 0 8) 32, rollb := bitOf (bytesNat bs 0 8) 33
    affv := bitOf (bytesNat bs 0 8) 34, afftag := BitVec.ofNat 16 (f 0 8 48 16)
    codecap := BitVec.ofNat 16 (f 8 8 0 16), argidx := BitVec.ofNat 48 (f 8 8 16 48)
    pcl := BitVec.ofNat 32 (f 16 4 0 32), pcc := BitVec.ofNat 32 (f 20 4 0 32), pcs := BitVec.ofNat 32 (f 24 4 0 32)
    secl := BitVec.ofNat 12 (f 28 4 0 12), secdc := BitVec.ofNat 10 (f 28 4 12 10), secds := BitVec.ofNat 10 (f 28 4 22 10)
    frame := BitVec.ofNat 57 (f 32 8 0 57), wkind := BitVec.ofNat 8 (f 40 8 0 8), wopnd := BitVec.ofNat 56 (f 40 8 8 56)
    okind := bitOf (bytesNat bs 48 8) 0, origin := BitVec.ofNat 64 (bytesNat bs 48 8 / 64 * 64)
    stepseq := BitVec.ofNat 32 (f 56 4 0 32), ftoken := BitVec.ofNat 32 (f 60 4 0 32)
    card := [], xyz := [], readyAt := 0, readyCk := 0, relw := none, joinw := none, firing := none, cmbWake := false
    raised := false, imgKib := 0, frmKib := 0, job := none, capten := none }

def State.cont? (s : State) (pa : Nat) : Option Cont := s.conts.find? fun c => c.pa = pa

/-- Keep a continuation in the scheduling state; a local record's home is told, as an atomic (R30). -/
def State.setCont (s : State) (c : Cont) : State :=
  let s := { s with conts := c :: s.conts.filter fun x => x.pa != c.pa }
  if c.isLocal then (s.devAtomic c.pa c.head).devAtomic (c.pa + 40) c.wake else s

/-- Drop a continuation from the scheduling state: free. -/
def State.freeCont (s : State) (c : Cont) : State :=
  let s := if c.isLocal then s.devAtomic c.pa ({ c with state := .free } : Cont).head else s
  { s with conts := s.conts.filter fun x => x.pa != c.pa }

/-- Ready continuations of a region. -/
def State.readyOf (s : State) (r : Nat) : List Cont := s.conts.filter fun c => c.state = .ready && c.region.toNat = r

/-- Make a continuation ready now (R30, R389: a ready set that was empty sets LASTDISP). -/
def State.makeReady (s : State) (c : Cont) : State :=
  let r := c.region.toNat
  let s := if (s.readyOf r).isEmpty then s.setRcb r 216 8 s.ftime.toNat else s
  s.setCont { c with state := .ready, readyAt := s.ftime, readyCk := s.cyc }

/-! ### The head of a region (R387, R390) -/

/-- Did a become ready before b? -/
def Cont.before (a b : Cont) : Bool :=
  decide (a.readyCk.toNat < b.readyCk.toNat) || (a.readyCk = b.readyCk && decide (a.va < b.va))

/-- ns that a continuation has been ready. -/
def State.waited (s : State) (k : Cont) : Nat := s.ftime.toNat - k.readyAt.toNat

/-- head(X). -/
def State.headOf (s : State) (r : Nat) : Option Cont :=
  let l := s.readyOf r
  match minBy Cont.before (l.filter fun k => decide (8 * s.ageq * 1000 < s.waited k)) with
  | some k => some k
  | none => minBy (fun a b => decide (b.prio < a.prio) || (a.prio = b.prio && a.before b)) l

/-- KiB of accumulators that a dispatch asks for. -/
def Cont.needKib (k : Cont) : Nat := if k.wkind = 5 || k.first || k.frame = 0 then 0 else k.frmKib

/-- Is the region over budget (R19): at a limit of its path for a resource that its next dispatch needs? -/
def State.overBudget (s : State) (r : Nat) : Bool :=
  let kib := ((s.headOf r).map Cont.needKib).getD 0
  !s.grantable r .cores 1 || (kib != 0 && !s.grantable r .acc 1)

/-! ### Wake conditions (R29, R30) -/

/-- A device read of n bytes at a virtual address of a tenant, at the home: none when it cannot be read. -/
def State.peek (s : State) (ten va n : Nat) : State × Option (List Byte) :=
  match s.devRange ten va n .read with
  | (s, .error _) => (s, none)
  | (s, .ok ps) =>
    let (s, bs) := s.readWith State.viewPart (ps.map (·.part))
    (s, if bs.any (·.2) then none else some (bs.map (·.1)))

/-- The bytes that such a read would return now. -/
def State.peekVa (s : State) (ten va n : Nat) : Option (List Byte) := (s.peek ten va n).2

/-- Does the wake condition of a suspended continuation hold? -/
def State.wakeHolds (s : State) (c : Cont) : Bool :=
  match c.wkind.toNat with
  | 0 => true
  | 1 => s.waits.all fun w => w.crec != some c.pa
  | 2 => c.cmbWake
  | 3 =>
    match s.peekVa c.tenant.toNat c.wopnd.toNat 8 with
    | some bs => bitOf (leNat bs) 63
    | none => false
  | _ => false

/-- Has the wait table of a word's home slice no free entry (R223)? How many entries it has is not given (log entry 81). -/
def State.waitsFull (s : State) (a : Nat) : Bool :=
  Config.waitFull (bitsOf a 8 8) (s.waits.filter fun w => bitsOf w.addr 8 8 = bitsOf a 8 8).length

/-- Register a watch for a continuation at the home of the word: it stays only while the word equals the comparand. In a full table
it is registered as already fired. -/
def State.armWatch (s : State) (pa : Nat) (w : Watch) : State :=
  if w.fired || s.waitsFull w.addr then s
  else State.fireWatches { s with waits := s.waits ++ [⟨w.addr, w.cmp, some pa, s.cid⟩] }

/-! ### Pending traps (R366, R370) -/

/-- A trap of a cause with every other field zero. -/
def Trap.of (c : Cause) : Trap where
  cause := c
  inHnd := false
  word := 0
  defd := false
  eng := false
  mtx := false
  tag := 0
  info := 0
  ipc := 0
  data := 0
  fva := 0
  aux := 0
  slp := none
  srec := []
  fill := []
  fillQ := []
  seq := 0

/-- Add a pending trap to a stream of the core in focus, raised inside its handler or not (R374). -/
def State.pendOn (s : State) (k : Strm) (t : Trap) : State :=
  let x := s.core.strm k
  { s with core := s.core.setStrm k { x with pend := x.pend ++ [{ t with inHnd := x.hnd }] } }

/-- The deferred trap of an access. -/
def Acc.trap (a : Acc) (c : Cause) (info : Nat) (aux : Word) (fill fillQ : List Nat) : Trap :=
  { Trap.of c with
    defd := true
    word := a.word
    ipc := a.ipc
    info := BitVec.ofNat 32 info
    aux := aux
    fill := fill
    fillQ := fillQ
    seq := a.id }

end Sys2Proof.Machine
end

