-- ==== Sys2Proof/Machine/Jobs.lean ====
section
/-!
DEFINITION. Job cards, traversal, dealing and completion; free records of a continuation area (R22 to R28, R36, R37, R388).
-/

namespace Sys2Proof.Machine

/-! ### Job cards (R22) -/

/-- Bits [lo + w - 1 : lo] of the number that starts at a byte of a card. -/
def cardF (card : List Byte) (off lo w : Nat) : Nat := bitsOf (bytesNat card off 8) lo w

def cardRegion (c : List Byte) : Nat := cardF c 0 16 16
def cardDepth (c : List Byte) : Nat := cardF c 0 36 4
def cardDimX (c : List Byte) : Nat := cardF c 40 0 24
def cardDimY (c : List Byte) : Nat := cardF c 44 0 24
def cardDimZ (c : List Byte) : Nat := cardF c 48 0 24
def cardGroups (c : List Byte) : Nat := cardDimX c * cardDimY c * cardDimZ c
def cardArgSize (c : List Byte) : Nat := cardF c 32 0 16
def cardArgCount (c : List Byte) : Nat := cardF c 36 0 32
def cardFStride (c : List Byte) : Nat := cardF c 52 0 32
def cardFBase (c : List Byte) : Nat := cardF c 56 0 57
def cardCursor (c : List Byte) : Nat := cardF c 96 0 48
def cardLive (c : List Byte) : Nat := cardF c 104 0 32
def cardJState (c : List Byte) : Nat := cardF c 108 0 3
def cardNDone (c : List Byte) : Nat := cardF c 112 0 48
def cardNFault (c : List Byte) : Nat := cardF c 112 48 8
def cardSpRel (c : List Byte) : RelWord := relWordOf (c.drop 80)

/-- The reserved fields of a card are zero. -/
def cardReservedOk (c : List Byte) : Bool :=
  cardF c 0 35 1 = 0 && cardF c 0 47 1 = 0 && cardF c 0 58 6 = 0 && cardF c 40 24 8 = 0 && cardF c 44 24 8 = 0 &&
    cardF c 48 24 8 = 0 && cardF c 56 57 7 = 0 && cardF c 96 48 16 = 0 && cardF c 108 3 29 = 0 && cardF c 112 56 8 = 0 &&
    cardF c 120 0 64 = 0

/-- The checks of R23. -/
def cardOk (c : List Byte) (host : Bool) : Bool :=
  let k := cardF c 0 48 8
  let mn := cardF c 20 0 16
  let mx := cardF c 22 0 16
  let sz := cardArgSize c
  decide (cardGroups c < 2 ^ 48) && decide (cardF c 0 42 5 ≤ 24) && k != 0 && mn != 0 && decide (mn ≤ mx) &&
    decide (8 ≤ sz) && decide (sz ≤ 4096) && sz % 8 = 0 &&
    (cardArgCount c = 1 || decide (cardGroups c ≤ cardArgCount c)) && decide (cardDepth c ≤ 8) && cardReservedOk c &&
    (!host || (bytesNat c 80 16 = 0))

/-! ### Traversal (R25, R26) -/

/-- One step of the Hilbert mapping: side so far, point, rest of the index. -/
def hilbertFrom : Nat → Nat → Nat → Nat → Nat → Nat × Nat
  | 0, _, x, y, _ => (x, y)
  | f + 1, s, x, y, rem =>
    let rx := (rem / 2) % 2
    let ry := (rem + rx) % 2
    let (x, y) := if ry = 0 then
        let (x, y) := if rx = 1 then (s - 1 - x, s - 1 - y) else (x, y)
        (y, x)
      else (x, y)
    hilbertFrom f (2 * s) (x + s * rx) (y + s * ry) (rem / 4)

def hilbertPoint (k d : Nat) : Nat × Nat := hilbertFrom k 1 0 0 d

/-- The even bits of m, packed. -/
def evenBits : Nat → Nat → Nat
  | 0, _ => 0
  | f + 1, m => m % 2 + 2 * evenBits f (m / 4)

/-- The least k with 2^k ≥ n. -/
def log2Up (n : Nat) : Nat := if n ≤ 1 then 0 else Nat.log2 (n - 1) + 1

/-- The p-th index whose point passes, from index m. -/
def nthPoint (pt : Nat → Nat × Nat) (inside : Nat × Nat → Bool) : Nat → Nat → Nat → Nat × Nat
  | 0, _, _ => (0, 0)
  | f + 1, p, m =>
    if inside (pt m) then (if p = 0 then pt m else nthPoint pt inside f (p - 1) (m + 1)) else nthPoint pt inside f p (m + 1)

/-- Position p of a plane of width w and height h, by order code. -/
def planePoint (order w h p : Nat) : Nat × Nat :=
  let inside (q : Nat × Nat) : Bool := decide (q.1 < w) && decide (q.2 < h)
  let k := max (log2Up w) (log2Up h)
  match order with
  | 0 => (p % w, p / w)
  | 1 => (p / h, p % h)
  | 2 => nthPoint (fun m => (evenBits 32 m, evenBits 32 (m / 2))) inside (4 ^ k) p 0
  | _ => nthPoint (hilbertPoint k) inside (4 ^ k) p 0

/-- The group at a traversal position: (x, y, z). -/
def cardGroupAt (c : List Byte) (pos : Nat) : Nat × Nat × Nat :=
  let swz := cardF c 0 42 5
  let order := cardF c 0 40 2
  let w := if swz = 0 then cardDimX c else 2 ^ swz
  let perFull := w * cardDimY c * cardDimZ c
  let b := pos / perFull
  let wb := min w (cardDimX c - b * w)
  let plane := wb * cardDimY c
  let r := pos % perFull
  let (xl, y) := planePoint order wb (cardDimY c) (r % plane)
  (b * w + xl, y, r / plane)

/-! ### Free records of a continuation area (R28) -/

/-- The first usable free record from index i: its virtual and key addresses. Unusable slots, which do not translate or whose read
returns poison, also because their node does not answer (R428), are skipped with an ash record. -/
def State.findRecord (s : State) (ten carea : Nat) : Nat → Nat → State × Option (Nat × Nat)
  | 0, _ => (s, none)
  | fuel + 1, i =>
    let va := carea + 64 * i
    match s.devRange ten va 64 .read with
    | (s, .error _) => (s.ashNote 16 5 0 0 ten 0 va []).findRecord ten carea fuel (i + 1)
    | (s, .ok ps) =>
      match ps with
      | p :: _ =>
        let pa := p.part.addr
        let s := if spaceOf pa = 0 then s.touch pa 64 else s
        let dead := (spaceOf pa = 1 && !s.nodeUp (poolNode pa)) || (spaceOf pa = 2 && !s.host.up)
        if p.part.pois || s.linePois pa || dead then (s.ashNote 16 5 0 0 ten 0 va []).findRecord ten carea fuel (i + 1)
        else if (s.cont? pa).isSome || (spaceOf pa = 0 && s.devNat pa 1 % 16 != 0) then s.findRecord ten carea fuel (i + 1)
        else (s, some (va, pa))
      | [] => s.findRecord ten carea fuel (i + 1)

/-- A free record of a region's continuation area. -/
def State.freeRecord (s : State) (r : Nat) : State × Option (Nat × Nat) :=
  s.findRecord (s.effTenant r) (s.rcb r 120 8 % 2 ^ 57) (s.rcb r 128 4) 0

/-- A new continuation of a card in a record, in state ready (R27, R295): the record is written at its home, in pool memory too,
where a package that it is reassigned to reads it (R41). ct: the tenant of a host launch's capabilities (R388). -/
def State.newCont (s : State) (card : List Byte) (r va pa prio depth : Nat) (xyz : List Nat) (arg frame origin : Nat)
    (firing : Option Firing) (job : Option (BitVec 16 × Nat)) (ct : Option (BitVec 16)) : State :=
  let old := s.devBytes (pa + 56) 8
  let c : Cont := {
    va := va, pa := pa, isLocal := spaceOf pa = 0, tenant := BitVec.ofNat 16 (s.effTenant r), state := .ready
    prio := Fin.ofNat 8 prio, region := BitVec.ofNat 16 r, depth := Fin.ofNat 16 depth, first := true, rollb := false
    affv := cardF card 0 57 1 = 1, afftag := BitVec.ofNat 16 (cardF card 34 0 16), codecap := BitVec.ofNat 16 (cardF card 0 0 16)
    argidx := BitVec.ofNat 48 arg, pcl := BitVec.ofNat 32 (cardF card 8 0 32), pcc := BitVec.ofNat 32 (cardF card 12 0 32)
    pcs := BitVec.ofNat 32 (cardF card 16 0 32), secl := 0xFFF, secdc := 0, secds := 0, frame := BitVec.ofNat 57 frame
    wkind := 0, wopnd := 0, okind := false, origin := BitVec.ofNat 64 (origin / 64 * 64)
    stepseq := BitVec.ofNat 32 (bytesNat old 0 4), ftoken := BitVec.ofNat 32 (bytesNat old 4 4), card := card, xyz := xyz
    readyAt := s.ftime, readyCk := s.cyc, relw := none, joinw := none, firing := firing, cmbWake := false, raised := false
    imgKib := 0, frmKib := 0, job := job, capten := ct }
  let s := if c.isLocal || (spaceOf pa = 1 && s.nodeUp (poolNode pa)) then s.devAtomic pa c.bytes else s
  s.makeReady c

/-! ### Pending-launch pools (R36, R388) -/

def State.slotAddr (s : State) (r slot : Nat) : Nat := s.rcb r 144 8 % 2 ^ 40 + 128 * slot

def State.slotCard (s : State) (r slot : Nat) : List Byte := s.devBytes (s.slotAddr r slot) 128

/-- The device reads a region's blocks and a slot of its pool. -/
def State.touchSlot (s : State) (r slot : Nat) : State := (s.touchPath r).touch (s.slotAddr r slot) 128

def State.setSlot (s : State) (r slot off n v : Nat) : State :=
  s.devStore (s.slotAddr r slot + off) (natLe n v)

def State.job? (s : State) (r slot : Nat) : Option Job := s.jobs.find? fun j => j.region = r && j.slot = slot

def State.setJob (s : State) (j : Job) : State :=
  { s with jobs := j :: s.jobs.filter fun x => !(x.region = j.region && x.slot = j.slot) }

/-- The lowest free slot of a region's pool of 4,096. -/
def State.freeSlot (s : State) (r : Nat) : Option Nat := leastFrom (fun i => (s.job? r i).isNone) 0 4096

/-- Put a card into a slot: PLUSED rises by 1. -/
def State.placeCard (s : State) (r slot : Nat) (ten : BitVec 16) (card : List Byte) (host : Bool) : State :=
  let s := s.devStore (s.slotAddr r slot) (card.take 128)
  (s.setRcb r 194 2 ((s.rcb r 194 2 + 1) % 8192)).setJob ⟨r, slot, ten, [], none, none, 0, host, 0⟩

/-! ### Dealing (R27) -/

/-- Cores that run continuations of a job card now. -/
def State.jobCores (s : State) (r slot : Nat) : Nat :=
  (s.conts.filter fun c => c.state = .running && c.job = some (BitVec.ofNat 16 r, slot)).length

/-- A continuation of the card that has never been dispatched. -/
def State.undealt (s : State) (r slot : Nat) : Bool :=
  s.conts.any fun c => c.job = some (BitVec.ofNat 16 r, slot) && c.state = .ready && c.first && !c.rollb && c.wkind != 5

/-- Create the continuations of positions cursor to cursor + n - 1, as long as records are free; how many were made. -/
def State.dealFrom (s : State) (r slot : Nat) (card : List Byte) (ct : Option (BitVec 16)) (cursor : Nat) : Nat → State × Nat
  | 0 => (s, 0)
  | n + 1 =>
    match s.freeRecord r with
    | (s, none) => (s, 0)
    | (s, some (va, pa)) =>
      let (x, y, z) := cardGroupAt card cursor
      let g := x + cardDimX card * (y + cardDimY card * z)
      let frame := if cardFStride card = 0 then 0 else cardFBase card + g * cardFStride card
      let arg := if cardArgCount card = 1 then 0 else g
      let s := s.newCont card r va pa (cardF card 0 32 3) (cardDepth card) [x, y, z, g] arg frame (s.slotAddr r slot) none
        (some (BitVec.ofNat 16 r, slot)) ct
      let (s, k) := s.dealFrom r slot card ct (cursor + 1) n
      (s, k + 1)

/-- Reject a card (R37): its completion word is due with ERR. -/
def State.rejectCard (s : State) (r slot ecode : Nat) : State :=
  match s.job? r slot with
  | some j => s.setJob { j with ecode := ecode, rel := some ⟨0, 0⟩ }
  | none => s

/-- May the dispatcher start a new chunk of a slot (R27): every continuation of the chunk before has been dispatched, and the
region is not over budget? -/
def State.mayDeal (s : State) (r slot : Nat) : Bool := !s.undealt r slot && !s.overBudget r

/-- The size of the next chunk (R27). -/
def State.chunkSize (s : State) (r slot : Nat) (card : List Byte) : Nat :=
  let remaining := cardGroups card - cardCursor card
  let ka := cardF card 0 48 8 * max 1 (s.jobCores r slot)
  min remaining (max (cardF card 20 0 16) (min (cardF card 22 0 16) ((remaining + ka - 1) / ka)))

/-- Deal groups of the current chunk while records are free; the others of the chunk wait (R28, R388). -/
def State.dealSome (s : State) (j : Job) (card : List Byte) (n : Nat) : State :=
  let (s, k) := s.dealFrom j.region j.slot card (if j.host then some j.tenant else none) (cardCursor card) n
  let cur := cardCursor card + k
  let s := s.setSlot j.region j.slot 96 8 cur
  let s := s.setSlot j.region j.slot 104 4 (cardLive card + k)
  let s := s.setSlot j.region j.slot 108 4 (if cur = cardGroups card then 2 else 1)
  s.setJob { j with left := n - k }

/-- DEAL_CHUNK of a slot. A card of a region that has become malformed is rejected as a launch into it is, with ECODE 2, and its
slot freed (DESIGN CHOICE, log entry 82: R20 speaks of launches). -/
def State.dealChunk (s : State) (r slot : Nat) : State :=
  match s.job? r slot with
  | none => s
  | some j =>
    let s := s.touchSlot r slot
    let card := s.slotCard r slot
    if j.rel.isSome || 2 ≤ cardJState card then s
    else if !s.wellFormed r then s.rejectCard r slot 2
    else if !cardOk card false then s.rejectCard r slot 1
    else if s.fenced (s.effFdom r) then s
    else if j.left != 0 then s.dealSome j card (min j.left (cardGroups card - cardCursor card))
    else if s.mayDeal r slot then s.dealSome j card (s.chunkSize r slot card)
    else s

/-! ### Counting and completion (R30, R37) -/

/-- A continuation of the card has been freed, done or from faulted. -/
def State.countFreed (s : State) (c : Cont) (fault : Bool) (final : Option RelWord) : State :=
  match c.job with
  | none => s
  | some (r, slot) =>
    let r := r.toNat
    let card := s.slotCard r slot
    let s := s.setSlot r slot 104 4 (cardLive card - 1)
    let s := if fault then s.setSlot r slot 118 1 (min 255 (cardNFault card + 1)) else s.setSlot r slot 112 6 (cardNDone card + 1)
    match s.job? r slot, final with
    | some j, some w =>
      if w.stamp = 0 then s
      else if 32 ≤ j.hzn.length && j.hzn.all fun h => h.1 != w.log then
        let s := s.settle j.hzn
        s.setJob { j with hzn := [(w.log, w.tail)], hcst := some (mkStamp s.ftime 0) }
      else s.setJob { j with hzn := addHorizon j.hzn (w.log, w.tail) }
    | _, _ => s

/-- JOB_COMPLETE: CURSOR = G and LIVE = 0, so the device makes the completion release (R37). -/
def State.jobComplete (s : State) (r slot : Nat) : State :=
  match s.job? r slot with
  | none => s
  | some j =>
    let s := s.touchSlot r slot
    let card := s.slotCard r slot
    if j.rel.isSome || cardJState card != 2 || cardCursor card != cardGroups card || cardLive card != 0 then s
    else
      let pool := cardF card 0 56 1 = 1
      let (num, s) := s.openLog j.tenant.toNat r false
      let data := horizonData j.hzn j.hcst
      let hk : Fin 4 := if j.hcst.isSome then 2 else if j.hzn.isEmpty then 0 else 1
      let stamp := mkStamp s.ftime (num.toNat % 65536)
      let recs := if hk = 0 then [] else [(⟨0, data, 2, false, 0, true, 0⟩ : Rec)]
      let b : Billet := {
        seg := 0
        first := 0
        area := none
        isSealed := true
        lastRel := true
        ftok := 0
        stamp := stamp
        recs := recs
        used := recs.foldl (fun n x => n + x.size) 0
        closed := true
        spilled := true
        compacted := true
        shipped := pool
        replayed := true
        hk := hk
        pool := pool
        bad := false }
      let hi := num.toNat + hk.val * 2 ^ 57 + natOfBool pool * 2 ^ 59
      let g : LogSt := ⟨num, j.tenant, BitVec.ofNat 16 r, stamp, BitVec.ofNat 32 recs.length, [b], false, false⟩
      (s.setLog g).setJob { j with rel := some ⟨stamp, BitVec.ofNat 64 hi⟩ }

/-- ECODE of the word of a card that was dealt: 0, or 5 when the supervisor freed a faulted group of it, so that ERR is set (R37,
R323; log entry 83). -/
def freedCode (nfault : Nat) : Nat := if nfault = 0 then 0 else 5

/-- The completion word (R37). -/
def complWord (ndone nfault ecode : Nat) : Nat :=
  ndone + nfault * 2 ^ 48 + ecode * 2 ^ 56 + (if ecode = 0 then 0 else 2 ^ 62) + 2 ^ 63

/-- Write a completion word through COMPLCAP and COMPLOFF in a tenant's tables; false when it cannot be made. -/
def State.writeCompletion (s : State) (ten : Nat) (card : List Byte) (w : Nat) (rel : RelWord) : State × Bool :=
  match s.objWindow ten (cardF card 72 0 16) with
  | none => (s, false)
  | some win =>
    let off := cardF card 72 16 48
    if win.len < off + 8 || !win.perm.getLsbD permW then (s, false)
    else
      let va := win.vbase + off
      let bytes := natLe 8 w ++ (if va % 16 = 8 then rel.bytes else [])
      match s.devRange ten va bytes.length .write with
      | (s, .error _) => (s, false)
      | (s, .ok ps) =>
        if ps.any fun p => p.part.pois || s.anyPois p.part.addr p.part.len then (s, false)
        else
          (ps.foldl (fun (acc : State × List Byte) p =>
            (acc.1.atomSend p.part.addr (acc.2.take p.part.len) (p.part.kind = .rc), acc.2.drop p.part.len)) (s, bytes) |>.1, true)

/-- Free a slot: JSTATE 3 or 4, PLUSED falls by 1. -/
def State.freeJob (s : State) (r slot jstate : Nat) : State :=
  let s := s.setSlot r slot 108 4 jstate
  let s := s.setRcb r 194 2 (s.rcb r 194 2 - 1)
  { s with jobs := s.jobs.filter fun x => !(x.region = r && x.slot = slot) }

/-- COMPLETION_WORD_WRITE: once the completion release is made, or the card rejected (R37). -/
def State.completionWrite (s : State) (r slot : Nat) : State :=
  match s.job? r slot with
  | none => s
  | some j =>
    match j.rel with
    | none => s
    | some rel =>
      let card := s.slotCard r slot
      let w := if j.ecode = 0 then complWord (cardNDone card) (cardNFault card) (freedCode (cardNFault card)) else complWord 0 0 j.ecode
      let (s, ok) := s.writeCompletion j.tenant.toNat card w rel
      let s := if ok then s else s.ashNote 16 5 0 0 j.tenant.toNat r (cardF card 72 16 48) []
      s.freeJob r slot (if j.ecode = 0 then 3 else 4)

end Sys2Proof.Machine
end

