-- ==== Sys2Proof/Machine/Ricks.lean ====
section
/-!
DEFINITION. The rick units: configuration, enqueue, status, kick, firing and retirement (R291 to R302, R396, R397).
-/

namespace Sys2Proof.Machine

/-- A rick's configuration, read from its table entry (R396). -/
structure RickCfg where
  template : Nat
  f        : Nat
  b        : Nat
  a        : Nat
  tenant   : Nat
  limit    : Nat
  pcls     : Nat
  spln     : Nat
  splb     : Nat
  card     : List Byte
  deriving DecidableEq, Repr

/-- Are the entry's fields in range and its reserved bits zero (R396)? -/
def rickEntOk (e : Nat) : Bool :=
  let f := bitsOf e 64 10
  let b := bitsOf e 80 10
  bitsOf e 57 7 = 0 && bitsOf e 74 6 = 0 && bitsOf e 90 6 = 0 && bitsOf e 116 12 = 0 && bitsOf e 152 8 = 0 &&
    bitsOf e 177 15 = 0 && bitsOf e 232 24 = 0 && bitsOf e 192 5 = 0 && decide (1 ≤ f) && decide (f ≤ 512) && decide (1 ≤ b) && decide (b ≤ 512) &&
    decide (bitsOf e 96 20 ≤ 1000000) && decide (bitsOf e 160 17 ≤ 65536)

def State.rick (s : State) (r : Nat) : Rick := lookupD s.ricks r Rick.reset

def State.setRick (s : State) (r : Nat) (x : Rick) : State := { s with ricks := insertAt s.ricks r x }

/-- Records that a rick holds (R294): on the die, in the ring, and those lost with a changed ring, which .cnt still counts (R396).
-/
def Rick.count (x : Rick) : Nat := x.recs.length + x.spill.length + x.lost

/-- Records on the die (R293). -/
def rickDie : Nat := 512

/-! ### The spill ring (R293, R396) -/

/-- The supervisor has changed SPLB or SPLN under a ring that holds records: they are lost. -/
def Rick.checkRing (x : Rick) (base len : Nat) : Rick :=
  if x.spill.isEmpty then { x with ring := 0, rbase := base, rlen := len }
  else if x.rbase = base && x.rlen = len then x
  else { x with spill := [], ring := 0, rbase := base, rlen := len, lost := x.lost + x.spill.length }

/-- Where record j of the ring stands. -/
def Rick.ringAt (x : Rick) (j : Nat) : Nat := x.rbase + 32 * ((x.ring + j) % max 1 x.rlen)

/-- Put a record at the end of the ring: its 32 bytes into local HBM, its hidden values beside. -/
def State.pushRing (s : State) (x : Rick) (t : Token) : State × Rick :=
  let a := x.ringAt x.spill.length
  (s.devStore a (t.bytes.take 32), { x with spill := x.spill ++ [{ t with bytes := [] }] })

/-- Records return to the die in FIFO order while it has room. A poisoned line of the ring poisons the record's words. -/
def State.refillRick (s : State) (x : Rick) : Nat → Rick
  | 0 => x
  | n + 1 =>
    match x.spill with
    | [] => x
    | t :: rest =>
      if rickDie ≤ x.recs.length then x
      else
        let a := x.ringAt 0
        let back := { t with bytes := s.devBytes a 32, pois := if s.linePois a then [0, 1, 2, 3] else [] }
        s.refillRick { x with recs := x.recs ++ [back], spill := rest, ring := (x.ring + 1) % max 1 x.rlen } n

/-- Records arrive: on the die while it has room and the ring is empty, else in the ring. -/
def State.arriveAll (s : State) (x : Rick) : List Token → State × Rick
  | [] => (s, x)
  | t :: ts =>
    if x.spill.isEmpty && x.recs.length < rickDie then s.arriveAll { x with recs := x.recs ++ [t] } ts
    else
      let (s, x) := s.pushRing x t
      s.arriveAll x ts

/-- Read entry r: none acts as EN = 0. A template that cannot be read is told in an ash record. A ring that the entry moves loses
what it holds. -/
def State.rickCfg (s : State) (r : Nat) : State × Option RickCfg :=
  let s := s.touch (s.rkBase + 32 * r) 32
  let e := s.devNat (s.rkBase + 32 * r) 32
  if !bitOf e 144 || !rickEntOk e then (s, none)
  else
    let ten := bitsOf e 128 16
    match s.peek ten (bitsOf e 0 57) 128 with
    | (s, none) => (s.ashNote 16 5 0 (r / 128) ten 0 (bitsOf e 0 57) [], none)
    | (s, some card) =>
      let cfg : RickCfg := ⟨bitsOf e 0 57, bitsOf e 64 10, bitsOf e 80 10, bitsOf e 96 20, ten, bitsOf e 145 4 + 1, bitsOf e 149 3,
        bitsOf e 160 17, bitsOf e 192 40, card⟩
      let x := s.rick r
      let y := x.checkRing cfg.splb cfg.spln
      (if y = x then s else s.setRick r y, some cfg)

/-- What the home answers to an enqueue. -/
inductive EnqAns where
  | refused | full | ok (first : BitVec 32)
  deriving DecidableEq, Repr

/-- Enqueue records with a release word (R291, R293, R298). -/
def State.enqueue (s : State) (ten r : Nat) (recs : List (List Byte)) (w : RelWord) : State × EnqAns :=
  match s.rickCfg r with
  | (s, none) => (s, .refused)
  | (s, some cfg) =>
    if cfg.tenant != ten then (s, .refused)
    else
      let x := s.rick r
      let spill := x.count - x.lost + recs.length - rickDie
      let more := 32 * (spill - x.spill.length)
      let reg := cardRegion cfg.card
      if cfg.spln < spill || !s.grantable reg .rick more then (s, .full)
      else
        let s := if more = 0 then s else s.charge reg .rick more
        let (s, y) := s.arriveAll x (recs.map fun b => (⟨b, s.ftime, s.cyc, w, []⟩ : Token))
        (s.setRick r { y with enq := x.enq + BitVec.ofNat 32 recs.length }, .ok x.enq)

/-- FTIME minus the arrival of the head record, in ns; 0 when empty (R294). -/
def State.rickAge (s : State) (x : Rick) : Nat :=
  match x.recs with
  | [] => 0
  | t :: _ => (s.ftime - t.arrival).toNat

/-- XSTAT's values (R300). -/
def State.rickStat (s : State) (r : Nat) (cfg : RickCfg) (sel : Nat) : Nat :=
  let x := s.rick r
  match sel with
  | 0 => x.count
  | 1 => x.spill.length
  | 2 => s.rickAge x
  | 3 => x.inflt
  | 4 => x.enq.toNat
  | 5 => x.fired.toNat
  | 6 => x.taken.toNat
  | _ => cfg.f + cfg.b * 2 ^ 10 + (cfg.limit - 1) * 2 ^ 20 + cfg.pcls * 2 ^ 24 + natOfBool x.kicked * 2 ^ 27 + cfg.a * 2 ^ 32

/-- The lowest frame slot below LIMIT that no continuation holds. -/
def Rick.freeFrame (x : Rick) (limit : Nat) : Option Nat := leastFrom (fun k => !x.slots.contains k) 0 limit

def State.rickAged (s : State) (x : Rick) (cfg : RickCfg) : Bool := x.kicked || decide (cfg.a * 1000 < s.rickAge x)

/-- The records that a firing made now takes: at the head, at most B, none that arrived in this clock (R295). -/
def State.rickBatch (s : State) (x : Rick) (cfg : RickCfg) : Nat :=
  min (x.recs.takeWhile fun t => t.clock != s.cyc).length cfg.b

/-- The records of a rick without those that arrived in this clock, which no firing made now takes (R295). -/
def State.rickRipe (s : State) (x : Rick) : Nat := x.count - ((x.recs ++ x.spill).filter fun t => t.clock = s.cyc).length

/-- RICKBYTES that a firing of n records requests: those that return from the ring are charged already (R387). -/
def Rick.request (x : Rick) (n : Nat) : Nat := 32 * (n - min n x.spill.length)

/-- Eligibility (R294), by the records that a firing made now can take, and the fence of the template's region (R394). -/
def State.rickEligible (s : State) (r : Nat) (cfg : RickCfg) : Bool :=
  let x := s.rick r
  let reg := cardRegion cfg.card
  let n := s.rickBatch x cfg
  n != 0 && (decide (cfg.f ≤ s.rickRipe x) || s.rickAged x cfg) && decide (x.inflt < cfg.limit) &&
    (cardFStride cfg.card = 0 || (x.freeFrame cfg.limit).isSome) &&
    s.grantable reg .rick (x.request n) && s.wellFormed reg && !s.fenced (s.effFdom reg)

/-- Fires rick a before rick b (R294)? -/
def State.rickBefore (s : State) (a b : Nat × RickCfg) : Bool :=
  let xa := s.rick a.1
  let xb := s.rick b.1
  let aa := s.rickAged xa a.2
  let ab := s.rickAged xb b.2
  if aa && ab then decide (s.rickAge xb < s.rickAge xa) || (s.rickAge xa = s.rickAge xb && decide (a.1 < b.1))
  else if aa != ab then aa
  else
    let p := xa.count * b.2.f
    let q := xb.count * a.2.f
    decide (q < p) || (p = q && decide (a.1 < b.1))

/-- The rick of a die that fires next. -/
def State.rickPick (s : State) (die : Nat) : State × Option (Nat × RickCfg) :=
  let step (acc : State × List (Nat × RickCfg)) (r : Nat) : State × List (Nat × RickCfg) :=
    match acc.1.rickCfg r with
    | (s, none) => (s, acc.2)
    | (s, some cfg) => if s.rickEligible r cfg then (s, acc.2 ++ [(r, cfg)]) else (s, acc.2)
  let mine := (s.ricks.filter fun e => e.1 / 128 = die && !e.2.recs.isEmpty).map (·.1)
  let (s, l) := mine.foldl step (s, [])
  (s, minBy s.rickBefore l)

/-- Make the firing of a rick (R295); nothing happens while no record is free (R397). -/
def State.fireRick (s : State) (r : Nat) (cfg : RickCfg) : State :=
  let x := s.rick r
  let reg := cardRegion cfg.card
  match s.freeRecord reg with
  | (s, none) => s
  | (s, some (va, pa)) =>
    let n := s.rickBatch x cfg
    let batch := x.recs.take n
    let k := if cardFStride cfg.card = 0 then 0 else (x.freeFrame cfg.limit).getD 0
    let frame := if cardFStride cfg.card = 0 then 0 else cardFBase cfg.card + k * cardFStride cfg.card
    let slots := if cardFStride cfg.card = 0 then x.slots else k :: x.slots
    let left : Rick := { x with recs := x.recs.drop n, taken := x.taken + BitVec.ofNat 32 n, fired := x.fired + 1,
                                inflt := x.inflt + 1, kicked := false, slots := slots }
    let s := (List.range (min n x.spill.length)).foldl (fun (s : State) j => s.touch (x.ringAt j) 32) s
    let left := s.refillRick left n
    let s := s.charge reg .rick (32 * n)
    let s := s.uncharge reg .rick (32 * (x.spill.length - left.spill.length))
    let s := s.setRick r left
    let words := ((batch.map (·.word)).filter fun w => w.stamp != 0).eraseDups
    let f : Firing := ⟨r, n, x.fired.toNat, k, batch.map fun t => (t.bytes, t.pois), words, false, cardFStride cfg.card != 0⟩
    s.newCont cfg.card reg va pa cfg.pcls 0 [r, n, x.fired.toNat, k] 0 frame cfg.template (some f) none none

/-- Retire a firing: in flight falls by 1 (R302). -/
def State.retireFiring (s : State) (f : Firing) : State :=
  let x := s.rick f.rick
  if f.retired then s else s.setRick f.rick { x with inflt := x.inflt - 1 }

/-- The continuation of a firing is freed: the batch's charge and its frame slot go back (R293, R295, R302). -/
def State.freeFiring (s : State) (c : Cont) : State :=
  match c.firing with
  | none => s
  | some f =>
    let s := s.retireFiring f
    let s := s.uncharge c.region.toNat .rick (32 * f.n)
    let x := s.rick f.rick
    if f.framed then s.setRick f.rick { x with slots := x.slots.filter (· != f.slot) } else s

end Sys2Proof.Machine
end

