-- ==== Sys2Proof/Machine/Perform.lean ====
section
/-!
DEFINITION. Outstanding accesses: what each does when it is performed and completes, and the retirement of sections
(R53, R54, R130, R144, R207 to R219, R291, R298 to R304, R313).
-/

namespace Sys2Proof.Machine

/-! ### Sections retire (R130, R144) -/

/-- Pop the sections at the head that the stream has left and whose accesses are complete; the last gives RETIRED. -/
def retireFrom (busy : Nat → Bool) : List SecRec → BitVec 12 → List SecRec × BitVec 12
  | [], r => ([], r)
  | x :: l, r => if x.left && !busy x.serial then retireFrom busy l x.num else (x :: l, r)

/-- Sections retire; while HND is set, RETIRED stays at its value at entry (R372). -/
def Core.retire (c : Core) (k : Strm) : Core :=
  let x := c.strm k
  if x.hnd then c else
  let (secs, r) := retireFrom (fun n => c.accs.any fun a => a.strm = k && a.sec = n) x.secs x.retired
  c.setStrm k { x with secs := secs, retired := r }

/-! ### Writing results -/

/-- Fill result entries and queue entries, write scalars, of the stream of an access. -/
def Core.deliver (c : Core) (k : Strm) (d : ADst) (vals : List (Option Word)) : Core :=
  let v (i : Nat) : Option Word := (vals.getD i none)
  let x := c.strm k
  match d with
  | .none => c
  | .n j =>
    match v 0 with
    | some w => c.setStrm k (x.setN j w)
    | none => c
  | .pair lo hi =>
    let x := match lo, v 0 with
      | some j, some w => x.setN j w
      | _, _ => x
    let x := match hi, v 1 with
      | some j, some w => x.setN j w
      | _, _ => x
    c.setStrm k x
  | .entry i =>
    match v 0 with
    | some w => c.setStrm k (x.fill i w)
    | none => c
  | .entries i j =>
    let x := match v 0 with
      | some w => x.fill i w
      | none => x
    let x := match v 1 with
      | some w => x.fill j w
      | none => x
    c.setStrm k x
  | .ldq ids =>
    ids.zipIdx.foldl (fun c (id, i) =>
      match v i with
      | some w => { c with ldq := c.ldq.fill id w, sdq := c.sdq.fill id w }
      | none => c) c

/-- Entries of a destination that stay unfilled where there is no value. -/
def ADst.unfilled (d : ADst) (vals : List (Option Word)) : List Nat × List Nat :=
  let missing (i : Nat) : Bool := (vals.getD i Option.none).isNone
  match d with
  | .entry i => (if missing 0 then [i] else [], [])
  | .entries i j => ((if missing 0 then [i] else []) ++ (if missing 1 then [j] else []), [])
  | .ldq ids => ([], (ids.zipIdx.filter fun (_, i) => missing i).map (·.1))
  | _ => ([], [])

/-- Write p7 of an access, in what a handler saved when the access is older than the handler (R205, R372). -/
def Core.writeP7 (c : Core) (a : Acc) (b : Bool) : Core :=
  if !a.p7w then c
  else
    let x := c.strm a.strm
    if x.hnd && !a.hnd then c.setStrm a.strm { x with saved := x.saved.map fun z => { z with p := z.p.set 7 b } }
    else c.setStrm a.strm (x.setPred 7 b)

/-- The end of an access (R54): its slot falls, its section may retire. -/
def State.endAcc (s : State) (a : Acc) : State :=
  let c := { s.core with accs := s.core.accs.filter fun x => x.id != a.id }
  let c := c.setStrm a.strm ((c.strm a.strm).sbClear? a.slot)
  { s with core := c.retire a.strm }

/-- What an access gives: values, whether p7 is true, a trap with its INFO and AUX. -/
structure AccRes where
  vals : List (Option Word)
  ok   : Bool
  trap : Option (Cause × Nat × Word)
  deriving DecidableEq, Repr

/-- A clean end with values. -/
def accOk (vals : List Word) : AccRes := ⟨vals.map some, true, none⟩

/-- A failed atomic: its entry is filled with 0 in either form (R212). -/
def atomBad (pform : Bool) (info : Nat) (aux : Word) : AccRes :=
  ⟨[some 0], false, if pform then none else some (.poison, info, aux)⟩

/-- A failure: under .p zeros and p7 false, otherwise a trap and nothing written. -/
def accBad (pform : Bool) (zeros : List Word) (c : Cause) (info : Nat) (aux : Word) : AccRes :=
  if pform then ⟨zeros.map some, false, none⟩ else ⟨zeros.map fun _ => none, false, some (c, info, aux)⟩

/-- Deliver a result; a discarded access (rollback) writes nothing and raises nothing. -/
def State.finishAcc (s : State) (a : Acc) (r : AccRes) (discard : Bool) : State :=
  if discard then s.endAcc a
  else
    let c := (s.core.deliver a.strm a.dst r.vals).writeP7 a r.ok
    let s := ({ s with core := c } : State).endAcc a
    match r.trap with
    | none => s
    | some (cause, info, aux) =>
      let (f, q) := a.dst.unfilled r.vals
      s.pendOn a.strm (a.trap cause info aux f q)

/-! ### Loads -/

/-- Extend a value of size bytes (R207). -/
def extendBytes (size : Nat) (sx : Bool) (x : Nat) : Word :=
  let w := 8 * size
  if sx && bitOf x (w - 1) then BitVec.ofNat 64 (x % 2 ^ w + (2 ^ 64 - 2 ^ w)) else BitVec.ofNat 64 (x % 2 ^ w)

/-- Read one element with the step's own bytes over it: none for poison. -/
def State.loadElem (s : State) (ps : List Part) (own : List (Nat × Byte)) : State × Option Nat :=
  let (s, bs) := s.readWith State.readPart ps
  let bs := overlayOwn own ps bs
  (s, if bs.any (·.2) then none else some (leNat (bs.map (·.1))))

def State.loadElems (s : State) (size : Nat) (sx : Bool) (own : List (Nat × Byte)) :
    List (List Part) → State × List (Option Word)
  | [] => (s, [])
  | ps :: rest =>
    let (s, v) := s.loadElem ps own
    let (s, vs) := s.loadElems size sx own rest
    (s, v.map (extendBytes size sx) :: vs)

/-- LD.tile: bytes that are not poisoned go to the tile registers (R209). -/
def storeClean (m : Mem) (a : Nat) : List PByte → Mem
  | [] => m
  | (b, p) :: bs => storeClean (if p then m else m.put a b) (a + 1) bs

/-! ### Atomics and reductions at the home (R211 to R213) -/

/-- The number a pattern of w bits stands for, signed when S. -/
def asInt (w : Nat) (sgn : Bool) (x : Nat) : Int :=
  if sgn && bitOf x (w - 1) then ((x % 2 ^ w : Nat) : Int) - (2 ^ w : Nat) else ((x % 2 ^ w : Nat) : Int)

/-- new of R211, none when no write is due. a is the operand, or nk for a compare; b is nk+1. -/
def atomNew (op : AtKind) (w : Nat) (sgn : Bool) (old a b : Nat) : Option Nat :=
  let a := a % 2 ^ w
  match op with
  | .add => some ((old + a) % 2 ^ w)
  | .min => some (if asInt w sgn a < asInt w sgn old then a else old)
  | .max => some (if asInt w sgn old < asInt w sgn a then a else old)
  | .and => some (old &&& a)
  | .or => some (old ||| a)
  | .xor => some (old ^^^ a)
  | .swp => some a
  | .cas => if old = a then some (b % 2 ^ w) else none
  | .fadd => some (fadd .f32 (.rnd .rne) false old a)

def redNew (op : RedKind) (w : Nat) (sgn : Bool) (old a : Nat) : Nat :=
  let at_ : AtKind := match op with
    | .add => .add
    | .min => .min
    | .max => .max
    | .and => .and
    | .or => .or
    | .xor => .xor
  (atomNew at_ w sgn old a 0).getD old

def fredNew (op : FRedKind) (ty : EType) (old a : Nat) : Nat :=
  match op with
  | .add => fadd ty (.rnd .rne) false old a
  | .min => fmin ty old a
  | .max => fmax ty old a

/-- Is the home of an address able to answer? -/
def State.homeUp (s : State) (a : Nat) : Bool :=
  match spaceOf a with
  | 1 => s.nodeUp (poolNode a)
  | 2 => s.host.up
  | _ => true

/-- The number of n bytes at a home, none when it is poisoned or cannot answer. -/
def State.homeNat (s : State) (a n : Nat) : State × Option Nat :=
  let (s, bs) := s.homeRead a n
  (s, if bs.any (·.2) then none else some (leNat (bs.map (·.1))))

/-- The place of an atomic among the operations of R211: its minor less 5. -/
def atCode : AtKind → Nat
  | .add => 0
  | .min => 1
  | .max => 2
  | .and => 3
  | .or => 4
  | .xor => 5
  | .swp => 6
  | .cas => 7
  | .fadd => 8

/-- What an Atomic or a Reduction carries behind its header: operation, flags, operands; the spec does not give their places (log
entry 24). -/
def opBody (code n : Nat) (sgn : Bool) (xs : List Nat) : List Byte :=
  natLe 1 code ++ natLe 1 (n + 128 * natOfBool sgn) ++ xs.flatMap (natLe n)

/-- One atomic at its home, which is sent the operation: the old value, none for poison. -/
def State.doAtom (s : State) (op : AtKind) (a : Nat) (rc w64 sgn : Bool) (x y : Nat) : State × Option Nat :=
  let n := if w64 then 8 else 4
  match (s.sendAt 0x09 a (opBody (atCode op) n sgn [x, y])).homeNat a n with
  | (s, none) => (s.keepSentAt a 15 [], none)
  | (s, some old) =>
    match atomNew op (8 * n) sgn old x y with
    | some new => ((s.atomWrite a (natLe n new) rc).keepSentAt a 0 (natLe n old), some old)
    | none => (s.keepSentAt a 0 (natLe n old), some old)

/-- One reduction at its home, which is sent the operation, by a function of the old value; false for poison. -/
def State.doRed (s : State) (a n : Nat) (rc : Bool) (body : List Byte) (f : Nat → Nat) : State × Bool :=
  match (s.sendAt 0x0A a body).homeNat a n with
  | (s, none) => (s.keepSentAt a 15 [], false)
  | (s, some old) => ((s.atomWrite a (natLe n (f old)) rc).keepSentAt a 0 [], true)

def redCode : RedKind → Nat
  | .add => 0
  | .min => 1
  | .max => 2
  | .and => 3
  | .or => 4
  | .xor => 5

/-- Float operations stand behind the integer ones. -/
def fredCode : FRedKind → Nat
  | .add => 8
  | .min => 9
  | .max => 10

/-! ### Acquires -/

/-- The end of an acquire in a stream: status kept, p7, POISON (R218 to R220). -/
def State.acqEnd (s : State) (a : Acc) (st : Word) (stamp : Word) (discard : Bool) : State :=
  let x := s.core.strm a.strm
  let s := if discard then s else { s with core := s.core.setStrm a.strm { x with astat := st } }
  let bad := st.getLsbD 1
  s.finishAcc a ⟨[some stamp], !(st.getLsbD 0 || bad), if bad && !a.pform then some (.poison, 3, st) else none⟩ discard

/-! ### Combine slots (R303, R304) -/

/-- One arrival at a slot: old ARRIVED and EXPECT, none for poison. The waiter's condition is met by the last. -/
def State.arrive (s : State) (a : Nat) : State × Option (Nat × Nat) :=
  let s := s.touch a 16
  if s.linePois a then (s, none)
  else
    let expect := s.devNat a 4
    let old := s.devNat (a + 4) 4
    let waiter := s.devNat (a + 8) 8 % 2 ^ 57
    if old < expect then
      let met := old + 1 = expect && waiter != 0
      let s := s.devAtomic (a + 4) (natLe 4 (old + 1) ++ (if met then List.replicate 8 0 else []))
      let s := if met then
          { s with conts := s.conts.map fun c =>
              if c.va = waiter && c.tenant.toNat = s.tenant && c.wkind = 2 then { c with cmbWake := true } else c }
        else s
      (s, some (old, expect))
    else (s, some (old, expect))

/-! ### SPAWN (R36, R313, R314) -/

/-- The card as it is copied into a slot. -/
def spawnCard (card : List Byte) (depth : Nat) (parent : Nat) (w : RelWord) : List Byte :=
  let c := bytesSet card 4 [BitVec.ofNat 8 (bytesNat card 4 1 % 16 + depth % 16 * 16)]
  let c := bytesSet c 64 (natLe 8 parent)
  let c := bytesSet c 80 w.bytes
  bytesSet c 96 (List.replicate 24 0)

/-- The status word of SPAWN: the slot, or bit 63 and an ECODE; on success the card is placed, w in its SPREL. -/
def State.spawn (s : State) (reg : Nat) (card : List Byte) (w : RelWord) : State × Nat :=
  match s.core.ctx with
  | none => (s, 2 ^ 63 + 3)
  | some x =>
    if 8 ≤ x.depth.val then (s, 2 ^ 63 + 3)
    else
      match s.freeSlot reg with
      | none => (s, 2 ^ 63 + 4)
      | some k => (s.placeCard reg k x.tenant (spawnCard card (x.depth.val + 1) x.va w) false, k)

/-! ### Performing (R54) -/

/-- The word of the step's most recent completed release when its RERR is 0, else zero (R298). -/
def State.attachWord (s : State) : RelWord :=
  match s.core.ctx with
  | some x => if x.lrstat.toNat % 8 = 0 then x.lrel else ⟨0, 0⟩
  | none => ⟨0, 0⟩

/-- The failure word of R382. -/
def failWord (code : Nat) : Word := BitVec.ofNat 64 (2 ^ 63 + code)

/-- A PREEMPT.wait of another core completes when its request is refused, or the core has stopped (R382). -/
def State.preemptDone (s : State) (a : Acc) (n : Nat) (discard : Bool) : State :=
  let c := s.coreAt n
  let done (v : Word) : State := (s.putCore n { c with asked := none }).finishAcc a (accOk [v]) discard
  match c.asked with
  | some ⟨b, k, code⟩ =>
    if b = s.cid && k = a.strm then
      match code with
      | some (some code) => done (failWord code)
      | some none => if c.phase = .stopping && !discard then s else done 0
      | none => if discard then done 0 else s
    else s.finishAcc a (accOk [0]) discard
  | none => s.finishAcc a (accOk [0]) discard

/-- Perform an access of the core in focus and complete it. -/
def State.performAcc (s : State) (a : Acc) (discard : Bool) : State :=
  match a.kind with
  | .load size sx elems own =>
    let (s, vals) := s.loadElems size sx own elems
    if vals.all (·.isSome) then s.finishAcc a ⟨vals, true, none⟩ discard
    else if a.pform then s.finishAcc a ⟨vals.map fun v => some (v.getD 0), false, none⟩ discard
    else s.finishAcc a ⟨vals, false, some (.poison, 0, 0)⟩ discard
  | .loadTile byte ps own =>
    let (s, bs) := s.readWith State.readPart ps
    let bs := overlayOwn own ps bs
    let s := if discard then s else { s with core := { s.core with tile := storeClean s.core.tile byte bs } }
    s.finishAcc a ⟨[], true, if bs.any (·.2) then some (.poison, 0, 0) else none⟩ discard
  | .atom op addr pois page w64 sgn aq x y =>
    match (if pois then (s, none) else s.doAtom op addr (page = .rc) w64 sgn x.toNat y.toNat) with
    | (s, none) =>
      let s := if aq then s.dropL1 else s
      s.finishAcc a (atomBad a.pform 1 0) discard
    | (s, some old) =>
      let s := if aq then s.dropL1 else s
      s.finishAcc a (accOk [extendBytes (if w64 then 8 else 4) sgn old]) discard
  | .redi op addr page w64 sgn x =>
    let n := if w64 then 8 else 4
    match s.doRed addr n (page = .rc) (opBody (redCode op) n sgn [x.toNat]) fun old => redNew op (8 * n) sgn old x.toNat with
    | (s, true) => s.finishAcc a ⟨[], true, none⟩ discard
    | (s, false) => s.finishAcc a ⟨[], false, some (.poison, 4, 0)⟩ discard
  | .redf op addr page x =>
    match s.doRed addr 4 (page = .rc) (opBody (fredCode op) 4 false [x.toNat]) fun old => fredNew op .f32 old x.toNat with
    | (s, true) => s.finishAcc a ⟨[], true, none⟩ discard
    | (s, false) => s.finishAcc a ⟨[], false, some (.poison, 4, 0)⟩ discard
  | .rel => s.finishAcc a ⟨[], true, none⟩ discard
  | .acqFlag addr pois =>
    match s.homeRead addr 16 with
    | (s, bs) =>
      if pois || bs.any (·.2) then s.acqEnd a 2 0 discard
      else
        let w := relWordOf (bs.map (·.1))
        let (s, st) := s.acquire w
        s.acqEnd a st w.stamp discard
  | .acqWord w =>
    let (s, st) := s.acquire w
    s.acqEnd a st w.stamp discard
  | .xenq rick recs w =>
    match s.enqueue s.tenant rick recs w with
    | (s, .refused) => s.finishAcc { a with p7w := false } ⟨[none], false, some (.perm, 0, 0)⟩ discard
    | (s, .full) => s.finishAcc a (accBad a.pform [0] .xspill 0 0) discard
    | (s, .ok n) => s.finishAcc a (accOk [n.setWidth 64]) discard
  | .xstat rick sel =>
    match s.rickCfg rick with
    | (s, some cfg) =>
      if cfg.tenant = s.tenant then s.finishAcc a (accOk [BitVec.ofNat 64 (s.rickStat rick cfg sel.val)]) discard
      else s.finishAcc a ⟨[none], false, some (.perm, 0, 0)⟩ discard
    | (s, none) => s.finishAcc a ⟨[none], false, some (.perm, 0, 0)⟩ discard
  | .xkick rick =>
    match s.rickCfg rick with
    | (s, some cfg) =>
      if cfg.tenant = s.tenant then
        let x := s.rick rick
        if x.recs.isEmpty then s.finishAcc a (accOk [0]) discard
        else (s.setRick rick { x with kicked := true }).finishAcc a (accOk [1]) discard
      else s.finishAcc a ⟨[none], false, some (.perm, 0, 0)⟩ discard
    | (s, none) => s.finishAcc a ⟨[none], false, some (.perm, 0, 0)⟩ discard
  | .xcmb addr pois =>
    match (if pois then (s, none) else s.arrive addr) with
    | (s, none) => s.finishAcc a (accBad a.pform [0] .poison 1 0) discard
    | (s, some (old, expect)) => s.finishAcc a ⟨[some (BitVec.ofNat 64 old)], decide (old < expect), none⟩ discard
  | .spawn reg card bad w =>
    match (if bad then (s, 0) else s.spawn reg.toNat card w) with
    | (s, st) =>
      if bad then s.finishAcc a (accBad a.pform [0] .poison 0 0) discard
      else if st < 2 ^ 63 then s.finishAcc a (accOk [BitVec.ofNat 64 st]) discard
      else if a.pform then s.finishAcc a ⟨[some (BitVec.ofNat 64 st)], false, none⟩ discard
      else s.finishAcc a ⟨[none], false, some (.launch, 0, BitVec.ofNat 64 st)⟩ discard
  | .lsync log upto =>
    let s := match s.log? log with
      | none => s
      | some g => (g.bills.filter fun (b : Billet) => b.recs.any fun r => decide (r.rseq.toNat < upto.toNat)).foldl (fun s (b : Billet) =>
          if b.closed || b.isSealed then s.spill log b.seg else s.writeBillet log b) s
    s.finishAcc a ⟨[], true, none⟩ discard
  | .preempt n => s.preemptDone a n discard

/-! ### A release completes (R119, R137, R212, R217) -/

/-- The values written under .p when the release of an access failed: 0; a free value for SPAWN, whose status is given
for its own failures only (R314). -/
def AccKind.results (k : AccKind) (free : Word) : List Word :=
  match k with
  | .spawn .. => [free]
  | _ => []

/-- What an access whose release failed gives: atomics, XENQ and XCMB fill their destination with 0 in either form (R212, R298,
R304). -/
def AccKind.relFailed (k : AccKind) (pform : Bool) (free aux : Word) : AccRes :=
  match k with
  | .xenq .. | .xcmb .. => ⟨[some 0], false, if pform then none else some (.poison, 2, aux)⟩
  | .atom .. => atomBad pform 2 aux
  | k => accBad pform (k.results free) .poison 2 aux

/-- XENQ attaches the word of the release that it made (R298), SPAWN puts it into SPREL (R36). -/
def AccKind.attach (k : AccKind) (w : RelWord) : AccKind :=
  match k with
  | .xenq r recs _ => .xenq r recs w
  | .spawn r card bad _ => .spawn r card bad w
  | k => k

/-- Has an earlier release of the same log not completed yet? Releases of one log complete in the order in which they sealed (R116,
R119, log entry 84). -/
def Core.relBehind (c : Core) (r : RelSt) : Bool :=
  c.accs.any fun (a : Acc) =>
    match a.rel with
    | some q => q.log = r.log && stampHigher r.word.stamp q.word.stamp
    | none => false

/-- May the release complete now: none before it is outstanding, and the leases of what it writes are recalled (R105)? -/
def State.relReady (s : State) (r : RelSt) : State × Bool :=
  if s.core.relBehind r then (s, false) else s.relRecall r

/-- RELEASE_COMPLETE of an access that began with a release. -/
def State.completeRelease (s : State) (a : Acc) (r : RelSt) (discard : Bool) : State :=
  let (s, st) := s.finishRelease r
  let aux : Word := BitVec.ofNat 64 st
  match a.kind with
  | .rel =>
    let vals := [some r.word.stamp, some r.word.hi]
    if st = 0 then s.finishAcc a ⟨vals, true, none⟩ discard
    else if a.pform then s.finishAcc a ⟨vals, false, none⟩ discard
    else s.finishAcc a ⟨vals, false, some (.poison, 2, aux)⟩ discard
  | k =>
    if st = 0 then
      let s := match k with
        | .xcmb _ _ =>
          if r.pool then s
          else match s.log? r.log with
            | none => s
            | some g => (g.bills.filter fun (b : Billet) => b.stamp = r.word.stamp).foldl (fun s (b : Billet) => s.compact r.log b.seg) s
        | _ => s
      let upd (x : Acc) : Acc := if x.id = a.id then { x with rel := none, kind := x.kind.attach r.word } else x
      { s with core := { s.core with accs := s.core.accs.map upd } }
    else
      let (v, s) := s.fresh
      s.finishAcc a (k.relFailed a.pform v aux) discard

/-- The transaction that this package has last sent to a node. -/
def State.lastTxn (s : State) (node addr : Nat) : Txn :=
  ⟨node, s.podpos.toNat, (lookupD s.txseq node 0 + (2 ^ 32 - 1)) % 2 ^ 32, addr⟩

/-- What a release that waits for the recall of leases has sent stays with its homes, which apply it when the recall ends (R105,
R119); its step is over, and its flag is not written (log entry 85). -/
def State.leaveRelease (s : State) (r : RelSt) : State :=
  match s.core.ctx, s.log? r.log with
  | some x, some g =>
    let pa := x.base.pa
    let bs := g.covered r.word.stamp
    if r.commit && spaceOf pa = 1 then
      let s := s.sendAt 0x08 pa (natLe 4 x.ftok.toNat ++ natLe 4 x.seq.toNat ++ bs.flatMap fun b => b.bytes r.log)
      { s with accepted := s.accepted ++ [.commit (s.lastTxn (poolNode pa) (paOf pa)) (bs.map fun b => b.bytes r.log)] }
    else
      bs.foldl (fun (s : State) b => (b.dests pa).foldl (fun (s : State) n =>
        let a := if spaceOf pa = 1 then paOf pa else 0
        let s := s.send 0x07 n a (b.bytes r.log)
        { s with accepted := s.accepted ++ [.ship (s.lastTxn n a) (b.bytes r.log)] }) s) s
  | _, _ => s

/-- Complete an access's release, or leave it with its homes; either way its results are discarded. -/
def State.drainRelease (s : State) (a : Acc) (r : RelSt) : State :=
  match s.relReady r with
  | (s, true) => s.completeRelease a r true
  | (s, false) => (s.leaveRelease r).endAcc a

/-- Everything issued and still outstanding, performed with its results discarded (R376). -/
def State.drainAccs (s : State) : State :=
  s.core.accs.foldl (fun s a =>
    match s.core.accs.find? fun x => x.id = a.id with
    | none => s
    | some a =>
      let s := match a.rel with
        | some r => s.drainRelease a r
        | none => s
      match s.core.accs.find? fun x => x.id = a.id with
      | some a => s.performAcc a true
      | none => s) s

/-- The outstanding access with an id. -/
def Core.acc? (c : Core) (id : Nat) : Option Acc := c.accs.find? fun a => a.id = id

end Sys2Proof.Machine
end

