-- ==== Sys2Proof/Machine/Fetch.lean ====
section
/-!
DEFINITION. Code fetch, section headers, gates, the advance of a stream with its loops, control transfers (R141 to R148, R163,
R192 to R194).
-/

namespace Sys2Proof.Machine

/-! ### Fetch (R163) -/

/-- A 4-byte unit of code: from the instruction cache when it still holds it, else from the package view. -/
def State.codeUnit (s : State) (u : Nat) : State × List PByte :=
  match s.core.icache.find? fun e => e.1 = u && Config.keeps s.cyc.toNat e.1 with
  | some e => (s, e.2.map fun b => (b, false))
  | none =>
    let (s, bs) := readLines State.viewLine 64 s (4 * u) 4
    if bs.any (·.2) then (s, bs)
    else
      let c := { s.core with icache := ((u, bs.map (·.1)) :: s.core.icache.filter fun e => e.1 != u).take 16384 }
      ({ s with core := c }, bs)

/-- Why a fetch fails. -/
inductive FetchBad where
  | bad (b : Bad)
  | poison
  deriving DecidableEq, Repr

def State.codePart (s : State) (p : Part) : State × List PByte :=
  if p.pois then (s, List.replicate p.len (0, true))
  else if p.kind = .so then s.soRead p.addr p.len
  else readLines State.codeUnit 4 s p.addr p.len

/-- Fetch n bytes at a code address, counted in 4-byte units from the base of c0, through c0 with X (R141, R163). -/
def State.fetch (s : State) (pc : BitVec 32) (n : Nat) : State × Except FetchBad (List Byte) :=
  match s.access s.tenant (s.core.caps[(0 : Fin 16)]) (4 * pc.toNat : Nat) n 1 [permX] .fetch with
  | (s, .error b) => (s, .error (.bad b))
  | (s, .ok ps) =>
    let (s, bs) := s.readWith State.codePart (ps.map (·.part))
    if bs.any (·.2) then (s, .error .poison) else (s, .ok (bs.map (·.1)))

/-! ### Section headers (R142, R143) -/

structure SecHdr where
  secno : BitVec 12
  len   : BitVec 16
  entry : Bool
  rel   : Bool
  gate1 : BitVec 12
  gate2 : BitVec 12
  deriving DecidableEq, Repr

/-- Read a header; none when it is invalid. -/
def hdrOf (x : Nat) : Option SecHdr :=
  let rel := bitOf x 30
  let secno := bitsOf x 48 12
  if bitsOf x 60 4 != 0xB || bitsOf x 24 6 != 0 || (rel && secno != 0) then none
  else some ⟨BitVec.ofNat 12 secno, BitVec.ofNat 16 (bitsOf x 32 16), bitOf x 31, rel,
    BitVec.ofNat 12 (bitsOf x 12 12), BitVec.ofNat 12 (bitsOf x 0 12)⟩

/-- Fetch and read the header at a code address. -/
def State.header (s : State) (pc : BitVec 32) : State × Except FetchBad (Option SecHdr) :=
  match s.fetch pc 8 with
  | (s, .error b) => (s, .error b)
  | (s, .ok bs) => (s, .ok (hdrOf (leNat bs)))

/-- The code address of word i of the section of a header (R141). -/
def wordAddr (hdr : BitVec 32) (i : Nat) : BitVec 32 := hdr + BitVec.ofNat 32 (2 + 3 * i)

/-- Which word of a section an address is the first unit of, if any (R147). -/
def wordIn (hdr : BitVec 32) (len : BitVec 16) (a : BitVec 32) : Option Nat :=
  let d := (a - hdr - 2).toNat
  if d % 3 = 0 && decide (d < 3 * len.toNat) then some (d / 3) else none

/-- Does an address lie among the section's words? -/
def amongWords (hdr : BitVec 32) (len : BitVec 16) (a : BitVec 32) : Bool := decide ((a - hdr - 2).toNat < 3 * len.toNat)

/-! ### Gates (R144, R145) -/

/-- The number a section takes. -/
def SecHdr.number (h : SecHdr) (begun : BitVec 12) : BitVec 12 := if h.rel then begun + 1 else h.secno

def gateOpen (h : SecHdr) (n f retired : BitVec 12) : Bool :=
  let g := if h.rel then n + f - 0x800 else f
  f = 0xFFF || decide ((retired - g).toNat < 2048)

/-- Are both gates of a header satisfied for a stream of the core in focus? -/
def Core.gatesOpen (c : Core) (k : Strm) (h : SecHdr) : Bool :=
  let n := h.number (c.strm k).begun
  gateOpen h n h.gate1 (c.strm (Strm.first k)).retired && gateOpen h n h.gate2 (c.strm (Strm.second k)).retired

/-! ### Beginning and leaving a section -/

/-- Stand at a header that has not begun. -/
def Stream.atHeader (x : Stream) (hdr : BitVec 32) : Stream := { x with pc := hdr, shdr := hdr, insec := false, slen := 0 }

/-- Drop the prefix words of a pair that has issued or been stopped. -/
def Stream.noPfx (x : Stream) : Stream := { x with wide := none, wideAt := 0, rows := none, npfx := 0 }

/-- The section being left (R144); a handler's sections have no record (R372). -/
def Stream.leave (x : Stream) : Stream :=
  if x.hnd then x else { x with secs := x.secs.map fun r => { r with left := true } }

/-- A section begins: it takes its number, unless a handler runs (R144, R372). Its first word is next, or the word that a
return named: the stream then stands at the header with that address in pc (R148). -/
def Stream.begin (x : Stream) (hdr : BitVec 32) (h : SecHdr) : Stream :=
  let x := { x with shdr := hdr, slen := h.len, pc := if x.pc = hdr then hdr + 2 else x.pc, insec := true }
  if x.hnd then x
  else
    let n := h.number x.begun
    { x with begun := n, serial := x.serial + 1, secs := x.secs ++ [⟨x.serial + 1, n, false⟩] }

/-- The address after the last word of the section. -/
def Stream.secEnd (x : Stream) : BitVec 32 := wordAddr x.shdr x.slen.toNat

/-- Leave the current section and stand at a header; sections retire when their accesses are complete. -/
def Core.goHeader (c : Core) (k : Strm) (hdr : BitVec 32) : Core :=
  (c.setStrm k (((c.strm k).leave.atHeader hdr))).retire k

/-! ### Loops (R192, R193) -/

/-- The level's number: the outermost is 0. -/
def lvlNum (rest : List LoopLvl) : Fin 3 := Fin.ofNat 3 rest.length

/-- Go to an address that follows the last issued word, applying R193 to levels whose body ends there, innermost first. -/
def loopNext (x : Stream) (next : BitVec 32) : List LoopLvl → Stream
  | [] => { x with loops := [], pc := next }
  | v :: rest =>
    if next = v.stop then
      let k := lvlNum rest
      let n := x.lc[k] + 1
      let x := { x with lc := x.lc.set k n }
      if n.toNat < v.count.toNat then { x with loops := v :: rest, pc := v.start } else loopNext x next rest
    else { x with loops := v :: rest, pc := next }

/-- The address after the instruction being issued, its prefixes included. -/
def Stream.next (x : Stream) : BitVec 32 := x.pc + BitVec.ofNat 32 (3 * (x.npfx + 1))

/-- Fall through to an address: loops, then the end of the section. -/
def Core.fallTo (c : Core) (k : Strm) (next : BitVec 32) : Core :=
  let x := loopNext (c.strm k) next (c.strm k).loops
  let c := c.setStrm k x.noPfx
  if x.pc = x.secEnd then c.goHeader k x.pc else c

/-- The issued instruction takes no transfer (R193, R141). -/
def State.advance (s : State) : State := { s with core := s.core.fallTo s.who s.cur.next }

/-! ### Transfers (R147, R148, R194) -/

/-- Levels that stay open at a transfer to an address. -/
def keepLoops (a : BitVec 32) (l : List LoopLvl) : List LoopLvl :=
  l.dropWhile fun v => !(decide ((a - v.start).toNat < (v.stop - v.start).toNat))

/-- What a transfer to an address comes to. -/
inductive Xfer where
  | to (s : State)
  | illegal (s : State)
  | fail (s : State) (b : FetchBad)

/-- Continue in the current section at an address. -/
def State.gotoWord (s : State) (a : BitVec 32) : State :=
  s.mapCur fun x => { x.noPfx with pc := a, loops := keepLoops a x.loops }

/-- Leave for a header: every level closes. -/
def State.gotoHeader (s : State) (a : BitVec 32) : State :=
  let s := s.mapCur fun x => { x.noPfx with loops := [] }
  { s with core := s.core.goHeader s.who a }

/-- A transfer to an address by the stream that issues (R148). -/
def State.transfer (s : State) (a : BitVec 32) : Xfer :=
  let x := s.cur
  if amongWords x.shdr x.slen a then
    if (wordIn x.shdr x.slen a).isSome then .to (s.gotoWord a) else .illegal s
  else
    match s.header a with
    | (s, .error b) => .fail s b
    | (s, .ok none) => .illegal s
    | (s, .ok (some h)) => if h.entry then .to (s.gotoHeader a) else .illegal s

/-- A return to a word of another section: the stream leaves for its header, which it begins at the word (R148). -/
def State.gotoReturn (s : State) (hdr a : BitVec 32) : State := (s.gotoHeader hdr).mapCur fun x => { x with pc := a }

/-! ### The header step -/

/-- What a stream that stands at a header does. -/
inductive AtHeader where
  | began (s : State)
  | gated (s : State)
  | illegal (s : State)
  | fail (s : State) (b : FetchBad)

/-- Read the header, wait on its gates, begin the section (R143 to R145); a section of no words is left at once (R142). -/
def State.headerStep (s : State) : AtHeader :=
  let x := s.cur
  match s.header x.shdr with
  | (s, .error b) => .fail s b
  | (s, .ok none) => .illegal s
  | (s, .ok (some h)) =>
    if !x.hnd && !s.core.gatesOpen s.who h then .gated s
    else
      let s := s.mapCur fun x => x.begin x.shdr h
      if h.len = 0 then .began { s with core := s.core.goHeader s.who s.cur.secEnd } else .began s

end Sys2Proof.Machine
end

