-- ==== Sys2Proof/Machine/Ends.lean ====
section
/-!
DEFINITION. Parts of the end of a step on a core: trap frames, leaving the core, the log records that a rollback discards, ash
records, fault messages, the stop of a die control core (R31, R35, R370, R384, R387, R430, R443).
-/

namespace Sys2Proof.Machine

/-! ### Trap frames (R366, R370) -/

def Cause.code : Cause → Nat
  | .illegal => 0x01
  | .stream => 0x02
  | .priv => 0x03
  | .prefx => 0x04
  | .align => 0x05
  | .capfault => 0x06
  | .pagefault => 0x07
  | .perm => 0x08
  | .atomscope => 0x09
  | .promise => 0x0A
  | .logfull => 0x0B
  | .abft => 0x0C
  | .poison => 0x0D
  | .ownership => 0x0E
  | .queue => 0x0F
  | .xspill => 0x10
  | .launch => 0x11
  | .semovf => 0x12
  | .trap => 0x13
  | .preempt => 0x20
  | .ue => 0x21
  | .watchdog => 0x22

/-- Causes that stop the other two streams (R366). -/
def Cause.stopsOthers : Cause → Bool
  | .queue | .ue | .watchdog => true
  | _ => false

/-- The frame of a trap of a stream that stands at its boundary; dbl for a double trap (R374). -/
def Trap.frame (t : Trap) (x : Stream) (dbl : Bool) : Vector Word 16 :=
  let slp := match x.asleep, t.slp with
    | _, some v => some v
    | some z, none => some z.opnd
    | none, none => none
  let tf0 := t.cause.code + t.word.toNat * 2 ^ 6 + natOfBool t.defd * 2 ^ 8 + natOfBool t.eng * 2 ^ 9 +
    natOfBool t.mtx * 2 ^ 10 + natOfBool t.cause.stopsOthers * 2 ^ 12 + natOfBool dbl * 2 ^ 13 +
    natOfBool slp.isSome * 2 ^ 14 + t.tag.toNat * 2 ^ 16 + t.info.toNat * 2 ^ 32
  let rpc := if x.insec then x.pc else x.shdr
  let w (n : Nat) : Word := BitVec.ofNat 64 n
  let v := Vector.replicate 16 (0 : Word)
  let v := v.set 0 (w tf0)
  let v := v.set 1 (w (rpc.toNat + x.shdr.toNat * 2 ^ 32))
  let v := v.set 2 (w t.ipc.toNat)
  let v := v.set 3 t.data
  let v := v.set 4 t.fva
  let v := v.set 5 t.aux
  let v := v.set 6 (slp.getD 0)
  t.srec.zipIdx.foldl (fun v (x, i) => if h : 8 + i < 16 then v.set (8 + i) x else v) v

/-! ### Leaving a core (R31, R387) -/

/-- A stream between steps: its trap-frame CSRs stay. -/
def Stream.cleared (x : Stream) : Stream := { Stream.reset with tf := x.tf }

/-- The core of a step that is over: idle, queues, accesses and engines empty. Tile registers, weight buffer and accumulator
store keep their contents (R59). -/
def Core.vacate (c : Core) (ftime : BitVec 64) : Core :=
  { c with
    phase := .idle, l := c.l.cleared, c := c.c.cleared, s := c.s.cleared, ldq := ⟨[], 0⟩, sdq := ⟨[], 0⟩
    bq := Vector.replicate 6 ⟨[], 0⟩, accs := [], defq := [], mtx := ⟨[], [], 0, 0⟩, copy := [], cstat := [], fq := []
    caps := Vector.replicate 16 none
    lastTen := match c.ctx with
      | some x => some x.tenant
      | none => c.lastTen
    ctx := none, idleAt := ftime, heldClk := 0, asked := none, ending := [] }

/-- The step's log is over: no record can be appended; it stays until its billets are applied (R112). -/
def State.closeLog (s : State) (num : BitVec 32) : State :=
  State.reapLogs { s with logs := s.logs.map fun g => if g.num = num then { g with live := false } else g }

/-- Remove the watches that a core's step registered for itself. -/
def State.dropWatches (s : State) : State :=
  { s with waits := s.waits.filter fun w => !(w.crec.isNone && w.core = s.cid) }

/-- The step of the core in focus leaves it: charges fall, the log closes (R387). -/
def State.leaveCore (s : State) : State :=
  match s.core.ctx with
  | none => s
  | some x =>
    let s := s.dropWatches
    let s := s.uncharge x.region.toNat .cores 1
    let s := s.uncharge x.region.toNat .acc x.accKib
    let s := s.closeLog x.log
    { s with core := s.core.vacate s.ftime }

/-! ### What a rollback discards (R35, R376) -/

/-- Discard the log records after the last release. -/
def State.discardOpen (s : State) (num : BitVec 32) : State :=
  match s.log? num with
  | none => s
  | some g =>
    let keep := g.bills.filter (·.isSealed)
    let gone := g.bills.length - keep.length
    let s := if g.budget then s.uncharge g.region.toNat .log (4096 * gone) else s
    s.setLog { g with bills := keep }

/-- Zero the 256 virtual counts of the step (R376). -/
def Core.zeroSems (c : Core) : Core :=
  (List.range 256).foldl (fun c v => c.setSem (BitVec.ofNat 8 v) 0) c

/-- The firing of a step, as the step left it: a firing retired stays retired. -/
def StepCtx.baseCont (x : StepCtx) : Cont := { x.base with firing := x.firing, stepseq := x.seq }

/-! ### Ash records of a step (R376, R377, R443) -/

/-- The ring, source and unit of the core in focus. -/
def State.coreAsh (s : State) (src code ten reg addr : Nat) (detail : List Byte) : State :=
  s.ashNote (dieOf s.cid) src code s.cid ten reg addr detail

/-- TF0 to TF2 as DETAIL holds them (R443). -/
def frameDetail (tf : Vector Word 16) : List Byte := natLe 8 tf[0].toNat ++ natLe 8 tf[1].toNat ++ natLe 8 tf[2].toNat

/-- The ash record of a trap: DETAIL holds TF0 to TF2, then the count of pending traps discarded (log entry 12). -/
def State.trapAsh (s : State) (t : Trap) (tf : Vector Word 16) (dropped : Nat) : State :=
  let reg := match s.core.ctx with
    | some x => x.region.toNat
    | none => 0
  s.coreAsh (if isDcc s.cid then 1 else 0) t.cause.code s.tenant reg t.fva.toNat
    (frameDetail tf ++ natLe 8 dropped)

/-! ### Fault messages (R430) -/

def State.fn (s : State) (n : Nat) : HostFn := lookupD s.fns n HostFn.reset

def State.setFn (s : State) (n : Nat) (f : HostFn) : State := { s with fns := insertAt s.fns n f }

/-- FAULT_MESSAGE: one 32-byte entry in the function's ring, then MSI-X; counted as lost when full or the host is lost. -/
def State.faultMessage (s : State) (fn : Nat) (cause reg fdom crec : Nat) (ipc gcore : Nat) : State :=
  let f := s.fn fn
  if s.host.up && decide ((f.fmhead - f.fmtail).toNat < f.fmsize.toNat) then
    let a := keyOf 2 (f.fmbase.toNat + 32 * (f.fmhead.toNat % f.fmsize.toNat))
    let bs := natLe 8 (cause + reg * 2 ^ 6 + fdom * 2 ^ 22) ++ natLe 8 crec ++ natLe 8 s.ftime.toNat ++ natLe 4 ipc ++ natLe 4 gcore
    let s := { s with mem := s.mem.store a bs }
    s.setFn fn { f with fmhead := f.fmhead + 1, msix := f.msix + 1 }
  else s.setFn fn { f with fmlost := if f.fmlost = 0xFFFFFFFF then f.fmlost else f.fmlost + 1 }

/-! ### The stop of a core (R384, R375, R437) -/

/-- HALT.stop: the three streams stop until the collier resets the core; an ash record is written, and on a die control core
the die's ring freezes after it. -/
def State.haltCore (s : State) (code addr : Nat) (detail : List Byte) : State :=
  let s := s.coreAsh (if isDcc s.cid then 1 else 0) code s.tenant 0 addr detail
  let s := if isDcc s.cid then s.ashFreeze (dieOf s.cid) else s
  { s with core := { s.core with phase := .halted } }

end Sys2Proof.Machine
end

