-- ==== Sys2Proof/Machine/Operands.lean ====
section
/-!
DEFINITION. Operand forms of scalar instructions: sources, destinations, the immediate, address operands (R150 to R158, R171,
R94).
-/

namespace Sys2Proof.Machine

/-- The value of a source that stands after others in the order A, B, C: the k-th queue source reads the k-th entry (R51). -/
def State.valAfter (s : State) (imm : BitVec 32) (before : List Src) (a : Src) : Word :=
  match a with
  | .q => (s.core.popQ s.who).poppable.getD (before.count .q) 0
  | a => s.srcVal (s.immVal imm) a

/-- The value of the first source. -/
def State.val (s : State) (imm : BitVec 32) (a : Src) : Word := s.valAfter imm [] a

/-- Remove what the sources popped. -/
def State.popAll (s : State) (srcs : List Src) : State := srcs.foldl (fun s a => s.popSrc a) s

/-- The values of descriptor selectors in the order D0 to D3; zero is a zero word (R153). -/
def State.descVals (s : State) (before : List Src) : List OReg → List Word
  | [] => []
  | r :: rest => s.valAfter 0 before r.src :: s.descVals (before ++ [r.src]) rest

/-- The offset register's value of a format M operand, after the data source (R94, R152). -/
def State.oregVal (s : State) (before : List Src) (m : MAddr) : Word := s.valAfter 0 before m.oreg.src

end Sys2Proof.Machine

namespace Sys2Proof

open Machine

/-- Width in bits of a W code (R150). -/
def ITy.width (t : ITy) : Nat := 8 * 2 ^ t.w.val

/-- a or b of R171: the low w bits, signed when S. -/
def ITy.read (t : ITy) (x : Word) : Int :=
  let w := t.width
  let v := x.toNat % 2 ^ w
  if t.sgn && bitOf v (w - 1) then (v : Int) - (2 ^ w : Nat) else v

/-- The low w bits as a pattern. -/
def ITy.pat (t : ITy) (x : Word) : Nat := x.toNat % 2 ^ t.width

/-- The range of the type. -/
def ITy.lo (t : ITy) : Int := if t.sgn then -(2 ^ (t.width - 1) : Nat) else 0
def ITy.hi (t : ITy) : Int := if t.sgn then (2 ^ (t.width - 1) : Nat) - 1 else (2 ^ t.width : Nat) - 1

/-- r mod 2^w, extended to 64 bits (R171). -/
def ITy.extend (t : ITy) (r : Int) : Word :=
  let w := t.width
  let v := (r % (2 ^ w : Nat)).toNat
  if t.sgn && bitOf v (w - 1) then BitVec.ofNat 64 (v + (2 ^ 64 - 2 ^ w)) else BitVec.ofNat 64 v

/-- Saturate when SAT, then wrap and extend (R171). -/
def ITy.write (t : ITy) (sat : Bool) (r : Int) : Word := t.extend (if sat then max t.lo (min t.hi r) else r)

end Sys2Proof

namespace Sys2Proof.Machine

end Sys2Proof.Machine
end

