-- ==== Sys2Proof/Machine/Flags.lean ====
section
/-!
DEFINITION. Conditions and predicates: what CMP, BC, FCMP, SEL, PLOG and the guard of an instruction test and write
(R45, R149, R175, R176, R181, R183).
-/

namespace Sys2Proof.Machine

/-- A condition of R175 over w bits. -/
def condHolds (c : ICond) (t : ITy) (a b : Word) : Bool :=
  let x := t.read a
  let y := t.read b
  match c with
  | .eq => x = y
  | .ne => x != y
  | .lt => decide (x < y)
  | .ge => decide (y ≤ x)
  | .le => decide (x ≤ y)
  | .gt => decide (y < x)
  | .tst => t.pat a &&& t.pat b != 0
  | .ntst => t.pat a &&& t.pat b = 0

/-- A condition of R181 on two sources of a scalar float type. -/
def fcondHolds (c : FCond) (t : SFTy) (a b : Word) : Bool := fcmp c (fvOf t.ety a.toNat) (fvOf t.ety b.toNat)

/-- The 1 or 0 that a comparison writes. -/
def boolWord (b : Bool) : Word := if b then 1 else 0

/-- Does the guard let the instruction execute: PRED's value XOR PNEG (R149)? -/
def State.guard (s : State) (h : Hdr) : Bool := s.cur.pred h.pred != h.pneg

/-- COND[2·pa + pb] (R183). -/
def plogBit (tbl : BitVec 4) (pa pb : Bool) : Bool := tbl.getLsbD (2 * natOfBool pa + natOfBool pb)

end Sys2Proof.Machine
end

