-- ==== Sys2Proof/Machine/Ops.lean ====
section
/-!
DEFINITION. Taking a trap and returning from one; the issue of an instruction: its checks, its stalls, its effect
(R42 to R53, R155 to R162, R360, R361, R366 to R375); the making of accesses (R54, R94, R205).
-/

namespace Sys2Proof.Machine

/-! ### Traps: choice (R367, R368) -/

/-- What follows a trap. -/
inductive Disp where
  | handle | rollback | fault
  deriving DecidableEq, Repr

/-- The disposition that DISPLO and DISPHI hold for a cause (R367). -/
def Core.dispOf (c : Core) (cause : Cause) : Disp :=
  let n := cause.code
  let f := if n < 0x20 then bitsOf c.displo.toNat (2 * n) 2 else bitsOf c.disphi.toNat (2 * (n - 0x20)) 2
  match f with
  | 1 => .rollback
  | 2 => .handle
  | _ => .fault

/-- Class of a pending trap in the order of R368. -/
def Trap.rank (t : Trap) : Nat :=
  if t.cause = .ue then 0
  else if t.defd && !t.eng then 1
  else if t.eng then 2
  else if t.cause = .watchdog then 3
  else 4

/-- Is trap a taken before trap b? -/
def Trap.before (a b : Trap) : Bool :=
  decide (a.rank < b.rank) || (a.rank = b.rank && (a.rank = 1 || a.rank = 2) && decide (a.seq < b.seq))

/-- Is a trap a double trap: raised while HND was set on its stream (R374)? A UE whose disposition is ROLLBACK or FAULT keeps it,
and its handler is abandoned (R369, log entry 104). PREEMPT is not raised as a trap. -/
def Core.double (c : Core) (t : Trap) : Bool := t.inHnd && !(t.cause = .ue && c.dispOf t.cause != .handle)

/-- The pending traps that may be taken at a boundary of a stream. While its handler runs, one that was raised before and would
enter a handler itself stays pending (R368, R372, log entry 104). -/
def State.dueTraps (s : State) (k : Strm) : List Trap :=
  let x := s.core.strm k
  x.pend.filter fun t => !x.hnd || t.inHnd || (!isDcc s.cid && s.core.dispOf t.cause != .handle)

/-- The pending trap that a stream takes at a boundary. -/
def State.choose (s : State) (k : Strm) : Option Trap := minBy Trap.before (s.dueTraps k)

/-- The handler entry of a stream (R363). -/
def Core.handler (c : Core) : Strm → BitVec 32
  | .l => c.hndlc.extractLsb' 0 32
  | .c => c.hndlc.extractLsb' 32 32
  | .s => c.hndls

/-- The header of the handler that a HANDLE trap of a stream would enter, none for a double trap (R374) and where the entry
0xFFFF_FFFF says that there is no handler (R386). -/
def State.handlerHdr (s : State) (k : Strm) : State × Option SecHdr :=
  if (s.core.strm k).hnd || s.core.handler k = 0xFFFFFFFF then (s, none)
  else
    match s.header (s.core.handler k) with
    | (s, .ok (some h)) => (s, if h.entry then some h else none)
    | (s, _) => (s, none)

/-- The disposition of a trap of a stream, a double trap counted as FAULT; whether it is one; the handler's header. -/
def State.dispAt (s : State) (k : Strm) (t : Trap) : State × Disp × Bool × Option SecHdr :=
  if s.core.double t then (s, .fault, true, none)
  else
    match s.core.dispOf t.cause with
    | .handle =>
      match s.handlerHdr k with
      | (s, some h) => (s, .handle, false, some h)
      | (s, none) => (s, .fault, true, none)
    | d => (s, d, false, none)

def Disp.strength : Disp → Nat
  | .handle => 0
  | .rollback => 1
  | .fault => 2

/-! ### Traps: entry (R370, R372, R375) -/

def State.setTf (s : State) (k : Strm) (tf : Vector Word 16) : State :=
  { s with core := s.core.setStrm k { s.core.strm k with tf := tf } }

/-- Save what R372 names, empty the result queue and the loops, set HND, and begin the handler's section: it takes no number
and its gates are not evaluated. From a section of no words the stream goes on to the next header (R142). -/
def Stream.enter (x : Stream) (hdr : BitVec 32) (h : SecHdr) (t : Trap) (clk : BitVec 64) : Stream :=
  let z : Saved := ⟨x.rq, x.p, x.lc, x.loops, x.lbv, x.begun, x.retired, x.asleep, some t, some clk⟩
  let x := { x.noPfx with saved := some z, rq := [], loops := [], lbv := false, lbuf := [], hnd := true, asleep := none, waitW := none,
                          ended := none, stopo := t.cause.stopsOthers, hold := .issuing }
  let x := (x.atHeader hdr).begin hdr h
  if h.len = 0 then x.atHeader x.secEnd else x

/-- Stop the streams but one, as at pre-emption end (R372). -/
def Core.parkOthers (c : Core) (k : Strm) : Core :=
  let park (j : Strm) (c : Core) : Core := if j = k then c else c.setStrm j { (c.strm j).noPfx with parked := true, hold := .issuing }
  park .l (park .c (park .s c))

/-- A trap inside a WAITA takes its watch away: the instruction registers it again (R223). -/
def State.leaveWait (s : State) (k : Strm) : State :=
  match (s.core.strm k).waitW with
  | some (a, false) => { s with waits := s.waits.filter fun w => !(w.crec.isNone && w.core = s.cid && w.addr = a) }
  | _ => s

/-- HANDLE_ENTRY. -/
def State.enterHandler (s : State) (k : Strm) (hdr : BitVec 32) (h : SecHdr) (t : Trap) : State :=
  let s := s.leaveWait k
  let x := s.core.strm k
  let s := s.setTf k (t.frame x false)
  let c := s.core.setStrm k ((s.core.strm k).enter hdr h t s.cyc)
  { s with core := if t.cause.stopsOthers then c.parkOthers k else c }

/-- DCC_TRAP: SVEC in system mode, or the stop of the die control core when a trap is nested (R375). -/
def State.dccTrap (s : State) (k : Strm) (t : Trap) : State :=
  let x := s.core.strm k
  let tf := t.frame x true
  if t.inHnd then (s.setTf k tf).haltCore t.cause.code t.fva.toNat (frameDetail tf)
  else
    match s.header s.core.svec with
    | (s, .ok (some h)) => s.enterHandler k s.core.svec h t
    | (s, _) => (s.setTf k tf).haltCore t.cause.code t.fva.toNat (frameDetail tf)

/-- Remove a pending trap from a stream; the record of a faulted command leaves the fault queue (R414). -/
def State.unpend (s : State) (k : Strm) (t : Trap) : State :=
  let x := s.core.strm k
  let c := s.core.setStrm k { x with pend := x.pend.erase t }
  { s with core := if t.eng then { c with fq := c.fq.eraseP fun f => f.mtx = t.mtx && f.tag = t.tag && f.cause = t.cause } else c }

/-- The trap that a stream has taken into a handler in this clock. -/
def State.enteredNow (s : State) (k : Strm) : Option (Strm × Trap × Bool) :=
  match (s.core.strm k).saved with
  | some z => if z.clk = some s.cyc then z.ent.map fun t => (k, t, false) else none
  | none => none

/-- The traps of this clock that end the step, and those that entered a handler in it, in the order L, C, S (R369). -/
def State.trapsNow (s : State) : List (Strm × Trap × Bool) :=
  [Strm.l, .c, .s].filterMap fun k =>
    match s.core.ending.find? fun e => e.strm = k with
    | some e => some (k, e.trap, e.dbl)
    | none => s.enteredNow k

/-- The trap that governs the end of the step: the first of the strongest disposition (R369). -/
def Core.governing (c : Core) : Option Ending :=
  let pick (f : Bool) : Option Ending := [Strm.l, .c, .s].findSome? fun k => c.ending.find? fun e => e.strm = k && e.fault = f
  match pick true with
  | some e => some e
  | none => pick false

end Sys2Proof.Machine

namespace Sys2Proof

open Machine

/-- Order of the streams L, C, S. -/
def Strm.num : Strm → Nat
  | .l => 0
  | .c => 1
  | .s => 2

end Sys2Proof

namespace Sys2Proof.Machine

/-- Take a trap in a stream that stands at its boundary (R368, R369): its handler, or its frame and the end of the step when the
clock is over, which the other streams' traps of the same clock join. -/
def State.takeTrap (s : State) (k : Strm) (t : Trap) : State :=
  if isDcc s.cid then s.dccTrap k t
  else
    match s.dispAt k t with
    | (s, .handle, _, some h) => s.enterHandler k (s.core.handler k) h t
    | (s, d, dbl, _) =>
      let s := s.setTf k (t.frame (s.core.strm k) dbl)
      { s with core := { s.core with ending := s.core.ending ++ [(⟨k, t, decide (d = .fault), dbl⟩ : Ending)] } }

/-- A precise trap of the instruction of the issuing stream: cause and faulting address (R366, R370). -/
def State.precise (s : State) (c : Cause) (fva : Nat) : Trap :=
  { Trap.of c with inHnd := s.cur.hnd, word := BitVec.ofNat 2 s.cur.npfx, ipc := s.cur.pc, fva := BitVec.ofNat 64 fva }

/-- Raise a trap in the issuing stream and take it. -/
def State.raise (s : State) (t : Trap) : State := (s.mapCur Stream.noPfx).takeTrap s.who t

/-- TRAP_TAKEN: the trap that stream k takes at its boundary, before the words of the pair that it has read, if any is pending; a
stream whose trap ends the step takes no other. -/
def State.trapTaken (s : State) (k : Strm) : State :=
  if s.core.ending.any fun e => e.strm = k then s
  else
    match s.choose k with
    | none => s
    | some t =>
      let s := s.unpend k t
      State.takeTrap { s with core := s.core.setStrm k (s.core.strm k).noPfx } k t

/-- The issued instruction takes no transfer, and the stream stands at the address after it, also past the last word of its section,
which it does not leave (R370, R454). -/
def State.pass (s : State) : State := s.mapCur fun x => (loopNext x x.next x.loops).noPfx

/-- A trap taken after its instruction, which completes: RPC is the address after it (R366, R370). -/
def State.raiseAfter (s : State) (srcs : List Src) (c : Cause) (data : Word) : State :=
  let t := { s.precise c 0 with data := data }
  (s.popAll srcs).pass.takeTrap s.who t

/-- A deferred trap of the instruction that issues, in its own stream, with its AUX (R366, R371). -/
def State.deferAux (s : State) (c : Cause) (info : Nat) (fva : Nat) (aux : Word) : State :=
  let t := { s.precise c fva with defd := true, info := BitVec.ofNat 32 info, aux := aux, seq := s.core.nextId }
  State.pendOn { s with core := { s.core with nextId := s.core.nextId + 1 } } s.who t

/-- One whose AUX is 0. -/
def State.deferTrap (s : State) (c : Cause) (info : Nat) (fva : Nat) : State := s.deferAux c info fva 0

/-! ### Return (R373) -/

/-- Restart or abandon the engine command of a frame (R230, R279, R373). A restarted command has already waited; a copy command
goes on from its window, without beginning again when it had begun, and so does a product of which some K-groups are done. The
command of a SEMOVF trap is complete: nothing is left of it. -/
def Core.resumeEngine (c : Core) (t : Trap) (restart : Bool) : Core :=
  if t.cause = .semovf then c
  else if t.mtx then
    let q := c.mtx.q
    if restart then
      { c with mtx := { c.mtx with q := q.map fun (m : MCmd) =>
          if m.fault.isSome then { m with fault := none, begun := decide (0 < m.kp), e := { m.e with wthr := 0 } } else m } }
    else
      let c := (q.filter fun m => m.fault.isSome).foldl (fun c m => c.setStrm .c ((c.strm .c).sbClear? m.slot)) c
      { c with mtx := { c.mtx with q := q.filter fun m => m.fault.isNone, cmpl := c.mtx.cmpl + 1 } }
  else if restart then
    { c with copy := c.copy.map fun (m : CCmd) =>
        if m.tag = t.tag then { m with fault := none, done := false, e := { m.e with wthr := 0 } } else m }
  else
    match c.copy.find? fun m => m.tag = t.tag with
    | none => c
    | some m =>
      let x := c.strm m.strm
      let c := c.setStrm m.strm (x.sbClear? m.slot)
      { c with copy := c.copy.filter fun n => n.tag != t.tag }

/-- Restore what R372 saved, first filling what the deferred instruction left unfilled with DATA. -/
def Stream.restore (x : Stream) (z : Saved) (data : Word) : Stream :=
  let fill := (z.ent.map (·.fill)).getD []
  let rq := z.rq.map fun e => if e.2.isNone && fill.contains e.1 then (e.1, some data) else e
  { x with rq := rq, p := z.p, lc := z.lc, loops := z.loops, lbv := z.lbv, lbuf := [], begun := z.begun, retired := z.retired, hnd := false
           saved := none, stopo := false }

/-- Let the streams that STOPO stopped go on. -/
def Core.unpark (c : Core) : Core := c.mapStrms fun x => { x with parked := false }

/-- The header and the resume address of a frame are good: RPC is RSEC or one of its words (R373). -/
def returnOk (rsec rpc : BitVec 32) (h : SecHdr) : Bool := rpc = rsec || (wordIn rsec h.len rpc).isSome

/-- The kind of sleep of the SLEEP at an address, the prefix words before its own word, and its scoreboard slot (R198, R373); none
at any other word. -/
def State.sleepAt (s : State) (pc : BitVec 32) : Nat → Nat → State × Option (Fin 3 × Nat × Option (Fin 8))
  | 0, _ => (s, none)
  | fuel + 1, n =>
    match s.fetch (pc + BitVec.ofNat 32 (3 * n)) 12 with
    | (s, .error _) => (s, none)
    | (s, .ok bs) =>
      match decodeWord (wordOfBytes bs) with
      | .ok (.pfxi _) | .ok (.pfxm _) => s.sleepAt pc fuel (n + 1)
      | .ok (.sleep h ..) => (s, some (0, n, h.set))
      | .ok (.sleepUntil h ..) => (s, some (1, n, h.set))
      | .ok (.sleepFor h ..) => (s, some (2, n, h.set))
      | _ => (s, none)

/-- With SLP set the SLEEP at RPC resumes its sleep with TF6, under the scoreboard slot that it still holds. Where RPC names another
instruction there is no sleep to resume, and the slot falls. -/
def State.resumeSleep (s : State) (k : Strm) (rpc : BitVec 32) (opnd : Word) (set : Option (Fin 8)) : State :=
  match s.sleepAt rpc 3 0 with
  | (s, some (mode, n, _)) =>
    { s with core := s.core.setStrm k { s.core.strm k with asleep := some ⟨mode, opnd, n, s.cyc, set⟩ } }
  | (s, none) => { s with core := s.core.setStrm k ((s.core.strm k).sbClear? set) }

/-- The state after ERET, with the header of RSEC read as h (R373). -/
def State.returnTo (s : State) (k : Strm) (h : SecHdr) (z : Saved) : State :=
  let x := s.core.strm k
  let tf := x.tf
  let rpc : BitVec 32 := tf[1].extractLsb' 0 32
  let rsec : BitVec 32 := tf[1].extractLsb' 32 32
  let t := z.ent.getD (Trap.of .trap)
  let fillQ := t.fillQ
  let c := s.core
  let ents := c.ldq.ents.map fun e =>
    if e.val.isNone && fillQ.contains e.id then { e with val := some tf[3], fresh := true } else e
  let c := { c with ldq := { c.ldq with ents := ents } }
  let c := if tf[0].getLsbD 9 then c.resumeEngine t (tf[0].getLsbD 11) else c
  let x := (c.strm k).noPfx.restore z tf[3]
  let x := if rpc = rsec then x.leave.atHeader rsec
    else { x with pc := rpc, shdr := rsec, slen := h.len, insec := true }
  let c := (c.setStrm k x).retire k
  let s := { s with core := if tf[0].getLsbD 12 then c.unpark else c }
  if tf[0].getLsbD 14 then s.resumeSleep k rpc tf[6] (z.slp.bind (·.set)) else s

/-! ### Modes (R360) -/

/-- System mode: a die control core, or a step of tenant 0. -/
def State.systemMode (s : State) : Bool := isDcc s.cid || decide (s.tenant = 0)

/-! ### Issue (R42 to R53, R161, R162) -/

/-- What an instruction's encoding asks of its place: streams, privilege, group MTX, PFXI payload bits that may be set
(0: it takes none), PFXM. -/
structure Gate where
  strms : List Strm
  priv  : Bool
  mtx   : Bool
  wide  : Nat
  rows  : Bool
  deriving DecidableEq, Repr

/-- Format R: a PFXI goes with a source that selects 0x22 (R158). -/
def gateR (strms : List Strm) (srcs : List Src) : Gate :=
  ⟨strms, false, false, if srcs.any (fun a => a = .imm) then 32 else 0, false⟩

def gateM (strms : List Strm) : Gate := ⟨strms, false, false, 24, false⟩

/-- Formats B and E, and format R without 0x22. -/
def gateN (strms : List Strm) : Gate := ⟨strms, false, false, 0, false⟩

def gateV (strms : List Strm) : Gate := ⟨strms, false, false, 0, true⟩

/-- The operands an instruction reads and writes: sources in the order A, B, C; predicates; destination; result entries
that it allocates. -/
structure Use where
  srcs   : List Src
  preds  : List (Fin 8)
  dst    : Dst
  allocs : Nat
  deriving DecidableEq, Repr

/-- Sources and one destination. -/
def useD (srcs : List Src) (d : Dst) : Use := ⟨srcs, [], d, d.allocs⟩

/-- Sources only. -/
def useS (srcs : List Src) : Use := ⟨srcs, [], .discard, 0⟩

/-- A trap of the word of a pair. -/
def State.encTrap (s : State) (c : Cause) (word : Nat) : Trap := { s.precise c 0 with word := BitVec.ofNat 2 word }

/-- The place of the PFXM among the pair's words. -/
def Stream.rowsAt (x : Stream) : Nat := if x.wide.isSome && x.wideAt = 0 then 1 else 0

/-- The checks of R161 and R162 that the decoder does not make, in their order. -/
def State.gateTrap (s : State) (g : Gate) (u : Use) : Option Trap :=
  let x := s.cur
  let noWide := x.wide.isSome && g.wide = 0
  let noRows := x.rows.isSome && !g.rows
  if g.mtx && isDcc s.cid then some (s.encTrap .illegal x.npfx)
  else if g.priv && !s.systemMode then some (s.encTrap .priv x.npfx)
  else if !g.strms.contains s.who then some (s.encTrap .stream x.npfx)
  else if (u.srcs.contains .q && s.who = .l) || (u.dst = .q && s.who = .s) then some (s.encTrap .illegal x.npfx)
  else if noWide && (!noRows || x.wideAt ≤ x.rowsAt) then some (s.encTrap .prefx x.wideAt)
  else if noRows then some (s.encTrap .prefx x.rowsAt)
  else
    match x.wide with
    | some p => if g.wide != 0 && p >>> g.wide != 0 then some (s.encTrap .illegal x.wideAt) else none
    | none => none

/-- What a stream waits for on its own queue at issue, if anything: pops, then the push (R51, R371). -/
def State.queueBlock (s : State) (u : Use) : Option Hold :=
  if !s.popsReady u.srcs then some (if s.who = .c then .ldq else .sdq)
  else if u.dst = .q && !(s.core.pushQ s.who).room 1 then some (if s.who = .l then .ldq else .sdq)
  else none

/-- Why an instruction does not issue yet, if it does not (R43, R46 to R48, R51, R53). -/
def State.blocked (s : State) (h : Hdr) (u : Use) : Option Hold :=
  if s.cur.sbWaits h.wait || !s.core.pFinal s.who h.pred then some .other
  else if !s.guard h then (if s.cur.canAlloc u.allocs then none else some .other)
  else if u.srcs.any (fun a => !s.srcFinal a) || u.preds.any (fun p => !s.core.pFinal s.who p) ||
      !s.cur.canAlloc u.allocs then some .other
  else
    match h.set with
    | some k => if s.cur.sb[k] = 15 then some .other else s.queueBlock u
    | none => s.queueBlock u

/-- What issuing comes to: go, the instruction takes no transfer; stay, the whole next state is given; hold, it stalls; wait, it
stalls with what it has begun; trap, a precise trap, nothing done but translation; stop, the run ends. -/
inductive Done where
  | go (s : State)
  | stay (s : State)
  | hold (k : Hold)
  | wait (s : State)
  | trap (s : State) (t : Trap)
  | stop (f : Fault)

/-- A stalled stream (R52). -/
def State.stall (s : State) (k : Hold) : State := s.mapCur fun x => { x with hold := k }

/-- The stream issues in this clock. -/
def State.markIssued (s : State) : State :=
  let s := s.mapCur fun x => { x with hold := .issuing }
  { s with core := { s.core with issued := true } }

/-- t where s did not issue: a stall is no issue (R52). -/
def State.unissued (t s : State) : State := { t with core := { t.core with issued := s.core.issued } }

/-- A predicated-false instruction (R48). -/
def State.skip (s : State) (u : Use) : State := (s.mapCur fun x => x.allocZeros u.allocs).advance

def Done.out (s : State) (u : Use) : Done → Host.Outcome State Fault Refusal
  | .go t => .next (t.popAll u.srcs).advance
  | .stay t => .next t
  | .hold k => .next (s.stall k)
  | .wait t => .next ((t.unissued s).stall .other)
  | .trap t x => .next (t.raise x)
  | .stop f => .fault f

/-- The promise of a copy tag (R199, R228): the tag, and the clock now expected, from the engine's estimate. -/
def State.newPromise (s : State) (tag : BitVec 16) : Word × State :=
  let target := (s.cyc.toNat + Config.copyEstimate s.free) % 2 ^ 48
  (BitVec.ofNat 64 (tag.toNat * 2 ^ 48 + target), { s with free := s.free + 1 })

/-- Issue one instruction of the stream in focus: its checks, its stalls, its guard, its effect. -/
def issue (g : Gate) (h : Hdr) (u : Use) (eff : State → Done) (s : State) : Host.Outcome State Fault Refusal :=
  match s.gateTrap g u with
  | some t => .next (s.raise t)
  | none =>
    match s.blocked h u with
    | some k => .next (s.stall k)
    | none => if s.guard h then (eff s.markIssued).out s u else .next (s.markIssued.skip u)

/-- As issue, with a check of what the fields mean that raises ILLEGAL: after the checks of the encoding, the PREFIX check among
them, and whatever the predicate (log entry 105). -/
def issueIf (ok : Bool) (g : Gate) (h : Hdr) (u : Use) (eff : State → Done) (s : State) :
    Host.Outcome State Fault Refusal :=
  if (s.gateTrap g u).isNone && !ok then .next (s.raise (s.encTrap .illegal s.cur.npfx)) else issue g h u eff s

/-! ### Effects in terms of traps -/

/-- A precise trap. -/
def State.trapDone (s : State) (c : Cause) : Done := .trap s (s.precise c 0)

/-- The end of a failed address check. -/
def State.badDone (s : State) : Bad → Done
  | .cause c fva => .trap s (s.precise c fva)
  | .hole => .stop .hbmHole

/-- The end of a failed fetch of a header that a transfer names. Poisoned code raises POISON there, with FVA 0 (DESIGN CHOICE, log
entry 87: R163 names CAPFAULT, PAGEFAULT and PERM only). -/
def State.fetchDone (s : State) : FetchBad → Done
  | .bad b => s.badDone b
  | .poison => .trap s (s.precise .poison 0)

/-! ### Accesses (R54, R94) -/

/-- The checks of an access of the issuing stream through a format M operand. -/
def State.memAccess (s : State) (before : List Src) (m : MAddr) (n align : Nat) (perms : List Nat) (need : Need) :
    State × Except Bad (List PPart) :=
  s.access s.tenant s.core.caps[m.cap] (s.eaOf m (s.oregVal before m)) n align perms need

/-- Does any part lie on a page with POIS set? -/
def partsPois (ps : List PPart) : Bool := ps.any fun p => p.part.pois

/-- SO accesses of a stream are performed in order (R96): is an earlier one outstanding? -/
def AccKind.parts : AccKind → List Part
  | .load _ _ elems _ => elems.flatten
  | .loadTile _ ps _ => ps
  | _ => []

/-- Does an access touch an SO page? -/
def AccKind.so : AccKind → Bool
  | .load _ _ elems _ => elems.flatten.any fun p => p.kind = .so
  | .loadTile _ ps _ => ps.any fun p => p.kind = .so
  | .atom _ _ _ page .. => page = .so
  | .redi _ _ page .. => page = .so
  | .redf _ _ page .. => page = .so
  | _ => false

def State.soBusy (s : State) : Bool := s.core.accs.any fun a => a.strm = s.who && a.kind.so

/-- Must the access wait for an earlier SO access of its stream? -/
def State.soWait (s : State) (ps : List PPart) : Bool := ps.any (fun p => p.part.kind = .so) && s.soBusy

/-- Classes of FENCE: loads and acquires (bit 0), all else (bit 1). -/
def AccKind.isRead : AccKind → Bool
  | .load .. | .loadTile .. | .acqFlag .. | .acqWord .. => true
  | _ => false

/-- Put an access on its way: it takes its scoreboard slot; a later write to p7 takes the place of an older one. -/
def State.addAcc (s : State) (h : Hdr) (d : ADst) (pform : Bool) (kind : AccKind) (rel : Option RelSt) : State :=
  let c := s.core
  let x := c.strm s.who
  let a : Acc := {
    id := c.nextId, strm := s.who, sec := if x.hnd then 0 else x.serial, slot := h.set, dst := d, pform := pform
    p7w := pform, ipc := x.pc, word := BitVec.ofNat 2 x.npfx, hnd := x.hnd, rd := kind.isRead, kind := kind, rel := rel
    since := s.ftime }
  let accs := if pform then c.accs.map fun (y : Acc) => if y.strm = s.who then { y with p7w := false } else y else c.accs
  let c := c.setStrm s.who (x.sbSet? h.set)
  { s with core := { c with accs := accs ++ [a], nextId := c.nextId + 1 } }

/-- The release of an instruction that begins with one: sealed, or the stall or trap that it meets (R111). -/
def State.sealFor (s : State) (pool : Bool) (flag : Option Nat) (commit : Bool) : Except NoBillet (State × RelSt) :=
  match s.sealLog pool with
  | .error e => .error e
  | .ok (t, w) => .ok (t, ⟨s.logNum, w, pool, flag, commit⟩)

/-- LOGFULL at the instruction, or the wait for a billet slot (R111). -/
def State.noBillet (s : State) : NoBillet → Done
  | .full => s.trapDone .logfull
  | .busy => .hold .other

end Sys2Proof.Machine
end

