-- ==== Sys2Proof/Machine/Sint.lean ====
section
/-!
DEFINITION. Group SINT: integer arithmetic (R171 to R178).
-/

namespace Sys2Proof.Machine

/-! ### Shared operations -/

/-- Every stream issues it. -/
def anyStrm : List Strm := [.l, .c, .s]

/-- An instruction whose effect is one value for its destination. -/
def valueOp (h : Hdr) (srcs : List Src) (d : Dst) (f : State → Word) (s : State) : Host.Outcome State Fault Refusal :=
  issue (gateR anyStrm srcs) h (useD srcs d) (fun t => .go (t.putDst d (f t))) s

/-- op of R171 on the readings of a and b; SAT as the word has it. -/
def arith (h : Hdr) (o : IArith) (op : Int → Int → Int) (s : State) : Host.Outcome State Fault Refusal :=
  valueOp h [o.a, o.b] o.d (fun t => o.ty.write o.sat (op (o.ty.read (t.val o.imm o.a)) (o.ty.read (t.valAfter o.imm [o.a] o.b)))) s

/-- op of R171 on the readings, no SAT. -/
def arithNs (h : Hdr) (o : IBin) (op : Int → Int → Int) (s : State) : Host.Outcome State Fault Refusal :=
  valueOp h [o.a, o.b] o.d (fun t => o.ty.extend (op (o.ty.read (t.val o.imm o.a)) (o.ty.read (t.valAfter o.imm [o.a] o.b)))) s

/-- op of R172 on the w-bit patterns. -/
def bitwise (h : Hdr) (o : IBin) (op : Nat → Nat → Nat) (s : State) : Host.Outcome State Fault Refusal :=
  valueOp h [o.a, o.b] o.d (fun t => o.ty.extend (op (o.ty.pat (t.val o.imm o.a)) (o.ty.pat (t.valAfter o.imm [o.a] o.b)))) s

/-- A count of bits of a. -/
def bitCount (h : Hdr) (o : IUn) (f : Nat → Nat → Nat) (s : State) : Host.Outcome State Fault Refusal :=
  valueOp h [o.a] o.d (fun t => BitVec.ofNat 64 (f o.ty.width (o.ty.pat (t.val o.imm o.a)))) s

/-- A 64-bit operation of two sources with no reading (R174). -/
def field2 (h : Hdr) (d : Dst) (a b : Src) (imm : BitVec 32) (f : Nat → Nat → Nat) (s : State) :
    Host.Outcome State Fault Refusal :=
  valueOp h [a, b] d (fun t => BitVec.ofNat 64 (f (t.val imm a).toNat (t.valAfter imm [a] b).toNat)) s

/-- DIV of R173, before the extension; b = 0 gives all ones whatever SAT. -/
def divWord (t : ITy) (sat : Bool) (a b : Int) : Word := if b = 0 then t.extend (-1) else t.write sat (a.tdiv b)

/-- REM of R173. -/
def remInt (a b : Int) : Int := if b = 0 then a else a.tmod b

/-- The signed reading of a w-bit pattern. -/
def signedPat (w x : Nat) : Int := if bitOf x (w - 1) then (x : Int) - (2 ^ w : Nat) else x

def rotlNat (w a k : Nat) : Nat := (a <<< k ||| a >>> (w - k)) % 2 ^ w

/-- Leading zero bits of a w-bit pattern. -/
def clzNat : Nat → Nat → Nat
  | 0, _ => 0
  | w + 1, x => if bitOf x w then 0 else clzNat w x + 1

/-- Trailing zero bits of a w-bit pattern. -/
def ctzNat : Nat → Nat → Nat
  | 0, _ => 0
  | w + 1, x => if bitOf x 0 then 0 else ctzNat w (x / 2) + 1

/-- One bits among the w low bits. -/
def popcNat : Nat → Nat → Nat
  | 0, _ => 0
  | w + 1, x => natOfBool (bitOf x 0) + popcNat w (x / 2)

/-- Copy bit n - 1 of the n low bits to every bit above, in 64 bits. -/
def signFrom (x n : Nat) : Nat :=
  if n = 0 then 0
  else if bitOf x (n - 1) then x % 2 ^ n + (2 ^ 64 - 2 ^ n) else x % 2 ^ n

/-- The position and the length that operand b of R174 gives. -/
def fieldPos (b : Nat) : Nat := bitsOf b 0 6
def fieldLen (b : Nat) : Nat := min (bitsOf b 6 7) 64

def bfxNat (sgn : Bool) (a b : Nat) : Nat :=
  let f := (a >>> fieldPos b) % 2 ^ fieldLen b
  if sgn then signFrom f (fieldLen b) else f

/-- BFI of R174 on 64-bit words. -/
def bfiWord (a b c : Word) : Word :=
  let m : Word := BitVec.ofNat 64 (2 ^ fieldLen b.toNat - 1)
  (c &&& ~~~(m <<< fieldPos b.toNat)) ||| ((a &&& m) <<< fieldPos b.toNat)

/-! ### Meanings (R172) -/

def execAdd (h : Hdr) (o : IArith) (s : State) : Host.Outcome State Fault Refusal := arith h o (fun a b => a + b) s

def execSub (h : Hdr) (o : IArith) (s : State) : Host.Outcome State Fault Refusal := arith h o (fun a b => a - b) s

def execMul (h : Hdr) (o : IArith) (s : State) : Host.Outcome State Fault Refusal := arith h o (fun a b => a * b) s

/-- The high half of the exact product. -/
def execMulh (h : Hdr) (o : IBin) (s : State) : Host.Outcome State Fault Refusal :=
  arithNs h o (fun a b => a * b / (2 ^ o.ty.width : Nat)) s

def execDiv (h : Hdr) (o : IArith) (s : State) : Host.Outcome State Fault Refusal :=
  valueOp h [o.a, o.b] o.d
    (fun t => divWord o.ty o.sat (o.ty.read (t.val o.imm o.a)) (o.ty.read (t.valAfter o.imm [o.a] o.b))) s

def execRem (h : Hdr) (o : IBin) (s : State) : Host.Outcome State Fault Refusal := arithNs h o remInt s

def execAnd (h : Hdr) (o : IBin) (s : State) : Host.Outcome State Fault Refusal := bitwise h o (fun a b => a &&& b) s

def execOr (h : Hdr) (o : IBin) (s : State) : Host.Outcome State Fault Refusal := bitwise h o (fun a b => a ||| b) s

def execXor (h : Hdr) (o : IBin) (s : State) : Host.Outcome State Fault Refusal := bitwise h o (fun a b => a ^^^ b) s

/-- a and not b within w bits. -/
def execAndn (h : Hdr) (o : IBin) (s : State) : Host.Outcome State Fault Refusal :=
  bitwise h o (fun a b => a &&& (2 ^ o.ty.width - 1 - b)) s

/-- Shift amounts are b mod w. -/
def execShl (h : Hdr) (o : IBin) (s : State) : Host.Outcome State Fault Refusal :=
  bitwise h o (fun a b => a <<< (b % o.ty.width)) s

def execShr (h : Hdr) (o : IBin) (s : State) : Host.Outcome State Fault Refusal :=
  bitwise h o (fun a b => a >>> (b % o.ty.width)) s

/-- Bit w - 1 is copied in, whatever S. -/
def execSar (h : Hdr) (o : IBin) (s : State) : Host.Outcome State Fault Refusal :=
  bitwise h o (fun a b => (signedPat o.ty.width a / (2 ^ (b % o.ty.width) : Nat) % (2 ^ o.ty.width : Nat)).toNat) s

def execRotl (h : Hdr) (o : IBin) (s : State) : Host.Outcome State Fault Refusal :=
  bitwise h o (fun a b => rotlNat o.ty.width a (b % o.ty.width)) s

def execMin (h : Hdr) (o : IBin) (s : State) : Host.Outcome State Fault Refusal := arithNs h o min s

def execMax (h : Hdr) (o : IBin) (s : State) : Host.Outcome State Fault Refusal := arithNs h o max s

def execClz (h : Hdr) (o : IUn) (s : State) : Host.Outcome State Fault Refusal := bitCount h o clzNat s

def execCtz (h : Hdr) (o : IUn) (s : State) : Host.Outcome State Fault Refusal := bitCount h o ctzNat s

def execPopc (h : Hdr) (o : IUn) (s : State) : Host.Outcome State Fault Refusal := bitCount h o popcNat s

/-- Every bit above bit b[5:0] takes that bit (R174). -/
def execSext (h : Hdr) (o : IExt) (s : State) : Host.Outcome State Fault Refusal :=
  field2 h o.d o.a o.b o.imm (fun a b => signFrom a (fieldPos b + 1)) s

def execZext (h : Hdr) (o : IExt) (s : State) : Host.Outcome State Fault Refusal :=
  field2 h o.d o.a o.b o.imm (fun a b => a % 2 ^ (fieldPos b + 1)) s

def execBfx (h : Hdr) (o : IBfx) (s : State) : Host.Outcome State Fault Refusal := field2 h o.d o.a o.b o.imm (bfxNat o.sgn) s

def execBfi (h : Hdr) (o : ITri) (s : State) : Host.Outcome State Fault Refusal :=
  valueOp h [o.a, o.b, o.c] o.d
    (fun t => bfiWord (t.val o.imm o.a) (t.valAfter o.imm [o.a] o.b) (t.valAfter o.imm [o.a, o.b] o.c)) s

/-- The outcome goes to a predicate and, as 1 or 0, to the destination (R175, R181). -/
def outcomeOp (h : Hdr) (srcs : List Src) (d : Dst) (p : Fin 8) (f : State → Bool) (s : State) :
    Host.Outcome State Fault Refusal :=
  issue (gateR anyStrm srcs) h (useD srcs d) (fun t => .go ((t.putPred p (f t)).putDst d (boolWord (f t)))) s

def execCmp (h : Hdr) (o : ICmp) (s : State) : Host.Outcome State Fault Refusal :=
  outcomeOp h [o.a, o.b] o.d o.p (fun t => condHolds o.cond o.ty (t.val o.imm o.a) (t.valAfter o.imm [o.a] o.b)) s

/-- The chosen source, reduced and extended (R176). -/
def execSel (h : Hdr) (o : ISel) (s : State) : Host.Outcome State Fault Refusal :=
  issue (gateR anyStrm [o.a, o.b]) h { useD [o.a, o.b] o.d with preds := [o.p] } (fun t =>
    let v := if t.cur.pred o.p != o.inv then t.val o.imm o.a else t.valAfter o.imm [o.a] o.b
    .go (t.putDst o.d (o.ty.extend (o.ty.read v)))) s

def execMov (h : Hdr) (o : IUn) (s : State) : Host.Outcome State Fault Refusal :=
  valueOp h [o.a] o.d (fun t => o.ty.extend (o.ty.read (t.val o.imm o.a))) s

/-- Replace one 16-bit field (R177). -/
def execMovi (h : Hdr) (d : Fin 16) (k : Fin 4) (v : BitVec 16) (s : State) : Host.Outcome State Fault Refusal :=
  valueOp h [.n d] (.n d) (fun t =>
    (t.cur.n[d] &&& ~~~((0xFFFF : Word) <<< (16 * k.val))) ||| (v.setWidth 64 <<< (16 * k.val))) s

/-- a + (b << s) + c (R178). -/
def execLea (h : Hdr) (sh : Fin 16) (o : ITri) (s : State) : Host.Outcome State Fault Refusal :=
  valueOp h [o.a, o.b, o.c] o.d
    (fun t => t.val o.imm o.a + (t.valAfter o.imm [o.a] o.b <<< sh.val) + t.valAfter o.imm [o.a, o.b] o.c) s

end Sys2Proof.Machine
end

