-- ==== Sys2Proof/Machine/Sflt.lean ====
section
/-!
DEFINITION. Group SFLT: scalar floating point and PLOG (R179 to R183).
-/

namespace Sys2Proof.Machine

/-- A float operation of two sources (R179, R180). The operation takes the low bits that its type names. -/
def float2 (h : Hdr) (d : Dst) (a b : Src) (imm : BitVec 32) (f : Nat → Nat → Nat) (s : State) :
    Host.Outcome State Fault Refusal :=
  valueOp h [a, b] d (fun t => BitVec.ofNat 64 (f (t.val imm a).toNat (t.valAfter imm [a] b).toNat)) s

def execFadd (h : Hdr) (o : FBin) (s : State) : Host.Outcome State Fault Refusal :=
  float2 h o.d o.a o.b o.imm (fadd o.ty.ety (.rnd o.rnd) false) s

def execFmul (h : Hdr) (o : FBin) (s : State) : Host.Outcome State Fault Refusal :=
  float2 h o.d o.a o.b o.imm (fmul o.ty.ety (.rnd o.rnd) false) s

def execFfma (h : Hdr) (o : FTri) (s : State) : Host.Outcome State Fault Refusal :=
  valueOp h [o.a, o.b, o.c] o.d (fun t => BitVec.ofNat 64 (ffma o.ty.ety (.rnd o.rnd) false (t.val o.imm o.a).toNat
    (t.valAfter o.imm [o.a] o.b).toNat (t.valAfter o.imm [o.a, o.b] o.c).toNat)) s

def execFmin (h : Hdr) (o : FMinMax) (s : State) : Host.Outcome State Fault Refusal :=
  float2 h o.d o.a o.b o.imm (fmin o.ty.ety) s

def execFmax (h : Hdr) (o : FMinMax) (s : State) : Host.Outcome State Fault Refusal :=
  float2 h o.d o.a o.b o.imm (fmax o.ty.ety) s

def execFcmp (h : Hdr) (o : FCmp) (s : State) : Host.Outcome State Fault Refusal :=
  outcomeOp h [o.a, o.b] o.d o.p (fun t => fcondHolds o.cond o.ty (t.val o.imm o.a) (t.valAfter o.imm [o.a] o.b)) s

/-- Destination and source types of FCVT (R182). -/
def FCvt.dty (o : FCvt) : EType := if o.toSz then o.ty.ety else o.other
def FCvt.sty (o : FCvt) : EType := if o.toSz then o.other else o.ty.ety

/-- Extend a converted pattern: an integer by its own signedness, anything else by zeros (R182). -/
def extendElem (ty : EType) (x : Nat) : Word := BitVec.ofNat 64 (if ty.isSigned then signFrom x ty.bits else x)

def execFcvt (h : Hdr) (o : FCvt) (s : State) : Host.Outcome State Fault Refusal :=
  valueOp h [o.a] o.d (fun t => extendElem (FCvt.dty o)
    (convertBits (FCvt.dty o) (FCvt.sty o) (.rnd o.rnd) o.sat (t.val o.imm o.a).toNat)) s

def execPlog (h : Hdr) (pd pa pb : Fin 8) (tbl : BitVec 4) (s : State) : Host.Outcome State Fault Refusal :=
  issue (gateN anyStrm) h { useS [] with preds := [pa, pb] } (fun t =>
    .go (t.putPred pd (plogBit tbl (t.cur.pred pa) (t.cur.pred pb)))) s

end Sys2Proof.Machine
end

