-- ==== Sys2Proof/Machine/Ctrl.lean ====
section
/-!
DEFINITION. Group CTRL: transfers, loops, sections, waits, time, identifiers, queues (R184 to R202).
-/

namespace Sys2Proof.Machine

/-! ### Transfers (R147, R148, R184 to R191) -/

/-- The address PC + 4 · OFFSET, in units (R147). -/
def State.target (s : State) (off : BitVec 32) : BitVec 32 := s.cur.pc + off

/-- End an instruction with what its transfer came to; srcs are popped when it is taken. -/
def xferDone (srcs : List Src) (post : State → State) : Xfer → Done
  | .to t => .stay (post (t.popAll srcs))
  | .illegal t => t.trapDone .illegal
  | .fail t b => t.fetchDone b

def execBr (h : Hdr) (off : BitVec 32) (s : State) : Host.Outcome State Fault Refusal :=
  issue (gateN anyStrm) h (useS []) (fun t => xferDone [] id (t.transfer (t.target off))) s

def execBrIndirect (h : Hdr) (a : Src) (s : State) : Host.Outcome State Fault Refusal :=
  issue (gateN anyStrm) h (useS [a]) (fun t => xferDone [a] id (t.transfer ((t.val 0 a).setWidth 32))) s

def execBc (h : Hdr) (cond : ICond) (ty : ITy) (a b : Src) (off : BitVec 32) (s : State) :
    Host.Outcome State Fault Refusal :=
  issue (gateN anyStrm) h (useS [a, b]) (fun t =>
    if condHolds cond ty (t.val 0 a) (t.valAfter 0 [a] b) then xferDone [a, b] id (t.transfer (t.target off)) else .go t) s

/-- The branch-outcome queue that a stream pops from its first or second other stream. -/
def popBq (who : Strm) (second : Bool) : Fin 6 := bqNum (if second then who.second else who.first) who

/-- The one it pushes to. -/
def pushBq (who : Strm) (second : Bool) : Fin 6 := bqNum who (if second then who.second else who.first)

/-- Pop a branch-outcome queue. -/
def State.popBqAt (s : State) (k : Fin 6) : State := { s with core := s.core.setBq k (s.core.bq[k]).pop }

def State.pushBqAt (s : State) (k : Fin 6) (b : Bool) : State := { s with core := s.core.setBq k ((s.core.bq[k]).push b) }

/-- Room of a branch-outcome queue: 16 entries (R50). -/
def BitQ.room (q : BitQ) : Bool := decide (q.ents.length < 16)

def execBq (h : Hdr) (q inv : Bool) (pd : Fin 8) (off : BitVec 32) (s : State) : Host.Outcome State Fault Refusal :=
  issue (gateN anyStrm) h (useS []) (fun t =>
    let k := popBq t.who q
    match (t.core.bq[k]).head? with
    | none => .hold .bq
    | some x =>
      let post (u : State) : State := (u.popBqAt k).putPred pd x
      if x != inv then xferDone [] post (t.transfer (t.target off)) else .go (post t)) s

/-- The form that only pops; the invert bit does nothing there (DESIGN CHOICE, log entry 88). -/
def execBqNobranch (h : Hdr) (q _inv : Bool) (pd : Fin 8) (s : State) : Host.Outcome State Fault Refusal :=
  issue (gateN anyStrm) h (useS []) (fun t =>
    let k := popBq t.who q
    match (t.core.bq[k]).head? with
    | none => .hold .bq
    | some x => .go ((t.popBqAt k).putPred pd x)) s

def execBpush (h : Hdr) (tgt : Bool) (p : Fin 8) (inv : Bool) (s : State) : Host.Outcome State Fault Refusal :=
  issue (gateN anyStrm) h { useS [] with preds := [p] } (fun t =>
    let k := pushBq t.who tgt
    if (t.core.bq[k]).room then .go (t.pushBqAt k (t.cur.pred p != inv)) else .hold .bq) s

/-- JTAB: the default target without a read, or the table's entry, read at issue as a load (R189, log entry 13). POISON of the
read is the deferred trap of a load, taken at JTAB. OFFSET is read as unsigned, and the default target is a fall-through, no
transfer (DESIGN CHOICE, log entry 89). -/
def execJtab (h : Hdr) (a : Src) (cap : Fin 16) (len : BitVec 16) (off : BitVec 32) (s : State) :
    Host.Outcome State Fault Refusal :=
  issue (gateN anyStrm) h (useS [a]) (fun t =>
    let i := (t.val 0 a).toNat
    if len.toNat ≤ i then .go t
    else
      match t.access t.tenant t.core.caps[cap] (off.toNat + 4 * i : Nat) 4 1 [permR] .read with
      | (t, .error b) => t.badDone b
      | (t, .ok ps) =>
        if t.soWait ps then .hold .other
        else
          let parts := ps.map (·.part)
          match t.loadElem parts (t.ownBytes parts) with
          | (t, none) => .trap t { t.precise .poison 0 with defd := true }
          | (t, some e) => xferDone [a] id (t.transfer (t.target (BitVec.ofNat 32 e)))) s

/-- The return record of a CALL (R190). -/
def State.linkRecord (s : State) : Word := BitVec.ofNat 64 (s.cur.next.toNat + s.cur.shdr.toNat * 2 ^ 32)

/-- CALL to an address (R190). -/
def callTo (link : Dst) (srcs : List Src) (f : State → BitVec 32) (t : State) : Done :=
  if t.cur.next = t.cur.secEnd then t.trapDone .illegal
  else
    let r := t.linkRecord
    xferDone srcs (fun u => u.putDst link r) (t.transfer (f t))

def execCall (h : Hdr) (link : Dst) (off : BitVec 32) (s : State) : Host.Outcome State Fault Refusal :=
  issue (gateN anyStrm) h (useD [] link) (callTo link [] fun t => t.target off) s

def execCallIndirect (h : Hdr) (link : Dst) (a : Src) (s : State) : Host.Outcome State Fault Refusal :=
  issue (gateN anyStrm) h (useD [a] link) (callTo link [a] fun t => (t.val 0 a).setWidth 32) s

/-- RET (R191, R148). -/
def execRet (h : Hdr) (a : Src) (s : State) : Host.Outcome State Fault Refusal :=
  issue (gateN anyStrm) h (useS [a]) (fun t =>
    let r := t.val 0 a
    let pc : BitVec 32 := r.setWidth 32
    let hdr : BitVec 32 := r.extractLsb' 32 32
    match t.header hdr with
    | (t, .error b) => t.fetchDone b
    | (t, .ok none) => t.trapDone .illegal
    | (t, .ok (some g)) =>
      if (wordIn hdr g.len pc).isNone then t.trapDone .illegal
      else if hdr = t.cur.shdr then .stay ((t.gotoWord pc).popAll [a])
      else .stay ((t.gotoReturn hdr pc).popAll [a])) s

/-! ### Loops (R192 to R195) -/

/-- Words of the loop buffer (R49). -/
def loopWords : Nat := 256

/-- Does a level's body fit the loop buffer? -/
def LoopLvl.short (v : LoopLvl) : Bool := decide ((v.stop - v.start).toNat ≤ 3 * loopWords)

/-- Does a word run from the loop buffer: it lies in the body of an active level that fits? -/
def Stream.inBuffer (x : Stream) (a : BitVec 32) : Bool :=
  x.lbv && x.loops.any fun v => v.short && decide ((a - v.start).toNat < (v.stop - v.start).toNat)

/-- The word that the loop buffer holds for an address. -/
def Stream.buffered (x : Stream) (a : BitVec 32) : Option (BitVec 96) :=
  if x.inBuffer a then (x.lbuf.find? fun e => e.1 = a).map (·.2) else none

/-- A word that has been fetched goes into the loop buffer when it runs from there. -/
def Stream.keepWord (x : Stream) (a : BitVec 32) (w : BitVec 96) : Stream :=
  if x.inBuffer a && x.lbuf.all fun e => e.1 != a then { x with lbuf := (a, w) :: x.lbuf } else x

/-- LOOP: the level opens; a body that fits makes the loop buffer valid (log entry 86). What the buffer holds stays inside a body
that it already holds. -/
def execLoop (h : Hdr) (cnt : LoopCount) (body : BitVec 16) (s : State) : Host.Outcome State Fault Refusal :=
  let srcs := match cnt with
    | .imm _ => []
    | .src a => [a]
  issue (gateN anyStrm) h (useS srcs) (fun t =>
    let x := t.cur
    let n : BitVec 32 := match cnt with
      | .imm c => c
      | .src a => (t.val 0 a).setWidth 32
    let start := x.next
    let stop := start + BitVec.ofNat 32 (3 * body.toNat)
    let past (e : BitVec 32) : Bool := decide ((e - x.shdr).toNat < (stop - x.shdr).toNat)
    if 3 ≤ x.loops.length || past x.secEnd || x.loops.any (fun (v : LoopLvl) => past v.stop) then t.trapDone .illegal
    else if n = 0 then .stay (State.popAll { t with core := t.core.fallTo t.who stop } srcs)
    else
      let k := lvlNum x.loops
      .go (t.mapCur fun x =>
        { x with lc := x.lc.set k 0, loops := ⟨n, start, stop⟩ :: x.loops, lbv := decide (body.toNat ≤ loopWords)
                 lbuf := if x.loops.any LoopLvl.short then x.lbuf else [] })) s

/-- LBRK: to the word after the body of the outermost level closed; past the section's last word, to the next header. -/
def execLbrk (h : Hdr) (n : Fin 4) (s : State) : Host.Outcome State Fault Refusal :=
  issue (gateN anyStrm) h (useS []) (fun t =>
    match (t.cur.loops.drop (n.val - 1)).head? with
    | none => t.trapDone .illegal
    | some v =>
      let t := t.mapCur fun x => { x with loops := x.loops.drop n.val }
      if v.stop = t.cur.secEnd then .stay (t.gotoHeader v.stop) else .stay (t.gotoWord v.stop)) s

/-! ### Sections, waits, time (R196 to R201) -/

def execNop (h : Hdr) (s : State) : Host.Outcome State Fault Refusal := issue (gateN anyStrm) h (useS []) (fun t => .go t) s

/-- On to the header after the section's last word. -/
def execEnds (h : Hdr) (s : State) : Host.Outcome State Fault Refusal :=
  issue (gateN anyStrm) h (useS []) (fun t => .stay (t.gotoHeader t.cur.secEnd)) s

/-- Every slot zero and every result entry filled. -/
def Stream.quiet (x : Stream) : Bool := x.sb.toList.all (· = 0) && x.rq.all fun e => e.2.isSome

def execSbwait (h : Hdr) (all : Bool) (s : State) : Host.Outcome State Fault Refusal :=
  issue (gateN anyStrm) h (useS []) (fun t => if all && !t.cur.quiet then .hold .other else .go t) s

/-- Has the target of a sleep been reached (R198)? -/
def State.sleepOver (s : State) (z : Sleeping) : Bool :=
  if z.mode = 0 then decide (((s.cyc.toNat + 2 ^ 48 - z.opnd.toNat % 2 ^ 48) % 2 ^ 48) < 2 ^ 47)
  else if z.mode = 1 then decide (z.opnd.toNat ≤ s.cyc.toNat)
  else decide (z.since.toNat + min z.opnd.toNat (2 ^ 32 - 1) ≤ s.cyc.toNat)

/-- Does an outstanding copy command of the core bear the tag (R199)? -/
def Core.tagBusy (c : Core) (tag : BitVec 16) : Bool := c.copy.any fun m => m.tag = tag && !m.done

/-- SLEEP_END: the sleep of the stream in issue ends; a promise not kept raises PROMISE (R199). The slot that the SLEEP holds
falls when it completes (R53, R198). -/
def State.endSleep (s : State) (z : Sleeping) : State :=
  let tag : BitVec 16 := z.opnd.extractLsb' 48 16
  if z.mode = 0 && s.core.tagBusy tag then
    let (p, s) := s.newPromise tag
    let s := s.mapCur fun x => { x with asleep := some z, npfx := z.npfx }
    s.raise { s.precise .promise 0 with slp := some p }
  else (s.mapCur fun x => { x.sbClear? z.set with asleep := none, npfx := z.npfx }).advance

/-- May a sleep whose target is reached end at once? Whether a promise is kept shows at the end of the clock only (R199). -/
def State.sleepKept (s : State) (z : Sleeping) : Bool := z.mode != 0 || !s.core.tagBusy (z.opnd.extractLsb' 48 16)

/-- The stream goes to sleep at its SLEEP, which takes its scoreboard slot until it completes (R198). -/
def Stream.sleep (x : Stream) (z : Sleeping) : Stream := { x.noPfx.sbSet? z.set with asleep := some z }

/-- SLEEP with its operand: it ends at once when its target is reached and, in promise mode, the promise is kept. -/
def sleepOp (h : Hdr) (a : Src) (imm : BitVec 32) (mode : Fin 3) (s : State) : Host.Outcome State Fault Refusal :=
  issue (gateR anyStrm [a]) h (useS [a]) (fun t =>
    let z : Sleeping := ⟨mode, t.val imm a, t.cur.npfx, t.cyc, h.set⟩
    let t := t.popAll [a]
    .stay (if t.sleepOver z && t.sleepKept z then t.endSleep { z with set := none } else t.mapCur fun x => x.sleep z)) s

def execSleep (h : Hdr) (a : Src) (imm : BitVec 32) (s : State) : Host.Outcome State Fault Refusal := sleepOp h a imm 0 s

def execSleepUntil (h : Hdr) (a : Src) (imm : BitVec 32) (s : State) : Host.Outcome State Fault Refusal := sleepOp h a imm 1 s

def execSleepFor (h : Hdr) (a : Src) (imm : BitVec 32) (s : State) : Host.Outcome State Fault Refusal := sleepOp h a imm 2 s

/-- The event: nothing while the target is not reached. -/
def execSleepEnd (k : Strm) (s : State) : Host.Outcome State Fault Refusal :=
  match (s.core.strm k).asleep with
  | some z => if s.sleepOver z then .next (State.endSleep { s with who := k } z) else .next s
  | none => .next s

def execRdtime (h : Hdr) (ftime : Bool) (d : Dst) (s : State) : Host.Outcome State Fault Refusal :=
  valueOp h [] d (fun t => if ftime then t.ftime else t.cyc) s

/-- The identifier that COND selects (R201). -/
def State.ident (s : State) (sel : Nat) : Nat :=
  let dcc := isDcc s.cid
  let f (g : StepCtx → Nat) : Nat := (s.core.ctx.map g).getD 0
  match sel with
  | 0 => s.cid
  | 1 => dieOf s.cid
  | 2 => if dcc then 0x100 else s.cid % 256
  | 3 => Strm.num s.who
  | 4 => f fun x => x.log.toNat
  | 5 => f fun x => x.region.toNat
  | 6 => s.tenant
  | 7 => f fun x => x.va
  | 8 => f fun x => x.base.ftoken.toNat * 2 ^ 32 + x.base.stepseq.toNat
  | 9 => f fun x => x.depth.val
  | 10 => s.cur.lc[0].toNat
  | 11 => s.cur.lc[1].toNat
  | 12 => s.cur.lc[2].toNat
  | _ => natOfBool s.systemMode

def execRdid (h : Hdr) (sel : Fin 14) (d : Dst) (s : State) : Host.Outcome State Fault Refusal :=
  valueOp h [] d (fun t => BitVec.ofNat 64 (t.ident sel.val)) s

/-! ### Queues without blocking (R202) -/

/-- The stream that pushes queue k of R202, and the one that pops it. -/
def qPusher (k : Fin 8) : Strm :=
  match k.val with
  | 0 | 2 | 3 => .l
  | 1 | 4 | 5 => .c
  | _ => .s

def qPopper (k : Fin 8) : Strm :=
  match k.val with
  | 0 | 2 | 7 => .c
  | 4 | 6 => .l
  | _ => .s

/-- The branch-outcome queue of k at or above 2. -/
def qBranch (k : Fin 8) : Fin 6 := Fin.ofNat 6 (k.val - 2)

/-- Filled and reserved entries. -/
def Core.qCount (c : Core) (k : Fin 8) : Nat :=
  match k.val with
  | 0 => c.ldq.ents.length
  | 1 => c.sdq.ents.length
  | _ => (c.bq[qBranch k]).ents.length

/-- Entries a queue has. -/
def qSize (k : Fin 8) : Nat := if k.val < 2 then 32 else 16

/-- Push a value into queue k by the stream that pushes it. -/
def State.qPush (s : State) (k : Fin 8) (v : Word) : State :=
  if k.val < 2 then s.putDst .q v else s.pushBqAt (qBranch k) (v != 0)

/-- Pop the head of queue k by the stream that pops it, if it is poppable. -/
def State.qPop (s : State) (k : Fin 8) : Option (Word × State) :=
  if k.val < 2 then
    match (s.core.popQ s.who).poppable with
    | v :: _ => some (v, s.popSrc .q)
    | [] => none
  else (s.core.bq[qBranch k]).head?.map fun b => (boolWord b, s.popBqAt (qBranch k))

def execQpush (h : Hdr) (q : Fin 8) (p : Fin 8) (a : Src) (imm : BitVec 32) (s : State) :
    Host.Outcome State Fault Refusal :=
  issueIf (qPusher q = s.who) (gateR anyStrm [a]) h (useS [a]) (fun t =>
    if t.core.qCount q < qSize q then .go ((t.qPush q (t.val imm a)).putPred p true) else .go (t.putPred p false)) s

def execQpop (h : Hdr) (q : Fin 8) (d : Dst) (p : Fin 8) (s : State) : Host.Outcome State Fault Refusal :=
  issueIf (qPopper q = s.who) (gateN anyStrm) h (useD [] d) (fun t =>
    match t.qPop q with
    | some (v, t) => .go ((t.putPred p true).putDst d v)
    | none => .go ((t.putPred p false).putDst d 0)) s

def execQcnt (h : Hdr) (q : Fin 8) (d : Dst) (s : State) : Host.Outcome State Fault Refusal :=
  issueIf (qPusher q = s.who || qPopper q = s.who) (gateN anyStrm) h (useD [] d)
    (fun t => .go (t.putDst d (BitVec.ofNat 64 (t.core.qCount q)))) s

/-! ### Prefixes (R156 to R159) -/

/-- Is the prefix at the PC the last word of its section or of an active loop's body (R156)? -/
def Stream.pfxLast (x : Stream) : Bool := x.next = x.secEnd || x.loops.any fun (v : LoopLvl) => x.next = v.stop

/-- Latch one prefix word of the pair that is being issued; again: the pair already has one of its kind. -/
def latchPfx (again : Bool) (f : Stream → Stream) (s : State) : Host.Outcome State Fault Refusal :=
  if again || s.cur.pfxLast then .next (s.raise (s.encTrap .prefx s.cur.npfx))
  else .next (s.mapCur fun x => { f x with npfx := x.npfx + 1 })

def execPfxi (payload : BitVec 68) (s : State) : Host.Outcome State Fault Refusal :=
  latchPfx s.cur.wide.isSome (fun x => { x with wide := some payload, wideAt := x.npfx }) s

def execPfxm (f : RowPfx) (s : State) : Host.Outcome State Fault Refusal :=
  latchPfx s.cur.rows.isSome (fun x => { x with rows := some f }) s

end Sys2Proof.Machine
end

