-- ==== Sys2Proof/Machine/Own.lean ====
section
/-!
DEFINITION. The words that describe engine commands: copy endpoints and lengths, accumulator regions, matrix operands
(R229 to R238, R268 to R271, R277, R281); the ownership windows of checking mode (R65, R274).
-/

namespace Sys2Proof.Machine

/-! ### Windows (R65) -/

/-- Two ranges conflict: they share a byte, which an empty one does with none, and one of them writes. -/
def Win.clash (a b : Win) : Bool :=
  a.space = b.space && (a.wr || b.wr) && a.len != 0 && b.len != 0 && decide (a.lo < b.lo + b.len) && decide (b.lo < a.lo + a.len)

/-! ### Copy words (R229 to R238) -/

/-- An endpoint: space, capability, byte offset or address, slice. -/
structure Ep where
  spc   : Nat
  cap   : Fin 16
  off   : Int
  slice : Nat
  deriving DecidableEq, Repr

/-- Bytes of a store. -/
def storeSize (spc : Nat) : Nat := if spc = 3 ∨ spc = 4 then 2 ^ 21 else 2 ^ 20

/-- Sign-extend the low w bits. -/
def signedBits (w x : Nat) : Int := if bitOf x (w - 1) then ((x % 2 ^ w : Nat) : Int) - (2 ^ w : Nat) else ((x % 2 ^ w : Nat) : Int)

/-- Read an endpoint word; none is ILLEGAL. -/
def epOf (w : Word) : Option Ep :=
  let x := w.toNat
  let at_ (n : Int) (s : Nat) : Ep := ⟨x % 16, 0, n, s⟩
  match x % 16 with
  | 0 => if bitsOf x 48 16 = 0 then some ⟨0, Fin.ofNat 16 (bitsOf x 4 4), signedBits 40 (bitsOf x 8 40), 0⟩ else none
  | 1 | 2 => if bitsOf x 24 40 = 0 then some (at_ (bitsOf x 4 20) 0) else none
  | 3 => if bitsOf x 23 41 = 0 then some (at_ (4 * bitsOf x 4 19 : Nat) 0) else none
  | 4 => if bitsOf x 33 31 = 0 then some (at_ (bitsOf x 12 21) (bitsOf x 4 8)) else none
  | _ => none

/-- Does a range of n bytes stay inside its store? Memory ranges are checked by granule. -/
def Ep.fits (e : Ep) (n : Nat) : Bool := e.spc = 0 || (decide (0 ≤ e.off) && decide (e.off + n ≤ storeSize e.spc))

/-- A range that a command names: its endpoint, bytes, direction; wide: the bytes it touches follow from a record in memory or from
indices, and not from the words alone. -/
structure Span where
  ep   : Ep
  len  : Nat
  wr   : Bool
  wide : Bool
  deriving DecidableEq, Repr

/-- The range of n bytes at an offset from an endpoint. -/
def Ep.at_ (e : Ep) (off : Int) (n : Nat) (wr : Bool) : Span := ⟨{ e with off := e.off + off }, n, wr, false⟩

/-- The window that a span opens over SPC 1 to 3. -/
def Span.win (p : Span) : List Win :=
  if p.ep.spc = 0 || p.ep.spc = 4 then [] else [⟨p.ep.spc, p.ep.off.toNat, p.len, p.wr⟩]

/-- A length word. -/
def lenWord (w : Word) : Option Nat :=
  let x := w.toNat
  if bitsOf x 32 32 != 0 || x % 2 ^ 32 = 0 then none else some (x % 2 ^ 32)

/-- A layout or group reference: capability, offset a multiple of a power of two. -/
def refWord (w : Word) (align : Nat) : Option (Fin 16 × Int) :=
  let x := w.toNat
  let off := signedBits 40 (bitsOf x 4 40)
  if bitsOf x 44 20 != 0 || off % align != 0 then none else some (Fin.ofNat 16 (x % 16), off)

/-- An element type code (R67), e2m1 and e8m0 among them; reserved codes give none. -/
def etypeOf (c : Nat) : Option EType :=
  match c with
  | 0 => some .f32
  | 1 => some .bf16
  | 2 => some .f16
  | 3 => some .e4m3
  | 4 => some .e5m2
  | 5 => some .e2m1
  | 6 => some .e8m0
  | 8 => some .s8
  | 9 => some .s16
  | 10 => some .s32
  | 11 => some .z8
  | 12 => some .z16
  | 13 => some .z32
  | _ => none

/-- Bytes of an element; 0 for e2m1. -/
def elemBytes (ty : EType) : Nat := ty.bits / 8

/-- The words of CPYT (R233). -/
structure TrWord where
  rows   : Nat
  cols   : Nat
  ty     : EType
  spitch : Nat
  dpitch : Nat
  deriving DecidableEq, Repr

def trWord (shape pitch : Word) : Option TrWord :=
  let x := shape.toNat
  match etypeOf (bitsOf x 48 4) with
  | some ty =>
    if bitsOf x 0 24 = 0 || bitsOf x 24 24 = 0 || bitsOf x 52 12 != 0 || elemBytes ty = 0 then none
    else some ⟨bitsOf x 0 24, bitsOf x 24 24, ty, bitsOf pitch.toNat 0 32, bitsOf pitch.toNat 32 32⟩
  | none => none

/-- Units of a dense cord of a type (R83). -/
def cordUnits (ty : EType) : Nat := if ty = .bf16 then 65 else 33

/-- The row word of CGATH and CSCAT: ROWB, COUNT, STRIDE. -/
def rowWord (w : Word) : Option (Nat × Nat × Nat) :=
  let x := w.toNat
  if bitsOf x 0 16 = 0 || bitsOf x 16 16 = 0 then none else some (bitsOf x 0 16, bitsOf x 16 16, bitsOf x 32 32)

/-- OP codes of the reduce word (R235). -/
def redOf (c : Nat) : Option RedKind :=
  match c with
  | 0 => some .add
  | 1 => some .min
  | 2 => some .max
  | 3 => some .and
  | 4 => some .or
  | 5 => some .xor
  | _ => none

/-- A type of reduce and collective words: f32, bf16, s32, z32. -/
def redType (c : Nat) : Option EType :=
  match etypeOf c with
  | some .f32 => some .f32
  | some .bf16 => some .bf16
  | some .s32 => some .s32
  | some .z32 => some .z32
  | _ => none

def RedKind.bitwise : RedKind → Bool
  | .and | .or | .xor => true
  | _ => false

/-- The reduce word: LEN, OP, ETYPE. A LEN of 0 is ILLEGAL (log entry 106). -/
def redWord (w : Word) : Option (Nat × RedKind × EType) :=
  let x := w.toNat
  match redOf (bitsOf x 32 4), redType (bitsOf x 36 4) with
  | some op, some ty =>
    let n := bitsOf x 0 32
    if bitsOf x 40 24 != 0 || (RedKind.bitwise op && ty.isFloat) || n = 0 || n % elemBytes ty != 0 then none
    else some (n, op, ty)
  | _, _ => none

/-- The compress word: N, FMT (R236). An N of 0 is accepted: the command completes without a granule (log entry 106). -/
def cmpWord (w : Word) : Option (Nat × EType) :=
  let x := w.toNat
  if bitsOf x 36 28 != 0 then none
  else match bitsOf x 32 4 with
    | 1 => some (bitsOf x 0 32, .bf16)
    | 3 => some (bitsOf x 0 32, .e4m3)
    | 4 => some (bitsOf x 0 32, .e5m2)
    | _ => none

/-- The collective word: KIND, OP, ETYPE, N (R237). -/
structure CollWord where
  kind : Nat
  op   : Nat
  ty   : EType
  n    : Nat
  deriving DecidableEq, Repr

/-- Read a collective word; an OP above 2 is ILLEGAL with every KIND (log entry 106). -/
def collWord (w : Word) : Option CollWord :=
  let x := w.toNat
  match redType (bitsOf x 8 4) with
  | some ty =>
    if 3 < bitsOf x 0 4 || 2 < bitsOf x 4 4 || bitsOf x 12 32 = 0 || bitsOf x 44 20 != 0 then none
    else some ⟨bitsOf x 0 4, bitsOf x 4 4, ty, bitsOf x 12 32⟩
  | none => none

/-- The entry word of DRAFT: PAGES, TGT, SLICE, SOFF (R238). -/
structure DrWord where
  pages : Nat
  tgt   : Bool
  slice : Nat
  soff  : Nat
  deriving DecidableEq, Repr

def drWord (w : Word) : Option DrWord :=
  let x := w.toNat
  if bitsOf x 5 3 != 0 || bitsOf x 9 7 != 0 || bitsOf x 45 19 != 0 then none
  else some ⟨bitsOf x 0 5, bitOf x 8, bitsOf x 16 8, bitsOf x 24 21⟩

/-- The ranges of a copy command, the destination first and then the source, none when its words are ILLEGAL (R229 to R238). A
destination of CPYT.cord that is no multiple of 64 bytes begins at its unit (DESIGN CHOICE, log entry 91). -/
def copySpans (op : CopyOp) (d : Vector Word 4) : Option (List Span) := do
  match op with
  | .cpy =>
    let dst ← epOf d[0]
    let src ← epOf d[1]
    let n ← lenWord d[2]
    return [⟨dst, n, true, false⟩, ⟨src, n, false, false⟩]
  | .cfill =>
    let dst ← epOf d[0]
    let n ← lenWord d[2]
    return [⟨dst, n, true, false⟩]
  | .cbget =>
    let dst ← epOf d[0]
    let src ← epOf d[1]
    let n ← lenWord d[2]
    if 2 ^ 20 < n then none else return [⟨dst, n, true, false⟩, ⟨src, n, false, false⟩]
  | .cpyn =>
    let dst ← epOf d[0]
    let src ← epOf d[1]
    let _ ← refWord d[2] 256
    let _ ← refWord d[3] 256
    return [⟨dst, 0, true, true⟩, ⟨src, 0, false, true⟩]
  | .cpyt cord =>
    let dst ← epOf d[0]
    let src ← epOf d[1]
    let t ← trWord d[2] d[3]
    let b := elemBytes t.ty
    let rd : Span := ⟨src, (t.rows - 1) * t.spitch + t.cols * b, false, false⟩
    if cord then
      if dst.spc != 2 || !(t.ty = .e4m3 || t.ty = .e5m2 || t.ty = .bf16) || t.cols % 32 != 0 || t.rows % 64 != 0 || t.dpitch != 0
      then none
      else return [⟨{ dst with off := dst.off / 64 * 64 }, t.cols / 32 * (t.rows / 64) * cordUnits t.ty * 64, true, false⟩, rd]
    else if t.dpitch < t.rows * b then none
    else return [⟨dst, (t.cols - 1) * t.dpitch + t.rows * b, true, false⟩, rd]
  | .cgath =>
    let dst ← epOf d[0]
    let src ← epOf d[1]
    let ix ← epOf d[2]
    let (rowb, count, _) ← rowWord d[3]
    if ix.spc != 1 || ix.off % 4 != 0 then none
    else return [⟨dst, count * rowb, true, false⟩, ⟨src, 0, false, true⟩, ⟨ix, 4 * count, false, false⟩]
  | .cscat =>
    let dst ← epOf d[0]
    let src ← epOf d[1]
    let ix ← epOf d[2]
    let (rowb, count, _) ← rowWord d[3]
    if ix.spc != 1 || ix.off % 4 != 0 then none
    else return [⟨dst, 0, true, true⟩, ⟨src, count * rowb, false, false⟩, ⟨ix, 4 * count, false, false⟩]
  | .cred =>
    let dst ← epOf d[0]
    let src ← epOf d[1]
    let (n, _, ty) ← redWord d[2]
    if (dst.spc = 3 && ty != .f32) || (dst.spc != 0 && dst.off % elemBytes ty != 0) || (src.spc != 0 && src.off % elemBytes ty != 0)
    then none
    else return [⟨dst, n, true, false⟩, ⟨src, n, false, false⟩]
  | .credc =>
    let dst ← epOf d[0]
    let src ← epOf d[1]
    let res ← epOf d[2]
    let (n, _) ← cmpWord d[3]
    return [⟨dst, 4 * n, true, false⟩, ⟨src, 4 * n, false, false⟩, ⟨res, 4 * n, true, false⟩]
  | .ccoll =>
    let dst ← epOf d[0]
    let src ← epOf d[1]
    let w ← collWord d[2]
    let _ ← refWord d[3] 64
    let b := elemBytes w.ty * w.n
    return [⟨dst, b, true, true⟩, ⟨src, b, false, true⟩]
  | .draft =>
    let pg ← epOf d[0]
    let _ ← drWord d[1]
    if pg.spc != 0 || pg.off % 65536 != 0 || bitsOf d[3].toNat 32 32 != 0 then none else return []

/-! ### Matrix words (R268 to R271, R277, R281) -/

structure Region where
  acc0  : Nat
  m     : Nat
  n     : Nat
  kb    : Nat
  int   : Bool
  pitch : Nat
  deriving DecidableEq, Repr

/-- A region word; mma: KB from 1 to 256, else 0. -/
def regionOf (w : Word) (mma : Bool) : Option Region :=
  let x := w.toNat
  let r : Region := ⟨bitsOf x 0 19, bitsOf x 19 9, bitsOf x 28 12, bitsOf x 40 9, bitOf x 49, bitsOf x 50 14⟩
  let kbOk := if mma then decide (1 ≤ r.kb) && decide (r.kb ≤ 256) else r.kb = 0
  if r.acc0 % 32 = 0 && decide (1 ≤ r.m) && decide (r.m ≤ 256) && decide (32 ≤ r.n) && decide (r.n ≤ 2048) && r.n % 32 = 0 && kbOk &&
      r.pitch % 32 = 0 && decide (r.n ≤ r.pitch) && decide (r.acc0 + (r.m - 1) * r.pitch + r.n ≤ 524288)
  then some r else none

/-- Bytes of a row of k elements (e2m1: two a byte). -/
def rowBytes (ty : EType) (k : Nat) : Nat := (k * ty.bits + 7) / 8

structure AWord where
  byte  : Nat
  pitch : Nat
  ty    : EType
  scl   : Option Nat
  deriving DecidableEq, Repr

/-- The A word against a region (R269). -/
def aWordOf (w : Word) (r : Region) : Option AWord :=
  let x := w.toNat
  match etypeOf (bitsOf x 26 4) with
  | none => none
  | some ty =>
    let a : AWord := ⟨1024 * bitsOf x 0 10, bitsOf x 10 16, ty, if bitOf x 30 then some (1024 * bitsOf x 31 10) else none⟩
    let row := rowBytes ty (32 * r.kb)
    let sclOk := match a.scl with
      | some s => (ty = .e4m3 || ty = .e5m2 || ty = .e2m1) && decide (s + r.m * r.kb ≤ 2 ^ 20)
      | none => bitsOf x 31 10 = 0
    if bitsOf x 41 23 = 0 && decide (row ≤ a.pitch) && decide (a.byte + (r.m - 1) * a.pitch + row ≤ 2 ^ 20) && sclOk
    then some a else none

structure BWord where
  unit : Nat
  raw  : Option EType
  step : Nat
  deriving DecidableEq, Repr

/-- The B word against a region (R270). -/
def bWordOf (w : Word) (r : Region) : Option BWord :=
  let x := w.toNat
  let u := bitsOf x 0 14
  let st := bitsOf x 15 7
  if bitsOf x 26 38 != 0 || st = 0 then none
  else if bitOf x 14 then
    match etypeOf (bitsOf x 22 4) with
    | none => none
    | some ty =>
      let row := rowBytes ty r.n
      if decide (row ≤ st * 64) && decide (u * 64 + (32 * r.kb - 1) * st * 64 + row ≤ 2 ^ 20) then some ⟨u, some ty, st⟩ else none
  else if bitsOf x 22 4 = 0 && r.n % 64 = 0 && decide (u + r.kb * (r.n / 64) * st ≤ 0x4000) then some ⟨u, none, st⟩
  else none

/-- The formats of R271 that a type of A goes with: the raw types, and the cord formats. -/
def rawPairs : EType → List EType
  | .e4m3 | .e5m2 => [.e4m3, .e5m2]
  | .e2m1 => [.e2m1]
  | .bf16 => [.bf16]
  | .f16 => [.f16]
  | .s8 | .z8 => [.s8, .z8]
  | _ => []

def cordPairs : EType → List Nat
  | .e4m3 | .e5m2 => [0, 1]
  | .e2m1 => [2]
  | .bf16 => [3]
  | _ => []

/-- The pair exists as far as the words show, and INT goes with it (R271). -/
def pairOk (a : AWord) (b : BWord) (int : Bool) : Bool :=
  (int = (a.ty = .s8 || a.ty = .z8)) &&
    (match b.raw with
      | some ty => (rawPairs a.ty).contains ty
      | none => !(cordPairs a.ty).isEmpty)

/-- The resume word: record address and RV (R277). -/
def resumeOf (w : Word) : Option (Nat × Bool) :=
  let x := w.toNat
  let rv := bitOf x 20
  let a := bitsOf x 0 20
  if bitsOf x 21 43 != 0 || a % 64 != 0 || (!rv && a != 0) then none else some (a, rv)

structure XWord where
  byte  : Nat
  pitch : Nat
  ty    : EType
  rnd   : Fin 4
  sat   : Bool
  clr   : Bool
  deriving DecidableEq, Repr

/-- The transfer word (R281); drain: RND, SAT and CLR may be set. -/
def xWordOf (w : Word) (r : Region) (drain : Bool) : Option XWord :=
  let x := w.toNat
  match etypeOf (bitsOf x 26 4) with
  | none => none
  | some ty =>
    let v : XWord := ⟨1024 * bitsOf x 0 10, bitsOf x 10 16, ty, Fin.ofNat 4 (bitsOf x 30 2), bitOf x 32, bitOf x 33⟩
    let row := rowBytes ty r.n
    if ty != .e8m0 && bitsOf x 34 30 = 0 && (drain || bitsOf x 30 4 = 0) && decide (row ≤ v.pitch) &&
        decide (v.byte + (r.m - 1) * v.pitch + row ≤ 2 ^ 20)
    then some v else none

/-- The scale word: none is ILLEGAL; some none is a scale of 1 (R281). -/
def scaleOf (w : Word) : Option (Option (BitVec 32)) :=
  let x := w.toNat
  if bitsOf x 33 31 != 0 then none
  else if bitOf x 32 then some (some (w.setWidth 32))
  else if x = 0 then some none
  else none

/-! ### Windows of the commands -/

def regionWins (r : Region) (wr : Bool) : List Win :=
  (List.range r.m).map fun i => ⟨3, 4 * (r.acc0 + i * r.pitch), 4 * r.n, wr⟩

def rowsWins (space byte pitch rows len : Nat) (wr : Bool) : List Win :=
  (List.range rows).map fun i => ⟨space, byte + i * pitch, len, wr⟩

def aWins (a : AWord) (r : Region) : List Win :=
  rowsWins 1 a.byte a.pitch r.m (rowBytes a.ty (32 * r.kb)) false ++
    (match a.scl with
      | some s => [⟨1, s, r.m * r.kb, false⟩]
      | none => [])

def bWins (b : BWord) (r : Region) : List Win :=
  match b.raw with
  | some ty => rowsWins 2 (b.unit * 64) (b.step * 64) (32 * r.kb) (rowBytes ty r.n) false
  | none => [⟨2, b.unit * 64, r.kb * (r.n / 64) * b.step * 64, false⟩]

def xWins (x : XWord) (r : Region) (wr : Bool) : List Win := rowsWins 1 x.byte x.pitch r.m (rowBytes x.ty r.n) wr

/-- The windows of a matrix command (R274, R280, R282); checksum slots read their region. -/
def mtxWins (op : MtxOp) (d : Vector Word 4) : List Win :=
  match op with
  | .mma _ _ =>
    match regionOf d[2] true with
    | none => []
    | some r =>
      let a := ((aWordOf d[0] r).map fun a => aWins a r).getD []
      let b := ((bWordOf d[1] r).map fun b => bWins b r).getD []
      let s := match resumeOf d[3] with
        | some (p, true) => [⟨1, p, 64, false⟩]
        | _ => []
      a ++ b ++ s ++ regionWins r true
  | .azero => ((regionOf d[0] false).map fun r => regionWins r true).getD []
  | .adrain _ =>
    match regionOf d[0] false with
    | none => []
    | some r =>
      match xWordOf d[1] r true with
      | none => []
      | some x => regionWins r x.clr ++ xWins x r true
  | .aload | .aacc =>
    match regionOf d[0] false with
    | none => []
    | some r => regionWins r true ++ (((xWordOf d[1] r false).map fun x => xWins x r false).getD [])
  | .ckOpen _ => ((regionOf d[0] false).map fun r => regionWins r false).getD []
  | .ckClose _ => []

/-- Every open window of a core. -/
def Core.openWins (c : Core) : List Win :=
  c.copy.flatMap (fun (m : CCmd) => m.wins) ++ (c.mtx.q.filter fun m => m.own).flatMap fun (m : MCmd) => mtxWins m.op m.d

/-- In checking mode: does one of the accesses break an open window? -/
def Core.breach (c : Core) (ws : List Win) : Bool :=
  c.chk && ws.any fun w => c.openWins.any fun o => w.clash o

/-- OWNERSHIP at the instruction, or its effect. -/
def State.owned (s : State) (ws : List Win) (d : Done) : Done := if s.core.breach ws then s.trapDone .ownership else d

end Sys2Proof.Machine
end

