-- ==== Sys2Proof/Machine/MemIns.lean ====
section
/-!
DEFINITION. Group MEM: loads, stores, prefetch, atomics, reductions at memory (R205 to R213); the completion of accesses and of
the releases that begin them (R54, R119).
-/

namespace Sys2Proof.Machine

/-! ### Shared operations -/

/-- The sources of a format M instruction without data: the offset register. -/
def MAddr.src (m : MAddr) : Src := m.oreg.src

def partsOf (ps : List PPart) : List Part := ps.map (·.part)

/-- The parts of n elements of size bytes at an address, each checked on its own (R208). -/
def State.elemParts (s : State) (before : List Src) (m : MAddr) (size align : Nat) (perms : List Nat) (need : Need) :
    Nat → Nat → State × Except Bad (List (List PPart))
  | _, 0 => (s, .ok [])
  | i, n + 1 =>
    let ea := s.eaOf m (s.oregVal before m) + (i * size : Nat)
    match s.access s.tenant s.core.caps[m.cap] ea size align perms need with
    | (s, .error b) => (s, .error b)
    | (s, .ok ps) =>
      match s.elemParts before m size align perms need (i + 1) n with
      | (s, .error b) => (s, .error b)
      | (s, .ok rest) => (s, .ok (ps :: rest))

/-- Reserve n entries of LDQ for a load form (R208). -/
def State.reserveLdq (s : State) (n : Nat) : List Nat × State :=
  let c := s.core
  let ids := (List.range n).map (c.nextId + ·)
  let q : DataQ := { c.ldq with ents := c.ldq.ents ++ ids.map fun i => ⟨none, false, i⟩ }
  (ids, { s with core := { c with ldq := q, nextId := c.nextId + n } })

/-- Cut bytes into runs of at most n. -/
def runs (n : Nat) : Nat → List Byte → List (List Byte)
  | 0, _ => []
  | fuel + 1, bs => if bs.isEmpty then [] else bs.take n :: runs n fuel (bs.drop n)

/-- The log records of bytes written to one RC part (R107): runs of at most n bytes. -/
def partRecs (kind : Fin 4) (ce : Bool) (tag : BitVec 16) (n : Nat) (p : Part) (bs : List Byte) : List Rec :=
  (runs n bs.length bs).zipIdx.map fun (r, i) => ⟨p.addr + i * n, r, kind, ce, tag, !ce, 0⟩

/-- Give each part its bytes. -/
def splitBytes : List Part → List Byte → List (Part × List Byte)
  | [], _ => []
  | p :: ps, bs => (p, bs.take p.len) :: splitBytes ps (bs.drop p.len)

/-- Write bytes in place in words of n, ascending. True: the home answered with poison. -/
def State.writeWords (s : State) (a : Nat) : List (List Byte) → State × Bool
  | [] => (s, false)
  | w :: ws =>
    let (s, b) := s.homeWrite a w
    let (s, c) := s.writeWords (a + w.length) ws
    (s, b || c)

/-- Write the parts that are not RC in place at their homes (R98, R209). -/
def State.writePlaced (s : State) (n : Nat) (ps : List (Part × List Byte)) : State × Bool :=
  ps.foldl (fun (acc : State × Bool) (e : Part × List Byte) =>
    if e.1.kind = .rc then acc
    else
      let (s, b) := acc.1.writeWords e.1.addr (runs n e.2.length e.2)
      (s, acc.2 || b)) (s, false)

/-- Before in-place writes to pool pages: the leases that other packages hold there are recalled (R105); true when none is left. -/
def State.recallPlaced (s : State) (ps : List Part) : State × Bool :=
  s.recallPages (poolPages ((ps.filter fun p => p.kind != .rc).map fun p => (p.addr, p.len))) false

/-- A store of the issuing step: records for RC parts, the rest in place (R107, R209). kind and run are those of its
records, word the unit of its writes in place. -/
def State.storeBytes (s : State) (kind : Fin 4) (run word : Nat) (ps : List Part) (bs : List Byte) :
    Except NoBillet (State × Bool) :=
  let cut := splitBytes ps bs
  let recs := cut.flatMap fun (p, b) => if p.kind = .rc then partRecs kind false 0 run p b else []
  match s.appendRecs recs with
  | .error e => .error e
  | .ok s => .ok (s.writePlaced word cut)

/-- Has an earlier atomic or reduction of the issuing stream on bytes of these RC parts not been performed yet (R128)? -/
def State.rcBusy (s : State) (ps : List PPart) : Bool :=
  let meets (a n : Nat) : Bool := ps.any fun p =>
    p.part.kind = .rc && decide (p.part.addr < a + n) && decide (a < p.part.addr + p.part.len)
  s.core.accs.any fun a => a.strm = s.who && (match a.kind with
    | .atom _ addr _ .rc w64 .. => meets addr (if w64 then 8 else 4)
    | .redi _ addr .rc w64 .. => meets addr (if w64 then 8 else 4)
    | .redf _ addr .rc _ => meets addr 4
    | _ => false)

/-- A store with its checked parts: the wait for an SO access, and for one on the same RC bytes (R128), the page's POIS, the wait
for other packages' leases, the billet, the home's answer (R96, R105, R111, R371, R412). post completes the instruction. -/
def storeDone (s : State) (kind : Fin 4) (run word : Nat) (ps : List PPart) (bs : List Byte) (post : State → State) : Done :=
  if s.soWait ps || s.rcBusy ps then .hold .other
  else if partsPois ps then .trap s { s.precise .poison 0 with info := 6 }
  else
    match s.recallPlaced (partsOf ps) with
    | (s, false) => .wait s
    | (s, true) =>
      match s.storeBytes kind run word (partsOf ps) bs with
      | .error e => s.noBillet e
      | .ok (t, bad) => .go (post (if bad then t.deferTrap .poison 6 0 else t))

/-! ### Loads (R206 to R209) -/

def execLd (h : Hdr) (o : LdOp) (s : State) : Host.Outcome State Fault Refusal :=
  issue (gateM [.l]) h (useD [o.m.oreg.src] o.d) (fun t =>
    match t.memAccess [] o.m (2 ^ o.size.val) 1 [permR] .read with
    | (t, .error b) => t.badDone b
    | (t, .ok ps) =>
      if t.soWait ps then .hold .other
      else
        let (d, t) := t.reserveDst o.d
        .go (t.addAcc h d o.p (.load (2 ^ o.size.val) o.sx [partsOf ps] (t.ownBytes (partsOf ps))) none)) s

/-- A tile word of R209: byte address and count, none when it is ILLEGAL. -/
def tileWord (w : Nat) : Option (Nat × Nat) :=
  let v := bitsOf w 0 10
  let b := bitsOf w 10 13
  if b = 0 || 4096 < b || bitsOf w 23 41 != 0 || 2 ^ 20 < v * 1024 + b then none else some (v * 1024, b)

def execLdTile (h : Hdr) (o : TileOp) (s : State) : Host.Outcome State Fault Refusal :=
  issue (gateM [.l]) h (useS [o.a, o.m.oreg.src]) (fun t =>
    match tileWord (t.val 0 o.a).toNat with
    | none => t.trapDone .illegal
    | some (byte, b) =>
      match t.memAccess [o.a] o.m b 8 [permR] .read with
      | (t, .error e) => t.badDone e
      | (t, .ok ps) =>
        if t.soWait ps then .hold .other
        else t.owned [⟨1, byte, b, true⟩] (.go (t.addAcc h .none false (.loadTile byte (partsOf ps) (t.ownBytes (partsOf ps))) none))) s

def execLdq (h : Hdr) (o : QMemOp) (s : State) : Host.Outcome State Fault Refusal :=
  issue (gateM [.l]) h (useS [o.m.oreg.src]) (fun t =>
    let n := o.n.val + 1
    if !t.core.ldq.room n then .hold .ldq
    else
      match t.elemParts [] o.m (2 ^ o.size.val) 1 [permR] .read 0 n with
      | (t, .error b) => t.badDone b
      | (t, .ok els) =>
        if t.soWait els.flatten then .hold .other
        else
          let (ids, t) := t.reserveLdq n
          let own := t.ownBytes (partsOf els.flatten)
          .go (t.addAcc h (.ldq ids) false (.load (2 ^ o.size.val) o.sx (els.map partsOf) own) none)) s

/-! ### Stores (R209) -/

def execSt (h : Hdr) (o : StOp) (s : State) : Host.Outcome State Fault Refusal :=
  issue (gateM [.s]) h (useS [o.a, o.m.oreg.src]) (fun t =>
    let n := 2 ^ o.size.val
    match t.memAccess [o.a] o.m n 1 [permW] .write with
    | (t, .error b) => t.badDone b
    | (t, .ok ps) => storeDone t 0 128 n ps (natLe n (t.val 0 o.a).toNat) id) s

def execStTile (h : Hdr) (o : TileOp) (s : State) : Host.Outcome State Fault Refusal :=
  issue (gateM [.s]) h (useS [o.a, o.m.oreg.src]) (fun t =>
    match tileWord (t.val 0 o.a).toNat with
    | none => t.trapDone .illegal
    | some (byte, b) =>
      match t.memAccess [o.a] o.m b 8 [permW] .write with
      | (t, .error e) => t.badDone e
      | (t, .ok ps) => t.owned [⟨1, byte, b, false⟩] (storeDone t 1 1024 8 ps (t.core.tile.bytes byte b) id)) s

/-- Pop n entries of SDQ. -/
def State.popSdq (s : State) : Nat → State
  | 0 => s
  | n + 1 => State.popSdq { s with core := { s.core with sdq := s.core.sdq.pop } } n

def execStq (h : Hdr) (o : QMemOp) (s : State) : Host.Outcome State Fault Refusal :=
  issue (gateM [.s]) h (useS [o.m.oreg.src]) (fun t =>
    let n := o.n.val + 1
    let size := 2 ^ o.size.val
    let before := List.replicate n Src.q
    let pops := if o.m.oreg = .q then n + 1 else n
    if t.core.sdq.poppable.length < pops then .hold .sdq
    else
      match t.elemParts before o.m size 1 [permW] .write 0 n with
      | (t, .error b) => t.badDone b
      | (t, .ok els) =>
        let vals := t.core.sdq.poppable.take n
        storeDone t 0 128 size els.flatten (vals.flatMap fun v => natLe size v.toNat) fun t => t.popSdq n) s

/-! ### Prefetch (R210) -/

/-- A pool page is under a lease that is still served. -/
def State.leased (s : State) (a : Nat) : Bool := s.leases.any fun l => l.page = leasePage a && l.served s.ftime

/-- Bring a line into the package view, and into the L1 too; a pool page without a lease is left. -/
def State.prefLine (s : State) (a : Nat) (pv : Bool) : State :=
  if spaceOf a = 1 && !s.leased a then s
  else if pv then (s.viewLine (a / 128 * 2)).1.viewLine (a / 128 * 2 + 1) |>.1
  else (s.loadLine (a / 128)).1

def execPref (h : Hdr) (pv : Bool) (_scope : Scope) (m : MAddr) (s : State) : Host.Outcome State Fault Refusal :=
  issue (gateM [.l]) h (useS [m.oreg.src]) (fun t =>
    match t.memAccess [] m 1 1 [permR] .read with
    | (u, .error _) => .go u
    | (u, .ok ps) =>
      match ps with
      | p :: _ => if p.part.kind = .so || p.part.pois then .go u else .go (u.prefLine p.part.addr pv)
      | [] => .go u) s

/-! ### Atomics (R211, R212) -/

/-- The page rules of atomics and reductions (R140, R212): ATOMSCOPE on a host page without the system-atomic attribute and on
a device-register page. -/
def atomScope (p : PPart) : Bool :=
  (spaceOf p.part.addr = 2 && !p.page.sa) || decide (3 ≤ spaceOf p.part.addr)

/-- Send an access that may begin with a release (R137, R212). -/
def State.sendRel (s : State) (h : Hdr) (rl : Bool) (scope : Scope) (d : Dst) (pform : Bool) (kind : AccKind) : Done :=
  if rl then
    match s.sealFor (scope = .pool) none false with
    | .error e => s.noBillet e
    | .ok (t, r) =>
      let (d, t) := t.reserveDst d
      .go (t.addAcc h d pform kind (some r))
  else
    let (d, t) := s.reserveDst d
    .go (t.addAcc h d pform kind none)

/-- An atomic with its operands' values (R212). -/
def atomOp (h : Hdr) (op : AtKind) (srcs : List Src) (w64 sgn rl aq p : Bool) (scope : Scope) (m : MAddr)
    (vals : State → Word × Word) (s : State) : Host.Outcome State Fault Refusal :=
  issue (gateM [.l]) h (useD (srcs ++ [m.oreg.src]) .t) (fun t =>
    let n := if w64 then 8 else 4
    match t.memAccess srcs m n n [permA] .write with
    | (t, .error b) => t.badDone b
    | (t, .ok ps) =>
      match ps with
      | [] => t.trapDone .pagefault
      | q :: _ =>
        if atomScope q then .trap t (t.precise .atomscope q.part.va)
        else if t.soWait ps then .hold .other
        else
          let (a, b) := vals t
          t.sendRel h rl scope .t p (.atom op q.part.addr q.part.pois q.part.kind w64 sgn aq a b)) s

/-- The atomics of one source. -/
def atom1 (h : Hdr) (op : AtKind) (o : AtOp) (s : State) : Host.Outcome State Fault Refusal :=
  atomOp h op [o.a] o.w64 o.sgn o.rl o.aq o.p o.scope o.m (fun t => (t.val 0 o.a, 0)) s

def execAadd (h : Hdr) (o : AtOp) (s : State) : Host.Outcome State Fault Refusal := atom1 h .add o s

def execAmin (h : Hdr) (o : AtOp) (s : State) : Host.Outcome State Fault Refusal := atom1 h .min o s

def execAmax (h : Hdr) (o : AtOp) (s : State) : Host.Outcome State Fault Refusal := atom1 h .max o s

def execAand (h : Hdr) (o : AtOp) (s : State) : Host.Outcome State Fault Refusal := atom1 h .and o s

def execAor (h : Hdr) (o : AtOp) (s : State) : Host.Outcome State Fault Refusal := atom1 h .or o s

def execAxor (h : Hdr) (o : AtOp) (s : State) : Host.Outcome State Fault Refusal := atom1 h .xor o s

def execAswp (h : Hdr) (o : AtOp) (s : State) : Host.Outcome State Fault Refusal := atom1 h .swp o s

/-- The pair of ACAS: nk and nk+1. -/
def pairLo (k : Fin 8) : Fin 16 := Fin.ofNat 16 (2 * k.val)
def pairHi (k : Fin 8) : Fin 16 := Fin.ofNat 16 (2 * k.val + 1)

def execAcas (h : Hdr) (o : AcasOp) (s : State) : Host.Outcome State Fault Refusal :=
  let srcs := [Src.n (pairLo o.k), .n (pairHi o.k)]
  atomOp h .cas srcs o.w64 o.sgn o.rl o.aq o.p o.scope o.m (fun t => (t.cur.n[pairLo o.k], t.cur.n[pairHi o.k])) s

def execAfadd (h : Hdr) (o : AfaddOp) (s : State) : Host.Outcome State Fault Refusal :=
  atomOp h .fadd [o.a] false false o.rl o.aq o.p o.scope o.m (fun t => (t.val 0 o.a, 0)) s

/-! ### Reductions at memory (R213) -/

/-- A reduction with the access it sends, given the address and the page's kind. -/
def reduceOp (h : Hdr) (a : Src) (n : Nat) (m : MAddr) (kind : Nat → PageKind → Word → AccKind) (s : State) :
    Host.Outcome State Fault Refusal :=
  issue (gateM [.s]) h (useS [a, m.oreg.src]) (fun t =>
    match t.memAccess [a] m n n [permA] .write with
    | (t, .error b) => t.badDone b
    | (t, .ok ps) =>
      match ps with
      | [] => t.trapDone .pagefault
      | q :: _ =>
        if atomScope q then .trap t (t.precise .atomscope q.part.va)
        else if q.part.pois then .trap t { t.precise .poison 0 with info := 4 }
        else if t.soWait ps then .hold .other
        else .go (t.addAcc h .none false (kind q.part.addr q.part.kind (t.val 0 a)) none)) s

def execRedi (h : Hdr) (o : RediOp) (s : State) : Host.Outcome State Fault Refusal :=
  reduceOp h o.a (if o.w64 then 8 else 4) o.m (fun a page v => .redi o.op a page o.w64 o.sgn v) s

def execRedf (h : Hdr) (o : RedfOp) (s : State) : Host.Outcome State Fault Refusal :=
  reduceOp h o.a 4 o.m (fun a page v => .redf o.op a page v) s

/-! ### Completion -/

/-- RELEASE_COMPLETE of the access with an id, on the core in focus: while an earlier release of the log is outstanding, or a
lease that another package holds on what it writes, the release waits (R105, R116). -/
def execReleaseComplete (id : Nat) (s : State) : Host.Outcome State Fault Refusal :=
  match s.core.acc? id with
  | none => .next s
  | some a =>
    match a.rel with
    | none => .next s
    | some r =>
      match s.relReady r with
      | (s, true) => .next (s.completeRelease a r false)
      | (s, false) => .next s

/-- ACCESS_COMPLETE: an access whose release is over is performed and its result delivered. -/
def execAccessComplete (id : Nat) (s : State) : Host.Outcome State Fault Refusal :=
  match s.core.acc? id with
  | none => .next s
  | some a => if a.rel.isSome then .next s else .next (s.performAcc a false)

end Sys2Proof.Machine
end

