-- ==== Sys2Proof/Machine/Sync.lean ====
section
/-!
DEFINITION. Group SYNC: releases, acquires, fences, log status, waits on addresses, semaphores (R214 to R225). REL.commit stands
with the end instructions in Machine/Cont.lean.
-/

namespace Sys2Proof.Machine

/-! ### Releases (R214, R216) -/

/-- The flag of a release or an acquire: 16 bytes, aligned, on an RC page (R214, R218). -/
def State.flagPart (s : State) (m : MAddr) (perms : List Nat) (need : Need) : State × Except Bad PPart :=
  match s.memAccess [] m 16 16 perms need with
  | (s, .error b) => (s, .error b)
  | (s, .ok []) => (s, .error (.cause .pagefault 0))
  | (s, .ok (p :: _)) => if p.part.kind = .rc then (s, .ok p) else (s, .error (.cause .perm p.part.va))

def execRel (h : Hdr) (o : RelOp) (s : State) : Host.Outcome State Fault Refusal :=
  issue (gateM [.s]) h (useS [o.m.oreg.src]) (fun t =>
    match t.flagPart o.m [permW, permA] .write with
    | (t, .error b) => t.badDone b
    | (t, .ok p) =>
      if p.part.pois then .trap t { t.precise .poison 0 with info := 2 }
      else
        match t.sealFor (o.scope = .pool) (some p.part.addr) false with
        | .error e => t.noBillet e
        | .ok (t, r) => .go (t.addAcc h .none o.p .rel (some r))) s

/-- Take a pair of named scalars as a destination whose values come later. -/
def State.reservePair (s : State) (k : Fin 8) : ADst × State :=
  let drop (d : ADst) : ADst := (d.without (pairLo k)).without (pairHi k)
  (.pair (some (pairLo k)) (some (pairHi k)),
    { s with core := { s.core with accs := s.core.accs.map fun (a : Acc) => if a.strm = s.who then { a with dst := drop a.dst } else a } })

/-- Allocate two result entries whose values come later: first bytes 0 to 7, then bytes 8 to 15. -/
def State.reserveTwo (s : State) : ADst × State :=
  (.entries s.cur.rqN (s.cur.rqN + 1), s.setCur ((s.cur.alloc none).alloc none))

def RelDst.allocs : RelDst → Nat
  | .pair _ => 0
  | .t => 2

def execRell (h : Hdr) (scope : Scope) (p : Bool) (d : RelDst) (s : State) : Host.Outcome State Fault Refusal :=
  issue (gateN [.s]) h ⟨[], [], .discard, RelDst.allocs d⟩ (fun t =>
    match t.sealFor (scope = .pool) none false with
    | .error e => t.noBillet e
    | .ok (t, r) =>
      let (d, t) := match d with
        | .pair k => t.reservePair k
        | .t => t.reserveTwo
      .go (t.addAcc h d p .rel (some r))) s

/-! ### Acquires (R218) -/

def execAcq (h : Hdr) (o : AcqOp) (s : State) : Host.Outcome State Fault Refusal :=
  issue (gateM [.l]) h (useD [o.m.oreg.src] o.d) (fun t =>
    match t.flagPart o.m [permR] .read with
    | (t, .error b) => t.badDone b
    | (t, .ok p) =>
      let (d, t) := t.reserveDst o.d
      .go (t.addAcc h d o.p (.acqFlag p.part.addr p.part.pois) none)) s

def execAcql (h : Hdr) (p : Bool) (a b : Src) (s : State) : Host.Outcome State Fault Refusal :=
  issue (gateR [.l] [a, b]) h (useS [a, b]) (fun t =>
    .go (t.addAcc h .none p (.acqWord ⟨t.val 0 a, t.valAfter 0 [a] b⟩) none)) s

/-! ### Fences (R135, R221) -/

/-- Earlier accesses of the issuing stream in a class the fence selects. -/
def State.fenceHeld (s : State) (kind : BitVec 4) : Bool :=
  s.core.accs.any fun a => a.strm = s.who && (if a.rd then kind.getLsbD 0 else kind.getLsbD 1)

/-- The fence waits at issue until the earlier accesses it selects are complete (log entry 14). -/
def execFence (h : Hdr) (_scope : Scope) (kind : BitVec 4) (s : State) : Host.Outcome State Fault Refusal :=
  issueIf (kind.extractLsb' 0 2 != 0 && kind.extractLsb' 2 2 != 0) (gateM anyStrm) h (useS [])
    (fun t => if t.fenceHeld kind then .hold .other else .go t) s

/-! ### Log status (R220, R222) -/

/-- Completes when the records appended before it are in the log area. -/
def execLsync (h : Hdr) (s : State) : Host.Outcome State Fault Refusal :=
  issue (gateN [.s]) h (useS []) (fun t =>
    let n := ((t.log? t.logNum).map (·.nrec)).getD 0
    .go (t.addAcc h .none false (.lsync t.logNum n) none)) s

/-- The item of R220. -/
def State.logItem (s : State) (sel : Nat) : Word :=
  let f (g : StepCtx → Word) : Word := (s.core.ctx.map g).getD 0
  match sel with
  | 0 => f fun x => x.lrel.stamp
  | 1 => f fun x => x.lrel.hi
  | 2 => f fun x => x.lrstat.setWidth 64
  | 3 => s.cur.astat
  | 4 => BitVec.ofNat 64 (((s.log? s.logNum).map LogSt.uncovered).getD 0)
  | _ => f fun x => BitVec.ofNat 64 x.hzn.length

def execLstat (h : Hdr) (sel : Fin 6) (d : Dst) (s : State) : Host.Outcome State Fault Refusal :=
  valueOp h [] d (fun t => t.logItem sel.val) s

/-! ### Waiting on an address (R223, R224) -/

/-- The word of a wait: 8 bytes of local HBM, aligned, as the host has left it; elsewhere ATOMSCOPE. -/
def State.waitPart (s : State) (before : List Src) (m : MAddr) : State × Except Bad Part :=
  match s.memAccess before m 8 8 [permR] .read with
  | (s, .error b) => (s, .error b)
  | (s, .ok []) => (s, .error (.cause .pagefault 0))
  | (s, .ok (p :: _)) => if spaceOf p.part.addr = 0 then (s.snoopRead p.part.addr 8, .ok p.part) else (s, .error (.cause .atomscope p.part.va))

/-- The word at its home. -/
def State.homeWord (s : State) (a : Nat) : Word := BitVec.ofNat 64 (s.mem.nat a 8)

/-- Register a watch of the core's own step. -/
def State.addWatch (s : State) (a : Nat) (c : Word) : State := { s with waits := s.waits ++ [⟨a, c, none, s.cid⟩] }

/-- WAITA: the stream stays at it until its watch has fired; in a full wait table the watch has fired already. -/
def execWaita (h : Hdr) (a : Src) (_scope : Scope) (m : MAddr) (s : State) : Host.Outcome State Fault Refusal :=
  issue (gateM [.l]) h (useS [a, m.oreg.src]) (fun t =>
    match t.cur.waitW with
    | some (_, true) => .go (t.mapCur fun x => { x with waitW := none })
    | some (_, false) => .hold .other
    | none =>
      match t.waitPart [a] m with
      | (t, .error b) => t.badDone b
      | (t, .ok p) =>
        if t.homeWord p.addr != t.val 0 a || t.waitsFull p.addr then .go t
        else .stay ((t.addWatch p.addr (t.val 0 a)).mapCur fun x => { x with waitW := some (p.addr, false) })) s

/-- Take the armed watch of the step out of the wait table. -/
def State.dropArmed (s : State) : State :=
  match s.core.ctx.bind (·.watch) with
  | none => s
  | some w =>
    ({ s with waits := s.waits.filter fun e => !(e.crec.isNone && e.core = s.cid && e.addr = w.addr && e.cmp = w.cmp) } : State).mapCtx
      fun x => { x with watch := none }

def execWaitaArm (h : Hdr) (a : Src) (_scope : Scope) (m : MAddr) (s : State) : Host.Outcome State Fault Refusal :=
  issue (gateM [.l]) h (useS [a, m.oreg.src]) (fun t =>
    match t.waitPart [a] m with
    | (t, .error b) => t.badDone b
    | (t, .ok p) =>
      let c := t.val 0 a
      let fired := t.homeWord p.addr != c || t.waitsFull p.addr
      let t := t.dropArmed.mapCtx fun x => { x with watch := some ⟨p.va, p.addr, c, fired⟩ }
      .go (if fired then t else t.addWatch p.addr c)) s

def execWcancel (h : Hdr) (d : Dst) (s : State) : Host.Outcome State Fault Refusal :=
  issue (gateN [.l]) h (useD [] d) (fun t =>
    let armed := ((t.core.ctx.bind (·.watch)).map fun w => !w.fired).getD false
    .go (t.dropArmed.putDst d (boolWord armed))) s

/-! ### Semaphores (R225) -/

def execSwait (h : Hdr) (sem : BitVec 8) (dec : Bool) (a : Src) (imm : BitVec 32) (s : State) :
    Host.Outcome State Fault Refusal :=
  issue (gateR anyStrm [a]) h (useS [a]) (fun t =>
    let n := (t.val imm a).toNat
    if 65535 < n then t.trapDone .illegal
    else if t.core.sem sem < n then .hold .other
    else .go (if dec then { t with core := t.core.setSem sem (t.core.sem sem - n) } else t)) s

def execSsig (h : Hdr) (sem : BitVec 8) (set : Bool) (a : Src) (imm : BitVec 32) (s : State) :
    Host.Outcome State Fault Refusal :=
  issue (gateR anyStrm [a]) h (useS [a]) (fun t =>
    let n := (t.val imm a).toNat
    if 65535 < n then t.trapDone .illegal
    else if set then .go { t with core := t.core.setSem sem n }
    else
      let (c, past) := t.core.addSem sem n
      let t := { t with core := c }
      if past then .stay (t.raiseAfter [a] .semovf 0) else .go t) s

def execSrd (h : Hdr) (sem : BitVec 8) (d : Dst) (s : State) : Host.Outcome State Fault Refusal :=
  valueOp h [] d (fun t => BitVec.ofNat 64 (t.core.sem sem)) s

end Sys2Proof.Machine
end

