-- ==== Sys2Proof/Machine/CapIns.lean ====
section
/-!
DEFINITION. Group CAP: loading, storing, narrowing and checking capabilities (R226, R227).
-/

namespace Sys2Proof.Machine

/-! ### Sealed images (R226, log entry 3) -/

/-- What a capability binds, as numbers. -/
def Cap.nums (c : Cap) : List Nat :=
  [natOfBool c.dev, c.ten.toNat, c.obj.toNat, c.gen.toNat, c.off, c.len, c.perm.toNat]

def capOfNums : List Nat → Option Cap
  | [dev, ten, obj, gen, off, len, perm] =>
    some ⟨dev = 1, BitVec.ofNat 16 ten, BitVec.ofNat 16 obj, BitVec.ofNat 32 gen, off, len, BitVec.ofNat 5 perm⟩
  | _ => none

/-- The image of a capability; the package keeps what it has sealed. -/
def State.sealCap (s : State) (c : Cap) : BitVec 128 × State :=
  let b := Config.sealBits c.nums
  (b, { s with seals := (b, c) :: s.seals.filter fun e => e.1 != b })

/-- What an image binds, none when its check fails. -/
def State.unsealCap (s : State) (b : BitVec 128) : Option Cap :=
  match s.seals.find? fun e => e.1 = b with
  | some e => some e.2
  | none => capOfNums (Config.unsealBits b)

/-- The capability that a nonzero image gives a step: of the step's tenant, its object entry current; none is CAPFAULT. -/
def State.openSeal (s : State) (b : BitVec 128) : State × Option Cap :=
  match s.unsealCap b with
  | none => (s, none)
  | some c =>
    if !c.dev && c.ten.toNat != s.tenant then (s, none)
    else
      match s.window (some c) with
      | (s, .ok _) => (s, some c)
      | (s, .error _) => (s, none)

def Core.setCap (c : Core) (k : Fin 16) (v : Option Cap) : Core := { c with caps := c.caps.set k v }

/-! ### CLD, CST (R226) -/

/-- The image is read at issue as a load (log entry 15). -/
def execCld (h : Hdr) (o : CapMemOp) (s : State) : Host.Outcome State Fault Refusal :=
  issueIf (o.cr != 0) (gateM [.l]) h (useS [o.m.oreg.src]) (fun t =>
    match t.memAccess [] o.m 16 16 [permR] .read with
    | (t, .error b) => t.badDone b
    | (t, .ok ps) =>
      if t.soWait ps then .hold .other
      else
        match t.loadElem (partsOf ps) (t.ownBytes (partsOf ps)) with
        | (t, none) => .go (t.deferTrap .poison 0 0)
        | (t, some 0) => .go { t with core := t.core.setCap o.cr none }
        | (t, some n) =>
          match t.openSeal (BitVec.ofNat 128 n) with
          | (t, some c) => .go { t with core := t.core.setCap o.cr (some c) }
          | (t, none) => t.trapDone .capfault) s

def execCst (h : Hdr) (o : CapMemOp) (s : State) : Host.Outcome State Fault Refusal :=
  issue (gateM [.l]) h (useS [o.m.oreg.src]) (fun t =>
    match t.memAccess [] o.m 16 16 [permW] .write with
    | (t, .error b) => t.badDone b
    | (t, .ok ps) =>
      let (image, u) := match t.core.caps[o.cr] with
        | none => ((0 : BitVec 128), t)
        | some c => t.sealCap c
      storeDone u 0 128 16 ps (natLe 16 image.toNat) id) s

/-! ### CNARROW, CINFO, CCHK (R227) -/

def execCnarrow (h : Hdr) (o : CNarrowOp) (s : State) : Host.Outcome State Fault Refusal :=
  issueIf (o.cd != 0) (gateR [.l] [o.off, o.len]) h (useS [o.off, o.len]) (fun t =>
    let off := (t.val o.imm o.off).toNat
    let len := (t.valAfter o.imm [o.off] o.len).toNat
    match t.window t.core.caps[o.cs] with
    | (t, .error b) => t.badDone b
    | (t, .ok w) =>
      if !w.perm.getLsbD permN || w.len < off + len then t.trapDone .capfault
      else
        let c := t.core.caps[o.cs].map fun c => { c with off := c.off + off, len := len, perm := c.perm &&& o.mask }
        .go { t with core := t.core.setCap o.cd c }) s

/-- The field of R93 that COND selects. -/
def capField (w : Window) (c : Cap) (fld : Nat) : Nat :=
  match fld with
  | 0 => w.vbase
  | 1 => w.len
  | 2 => w.perm.toNat
  | 3 => c.obj.toNat
  | _ => c.ten.toNat

def execCinfo (h : Hdr) (fld : Fin 5) (d : Dst) (cs : Fin 16) (s : State) : Host.Outcome State Fault Refusal :=
  issue (gateN [.l]) h (useD [] d) (fun t =>
    match t.core.caps[cs], t.window t.core.caps[cs] with
    | some c, (t, .ok w) => .go (t.putDst d (BitVec.ofNat 64 (capField w c fld.val)))
    | _, (t, .error b) => t.badDone b
    | none, (t, .ok _) => t.trapDone .capfault) s

def execCchk (h : Hdr) (o : CChkOp) (s : State) : Host.Outcome State Fault Refusal :=
  issue (gateR [.l] [o.off, o.len]) h (useS [o.off, o.len]) (fun t =>
    let off := (t.val o.imm o.off).toNat
    let len := (t.valAfter o.imm [o.off] o.len).toNat
    match t.window t.core.caps[o.cs] with
    | (t, .error _) => .go (t.putPred o.p false)
    | (t, .ok w) => .go (t.putPred o.p (decide (off + len ≤ w.len) && (w.perm &&& o.mask) = o.mask))) s

end Sys2Proof.Machine
end

