-- ==== Sys2Proof/Machine/Copy.lean ====
section
/-!
DEFINITION. Group COPY: the issue of copy commands, their beginning, their granules, faults, completion and status
(R99, R131, R228 to R240).
-/

namespace Sys2Proof.Machine

/-! ### Tags and status (R228, R239, R240) -/

/-- The next tag: not 0, not one whose status is held. -/
def State.nextTag (s : State) : BitVec 16 :=
  let from_ := ((s.core.ctx.map (·.ntag.toNat)).getD 1)
  let held (t : Nat) : Bool := t % 65536 = 0 || (s.core.copy.any fun m => m.tag.toNat = t % 65536) ||
    s.core.cstat.any fun m => m.tag.toNat = t % 65536
  BitVec.ofNat 16 ((leastFrom (fun t => !held t) from_ 100).getD from_)

/-- The status word. -/
def statWord (done : Bool) (fault : Option Cause) (wbase : Nat) (tag : BitVec 16) : Nat :=
  natOfBool done + natOfBool fault.isSome * 2 + ((fault.map Cause.code).getD 0) * 4 + wbase % 2 ^ 32 * 2 ^ 16 + tag.toNat * 2 ^ 48

def CCmd.status (m : CCmd) : Nat := statWord m.done m.fault m.wbase m.tag

/-- The window mask (R230). -/
def CCmd.mask (m : CCmd) : Nat :=
  (List.range 64).foldl (fun n i => if m.marks.contains (m.wbase + i) then n + 2 ^ i else n) 0

def CCmd.count (m : CCmd) : Nat := m.wbase + m.marks.length

/-- The item of a tag that CSTAT samples, and DONE. -/
def Core.cstatItem (c : Core) (tag : BitVec 16) (sel : Nat) : Nat × Bool :=
  match c.copy.find? fun m => m.tag = tag with
  | some m =>
    (match sel with
      | 0 => m.status
      | 1 => m.mask
      | 2 => m.fva.toNat
      | _ => m.count, m.done)
  | none =>
    let (wb, n) := match c.cstat.find? fun x => x.tag = tag with
      | some x => (x.wb, x.cnt)
      | none => (0, 0)
    (match sel with
      | 0 => statWord true none wb tag
      | 3 => n
      | _ => 0, true)

def execCstat (h : Hdr) (sel : Fin 4) (d : Dst) (p : Fin 8) (a : Src) (imm : BitVec 32) (s : State) :
    Host.Outcome State Fault Refusal :=
  issue (gateR [.l, .s] [a]) h (useD [a] d) (fun t =>
    let (v, done) := t.core.cstatItem ((t.val imm a).extractLsb' 48 16) sel.val
    .go ((t.putPred p done).putDst d (BitVec.ofNat 64 v))) s

/-! ### Endpoints (R101, R229) -/

/-- Did the region of the step grant a slice when the step was dispatched (R21, R101)? -/
def State.sliceOk (s : State) (n : Nat) : Bool :=
  isDcc s.cid || (match s.core.ctx with
    | some x => bitOf x.smp.sgrant n
    | none => false)

/-- The low bits of the address a range begins at: of the virtual address for memory (R97). -/
def State.baseOf (s : State) (e : Ep) : Int :=
  if e.spc = 0 then
    match (s.window s.core.caps[e.cap]).2 with
    | .ok w => w.vbase + e.off
    | .error _ => e.off
  else e.off

/-! ### Reading and writing for a granule (R99, R131) -/

/-- Why a granule stops. held: it has read the words old, or compressed the block comp, and goes on when the command moves next. -/
inductive GBad where
  | cause (c : Cause) (fva : Nat)
  | busy
  | hole
  | held (old : List (Nat × Nat)) (comp : List Byte)
  deriving DecidableEq, Repr

def gbadOf : Bad → GBad
  | .cause c fva => .cause c fva
  | .hole => .hole

/-- What a command sees of its step's log: the records before a number, without some that were not complete when it began; and the
bytes that its step's later records have since replaced (R131). -/
structure Seen where
  upto : BitVec 32
  hide : List (BitVec 32)
  pins : List (Nat × Byte)
  deriving DecidableEq, Repr

def CCmd.view (m : CCmd) : Seen := ⟨m.seen, m.hide, m.pins⟩

/-- The step's own bytes that were complete when the command began (R131). -/
def State.ownSeen (s : State) (seen : Seen) (ps : List Part) : List (Nat × Byte) :=
  match s.log? s.logNum with
  | none => []
  | some g =>
    let hit (r : Rec) : Bool := r.vis && r.kind != 2 && decide (r.rseq.toNat < seen.upto.toNat) && !seen.hide.contains r.rseq &&
      ps.any fun p => p.kind = .rc && decide (p.addr < r.addr + r.data.length) && decide (r.addr < p.addr + p.len)
    ((g.bills.flatMap (·.recs)).filter hit).reverse.flatMap Rec.cells

/-- What a command reads of some parts in place of what the view has: the step's own bytes, then those kept for it. -/
def State.ownFor (s : State) (seen : Seen) (ps : List Part) : List (Nat × Byte) := s.ownSeen seen ps ++ seen.pins

/-- The bytes of a slice begin here. -/
def sliceAt (e : Ep) (off : Int) : Nat := e.slice * 2 ^ 21 + (e.off + off).toNat

/-- Is a word of n bytes of the slices poisoned (R437)? -/
def State.slicePois (s : State) (a n : Nat) : Bool := s.spois.any fun w => decide (a < 8 * (w + 1)) && decide (8 * w < a + n)

/-- Write bytes of the slices: a word written whole is poisoned no more. -/
def State.sliceStore (s : State) (a : Nat) (bs : List Byte) : State :=
  { s with
    slices := s.slices.store a bs
    spois := s.spois.filter fun w => !(decide (a ≤ 8 * w) && decide (8 * (w + 1) ≤ a + bs.length)) }

/-- The store of an endpoint that is not memory. -/
def Core.localBytes (c : Core) (slices : Mem) (e : Ep) (off : Int) (n : Nat) : List Byte :=
  match e.spc with
  | 1 => c.tile.bytes (e.off + off).toNat n
  | 2 => c.wb.bytes (e.off + off).toNat n
  | 3 => c.accs32.bytes (e.off + off).toNat n
  | _ => slices.bytes (sliceAt e off) n

def State.putLocal (s : State) (e : Ep) (off : Int) (bs : List Byte) : State :=
  let a := (e.off + off).toNat
  match e.spc with
  | 1 => { s with core := { s.core with tile := s.core.tile.store a bs } }
  | 2 => { s with core := { s.core with wb := s.core.wb.store a bs } }
  | 3 => { s with core := { s.core with accs32 := s.core.accs32.store a bs } }
  | _ => s.sliceStore (sliceAt e off) bs

/-- Is a range inside its store? -/
def inStore (e : Ep) (off : Int) (n : Nat) : Bool := decide (0 ≤ e.off + off) && decide (e.off + off + n ≤ storeSize e.spc)

/-- Read n bytes of an endpoint at an offset. A place past the end of a store, which only an index or a layout read in the meantime
can name, is a fault of its granule with cause ILLEGAL (DESIGN CHOICE, log entry 92). -/
def State.rdEp (s : State) (seen : Seen) (e : Ep) (off : Int) (n : Nat) : State × Except GBad (List Byte) :=
  if e.spc = 0 then
    match s.access s.tenant s.core.caps[e.cap] (e.off + off) n 1 [permR] .read with
    | (s, .error b) => (s, .error (gbadOf b))
    | (s, .ok ps) =>
      let parts := partsOf ps
      let (s, bs) := s.readWith State.viewPart parts
      let bs := overlayOwn (s.ownFor seen parts) parts bs
      if bs.any (·.2) then (s, .error (.cause .poison 0)) else (s, .ok (bs.map (·.1)))
  else if inStore e off n then
    if e.spc = 4 && s.slicePois (sliceAt e off) n then (s, .error (.cause .poison 0))
    else (s, .ok (s.core.localBytes s.slices e off n))
  else (s, .error (.cause .illegal 0))

def State.rdAll (s : State) (seen : Seen) : List (Ep × Int × Nat) → State × Except GBad (List (List Byte))
  | [] => (s, .ok [])
  | (e, off, n) :: rest =>
    match s.rdEp seen e off n with
    | (s, .error b) => (s, .error b)
    | (s, .ok bs) =>
      match s.rdAll seen rest with
      | (s, .error b) => (s, .error b)
      | (s, .ok l) => (s, .ok (bs :: l))

/-- Check the memory writes of a granule: the parts with their bytes. -/
def State.wrParts (s : State) (perm : Nat) : List (Ep × Int × List Byte) → State × Except GBad (List (Part × List Byte))
  | [] => (s, .ok [])
  | (e, off, bs) :: rest =>
    if e.spc = 0 then
      match s.access s.tenant s.core.caps[e.cap] (e.off + off) bs.length 1 [perm] .write with
      | (s, .error b) => (s, .error (gbadOf b))
      | (s, .ok ps) =>
        match ps.find? fun p => p.part.pois with
        | some p => (s, .error (.cause .poison p.part.va))
        | none =>
          match s.wrParts perm rest with
          | (s, .error b) => (s, .error b)
          | (s, .ok l) => (s, .ok (splitBytes (partsOf ps) bs ++ l))
    else if inStore e off bs.length then s.wrParts perm rest
    else (s, .error (.cause .illegal 0))

/-- Perform the writes of a granule after all their checks: records with CE set on RC pages, in place elsewhere. -/
def State.copyStore (s : State) (tag : BitVec 16) (ws : List (Ep × Int × List Byte)) : State × Except GBad Unit :=
  match s.wrParts permW ws with
  | (s, .error b) => (s, .error b)
  | (s, .ok cut) =>
    let recs := cut.flatMap fun (p, b) => if p.kind = .rc then partRecs 0 true tag 128 p b else []
    match s.recallPlaced (cut.map (·.1)) with
    | (s, false) => (s, .error .busy)
    | (s, true) =>
      match s.appendRecs recs with
      | .error .full => (s, .error (.cause .logfull 0))
      | .error .busy => (s, .error .busy)
      | .ok s =>
        let (s, bad) := s.writePlaced 4096 cut
        let s := ws.foldl (fun s (e, off, bs) => if e.spc = 0 then s else s.putLocal e off bs) s
        (s, if bad then .error (.cause .poison 0) else .ok ())

/-- Read ranges, compute, write. -/
def State.moveGran (s : State) (m : CCmd) (rd : List (Ep × Int × Nat)) (f : List (List Byte) → List (Ep × Int × List Byte)) :
    State × Except GBad Unit :=
  match s.rdAll m.view rd with
  | (s, .error b) => (s, .error b)
  | (s, .ok l) => s.copyStore m.tag (f l)

/-- Read a record of n bytes through a reference word: layout records, the group record. -/
def State.refRead (s : State) (w : Word) (align n : Nat) : State × Except GBad (List Byte) :=
  match refWord w align with
  | none => (s, .error (.cause .illegal 0))
  | some (cap, off) => s.rdEp ⟨0, [], []⟩ ⟨0, cap, off, 0⟩ 0 n

/-- The bytes that such a reference reads now. -/
def State.refNow (s : State) (w : Word) (align n : Nat) : Option (List Byte) :=
  match (s.refRead w align n).2 with
  | .ok bs => some bs
  | .error _ => none

/-! ### Granules by blocks of the destination (R231) -/

/-- Offset and length of block i of a range of len bytes whose first byte lies at base, in aligned blocks of size. -/
def blockRun (size base len i : Nat) : Nat × Nat :=
  let first := size - base % size
  let start := if i = 0 then 0 else first + (i - 1) * size
  (start, min (if i = 0 then first else size) (len - start))

def blockCount (size base len : Nat) : Nat := (base % size + len + size - 1) / size

/-- The base of a range as a number of its low bits. -/
def State.baseMod (s : State) (e : Ep) (size : Nat) : Nat := (s.baseOf e % size).toNat

/-! ### CPYN (R232) -/

structure Layout where
  ty  : EType
  ext : List Nat
  str : List Int
  deriving DecidableEq, Repr

def layoutOf (bs : List Byte) : Option Layout :=
  let rank := bytesNat bs 0 1 % 32
  match etypeOf (bytesNat bs 1 1 % 16) with
  | none => none
  | some ty =>
    let l : Layout := ⟨ty, (List.range rank).map fun i => bytesNat bs (8 + 4 * i) 4,
      (List.range rank).map fun i => signedBits 64 (bytesNat bs (72 + 8 * i) 8)⟩
    if rank = 0 || 16 < rank || elemBytes ty = 0 || l.ext.any (· = 0) then none else some l

/-- The two layouts when they agree. -/
def layoutPair (lay : List Byte) : Option (Layout × Layout) :=
  match layoutOf (lay.take 256), layoutOf (lay.drop 256) with
  | some a, some b => if a.ext = b.ext && elemBytes a.ty = elemBytes b.ty then some (a, b) else none
  | _, _ => none

/-- The lowest byte that a layout places an element's first byte at, and the bytes from there to its last. -/
def Layout.span (l : Layout) : Int × Nat :=
  let ends := (l.ext.zip l.str).map fun (n, st) => ((n : Int) - 1) * st
  let lo := (ends.map (min 0)).foldl (· + ·) 0
  let hi := (ends.map (max 0)).foldl (· + ·) 0
  (lo, (hi - lo).toNat + elemBytes l.ty)

/-- Offsets (destination, source) of all index tuples of the dimensions above 0, the lowest of them fastest. -/
def outerOffs : List (Nat × Int × Int) → List (Int × Int)
  | [] => [(0, 0)]
  | (n, a, b) :: rest => (outerOffs rest).flatMap fun o => (List.range n).map fun (i : Nat) => (o.1 + i * a, o.2 + i * b)

/-- Cut the elements of dimension 0 into runs inside one 64-byte block, as (first element, count, block). -/
def addRun (blk : Int) (k : Nat) : List (Nat × Nat × Int) → List (Nat × Nat × Int)
  | (k0, n, b) :: rest => if b = blk then (k0, n + 1, b) :: rest else (k, 1, blk) :: (k0, n, b) :: rest
  | [] => [(k, 1, blk)]

def dimRuns (base : Int) (str : Int) (b n : Nat) : List (Nat × Nat) :=
  if str = b then (((List.range n).foldl (fun acc (k : Nat) => addRun ((base + k * str) / 64) k acc) []).reverse).map fun r => (r.1, r.2.1)
  else (List.range n).map fun k => (k, 1)

/-- The granules of CPYN: destination and source offsets of their first element, and their count of elements. -/
def cpynGrans (base : Int) (a b : Layout) : List (Int × Int × Nat) :=
  match a.ext.zip (a.str.zip b.str) with
  | [] => []
  | (n, sa, sb) :: dims =>
    (outerOffs dims).flatMap fun o => (dimRuns (base + o.1) sa (elemBytes a.ty) n).map fun (k, c) => (o.1 + k * sa, o.2 + k * sb, c)

def State.cpynList (s : State) (m : CCmd) : List (Int × Int × Nat) :=
  match epOf m.d[0], layoutPair m.lay with
  | some dst, some (a, b) => cpynGrans (s.baseOf dst) a b
  | _, _ => []

def State.cpynGran (s : State) (m : CCmd) (i : Nat) : State × Except GBad Unit :=
  match epOf m.d[0], epOf m.d[1], layoutPair m.lay, (s.cpynList m)[i]? with
  | some dst, some src, some (a, b), some (od, os, n) =>
    let w := elemBytes a.ty
    let st := b.str.headD 0
    s.moveGran m ((List.range n).map fun (k : Nat) => (src, os + k * st, w)) fun l => [(dst, od, l.flatten)]
  | _, _, _, _ => (s, .error (.cause .illegal 0))

/-! ### CPYT (R233) -/

/-- The tile of elements of granule i: first row, rows, first column, columns. -/
def TrWord.gran (t : TrWord) (i : Nat) : Nat × Nat × Nat × Nat :=
  let g := 64 / elemBytes t.ty
  let nb := (t.cols + g - 1) / g
  let r := i / nb * g
  let c := i % nb * g
  (r, min g (t.rows - r), c, min g (t.cols - c))

def TrWord.count (t : TrWord) : Nat :=
  let g := 64 / elemBytes t.ty
  ((t.rows + g - 1) / g) * ((t.cols + g - 1) / g)

/-- Byte of element (k, n) in dense cords that begin at a unit (R84, R233). -/
def cordByte (t : TrWord) (unit k n : Nat) : Nat :=
  let cord := k / 32 * (t.rows / 64) + n / 64
  (unit + cord * cordUnits t.ty + 1) * 64 + elemBytes t.ty * (k % 32 * 64 + n % 64)

/-- Element k of a row of bytes. -/
def elemAt (l : List (List Byte)) (row k b : Nat) : List Byte := ((l.getD row []).drop (k * b)).take b

def State.cpytGran (s : State) (m : CCmd) (cord : Bool) (i : Nat) : State × Except GBad Unit :=
  match epOf m.d[0], epOf m.d[1], trWord m.d[2] m.d[3] with
  | some dst, some src, some t =>
    let b := elemBytes t.ty
    let (r, nr, c, nc) := t.gran i
    s.moveGran m ((List.range nr).map fun k => (src, ((r + k) * t.spitch + c * b : Nat), nc * b)) fun l =>
      if cord then
        let unit := (dst.off / 64).toNat
        let base : Ep := { dst with off := 0 }
        (List.range nc).flatMap fun j => (List.range nr).map fun k => (base, (cordByte t unit (c + j) (r + k) : Nat), elemAt l k j b)
      else (List.range nc).map fun j =>
        (dst, ((c + j) * t.dpitch + r * b : Nat), (List.range nr).flatMap fun k => elemAt l k j b)
  | _, _, _ => (s, .error (.cause .illegal 0))

/-- The headers of the cords, written when the command begins. -/
def State.cordHeaders (s : State) (m : CCmd) : State :=
  match epOf m.d[0], trWord m.d[2] m.d[3] with
  | some dst, some t =>
    let fmt := match t.ty with
      | .e4m3 => 0
      | .e5m2 => 1
      | _ => 3
    let n := t.cols / 32 * (t.rows / 64)
    let unit := (dst.off / 64).toNat
    (List.range n).foldl (fun s k =>
      s.putLocal { dst with off := 0 } ((unit + k * cordUnits t.ty) * 64 : Nat) (natLe 8 (fmt + cordUnits t.ty * 256))) s
  | _, _ => s

/-! ### CGATH, CSCAT (R234) -/

def State.rowGran (s : State) (m : CCmd) (gather : Bool) (i : Nat) : State × Except GBad Unit :=
  match epOf m.d[0], epOf m.d[1], epOf m.d[2], rowWord m.d[3] with
  | some dst, some src, some ix, some (rowb, _, stride) =>
    let x := leNat (s.core.tile.bytes (ix.off.toNat + 4 * i) 4)
    if x = 0xFFFFFFFF then (s, .ok ())
    else if gather then s.moveGran m [(src, (x * stride : Nat), rowb)] fun l => [(dst, (i * rowb : Nat), l.flatten)]
    else s.moveGran m [(src, (i * rowb : Nat), rowb)] fun l => [(dst, (x * stride : Nat), l.flatten)]
  | _, _, _, _ => (s, .error (.cause .illegal 0))

/-! ### CRED, CREDC (R235, R236) -/

/-- One combination of R235. -/
def credNew (op : RedKind) (ty : EType) (old a : Nat) : Nat :=
  if ty.isFloat then
    match op with
    | .min => fmin ty old a
    | .max => fmax ty old a
    | _ => fadd ty (.rnd .rne) false old a
  else redNew op ty.bits ty.isSigned old a

/-- Combine elements of b bytes. -/
def combine (f : Nat → Nat → Nat) (b : Nat) : Nat → List Byte → List Byte → List Byte
  | 0, _, _ => []
  | n + 1, old, new => natLe b (f (leNat (old.take b)) (leNat (new.take b))) ++ combine f b n (old.drop b) (new.drop b)

/-- The element at an address among the bytes that go to some parts. -/
def elemFor (cut : List (Part × List Byte)) (b a : Nat) : Option Nat :=
  cut.findSome? fun (p, l) =>
    if decide (p.addr ≤ a) && decide (a + b ≤ p.addr + l.length) then some (leNat ((l.drop (a - p.addr)).take b)) else none

/-- An 8-byte word with the elements that fall into it combined. -/
def wordAfter (f : Nat → Nat → Nat) (b : Nat) (cut : List (Part × List Byte)) (a v : Nat) : List Byte :=
  (List.range (8 / b)).flatMap fun k =>
    let old := bitsOf v (8 * b * k) (8 * b)
    natLe b (((elemFor cut b (a + b * k)).map (f old)).getD old)

/-- Addresses of the 8-byte words that some parts meet. -/
def wordsMet (cut : List (Part × List Byte)) : List Nat :=
  (cut.flatMap fun (p, _) => (linesOf 8 p.addr p.len).map (8 * ·)).eraseDups

/-- The checks of a reduction into memory: its parts, and whether one lies on a host page without the system-atomic attribute
(R140). -/
def State.reduceParts (s : State) (e : Ep) (off : Int) (bs : List Byte) :
    State × Except GBad (List (Part × List Byte) × Bool) :=
  match s.access s.tenant s.core.caps[e.cap] (e.off + off) bs.length 1 [permA] .write with
  | (s, .error x) => (s, .error (gbadOf x))
  | (s, .ok ps) =>
    match ps.find? fun p => p.part.pois with
    | some p => (s, .error (.cause .poison p.part.va))
    | none =>
      if ps.any fun p => s.anyPois p.part.addr p.part.len || !s.homeUp p.part.addr then (s, .error (.cause .poison 0))
      else (s, .ok (splitBytes (partsOf ps) bs, ps.any fun p => spaceOf p.part.addr = 2 && !p.page.sa))

/-- Reduce bytes into an endpoint: at the home, element by element; on a host page without the system-atomic attribute each 8-byte
word is read first and written when the command moves next (R140, R235); in place elsewhere. -/
def State.reduceInto (s : State) (m : CCmd) (op : RedKind) (ty : EType) (e : Ep) (off : Int) (bs : List Byte) :
    State × Except GBad Unit :=
  let f := credNew op ty
  let b := elemBytes ty
  if e.spc = 0 then
    match s.reduceParts e off bs with
    | (s, .error x) => (s, .error x)
    | (s, .ok (cut, true)) =>
      if m.old.isEmpty then
        let (s, ws) := (wordsMet cut).foldl (fun (r : State × List (Nat × Nat)) a =>
          let (s, v) := r.1.homeNat a 8
          (s, r.2 ++ [(a, v.getD 0)])) (s, [])
        (s, .error (.held ws m.comp))
      else (m.old.foldl (fun s (a, v) => (s.homeWrite a (wordAfter f b cut a v)).1) s, .ok ())
    | (s, .ok (cut, false)) =>
      (cut.foldl (fun s (p, l) =>
        ((runs b l.length l).zipIdx).foldl (fun s (x, i) =>
          (s.doRed (p.addr + i * b) b (p.kind = .rc) (opBody (redCode op + 16 * ty.bits) b ty.isSigned [leNat x])
            fun old => f old (leNat x)).1) s) s, .ok ())
  else
    match s.rdEp m.view e off bs.length with
    | (s, .error x) => (s, .error x)
    | (s, .ok old) => s.copyStore m.tag [(e, off, combine f b (bs.length / b) old bs)]

def State.credGran (s : State) (m : CCmd) (i : Nat) : State × Except GBad Unit :=
  match epOf m.d[0], epOf m.d[1], redWord m.d[2] with
  | some dst, some src, some (len, op, ty) =>
    let (off, n) := blockRun 64 (s.baseMod dst 64) len i
    match s.rdEp m.view src off n with
    | (s, .error b) => (s, .error b)
    | (s, .ok bs) => s.reduceInto m op ty dst off bs
  | _, _, _ => (s, .error (.cause .illegal 0))

/-- A value times a power of two. -/
def FV.scale (k : Int) : FV → FV
  | .fin n m e => .fin n m (e + k)
  | v => v

/-- floor(log2 |v|) of a finite value that is not zero. -/
def FV.flog2 : FV → Option Int
  | .fin _ m e => if m = 0 then none else some (e + log2 m)
  | _ => none

/-- The largest |v| that is no NaN. -/
def amaxOf (vs : List Nat) : FV :=
  vs.foldl (fun m v => let x := (fvOf .f32 v).abs; if !x.isNan && m.lt x then x else m) (.fin false 0 0)

/-- The exponent of a block (R236). -/
def blockExp (fmt : EType) (vs : List Nat) : Int :=
  if fmt = .bf16 then 0
  else
    match (amaxOf vs).flog2 with
    | none => 0
    | some k => max (-127) (min 127 (k - (if fmt = .e4m3 then 8 else 15)))

/-- q[i] of R236. -/
def quant (fmt : EType) (e : Int) (v : Nat) : Nat := packFV fmt (.rnd .rne) true ((fvOf .f32 v).scale (-e))

/-- d[i]: what the destination adds. -/
def dequant (fmt : EType) (e : Int) (q : Nat) : Nat := packFV .f32 (.rnd .rne) false ((fvOf fmt q).scale e)

/-- res[i]. -/
def residual (v d : Nat) : Nat := if (fvOf .f32 v).isNan then 0 else fsub .f32 (.rnd .rne) false v d

def f32s : Nat → List Byte → List Nat
  | 0, _ => []
  | n + 1, bs => leNat (bs.take 4) :: f32s n (bs.drop 4)

/-- Bytes, then zeros up to n. -/
def padTo (n : Nat) (bs : List Byte) : List Byte := (bs ++ List.replicate n 0).take n

/-- A compressed granule as a restart record holds it: the block, its e8m0 scale, its residuals (R404). -/
def compBytes (fmt : EType) (e : Int) (qs rs : List Nat) : List Byte :=
  padTo 64 (qs.flatMap fun q => natLe (elemBytes fmt) q) ++ natLe 4 (e + 127).toNat ++ padTo 128 (rs.flatMap fun r => natLe 4 r)

/-- d of the n values of a compressed granule. -/
def compVals (fmt : EType) (comp : List Byte) (n : Nat) : List Nat :=
  let e : Int := (bytesNat comp 64 1 : Int) - 127
  (List.range n).map fun i => dequant fmt e (bytesNat comp (i * elemBytes fmt) (elemBytes fmt))

/-- May a reduction into an endpoint be made now? -/
def State.reduceOk (s : State) (m : CCmd) (e : Ep) (off : Int) (bs : List Byte) : State × Except GBad Unit :=
  if e.spc = 0 then
    match s.reduceParts e off bs with
    | (s, .error x) => (s, .error x)
    | (s, .ok _) => (s, .ok ())
  else
    match s.rdEp m.view e off bs.length with
    | (s, .error x) => (s, .error x)
    | (s, .ok _) => (s, .ok ())

/-- Granule i of CREDC: it is compressed, and its residual written, once; the block is sent when the command moves next (R236). -/
def State.credcGran (s : State) (m : CCmd) (i : Nat) : State × Except GBad Unit :=
  match epOf m.d[0], epOf m.d[1], epOf m.d[2], cmpWord m.d[3] with
  | some dst, some src, some res, some (n, fmt) =>
    let k := min 32 (n - 32 * i)
    let off : Int := (128 * i : Nat)
    if !m.comp.isEmpty then s.reduceInto m .add .f32 dst off ((compVals fmt m.comp k).flatMap fun d => natLe 4 d)
    else
      match s.rdAll m.view [(src, off, 4 * k), (res, off, 4 * k)] with
      | (s, .error b) => (s, .error b)
      | (s, .ok l) =>
        let vs := ((f32s k (l.getD 0 [])).zip (f32s k (l.getD 1 []))).map fun (a, b) => fadd .f32 (.rnd .rne) false a b
        let e := blockExp fmt vs
        let qs := vs.map (quant fmt e)
        let rs := (vs.zip qs).map fun (v, q) => residual v (dequant fmt e q)
        let bytes := rs.flatMap fun r => natLe 4 r
        match s.reduceOk m dst off bytes with
        | (s, .error b) => (s, .error b)
        | (s, .ok _) =>
          match s.copyStore m.tag [(res, off, bytes)] with
          | (s, .error b) => (s, .error b)
          | (s, .ok _) => (s, .error (.held [] (compBytes fmt e qs rs)))
  | _, _, _, _ => (s, .error (.cause .illegal 0))

/-! ### CCOLL (R139, R237) -/

/-- The group record's fields: GROUP, NRANK, RANK, SEQ, MCAP, MOFF. -/
structure GroupRec where
  group : Nat
  nrank : Nat
  rank  : Nat
  seq   : Nat
  mcap  : Nat
  moff  : Nat
  deriving DecidableEq, Repr

def groupOf (bs : List Byte) : GroupRec :=
  ⟨bytesNat bs 0 4, bytesNat bs 4 2, bytesNat bs 6 2, bytesNat bs 8 8, bytesNat bs 16 2, bytesNat bs 24 6⟩

/-- Elements that a rank sends. -/
def CollWord.sent (w : CollWord) (g : GroupRec) : Nat :=
  match w.kind with
  | 1 => g.nrank * w.n
  | 3 => if g.rank = 0 then w.n else 0
  | _ => w.n

def State.coll? (s : State) (g : GroupRec) : Option Coll := s.colls.find? fun c => c.group = g.group && c.seq = g.seq

/-- A participant arrives: a part that disagrees with its peers makes the collective fail with ILLEGAL. -/
def State.joinColl (s : State) (g : GroupRec) (p : CollPart) : State :=
  let old := (s.coll? g).getD ⟨g.group, g.seq, g.nrank, [], none⟩
  let same (q : CollPart) : Bool := q.kind = p.kind && q.op = p.op && q.ety = p.ety && q.n = p.n
  let bad := old.nrank != g.nrank || old.parts.any fun q => !same q
  let new : Coll := { old with
    parts := old.parts.filter (fun q => q.rank != p.rank) ++ [p], failed := if bad then some .illegal else old.failed }
  { s with colls := s.colls.filter (fun c => !(c.group = g.group && c.seq = g.seq)) ++ [new] }

/-- Key of a peer package in the route table: behind the 4,096 pool nodes. -/
def peerKey (pod : Nat) : Nat := 4096 + pod

/-- Is a participant that has not arrived on a package that does not answer (R237, R428)? -/
def State.collDead (s : State) (g : GroupRec) (c : Coll) : Bool :=
  match s.objWindow s.tenant g.mcap with
  | none => false
  | some w => (List.range g.nrank).any fun r =>
      (c.parts.all fun p => p.rank != r) &&
        (match s.peekVa s.tenant (w.vbase + g.moff + 8 * r) 8 with
          | some bs => leNat bs % 1024 != s.podpos.toNat && !s.nodeUp (peerKey (leNat bs % 1024))
          | none => false)

/-- The reads of the member record that collDead makes, with what they find: errors in lines, poisoned page tables (R412, R440). -/
def State.touchColl (s : State) (g : GroupRec) : State :=
  match s.objWindow s.tenant g.mcap with
  | none => s
  | some w => (List.range g.nrank).foldl (fun (s : State) r => (s.peek s.tenant (w.vbase + g.moff + 8 * r) 8).1) s

/-- What a collective has come to for one participant: not over, failed, or the parts of every rank. -/
inductive CollEnd where
  | waits | fails (c : Cause) | all (ps : List CollPart)

def State.collEnd (s : State) (g : GroupRec) : CollEnd :=
  match s.coll? g with
  | none => .waits
  | some c =>
    match c.failed with
    | some e => .fails e
    | none =>
      if (List.range g.nrank).all fun r => c.parts.any fun p => p.rank = r then
        .all ((List.range g.nrank).filterMap fun r => c.parts.find? fun p => p.rank = r)
      else if s.collDead g c then .fails .poison
      else .waits

/-- Element e of a part. -/
def collElem (b : Nat) (p : CollPart) (e : Nat) : Nat := bytesNat p.data (e * b) b

/-- The bytes that a rank's destination receives. -/
def collBytes (w : CollWord) (g : GroupRec) (ps : List CollPart) : List Byte :=
  let b := elemBytes w.ty
  let op : RedKind := match w.op with
    | 0 => .add
    | 1 => .min
    | _ => .max
  let sum (at_ : Nat) : List Byte := natLe b (tree (credNew op w.ty) 0 (ps.map fun p => collElem b p at_))
  match w.kind with
  | 0 => (List.range w.n).flatMap sum
  | 1 => (List.range w.n).flatMap fun e => sum (g.rank * w.n + e)
  | 2 => ps.flatMap fun p => p.data.take (w.n * b)
  | _ => ((ps.headD ⟨0, 0, 0, 0, 0, [], none⟩).data).take (w.n * b)

def CollWord.total (w : CollWord) (g : GroupRec) : Nat := elemBytes w.ty * (if w.kind = 2 then g.nrank * w.n else w.n)

/-- Does collEnd look the members up? -/
def State.collLooks (s : State) (g : GroupRec) : Bool :=
  match s.coll? g with
  | some c => c.failed.isNone && !((List.range g.nrank).all fun r => c.parts.any fun p => p.rank = r)
  | none => false

def State.collGran (s : State) (m : CCmd) (i : Nat) : State × Except GBad Unit :=
  match epOf m.d[0], collWord m.d[2] with
  | some dst, some w =>
    let g := groupOf m.lay
    let s := if s.collLooks g then s.touchColl g else s
    match s.collEnd g with
    | .waits => (s, .error .busy)
    | .fails c => (s, .error (.cause c 0))
    | .all ps =>
      let (off, n) := blockRun 64 (s.baseMod dst 64) (w.total g) i
      s.copyStore m.tag [(dst, off, ((collBytes w g ps).drop off).take n)]
  | _, _ => (s, .error (.cause .illegal 0))

/-- A participant of this core is done: a collective that every participant of the package has left is dropped. -/
def State.leaveColl (s : State) (m : CCmd) : State :=
  if m.op != .ccoll then s
  else
    let g := groupOf m.lay
    let drop (c : Coll) : Coll := { c with parts := c.parts.map fun (p : CollPart) => if p.rank = g.rank then { p with core := none } else p }
    { s with colls := (s.colls.map fun c => if c.group = g.group && c.seq = g.seq then drop c else c).filter fun c =>
        !(c.group = g.group && c.seq = g.seq && c.parts.all fun p => p.core.isNone) }

/-! ### CBGET (R231) -/

/-- The bulk get of a command goes out when it begins: LEN bytes from the first of its source (R231, R422). -/
def State.sendBulk (s : State) (m : CCmd) : State :=
  match epOf m.d[1], lenWord m.d[2] with
  | some src, some len =>
    match s.access s.tenant s.core.caps[src.cap] src.off 1 1 [permR] .read with
    | (s, .ok (p :: _)) => s.sendAt 0x02 p.part.addr (natLe 4 len)
    | _ => s
  | _, _ => s

/-- A part of what the bulk get answers: of an SO page as the home has it, of another as a load reads it, under a lease. -/
def State.bulkPart (s : State) (p : Part) : State × List PByte :=
  if p.kind = .so && !p.pois then s.homeRead p.addr p.len else s.viewPart p

def State.cbgetGran (s : State) (m : CCmd) (i : Nat) : State × Except GBad Unit :=
  match epOf m.d[0], epOf m.d[1], lenWord m.d[2] with
  | some dst, some src, some len =>
    let (off, n) := blockRun 4096 (s.baseMod src 4096) len i
    if src.spc != 0 then (s, .error (.cause .perm 0))
    else
      match s.access s.tenant s.core.caps[src.cap] (src.off + off) n 1 [permR] .read with
      | (s, .error b) => (s, .error (gbadOf b))
      | (s, .ok ps) =>
        match ps.find? fun p => spaceOf p.part.addr != 1 with
        | some p => (s, .error (.cause .perm p.part.va))
        | none =>
          let (s, bs) := s.readWith State.bulkPart (partsOf ps)
          let bs := overlayOwn (s.ownFor m.view (partsOf ps)) (partsOf ps) bs
          if bs.any (·.2) then (s, .error (.cause .poison 0)) else s.copyStore m.tag [(dst, off, bs.map (·.1))]
  | _, _, _ => (s, .error (.cause .illegal 0))

/-! ### Issue (R160, R228, R229) -/

/-- Write direction: from a tile register, the accumulator store or a slice to memory, or CFILL (R160). -/
def writeDir (op : CopyOp) (spans : List Span) : Bool :=
  op = .cfill ||
    (match spans with
      | dst :: src :: _ => dst.ep.spc = 0 && (src.ep.spc = 1 || src.ep.spc = 3 || src.ep.spc = 4)
      | _ => false)

/-- The two layouts that a CPYN names, as they stand now. -/
def State.layoutsNow (s : State) (d : Vector Word 4) : Option (Layout × Layout) :=
  match s.refNow d[2] 256 256, s.refNow d[3] 256 256 with
  | some a, some b => layoutPair (a ++ b)
  | _, _ => none

/-- Is the ETYPE of a layout record that a CPYN names no reserved code (R67)? A record that cannot be read now makes the command
fail when it begins. -/
def State.etypesOk (s : State) (op : CopyOp) (d : Vector Word 4) : Bool :=
  let ok (w : Word) : Bool := ((s.refNow w 256 256).map fun bs => (etypeOf (bytesNat bs 1 1 % 16)).isSome).getD true
  op != .cpyn || (ok d[2] && ok d[3])

/-- The ranges that the checks at issue cover: those of CPYN and CCOLL by the records as they stand; indices are not checked (R229,
R232, R234, R237). A record that cannot be read makes the command fail when it begins. -/
def State.issueSpans (s : State) (op : CopyOp) (d : Vector Word 4) (spans : List Span) : List Span :=
  match op with
  | .cpyn =>
    match epOf d[0], epOf d[1], s.layoutsNow d with
    | some dst, some src, some (a, b) => [dst.at_ a.span.1 a.span.2 true, src.at_ b.span.1 b.span.2 false]
    | _, _, _ => []
  | .ccoll =>
    match epOf d[0], epOf d[1], collWord d[2], s.refNow d[3] 64 64 with
    | some dst, some src, some w, some bs =>
      [dst.at_ 0 (w.total (groupOf bs)) true, src.at_ 0 (elemBytes w.ty * w.sent (groupOf bs)) false]
    | _, _, _, _ => []
  | _ => spans.filter fun p => !p.wide

/-- Bytes of rows at the offsets that indices name. -/
def State.rowSpans (s : State) (ix : Ep) (e : Ep) (rowb count stride : Nat) (wr : Bool) : List Span :=
  (List.range count).filterMap fun i =>
    let x := leNat (s.core.tile.bytes (ix.off.toNat + 4 * i) 4)
    if x = 0xFFFFFFFF then none else some (e.at_ (x * stride : Nat) rowb wr)

/-- The bytes that a command reads and writes, run by run, as its words, records and indices stand at issue (R65, log entry 16). -/
def State.copyRuns (s : State) (op : CopyOp) (d : Vector Word 4) (spans : List Span) : List Span :=
  match op with
  | .cpyn =>
    match epOf d[0], epOf d[1], s.layoutsNow d with
    | some dst, some src, some (a, b) =>
      let w := elemBytes a.ty
      let st := b.str.headD 0
      (cpynGrans (s.baseOf dst) a b).flatMap fun (od, os, n) =>
        dst.at_ od (n * w) true :: (List.range n).map fun (k : Nat) => src.at_ (os + k * st) w false
    | _, _, _ => []
  | .cpyt false =>
    match epOf d[0], epOf d[1], trWord d[2] d[3] with
    | some dst, some src, some t =>
      let b := elemBytes t.ty
      ((List.range t.cols).map fun j => dst.at_ (j * t.dpitch : Nat) (t.rows * b) true) ++
        (List.range t.rows).map fun i => src.at_ (i * t.spitch : Nat) (t.cols * b) false
    | _, _, _ => []
  | .cgath | .cscat =>
    match epOf d[0], epOf d[1], epOf d[2], rowWord d[3] with
    | some dst, some src, some ix, some (rowb, count, stride) =>
      (if op = .cgath then s.rowSpans ix src rowb count stride false else s.rowSpans ix dst rowb count stride true) ++
        spans.filter fun p => !p.wide
    | _, _, _, _ => []
  | op => s.issueSpans op d spans

/-- The windows of a command, in checking mode (R65). -/
def State.copyWins (s : State) (op : CopyOp) (d : Vector Word 4) : List Win :=
  if s.core.chk then (s.copyRuns op d ((copySpans op d).getD [])).flatMap Span.win else []

/-- Endpoints of CRED in memory must be aligned to the element; those of CREDC are not checked (log entry 106). -/
def State.credAligned (s : State) (op : CopyOp) (d : Vector Word 4) : Bool :=
  match op, epOf d[0], epOf d[1], redWord d[2] with
  | .cred, some a, some b, some (_, _, ty) => s.baseOf a % elemBytes ty = 0 && s.baseOf b % elemBytes ty = 0
  | _, _, _, _ => true

/-- The words of the descriptor selectors, four with zeros. -/
def State.words4 (s : State) (sel : List OReg) : Vector Word 4 :=
  let l := s.descVals [] sel
  #v[l.getD 0 0, l.getD 1 0, l.getD 2 0, l.getD 3 0]

/-! ### The promise (R126, R228) -/

def State.myDie (s : State) : Nat := dieOf s.cid

/-- Where entry i of the ring of a die stands, in the tables of tenant 0: none when its memory cannot be reached. -/
def State.draftAt (s : State) (die idx n : Nat) (need : Need) : State × Except Bad (List PPart) :=
  let x := s.die die
  s.devRange 0 (x.drbase.toNat + 32 * (idx % x.drsize.toNat)) n need

/-- Read entry idx of the ring of a die. -/
def State.draftRead (s : State) (die idx : Nat) : State × Option (List Byte) :=
  let x := s.die die
  if x.drsize = 0 then (s, none) else s.peek 0 (x.drbase.toNat + 32 * (idx % x.drsize.toNat)) 32

/-- What such a read would return now. -/
def State.draftBytes (s : State) (die idx : Nat) : Option (List Byte) := (s.draftRead die idx).2

/-- The pool address of the first byte that a command reads from memory, if its page is in the pool. -/
def State.poolSource (s : State) (spans : List Span) : Option Nat :=
  match spans.find? fun p => p.ep.spc = 0 && !p.wr with
  | none => none
  | some p =>
    match s.access s.tenant s.core.caps[p.ep.cap] p.ep.off 1 1 [] .read with
    | (_, .ok (q :: _)) => if spaceOf q.part.addr = 1 then some (paOf q.part.addr) else none
    | _ => none

/-- Does an entry of the die's draft tell of a pool address, in flight or resident, in time or late? A pending entry counts as not
in the draft (DESIGN CHOICE, log entry 93). -/
def State.inDraft (s : State) (die pa : Nat) : Bool :=
  let x := s.die die
  (List.range (min (x.drhead - x.drtail).toNat x.drsize.toNat)).any fun i =>
    match s.draftBytes die (x.drtail.toNat + i) with
    | some b =>
      let st := leNat (b.drop 28) % 8
      let base := leNat (b.take 8)
      (st = 1 || st = 2 || st = 4) && decide (base ≤ pa) && decide (pa < base + 65536 * (leNat ((b.drop 8).take 2) % 32))
    | none => false

/-- The cold-fetch estimate, in clocks (R365). -/
def coldFetch : Nat := 3600

/-- The promise of a copy command: with nothing queued before it, a pool page that the draft does not hold gives the cold-fetch
estimate; every other estimate is free (log entry 4). -/
def State.copyPromise (s : State) (tag : BitVec 16) (spans : List Span) : Word × State :=
  match s.poolSource spans with
  | some pa =>
    if s.core.copy.isEmpty && !s.inDraft s.myDie pa then
      (BitVec.ofNat 64 (tag.toNat * 2 ^ 48 + (s.cyc.toNat + coldFetch) % 2 ^ 48), s)
    else s.newPromise tag
  | none => s.newPromise tag

/-- Queue a copy command: its tag, its promise, its result entry. -/
def State.queueCopy (s : State) (h : Hdr) (iw : BitVec 96) (op : CopyOp) (e : EHdr) (d : Vector Word 4) (spans : List Span) :
    State :=
  let tag := s.nextTag
  let (prom, s) := s.copyPromise tag spans
  let x := s.cur
  let entry := x.rqN
  let m : CCmd := {
    op := op, iw := iw, strm := s.who, slot := h.set, e := e, d := d, tag := tag, prom := prom, ipc := x.pc, entry := entry
    begun := false, done := false, fault := none, fva := 0, wbase := 0, marks := [], unit := 0, seen := 0, lay := [], idx := 0
    wins := s.copyWins op d, hide := [], pins := [], since := s.ftime, acc := s.core.nextId, comp := [], old := [] }
  let x := (x.alloc (if op = .draft then none else some prom)).sbSet? h.set
  let s := (s.setCur x).mapCtx fun y => { y with ntag := tag + 1 }
  { s with core := { s.core with copy := s.core.copy ++ [m], nextId := s.core.nextId + 1 } }

/-- The issue of a copy command: the checks on its words, the wait for the queue, ownership. -/
def copyIssue (strms : List Strm) (h : Hdr) (i : Instr) (op : CopyOp) (e : EHdr) (sel : List OReg) (s : State) :
    Host.Outcome State Fault Refusal :=
  issue (gateN strms) h ⟨sel.map OReg.src, [], .discard, 1⟩ (fun t =>
    let d := t.words4 sel
    match copySpans op d with
    | none => t.trapDone .illegal
    | some spans =>
      if t.who = .s && !writeDir op spans then t.trapDone .stream
      else if (t.issueSpans op d spans).any (fun p => !p.ep.fits p.len) || !t.credAligned op d || !t.etypesOk op d then t.trapDone .illegal
      else if spans.any fun p => p.ep.spc = 4 && !t.sliceOk p.ep.slice then t.trapDone .perm
      else if 16 ≤ t.core.copy.length then .hold .other
      else t.owned (t.copyWins op d) (.go (t.queueCopy h (encode i) op e d spans))) s

def execCpy (h : Hdr) (o : E3) (s : State) : Host.Outcome State Fault Refusal :=
  copyIssue [.l, .s] h (.cpy h o) .cpy o.e [o.d0, o.d1, o.d2] s

def execCpyn (h : Hdr) (o : E4) (s : State) : Host.Outcome State Fault Refusal :=
  copyIssue [.l, .s] h (.cpyn h o) .cpyn o.e [o.d0, o.d1, o.d2, o.d3] s

def execCpyt (h : Hdr) (cord : Bool) (o : E4) (s : State) : Host.Outcome State Fault Refusal :=
  copyIssue [.l, .s] h (.cpyt h cord o) (.cpyt cord) o.e [o.d0, o.d1, o.d2, o.d3] s

def execCgath (h : Hdr) (o : E4) (s : State) : Host.Outcome State Fault Refusal :=
  copyIssue [.l] h (.cgath h o) .cgath o.e [o.d0, o.d1, o.d2, o.d3] s

def execCscat (h : Hdr) (o : E4) (s : State) : Host.Outcome State Fault Refusal :=
  copyIssue [.l, .s] h (.cscat h o) .cscat o.e [o.d0, o.d1, o.d2, o.d3] s

def execCfill (h : Hdr) (o : E3) (s : State) : Host.Outcome State Fault Refusal :=
  copyIssue [.l, .s] h (.cfill h o) .cfill o.e [o.d0, o.d1, o.d2] s

def execCred (h : Hdr) (o : E3) (s : State) : Host.Outcome State Fault Refusal :=
  copyIssue [.l, .s] h (.cred h o) .cred o.e [o.d0, o.d1, o.d2] s

def execCredc (h : Hdr) (o : E4) (s : State) : Host.Outcome State Fault Refusal :=
  copyIssue [.l, .s] h (.credc h o) .credc o.e [o.d0, o.d1, o.d2, o.d3] s

def execCcoll (h : Hdr) (o : E4) (s : State) : Host.Outcome State Fault Refusal :=
  copyIssue [.l] h (.ccoll h o) .ccoll o.e [o.d0, o.d1, o.d2, o.d3] s

def execCbget (h : Hdr) (o : E3) (s : State) : Host.Outcome State Fault Refusal :=
  copyIssue [.l] h (.cbget h o) .cbget o.e [o.d0, o.d1, o.d2] s

def execDraft (h : Hdr) (o : E4) (s : State) : Host.Outcome State Fault Refusal :=
  copyIssue [.l] h (.draft h o) .draft o.e [o.d0, o.d1, o.d2, o.d3] s

/-! ### The granules of a command -/

def State.cpyGran (s : State) (m : CCmd) (i : Nat) : State × Except GBad Unit :=
  match epOf m.d[0], epOf m.d[1], lenWord m.d[2] with
  | some dst, some src, some len =>
    let (off, n) := blockRun 64 (s.baseMod dst 64) len i
    s.moveGran m [(src, off, n)] fun l => [(dst, off, l.flatten)]
  | _, _, _ => (s, .error (.cause .illegal 0))

def State.cfillGran (s : State) (m : CCmd) (i : Nat) : State × Except GBad Unit :=
  match epOf m.d[0], lenWord m.d[2] with
  | some dst, some len =>
    let (off, n) := blockRun 64 (s.baseMod dst 64) len i
    let pat := natLe 8 m.d[1].toNat
    s.copyStore m.tag [(dst, off, (List.range n).map fun k => pat.getD ((off + k) % 8) 0)]
  | _, _ => (s, .error (.cause .illegal 0))

def State.granCount (s : State) (m : CCmd) : Nat :=
  let blocks (e : Option Ep) (n : Nat) : Nat := match e with
    | some e => blockCount 64 (s.baseMod e 64) n
    | none => 0
  match m.op with
  | .cpy | .cfill => blocks (epOf m.d[0]) ((lenWord m.d[2]).getD 0)
  | .cbget => match epOf m.d[1] with
    | some e => blockCount 4096 (s.baseMod e 4096) ((lenWord m.d[2]).getD 0)
    | none => 0
  | .cpyn => (s.cpynList m).length
  | .cpyt _ => ((trWord m.d[2] m.d[3]).map TrWord.count).getD 0
  | .cgath | .cscat => ((rowWord m.d[3]).map (·.2.1)).getD 0
  | .cred => blocks (epOf m.d[0]) (((redWord m.d[2]).map (·.1)).getD 0)
  | .credc => (((cmpWord m.d[3]).map (·.1)).getD 0 + 31) / 32
  | .ccoll => blocks (epOf m.d[0]) (((collWord m.d[2]).map fun w => w.total (groupOf m.lay)).getD 0)
  | .draft => 0

/-- Does an endpoint word name memory through a capability that a use refuses? -/
def State.epGone (s : State) (w : Word) : Bool :=
  match epOf w with
  | some e => e.spc = 0 && (match (s.window s.core.caps[e.cap]).2 with
      | .ok _ => false
      | .error _ => true)
  | none => false

/-- Does a granule of a command use an endpoint whose capability has been revoked (R410)? -/
def State.capGone (s : State) (m : CCmd) : Bool :=
  s.epGone m.d[0] || (m.op != .cfill && m.op != .ccoll && s.epGone m.d[1])

/-- One past the last granule that may still run. A command that is not complete has a granule to come, also when the capability of
an endpoint has been revoked and its base is not known any more: that granule faults (R410). -/
def State.granEnd (s : State) (m : CCmd) : Nat :=
  let n := s.granCount m
  if m.op != .credc && s.capGone m then max n (m.wbase + 1) else n

/-- Granule i of a command; one that uses a revoked capability is CAPFAULT (R410). -/
def State.granule (s : State) (m : CCmd) (i : Nat) : State × Except GBad Unit :=
  if s.capGone m then (s, .error (.cause .capfault 0))
  else match m.op with
  | .cpy => s.cpyGran m i
  | .cpyn => s.cpynGran m i
  | .cpyt cord => s.cpytGran m cord i
  | .cgath => s.rowGran m true i
  | .cscat => s.rowGran m false i
  | .cfill => s.cfillGran m i
  | .cred => s.credGran m i
  | .credc => s.credcGran m i
  | .ccoll => s.collGran m i
  | .cbget => s.cbgetGran m i
  | .draft => (s, .ok ())

/-- WBASE passes the granules that are complete. -/
def advanceBase : Nat → Nat → List Nat → Nat × List Nat
  | 0, b, l => (b, l)
  | f + 1, b, l => if l.contains b then advanceBase f (b + 1) (l.filter (· != b)) else (b, l)

/-- Granule i is complete. -/
def CCmd.mark (m : CCmd) (i : Nat) : CCmd :=
  let m := { m with comp := [], old := [] }
  if m.wbase = i then
    let (b, l) := advanceBase m.marks.length (i + 1) m.marks
    { m with wbase := b, marks := l }
  else { m with marks := m.marks ++ [i] }

/-- How far the granules of a command have come: the first failure, or what else stopped it. -/
structure Run where
  m    : CCmd
  bad  : Option (Nat × Cause × Nat)
  stop : Option GBad

/-- Perform granules in ascending index; after a failure those in flight still complete: all of the window of 64 (R230, log entry
107). CREDC has one granule in flight, the one whose block it keeps. -/
def granLoop (s : State) (r : Run) : Nat → Nat → State × Run
  | 0, _ => (s, r)
  | fuel + 1, i =>
    let past := match r.bad with
      | some (f, _) => decide (f + 64 ≤ i) || r.m.op = .credc
      | none => false
    if r.stop.isSome || past then (s, r)
    else if r.m.marks.contains i then granLoop s r fuel (i + 1)
    else
      match s.granule r.m i with
      | (s, .ok _) => granLoop s { r with m := r.m.mark i } fuel (i + 1)
      | (s, .error (.cause c fva)) => granLoop s { r with bad := r.bad.or (some (i, c, fva)) } fuel (i + 1)
      | (s, .error (.held old comp)) =>
        if r.bad.isSome then granLoop s r fuel (i + 1)
        else (s, { r with m := { r.m with old := old, comp := comp }, stop := some (.held old comp) })
      | (s, .error e) => (s, { r with stop := some e })

/-! ### Beginning (R131, R230) -/

def State.setCopy (s : State) (m : CCmd) : State :=
  { s with core := { s.core with copy := s.core.copy.map fun x => if x.tag = m.tag then m else x } }

/-- The trap of a copy command in its stream, in the order of acceptance (R230, R368, R370, R371). POISON has INFO 5 (log entry 90).
What a faulted DRAFT leaves unfilled is filled when its handler returns (R373). -/
def State.copyTrap (s : State) (m : CCmd) (c : Cause) (info : Nat) (aux : Nat) (fva : Nat) : State :=
  let t : Trap := { Trap.of c with
    eng := true
    defd := true
    tag := m.tag
    ipc := m.ipc
    info := BitVec.ofNat 32 info
    fva := BitVec.ofNat 64 fva
    aux := BitVec.ofNat 64 aux
    fill := if m.op = .draft && m.lay.isEmpty then [m.entry] else []
    seq := m.acc }
  s.pendOn m.strm t

/-- A record of the fault queue, in the die's ash too; it sets EVPEND.FQ (R414). -/
def State.faultQueue (s : State) (f : FqRec) : State :=
  let s := { s with core := { s.core with fq := s.core.fq ++ [f] } }
  let reg := (s.core.ctx.map (·.region.toNat)).getD 0
  let s := s.coreAsh (if isDcc s.cid then 1 else 0) f.cause.code s.tenant reg f.fva.toNat []
  s.eventDcc (dieOf s.cid) 3

/-- COPY_GRANULE_FAULT: DONE, FAULT and the cause in one action; the slot stays, no signal. -/
def State.copyFault (s : State) (m : CCmd) (unit : Nat) (c : Cause) (fva : Nat) : State :=
  let m := { m with done := true, fault := some c, fva := BitVec.ofNat 64 fva, unit := unit }
  let s := (s.setCopy m).faultQueue ⟨c, false, m.tag, BitVec.ofNat 24 unit, BitVec.ofNat 16 s.tenant, BitVec.ofNat 64 fva⟩
  s.copyTrap m c (if c = .poison then 5 else unit) m.status fva

/-- The semaphore wait of an engine command (R62). -/
def Core.waitMet (c : Core) (e : EHdr) : Bool := decide (e.wthr.toNat ≤ c.sem e.wsem)

/-- The first command that has not begun; those behind it wait (R228). One that failed while it began waits for its handler. -/
def Core.nextCopy (c : Core) : Option CCmd := c.copy.find? fun m => !m.begun && !m.done

/-- The records of the step's log that a command which begins now does not see, of commands that have not completed (R131). -/
def State.hiddenNow (s : State) : List (BitVec 32) :=
  match s.log? s.logNum with
  | some g => ((g.bills.flatMap (·.recs)).filter fun r => !r.vis).map (·.rseq)
  | none => []

/-- The records appended so far to the step's log. -/
def State.recsNow (s : State) : BitVec 32 := ((s.log? s.logNum).map (·.nrec)).getD 0

/-! ### The draft (R125, R126, R238) -/

/-- Write bytes of a draft entry at its home. -/
def State.draftWrite (s : State) (ps : List PPart) (bs : List Byte) : State :=
  ((splitBytes (partsOf ps) bs).foldl (fun (s : State) (e : Part × List Byte) => (s.homeWrite e.1.addr e.2).1) s)

/-- Set STATUS of an entry. -/
def State.draftStatus (s : State) (die idx st : Nat) : State :=
  let x := s.die die
  match s.devRange 0 (x.drbase.toNat + 32 * (idx % x.drsize.toNat) + 28) 4 .write with
  | (s, .ok ps) => s.draftWrite ps (natLe 4 st)
  | (s, .error _) => s

/-- The entry that DRAFT writes. -/
def draftEntry (paddr : Nat) (w : DrWord) (deadline tag : Nat) : List Byte :=
  natLe 8 paddr ++ natLe 2 w.pages ++ natLe 1 (natOfBool w.tgt) ++ natLe 1 w.slice ++ natLe 4 w.soff ++ natLe 8 deadline ++
    natLe 4 tag ++ natLe 4 0

/-- The slices granted to the step. -/
def State.slicesNow (s : State) : List Nat := (List.range 256).filter fun n => s.sliceOk n

/-- DRAFT begins: translate the pages, through a capability with R (log entry 106), write the entry, fill the result entry with its
index. -/
def State.draftBegin (s : State) (m : CCmd) : State × Except GBad CCmd :=
  match epOf m.d[0], drWord m.d[1] with
  | some pg, some w =>
    match s.access s.tenant s.core.caps[pg.cap] pg.off (65536 * max 1 w.pages) 1 [permR] .read with
    | (s, .error b) => (s, .error (gbadOf b))
    | (s, .ok ps) =>
      match ps.find? fun p => spaceOf p.part.addr != 1 || p.part.kind = .so with
      | some p => (s, .error (.cause .perm p.part.va))
      | none =>
        let die := s.myDie
        let x := s.die die
        let idx := x.drhead.toNat
        if x.drsize.toNat ≤ (x.drhead - x.drtail).toNat then (s, .error .busy)
        else
          match s.draftAt die idx 32 .write with
          | (s, .error b) => (s, .error (gbadOf b))
          | (s, .ok at_) =>
            let paddr := paOf ((ps.head?.map fun p => p.part.addr).getD 0)
            let s := s.draftWrite at_ (draftEntry paddr w m.d[2].toNat (m.d[3].toNat % 2 ^ 32))
            let x := s.die die
            let s := s.setDie die { x with drhead := x.drhead + 1 }
            let s := { s with drafts := s.drafts ++ [(⟨die, BitVec.ofNat 32 idx, s.cid, m.tag, s.slicesNow, s.ftime⟩ : DraftJob)] }
            let c := s.core.setStrm m.strm ((s.core.strm m.strm).fill m.entry (BitVec.ofNat 64 idx))
            (s.setCore c, .ok { m with idx := idx })
  | _, _ => (s, .error (.cause .illegal 0))

/-- A DRAFT that has begun and has not written its entry: it waits for the ring, behind those before it (R238). -/
def CCmd.drafting (m : CCmd) : Bool := m.op = .draft && m.begun && !m.done && m.lay.isEmpty

/-- Write the entry of a DRAFT, when it is its turn and the ring has room; it waits otherwise. -/
def State.tryDraft (s : State) (m : CCmd) : State × Except GBad CCmd :=
  match s.core.copy.find? CCmd.drafting with
  | some x => if x.acc < m.acc then (s, .ok m) else go s m
  | none => go s m
where
  go (s : State) (m : CCmd) : State × Except GBad CCmd :=
    match s.draftBegin m with
    | (s, .error .busy) => (s, .ok m)
    | (s, .ok m) => (s, .ok { m with lay := [1] })
    | r => r

/-- What a command does when it begins, before any granule. -/
def State.beginCopy (s : State) (m : CCmd) : State × Except GBad CCmd :=
  let m := { m with begun := true, seen := s.recsNow, since := s.ftime, hide := s.hiddenNow }
  match m.op with
  | .cpyn =>
    match s.refRead m.d[2] 256 256 with
    | (s, .error b) => (s, .error b)
    | (s, .ok a) =>
      match s.refRead m.d[3] 256 256 with
      | (s, .error b) => (s, .error b)
      | (s, .ok b) => if (layoutPair (a ++ b)).isSome then (s, .ok { m with lay := a ++ b }) else (s, .error (.cause .illegal 0))
  | .cpyt true => (s.cordHeaders m, .ok m)
  | .ccoll =>
    match s.refRead m.d[3] 64 64, epOf m.d[1], collWord m.d[2] with
    | (s, .error b), _, _ => (s, .error b)
    | (s, .ok bs), some src, some w =>
      let g := groupOf bs
      if g.nrank < 2 || 1024 < g.nrank || g.nrank ≤ g.rank then (s, .error (.cause .illegal 0))
      else
        match s.rdEp m.view src 0 (elemBytes w.ty * w.sent g) with
        | (s, .error b) => (s, .error b)
        | (s, .ok data) =>
          let p : CollPart := ⟨g.rank, w.kind, w.op, bitsOf m.d[2].toNat 8 4, w.n, data, some (s.cid, m.tag)⟩
          (s.joinColl g p, .ok { m with lay := bs })
    | (s, .ok _), _, _ => (s, .error (.cause .illegal 0))
  | .draft => s.tryDraft m
  | .cbget => (s.sendBulk m, .ok m)
  | _ => (s, .ok m)

/-- COPY_COMMAND_BEGIN on the core in focus. -/
def execCopyCommandBegin (s : State) : Host.Outcome State Fault Refusal :=
  match s.core.nextCopy with
  | none => .next s
  | some m =>
    if !s.core.waitMet m.e then .next s
    else
      match s.beginCopy m with
      | (s, .ok m) => .next (s.setCopy m)
      | (s, .error (.cause c fva)) => .next (s.copyFault m 0 c fva)
      | (_, .error .hole) => .fault .hbmHole
      | (_, .error _) => .next s

/-! ### Completion (R54, R62, R240) -/

/-- The signal of an engine command; an overflow raises SEMOVF in its stream (R62). -/
def State.signal (s : State) (e : EHdr) (overflow : State → State) : State :=
  if e.sinc = 0 then s
  else
    let (c, past) := s.core.addSem e.ssem e.sinc.toNat
    let s := s.setCore c
    if past then overflow s else s

/-- A command is complete: its records are visible, its slot falls, its signal is given, its status is kept. -/
def State.finishCopy (s : State) (m : CCmd) : State :=
  let s := (s.showCopy m.tag).leaveColl m
  let c := s.core.setStrm m.strm ((s.core.strm m.strm).sbClear? m.slot)
  let c := { c with copy := c.copy.filter (fun x => x.tag != m.tag), cstat := ((⟨m.tag, m.wbase, m.count⟩ : CStat) :: c.cstat).take 64 }
  (s.setCore c).signal m.e fun s => s.copyTrap m .semovf 0 (statWord true none m.wbase m.tag) 0

/-- May a command that has begun complete now? -/
def State.copyReady (s : State) (m : CCmd) : Bool :=
  m.begun && !m.done && (m.op != .draft || m.drafting) &&
    (m.op != .ccoll || (match s.collEnd (groupOf m.lay) with
      | .waits => false
      | _ => true))

/-- COPY_COMMAND_COMPLETE of a tag on the core in focus: its granules, then completion, a fault, or a wait: for a billet, for other
packages' leases, between the read and the write of a granule. A DRAFT writes its entry. -/
def execCopyCommandComplete (tag : BitVec 16) (s : State) : Host.Outcome State Fault Refusal :=
  match s.core.copy.find? fun m => m.tag = tag with
  | none => .next s
  | some m =>
    if !s.copyReady m then .next s
    else if m.op = .draft then
      match s.tryDraft m with
      | (s, .ok m) => .next (s.setCopy m)
      | (s, .error (.cause c fva)) => .next (s.copyFault m 0 c fva)
      | (_, .error .hole) => .fault .hbmHole
      | (_, .error _) => .next s
    else
      let n := s.granEnd m
      match granLoop s ⟨m, none, none⟩ (n - m.wbase) m.wbase with
      | (t, r) =>
        match r.stop, r.bad with
        | some .hole, _ => .fault .hbmHole
        | some _, _ => .next (t.setCopy r.m)
        | none, some (i, c, fva) => .next (t.copyFault r.m i c fva)
        | none, none => .next ((t.setCopy r.m).finishCopy r.m)

/-- The granule in flight of a command, which holds what it has read or compressed: it goes on to its end (R140, R236). What it
cannot end holds no address from then on. -/
def State.finishGran (s : State) (m : CCmd) : Nat → State
  | 0 => s
  | fuel + 1 =>
    if m.comp.isEmpty && m.old.isEmpty then s
    else
      let i := (leastFrom (fun i => !m.marks.contains i) m.wbase 65).getD m.wbase
      match s.granule m i with
      | (s, .ok _) => s.setCopy (m.mark i)
      | (s, .error (.held old comp)) => s.finishGran { m with old := old, comp := comp } fuel
      | (s, .error _) => s.setCopy { m with old := [] }

/-- The copy engine of the core in focus finishes the granules in flight (R376, R399). -/
def State.finishHeld (s : State) : State :=
  s.core.copy.foldl (fun s m => if m.begun && !m.done then s.finishGran m 3 else s) s

/-! ### Draft events (R126) -/

/-- The job of an entry of the die of the core in focus. -/
def State.draftJob (s : State) (idx : Nat) : Option DraftJob :=
  s.drafts.find? fun j => j.die = s.myDie && j.idx.toNat = idx

/-- An entry that is skipped with STATUS 3. -/
def draftBad (j : DraftJob) (bs : List Byte) : Bool :=
  let pages := bytesNat bs 8 2
  bytesNat bs 0 2 != 0 || pages = 0 || 16 < pages || 1 < bytesNat bs 10 1 || bytesNat bs 12 4 % 65536 != 0 ||
    2 ^ 21 ≤ bytesNat bs 12 4 || 8 ≤ bytesNat bs 28 4 ||
    (bytesNat bs 10 1 = 1 && (!j.slices.contains (bytesNat bs 11 1) || decide (2 ^ 21 < bytesNat bs 12 4 + 65536 * pages)))

/-- Lease pages of an entry. -/
def draftPages (bs : List Byte) : List Nat :=
  (List.range (bytesNat bs 8 2)).map fun i => leasePage (keyOf 1 (bytesNat bs 0 8)) + i

/-- The entry has its final status: the DRAFT that wrote it completes. Numbers from 0x100000 stand for the records of
pre-empted continuations, whose commands wait in their images. -/
def State.draftEnd (s : State) (j : DraftJob) (st : Nat) : State :=
  let s := s.draftStatus j.die j.idx.toNat st
  let s := { s with drafts := s.drafts.filter fun x => !(x.die = j.die && x.idx = j.idx) }
  let home := s.cid
  if 0x100000 ≤ j.core then s
  else
  let s := s.focus j.core
  let s := match s.core.copy.find? fun m => m.tag = j.tag && m.op = .draft && m.idx = j.idx.toNat with
    | some m => s.finishCopy m
    | none => s
  s.focus home

/-- Is an entry the next of its die's pending ones: the lowest DEADLINE, and of equal ones the first in the ring (R126)? -/
def State.draftNext (s : State) (j : DraftJob) (bs : List Byte) : Bool :=
  let place (x : DraftJob) : Nat := (x.idx - (s.die j.die).drtail).toNat
  let later (x : DraftJob) (b : List Byte) : Bool :=
    bytesNat b 28 4 % 8 != 0 || decide (bytesNat bs 16 8 < bytesNat b 16 8) ||
      (bytesNat b 16 8 = bytesNat bs 16 8 && decide (place j ≤ place x))
  s.drafts.all fun x => x.die != j.die || ((s.draftBytes x.die x.idx.toNat).map (later x)).getD true

/-- The pages of an entry have been asked for now, which starts the timer of the answers (R428). -/
def State.draftAsked (s : State) (j : DraftJob) : State :=
  { s with drafts := s.drafts.map fun (x : DraftJob) => if x.die = j.die && x.idx = j.idx then { x with since := s.ftime } else x }

/-- DRAFT_FETCH: take the next pending entry, with the leases of its pages. -/
def execDraftFetch (idx : Nat) (s : State) : Host.Outcome State Fault Refusal :=
  match s.draftJob idx with
  | none => .next s
  | some j =>
    match s.draftRead j.die idx with
    | (s, none) => .next (s.draftEnd j 3)
    | (s, some bs) =>
      if bytesNat bs 28 4 % 8 != 0 || !s.draftNext j bs then .next s
      else if draftBad j bs then .next (s.draftEnd j 3)
      else
        match (draftPages bs).foldl (fun (a : State × Bool) p => let (s, ok) := a.1.takeLease p; (s, a.2 && ok)) (s, true) with
        | (s, true) => .next ((s.draftStatus j.die idx 1).draftAsked j)
        | (s, false) => .next (s.draftEnd j 3)

/-- Keep a page leased until a time, and no shorter than before (R126). -/
def State.holdLease (s : State) (page : Nat) (till : BitVec 64) : State :=
  if (lookupD s.kept page 0).toNat < till.toNat then { s with kept := insertAt s.kept page till } else s

/-- DRAFT_ARRIVAL: the pages are in the package view or the slice. -/
def execDraftArrival (idx : Nat) (s : State) : Host.Outcome State Fault Refusal :=
  match s.draftJob idx with
  | none => .next s
  | some j =>
    match s.draftRead j.die idx with
    | (s, none) => .next (s.draftEnd j 3)
    | (s, some bs) =>
      if bytesNat bs 28 4 % 8 != 1 then .next s
      else
        let deadline := bytesNat bs 16 8
        let st := if deadline < s.ftime.toNat then 4 else 2
        let a := keyOf 1 (bytesNat bs 0 8)
        let n := 65536 * bytesNat bs 8 2
        match readLines State.viewLine 64 s a n with
        | (s, data) =>
          if data.any (·.2) then .next (s.draftEnd j 3)
          else if bytesNat bs 10 1 = 1 then
            let at_ := bytesNat bs 11 1 * 2 ^ 21 + bytesNat bs 12 4
            .next ((s.sliceStore at_ (data.map (·.1))).draftEnd j st)
          else
            let s := (draftPages bs).foldl (fun s p => s.holdLease p (BitVec.ofNat 64 (deadline + 2000000))) s
            .next (s.draftEnd j st)

/-- DRSTEP: STATUS and TAG of an entry; 7 when the index no longer holds one (R238). -/
def State.draftStep (s : State) (idx : BitVec 32) : State × Nat :=
  let x := s.die s.myDie
  let live := decide ((x.drhead - idx - 1).toNat < (x.drhead - x.drtail).toNat)
  match (if live then s.draftRead s.myDie idx.toNat else (s, none)) with
  | (s, some bs) => (s, bytesNat bs 28 4 % 8 + bytesNat bs 24 4 * 2 ^ 32)
  | (s, none) => (s, 7)

def execDrstep (h : Hdr) (d : Dst) (a : Src) (s : State) : Host.Outcome State Fault Refusal :=
  issue (gateR [.l] [a]) h (useD [a] d) (fun t =>
    let (t, v) := t.draftStep ((t.val 0 a).setWidth 32)
    .go (t.putDst d (BitVec.ofNat 64 v))) s

end Sys2Proof.Machine
end

