-- ==== Sys2Proof/Machine/SpecialFn.lean ====
section
/-!
DEFINITION. The special functions of R81 on exact values: quotients and roots by integer division, the others by series in
fixed point of 512 bits after the point (log entry 11).
-/

namespace Sys2Proof.Machine

/-- A result before rounding: a value, or ± (man and a little more) · 2^exp. -/
inductive SF where
  | exact (v : FV)
  | near (neg : Bool) (man : Nat) (exp : Int)
  deriving DecidableEq, Repr

def SF.neg : SF → SF
  | .exact v => .exact v.neg
  | .near n m e => .near (!n) m e

/-- Round to f32 (R81). -/
def SF.pack (mode : RMode) (sat : Bool) : SF → Nat
  | .exact v => fadd.packArith .f32 mode sat v
  | .near n m e => roundFloat .f32 mode sat n m e true

/-- floor(sqrt n) for n < 4^k. -/
def isqrt : Nat → Nat → Nat → Nat
  | 0, _, r => r
  | k + 1, n, r => if (r + 2 ^ k) * (r + 2 ^ k) ≤ n then isqrt k n (r + 2 ^ k) else isqrt k n r

def sqrtNat (n : Nat) : Nat := isqrt (Nat.log2 n / 2 + 1) n 0

/-- Fraction bits of the fixed-point series, and bits dropped at the end. -/
def fixP : Nat := 512
def fixDrop : Nat := 40

def fixOne : Nat := 2 ^ fixP

/-- The end of a series: drop the low bits. -/
def nearFix (neg : Bool) (r : Nat) (e : Int) : SF := .near neg (r / 2 ^ fixDrop) (e - (fixP - fixDrop : Nat))

/-- Σ t^k / k! with k from i: t in fixed point. -/
def expSeries : Nat → Nat → Nat → Nat → Nat
  | 0, _, _, _ => 0
  | f + 1, t, i, term => term + expSeries f t (i + 1) (term * t / fixOne / (i + 1))

def fixExp (t : Nat) : Nat := expSeries 160 t 0 fixOne

/-- Σ z^(2k+1)/(2k+1), alternating when alt. -/
def atanSeries (alt : Bool) : Nat → Nat → Nat → Nat → Int
  | 0, _, _, _ => 0
  | f + 1, z2, i, pow => ((pow / (2 * i + 1) : Nat) : Int) +
      (if alt then -(atanSeries alt f z2 (i + 1) (pow * z2 / fixOne)) else atanSeries alt f z2 (i + 1) (pow * z2 / fixOne))

/-- ln of m in fixed point, 1 ≤ m < 2. -/
def fixLn (m : Nat) : Nat :=
  let z := (m - fixOne) * fixOne / (m + fixOne)
  2 * (atanSeries false 200 (z * z / fixOne) 0 z).toNat

/-- atan(1/n) in fixed point. -/
def fixAtanInv (n : Nat) : Nat := (atanSeries true 260 (fixOne / (n * n)) 0 (fixOne / n)).toNat

def fixLn2 : Nat := 2 * (atanSeries false 200 (fixOne / 9) 0 (fixOne / 3)).toNat

def fixPi : Nat := 16 * fixAtanInv 5 - 4 * fixAtanInv 239

/-- sin and cos of t in fixed point, 0 ≤ t < 2: Σ (-1)^k t^(2k+i)/(2k+i)!. -/
def sinSeries : Nat → Nat → Nat → Nat → Int
  | 0, _, _, _ => 0
  | f + 1, t2, i, term => (term : Int) - sinSeries f t2 (i + 2) (term * t2 / fixOne / ((i + 1) * (i + 2)))

def fixSin (t : Nat) : Nat := (sinSeries 90 (t * t / fixOne) 1 t).toNat
def fixCos (t : Nat) : Nat := (sinSeries 90 (t * t / fixOne) 0 fixOne).toNat

/-- man · 2^exp in fixed point, exact for exp ≥ -512. -/
def toFix (man : Nat) (exp : Int) : Nat := man * 2 ^ (exp + fixP).toNat / 2 ^ (-(exp + fixP)).toNat

/-- e^t as (r, n): r · 2^n, r in fixed point, 0 ≤ t. -/
def expBig (t : Nat) : Nat × Nat :=
  let n := t / fixLn2
  (fixExp (t - n * fixLn2), n)

/-! ### The functions -/

def one : FV := .fin false 1 0

def sfRcp : FV → SF
  | .nan => .exact .nan
  | .inf n => .exact (.fin n 0 0)
  | .fin n m e =>
    if m = 0 then .exact (.inf n)
    else
      let p := Nat.log2 m + 80
      if 2 ^ p % m = 0 then .exact (.fin n (2 ^ p / m) (-(p : Int) - e)) else .near n (2 ^ p / m) (-(p : Int) - e)

def sfSqrt : FV → SF
  | .nan => .exact .nan
  | .inf n => .exact (if n then .nan else .inf false)
  | .fin n m e =>
    if m = 0 then .exact (.fin n 0 0)
    else if n then .exact .nan
    else
      let (m, e) := if e % 2 = 0 then (m, e) else (2 * m, e - 1)
      let k := m * 2 ^ 128
      let r := sqrtNat k
      if r * r = k then .exact (.fin false r (e / 2 - 64)) else .near false r (e / 2 - 64)

def sfRsqrt : FV → SF
  | .nan => .exact .nan
  | .inf n => .exact (if n then .nan else .fin false 0 0)
  | .fin n m e =>
    if m = 0 then .exact (.inf n)
    else if n then .exact .nan
    else
      let (m, e) := if e % 2 = 0 then (m, e) else (2 * m, e - 1)
      let r := sqrtNat (2 ^ 256 / m)
      if r * r * m = 2 ^ 256 then .exact (.fin false r (-(e / 2) - 128)) else .near false r (-(e / 2) - 128)

def sfExp2 : FV → SF
  | .nan => .exact .nan
  | .inf n => .exact (if n then .fin false 0 0 else .inf false)
  | .fin n m e =>
    if m = 0 then .exact one
    else if 10 ≤ e + log2 m then (if n then .near false 1 (-2000) else .exact (.fin false 1 2000))
    else
      let x : Int := if n then -(toFix m e : Int) else toFix m e
      let k := x / (fixOne : Int)
      let f := (x % (fixOne : Int)).toNat
      if f = 0 then .exact (.fin false 1 k) else nearFix false (fixExp (f * fixLn2 / fixOne)) k

def sfLog2 : FV → SF
  | .nan => .exact .nan
  | .inf n => .exact (if n then .nan else .inf false)
  | .fin n m e =>
    if m = 0 then .exact (.inf true)
    else if n then .exact .nan
    else
      let b := log2 m
      let k : Int := e + b
      if m = 2 ^ b then .exact (.fin (decide (k < 0)) k.natAbs 0)
      else
        let v : Int := k * (fixOne : Int) + (fixLn (toFix m (-(b : Int))) * fixOne / fixLn2 : Nat)
        nearFix (decide (v < 0)) (if v < 0 then v.natAbs - 1 else v.natAbs) 0

/-- Just below 1. -/
def belowOne (neg : Bool) : SF := .near neg (2 ^ 400 - 1) (-400)

def sfTanh : FV → SF
  | .nan => .exact .nan
  | .inf n => .exact (.fin n 1 0)
  | .fin n m e =>
    if m = 0 then .exact (.fin n 0 0)
    else if e + log2 m < -80 then .near n (m * 2 ^ 60 - 1) (e - 60)
    else if 7 ≤ e + log2 m then belowOne n
    else
      let (r, k) := expBig (2 * toFix m e)
      let b := r * 2 ^ k
      nearFix n ((b - fixOne) * fixOne / (b + fixOne)) 0

def sfSig : FV → SF
  | .nan => .exact .nan
  | .inf n => .exact (if n then .fin false 0 0 else one)
  | .fin n m e =>
    if m = 0 then .exact (.fin false 1 (-1))
    else if e + log2 m < -80 then .near false (if n then 2 ^ 100 - 1 else 2 ^ 100) (-101)
    else if 8 ≤ e + log2 m then (if n then .near false 1 (-400) else belowOne false)
    else
      let (r, k) := expBig (toFix m e)
      if n then nearFix false (2 ^ (2 * fixP + k) / (fixOne + r * 2 ^ k)) (-(k : Int))
      else nearFix false (fixOne * (r * 2 ^ k) / (fixOne + r * 2 ^ k)) 0

/-- sin and cos of 2πx: quadrant and rest of |x| mod 1. -/
def turnSplit (m : Nat) (e : Int) : Nat × Nat :=
  let f := if 0 ≤ e then 0 else toFix m e % fixOne
  (4 * f / fixOne, f % (fixOne / 4))

def sfSin : FV → SF
  | .nan => .exact .nan
  | .inf _ => .exact .nan
  | .fin n m e =>
    let (q, g) := turnSplit m e
    if g = 0 then
      match q with
      | 1 => .exact (.fin n 1 0)
      | 3 => .exact (.fin (!n) 1 0)
      | _ => .exact (.fin n 0 0)
    else
      let t := 2 * fixPi * g / fixOne
      match q with
      | 0 => nearFix n (fixSin t) 0
      | 1 => nearFix n (fixCos t) 0
      | 2 => nearFix (!n) (fixSin t) 0
      | _ => nearFix (!n) (fixCos t) 0

def sfCos : FV → SF
  | .nan => .exact .nan
  | .inf _ => .exact .nan
  | .fin _ m e =>
    let (q, g) := turnSplit m e
    if g = 0 then
      match q with
      | 0 => .exact one
      | 2 => .exact (.fin true 1 0)
      | _ => .exact (.fin false 0 0)
    else
      let t := 2 * fixPi * g / fixOne
      match q with
      | 0 => nearFix false (fixCos t) 0
      | 1 => nearFix true (fixSin t) 0
      | 2 => nearFix true (fixCos t) 0
      | _ => nearFix false (fixSin t) 0

end Sys2Proof.Machine
end

