-- ==== Sys2Proof/Machine/Vec.lean ====
section
/-!
DEFINITION. Tile operands, shapes, write sets (R241 to R245); group VEC: element-wise arithmetic, moves, conversion and
quantisation (R247 to R253).
-/

namespace Sys2Proof.Machine

/-! ### Shapes and tiles (R55, R56, R242) -/

/-- A valid shape. -/
structure Shp where
  rows : Nat
  cols : Nat
  ty   : EType
  deriving DecidableEq, Repr

/-- Elements of a full tile. -/
def Shp.n (p : Shp) : Nat := p.rows * p.cols

/-- The shape that a shape register holds, none when it is not valid (R56). -/
def shpOf (v : BitVec 32) : Option Shp :=
  let rows := bitsOf v.toNat 0 11
  let cols := bitsOf v.toNat 11 11
  match etypeOf (bitsOf v.toNat 22 4) with
  | some ty => if rows = 0 || cols = 0 || decide (1024 < rows * cols) then none else some ⟨rows, cols, ty⟩
  | none => none

/-- A tile operand: first byte in the tile register file, number of elements, type. -/
structure Tile where
  base : Nat
  n    : Nat
  ty   : EType
  deriving DecidableEq, Repr

def tileAt (v : BitVec 10) (n : Nat) (ty : EType) : Tile := ⟨1024 * v.toNat, n, ty⟩

def Tile.bytes (t : Tile) : Nat := (t.n * t.ty.bits + 7) / 8

/-- The last register is not past v1023. -/
def Tile.fits (t : Tile) : Bool := decide (t.base + t.bytes ≤ 2 ^ 20)

/-- No byte in common (R241). -/
def Tile.apart (a b : Tile) : Bool := decide (a.base + a.bytes ≤ b.base) || decide (b.base + b.bytes ≤ a.base)

/-- No two of the tiles share a byte. -/
def allApart : List Tile → Bool
  | [] => true
  | a :: l => l.all (fun b => a.apart b) && allApart l

def Tile.get (t : Tile) (m : Mem) (e : Nat) : Nat :=
  if t.ty = .e2m1 then bitsOf (m.get (t.base + e / 2)).toNat (4 * (e % 2)) 4
  else m.nat (t.base + e * elemBytes t.ty) (elemBytes t.ty)

def Tile.put (t : Tile) (m : Mem) (e x : Nat) : Mem :=
  if t.ty = .e2m1 then
    let a := t.base + e / 2
    let b := (m.get a).toNat
    m.put a (BitVec.ofNat 8 (if e % 2 = 0 then b / 16 * 16 + x % 16 else x % 16 * 16 + b % 16))
  else m.store (t.base + e * elemBytes t.ty) (natLe (elemBytes t.ty) x)

/-- Write elements of a tile. -/
def Tile.putAll (t : Tile) (m : Mem) (vs : List (Nat × Nat)) : Mem := vs.foldl (fun m (e, x) => t.put m e x) m

/-- The windows of elements (R65). -/
def Tile.wins (t : Tile) (wr : Bool) (es : List Nat) : List Win :=
  es.map fun e => if t.ty = .e2m1 then ⟨1, t.base + e / 2, 1, wr⟩ else ⟨1, t.base + e * elemBytes t.ty, elemBytes t.ty, wr⟩

/-! ### What a stream reads (R241, R264) -/

def State.shape (s : State) (k : Fin 4) : Option Shp := shpOf (if s.who = .s then s.core.shS[k] else s.core.sh[k])

/-- A mask register; m0 reads as all ones. -/
def State.mask (s : State) (k : Fin 16) : BitVec 1024 :=
  if k = 0 then BitVec.allOnes 1024 else if s.who = .s then s.core.mregS[k] else s.core.mreg[k]

/-- The conditions of a PFXM on an element (R159). -/
def State.rowsPass (s : State) (p : Shp) (e : Nat) : Bool :=
  match s.cur.rows with
  | none => true
  | some f =>
    let i := e / p.cols
    let j := e % p.cols
    ((s.mask f.mk2).getLsbD e != f.mneg) && decide (f.frow.toNat ≤ i) && (f.nrow = 0 || decide (i < f.frow.toNat + f.nrow.toNat)) &&
      decide (f.fcol.toNat ≤ j) && (f.ncol = 0 || decide (j < f.fcol.toNat + f.ncol.toNat))

/-- The write set W (R243). -/
def State.wset (s : State) (p : Shp) (k : Fin 16) : List Nat :=
  (List.range p.n).filter fun e => (s.mask k).getLsbD e && s.rowsPass p e

/-- How element e is rounded (R245). -/
def State.vmode (s : State) (r : VRound) (e : Nat) : RMode :=
  match r.sr with
  | some k => .sr (kiln s.core.seed s.cur.n[k] e)
  | none => .rnd r.rnd

end Sys2Proof.Machine

namespace Sys2Proof

open Machine

/-- The named scalar of a stochastic rounding. -/
def VRound.srcs (r : VRound) : List Src :=
  match r.sr with
  | some k => [.n k]
  | none => []

def BOp.srcs : BOp → List Src
  | .scal k => [.n k]
  | _ => []

/-- The tile that a B operand reads and the index that element e reads in it (R247). -/
def BOp.tiles (b : BOp) (p : Shp) : List (Tile × (Nat → Nat)) :=
  match b with
  | .full v => [(tileAt v p.n p.ty, fun e => e)]
  | .row v => [(tileAt v p.cols p.ty, fun e => e % p.cols)]
  | .col v => [(tileAt v p.rows p.ty, fun e => e / p.cols)]
  | .scal _ => []

/-- B(e). -/
def BOp.val (b : BOp) (s : State) (p : Shp) (e : Nat) : Nat :=
  match b with
  | .scal k => (s.cur.n[k]).toNat % 2 ^ p.ty.bits
  | b =>
    match b.tiles p with
    | (t, ix) :: _ => t.get s.core.tile (ix e)
    | [] => 0

end Sys2Proof

namespace Sys2Proof.Machine

/-! ### The form of a vector instruction -/

/-- An instruction under a shape register: ILLEGAL when the shape is not valid or its operands do not pass. -/
def vecOp (g : Gate) (h : Hdr) (u : Use) (k : Fin 4) (ok : Shp → Bool) (eff : State → Shp → Done) (s : State) :
    Host.Outcome State Fault Refusal :=
  issue g h u (fun t =>
    match t.shape k with
    | some p => if ok p then eff t p else t.trapDone .illegal
    | none => t.trapDone .illegal) s

/-- Store results: elements of tiles, all of them or none. -/
def State.putTiles (s : State) (ws : List (Tile × List (Nat × Nat))) : State :=
  { s with core := { s.core with tile := ws.foldl (fun m (t, vs) => t.putAll m vs) s.core.tile } }

/-- The effect that reads elements, under the check of the windows, and writes elements and whatever post writes. -/
def State.vecGo (s : State) (rd : List (Tile × List Nat)) (ws : List (Tile × List (Nat × Nat))) (post : State → State) : Done :=
  s.owned (rd.flatMap (fun (t, es) => t.wins false es) ++ ws.flatMap fun (t, vs) => t.wins true (vs.map (·.1)))
    (.go (post (s.putTiles ws)))

/-- An element-wise instruction (R247): one value for each element of W of a full tile of TYPE. -/
def elemOp (h : Hdr) (srcs : List Src) (v : VCom) (ok : EType → EType → Bool) (vd : BitVec 10)
    (ins : Shp → List (Tile × (Nat → Nat))) (f : State → Shp → Nat → Nat) (s : State) : Host.Outcome State Fault Refusal :=
  vecOp (gateV [.c]) h (useS srcs) v.shp
    (fun p => ok p.ty v.ty && (tileAt vd p.n v.ty).fits && (ins p).all fun a => a.1.fits)
    (fun t p =>
      let w := t.wset p v.mask
      t.vecGo ((ins p).map fun (a, ix) => (a, w.map ix)) [(tileAt vd p.n v.ty, w.map fun e => (e, f t p e))] id) s

/-- A full tile of ETYPE. -/
def fullTile (v : BitVec 10) (p : Shp) : Tile := tileAt v p.n p.ty

/-- va[e]. -/
def State.elem (s : State) (v : BitVec 10) (p : Shp) (e : Nat) : Nat := (fullTile v p).get s.core.tile e

/-! ### Element arithmetic (R72, R79, R247) -/

/-- The reading of an integer element. -/
def intOf (ty : EType) (x : Nat) : Int :=
  if ty.isSigned && bitOf x (ty.bits - 1) then (x : Int) - (2 ^ ty.bits : Nat) else x

/-- The pattern of an integer result: wrapped, or clamped with SAT (R72). -/
def packInt (ty : EType) (sat : Bool) (v : Int) : Nat := wrapInt ty.bits (if sat then clampInt ty v else v)

/-- TYPE = ETYPE, float arithmetic or integer. -/
def sameNum (e t : EType) : Bool := e = t && (t.isArith || t.isInt)

/-- A binary operation that rounds. -/
def vecArith (h : Hdr) (o : VBin) (ff : EType → RMode → Bool → Nat → Nat → Nat) (fi : Int → Int → Int) (s : State) :
    Host.Outcome State Fault Refusal :=
  elemOp h (o.b.srcs ++ o.r.srcs) o.v sameNum o.vd (fun p => (fullTile o.va p, fun e => e) :: o.b.tiles p) (fun t p e =>
    let a := t.elem o.va p e
    let b := o.b.val t p e
    if p.ty.isInt then packInt p.ty o.r.sat (fi (intOf p.ty a) (intOf p.ty b)) else ff p.ty (t.vmode o.r e) o.r.sat a b) s

def execVadd (h : Hdr) (o : VBin) (s : State) : Host.Outcome State Fault Refusal := vecArith h o fadd (· + ·) s

def execVsub (h : Hdr) (o : VBin) (s : State) : Host.Outcome State Fault Refusal := vecArith h o fsub (· - ·) s

def execVmul (h : Hdr) (o : VBin) (s : State) : Host.Outcome State Fault Refusal := vecArith h o fmul (· * ·) s

def execVfma (h : Hdr) (o : VTri) (s : State) : Host.Outcome State Fault Refusal :=
  elemOp h (o.b.srcs ++ o.r.srcs) o.v sameNum o.vd
    (fun p => (fullTile o.va p, fun e => e) :: (fullTile o.vc p, fun e => e) :: o.b.tiles p) (fun t p e =>
    let a := t.elem o.va p e
    let b := o.b.val t p e
    let c := t.elem o.vc p e
    if p.ty.isInt then packInt p.ty o.r.sat (intOf p.ty a * intOf p.ty b + intOf p.ty c)
    else ffma p.ty (t.vmode o.r e) o.r.sat a b c) s

/-- A binary operation on patterns that does not round. -/
def vecBin (h : Hdr) (o : VBit) (ok : EType → EType → Bool) (f : EType → Nat → Nat → Nat) (s : State) :
    Host.Outcome State Fault Refusal :=
  elemOp h o.b.srcs o.v ok o.vd (fun p => (fullTile o.va p, fun e => e) :: o.b.tiles p)
    (fun t p e => f p.ty (t.elem o.va p e) (o.b.val t p e)) s

/-- Minimum and maximum of patterns (R79, R247). -/
def elemMin (ty : EType) (a b : Nat) : Nat :=
  if ty.isInt then (if intOf ty b < intOf ty a then b else a) else fmin ty a b

def elemMax (ty : EType) (a b : Nat) : Nat :=
  if ty.isInt then (if intOf ty a < intOf ty b then b else a) else fmax ty a b

def execVmin (h : Hdr) (o : VBit) (s : State) : Host.Outcome State Fault Refusal := vecBin h o sameNum elemMin s

def execVmax (h : Hdr) (o : VBit) (s : State) : Host.Outcome State Fault Refusal := vecBin h o sameNum elemMax s

/-- Any ETYPE but e2m1, and an integer TYPE of its width. -/
def bitPair (e t : EType) : Bool := e != .e2m1 && t.isInt && t.bits = e.bits

def execVand (h : Hdr) (o : VBit) (s : State) : Host.Outcome State Fault Refusal := vecBin h o bitPair (fun _ a b => a &&& b) s

def execVor (h : Hdr) (o : VBit) (s : State) : Host.Outcome State Fault Refusal := vecBin h o bitPair (fun _ a b => a ||| b) s

def execVxor (h : Hdr) (o : VBit) (s : State) : Host.Outcome State Fault Refusal := vecBin h o bitPair (fun _ a b => a ^^^ b) s

def sameInt (e t : EType) : Bool := e = t && t.isInt

def execVshl (h : Hdr) (o : VBit) (s : State) : Host.Outcome State Fault Refusal :=
  vecBin h o sameInt (fun ty a b => (a <<< (b % ty.bits)) % 2 ^ ty.bits) s

def execVshr (h : Hdr) (o : VBit) (s : State) : Host.Outcome State Fault Refusal :=
  vecBin h o sameInt (fun ty a b => a >>> (b % ty.bits)) s

def execVsar (h : Hdr) (o : VBit) (s : State) : Host.Outcome State Fault Refusal :=
  vecBin h o sameInt (fun ty a b => wrapInt ty.bits (signedPat ty.bits a / (2 ^ (b % ty.bits) : Nat))) s

/-- A one-source operation on the sign. -/
def vecSign (h : Hdr) (o : VAbsOp) (ff : Nat → Nat → Nat) (fi : Int → Int) (s : State) : Host.Outcome State Fault Refusal :=
  elemOp h [] o.v (fun e t => e = t && (t.isArith || t.isSigned)) o.vd (fun p => [(fullTile o.va p, fun e => e)]) (fun t p e =>
    let a := t.elem o.va p e
    if p.ty.isInt then packInt p.ty o.sat (fi (intOf p.ty a))
    else if (fvOf p.ty a).isNan then canonNan p.ty else ff (2 ^ (p.ty.bits - 1)) a) s

def execVabs (h : Hdr) (o : VAbsOp) (s : State) : Host.Outcome State Fault Refusal :=
  vecSign h o (fun top a => a % top) (fun a => if a < 0 then -a else a) s

def execVneg (h : Hdr) (o : VAbsOp) (s : State) : Host.Outcome State Fault Refusal :=
  vecSign h o (fun top a => a ^^^ top) (fun a => -a) s

/-! ### Comparison and moves (R248 to R250) -/

/-- A comparison of elements. -/
def elemCmp (c : FCond) (ty : EType) (a b : Nat) : Bool :=
  if ty.isInt then fcmp c (.fin (decide (intOf ty a < 0)) (intOf ty a).natAbs 0) (.fin (decide (intOf ty b < 0)) (intOf ty b).natAbs 0)
  else fcmp c (fvOf ty a) (fvOf ty b)

/-- Set bits of a mask register's value. -/
def setBits (m : BitVec 1024) (bs : List (Nat × Bool)) : BitVec 1024 :=
  bs.foldl (fun m (e, b) => if b then m ||| (1#1024 <<< e) else m &&& ~~~(1#1024 <<< e)) m

/-- Write a mask register; m0 stays. -/
def State.putMask (s : State) (k : Fin 16) (v : BitVec 1024) : State := { s with core := s.core.setMask k v }

def execVcmp (h : Hdr) (o : VCmpOp) (s : State) : Host.Outcome State Fault Refusal :=
  vecOp (gateV [.c]) h (useS o.b.srcs) o.v.shp
    (fun p => sameNum p.ty o.v.ty && (fullTile o.va p).fits && (o.b.tiles p).all fun a => a.1.fits)
    (fun t p =>
      let w := t.wset p o.v.mask
      t.vecGo ((fullTile o.va p, w) :: (o.b.tiles p).map fun (a, ix) => (a, w.map ix)) []
        (fun x => x.putMask o.md (setBits (t.mask o.md) (w.map fun e => (e, elemCmp o.cond p.ty (t.elem o.va p e) (o.b.val t p e)))))) s

/-- Any type, TYPE = ETYPE. -/
def sameAny (e t : EType) : Bool := e = t

def execVsel (h : Hdr) (o : VSelOp) (s : State) : Host.Outcome State Fault Refusal :=
  elemOp h o.b.srcs o.v sameAny o.vd (fun p => (fullTile o.va p, fun e => e) :: o.b.tiles p)
    (fun t p e => if (t.mask o.mkr).getLsbD e then t.elem o.va p e else o.b.val t p e) s

def execVmov (h : Hdr) (o : VMovOp) (s : State) : Host.Outcome State Fault Refusal :=
  elemOp h [] o.v sameAny o.vd (fun p => [(fullTile o.va p, fun e => e)]) (fun t p e => t.elem o.va p e) s

def execVbcast (h : Hdr) (o : VBcOp) (s : State) : Host.Outcome State Fault Refusal :=
  elemOp h o.b.srcs o.v sameAny o.vd (fun p => o.b.tiles p) (fun t p e => o.b.val t p e) s

def iotaPair (e t : EType) : Bool := e = t && (t = .f32 || t = .f16 || t = .s16 || t = .s32 || t = .z16 || t = .z32)

def execViota (h : Hdr) (o : VIotaOp) (s : State) : Host.Outcome State Fault Refusal :=
  elemOp h [] o.v iotaPair o.vd (fun _ => []) (fun _ p e =>
    packFV p.ty (.rnd .rne) false (.fin false (match o.sel with
      | 0 => e
      | 1 => e / p.cols
      | 2 => e % p.cols) 0)) s

/-! ### Conversion and quantisation (R251 to R253) -/

def execVcvt (h : Hdr) (o : VUn) (s : State) : Host.Outcome State Fault Refusal :=
  elemOp h o.r.srcs o.v (fun _ _ => true) o.vd (fun p => [(fullTile o.va p, fun e => e)])
    (fun t p e => convertBits o.v.ty p.ty (t.vmode o.r e) o.r.sat (t.elem o.va p e)) s

/-- The exact quotient of R252, its fraction cut off where it does not end. -/
def quotient : FV → FV → SF
  | .nan, _ | _, .nan => .exact .nan
  | .inf _, .inf _ => .exact .nan
  | .inf a, .fin b _ _ => .exact (.inf (a != b))
  | .fin a _ _, .inf b => .exact (.fin (a != b) 0 0)
  | .fin a m e, .fin b n f =>
    if n = 0 then .exact (if m = 0 then .nan else .inf (a != b))
    else
      let k := log2 n + 320
      if m * 2 ^ k % n = 0 then .exact (.fin (a != b) (m * 2 ^ k / n) (e - f - k))
      else .near (a != b) (m * 2 ^ k / n) (e - f - k)

/-- Convert a result to a type (R73 to R75). -/
def SF.packTo (ty : EType) (mode : RMode) (sat : Bool) : SF → Nat
  | .exact v => packFV ty mode sat v
  | .near n m e => if ty.isFloat then roundFloat ty mode sat n m e true else wrapInt ty.bits (roundInt ty mode n m e true)

/-- The column vector of f32 factors. -/
def factors (v : BitVec 10) (p : Shp) : Tile := tileAt v p.rows .f32

def execVqnt (h : Hdr) (o : VUn3) (s : State) : Host.Outcome State Fault Refusal :=
  elemOp h o.r.srcs o.v (fun e t => e.isArith && (t = .e4m3 || t = .e5m2 || t = .e2m1 || t = .s8)) o.vd
    (fun p => [(fullTile o.va p, fun e => e), (factors o.vx p, fun e => e / p.cols)])
    (fun t p e => SF.packTo o.v.ty (t.vmode o.r e) o.r.sat
      (quotient (fvOf p.ty (t.elem o.va p e)) (fvOf .f32 ((factors o.vx p).get t.core.tile (e / p.cols))))) s

/-- The scale block of a tile (R242): bytes of a row, and the byte of an element. -/
def blocks (p : Shp) : Nat := (p.cols + 31) / 32

def scaleTile (v : BitVec 10) (p : Shp) : Tile := tileAt v (p.rows * blocks p) .e8m0

def scaleIdx (p : Shp) (e : Nat) : Nat := e / p.cols * blocks p + e % p.cols / 32

/-- The largest magnitude among values that are no NaN. -/
def amax (vs : List FV) : FV := vs.foldl (fun m v => if !v.isNan && m.lt v.abs then v.abs else m) (.fin false 0 0)

def emaxOf : EType → Int
  | .e4m3 => 8
  | .e5m2 => 15
  | _ => 2

/-- s of R252 for a block. -/
def mxExp (qty : EType) (vs : List FV) : Int :=
  match FV.flog2 (amax vs) with
  | none => 0
  | some k => max (-127) (min 127 (k - emaxOf qty))

/-- s of the block b of a tile under the write set w. -/
def State.mxScale (s : State) (qty : EType) (va : BitVec 10) (p : Shp) (w : List Nat) (b : Nat) : Int :=
  mxExp qty ((w.filter fun e => scaleIdx p e = b).map fun e => fvOf p.ty (s.elem va p e))

def execVqntMx (h : Hdr) (o : VUn3) (s : State) : Host.Outcome State Fault Refusal :=
  vecOp (gateV [.c]) h (useS o.r.srcs) o.v.shp
    (fun p => p.ty.isArith && (o.v.ty = .e4m3 || o.v.ty = .e5m2 || o.v.ty = .e2m1) && (fullTile o.va p).fits &&
      (tileAt o.vd p.n o.v.ty).fits && (scaleTile o.vx p).fits && (tileAt o.vd p.n o.v.ty).apart (scaleTile o.vx p))
    (fun t p =>
      let w := t.wset p o.v.mask
      let sc := (List.range (p.rows * blocks p)).map fun b => (b, t.mxScale o.v.ty o.va p w b)
      let vals := w.map fun e =>
        (e, packFV o.v.ty (t.vmode o.r e) o.r.sat (FV.scale (-((sc.getD (scaleIdx p e) (0, 0)).2)) (fvOf p.ty (t.elem o.va p e))))
      t.vecGo [(fullTile o.va p, w)]
        [(scaleTile o.vx p, sc.map fun (b, x) => (b, (x + 127).toNat)), (tileAt o.vd p.n o.v.ty, vals)] id) s

def dqntPair (e t : EType) : Bool := (e = .e4m3 || e = .e5m2 || e = .e2m1 || e = .s8) && t.isArith

def execVdqnt (h : Hdr) (o : VUn3) (s : State) : Host.Outcome State Fault Refusal :=
  elemOp h o.r.srcs o.v dqntPair o.vd (fun p => [(fullTile o.va p, fun e => e), (factors o.vx p, fun e => e / p.cols)])
    (fun t p e => packFV o.v.ty (t.vmode o.r e) o.r.sat
      ((fvOf p.ty (t.elem o.va p e)).mul (fvOf .f32 ((factors o.vx p).get t.core.tile (e / p.cols))))) s

def execVdqntMx (h : Hdr) (o : VUn3) (s : State) : Host.Outcome State Fault Refusal :=
  elemOp h o.r.srcs o.v dqntPair o.vd (fun p => [(fullTile o.va p, fun e => e), (scaleTile o.vx p, scaleIdx p)])
    (fun t p e => packFV o.v.ty (t.vmode o.r e) o.r.sat
      ((fvOf p.ty (t.elem o.va p e)).mul (fvOf .e8m0 ((scaleTile o.vx p).get t.core.tile (scaleIdx p e))))) s

end Sys2Proof.Machine
end

