-- ==== Sys2Proof/Machine/Mtx.lean ====
section
/-!
DEFINITION. Group MTX: the matrix engine, its commands, its checksums, its faults (R82 to R92, R267 to R287, R327).
-/

namespace Sys2Proof.Machine

/-! ### Issue (R267, R272, R280 to R284) -/

/-- The words of a command are good: every check that raises ILLEGAL at issue. -/
def mtxWordsOk (op : MtxOp) (d : Vector Word 4) : Bool :=
  match op with
  | .mma _ _ =>
    match regionOf d[2] true with
    | none => false
    | some r =>
      match aWordOf d[0] r, bWordOf d[1] r with
      | some a, some b => pairOk a b r.int && (resumeOf d[3]).isSome
      | _, _ => false
  | .azero | .ckOpen _ => (regionOf d[0] false).isSome
  | .adrain _ =>
    match regionOf d[0] false with
    | none => false
    | some r => (xWordOf d[1] r true).isSome && (scaleOf d[2]).isSome
  | .aload | .aacc =>
    match regionOf d[0] false with
    | none => false
    | some r =>
      match xWordOf d[1] r false, scaleOf d[2] with
      | some x, some sc => !r.int || (x.ty.isInt && sc.isNone)
      | _, _ => false
  | .ckClose _ => true

/-- Commands that the engine holds. -/
def mtxDepth : Nat := 8

/-- Put a command into the queue. -/
def State.queueMtx (s : State) (h : Hdr) (iw : BitVec 96) (op : MtxOp) (e : EHdr) (d : Vector Word 4) : State :=
  let x := s.cur
  let m : MCmd := {
    op := op, iw := iw, slot := h.set, e := e, d := d, ipc := x.pc
    seq := s.core.mtx.seq
    begun := false, fault := none, kp := 0, own := s.core.chk, acc := s.core.nextId }
  let s := s.setCur (x.sbSet? h.set)
  { s with core := { s.core with nextId := s.core.nextId + 1, mtx := { s.core.mtx with
      q := s.core.mtx.q ++ [m]
      seq := s.core.mtx.seq + 1 } } }

/-- The issue of an engine command: its words, the wait for the queue, ownership. -/
def mtxIssue (h : Hdr) (i : Instr) (op : MtxOp) (e : EHdr) (sel : List OReg) (s : State) : Host.Outcome State Fault Refusal :=
  issue { gateN [.c] with mtx := true } h (useS (sel.map OReg.src)) (fun t =>
    let d := t.words4 sel
    if !mtxWordsOk op d then t.trapDone .illegal
    else if mtxDepth ≤ t.core.mtx.q.length then .hold .other
    else t.owned (mtxWins op d) (.go (t.queueMtx h (encode i) op e d))) s

def execMma (h : Hdr) (ck : Option (Fin 8)) (o : E4) (s : State) : Host.Outcome State Fault Refusal :=
  mtxIssue h (.mma h ck o) (.mma false ck) o.e [o.d0, o.d1, o.d2, o.d3] s

def execMmaz (h : Hdr) (ck : Option (Fin 8)) (o : E4) (s : State) : Host.Outcome State Fault Refusal :=
  mtxIssue h (.mmaz h ck o) (.mma true ck) o.e [o.d0, o.d1, o.d2, o.d3] s

def execAzero (h : Hdr) (e : EHdr) (d0 : OReg) (s : State) : Host.Outcome State Fault Refusal :=
  mtxIssue h (.azero h e d0) .azero e [d0] s

def execAdrain (h : Hdr) (ck : Option (Fin 8)) (o : E3) (s : State) : Host.Outcome State Fault Refusal :=
  mtxIssue h (.adrain h ck o) (.adrain ck) o.e [o.d0, o.d1, o.d2] s

def execAload (h : Hdr) (o : E3) (s : State) : Host.Outcome State Fault Refusal :=
  mtxIssue h (.aload h o) .aload o.e [o.d0, o.d1, o.d2] s

def execAacc (h : Hdr) (o : E3) (s : State) : Host.Outcome State Fault Refusal :=
  mtxIssue h (.aacc h o) .aacc o.e [o.d0, o.d1, o.d2] s

def execMcksumOpen (h : Hdr) (slot : Fin 8) (e : EHdr) (d0 : OReg) (s : State) : Host.Outcome State Fault Refusal :=
  mtxIssue h (.mcksumOpen h slot e d0) (.ckOpen slot) e [d0] s

def execMcksumClose (h : Hdr) (slot : Fin 8) (e : EHdr) (s : State) : Host.Outcome State Fault Refusal :=
  mtxIssue h (.mcksumClose h slot e) (.ckClose slot) e [] s

/-! ### Regions -/

/-- Entry (i, n) of a region. -/
def Region.entry (r : Region) (i n : Nat) : Nat := r.acc0 + i * r.pitch + n

def Core.accGet (c : Core) (e : Nat) : Nat := c.accs32.nat (4 * e) 4

def putAcc (m : Mem) (e x : Nat) : Mem := m.store (4 * e) (natLe 4 x)

/-- The (i, n) of a region, rows first. -/
def Region.cells (r : Region) : List (Nat × Nat) := (List.range r.m).flatMap fun i => (List.range r.n).map fun n => (i, n)

/-- The same region whatever KB (R285). -/
def Region.bare (r : Region) : Region := { r with kb := 0 }

/-- Do two regions share an entry? -/
def Region.meets (a b : Region) : Bool :=
  (List.range a.m).any fun i => (List.range b.m).any fun j =>
    decide (a.entry i 0 < b.entry j 0 + b.n) && decide (b.entry j 0 < a.entry i 0 + a.n)

/-! ### Cords (R82 to R86) -/

/-- A cord header at a byte of the weight buffer. -/
structure CordHdr where
  fmt : Nat
  scl : Bool
  spr : Bool
  deriving DecidableEq, Repr

/-- The lengths of R83. -/
def cordLen (fmt : Nat) (scl spr : Bool) : Nat :=
  let base := match fmt, spr with
    | 3, false => 65
    | 3, true => 37
    | 2, false => 17
    | 2, true => 13
    | _, false => 33
    | _, true => 21
  if scl then base + 1 else base

/-- The header as its bits read. -/
def cordHdr (wb : Mem) (at_ : Nat) : CordHdr :=
  let x := wb.nat at_ 8
  ⟨bitsOf x 0 2, bitOf x 2, bitOf x 3⟩

/-- The full check of a header (R85). -/
def cordHdrOk (wb : Mem) (at_ : Nat) : Bool :=
  let x := wb.nat at_ 8
  let h := cordHdr wb at_
  bitsOf x 4 4 = 0 && bitsOf x 32 32 = 0 && !(h.fmt = 3 && h.scl) && bitsOf x 8 8 = cordLen h.fmt h.scl h.spr

def cordType : Nat → EType
  | 0 => .e4m3
  | 1 => .e5m2
  | 2 => .e2m1
  | _ => .bf16

/-- First bytes of the index block and of the value block. -/
def CordHdr.idxAt (h : CordHdr) (at_ : Nat) : Nat := at_ + 64 + (if h.scl then 64 else 0)
def CordHdr.valAt (h : CordHdr) (at_ : Nat) : Nat := h.idxAt at_ + (if h.spr then 256 else 0)

/-- The 2-bit index of position q. -/
def CordHdr.index (h : CordHdr) (wb : Mem) (at_ q : Nat) : Nat := bitsOf (wb.get (h.idxAt at_ + q / 4)).toNat (2 * (q % 4)) 2

/-- Element position q of the value block. -/
def CordHdr.value (h : CordHdr) (wb : Mem) (at_ q : Nat) : Nat := Tile.get ⟨h.valAt at_, 0, cordType h.fmt⟩ wb q

/-- The pattern of K row k, column n, of a cord; a pruned position is +0 (R86). -/
def CordHdr.elem (h : CordHdr) (wb : Mem) (at_ k n : Nat) : Nat :=
  if h.spr then
    let q := k / 4 * 2 * 64 + n
    if h.index wb at_ q = k % 4 then h.value wb at_ q
    else if h.index wb at_ (q + 64) = k % 4 then h.value wb at_ (q + 64)
    else 0
  else h.value wb at_ (k * 64 + n)

/-- The indices of the group of K row k are strictly ascending in every column. -/
def CordHdr.rowOk (h : CordHdr) (wb : Mem) (at_ k : Nat) : Bool :=
  !h.spr || (List.range 64).all fun n =>
    let q := k / 4 * 2 * 64 + n
    decide (h.index wb at_ q < h.index wb at_ (q + 64))

/-! ### Products (R87 to R89, R273) -/

/-- The operands of a product. -/
structure Mma where
  r : Region
  a : AWord
  b : BWord
  deriving DecidableEq, Repr

/-- K-groups of a command, and the K of a group. -/
def Mma.kg (o : Mma) : Nat := if o.a.ty = .e2m1 then 16 * o.r.kb else 32 * o.r.kb

def Mma.ks (o : Mma) (g : Nat) : List Nat := if o.a.ty = .e2m1 then [2 * g, 2 * g + 1] else [g]

/-- First byte of the cord of K-block kb and N-block nb (R270). -/
def Mma.cordAt (o : Mma) (kb nb : Nat) : Nat := (o.b.unit + (kb * (o.r.n / 64) + nb) * o.b.step) * 64

/-- Are the headers of the cords of a K-block good, and of a format that A pairs with (R85, R271)? -/
def Core.blockOk (c : Core) (o : Mma) (kb : Nat) : Bool :=
  o.b.raw.isSome || (List.range (o.r.n / 64)).all fun nb =>
    let at_ := o.cordAt kb nb
    cordHdrOk c.wb at_ && (cordPairs o.a.ty).contains (cordHdr c.wb at_).fmt

/-- Can K-group g be fetched? A header is checked when the first K step of its cord is fetched, an index with its group (R85). The
command's own first K step is fetched when it begins. A later group takes the header as it finds it, one of zero bytes too, where
the weight buffer has been zeroed under a stopped command (R455). -/
def Core.groupOk (c : Core) (o : Mma) (g : Nat) : Bool :=
  o.b.raw.isSome || (o.ks g).all fun k =>
    (k = 0 || k % 32 != 0 || c.blockOk o (k / 32)) && (List.range (o.r.n / 64)).all fun nb =>
      let at_ := o.cordAt (k / 32) nb
      (cordHdr c.wb at_).rowOk c.wb at_ (k % 32)

/-- A[i, k]. -/
def Core.aElem (c : Core) (o : Mma) (i k : Nat) : Nat := Tile.get ⟨o.a.byte + i * o.a.pitch, 0, o.a.ty⟩ c.tile k

/-- B[k, n] with its type. -/
def Core.bElem (c : Core) (o : Mma) (k n : Nat) : EType × Nat :=
  match o.b.raw with
  | some ty => (ty, Tile.get ⟨o.b.unit * 64 + k * o.b.step * 64, 0, ty⟩ c.wb n)
  | none =>
    let at_ := o.cordAt (k / 32) (n / 64)
    let h := cordHdr c.wb at_
    (cordType h.fmt, h.elem c.wb at_ (k % 32) (n % 64))

/-- ea + eb of a K-block for entry (i, n), none when a scale is 0xFF (R87, R88). -/
def Core.scaleExp (c : Core) (o : Mma) (i n blk : Nat) : Option Int :=
  let ea : Nat := match o.a.scl with
    | some s => (c.tile.get (s + i * o.r.kb + blk)).toNat
    | none => 127
  let eb : Nat :=
    if o.b.raw.isSome then 127
    else
      let at_ := o.cordAt blk (n / 64)
      if (cordHdr c.wb at_).scl then (c.wb.get (at_ + 64 + n % 64)).toNat else 127
  if ea = 0xFF || eb = 0xFF then none else some ((ea : Int) - 127 + ((eb : Int) - 127))

/-- The exact sum of values: -0 only if every one is -0. -/
def exactSum (l : List FV) : FV := l.foldl (FV.add false) (.fin true 0 0)

/-- The contribution of K-group g to entry (i, n), scaled. -/
def Core.contrib (c : Core) (o : Mma) (i n g : Nat) : FV :=
  let s := exactSum ((o.ks g).map fun k => (fvOf o.a.ty (c.aElem o i k)).mul (fvOf (c.bElem o k n).1 (c.bElem o k n).2))
  match c.scaleExp o i n ((o.ks g).headD 0 / 32) with
  | some e => s.scale e
  | none => .nan

def Core.contribInt (c : Core) (o : Mma) (i n g : Nat) : Int :=
  intOf o.a.ty (c.aElem o i g) * intOf (c.bElem o g n).1 (c.bElem o g n).2

/-- Add an exact value to an f32 pattern, rounded once in RNE (R87). -/
def addF32 (a : Nat) (v : FV) : Nat := packFV .f32 (.rnd .rne) false ((fvOf .f32 a).add false v)

/-- Add an integer modulo 2^32. -/
def addI32 (a : Nat) (v : Int) : Nat := wrapInt 32 (a + v)

/-- One K-group on an entry. -/
def Core.accStep (c : Core) (o : Mma) (i n : Nat) (a g : Nat) : Nat :=
  if o.r.int then addI32 a (c.contribInt o i n g) else addF32 a (c.contrib o i n g)

/-- One K-group on the hidden values of a slot (R90). -/
def Core.ckStep (c : Core) (o : Mma) (k : CkSlot) (g : Nat) : CkSlot :=
  let rows := List.range o.r.m
  let cols := List.range o.r.n
  let upd (l : List (BitVec 32)) (f : Nat → Nat → Nat) : List (BitVec 32) :=
    l.zipIdx.map fun (x, i) => BitVec.ofNat 32 (f i x.toNat)
  if o.r.int then
    { k with
      csCol := upd k.csCol fun n x => addI32 x ((rows.map fun i => c.contribInt o i n g).foldl (· + ·) 0)
      csRow := upd k.csRow fun i x => addI32 x ((cols.map fun n => c.contribInt o i n g).foldl (· + ·) 0) }
  else
    { k with
      csCol := upd k.csCol fun n x => addF32 x (exactSum (rows.map fun i => c.contrib o i n g))
      abCol := upd k.abCol fun n x => addF32 x (exactSum (rows.map fun i => (c.contrib o i n g).abs))
      csRow := upd k.csRow fun i x => addF32 x (exactSum (cols.map fun n => c.contrib o i n g))
      abRow := upd k.abRow fun i x => addF32 x (exactSum (cols.map fun n => (c.contrib o i n g).abs)) }

def CkSlot.zeros (k : CkSlot) : CkSlot :=
  { k with
    csCol := k.csCol.map fun _ => 0
    abCol := k.abCol.map fun _ => 0
    csRow := k.csRow.map fun _ => 0
    abRow := k.abRow.map fun _ => 0 }

def MtxSt.slot? (m : MtxSt) (k : Fin 8) : Option CkSlot := (m.slots.find? fun x => x.1 = k).map (·.2)

/-- Set or close a slot; slots stand in rising order. -/
def MtxSt.setSlot (m : MtxSt) (k : Fin 8) (v : Option CkSlot) : MtxSt :=
  let rest := m.slots.filter fun x => x.1 != k
  { m with slots := match v with
      | some x => insertBy (fun a b => decide (a.1 < b.1)) (k, x) rest
      | none => rest }

/-- Perform K-groups kp to kp' - 1 of a product (R273): entries and hidden values. -/
def Core.runGroups (c : Core) (o : Mma) (zero : Bool) (ck : Option (Fin 8)) (kp kp' : Nat) : Core :=
  if kp' ≤ kp then c
  else
    let gs := (List.range (kp' - kp)).map (kp + ·)
    let fresh := zero && kp = 0
    let out := o.r.cells.map fun (i, n) =>
      (o.r.entry i n, gs.foldl (c.accStep o i n) (if fresh then 0 else c.accGet (o.r.entry i n)))
    let mtx := match ck with
      | none => c.mtx
      | some k =>
        match c.mtx.slot? k with
        | none => c.mtx
        | some v => c.mtx.setSlot k (some (gs.foldl (c.ckStep o) (if fresh then v.zeros else v)))
    { c with accs32 := out.foldl (fun m (e, x) => putAcc m e x) c.accs32, mtx := mtx }

/-! ### Suspend records (R276, R277) -/

def MtxOp.emod (op : MtxOp) : Nat :=
  match op with
  | .mma _ (some k) | .adrain (some k) => 1 + 2 * k.val
  | _ => 0

/-- The eight words of a suspend record. -/
def MCmd.srec (m : MCmd) (o : Mma) (kp : Nat) : List Word :=
  let minor := match m.op with
    | .mma true _ => 1
    | _ => 0
  [m.d[0], m.d[1], m.d[2], BitVec.ofNat 64 (minor + m.op.emod * 2 ^ 6 + kp * 2 ^ 16 + o.kg * 2 ^ 32),
   BitVec.ofNat 64 m.seq.toNat, 0, 0, 0]

/-- The operands of a product command. -/
def MCmd.product (m : MCmd) : Option Mma :=
  match m.op with
  | .mma _ _ =>
    match regionOf m.d[2] true with
    | none => none
    | some r =>
      match aWordOf m.d[0] r, bWordOf m.d[1] r with
      | some a, some b => some ⟨r, a, b⟩
      | _, _ => none
  | _ => none

/-- KP of the record that a resume word names; none when a check fails. -/
def Core.resumeKp (c : Core) (m : MCmd) (o : Mma) (at_ : Nat) : Option Nat :=
  let w (i : Nat) : Nat := c.tile.nat (at_ + 8 * i) 8
  let kp := bitsOf (w 3) 16 16
  if decide (kp ≤ o.kg) && ([0, 1, 2, 3].map fun i => BitVec.ofNat 64 (w i)) == (m.srec o kp).take 4 && bitsOf (w 4) 32 32 = 0 &&
      w 5 = 0 && w 6 = 0 && w 7 = 0
  then some kp else none

/-! ### Status and faults (R279, R287) -/

/-- The command that runs. -/
def MtxSt.running (m : MtxSt) : Option MCmd :=
  match m.q with
  | x :: _ => if x.begun && x.fault.isNone then some x else none
  | [] => none

/-- The status word; kp is that of a running product. -/
def MtxSt.status (m : MtxSt) (kp : Nat) : Nat :=
  let bad := m.q.findSome? (·.fault)
  natOfBool (m.q.all fun x => x.fault.isSome) + natOfBool bad.isSome * 2 + ((bad.map Cause.code).getD 0) * 4 + m.q.length * 256 +
    natOfBool m.running.isSome * 2 ^ 12 + kp * 2 ^ 16 + m.cmpl.toNat * 2 ^ 32

/-- MATRIX_FAULT: the head command records its cause; C takes the trap at its next boundary. -/
def State.mtxFault (s : State) (m : MCmd) (c : Cause) (kp : Nat) : State :=
  let m := { m with begun := true, fault := some c, kp := kp }
  let s := { s with core := { s.core with mtx := { s.core.mtx with q := m :: s.core.mtx.q.tail } } }
  let s := s.faultQueue ⟨c, true, 0, BitVec.ofNat 24 kp, BitVec.ofNat 16 s.tenant, 0⟩
  let t : Trap := { Trap.of c with
    eng := true
    defd := true
    mtx := true
    ipc := m.ipc
    info := BitVec.ofNat 32 kp
    aux := BitVec.ofNat 64 (s.core.mtx.status 0)
    srec := (m.product.map fun o => m.srec o kp).getD []
    seq := m.acc }
  s.pendOn .c t

/-! ### Checksum rules (R284 to R286) -/

/-- The region that a slot is open over. -/
def CkSlot.region (k : CkSlot) : Option Region := (regionOf k.reg false).map Region.bare

/-- Is the slot open over exactly this region? -/
def MtxSt.ckOver (m : MtxSt) (k : Fin 8) (r : Region) : Bool :=
  match m.slot? k with
  | some v => v.region = some r.bare
  | none => false

/-- Does a region meet that of an open slot other than the one named? -/
def MtxSt.ckMeets (m : MtxSt) (ck : Option (Fin 8)) (r : Region) : Bool :=
  m.slots.any fun (k, v) => some k != ck && (match v.region with
    | some q => r.meets q
    | none => false)

/-- The checks on a command that faults with ILLEGAL before it writes anything. -/
def MtxSt.ckOk (m : MtxSt) (op : MtxOp) (d : Vector Word 4) : Bool :=
  match op with
  | .mma _ ck =>
    match regionOf d[2] true with
    | none => false
    | some r => !m.ckMeets ck r && ck.all fun k => m.ckOver k r
  | .azero | .aload | .aacc => (regionOf d[0] false).any fun r => !m.ckMeets none r
  | .adrain ck =>
    match regionOf d[0] false with
    | none => false
    | some r => (ck.all fun k => m.ckOver k r) && (!bitOf d[1].toNat 33 || !m.ckMeets ck r)
  | .ckOpen k => (regionOf d[0] false).any fun r => !m.ckMeets (some k) r
  | .ckClose _ => true

/-- The sum of f32 patterns by the tree of R80, in RNE. -/
def treeF32 (l : List Nat) : Nat := tree (fadd .f32 (.rnd .rne) false) 0x80000000 l

def treeI32 (l : List Nat) : Nat := tree (fun a b => (a + b) % 2 ^ 32) 0 l

/-- The sums of the columns and of the rows of a region, under a map of its entries. -/
def Core.lineSums (c : Core) (r : Region) (f : Nat → Nat) : List Nat × List Nat :=
  let sum := if r.int then treeI32 else treeF32
  ((List.range r.n).map fun n => sum ((List.range r.m).map fun i => f (c.accGet (r.entry i n))),
   (List.range r.m).map fun i => sum ((List.range r.n).map fun n => f (c.accGet (r.entry i n))))

/-- A slot opened over a region. -/
def Core.openSlot (c : Core) (w : Word) (r : Region) : CkSlot :=
  let pack (l : List Nat) : List (BitVec 32) := l.map (BitVec.ofNat 32)
  let cs := c.lineSums r fun x => if r.int then x else packFV .f32 (.rnd .rne) false (fvOf .f32 x)
  let ab := c.lineSums r (magOf32)
  ⟨w, pack cs.1, if r.int then [] else pack ab.1, pack cs.2, if r.int then [] else pack ab.2⟩
where
  /-- The magnitude of an f32 pattern. -/
  magOf32 (x : Nat) : Nat := if (fvOf .f32 x).isNan then canonNan .f32 else x % 2 ^ 31

/-- Is the value an infinity? -/
def FV.isInf : FV → Bool
  | .inf _ => true
  | _ => false

/-- Does a line match (R91)? -/
def lineMatch (int : Bool) (tol : Nat) (v c b : Nat) : Bool :=
  if int then v = c
  else
    let fv := fvOf .f32 v
    let fc := fvOf .f32 c
    let fb := fvOf .f32 b
    if fv.isNan || fc.isNan then fv.isNan && fc.isNan
    else if fv.isInf || fc.isInf then fv.eq fc
    else if fb.isInf then true
    else fcmp .le (fvOf .f32 (packFV .f32 (.rnd .rne) false (fv.add false fc.neg).abs))
      (fvOf .f32 (packFV .f32 (.rnd .rne) false ((fvOf .f32 tol).mul fb)))

/-- The lines that do not match. -/
def badLines (int : Bool) (tol : Nat) (act : List Nat) (cs ab : List (BitVec 32)) : List Nat :=
  act.zipIdx.filterMap fun (v, i) => if lineMatch int tol v (cs.getD i 0).toNat (ab.getD i 0).toNat then none else some i

/-- ABFT_CHECK: the core with a single error corrected and counted; none when the pattern is another (R91, R92). -/
def Core.abftCheck (c : Core) (r : Region) (k : CkSlot) : Option Core :=
  let act := c.lineSums r fun x => x
  match badLines r.int c.abftTol.toNat act.1 k.csCol k.abCol, badLines r.int c.abftTol.toNat act.2 k.csRow k.abRow with
  | [], [] => some c
  | [n], [i] =>
    let x := c.accGet (r.entry i n)
    let cs := (k.csCol.getD n 0).toNat
    let v := act.1.getD n 0
    let y := if r.int then addI32 x ((cs : Int) - v)
      else packFV .f32 (.rnd .rne) false ((fvOf .f32 x).add false ((fvOf .f32 cs).add false (fvOf .f32 v).neg))
    some { c with
      accs32 := putAcc c.accs32 (r.entry i n) y
      abftCnt := if c.abftCnt = BitVec.allOnes 32 then c.abftCnt else c.abftCnt + 1 }
  | _, _ => none

/-! ### Transfers (R281 to R283) -/

def rndOf (k : Fin 4) : Rnd :=
  match k with
  | 0 => .rne
  | 1 => .rz
  | 2 => .rd
  | 3 => .ru

/-- The tile row of a transfer. -/
def XWord.row (x : XWord) (i : Nat) : Tile := ⟨x.byte + i * x.pitch, 0, x.ty⟩

/-- The element that a drain writes for an entry. -/
def drainElem (r : Region) (x : XWord) (sc : Option (BitVec 32)) (a : Nat) : Nat :=
  let mode : RMode := .rnd (rndOf x.rnd)
  match sc with
  | none => convertBits x.ty (if r.int then .s32 else .f32) mode x.sat a
  | some k => packFV x.ty mode x.sat ((fvOf (if r.int then .s32 else .f32) a).mul (fvOf .f32 k.toNat))

/-- The effect of ADRAIN. -/
def Core.drain (c : Core) (r : Region) (x : XWord) (sc : Option (BitVec 32)) : Core :=
  let tile := r.cells.foldl (fun m (i, n) => (x.row i).put m n (drainElem r x sc (c.accGet (r.entry i n)))) c.tile
  let accs := if x.clr then r.cells.foldl (fun m (i, n) => putAcc m (r.entry i n) 0) c.accs32 else c.accs32
  { c with tile := tile, accs32 := accs }

/-- The entry that ALOAD or AACC writes. -/
def loadEntry (r : Region) (x : XWord) (sc : Option (BitVec 32)) (add : Bool) (old el : Nat) : Nat :=
  if r.int then addI32 (if add then old else 0) (intOf x.ty el)
  else
    let w := match sc with
      | none => fvOf x.ty el
      | some k => (fvOf x.ty el).mul (fvOf .f32 k.toNat)
    packFV .f32 (.rnd .rne) false (if add then (fvOf .f32 old).add false w else w)

def Core.loadAcc (c : Core) (r : Region) (x : XWord) (sc : Option (BitVec 32)) (add : Bool) : Core :=
  { c with accs32 := r.cells.foldl (fun m (i, n) =>
      putAcc m (r.entry i n) (loadEntry r x sc add (c.accGet (r.entry i n)) ((x.row i).get c.tile n))) c.accs32 }

/-! ### Performing a command -/

/-- The core after a command that is no product, or the cause of its fault. -/
def Core.performMtx (c : Core) (op : MtxOp) (d : Vector Word 4) : Except Cause Core :=
  match op with
  | .mma _ _ => .ok c
  | .azero =>
    match regionOf d[0] false with
    | none => .error .illegal
    | some r => .ok { c with accs32 := r.cells.foldl (fun m (i, n) => putAcc m (r.entry i n) 0) c.accs32 }
  | .adrain ck =>
    match regionOf d[0] false with
    | none => .error .illegal
    | some r =>
      match xWordOf d[1] r true, scaleOf d[2], ck with
      | some x, some sc, none => .ok (c.drain r x sc)
      | some x, some sc, some k =>
        match c.mtx.slot? k with
        | none => .error .illegal
        | some v =>
          match c.abftCheck r v with
          | none => .error .abft
          | some c => .ok { c.drain r x sc with mtx := c.mtx.setSlot k none }
      | _, _, _ => .error .illegal
  | .aload =>
    match regionOf d[0] false with
    | none => .error .illegal
    | some r =>
      match xWordOf d[1] r false, scaleOf d[2] with
      | some x, some sc => .ok (c.loadAcc r x sc false)
      | _, _ => .error .illegal
  | .aacc =>
    match regionOf d[0] false with
    | none => .error .illegal
    | some r =>
      match xWordOf d[1] r false, scaleOf d[2] with
      | some x, some sc => .ok (c.loadAcc r x sc true)
      | _, _ => .error .illegal
  | .ckOpen k =>
    match regionOf d[0] false with
    | none => .error .illegal
    | some r => .ok { c with mtx := c.mtx.setSlot k (some (c.openSlot d[0] r)) }
  | .ckClose k => .ok { c with mtx := c.mtx.setSlot k none }

/-- The first K-group from kp on that cannot be fetched. -/
def Core.badGroup (c : Core) (o : Mma) (kp : Nat) : Option Nat := leastFrom (fun g => !c.groupOk o g) kp (o.kg - kp)

/-- ACCUMULATOR_INJECTION: invert the armed bit and disarm (R327). -/
def Core.inject (c : Core) : Core :=
  if c.accinj.getLsbD 24 then
    let e := bitsOf c.accinj.toNat 0 19
    let b := bitsOf c.accinj.toNat 19 5
    { c with accs32 := putAcc c.accs32 e (c.accGet e ^^^ 2 ^ b), accinj := c.accinj &&& 0xFFFFFF }
  else c

/-- Take the head command out of the queue: its slot falls, it counts in CMPL. -/
def Core.popMtx (c : Core) (m : MCmd) : Core :=
  let c := c.setStrm .c ((c.strm .c).sbClear? m.slot)
  { c with mtx := { c.mtx with
      q := c.mtx.q.tail
      cmpl := c.mtx.cmpl + 1 } }

/-- The completion of the head command: injection, slot, signal (R54, R62, R327). -/
def State.finishMtx (s : State) (m : MCmd) : State :=
  let c := if m.product.isSome then s.core.inject else s.core
  (s.setCore (c.popMtx m)).signal m.e fun s =>
    let t : Trap := { Trap.of .semovf with
      eng := true
      defd := true
      mtx := true
      ipc := m.ipc
      aux := BitVec.ofNat 64 (s.core.mtx.status 0)
      seq := m.acc }
    s.pendOn .c t

/-- The running command performs to its end, or to its fault, as one event: an access that nothing orders with it finds every
element as before or every element as after (DESIGN CHOICE, log entry 94: R64 lets it differ from element to element). -/
def State.endMtx (s : State) (m : MCmd) : State :=
  match m.op, m.product with
  | .mma zero ck, some o =>
    match s.core.badGroup o m.kp with
    | some g => (s.setCore (s.core.runGroups o zero ck m.kp g)).mtxFault m .illegal g
    | none => (s.setCore (s.core.runGroups o zero ck m.kp o.kg)).finishMtx m
  | op, _ =>
    match s.core.performMtx op m.d with
    | .ok c => (s.setCore c).finishMtx m
    | .error e => s.mtxFault m e 0

/-- May the head command begin: no faulted one holds the engine, its wait is met? -/
def State.mtxReady (s : State) : Bool :=
  match s.core.mtx.q with
  | m :: _ => !m.begun && m.fault.isNone && s.core.waitMet m.e
  | [] => false

/-- Where a product begins: its own KP after a restart, KP of its record, or 0; none when the record fails a check. -/
def Core.startKp (c : Core) (m : MCmd) (o : Mma) : Option Nat :=
  if m.kp != 0 then some m.kp
  else
    match resumeOf m.d[3] with
    | some (at_, true) => c.resumeKp m o at_
    | _ => some 0

/-- MATRIX_COMMAND_BEGIN on the core in focus. -/
def execMatrixCommandBegin (s : State) : Host.Outcome State Fault Refusal :=
  match s.core.mtx.q with
  | [] => .next s
  | m :: rest =>
    if !s.mtxReady then .next s
    else if !s.core.mtx.ckOk m.op m.d then .next (s.mtxFault m .illegal 0)
    else
      let kp := match m.product with
        | some o => s.core.startKp m o
        | none => some 0
      let bad (k : Nat) : Bool := k = 0 && m.product.any fun o => !s.core.blockOk o 0
      match kp with
      | none => .next (s.mtxFault m .illegal 0)
      | some k =>
        if bad k then .next (s.mtxFault m .illegal 0)
        else .next { s with core := { s.core with mtx := { s.core.mtx with q := { m with begun := true, kp := k } :: rest } } }

/-- MATRIX_COMMAND_COMPLETE on the core in focus. -/
def execMatrixCommandComplete (s : State) : Host.Outcome State Fault Refusal :=
  match s.core.mtx.running with
  | some m => .next (s.endMtx m)
  | none => .next s

/-! ### Stopping (R275, R278) -/

/-- The K-group boundary at which a running product stops: one that it can still reach (log entry 17). -/
def State.stopKp (s : State) (m : MCmd) (o : Mma) : Nat :=
  let last := (s.core.badGroup o m.kp).getD o.kg
  m.kp + (Config.freeValue s.free).toNat % (last - m.kp + 1)

/-- Stop a running product at a boundary: the state with its groups performed, and its KP. -/
def State.stopMma (s : State) (m : MCmd) (o : Mma) : State × Nat :=
  let kp := s.stopKp m o
  let (zero, ck) := match m.op with
    | .mma z k => (z, k)
    | _ => (false, none)
  let s := { s with free := s.free + 1 }
  (s.setCore (s.core.runGroups o zero ck m.kp kp), kp)

/-- Discard commands that have not begun: their slots fall, no signal; how many. -/
def Core.discardMtx (c : Core) : Core × Nat :=
  let out := c.mtx.q.filter fun (m : MCmd) => !m.begun
  let c := out.foldl (fun c m => c.setStrm .c ((c.strm .c).sbClear? m.slot)) c
  ({ c with mtx := { c.mtx with
      q := c.mtx.q.filter fun (m : MCmd) => m.begun
      cmpl := c.mtx.cmpl + BitVec.ofNat 32 out.length } }, out.length)

/-- Store the eight words of a record in the tile registers. -/
def Core.putWords (c : Core) (at_ : Nat) (ws : List Word) : Core :=
  { c with tile := c.tile.store at_ (ws.flatMap fun w => natLe 8 w.toNat) }

/-- The word that MSTOP writes. -/
def stopWord (rec_ : Bool) (n kp : Nat) : Word := BitVec.ofNat 64 (natOfBool rec_ + n * 2 + kp * 2 ^ 16)

def execMstop (h : Hdr) (o : RUn) (s : State) : Host.Outcome State Fault Refusal :=
  issue { gateR [.c] [o.a] with mtx := true } h (useD [o.a] o.d) (fun t =>
    let a := (t.val o.imm o.a).toNat
    if a % 64 != 0 || decide (2 ^ 20 ≤ a) then t.trapDone .illegal
    else
      t.owned [⟨1, a, 64, true⟩]
        (match t.core.mtx.running with
          | none =>
            let (c, n) := t.core.discardMtx
            .go ((t.setCore c).putDst o.d (stopWord false n 0))
          | some m =>
            match m.product with
            | some p =>
              let (t, kp) := t.stopMma m p
              let (c, n) := ((t.core.putWords a (m.srec p kp)).popMtx m).discardMtx
              .go ((t.setCore c).putDst o.d (stopWord true n kp))
            | none =>
              let t := t.endMtx m
              if t.core.mtx.q.any fun x => x.fault.isSome then .wait t
              else
                let (c, n) := t.core.discardMtx
                .go ((t.setCore c).putDst o.d (stopWord false n 0)))) s

/-! ### Status (R240, R287) -/

/-- KP of a running product as a reader finds it: a boundary between its beginning and its end. -/
def State.kpNow (s : State) : Nat :=
  match s.core.mtx.running with
  | none => 0
  | some m =>
    match m.product with
    | some o => s.stopKp m o
    | none => 0

def execMstat (h : Hdr) (sel : Fin 3) (d : Dst) (p : Fin 8) (s : State) : Host.Outcome State Fault Refusal :=
  issue { gateN [.c] with mtx := true } h (useD [] d) (fun t =>
    let v := match sel with
      | 0 => t.core.mtx.status t.kpNow
      | 1 => t.core.abftCnt.toNat
      | 2 => t.core.mtx.slots.foldl (fun x e => x + 2 ^ e.1.val) 0
    let t := { t with free := t.free + 1 }
    .go ((t.putPred p (t.core.mtx.q.all fun x => x.fault.isSome)).putDst d (BitVec.ofNat 64 v))) s

end Sys2Proof.Machine
end

