-- ==== Sys2Proof/Machine/Upd.lean ====
section
/-!
DEFINITION. Group UPD: the update stage of stream S (R288 to R290).
-/

namespace Sys2Proof.Machine

/-! ### Values (R79, R81, R290) -/

/-- rn(x): the value of x rounded once to f32 in RNE. -/
def rn (x : FV) : FV := fvOf .f32 (packFV .f32 (.rnd .rne) false x)

/-- rn of a result whose fraction may not end. -/
def rnSF (x : SF) : FV := fvOf .f32 (SF.packTo .f32 (.rnd .rne) false x)

def FV.sub (a b : FV) : FV := a.add false b.neg

/-- Minimum and maximum of values. -/
def FV.min (a b : FV) : FV := if a.isNan || b.isNan then .nan else if b.below a then b else a
def FV.max (a b : FV) : FV := if a.isNan || b.isNan then .nan else if a.below b then b else a

/-- Fraction bits of the root in rootPlus. -/
def rootBits : Nat := 600

/-- sqrt(y) + e, exact until it is rounded. -/
def rootPlus (y e : FV) : SF :=
  match sfSqrt y with
  | .exact v => .exact (v.add false e)
  | .near _ _ _ =>
    match y, e with
    | .fin _ m x, .fin n k w =>
      let r : Int := sqrtNat (m * 2 ^ (x + 2 * rootBits).toNat)
      let b : Int := k * 2 ^ (w + rootBits).toNat
      let t := if n then r - b else r + b
      if 0 ≤ t then .near false t.toNat (-(rootBits : Int)) else .near true (t.natAbs - 1) (-(rootBits : Int))
    | _, .inf n => .exact (.inf n)
    | _, _ => .exact .nan

/-! ### Operands (R288, R289) -/

/-- Half w of a named scalar as an f32 value. -/
def State.hyper (s : State) (k : Nat) (w : Nat) : FV :=
  fvOf .f32 (bitsOf (s.cur.n[Fin.ofNat 16 k]).toNat (32 * w) 32)

/-- The named scalars from h on, and those of the rounding. -/
def updSrcs (o : UOp) (ks : List Nat) : List Src := (ks.map fun k => Src.n (Fin.ofNat 16 k)) ++ o.r.srcs

/-- fin(x): the exact value converted to TYPE; with SAT an infinity too becomes the largest finite value (R74, log entry 35). -/
def State.fin_ (s : State) (o : UOp) (e : Nat) (x : FV) : Nat := packFV o.v.ty (s.vmode o.r e) o.r.sat x

/-- Does the final rounding give -0 for an exact zero sum? -/
def State.finRd (s : State) (o : UOp) (e : Nat) : Bool := (s.vmode o.r e).isRd

/-- An element of a tile of some type, as a value. -/
def State.fvElem (s : State) (v : BitVec 10) (p : Shp) (ty : EType) (e : Nat) : FV :=
  fvOf ty ((tileAt v p.n ty).get s.core.tile e)

/-- An update: tiles read beside x, moment tiles written, and for each element the new vd and the new moments. -/
def updOp (h : Hdr) (o : UOp) (ks : List Nat) (rd : Shp → List Tile) (mom : List (BitVec 10))
    (f : State → Shp → Nat → Nat × List Nat) (s : State) : Host.Outcome State Fault Refusal :=
  vecOp (gateV [.s]) h (useS (updSrcs o ks)) o.v.shp
    (fun p => p.ty.isArith && o.v.ty.isArith && (fullTile o.va p).fits && (rd p).all Tile.fits &&
      (let dst := tileAt o.vd p.n o.v.ty :: mom.map fun v => tileAt v p.n .f32
       dst.all Tile.fits && allApart dst))
    (fun t p =>
      let w := t.wset p o.v.mask
      let res := w.map fun e => (e, f t p e)
      t.vecGo ((fullTile o.va p, w) :: (rd p).map fun a => (a, w))
        ((tileAt o.vd p.n o.v.ty, res.map fun (e, x) => (e, x.1)) ::
          mom.zipIdx.map fun (v, k) => (tileAt v p.n .f32, res.map fun (e, x) => (e, x.2.getD k 0))) id) s

/-! ### The instructions (R290) -/

def execUaxpby (h : Hdr) (o : UOp) (s : State) : Host.Outcome State Fault Refusal :=
  updOp h o [o.h.val] (fun p => [fullTile o.vb p]) [] (fun t p e =>
    let x := t.fvElem o.va p p.ty e
    let y := t.fvElem o.vb p p.ty e
    (t.fin_ o e (((t.hyper o.h.val 0).mul x).add (t.finRd o e) (rn ((t.hyper o.h.val 1).mul y))), [])) s

def execUema (h : Hdr) (o : UOp) (s : State) : Host.Outcome State Fault Refusal :=
  updOp h o [o.h.val] (fun p => [tileAt o.vd p.n o.v.ty]) [] (fun t p e =>
    let x := t.fvElem o.va p p.ty e
    let d := t.hyper o.h.val 0
    let om := rn (one.sub d)
    (t.fin_ o e ((d.mul (t.fvElem o.vd p o.v.ty e)).add (t.finRd o e) (rn (om.mul x))), [])) s

def execUsgdm (h : Hdr) (nes : Bool) (o : UOp) (s : State) : Host.Outcome State Fault Refusal :=
  updOp h o [o.h.val, o.h.val + 1] (fun p => [tileAt o.vd p.n o.v.ty, tileAt o.vb p.n .f32]) [o.vb] (fun t p e =>
    let g := t.fvElem o.va p p.ty e
    let m := t.fvElem o.vb p .f32 e
    let w := t.fvElem o.vd p o.v.ty e
    let lr := t.hyper o.h.val 0
    let wd := t.hyper o.h.val 1
    let mu := t.hyper (o.h.val + 1) 0
    let g2 := rn (g.add false (rn (wd.mul w)))
    let m2 := (mu.mul m).add false g2
    let m2v := rn m2
    let dir := if nes then rn (g2.add false (rn (mu.mul m2v))) else m2v
    (t.fin_ o e (w.add (t.finRd o e) (rn (lr.mul dir)).neg), [packFV .f32 (.rnd .rne) false m2])) s

def execUadamw (h : Hdr) (o : UOp) (s : State) : Host.Outcome State Fault Refusal :=
  updOp h o [o.h.val, o.h.val + 1, o.g.val, o.g.val + 1]
    (fun p => [tileAt o.vd p.n o.v.ty, tileAt o.vb p.n .f32, tileAt o.vc p.n .f32]) [o.vb, o.vc] (fun t p e =>
    let g := t.fvElem o.va p p.ty e
    let m := t.fvElem o.vb p .f32 e
    let v := t.fvElem o.vc p .f32 e
    let w := t.fvElem o.vd p o.v.ty e
    let lr := t.hyper o.h.val 0
    let wd := t.hyper o.h.val 1
    let b1 := t.hyper (o.h.val + 1) 0
    let b2 := t.hyper (o.h.val + 1) 1
    let eps := t.hyper o.g.val 0
    let c1 := t.hyper o.g.val 1
    let c2 := t.hyper (o.g.val + 1) 0
    let m2 := (b1.mul m).add false (rn ((rn (one.sub b1)).mul g))
    let v2 := (b2.mul v).add false (rn ((rn (one.sub b2)).mul (rn (g.mul g))))
    let den := rnSF (rootPlus (rn ((rn v2).mul c2)) eps)
    let u := rnSF (quotient (rn ((rn m2).mul c1)) den)
    (t.fin_ o e (w.add (t.finRd o e) (rn (lr.mul (rn (u.add false (rn (wd.mul w)))))).neg),
      [packFV .f32 (.rnd .rne) false m2, packFV .f32 (.rnd .rne) false v2])) s

def execUclipVal (h : Hdr) (o : UOp) (s : State) : Host.Outcome State Fault Refusal :=
  updOp h o [o.h.val] (fun _ => []) [] (fun t p e =>
    (t.fin_ o e ((t.hyper o.h.val 0).max ((t.hyper o.h.val 1).min (t.fvElem o.va p p.ty e))), [])) s

/-- The factor of UCLIP.nrm. -/
def clipScale (c n : FV) : FV :=
  if c.isNan || n.isNan then .nan else if c.lt n then rnSF (quotient c n) else one

def execUclipNrm (h : Hdr) (o : UOp) (s : State) : Host.Outcome State Fault Refusal :=
  updOp h o [o.h.val] (fun _ => []) [] (fun t p e =>
    (t.fin_ o e ((t.fvElem o.va p p.ty e).mul (clipScale (t.hyper o.h.val 0) (t.hyper o.h.val 1))), [])) s

end Sys2Proof.Machine
end

