-- ==== Sys2Proof/Machine/Exp.lean ====
section
/-!
DEFINITION. Group EXP: enqueue, dequeue, status, kick and retirement of ricks, combine slots, and the events of the rick
units (R291 to R305).
-/

namespace Sys2Proof.Machine

/-! ### XENQ (R298) -/

/-- Send records: with RL a package-scope release goes first and its word is attached when it completes. -/
def State.sendEnq (s : State) (h : Hdr) (d : Dst) (rl p : Bool) (rick : Nat) (recs : List (List Byte)) : Done :=
  if 2048 ≤ rick then s.trapDone .illegal
  else s.sendRel h rl .pkg d p (.xenq rick recs s.attachWord)

/-- The four scalars of the record of XENQ. -/
def recScalars (k : Fin 16) : List (Fin 16) := [k, k + 1, k + 2, k + 3]

def execXenq (h : Hdr) (d : Dst) (a : Src) (k : Fin 16) (rl p : Bool) (imm : BitVec 32) (s : State) :
    Host.Outcome State Fault Refusal :=
  issueIf (k.val % 4 = 0 && !(rl && s.who = .c)) (gateR [.c, .s] [a]) h (useD (a :: (recScalars k).map Src.n) d) (fun t =>
    t.sendEnq h d rl p (t.val imm a).toNat [(recScalars k).flatMap fun j => natLe 8 t.cur.n[j].toNat]) s

/-- The tile word of XENQ.tile: byte address and count; none is ILLEGAL. -/
def xenqWord (w : Nat) : Option (Nat × Nat) :=
  let v := bitsOf w 0 10
  let c := bitsOf w 10 8
  if c = 0 || 128 < c || bitsOf w 18 46 != 0 || 2 ^ 20 < v * 1024 + 32 * c then none else some (v * 1024, c)

def execXenqTile (h : Hdr) (d : Dst) (a w : Src) (rl p : Bool) (imm : BitVec 32) (s : State) :
    Host.Outcome State Fault Refusal :=
  issueIf (!(rl && s.who = .c)) (gateR [.c, .s] [a, w]) h (useD [a, w] d) (fun t =>
    match xenqWord (t.valAfter imm [a] w).toNat with
    | none => t.trapDone .illegal
    | some (byte, c) =>
      t.owned [⟨1, byte, 32 * c, false⟩]
        (t.sendEnq h d rl p (t.val imm a).toNat ((List.range c).map fun i => t.core.tile.bytes (byte + 32 * i) 32))) s

/-! ### XDEQ (R299) -/

/-- The batch bound to the continuation of the step, each record with its poisoned words; empty when no firing made it or its
batch was lost. -/
def State.batch (s : State) : List (List Byte × List Nat) := ((s.core.ctx.bind (·.firing)).map (·.batch)).getD []

/-- The bytes of a record, poisoned by the 8-byte word (R437). -/
def recBytes (r : List Byte × List Nat) : List PByte := r.1.zipIdx.map fun (b, i) => (b, r.2.contains (i / 8))

/-- XDEQ: as LD.tile, poisoned bytes are left out and raise a deferred POISON (R437). -/
def execXdeq (h : Hdr) (d : Dst) (a b c : Src) (imm : BitVec 32) (s : State) : Host.Outcome State Fault Refusal :=
  issue (gateR [.l] [a, b, c]) h (useD [a, b, c] d) (fun t =>
    let byte := (t.val imm a).toNat
    let first := (t.valAfter imm [a] b).toNat
    let most := (t.valAfter imm [a, b] c).toNat
    if byte % 32 != 0 || most = 0 || 128 < most || 2 ^ 20 < byte + 32 * most then t.trapDone .illegal
    else
      let recs := (t.batch.drop first).take most
      t.owned [⟨1, byte, 32 * recs.length, true⟩]
        (let bs := recs.flatMap recBytes
         let u := State.putDst { t with core := { t.core with tile := storeClean t.core.tile byte bs } } d (BitVec.ofNat 64 recs.length)
         .go (if bs.any (·.2) then u.deferTrap .poison 0 0 else u))) s

/-! ### XSTAT, XKICK, XDONE (R300 to R302) -/

/-- An access to the home of a rick named by a source. -/
def rickOp (h : Hdr) (d : Dst) (a : Src) (imm : BitVec 32) (kind : Nat → AccKind) (s : State) :
    Host.Outcome State Fault Refusal :=
  issue (gateR [.l] [a]) h (useD [a] d) (fun t =>
    let r := (t.val imm a).toNat
    if 2048 ≤ r then t.trapDone .illegal else t.sendRel h false .pkg d false (kind r)) s

def execXstat (h : Hdr) (sel : Fin 8) (d : Dst) (a : Src) (imm : BitVec 32) (s : State) : Host.Outcome State Fault Refusal :=
  rickOp h d a imm (fun r => .xstat r sel) s

def execXkick (h : Hdr) (d : Dst) (a : Src) (imm : BitVec 32) (s : State) : Host.Outcome State Fault Refusal :=
  rickOp h d a imm (fun r => .xkick r) s

/-- Retire the firing of the step of the core in focus, once. -/
def State.retireStep (s : State) (f : Firing) : State :=
  (s.retireFiring f).mapCtx fun x => { x with firing := some { f with retired := true } }

/-- In a continuation that a reassigning agent re-created nothing is retired (R41, log entry 18). -/
def execXdone (h : Hdr) (s : State) : Host.Outcome State Fault Refusal :=
  issue (gateN [.s]) h (useS []) (fun t =>
    match t.core.ctx with
    | none => t.trapDone .illegal
    | some x =>
      match x.firing with
      | some f => .go (t.retireStep f)
      | none => if x.base.raised then .go t else t.trapDone .illegal) s

/-! ### XCMB (R304) -/

/-- The slot of XCMB: RC, else PERM; local HBM, else ATOMSCOPE. -/
def execXcmb (h : Hdr) (o : AcqOp) (s : State) : Host.Outcome State Fault Refusal :=
  issue (gateM [.s]) h (useD [o.m.oreg.src] o.d) (fun t =>
    match t.memAccess [] o.m 16 16 [permW, permA] .write with
    | (t, .error b) => t.badDone b
    | (t, .ok ps) =>
      match ps with
      | [] => t.trapDone .pagefault
      | q :: _ =>
        if q.part.kind != .rc then .trap t (t.precise .perm q.part.va)
        else if spaceOf q.part.addr != 0 then .trap t (t.precise .atomscope q.part.va)
        else t.sendRel h true o.scope o.d o.p (.xcmb q.part.addr q.part.pois)) s

/-! ### Events of the rick units (R294 to R296) -/

/-- The rick unit of a die fires the rick that is first in its order. -/
def State.rickUnit (s : State) (die : Nat) : State :=
  match s.rickPick die with
  | (s, none) => s
  | (s, some (r, cfg)) => s.fireRick r cfg

/-- RICK_FIRING. -/
def execRickFiring (die : Nat) (s : State) : Host.Outcome State Fault Refusal := .next (s.rickUnit die)

/-- RICK_AGE_EXPIRY: a rick whose head record is older than A has become eligible; the rick unit of its die fires. -/
def execRickAgeExpiry (r : Nat) (s : State) : Host.Outcome State Fault Refusal :=
  match s.rickCfg r with
  | (s, none) => .next s
  | (s, some cfg) => .next (if s.rickAged (s.rick r) cfg && s.rickEligible r cfg then s.rickUnit (r / 128) else s)

end Sys2Proof.Machine
end

