-- ==== Sys2Proof/Machine/Rollback.lean ====
section
/-!
DEFINITION. Rollback, fault and fences: the end of a step whose traps end it (R35, R368, R369, R376, R377, R394).
-/

namespace Sys2Proof.Machine

/-! ### Rollback (R35, R376) -/

/-- Discard the unpublished work of the step of the core in focus; granules in flight are finished, accesses completed (R376). -/
def State.discardWork (s : State) : State :=
  let s := s.finishHeld.drainAccs
  let s := { s with core := { s.core.zeroSems with copy := [], mtx := ⟨[], [], 0, 0⟩ } }
  match s.core.ctx with
  | none => s
  | some x => s.discardOpen x.log

/-- ROLLBACK: the continuation as at dispatch, ROLLB set, ready again (R376). -/
def State.rollbackStep (s : State) : State :=
  match s.core.ctx with
  | none => s
  | some x =>
    let s := s.discardWork.leaveCore
    s.makeReady { x.baseCont with rollb := true }

/-! ### Faults and fences (R377, R394) -/

/-- Roll back the running or stopped step of one core because its fault domain has been fenced. -/
def State.fenceCore (s : State) (cause : Nat) (n : Nat) : State :=
  let home := s.cid
  let s := s.focus n
  let s := match s.core.ctx with
    | none => s
    | some x => s.rollbackStep.coreAsh 5 cause x.tenant.toNat x.region.toNat 0 []
  s.focus home

/-- Fence a domain: set its bit and roll back every step of it on the package. -/
def State.fenceDomain (s : State) (fdom cause : Nat) : State :=
  let s := s.setFence fdom
  let hit (n : Nat) : Bool := match (s.coreAt n).ctx with
    | some x => !isDcc n && x.fdom.toNat = fdom
    | none => false
  (s.known.filter hit).foldl (fun s n => s.fenceCore cause n) s

/-- FAULT for the step of the core in focus (R377): ended as by ROLLBACK, but faulted; the domain fenced, the message sent. -/
def State.faultStep (s : State) (t : Trap) : State :=
  match s.core.ctx with
  | none => s
  | some x =>
    let s := s.discardWork.leaveCore
    let s := s.setCont { x.baseCont with state := .faulted, rollb := true }
    let s := s.fenceDomain x.fdom.toNat t.cause.code
    let s := s.eventDcc (dieOf s.cid) 4
    s.faultMessage (s.regionFn x.region.toNat) t.cause.code x.region.toNat x.fdom.toNat x.va t.ipc.toNat s.cid

/-! ### The traps of a clock that end the step (R369) -/

/-- The end of a step whose streams took traps of ROLLBACK or FAULT disposition in this clock: each trap taken in it its ash record,
the pending traps counted as discarded, then ROLLBACK or FAULT (R368, R369, R376, R377). -/
def State.endByTraps (s : State) : State :=
  match s.core.governing with
  | none => s
  | some e =>
    let dropped := (s.core.l.pend ++ s.core.c.pend ++ s.core.s.pend).length
    let s := s.trapsNow.foldl (fun s (k, t, _) => s.trapAsh t (s.core.strm k).tf dropped) s
    if e.fault then s.faultStep e.trap else s.rollbackStep

end Sys2Proof.Machine
end

