-- ==== Sys2Proof/Machine/Cont.lean ====
section
/-!
DEFINITION. Group CONT: the end instructions and their meeting, the frame and the record that an ending step writes, REL.commit,
SPAWN, CTXLIVE (R28 to R39, R215, R306 to R315, R378).
-/

namespace Sys2Proof.Machine

/-! ### The meeting check (R306) -/

def EndKind.active : EndKind → Bool
  | .susp | .exit => false
  | _ => true

def EndKind.isJoin : EndKind → Bool
  | .join .. => true
  | _ => false

/-- Two arrivals that cannot meet: EXIT against an end instruction, different tags, two active instructions, JOIN with
REL.commit. -/
def EndWait.clash (a b : EndWait) : Bool :=
  (a.kind = .exit) != (b.kind = .exit) || a.tag != b.tag || (a.kind.active && b.kind.active) ||
    (a.commit && b.kind.isJoin) || (b.commit && a.kind.isJoin)

def Core.ends (c : Core) : List EndWait := [c.l, c.c, c.s].filterMap (·.ended)

/-- May an arrival of stream k meet those that wait? After a commit's records are written JOIN may not decide. -/
def State.canMeet (s : State) (k : Strm) (w : EndWait) : Bool :=
  ([Strm.l, .c, .s].all fun j => j = k || ((s.core.strm j).ended.all fun o => !w.clash o)) &&
    !(w.kind.isJoin && (s.core.ctx.map (·.written)).getD false)

/-- Do all three streams wait, with every access and engine command of the step complete and no trap pending (R32 step 1,
R368)? -/
def Core.meetReady (c : Core) : Bool :=
  c.ends.length = 3 && c.accs.isEmpty && c.copy.isEmpty && c.mtx.q.isEmpty &&
    c.l.pend.isEmpty && c.c.pend.isEmpty && c.s.pend.isEmpty

/-- The stream that carries the meeting out: S at REL.commit, else the active one, else L. -/
def Core.decider (c : Core) : Strm :=
  if (c.s.ended.map (·.commit)).getD false then .s
  else (([Strm.l, .c, .s].find? fun k => ((c.strm k).ended.map fun w => w.kind.active).getD false)).getD .l

/-- The kind that decides: the active one's, else that of L. -/
def Core.deciding (c : Core) : EndKind :=
  ((c.ends.find? fun w => w.kind.active).map (·.kind)).getD ((c.l.ended.map (·.kind)).getD .susp)

/-! ### What the step ends with (R28, R29, R33) -/

/-- State and wake condition. -/
structure EndPlan where
  state : CState
  wkind : Nat
  wopnd : Nat
  deriving DecidableEq, Repr

/-- (a − FTIME) as a signed number of ns (R310). -/
def State.ahead (s : State) (a : Word) : Int := (a - s.ftime).toInt

def State.planOf (s : State) (k : EndKind) : EndPlan :=
  match k with
  | .susp =>
    match s.core.ctx.bind (·.watch) with
    | some w => ⟨.suspended, 1, w.va⟩
    | none => ⟨.ready, 0, 0⟩
  | .suspCmb a => ⟨.suspended, 2, a.toNat⟩
  | .yield => ⟨.ready, 0, 0⟩
  | .twheel a => if s.ahead a ≤ 0 then ⟨.ready, 0, 0⟩ else ⟨.parked, 4, a.toNat % 2 ^ 56⟩
  | .join va _ _ => ⟨.suspended, 3, va⟩
  | .exit => ⟨.done, 0, 0⟩

/-- Every stream stands at the header after its end instruction; queues and loops are discarded (R32, R146). -/
def Core.afterEnds (c : Core) : Core :=
  let go (k : Strm) (c : Core) : Core := c.goHeader k (c.strm k).secEnd
  let c := (go .s (go .c (go .l c))).mapStrms fun x => { x.noPfx with loops := [], lbv := false, ended := none }
  { c with ldq := ⟨[], 0⟩, sdq := ⟨[], 0⟩, bq := Vector.replicate 6 ⟨[], 0⟩ }

/-- The continuation as the step leaves it, its streams standing as in core c. -/
def StepCtx.endCont (x : StepCtx) (c : Core) (p : EndPlan) : Cont :=
  { x.baseCont with
    state := p.state, first := false, pcl := c.l.shdr, pcc := c.c.shdr, pcs := c.s.shdr, secl := c.l.retired
    secdc := BitVec.ofNat 10 (c.c.retired - c.l.retired).toNat, secds := BitVec.ofNat 10 (c.s.retired - c.l.retired).toNat
    wkind := BitVec.ofNat 8 p.wkind, wopnd := BitVec.ofNat 56 p.wopnd, cmbWake := false, joinw := none
    frmKib := (x.decl.filter (·.acc)).foldl (fun n r => n + (4 * r.count + 1023) / 1024) 0 }

/-- p1 to p7 as bits 0 to 6. -/
def Stream.predBits (x : Stream) : Nat :=
  (List.finRange 7).foldl (fun n k => n + natOfBool x.p[(Fin.ofNat 8 (k.val + 1))] * 2 ^ k.val) 0

/-- The descriptor of a declared range (R33). -/
def LiveRange.word (r : LiveRange) : Nat := if r.acc then r.first + r.count * 2 ^ 19 + 2 ^ 63 else r.first + r.count * 2 ^ 10

def LiveRange.bytes (r : LiveRange) : Nat := if r.acc then pad8 (4 * r.count) else 1024 * r.count

/-- A declared range with its contents. -/
def Core.rangeImage (c : Core) (r : LiveRange) : List Byte :=
  natLe 8 r.word ++
    if r.acc then c.accs32.bytes (4 * r.first) (4 * r.count) ++ List.replicate (r.bytes - 4 * r.count) 0
    else c.tile.bytes (1024 * r.first) (1024 * r.count)

/-- The frame image (R33). -/
def Core.frameImage (c : Core) (decl : List LiveRange) : List Byte :=
  let regs (x : Stream) : List Byte := x.n.toList.flatMap fun v => natLe 8 v.toNat
  let ranges := decl.flatMap c.rangeImage
  let nacc := (decl.filter (·.acc)).length
  natLe 8 (400 + ranges.length + (decl.length - nacc) * 2 ^ 32 + nacc * 2 ^ 40) ++ regs c.l ++ regs c.c ++ regs c.s ++
    natLe 8 (c.l.predBits + c.c.predBits * 2 ^ 8 + c.s.predBits * 2 ^ 16) ++ ranges

/-! ### Writing the end (R32, R112, R312) -/

/-- Why the end of a step does not come to pass: no billet; a failed translation, with the state that its walk leaves; other
packages' leases, which are being recalled; poison. -/
inductive EndBad where
  | bill (b : NoBillet) | bad (s : State) (b : Bad) | wait (s : State) | pois (info aux : Nat)

/-- Every closed billet of the step's log is in the log area. -/
def State.spillClosed (s : State) : State :=
  match s.log? s.logNum with
  | none => s
  | some g => (g.bills.filter fun b => b.closed).foldl (fun s b => s.spill g.num b.seg) s

/-- Append records one by one, waiting for the spill whenever the log buffer is full (R111). -/
def State.appendSlow (s : State) : List Rec → Except NoBillet State
  | [] => .ok s
  | r :: rs =>
    match s.appendRecs [r] with
    | .ok t => t.appendSlow rs
    | .error .full => .error .full
    | .error .busy =>
      match s.spillClosed.appendRecs [r] with
      | .ok t => t.appendSlow rs
      | .error e => .error e

/-- Write the frame: records on RC pages, in place elsewhere, once the leases of other packages there are recalled (R105). -/
def State.writeFrame (s : State) (frame : Nat) (bs : List Byte) : Except EndBad State :=
  match s.range s.tenant frame bs.length .write with
  | (s, .error b) => .error (.bad s b)
  | (s, .ok ps) =>
    if partsPois ps then .error (.pois 6 0)
    else
      match s.recallPlaced (partsOf ps) with
      | (s, false) => .error (.wait s)
      | (s, true) =>
        let cut := splitBytes (partsOf ps) bs
        match s.appendSlow (cut.flatMap fun (p, b) => if p.kind = .rc then partRecs 0 false 0 128 p b else []) with
        | .error e => .error (.bill e)
        | .ok s => .ok (s.writePlaced 8 cut).1

/-- The record as a type 3 record (R108). -/
def recordRec (c : Cont) : Rec := ⟨c.pa, c.bytes, 3, false, 0, true, 0⟩

/-- Steps 2 and 3 of R32: the frame, unless the step is done or has none, and the record. -/
def State.writeEnd (s : State) (x : StepCtx) (c : Cont) : Except EndBad State :=
  let framed : Except EndBad State :=
    if c.frame = 0 || c.state = .done then .ok s else s.writeFrame c.frame.toNat (s.core.frameImage x.decl)
  match framed with
  | .error e => .error e
  | .ok s =>
    match s.appendSlow [recordRec c] with
    | .error e => .error (.bill e)
    | .ok s => .ok s

/-- A release that waits for the spill if it has to. -/
def State.sealSlow (s : State) (pool : Bool) (flag : Option Nat) (commit : Bool) : Except EndBad (State × RelSt) :=
  match s.sealFor pool flag commit with
  | .ok r => .ok r
  | .error .full => .error (.bill .full)
  | .error .busy =>
    match s.spillClosed.sealFor pool flag commit with
    | .ok r => .ok r
    | .error e => .error (.bill e)

/-- Held traps after the step: a UE is recorded and fences the domain, the others are dropped (R378). -/
def State.dropHeld (s : State) (x : StepCtx) : State :=
  (x.heldTr.filter fun t => t.cause = .ue).foldl (fun s t =>
    let s := s.coreAsh 0 t.cause.code x.tenant.toNat x.region.toNat 0 []
    let s := (s.fenceDomain x.fdom.toNat t.cause.code).eventDcc (dieOf s.cid) 4
    s.faultMessage (s.regionFn x.region.toNat) t.cause.code x.region.toNat x.fdom.toNat x.va t.ipc.toNat s.cid) s

/-- The step of the core in focus ends by R32 or R312: frame and record unless REL.commit has written them, the package-scope
release, the core left. The continuation as it now is comes back, not yet entered in the scheduling state. -/
def State.closeStep (s : State) (x : StepCtx) (p : EndPlan) : Except EndBad (State × Cont) :=
  let c := s.core.afterEnds
  let k := x.endCont c p
  match (if x.written then Except.ok s else s.writeEnd x k) with
  | .error e => .error e
  | .ok s =>
    match s.sealSlow false none false with
    | .error e => .error e
    | .ok (s, r) =>
      let (s, st) := s.finishRelease r
      if st != 0 then .error (.pois 2 st)
      else .ok (State.dropHeld (State.leaveCore { s with core := c }) x, { k with relw := some r.word })

/-! ### Into the scheduling state (R30, R38, R39, R308 to R312) -/

/-- A free index of the wheel's entry store. -/
def State.wheelFree (s : State) : Option Nat := leastFrom (fun i => s.wheel.all fun e => e.idx != i) 0 s.twCount

/-- Does a deadline come within the 4,096 slots (R39, R398)? -/
def State.inWheel (s : State) (due : BitVec 64) : Bool := decide (due.toNat / 1000 < s.ftime.toNat / 1000 + 4096)

/-- Park a continuation on the wheel: a 16-byte entry in the store. -/
def State.park (s : State) (c : Cont) (due : BitVec 64) (idx : Nat) : State :=
  let s := s.setCont { c with state := .parked }
  let s := s.devStore (s.twBase + 16 * idx) (natLe 8 c.va ++ natLe 8 due.toNat)
  { s with wheel := s.wheel ++ [⟨idx, c.pa, due, s.inWheel due⟩] }

/-- Arm the wake condition as the continuation leaves running: it enters ready when the condition holds already. -/
def State.suspend (s : State) (c : Cont) : State :=
  if s.wakeHolds c then s.makeReady c else s.setCont { c with state := .suspended }

/-- SUSP.cmb at the slot's home (R308). -/
def State.armCombine (s : State) (c : Cont) (a : Nat) : State :=
  let expect := s.devNat a 4
  let arrived := s.devNat (a + 4) 4
  if expect ≤ arrived || s.devNat (a + 8) 8 % 2 ^ 57 != 0 then s.makeReady c
  else (s.devAtomic (a + 8) (natLe 8 c.va)).setCont { c with state := .suspended }

/-- A continuation that has reached done is counted and freed (R30, R302, R312). -/
def State.freeDone (s : State) (c : Cont) (fault : Bool) (final : Option RelWord) : State :=
  ((s.freeFiring c).freeCont c).countFreed c fault final

/-! ### The meeting (R306, R308 to R312) -/

def State.endBad (s : State) : EndBad → Done
  | .bill b => s.noBillet b
  | .bad t b => t.badDone b
  | .wait t => .wait t
  | .pois info aux => .trap s { s.precise .poison 0 with info := BitVec.ofNat 32 info, aux := BitVec.ofNat 64 aux }

/-- End the step by a plan, then enter the continuation as post says. -/
def State.endBy (s : State) (x : StepCtx) (p : EndPlan) (post : State → Cont → State) : Done :=
  match s.closeStep x p with
  | .error e => s.endBad e
  | .ok (t, c) => .stay (post t c)

/-- All three streams continue at the words after their end instructions (R311). -/
def State.goOn (s : State) : State :=
  let go (k : Strm) (c : Core) : Core :=
    let c := c.fallTo k (c.strm k).next
    c.setStrm k { c.strm k with ended := none }
  { s with core := go .s (go .c (go .l s.core)) }

/-- JOIN with DONE set: the release word is acquired and the streams go on. -/
def State.joinDone (s : State) (w : RelWord) : State :=
  let (s, st) := s.acquire w
  let s := s.mapCur fun x => { x with astat := st }
  let s := if st.getLsbD 1 then s.deferAux .poison 3 0 st else s
  s.goOn

/-- The combine slot of SUSP.cmb: aligned, RC, in local HBM, writable as for every atomic (R412), not poisoned; its key address. -/
def State.slotOf (s : State) (a : Nat) : State × Except EndBad Nat :=
  if a % 16 != 0 then (s, .error (.bad s (.cause .align a)))
  else
    match s.range s.tenant a 16 .write with
    | (s, .error b) => (s, .error (.bad s b))
    | (s, .ok []) => (s, .error (.bad s (.cause .pagefault a)))
    | (s, .ok (p :: _)) =>
      if p.part.kind != .rc || spaceOf p.part.addr != 0 then (s, .error (.bad s (.cause .perm a)))
      else if p.part.pois || s.linePois p.part.addr then (s, .error (.pois 1 0))
      else (s, .ok p.part.addr)

/-- Where the 24 bytes of a JOIN lie at the meeting, which reads them: a translation dropped since the JOIN arrived is not used
(R311, R415); ten: the tenant in whose tables the capability names them (R388). -/
def State.joinParts (s : State) (va ten : Nat) (dev : Bool) : State × Except Bad (List Part) :=
  if dev then (s, .ok [⟨keyOf devInfoSpace (va - devInfoBase), 24, .so, va, false⟩])
  else
    match s.range ten va 24 .read with
    | (s, .error b) => (s, .error b)
    | (s, .ok ps) => (s, .ok (partsOf ps))

/-- Carry out the meeting: the issuing stream decides it. srcs are its sources, popped where it goes on. -/
def State.meet (s : State) (srcs : List Src) : Done :=
  match s.core.ctx with
  | none => .hold .endIns
  | some x =>
    let k := s.core.deciding
    let p := s.planOf k
    if isDcc s.cid && !k.isJoin then .hold .endIns
    else
      match k with
      | .susp => s.endBy x p fun t c =>
          match x.watch with
          | some w => (t.armWatch c.pa w).suspend c
          | none => t.makeReady c
      | .suspCmb a =>
        match s.slotOf a.toNat with
        | (t, .error e) => t.endBad e
        | (t, .ok slot) => t.endBy x p fun t c => t.armCombine c slot
      | .yield => s.endBy x p fun t c => t.makeReady c
      | .twheel a =>
        if 2 ^ 55 ≤ s.ahead a then s.trapDone .illegal
        else if s.ahead a ≤ 0 then s.endBy x p fun t c => t.makeReady c
        else
          match s.wheelFree with
          | none => .hold .endIns
          | some i => s.endBy x p fun t c => t.park c a i
      | .join va ten dev =>
        match s.joinParts va ten dev with
        | (t, .error b) => t.badDone b
        | (t, .ok ps) =>
          let (t, bs) := t.readWith (fun t q => if q.pois then (t, List.replicate q.len (0, true)) else t.homeRead q.addr q.len) ps
          let bytes := bs.map (·.1)
          if bs.any (·.2) then t.endBad (.pois 3 0)
          else if bitOf (bytesNat bytes 0 8) 63 then .stay ((t.popAll srcs).joinDone (relWordOf (bytes.drop 8)))
          else if isDcc t.cid then .hold .endIns
          else t.endBy x p fun t c => t.suspend c
      | .exit => s.endBy x p fun t c => t.freeDone c false c.relw

/-! ### End instructions -/

/-- An end instruction arrives, or carries the meeting out once all three wait; last: it must be the last word of its section
(R146), which is checked whatever its predicate (DESIGN CHOICE, log entry 108). -/
def endOp (h : Hdr) (g : Gate) (srcs : List Src) (last : Bool) (tag : BitVec 7)
    (kind : State → State × Except Bad EndKind) (s : State) : Host.Outcome State Fault Refusal :=
  issueIf (!last || s.cur.next = s.cur.secEnd) g h (useS srcs) (fun t =>
    match t.cur.ended with
    | some _ => if t.core.meetReady && t.core.decider = t.who then t.meet srcs else .hold .endIns
    | none =>
      match kind t with
      | (t, .error b) => t.badDone b
      | (t, .ok k) =>
        let w : EndWait := ⟨k, tag, false⟩
        if t.canMeet t.who w then .stay (t.mapCur fun x => { x with ended := some w, hold := .endIns })
        else t.trapDone .illegal) s

def execSusp (h : Hdr) (tag : BitVec 7) (s : State) : Host.Outcome State Fault Refusal :=
  endOp h (gateN anyStrm) [] true tag (fun t => (t, .ok .susp)) s

def execSuspCmb (h : Hdr) (tag : BitVec 7) (a : Src) (imm : BitVec 32) (s : State) : Host.Outcome State Fault Refusal :=
  endOp h (gateR anyStrm [a]) [a] true tag (fun t => (t, .ok (.suspCmb (t.val imm a)))) s

def execYield (h : Hdr) (tag : BitVec 7) (s : State) : Host.Outcome State Fault Refusal :=
  endOp h (gateN anyStrm) [] true tag (fun t => (t, .ok .yield)) s

def execTwheel (h : Hdr) (tag : BitVec 7) (a : Src) (imm : BitVec 32) (s : State) : Host.Outcome State Fault Refusal :=
  endOp h (gateR anyStrm [a]) [a] true tag (fun t => (t, .ok (.twheel (t.val imm a)))) s

/-- The address that a window gives an operand, when R94 lets n bytes be read there. -/
def Window.reads (w : Window) (ea : Int) (n : Nat) : Option Nat :=
  if 0 ≤ ea && ea + n ≤ (w.len : Int) && w.perm.getLsbD permR then some (w.vbase + ea.toNat) else none

/-- The 24 bytes at an address that is 8 more than a multiple of 16, a check that comes before translation (R94, R311). -/
def State.joinWord (s : State) (m : MAddr) : State × Except Bad EndKind :=
  let cap := s.core.caps[m.cap]
  match s.window cap with
  | (s, .error b) => (s, .error b)
  | (s, .ok w) =>
    match w.reads (s.eaOf m (s.oregVal [] m)) 24 with
    | none => (s, .error (.cause .capfault 0))
    | some va =>
      if va % 16 != 8 then (s, .error (.cause .align va))
      else
        match s.memAccess [] m 24 8 [permR] .read with
        | (s, .error b) => (s, .error b)
        | (s, .ok _) => (s, .ok (.join va ((cap.map fun (c : Cap) => c.ten.toNat).getD s.tenant) ((cap.map (·.dev)).getD false)))

def execJoin (h : Hdr) (tag : BitVec 7) (_scope : Scope) (m : MAddr) (s : State) : Host.Outcome State Fault Refusal :=
  endOp h (gateM anyStrm) [m.oreg.src] true tag (fun t => t.joinWord m) s

def execExit (h : Hdr) (s : State) : Host.Outcome State Fault Refusal :=
  endOp h (gateN anyStrm) [] false 0 (fun t => (t, .ok .exit)) s

/-! ### REL.commit (R215) -/

/-- The next instruction of the issuing stream in program order, past prefix words and headers, and the state in which the
stream stands at it. -/
def State.nextFrom : Nat → State → State × Option Instr
  | 0, s => (s, none)
  | f + 1, s =>
    let x := s.cur
    if !x.insec then
      match s.header x.shdr with
      | (s, .ok (some h)) =>
        let s := s.mapCur fun x => x.begin x.shdr h
        State.nextFrom f (if h.len = 0 then { s with core := s.core.goHeader s.who s.cur.secEnd } else s)
      | (s, _) => (s, none)
    else
      match s.fetch x.pc 12 with
      | (s, .error _) => (s, none)
      | (s, .ok bs) =>
        match decodeWord (wordOfBytes bs) with
        | .ok (.pfxi p) => State.nextFrom f (s.mapCur fun x => { x with pc := x.pc + 3, wide := some p })
        | .ok (.pfxm _) => State.nextFrom f (s.mapCur fun x => { x with pc := x.pc + 3 })
        | .ok i => (s, some i)
        | .error _ => (s, none)

/-- The SUSP or EXIT that follows REL.commit, as S's arrival. -/
def State.commitEnd (s : State) : State × Option EndWait :=
  match State.nextFrom 65536 s.advance with
  | (t, some (.susp _ tag)) => (t, some ⟨.susp, tag, true⟩)
  | (t, some (.suspCmb _ tag a imm)) => (t, some ⟨.suspCmb (t.val imm a), tag, true⟩)
  | (t, some (.exit _)) => (t, some ⟨.exit, 0, true⟩)
  | (t, _) => (t, none)

/-- Write the frame and the record and begin the commit. after: the state in which S stands at the instruction that
follows. -/
def State.commitNow (s : State) (h : Hdr) (p : Bool) (flag : Nat) (after : State) : Done :=
  match s.core.ctx with
  | none => .hold .endIns
  | some x =>
    let plan := s.planOf s.core.deciding
    let k := x.endCont (s.core.setStrm .s after.core.s).afterEnds plan
    match s.writeEnd x k with
    | .error e => s.endBad e
    | .ok t =>
      match t.sealSlow true (some flag) true with
      | .error e => s.endBad e
      | .ok (t, r) =>
        let t := t.mapCtx fun x => { x with written := true }
        let t := t.mapCur fun x => { x with ended := none }
        .go (t.addAcc h .none p .rel (some r))

def execRelCommit (h : Hdr) (p : Bool) (m : MAddr) (s : State) : Host.Outcome State Fault Refusal :=
  issueIf s.commitEnd.2.isSome (gateM [.s]) h (useS [m.oreg.src]) (fun t =>
    match t.flagPart m [permW, permA] .write with
    | (t, .error b) => t.badDone b
    | (t, .ok q) =>
      if q.part.pois then .trap t { t.precise .poison 0 with info := 2 }
      else
        match t.cur.ended, t.commitEnd with
        | some _, (after, _) =>
          if isDcc t.cid then .hold .endIns
          else if t.core.meetReady && t.core.decider = t.who then t.commitNow h p q.part.addr after else .hold .endIns
        | none, (_, some w) =>
          if t.canMeet t.who w then .stay (t.mapCur fun x => { x with ended := some w, hold := .endIns })
          else t.trapDone .illegal
        | none, (_, none) => t.trapDone .illegal) s

/-! ### SPAWN (R36, R313, R314) -/

/-- Is the step at the depth limit, where every SPAWN fails (R36)? -/
def State.tooDeep (s : State) : Bool := (s.core.ctx.map fun x => decide (8 ≤ x.depth.val)).getD false

/-- Does SPAWN take the region of its template: the step's own or one below it, with no tenant root on the way, and well formed? At
the depth limit it takes any: R357 has a template of zeros fail on its depth (log entry 39). -/
def State.spawnable (s : State) (own reg : Nat) : Bool :=
  let p := (s.path reg).getD []
  let below := p.takeWhile (· != own)
  s.tooDeep || (s.wellFormed reg && p.contains own && below.all fun r => !s.rcbMask r 7)

def execSpawn (h : Hdr) (d : Dst) (p : Bool) (m : MAddr) (s : State) : Host.Outcome State Fault Refusal :=
  issue (gateM anyStrm) h (useD [m.oreg.src] d) (fun t =>
    match t.memAccess [] m 128 128 [permR] .read with
    | (t, .error b) => t.badDone b
    | (t, .ok ps) =>
      if t.soWait ps then .hold .other
      else
        let own := t.ownBytes (partsOf ps)
        let (t, bs) := t.readWith State.readPart (partsOf ps)
        let bs := overlayOwn own (partsOf ps) bs
        let card := bs.map (·.1)
        let reg := cardRegion card
        let step := (t.core.ctx.map fun x => x.region.toNat).getD 0
        if bs.any (·.2) then t.sendRel h true .pkg d p (.spawn (BitVec.ofNat 16 reg) card true ⟨0, 0⟩)
        else if !t.spawnable step reg then t.trapDone .perm
        else t.sendRel h true .pkg d p (.spawn (BitVec.ofNat 16 reg) card false ⟨0, 0⟩)) s

/-! ### CTXLIVE (R315, R387) -/

/-- Append a range: none when it is out of bounds or a ninth of its kind. -/
def appendLive (l : List LiveRange) (acc : Bool) (a b : Nat) : Option (List LiveRange) :=
  let lim := if acc then 524288 else 1024
  if b = 0 || lim < a + b || 8 ≤ (l.filter fun r => r.acc = acc).length then none else some (l ++ [⟨acc, a, b⟩])

/-- KiB that an accumulator range is charged, rounded up (R387). -/
def accKib (count : Nat) : Nat := (4 * count + 1023) / 1024

def liveOp (h : Hdr) (acc : Bool) (a b : Src) (imm : BitVec 32) (s : State) : Host.Outcome State Fault Refusal :=
  issue (gateR anyStrm [a, b]) h (useS [a, b]) (fun t =>
    match t.core.ctx with
    | none => t.trapDone .illegal
    | some x =>
      let n := (t.valAfter imm [a] b).toNat
      match appendLive x.decl acc (t.val imm a).toNat n with
      | none => t.trapDone .illegal
      | some l =>
        let kib := if acc then accKib n else 0
        let t := if isDcc t.cid then t else t.charge x.region.toNat .acc kib
        .go (t.mapCtx fun x => { x with decl := l, declB := true, accKib := x.accKib + kib })) s

def execCtxliveTile (h : Hdr) (a b : Src) (imm : BitVec 32) (s : State) : Host.Outcome State Fault Refusal :=
  liveOp h false a b imm s

def execCtxliveAcc (h : Hdr) (a b : Src) (imm : BitVec 32) (s : State) : Host.Outcome State Fault Refusal :=
  liveOp h true a b imm s

def execCtxliveClr (h : Hdr) (s : State) : Host.Outcome State Fault Refusal :=
  issue (gateN anyStrm) h (useS []) (fun t => .go (t.mapCtx fun x => { x with decl := [], declB := true })) s

end Sys2Proof.Machine
end

