-- ==== Sys2Proof/Machine/Sys.lean ====
section
/-!
DEFINITION. Group SYS: TRAP, ERET, the CSRs, TLBINV, SEMMAP, CMINT, HALT; the events of CSRs and of pending traps
(R361 to R384, R395, R407 to R415).
-/

namespace Sys2Proof.Machine

/-! ### Privilege (R161, R361) -/

/-- A gate of a privileged instruction; free: a stream with HND set may issue it in user mode. -/
def State.sysGate (s : State) (srcs : List Src) (free : Bool) : Gate :=
  { gateR anyStrm srcs with priv := !(free && s.cur.hnd) }

/-- The stream's own trap frame and STRST. -/
def ownCsr (csr : BitVec 12) : Bool := decide (csr.toNat ≤ 0x10)

/-! ### TRAP, ERET (R373, R380) -/

def execTrap (h : Hdr) (code : BitVec 16) (s : State) : Host.Outcome State Fault Refusal :=
  issue (gateN anyStrm) h (useS []) (fun t => .stay (t.raiseAfter [] .trap (code.setWidth 64))) s

/-- ILLEGAL without HND; a frame that names no place to return to is a double trap, as every trap raised here is. -/
def execEret (h : Hdr) (s : State) : Host.Outcome State Fault Refusal :=
  issue (s.sysGate [] true) h (useS []) (fun t =>
    let x := t.cur
    match x.hnd, x.saved with
    | true, some z =>
      match t.header (x.tf[1].extractLsb' 32 32) with
      | (t, .error b) => t.fetchDone b
      | (t, .ok none) => t.trapDone .illegal
      | (t, .ok (some hd)) =>
        if returnOk (x.tf[1].extractLsb' 32 32) (x.tf[1].extractLsb' 0 32) hd then .stay (t.returnTo t.who hd z)
        else t.trapDone .illegal
    | _, _ => t.trapDone .illegal) s

/-! ### CSRs (R362 to R364, R380) -/

/-- µs that the step has run, saturating (R364). -/
def State.elapsed (s : State) : Nat := min (((s.core.ctx.map (·.elapNs)).getD 0) / 1000) 0xFFFFFFFF

/-- The value of a CSR as a stream of the core in focus reads it; none: the number is not assigned. -/
def State.csr (s : State) (csr : BitVec 12) : Option Word :=
  let c := s.core
  let d := s.die (dieOf s.cid)
  let n := csr.toNat
  if n < 0x10 then some (s.cur.tf[(Fin.ofNat 16 n)])
  else
    match n with
    | 0x010 => some (BitVec.ofNat 64 (natOfBool s.systemMode + natOfBool s.cur.hnd * 2))
    | 0x100 => some (boolWord c.chk)
    | 0x101 => some c.seed
    | 0x102 => some (c.abftTol.setWidth 64)
    | 0x103 => some (c.abftCnt.setWidth 64)
    | 0x104 => some (c.accinj.setWidth 64)
    | 0x105 => some c.displo
    | 0x106 => some c.disphi
    | 0x107 => some c.hndlc
    | 0x108 => some (c.hndls.setWidth 64)
    | 0x109 => some (BitVec.ofNat 64 (c.wdlim.toNat + s.elapsed * 2 ^ 32))
    | 0x10A => some (c.evpend.setWidth 64)
    | 0x10B => some (c.evmask.setWidth 64)
    | 0x10C => some (c.svec.setWidth 64)
    | 0x200 => some d.drbase
    | 0x201 => some (d.drsize.setWidth 64)
    | 0x202 => some (d.drhead.setWidth 64)
    | 0x203 => some (d.drtail.setWidth 64)
    | 0x300 => some (s.podpos.setWidth 64)
    | _ => none

/-- Is any field of the CSR writable? -/
def csrWritable (csr : BitVec 12) : Bool :=
  let n := csr.toNat
  n = 0 || n = 1 || n = 3 || n = 6 || (decide (0x100 ≤ n) && decide (n ≤ 0x10C)) || n = 0x200 || n = 0x201 || n = 0x203

/-- Bits of a trap-frame word that software writes (R370). -/
def tfMask (k : Fin 16) : Word :=
  if k = 0 then 0x800 else if k = 1 then 0xFFFFFFFF else if k = 3 ∨ k = 6 then BitVec.allOnes 64 else 0

/-- The write of DRBASE or DRSIZE: none while the ring is not empty (R363). -/
def Die.config (d : Die) (base : Bool) (v : Word) : Die :=
  if d.drhead != d.drtail then d else if base then { d with drbase := v } else { d with drsize := v.setWidth 17 }

/-- The write of DRTAIL: none outside the range from its value to DRHEAD (R363). -/
def Die.retire (d : Die) (v : Word) : Die :=
  let t : BitVec 32 := v.setWidth 32
  if (t - d.drtail).toNat ≤ (d.drhead - d.drtail).toNat then { d with drtail := t } else d

def State.mapDie (s : State) (f : Die → Die) : State := s.setDie (dieOf s.cid) (f (s.die (dieOf s.cid)))

/-- Write the RW fields of a CSR. -/
def State.setCsr (s : State) (csr : BitVec 12) (v : Word) : State :=
  let c := s.core
  let n := csr.toNat
  if n < 0x10 then
    let k := Fin.ofNat 16 n
    s.mapCur fun x => { x with tf := x.tf.set k ((x.tf[k] &&& ~~~(tfMask k)) ||| (v &&& tfMask k)) }
  else
    match n with
    | 0x100 => { s with core := { c with chk := v.getLsbD 0 } }
    | 0x101 => { s with core := { c with seed := v } }
    | 0x102 => { s with core := { c with abftTol := v.setWidth 32 } }
    | 0x103 => { s with core := { c with abftCnt := v.setWidth 32 } }
    | 0x104 => { s with core := { c with accinj := v.setWidth 25 } }
    | 0x105 => { s with core := { c with displo := v } }
    | 0x106 => { s with core := { c with disphi := v } }
    | 0x107 => { s with core := { c with hndlc := v } }
    | 0x108 => { s with core := { c with hndls := v.setWidth 32 } }
    | 0x109 => { s with core := { c with wdlim := v.setWidth 32, ctx := c.ctx.map fun (x : StepCtx) => { x with wdRaised := false } } }
    | 0x10A => { s with core := { c with evpend := c.evpend &&& ~~~(v.setWidth 6) } }
    | 0x10B => { s with core := { c with evmask := v.setWidth 6 } }
    | 0x10C => { s with core := { c with svec := v.setWidth 32 } }
    | 0x200 => s.mapDie fun d => d.config true v
    | 0x201 => s.mapDie fun d => d.config false v
    | 0x203 => s.mapDie fun d => d.retire v
    | _ => s

def execCsrr (h : Hdr) (d : Dst) (csr : BitVec 12) (s : State) : Host.Outcome State Fault Refusal :=
  issueIf (s.csr csr).isSome (s.sysGate [] (ownCsr csr)) h (useD [] d) (fun t => .go (t.putDst d ((t.csr csr).getD 0))) s

def execCsrw (h : Hdr) (csr : BitVec 12) (a : Src) (s : State) : Host.Outcome State Fault Refusal :=
  issueIf (csrWritable csr) (s.sysGate [a] (ownCsr csr)) h (useS [a]) (fun t => .go (t.setCsr csr (t.val 0 a))) s

/-- CSRX: the old value to d, then a write of what f makes of the old value and a. -/
def csrx (h : Hdr) (d : Dst) (csr : BitVec 12) (a : Src) (f : Word → Word → Word) (s : State) :
    Host.Outcome State Fault Refusal :=
  issueIf (csrWritable csr) (s.sysGate [a] (ownCsr csr)) h (useD [a] d) (fun t =>
    let old := (t.csr csr).getD 0
    .go ((t.setCsr csr (f old (t.val 0 a))).putDst d old)) s

def execCsrxSwp (h : Hdr) (d : Dst) (csr : BitVec 12) (a : Src) (s : State) : Host.Outcome State Fault Refusal :=
  csrx h d csr a (fun _ v => v) s

def execCsrxSet (h : Hdr) (d : Dst) (csr : BitVec 12) (a : Src) (s : State) : Host.Outcome State Fault Refusal :=
  csrx h d csr a (fun old v => old ||| v) s

def execCsrxClr (h : Hdr) (d : Dst) (csr : BitVec 12) (a : Src) (s : State) : Host.Outcome State Fault Refusal :=
  csrx h d csr a (fun old v => old &&& ~~~v) s

/-! ### Writes of CSRs as steps of their own (R362 to R364) -/

def execAccinjWrite (v : Word) (s : State) : Host.Outcome State Fault Refusal := .next (s.setCsr 0x104 v)

def execCorectlWrite (v : Word) (s : State) : Host.Outcome State Fault Refusal := .next (s.setCsr 0x100 v)

def execEvpendClear (v : Word) (s : State) : Host.Outcome State Fault Refusal := .next (s.setCsr 0x10A v)

def execDrtailWrite (v : Word) (s : State) : Host.Outcome State Fault Refusal := .next (s.setCsr 0x203 v)

def execDraftRingConfigWrite (base : Bool) (v : Word) (s : State) : Host.Outcome State Fault Refusal :=
  .next (s.setCsr (if base then 0x200 else 0x201) v)

def execCsrWrite (csr : BitVec 12) (v : Word) (s : State) : Host.Outcome State Fault Refusal := .next (s.setCsr csr v)

/-! ### TLBINV (R381, R415) -/

/-- The cores that an invalidation covers: of the die, or of the package. -/
def State.covered (s : State) (pkg : Bool) (n : Nat) : Bool := pkg || dieOf n = dieOf s.cid

/-- Does the core hold a physical address for an access or a granule in flight? A granule of a halted core goes no further. -/
def Core.holdsAddr (c : Core) : Bool :=
  !c.accs.isEmpty || (c.phase != .halted && c.copy.any fun m => m.begun && !m.done && !m.old.isEmpty)

/-- May an address that the core holds come from a tenant's tables: those of its step, or of one of its capabilities (R388)? -/
def Core.inTenant (c : Core) (ten : Nat) : Bool :=
  (c.ctx.map fun x => x.tenant.toNat).getD 0 = ten || c.caps.toList.any fun k => k.any fun k => !k.dev && k.ten.toNat = ten

/-- Does any access or granule of a covered core, of the tenant if one is named, still use a translation (R415)? -/
def State.transBusy (s : State) (pkg : Bool) (ten : Option Nat) : Bool :=
  s.known.any fun n => s.covered pkg n && (s.coreAt n).holdsAddr && ten.all (s.coreAt n).inTenant

/-- Drop entries of the L1 TLBs and L2 TLBs in the scope. -/
def State.dropTlb (s : State) (pkg : Bool) (hit : TlbEnt → Bool) : State :=
  let keep (l : List TlbEnt) : List TlbEnt := l.filter fun e => !hit e
  let s := s.known.foldl (fun s n =>
    if s.covered pkg n then s.putCore n { s.coreAt n with tlb := keep (s.coreAt n).tlb } else s) s
  { s with dies := s.dies.map fun e => if pkg || e.1 = dieOf s.cid then (e.1, { e.2 with tlb := keep e.2.tlb }) else e }

/-- Apply a function to every covered core. -/
def State.mapCovered (s : State) (pkg : Bool) (f : Core → Core) : State :=
  s.known.foldl (fun s n => if s.covered pkg n then s.putCore n (f (s.coreAt n)) else s) s

/-- An invalidation: it issues after the earlier accesses of its stream are complete; busy holds it back too. -/
def tlbinv (h : Hdr) (a b : Src) (imm : BitVec 32) (busy : State → Word → Word → Bool) (drop : State → Word → Word → State)
    (s : State) : Host.Outcome State Fault Refusal :=
  issue (s.sysGate [a, b] false) h (useS [a, b]) (fun t =>
    let x := t.val imm a
    let y := t.valAfter imm [a] b
    if (t.core.accs.any fun z => z.strm = t.who) || busy t x y then .hold .other else .go (drop t x y)) s

/-- The tenant operand. -/
def tenantOf (y : Word) : Nat := y.toNat % 65536

/-- The page is named by an address in it or by its number (log entry 19). -/
def execTlbinvVa (h : Hdr) (pkg : Bool) (a b : Src) (imm : BitVec 32) (s : State) : Host.Outcome State Fault Refusal :=
  tlbinv h a b imm (fun t _ y => t.transBusy pkg (some (tenantOf y)))
    (fun t x y => t.dropTlb pkg fun e => e.hits (tenantOf y) x.toNat || e.hits (tenantOf y) (x.toNat * 4096)) s

def execTlbinvTnt (h : Hdr) (pkg : Bool) (a b : Src) (imm : BitVec 32) (s : State) : Host.Outcome State Fault Refusal :=
  tlbinv h a b imm (fun t _ y => t.transBusy pkg (some (tenantOf y)))
    (fun t _ y => t.dropTlb pkg fun e => e.tenant.toNat = tenantOf y) s

def execTlbinvAll (h : Hdr) (pkg : Bool) (a b : Src) (imm : BitVec 32) (s : State) : Host.Outcome State Fault Refusal :=
  tlbinv h a b imm (fun t _ _ => t.transBusy pkg none) (fun t _ _ => t.dropTlb pkg fun _ => true) s

/-- Drop an object's entries from capability caches. -/
def Core.dropObj (c : Core) (ten obj : Nat) : Core :=
  { c with ccache := c.ccache.filter fun e => !(e.tenant.toNat = ten && e.obj.toNat = obj) }

def execTlbinvCap (h : Hdr) (pkg : Bool) (a b : Src) (imm : BitVec 32) (s : State) : Host.Outcome State Fault Refusal :=
  tlbinv h a b imm (fun _ _ _ => false) (fun t x y => t.mapCovered pkg fun c => c.dropObj (tenantOf y) x.toNat) s

def execTlbinvIc (h : Hdr) (pkg : Bool) (a b : Src) (imm : BitVec 32) (s : State) : Host.Outcome State Fault Refusal :=
  tlbinv h a b imm (fun _ _ _ => false) (fun t _ _ =>
    t.mapCovered pkg fun c => ({ c with icache := [] } : Core).mapStrms fun x => { x with lbuf := [] }) s

/-! ### Raw virtual addresses (R379) -/

/-- The parts of a checked range of the issuing step: PAGEFAULT or PERM otherwise. -/
def State.rawRange (s : State) (va n : Nat) (need : Need) : State × Except Bad (List Part) :=
  if 2 ^ 57 < va + n then (s, .error (.cause .pagefault va))
  else
    match s.range s.tenant va n need with
    | (s, .error b) => (s, .error b)
    | (s, .ok ps) => (s, .ok (partsOf ps))

/-- Read a checked range as a whole; none when a byte is poisoned. -/
def State.rawRead (s : State) (ps : List Part) : State × Option (List Byte) :=
  let (s, bs) := s.readWith State.viewPart ps
  (s, if bs.any (·.2) then none else some (bs.map (·.1)))

/-! ### Core groups (R392) -/

/-- Is the core group of a core power-gated, or still waking? -/
def State.gated (s : State) (core : Nat) : Bool := !isDcc core && lookupD s.groups (core / 16) .awake != .awake

/-! ### SEMMAP (R382, R395) -/

/-- Load the map; with zero, set every mapped count to 0. -/
def Core.loadMap (c : Core) (es : List Nat) (zero : Bool) : Core :=
  let c := { c with smap := (es.zipIdx.filter fun (p, v) => p != v).map fun (p, v) => (v, p) }
  if zero then { c with sems := es.foldl (fun m p => insertAt m p 0) c.sems } else c

def Core.stoppedNow (c : Core) : Bool := c.phase = .stopped || c.phase = .drained

def execSemmap (h : Hdr) (zero : Bool) (d : Dst) (a b : Src) (imm : BitVec 32) (s : State) :
    Host.Outcome State Fault Refusal :=
  issue (s.sysGate [a, b] false) h (useD [a, b] d) (fun t =>
    let core := (t.val imm a).toNat
    let va := (t.valAfter imm [a] b).toNat
    if 4096 ≤ core then t.trapDone .illegal
    else if va % 512 != 0 then .trap t (t.precise .align va)
    else
      match t.rawRange va 512 .read with
      | (t, .error e) => t.badDone e
      | (t, .ok ps) =>
        if t.gated core then .go (t.putDst d (failWord 3))
        else
          let c := t.coreAt core
          if !(core = t.cid || c.stoppedNow || (c.phase = .idle && c.ctx.isNone)) then .go (t.putDst d (failWord 1))
          else
            match t.rawRead ps with
            | (t, none) => t.trapDone .poison
            | (t, some bs) =>
              let es := (List.range 256).map fun v => bytesNat bs (2 * v) 2
              if es.any fun e => 512 ≤ e then .go (t.putDst d (failWord 2))
              else .go ((t.putCore core ((t.coreAt core).loadMap es zero)).putDst d 0)) s

/-! ### CMINT (R383, R408, R410) -/

/-- A well-formed descriptor. -/
def descOk (bs : List Byte) : Bool :=
  let base := bytesNat bs 0 8
  let len := bytesNat bs 8 8
  decide (base < 2 ^ 57) && decide (len < 2 ^ 58) && decide (base + len ≤ 2 ^ 57) && decide (bytesNat bs 16 1 < 32) &&
    bytesNat bs 17 15 = 0

/-- Write an object-table entry: fields from a descriptor, or those it has; generation raised; every capability cache has
dropped it. The answer is the new generation, none when the tenant has no object table. -/
def State.mintEntry (s : State) (ten obj : Nat) (desc : Option (List Byte)) : State × Option Nat :=
  match s.tenantEnt ten with
  | none => (s, none)
  | some (ot, _) =>
    let at_ := ot + 32 * obj
    let gen := (s.devNat (at_ + 24) 4 + 1) % 2 ^ 32
    let fields := match desc with
      | some bs => bs.take 24
      | none => s.devBytes at_ 24
    let s := (s.homeWrite at_ (fields ++ natLe 4 gen ++ natLe 4 (natOfBool desc.isSome))).1
    (s.mapCores fun c => c.dropObj ten obj, some gen)

/-- An index above 65,535, a malformed descriptor and a tenant without tables give code 2 and change nothing (log entry 20). -/
def State.mintDone (s : State) (d : Dst) (ten obj : Nat) (desc : Option (List Byte)) (ok : Bool) : Done :=
  if 65536 ≤ obj || !ok then .go (s.putDst d (failWord 2))
  else
    match s.mintEntry ten obj desc with
    | (t, some gen) => .go (t.putDst d (BitVec.ofNat 64 gen))
    | (t, none) => .go (t.putDst d (failWord 2))

def execCmintMint (h : Hdr) (d : Dst) (a b c : Src) (imm : BitVec 32) (s : State) : Host.Outcome State Fault Refusal :=
  issue (s.sysGate [a, b, c] false) h (useD [a, b, c] d) (fun t =>
    let obj := (t.val imm a).toNat
    let ten := tenantOf (t.valAfter imm [a, b] c)
    match t.rawRange (t.valAfter imm [a] b).toNat 32 .read with
    | (t, .error e) => t.badDone e
    | (t, .ok ps) =>
      match t.rawRead ps with
      | (t, none) => t.trapDone .poison
      | (t, some bs) => t.mintDone d ten obj (some bs) (descOk bs)) s

def execCmintRevoke (h : Hdr) (d : Dst) (a b c : Src) (imm : BitVec 32) (s : State) : Host.Outcome State Fault Refusal :=
  issue (s.sysGate [a, b, c] false) h (useD [a, b, c] d) (fun t =>
    let obj := (t.val imm a).toNat
    let ten := tenantOf (t.valAfter imm [a, b] c)
    match t.rawRange (t.valAfter imm [a] b).toNat 32 .read with
    | (t, .error e) => t.badDone e
    | (t, .ok _) => t.mintDone d ten obj none true) s

/-! ### HALT (R384) -/

def execHaltWfi (h : Hdr) (s : State) : Host.Outcome State Fault Refusal :=
  issue (s.sysGate [] false) h (useS []) (fun t =>
    if t.core.evpend &&& t.core.evmask = 0 then .hold .other else .go t) s

def execHaltStop (h : Hdr) (s : State) : Host.Outcome State Fault Refusal :=
  issue (s.sysGate [] false) h (useS []) (fun t => .stay (t.advance.haltCore 0 0 [])) s

/-! ### Pending traps, QUEUE, WATCHDOG (R52, R364, R366, R368, R378) -/

/-- TRAP_TAKEN in a stream of the core in focus. -/
def execTrapTaken (k : Strm) (s : State) : Host.Outcome State Fault Refusal := .next (s.trapTaken k)

/-- An asynchronous cause arises in the core in focus: pending in L, or held after a commit's first record (R378). -/
def State.raiseAsync (s : State) (t : Trap) : State :=
  match s.core.ctx with
  | some x => if x.written then s.mapCtx fun x => { x with heldTr := x.heldTr ++ [t] } else s.pendOn .l t
  | none => s

def Hold.code : Hold → Nat
  | .issuing | .other => 0
  | .ldq => 1
  | .sdq => 2
  | .bq => 3
  | .gate => 4
  | .endIns => 5
  | .defq => 6

def Hold.isQueue : Hold → Bool
  | .ldq | .sdq | .bq | .defq => true
  | _ => false

def Hold.counts : Hold → Bool
  | .issuing | .other => false
  | _ => true

/-- All three streams are held, one of them on a queue (R52); not while a meeting waits for completion. -/
def Core.queueHeld (c : Core) : Bool :=
  c.l.hold.counts && c.c.hold.counts && c.s.hold.counts && (c.l.hold.isQueue || c.c.hold.isQueue || c.s.hold.isQueue)

/-- QUEUE in the first stream that is stalled on a queue. -/
def State.queueTrap (s : State) : State :=
  let c := s.core
  match [Strm.l, .c, .s].find? fun k => (c.strm k).hold.isQueue with
  | none => s
  | some k =>
    let x := c.strm k
    let info := c.l.hold.code + c.c.hold.code * 16 + c.s.hold.code * 256
    let t : Trap := { Trap.of .queue with
      word := BitVec.ofNat 2 x.npfx
      inHnd := x.hnd
      ipc := x.pc
      info := BitVec.ofNat 32 info }
    ({ s with core := { c with heldClk := 0 }, who := k } : State).raise t

def execQueueStallExpiry (s : State) : Host.Outcome State Fault Refusal :=
  .next (if s.core.queueHeld && decide (2 ^ 20 ≤ s.core.heldClk) then s.queueTrap else s)

/-- WATCHDOG: ELAPSED has reached a nonzero LIMIT. It is raised once for a LIMIT; a write of LIMIT lets it be raised again (log
entry 63). -/
def State.watchdogFire (s : State) : State :=
  if s.core.ctx.any (fun x => !x.wdRaised) && s.core.wdlim != 0 && decide (s.core.wdlim.toNat ≤ s.elapsed) then
    (s.mapCtx fun x => { x with wdRaised := true }).raiseAsync { Trap.of .watchdog with ipc := s.core.l.pc }
  else s

def execWatchdog (s : State) : Host.Outcome State Fault Refusal := .next s.watchdogFire

end Sys2Proof.Machine
end

