-- ==== Sys2Proof/Machine/Image.lean ====
section
/-!
DEFINITION. The context image: its bytes, its checks, and the core that it restores (R59, R66, R223, R387, R399 to R406).
-/

namespace Sys2Proof.Machine

/-! ### Codes -/

def allCauses : List Cause :=
  [.illegal, .stream, .priv, .prefx, .align, .capfault, .pagefault, .perm, .atomscope, .promise, .logfull, .abft, .poison,
    .ownership, .queue, .xspill, .launch, .semovf, .trap, .preempt, .ue, .watchdog]

def causeOf (n : Nat) : Option Cause := allCauses.find? fun c => c.code = n

/-- Set n bytes of a list to a number. -/
def imgPut (bs : List Byte) (off n v : Nat) : List Byte := bytesSet bs off (natLe n v)

def putBlob (bs : List Byte) (e : Nat × List Byte) : List Byte := bytesSet bs e.1 e.2

/-! ### Stream blocks (R403) -/

/-- Sixteen result entries, then the filled bits and the count. -/
def rqImage (rq : List (Nat × Option Word)) : List Byte :=
  let vals := (List.range 16).map fun k => ((rq.getD k (0, none)).2).getD 0
  let filled := (List.range 16).foldl (fun n k => if ((rq.getD k (0, none)).2).isSome then n + 2 ^ k else n) 0
  (vals.flatMap fun v => natLe 8 v.toNat) ++ natLe 8 (filled + rq.length * 2 ^ 16)

/-- Three loop levels: counter, count, body start, body end; loops stand innermost first. -/
def loopImage (lc : Vector (BitVec 32) 3) (loops : List LoopLvl) : List Byte :=
  (List.finRange 3).flatMap fun k =>
    let v := loops.reverse.getD k.val ⟨0, 0, 0⟩
    natLe 4 lc[k].toNat ++ natLe 4 v.count.toNat ++ natLe 4 v.start.toNat ++ natLe 4 v.stop.toNat

/-- LACT, one bit per active level, and LBV. -/
def lactWord (loops : List LoopLvl) (lbv : Bool) : Nat := 2 ^ loops.length - 1 + natOfBool lbv * 8

def predWord (p : Vector Bool 8) : Nat :=
  (List.finRange 8).foldl (fun n k => if k.val = 0 then n else n + natOfBool p[k] * 2 ^ (k.val - 1)) 0

def secWord (begun retired : BitVec 12) : Nat := begun.toNat * 2 ^ 32 + retired.toNat * 2 ^ 44

/-- HSAVE: what a handler's entry saved. -/
def Saved.image (z : Saved) : List Byte :=
  rqImage z.rq ++ natLe 8 (predWord z.p) ++ loopImage z.lc z.loops ++ natLe 8 (lactWord z.loops z.lbv) ++
    natLe 8 (secWord z.begun z.retired / 2 ^ 32)

/-- A pending trap in eight bytes. -/
def Trap.image (t : Trap) : Nat := t.cause.code + t.info.toNat % 2 ^ 24 * 2 ^ 8 + 2 ^ 63

/-- Does a pending trap stand in its stream's block? That of a faulted engine command stands in the command's record; the command
of a SEMOVF is complete (R400, R403). -/
def Trap.inBlock (t : Trap) : Bool := !t.eng || t.cause = .semovf

/-- The first n pending traps in the order in which they would be taken (R368). -/
def firstTraps : Nat → List Trap → List Trap
  | 0, _ => []
  | n + 1, l =>
    match minBy Trap.before l with
    | some t => t :: firstTraps n (l.erase t)
    | none => []

/-- The 768 bytes of a stream. -/
def Stream.image (x : Stream) : List Byte :=
  let z := List.replicate 768 (0 : Byte)
  let z := imgPut z 0x000 8 (x.pc.toNat + secWord x.begun x.retired)
  let z := imgPut z 0x008 8 (x.shdr.toNat + x.slen.toNat * 2 ^ 32 + natOfBool x.insec * 2 ^ 48)
  let z := putBlob z (0x010, x.n.toList.flatMap fun v => natLe 8 v.toNat)
  let z := putBlob z (0x090, rqImage x.rq)
  let z := imgPut z 0x118 8 (predWord x.p + natOfBool x.hnd * 2 ^ 8 + natOfBool x.stopo * 2 ^ 9)
  let z := putBlob z (0x120, loopImage x.lc x.loops)
  let z := imgPut z 0x150 8 (lactWord x.loops x.lbv)
  let z := imgPut z 0x158 4 ((List.finRange 8).foldl (fun n k => n + x.sb[k].val * 16 ^ k.val) 0)
  let z := imgPut z 0x160 8 (natOfBool x.asleep.isSome)
  let z := imgPut z 0x168 8 ((x.asleep.map fun y => y.opnd.toNat).getD 0)
  let z := putBlob z (0x170, ((firstTraps 4 (x.pend.filter Trap.inBlock)).map Trap.image).flatMap (natLe 8))
  let z := imgPut z 0x190 8 x.astat.toNat
  let z := putBlob z (0x1A0, x.tf.toList.flatMap fun v => natLe 8 v.toNat)
  match x.hnd, x.saved with
  | true, some y => putBlob z (0x220, y.image)
  | _, _ => z

/-! ### Queues -/

/-- Ring entries of a data queue: entry i of the ring holds the value. An entry still unfilled has a free value. -/
def DataQ.image (q : DataQ) (free : Nat) : List Byte :=
  let ents := q.ents.zipIdx.map fun (e, i) => ((q.head + i) % 32, e.val.getD (Config.freeValue (free + i)))
  (List.range 32).flatMap fun k => natLe 8 (((ents.find? fun e => e.1 = k).map fun e => e.2.toNat).getD 0)

def BitQ.word (q : BitQ) : Nat :=
  q.head + q.ents.length * 16 +
    q.ents.zipIdx.foldl (fun n ((b, _), i) => n + natOfBool b * 2 ^ (16 + (q.head + i) % 16)) 0

/-! ### Engine records (R404) -/

/-- A matrix-engine record. A product has its suspend record when it has begun, or goes on from a K group when it begins. -/
def MCmd.image (m : MCmd) : List Byte :=
  let z := List.replicate 128 (0 : Byte)
  let z := match m.product with
    | some o => if m.begun || m.kp != 0 then putBlob z (0, (m.srec o m.kp).flatMap fun w => natLe 8 w.toNat) else z
    | none => z
  let z := imgPut z 64 12 m.iw.toNat
  let z := imgPut z 77 1 (natOfBool m.begun + natOfBool m.fault.isSome * 2 + ((m.fault.map Cause.code).getD 0) * 4)
  let z := putBlob z (80, m.d.toList.flatMap fun w => natLe 8 w.toNat)
  imgPut z 112 4 m.ipc.toNat

/-- A copy-engine record. A DRAFT counts as begun when its entry is written: one that waits for the ring begins again. -/
def CCmd.image (m : CCmd) : List Byte :=
  let z := List.replicate 384 (0 : Byte)
  let z := imgPut z 0 8 (m.wbase + m.count % 2 ^ 32 * 2 ^ 32)
  let z := imgPut z 8 8 m.mask
  let z := imgPut z 16 8 m.status
  let z := imgPut z 24 8 m.prom.toNat
  let z := imgPut z 64 12 m.iw.toNat
  let z := imgPut z 76 1 (Strm.num m.strm)
  let begun := m.begun && (m.op != .draft || !m.lay.isEmpty)
  let z := imgPut z 77 1 (natOfBool begun + natOfBool m.fault.isSome * 2 + natOfBool m.slot.isSome * 4 +
    ((m.slot.map (·.val)).getD 0) * 8)
  let z := putBlob z (128, m.comp)
  let z := putBlob z (80, m.d.toList.flatMap fun w => natLe 8 w.toNat)
  imgPut z 112 4 m.ipc.toNat

/-- A checksum-slot record (R405). -/
def ckImage (k : Fin 8) (v : CkSlot) : List Byte :=
  natLe 8 k.val ++ natLe 8 v.reg.toNat ++
    (v.csCol ++ v.abCol ++ v.csRow ++ v.abRow).flatMap fun x => natLe 4 x.toNat

/-! ### The image (R402, R405) -/

/-- The ranges that an image carries: tile ranges, then accumulator ranges; everything when DECL is clear. -/
def StepCtx.imageRanges (x : StepCtx) : List LiveRange :=
  if x.declB then x.decl.filter (fun r => !r.acc) ++ x.decl.filter (·.acc) else [⟨false, 0, 1024⟩, ⟨true, 0, 524288⟩]

/-- KiB of accumulators that an image is charged (R387). -/
def StepCtx.imageKib (x : StepCtx) : Nat :=
  if x.declB then (x.decl.filter (·.acc)).foldl (fun n r => n + Sys2Proof.Machine.accKib r.count) 0 else 2048

def Core.imageVar (c : Core) (x : StepCtx) : List Byte :=
  x.imageRanges.flatMap c.rangeImage ++ (c.defq.flatMap fun e => natLe 16 e.data.toNat ++ natLe 8 e.tag.toNat) ++
    c.mtx.q.flatMap MCmd.image ++ c.copy.flatMap CCmd.image ++ c.mtx.slots.flatMap fun e => ckImage e.1 e.2

/-- Seal each capability register as CST does. -/
def State.sealAll (s : State) : State × List Byte :=
  (List.finRange 16).foldl (fun (p : State × List Byte) k =>
    match p.1.core.caps[k] with
    | none => (p.1, p.2 ++ natLe 16 0)
    | some c =>
      let (b, s) := p.1.sealCap c
      (s, p.2 ++ natLe 16 b.toNat)) (s, [])

/-- The 64-bit fields of the header, by offset. -/
def State.imageWords (s : State) (x : StepCtx) (imgb : Nat) : List (Nat × Nat) :=
  let c := s.core
  let g := s.log? x.log
  let open_ := (g.bind fun g => g.bills.getLast?).filter fun b => !b.isSealed
  let rs := x.imageRanges
  let nacc := (rs.filter (·.acc)).length
  let w := x.watch
  [(0x000, 1 + imgb * 2 ^ 32), (0x008, x.va % 2 ^ 57), (0x010, x.tenant.toNat + x.region.toNat * 2 ^ 16 + x.log.toNat * 2 ^ 32),
    (0x018, rs.length - nacc + nacc * 2 ^ 4 + natOfBool x.declB * 2 ^ 8 + natOfBool c.chk * 2 ^ 9 + c.mtx.q.length * 2 ^ 16 +
      c.copy.length * 2 ^ 20 + c.mtx.slots.length * 2 ^ 25 + c.defq.length * 2 ^ 32),
    (0x020, x.hzn.length),
    (0x028, (w.map fun w => w.va % 2 ^ 57 + 2 ^ 63).getD 0), (0x030, (w.map fun w => w.cmp.toNat).getD 0),
    (0x038, x.lrel.stamp.toNat), (0x040, x.lrel.hi.toNat), (0x048, x.lrstat.toNat),
    (0x050, ((open_.map fun b => b.seg % 2 ^ 16 + b.used % 2 ^ 16 * 2 ^ 16).getD 0) + ((g.map fun g => g.nrec.toNat).getD 0) * 2 ^ 32),
    (0x058, c.mtx.seq.toNat + c.mtx.cmpl.toNat * 2 ^ 32),
    (0x060, (x.ntag - 1).toNat + ((x.firing.map fun f => f.rick % 2 ^ 11 * 2 ^ 16 + 2 ^ 31 + f.fired % 2 ^ 32 * 2 ^ 32).getD 0)),
    (0x068, s.elapsed), (0x070, (x.hcst.map BitVec.toNat).getD 0),
    (0x680, c.ldq.head + c.ldq.ents.length * 2 ^ 5), (0x688, c.sdq.head + c.sdq.ents.length * 2 ^ 5),
    (0x6D0, x.smp.seed.toNat), (0x6D8, x.smp.displo.toNat), (0x6E0, x.smp.disphi.toNat), (0x6E8, x.smp.hndlc.toNat),
    (0x6F0, x.smp.hndls.toNat + x.smp.wdlim.toNat * 2 ^ 32)]

/-- The bytes of the image of the step of the core in focus. -/
def State.imageOf (s : State) (x : StepCtx) : State × List Byte :=
  let (s, caps) := s.sealAll
  let c := s.core
  let var := c.imageVar x
  let imgb := (0x1800 + var.length + 63) / 64 * 64
  let z := (s.imageWords x imgb).foldl (fun z e => imgPut z e.1 8 e.2) (List.replicate 0x1800 (0 : Byte))
  let blobs : List (Nat × List Byte) := [
    (0x080, x.hzn.flatMap fun e => natLe 4 e.1.toNat ++ natLe 2 e.2.toNat ++ [0, 0]), (0x180, caps),
    (0x280, (List.range 256).flatMap fun v => natLe 2 (c.sem (BitVec.ofNat 8 v))),
    (0x480, c.ldq.image s.free), (0x580, c.sdq.image (s.free + 32)),
    (0x690, c.bq.toList.flatMap fun q => natLe 8 q.word), (0x6C0, c.sh.toList.flatMap fun v => natLe 4 v.toNat),
    (0x700, c.l.image), (0xA00, c.c.image), (0xD00, c.s.image),
    (0x1000, (c.mreg.toList.drop 1).flatMap fun m => natLe 128 m.toNat)]
  let z := blobs.foldl putBlob z
  ({ s with free := s.free + 64 }, z ++ var ++ List.replicate (imgb - 0x1800 - var.length) 0)

/-! ### Reading an image (R406) -/

/-- Counts and reserved places of the stream block at an offset. -/
def blockHdrOk (h : List Byte) (b : Nat) : Bool :=
  let f (off lo w : Nat) : Nat := bitsOf (bytesNat h (b + off) 8) lo w
  f 0 56 8 = 0 && f 8 49 15 = 0 && decide (f 0x110 16 5 ≤ 16) && f 0x110 21 43 = 0 && f 0x118 7 1 = 0 && f 0x118 10 54 = 0 &&
    f 0x150 4 60 = 0 && f 0x158 32 32 = 0 && f 0x160 4 60 = 0 &&
    (List.range 4).all (fun k => f (0x170 + 8 * k) 6 2 = 0 && f (0x170 + 8 * k) 32 31 = 0) && bytesNat h (b + 0x198) 8 = 0 &&
    decide (f 0x2A0 16 5 ≤ 16) && bytesNat h (b + 0x2F0) 16 = 0

/-- The header checks: FORMAT, counts, reserved bytes. A reserved bit beside assigned ones in a byte counts as one of a reserved
byte (DESIGN CHOICE, log entry 109). -/
def imageHdrOk (h : List Byte) : Bool :=
  let f (off lo w : Nat) : Nat := bitsOf (bytesNat h off 8) lo w
  f 0 0 16 = 1 && f 0 16 16 = 0 && f 8 57 7 = 0 && decide (f 0x18 0 4 ≤ 8) && decide (f 0x18 4 4 ≤ 8) && f 0x18 10 6 = 0 &&
    decide (f 0x18 16 4 ≤ 8) && decide (f 0x18 20 5 ≤ 16) && decide (f 0x18 25 4 ≤ 8) && f 0x18 29 3 = 0 &&
    decide (f 0x18 32 13 ≤ 4096) && f 0x18 45 19 = 0 && decide (bytesNat h 0x20 8 ≤ 32) && f 0x28 57 6 = 0 &&
    f 0x48 4 60 = 0 && f 0x60 27 4 = 0 && f 0x68 32 32 = 0 && bytesNat h 0x78 8 = 0 && f 0x680 11 53 = 0 && f 0x688 11 53 = 0 &&
    (List.range 6).all (fun k => f (0x690 + 8 * k) 9 7 = 0 && f (0x690 + 8 * k) 32 32 = 0) && bytesNat h 0x6F8 8 = 0 &&
    (List.range 32).all (fun k => bytesNat h (0x86 + 8 * k) 2 = 0) && bytesNat h 0x1780 128 = 0 && decide (f 0x680 5 6 ≤ 32) &&
    decide (f 0x688 5 6 ≤ 32) &&
    (List.range 6).all (fun k => decide (f (0x690 + 8 * k) 4 5 ≤ 16)) && blockHdrOk h 0x700 && blockHdrOk h 0xA00 && blockHdrOk h 0xD00

/-- The descriptor of a range, none when it is malformed. -/
def rangeOf (acc : Bool) (w : Nat) : Option LiveRange :=
  let r : LiveRange := if acc then ⟨true, bitsOf w 0 19, bitsOf w 19 20⟩ else ⟨false, bitsOf w 0 10, bitsOf w 10 11⟩
  let lim := if acc then 524288 else 1024
  if r.word = w && r.count != 0 && decide (r.first + r.count ≤ lim) then some r else none

/-- A piece of an image that a read cannot give, or that breaks a check. -/
inductive ImgBad where
  | malformed | unreadable
  deriving DecidableEq, Repr

/-- Walk n range descriptors from an offset: the ranges with the offsets of their contents, and the offset after them. -/
def walkRanges (rd : Nat → Nat → Option Nat) (acc : Bool) : Nat → Nat → Except ImgBad (List (LiveRange × Nat) × Nat)
  | 0, off => .ok ([], off)
  | n + 1, off =>
    match rd off 8 with
    | none => .error .unreadable
    | some w =>
      match rangeOf acc w with
      | none => .error .malformed
      | some r =>
        match walkRanges rd acc n (off + 8 + r.bytes) with
        | .ok (l, e) => .ok ((r, off + 8) :: l, e)
        | .error e => .error e

/-- Walk n checksum-slot records: slot, region word, offset of the values, columns, rows, whether INT. -/
def walkSlots (rd : Nat → Nat → Option Nat) : Nat → Nat → Except ImgBad (List (Fin 8 × Nat × Region) × Nat)
  | 0, off => .ok ([], off)
  | n + 1, off =>
    match rd off 8, rd (off + 8) 8 with
    | some k, some w =>
      match regionOf (BitVec.ofNat 64 w) false with
      | none => .error .malformed
      | some r =>
        match walkSlots rd n (off + 16 + 4 * (r.n + r.m) * (if r.int then 1 else 2)) with
        | .ok (l, e) => .ok ((Fin.ofNat 8 k, off + 16, r) :: l, e)
        | .error e => .error e
    | _, _ => .error .unreadable

/-- The parts of an image, by their offsets. -/
structure ImgParts where
  ranges : List (LiveRange × Nat)
  defOff : Nat
  mtxOff : Nat
  cpyOff : Nat
  slots  : List (Fin 8 × Nat × Region)
  deriving DecidableEq, Repr

/-- With DECL clear an image carries every tile and every accumulator (R405). -/
def declOk (h : List Byte) (rs : List LiveRange) : Bool := bitOf (bytesNat h 0x18 8) 8 || rs = [⟨false, 0, 1024⟩, ⟨true, 0, 524288⟩]

/-- The parts that the header's counts name; their end must be IMGB. -/
def imageParts (h : List Byte) (rd : Nat → Nat → Option Nat) : Except ImgBad ImgParts :=
  let f (lo w : Nat) : Nat := bitsOf (bytesNat h 0x18 8) lo w
  match walkRanges rd false (f 0 4) 0x1800 with
  | .error e => .error e
  | .ok (ts, off) =>
    match walkRanges rd true (f 4 4) off with
    | .error e => .error e
    | .ok (as_, d) =>
      let m := d + 24 * f 32 13
      let c := m + 128 * f 16 4
      let k := c + 384 * f 20 5
      match walkSlots rd (f 25 4) k with
      | .error e => .error e
      | .ok (ss, off) =>
        if (off + 63) / 64 * 64 = bytesNat h 4 4 && declOk h ((ts ++ as_).map (·.1)) then .ok ⟨ts ++ as_, d, m, c, ss⟩ else .error .malformed

/-! ### Restoring streams and queues (R403) -/

/-- Result entries, numbered from a number on so that the oldest has it. -/
def rqOf (bs : List Byte) (off base : Nat) : List (Nat × Option Word) :=
  let w := bytesNat bs (off + 128) 8
  let n := min 16 (bitsOf w 16 5)
  (List.range n).map fun k => (base + (n - 1 - k), if bitOf w k then some (BitVec.ofNat 64 (bytesNat bs (off + 8 * k) 8)) else none)

/-- Loops, innermost first. -/
def loopsOf (bs : List Byte) (off lact : Nat) : List LoopLvl :=
  let n := if bitOf lact 2 then 3 else if bitOf lact 1 then 2 else if bitOf lact 0 then 1 else 0
  ((List.range n).map fun k =>
    let b := off + 16 * k
    (⟨BitVec.ofNat 32 (bytesNat bs (b + 4) 4), BitVec.ofNat 32 (bytesNat bs (b + 8) 4), BitVec.ofNat 32 (bytesNat bs (b + 12) 4)⟩ : LoopLvl)).reverse

def lcOf (bs : List Byte) (off : Nat) : Vector (BitVec 32) 3 := Vector.ofFn fun k => BitVec.ofNat 32 (bytesNat bs (off + 16 * k.val) 4)

def predsOf (w : Nat) : Vector Bool 8 := Vector.ofFn fun k => if k.val = 0 then false else bitOf w (k.val - 1)

def wordsOf (n : Nat) (bs : List Byte) (off : Nat) : Vector Word n := Vector.ofFn fun k => BitVec.ofNat 64 (bytesNat bs (off + 8 * k.val) 8)

/-- The trap that a frame tells of, with the result entries it left unfilled. -/
def trapOfFrame (tf : Vector Word 16) (rq : List (Nat × Option Word)) : Trap :=
  { Trap.of ((causeOf (bitsOf tf[0].toNat 0 6)).getD .trap) with
    defd := tf[0].getLsbD 8
    eng := tf[0].getLsbD 9
    mtx := tf[0].getLsbD 10
    tag := tf[0].extractLsb' 16 16
    fill := (rq.filter fun e => e.2.isNone).map (·.1) }

/-- A pending trap of the block of a stream; a SEMOVF is of an engine command, the matrix engine's in stream C (log entry 21). -/
def pendOf (k : Strm) (w : Nat) (fill : List Nat) (seq : Nat) : Option Trap :=
  if !bitOf w 63 then none
  else (causeOf (bitsOf w 0 6)).map fun c => { Trap.of c with
    defd := c != .ue && c != .watchdog
    eng := c = .semovf
    mtx := c = .semovf && k = .c
    info := BitVec.ofNat 32 (bitsOf w 8 24)
    fill := fill
    seq := seq }

/-- Stream k of a block. Result entries have numbers of their own in the queue that a handler saved and in its own (R47, R374). -/
def streamOf (k : Strm) (bs : List Byte) : Stream :=
  let f (off lo w : Nat) : Nat := bitsOf (bytesNat bs off 8) lo w
  let hnd := f 0x118 8 1 = 1
  let hrq := if hnd then rqOf bs 0x220 0 else []
  let rq := rqOf bs 0x90 hrq.length
  let fill := (rq.filter fun e => e.2.isNone).map (·.1)
  let begun : BitVec 12 := BitVec.ofNat 12 (f 0 32 12)
  let retired : BitVec 12 := BitVec.ofNat 12 (f 0 44 12)
  let tf := wordsOf 16 bs 0x1A0
  let saved : Saved := ⟨hrq, predsOf (bytesNat bs 0x2A8 8), lcOf bs 0x2B0, loopsOf bs 0x2B0 (bytesNat bs 0x2E0 8),
    f 0x2E0 3 1 = 1, BitVec.ofNat 12 (f 0x2E8 0 12), BitVec.ofNat 12 (f 0x2E8 12 12), none, some (trapOfFrame tf hrq), none⟩
  { Stream.reset with
    n := wordsOf 16 bs 0x10, p := predsOf (bytesNat bs 0x118 8), rq := rq, rqN := hrq.length + rq.length, lc := lcOf bs 0x120
    loops := loopsOf bs 0x120 (bytesNat bs 0x150 8), lbv := f 0x150 3 1 = 1
    sb := Vector.ofFn fun k => Fin.ofNat 16 (f 0x158 (4 * k.val) 4), pc := BitVec.ofNat 32 (f 0 0 32), begun := begun
    retired := retired, shdr := BitVec.ofNat 32 (f 8 0 32), slen := BitVec.ofNat 16 (f 8 32 16), insec := f 8 48 1 = 1
    secs := if begun = retired then [] else [⟨1, begun, false⟩], serial := 1
    asleep := if f 0x160 0 4 = 1 then some ⟨0, BitVec.ofNat 64 (bytesNat bs 0x168 8), 0, 0, none⟩ else none
    pend := (List.range 4).filterMap fun i => pendOf k (bytesNat bs (0x170 + 8 * i) 8) (if i = 0 then fill else []) i
    hnd := hnd, stopo := f 0x118 9 1 = 1, tf := tf, saved := if hnd then some saved else none
    astat := BitVec.ofNat 64 (bytesNat bs 0x190 8) }

def dataQOf (bs : List Byte) (off hoff : Nat) : DataQ :=
  let h := bytesNat bs hoff 8
  let head := bitsOf h 0 5
  ⟨(List.range (min 32 (bitsOf h 5 6))).map fun i =>
    (⟨some (BitVec.ofNat 64 (bytesNat bs (off + 8 * ((head + i) % 32)) 8)), false, 0⟩ : QEnt), head⟩

def bitQOf (w : Nat) : BitQ :=
  let head := bitsOf w 0 4
  ⟨(List.range (min 16 (bitsOf w 4 5))).map fun i => (bitOf w (16 + (head + i) % 16), false), head⟩

/-! ### Restoring engines (R404) -/

/-- The copy command that a word stands for. -/
def copyOpOf : Instr → Option (CopyOp × EHdr)
  | .cpy _ o => some (.cpy, o.e)
  | .cpyn _ o => some (.cpyn, o.e)
  | .cpyt _ c o => some (.cpyt c, o.e)
  | .cgath _ o => some (.cgath, o.e)
  | .cscat _ o => some (.cscat, o.e)
  | .cfill _ o => some (.cfill, o.e)
  | .cred _ o => some (.cred, o.e)
  | .credc _ o => some (.credc, o.e)
  | .ccoll _ o => some (.ccoll, o.e)
  | .cbget _ o => some (.cbget, o.e)
  | .draft _ o => some (.draft, o.e)
  | _ => none

/-- The matrix command that a word stands for, with the slot it set. -/
def mtxOpOf : Instr → Option (MtxOp × EHdr × Option (Fin 8))
  | .mma h ck o => some (.mma false ck, o.e, h.set)
  | .mmaz h ck o => some (.mma true ck, o.e, h.set)
  | .azero h e _ => some (.azero, e, h.set)
  | .adrain h ck o => some (.adrain ck, o.e, h.set)
  | .aload h o => some (.aload, o.e, h.set)
  | .aacc h o => some (.aacc, o.e, h.set)
  | .mcksumOpen h k e _ => some (.ckOpen k, e, h.set)
  | .mcksumClose h k e => some (.ckClose k, e, h.set)
  | _ => none

def instrAt (bs : List Byte) (off : Nat) : Option Instr :=
  match decodeWord (wordOfBytes ((bs.drop off).take 12)) with
  | .ok i => some i
  | .error _ => none

def words4At (bs : List Byte) (off : Nat) : Vector Word 4 := wordsOf 4 bs off

/-- A matrix-engine record; seq is its command's number, acc its place in the order of acceptance. A command that goes on from a K
group has waited already. -/
def mcmdOf (bs : List Byte) (off : Nat) (seq : BitVec 32) (own : Bool) (acc : Nat) : Option MCmd :=
  (instrAt bs (off + 64)).bind fun i => (mtxOpOf i).map fun (op, e, slot) =>
    let fl := bytesNat bs (off + 77) 1
    let kp := bytesNat bs (off + 26) 2
    let e := if bitOf fl 0 || kp != 0 then { e with wthr := 0 } else e
    { op := op, iw := BitVec.ofNat 96 (bytesNat bs (off + 64) 12), slot := slot, e := e, d := words4At bs (off + 80)
      ipc := BitVec.ofNat 32 (bytesNat bs (off + 112) 4), seq := seq, begun := bitOf fl 0
      fault := if bitOf fl 1 then causeOf (bitsOf fl 2 6) else none, kp := kp, own := own, acc := acc }

/-- The copy engine's record, with what was kept beside it. A command that had begun has waited already. -/
def ccmdOf (bs : List Byte) (off : Nat) (held : List HeldCopy) (since : BitVec 64) (acc : Nat) : Option CCmd :=
  (instrAt bs (off + 64)).bind fun i => (copyOpOf i).map fun (op, e) =>
    let fl := bytesNat bs (off + 77) 1
    let st := bytesNat bs (off + 16) 8
    let wb := bytesNat bs off 4
    let mask := bytesNat bs (off + 8) 8
    let begun := bitOf fl 0
    let z := (held.find? fun z => z.tag.toNat = bitsOf st 48 16).getD ⟨0, 0, 0, [], []⟩
    let strm : Strm := match bytesNat bs (off + 76) 1 % 4 with
      | 0 => .l
      | 1 => .c
      | _ => .s
    { op := op, iw := BitVec.ofNat 96 (bytesNat bs (off + 64) 12), strm := strm
      slot := if bitOf fl 2 then some (Fin.ofNat 8 (bitsOf fl 3 3)) else none
      e := if begun then { e with wthr := 0 } else e, d := words4At bs (off + 80), tag := BitVec.ofNat 16 (bitsOf st 48 16)
      prom := BitVec.ofNat 64 (bytesNat bs (off + 24) 8), ipc := BitVec.ofNat 32 (bytesNat bs (off + 112) 4), entry := z.ent
      begun := begun, done := bitOf fl 1, fault := if bitOf fl 1 then causeOf (bitsOf st 2 6) else none, fva := 0
      wbase := wb, marks := (List.range 64).filterMap fun k => if bitOf mask k then some (wb + k) else none, unit := wb
      seen := z.seen, lay := if op = .draft && begun then [1] else [], idx := 0, wins := [], hide := z.hide, pins := z.pins
      since := since, acc := acc
      comp := if op = .credc && (bytesNat bs (off + 128) 196 != 0) then (bs.drop (off + 128)).take 196 else [], old := [] }

/-- A checksum slot. -/
def ckSlotOf (bs : List Byte) (e : Fin 8 × Nat × Region) : Fin 8 × CkSlot :=
  let (k, off, r) := e
  let take (at_ n : Nat) : List (BitVec 32) := (List.range n).map fun i => BitVec.ofNat 32 (bytesNat bs (at_ + 4 * i) 4)
  let na := if r.int then 0 else r.n
  let nb := if r.int then 0 else r.m
  (k, ⟨BitVec.ofNat 64 (bytesNat bs (off - 8) 8), take off r.n, take (off + 4 * r.n) na, take (off + 4 * (r.n + na)) r.m,
    take (off + 4 * (r.n + na + r.m)) nb⟩)

/-! ### Restoring the core -/

/-- Where the work of a pre-empted continuation's collectives and drafts is kept until it has a core again. -/
def parkedCore (pa : Nat) : Nat := 0x100000 + pa

/-- Rename the core that collectives and drafts report to. -/
def State.moveWork (s : State) (a b : Nat) : State :=
  let part (p : CollPart) : CollPart := match p.core with
    | some (n, tag) => if n = a then { p with core := some (b, tag) } else p
    | none => p
  { s with
    colls := s.colls.map fun c => { c with parts := c.parts.map part }
    drafts := s.drafts.map fun (j : DraftJob) => if j.core = a then { j with core := b } else j }

/-- A core takes a step of a tenant: another tenant's tiles, accumulators and weights are zeroed (R59). -/
def Core.forTenant (c : Core) (ten : BitVec 16) : Core :=
  if c.lastTen = some ten then c else { c with tile := [], accs32 := [], wb := [], wbTag := none, lastTen := some ten }

/-- Store the contents of a range. -/
def Core.loadRange (c : Core) (r : LiveRange) (bs : List Byte) : Core :=
  if r.acc then { c with accs32 := c.accs32.store (4 * r.first) (bs.take (4 * r.count)) }
  else { c with tile := c.tile.store (1024 * r.first) (bs.take (1024 * r.count)) }

/-- The capabilities of an image, as written. -/
def State.capsOf (s : State) (bs : List Byte) : Vector (Option Cap) 16 := Vector.ofFn fun k =>
  let n := bytesNat bs (0x180 + 16 * k.val) 16
  if n = 0 then none else s.unsealCap (BitVec.ofNat 128 n)

/-- The streams that a handler's STOPO stopped stay stopped (R372). -/
def Core.reparks (c : Core) : Core :=
  let p (k : Strm) (c : Core) : Core := if (c.strm k).hnd && (c.strm k).stopo then c.parkOthers k else c
  p .l (p .c (p .s c))

/-- The step that an image describes, for the continuation k, with the fault domain and slices of its dispatch (R21). -/
def State.ctxOf (s : State) (bs : List Byte) (ps : ImgParts) (k : Cont) : StepCtx :=
  let f (off lo w : Nat) : Nat := bitsOf (bytesNat bs off 8) lo w
  let reg := f 0x10 16 16
  let decl := f 0x18 8 1 = 1
  let reg_ := s.waits.find? fun w => w.crec = some k.pa
  let held := k.held.getD ⟨BitVec.ofNat 16 (s.effFdom reg), 0, []⟩
  let w32 (off : Nat) : BitVec 32 := BitVec.ofNat 32 (bytesNat bs off 4)
  let w64 (off : Nat) : Word := BitVec.ofNat 64 (bytesNat bs off 8)
  let smp : Sampled := ⟨w64 0x6D0, w64 0x6D8, w64 0x6E0, w64 0x6E8, w32 0x6F0, w32 0x6F4, held.sgrant⟩
  let watch : Option Watch := if f 0x28 63 1 = 0 then none else some (match reg_ with
    | some w => ⟨f 0x28 0 57, w.addr, BitVec.ofNat 64 (bytesNat bs 0x30 8), false⟩
    | none => ⟨f 0x28 0 57, 0, BitVec.ofNat 64 (bytesNat bs 0x30 8), true⟩)
  { va := k.va, base := { k with state := .running, wkind := 0, wopnd := 0 }, tenant := BitVec.ofNat 16 (f 0x10 0 16)
    region := BitVec.ofNat 16 reg, fdom := held.fdom, smp := smp, log := BitVec.ofNat 32 (f 0x10 32 32)
    ftok := k.ftoken, seq := k.stepseq, depth := k.depth
    lrel := ⟨BitVec.ofNat 64 (bytesNat bs 0x38 8), BitVec.ofNat 64 (bytesNat bs 0x40 8)⟩, lrstat := BitVec.ofNat 4 (f 0x48 0 4)
    hzn := (List.range (min 32 (bytesNat bs 0x20 8))).map fun i =>
      (BitVec.ofNat 32 (bytesNat bs (0x80 + 8 * i) 4), BitVec.ofNat 16 (bytesNat bs (0x84 + 8 * i) 2))
    hcst := if bytesNat bs 0x70 8 = 0 then none else some (BitVec.ofNat 64 (bytesNat bs 0x70 8)), watch := watch
    decl := if decl then ps.ranges.map (·.1) else [], declB := decl, firing := k.firing
    ntag := BitVec.ofNat 16 (f 0x60 0 16) + 1, accKib := k.imgKib, elapNs := f 0x68 0 32 * 1000
    wdRaised := false, written := false, heldTr := [] }

/-- The core in focus, idle, restored from an image for continuation k: running. -/
def State.restoreCore (s : State) (bs : List Byte) (ps : ImgParts) (k : Cont) : State :=
  let x := s.ctxOf bs ps k
  let c := s.core.forTenant x.tenant
  let f (off lo w : Nat) : Nat := bitsOf (bytesNat bs off 8) lo w
  let w32 (off : Nat) : BitVec 32 := BitVec.ofNat 32 (bytesNat bs off 4)
  let w64 (off : Nat) : Word := BitVec.ofNat 64 (bytesNat bs off 8)
  let nm := f 0x18 16 4
  let chk := f 0x18 9 1 = 1
  let mseq := w32 0x58
  let q := (List.range nm).filterMap fun i => mcmdOf bs (ps.mtxOff + 128 * i) (mseq - BitVec.ofNat 32 (nm - i)) chk (c.nextId + i)
  let held := (k.held.map (·.copies)).getD []
  let cp := (List.range (f 0x18 20 5)).filterMap fun i => ccmdOf bs (ps.cpyOff + 384 * i) held s.ftime (c.nextId + 8 + i)
  let sh : Vector (BitVec 32) 4 := Vector.ofFn fun k => w32 (0x6C0 + 4 * k.val)
  let mreg : Vector (BitVec 1024) 16 := Vector.ofFn fun k =>
    if k.val = 0 then 0 else BitVec.ofNat 1024 (bytesNat bs (0x1000 + 128 * (k.val - 1)) 128)
  let c := { c with
    phase := .running, l := streamOf .l ((bs.drop 0x700).take 768), c := streamOf .c ((bs.drop 0xA00).take 768)
    s := streamOf .s ((bs.drop 0xD00).take 768), ldq := dataQOf bs 0x480 0x680, sdq := dataQOf bs 0x580 0x688
    bq := Vector.ofFn fun k => bitQOf (bytesNat bs (0x690 + 8 * k.val) 8), accs := [], sh := sh, shS := sh, mreg := mreg
    mregS := mreg, caps := s.capsOf bs, ctx := some x, chk := chk, seed := w64 0x6D0, displo := w64 0x6D8, disphi := w64 0x6E0
    hndlc := w64 0x6E8, hndls := w32 0x6F0, wdlim := w32 0x6F4
    defq := (List.range (f 0x18 32 13)).map fun i =>
      (⟨BitVec.ofNat 128 (bytesNat bs (ps.defOff + 24 * i) 16), BitVec.ofNat 16 (bytesNat bs (ps.defOff + 24 * i + 16) 2)⟩ : DefEnt)
    mtx := ⟨q, ps.slots.map (ckSlotOf bs), mseq, w32 0x5C⟩
    copy := cp, cstat := [], fq := [], l1 := [], heldClk := 0, issued := false, asked := none, nextId := c.nextId + 32 }
  let c := (List.range 256).foldl (fun (c : Core) v => c.setSem (BitVec.ofNat 8 v) (bytesNat bs (0x280 + 2 * v) 2)) c
  let c := ps.ranges.foldl (fun (c : Core) e => c.loadRange e.1 ((bs.drop e.2).take e.1.bytes)) c
  { s with core := c.reparks }

/-- Sleeps get the mode of their SLEEP again; so does the sleep that a handler interrupted. -/
def State.resumeSleeps (s : State) : State :=
  let fix (s : State) (k : Strm) : State :=
    let s : State := { s with who := k }
    let x := s.cur
    let s := match x.asleep with
      | some z =>
        let (s, r) := s.sleepAt x.pc 3 0
        let (m, n, k) := r.getD (0, 0, none)
        s.mapCur fun x => { x with asleep := some { z with mode := m, npfx := n, since := s.cyc, set := k } }
      | none => s
    match x.saved with
    | some z =>
      if x.tf[0].getLsbD 14 then
        let (s, r) := s.sleepAt (x.tf[1].extractLsb' 0 32) 3 0
        let (m, n, k) := r.getD (0, 0, none)
        s.mapCur fun x => { x with saved := some { z with slp := some ⟨m, x.tf[6], n, s.cyc, k⟩ } }
      else s
    | none => s
  fix (fix (fix s .l) .c) .s

/-- Does the frame of a stream's handler tell of a faulted engine command? -/
def Stream.inFrame (x : Stream) (mtx : Bool) (tag : BitVec 16) : Bool :=
  x.hnd && x.tf[0].getLsbD 9 && (x.tf[0].getLsbD 10 = mtx) && (mtx || x.tf[0].extractLsb' 16 16 = tag)

/-- The unfilled result entries of a stream, the oldest first. -/
def Stream.unfilled (x : Stream) : List Nat :=
  ((((x.saved.map (·.rq)).getD []).reverse ++ x.rq.reverse).filter fun e => e.2.isNone).map (·.1)

/-- Is the command a DRAFT that has not filled its entry? -/
def CCmd.unfilled (m : CCmd) : Bool := m.op = .draft && m.lay.isEmpty

/-- What is kept of the copy commands of the core in focus beside their records. -/
def Core.heldCopies (c : Core) : List HeldCopy :=
  c.copy.map fun (m : CCmd) => ⟨m.tag, if m.unfilled then (c.strm m.strm).unfilled.idxOf m.entry else 0, m.seen, m.hide, m.pins⟩

/-- DRAFTs whose entry is not written find their own result entries again (R47); the other unfilled ones are what deferred traps
left so (DESIGN CHOICE, log entry 96). -/
def State.resumeDrafts (s : State) (k : Strm) : State :=
  let x := s.core.strm k
  let ms := s.core.copy.filter fun (m : CCmd) => m.unfilled && m.strm = k
  let pairs := ms.map fun m => (m, x.unfilled.getD m.entry x.rqN)
  let gone := (pairs.filter fun p => !(p.1.fault.isSome && x.inFrame false p.1.tag)).map (·.2)
  let rest (t : Trap) : Trap := { t with fill := t.fill.filter fun i => !gone.contains i }
  let x := { x with pend := x.pend.map rest, saved := x.saved.map fun z => { z with ent := z.ent.map rest } }
  let c := s.core.setStrm k x
  let own (m : CCmd) : CCmd := match pairs.find? fun p => p.1.tag = m.tag with
    | some p => { m with entry := p.2 }
    | none => m
  { s with core := { c with copy := c.copy.map own } }

/-- Faulted commands raise their engine traps again, as long as no frame tells of them (R370, R400). -/
def State.resumeFaults (s : State) : State :=
  let s := s.core.mtx.q.foldl (fun s m =>
    match m.fault with
    | some c =>
      if (s.core.strm .c).inFrame true 0 then s
      else s.pendOn .c { Trap.of c with
        eng := true
        defd := true
        mtx := true
        ipc := m.ipc
        info := BitVec.ofNat 32 m.kp
        aux := BitVec.ofNat 64 (s.core.mtx.status 0)
        srec := (m.product.map fun o => m.srec o m.kp).getD []
        seq := m.acc }
    | none => s) s
  s.core.copy.foldl (fun s m =>
    match m.fault with
    | some c => if (s.core.strm m.strm).inFrame false m.tag then s else s.copyTrap m c (if c = .poison then 5 else m.unit) m.status 0
    | none => s) s

/-- Commands find their windows, their layout and group records (R404), and the collective or draft that they had begun. -/
def State.resumeCopies (s : State) : State :=
  s.core.copy.foldl (fun s m =>
    let m := { m with wins := s.copyWins m.op m.d }
    let s := s.setCopy m
    if !m.begun then s
    else
      match m.op with
      | .cpyn =>
        match s.refRead m.d[2] 256 256 with
        | (s, .error _) => s.setCopy { m with begun := false }
        | (s, .ok a) =>
          match s.refRead m.d[3] 256 256 with
          | (s, .ok b) => s.setCopy { m with lay := a ++ b }
          | (s, .error _) => s.setCopy { m with begun := false }
      | .ccoll =>
        match s.refRead m.d[3] 64 64 with
        | (s, .ok bs) => s.setCopy { m with lay := bs }
        | (s, .error _) => s.setCopy { m with begun := false }
      | .draft =>
        match s.drafts.find? fun j => j.core = s.cid && j.tag = m.tag with
        | some j => s.setCopy { m with idx := j.idx.toNat }
        | none => s.finishCopy m
      | _ => s) s

/-- The open billet of the step's log is in the log buffer again (R401). -/
def State.reopenBillet (s : State) : State :=
  match s.log? s.logNum with
  | some g => s.setLog (if g.openFor 0 then g.mapLast fun b => { b with spilled := false } else g)
  | none => s

/-- The armed watch is the core's again (R223, R399). -/
def State.resumeWatch (s : State) (pa : Nat) : State :=
  { s with waits := s.waits.map fun w => if w.crec = some pa then { w with crec := none, core := s.cid } else w }

/-- Resume continuation k on the core in focus from its image. -/
def State.resumeStep (s : State) (bs : List Byte) (ps : ImgParts) (k : Cont) : State :=
  let who := s.who
  let s := (s.moveWork (parkedCore k.pa) s.cid).restoreCore bs ps k
  let s := s.setCont { k with state := .running, wkind := 0, wopnd := 0, imgKib := 0, held := none }
  let s := ((s.resumeDrafts .l).resumeDrafts .c).resumeDrafts .s
  let s := ((s.resumeWatch k.pa).reopenBillet.resumeFaults.resumeCopies).resumeSleeps
  { s with who := who }

/-! ### Reading an image through a tenant's tables -/

/-- n bytes at a virtual address, as a number: none when they cannot be read. -/
def State.imageNat (s : State) (ten va off n : Nat) : Option Nat := (s.peekVa ten (va + off) n).map leNat

/-- The checks of R406 and the whole range: the parts and the bytes, or the code of R382. -/
def State.readImage (s : State) (ten va : Nat) : State × Except Nat (ImgParts × List Byte) :=
  match s.peek ten va 0x1800 with
  | (s, none) => (s, .error 5)
  | (s, some h) =>
    let imgb := bytesNat h 4 4
    if !imageHdrOk h || imgb < 0x1800 then (s, .error 2)
    else
      match imageParts h (s.imageNat ten va) with
      | .error .malformed => (s, .error 2)
      | .error .unreadable => ((s.peek ten va imgb).1, .error 5)
      | .ok ps =>
        match s.peek ten va imgb with
        | (s, none) => (s, .error 5)
        | (s, some bs) => (s, .ok (ps, bs))

/-- The continuation that an image resumes: ready with WKIND 5 and this image (R401). -/
def State.claimOf (s : State) (bs : List Byte) (va : Nat) : Option Cont :=
  let w := bytesNat bs 0x10 8
  s.conts.find? fun c => c.va = bytesNat bs 8 8 && c.tenant.toNat = bitsOf w 0 16 && c.state = .ready && c.wkind = 5 &&
    c.wopnd.toNat = va / 64

/-! ### Draining and saving (R66, R275, R382, R399) -/

/-- Is the running product stopped already? -/
def Core.drained (c : Core) : Bool := c.phase = .drained

/-- MDRAIN on the core in focus: a running product stops at a K-group boundary, and completes where that is the one after its last
group (R456); another running command completes; the number of engine records. -/
def State.drainCore (s : State) : State × Nat :=
  let s := if s.core.drained then s
    else match s.core.mtx.running with
      | none => s
      | some m =>
        match m.product with
        | some o =>
          let (s, kp) := s.stopMma m o
          if kp = o.kg then s.finishMtx m
          else { s with core := { s.core with mtx := { s.core.mtx with q := { m with kp := kp } :: s.core.mtx.q.tail } } }
        | none => s.endMtx m
  ({ s with core := { s.core with phase := .drained } }, s.core.mtx.q.length)

/-- Every billet of the step goes to the log area, the open one too (R399). -/
def State.spillAll (s : State) : State :=
  match s.log? s.logNum with
  | none => s
  | some g => (g.bills.filter fun b => !b.spilled).foldl (fun s b =>
      (s.writeBillet g.num b).mapBillet g.num b.seg fun b => { b with spilled := true }) s

/-- The step of the core in focus is taken off it: the image stands at va, its continuation is ready with WKIND 5, its log
stays open, its watch registered. -/
def State.unload (s : State) (x : StepCtx) (va : Nat) : State :=
  let pa := x.base.pa
  let s := s.spillAll.moveWork s.cid (parkedCore pa)
  let armed (w : WaitEnt) : Bool := match x.watch with
    | some y => y.addr = w.addr && y.cmp = w.cmp
    | none => false
  let cid := s.cid
  let keep (w : WaitEnt) : Option WaitEnt :=
    if w.crec.isNone && w.core = cid then (if armed w then some { w with crec := some pa } else none) else some w
  let s := { s with waits := s.waits.filterMap keep }
  let kib := x.imageKib
  let s := s.uncharge x.region.toNat .cores 1
  let s := (s.uncharge x.region.toNat .acc x.accKib).charge x.region.toNat .acc kib
  let held : Held := ⟨x.fdom, x.smp.sgrant, s.core.heldCopies⟩
  let s := { s with core := s.core.vacate s.ftime }
  s.makeReady { x.baseCont with wkind := 5, wopnd := BitVec.ofNat 56 (va / 64), imgKib := kib, held := some held }

end Sys2Proof.Machine
end

