-- ==== Sys2Proof/Machine/Preempt.lean ====
section
/-!
DEFINITION. Pre-emption: PREEMPT, the stop, MDRAIN, CTXSV, CTXLD (R31, R379, R382, R399 to R401, R406).
-/

namespace Sys2Proof.Machine

/-- Run f with core n in focus. -/
def State.onCore (s : State) (n : Nat) (f : State → State) : State :=
  let home := s.cid
  (f (s.focus n)).focus home

/-! ### PREEMPT (R382, R399, R400) -/

/-- The code with which a request is refused, if it is. -/
def State.preemptCode (s : State) (a : Nat) : Option Nat :=
  let c := s.coreAt a
  let commit := (c.s.ended.map (·.commit)).getD false
  if s.gated a then some 3
  else
    match c.ctx with
    | none => some 1
    | some x =>
      if c.phase != .running then some 1
      else if x.written || (c.ends.length = 3 && !commit) then some 4
      else none

/-- A request of the issuing stream to core a. One to another core is decided when the clock is over, as an event of the same
clock may refuse it (R400). -/
def State.askStop (s : State) (a : Nat) : State := s.putCore a { s.coreAt a with asked := some ⟨s.cid, s.who, none⟩ }

/-- The decision on the request to core a. -/
def State.decideStop (s : State) (a : Nat) : State :=
  let c := s.coreAt a
  match c.asked with
  | some q =>
    if q.code.isSome then s
    else
      match s.preemptCode a with
      | some code => s.putCore a { c with asked := some { q with code := some (some code) } }
      | none => s.putCore a { c with phase := .stopping, asked := some { q with code := some none } }
  | none => s

/-- What the core that a PREEMPT names knows of a request: none, this stream's with its decision, or one that is not decided or
that a PREEMPT.wait still waits for. -/
inductive Asked where
  | none | mine (code : Option (Option Nat)) | other
  deriving DecidableEq, Repr

def State.askedOf (s : State) (a : Nat) : Asked :=
  match (s.coreAt a).asked with
  | some q =>
    if (s.coreAt q.by_).accs.any fun x => x.strm = q.strm && x.kind = .preempt a then .other
    else if q.by_ = s.cid && q.strm = s.who then .mine q.code else if q.code.isNone then .other else .none
  | Option.none => .none

/-- PREEMPT. With .wait and another core the stream goes on, and the result comes when that core has stopped (R43, R382). -/
def execPreempt (h : Hdr) (wait : Bool) (o : RUn) (s : State) : Host.Outcome State Fault Refusal :=
  issue (s.sysGate [o.a] false) h (useD [o.a] o.d) (fun t =>
    let a := (t.val o.imm o.a).toNat
    let done (v : Word) : Done := .go ((t.putCore a { t.coreAt a with asked := none }).putDst o.d v)
    if 4096 ≤ a then t.trapDone .illegal
    else if wait && a != t.cid then
      match t.askedOf a, t.preemptCode a with
      | .none, some code => .go (t.putDst o.d (failWord code))
      | .none, none =>
        let (d, t) := (t.askStop a).reserveDst o.d
        .go (t.addAcc h d false (.preempt a) none)
      | _, _ => .hold .other
    else
      match t.askedOf a with
      | .other => .hold .other
      | .mine none => .hold .other
      | .mine (some (some code)) => done (failWord code)
      | .mine (some none) => if wait && (t.coreAt a).phase = .stopping then .hold .other else done 0
      | .none =>
        match t.preemptCode a with
        | some code => .go (t.putDst o.d (failWord code))
        | none =>
          let t := t.askStop a
          if a = t.cid then (if wait then .wait (t.decideStop a) else .go ((t.decideStop a).putDst o.d 0))
          else .wait t) s

/-- A stream that stops stands before its next unissued pair, or inside its SLEEP (R399). -/
def Stream.stopped (x : Stream) : Stream := { x.noPfx with ended := none, waitW := none, hold := .issuing }

/-- PREEMPT_STOP: the issued accesses are complete, so the three streams have stopped; granules in flight finish. -/
def State.preemptStop (s : State) : State :=
  if s.core.phase = .stopping && s.core.accs.isEmpty then
    let s := (((s.leaveWait .l).leaveWait .c).leaveWait .s).finishHeld
    State.spillAll { s with core := { s.core.mapStrms Stream.stopped with phase := .stopped } }
  else s

def execPreemptStop (s : State) : Host.Outcome State Fault Refusal := .next s.preemptStop

/-! ### MDRAIN (R66, R382) -/

def execMdrain (h : Hdr) (o : RUn) (s : State) : Host.Outcome State Fault Refusal :=
  issue (s.sysGate [o.a] false) h (useD [o.a] o.d) (fun t =>
    let a := (t.val o.imm o.a).toNat
    if 4096 ≤ a then t.trapDone .illegal
    else if t.gated a then .go (t.putDst o.d (failWord 3))
    else if !(t.coreAt a).stoppedNow then .go (t.putDst o.d (failWord 1))
    else
      let t := t.onCore a fun u => u.drainCore.1
      .go (t.putDst o.d (BitVec.ofNat 64 (t.coreAt a).mtx.q.length))) s

/-! ### CTXSV (R382, R399, R402) -/

/-- Write bytes through the parts of a checked range: atomics at RC homes, in place elsewhere. -/
def State.writeParts (s : State) (ps : List Part) (bs : List Byte) : State :=
  (splitBytes ps bs).foldl (fun (s : State) (e : Part × List Byte) =>
    if e.1.kind != .rc then (s.homeWrite e.1.addr e.2).1
    else if spaceOf e.1.addr != 1 then s.atomWrite e.1.addr e.2 true
    else (runs 8 e.2.length e.2).zipIdx.foldl (fun (s : State) w => s.atomSend (e.1.addr + 8 * w.2) w.1 true) s) s

/-- Save the stopped step of core a at va: the state, and the result word; none while the leases that other packages hold on the
range are recalled (R105). -/
def State.saveCore (s : State) (a va : Nat) : State × Option Word :=
  let home := s.cid
  let t := (s.focus a).drainCore.1
  match t.core.ctx with
  | none => (s, some (failWord 1))
  | some x =>
    let (u, bs) := t.imageOf x
    match (u.focus home).rawRange va bs.length .write with
    | (v, .error _) => (v, some (failWord 5))
    | (v, .ok ps) =>
      if ps.any (·.pois) then (v, some (failWord 5))
      else
        match v.recallPlaced ps with
        | (v, false) => (v, none)
        | (v, true) => (((v.writeParts ps bs).focus a |>.unload x va).focus home, some (BitVec.ofNat 64 bs.length))

def execCtxsv (h : Hdr) (d : Dst) (a b : Src) (imm : BitVec 32) (s : State) : Host.Outcome State Fault Refusal :=
  issue (s.sysGate [a, b] false) h (useD [a, b] d) (fun t =>
    let core := (t.val imm a).toNat
    let va := (t.valAfter imm [a] b).toNat
    if 4096 ≤ core then t.trapDone .illegal
    else if va % 4096 != 0 then .trap t (t.precise .align va)
    else
      match t.rawRange va 0x1800 .write with
      | (t, .error e) => t.badDone e
      | (t, .ok _) =>
        if t.gated core then .go (t.putDst d (failWord 3))
        else if !(t.coreAt core).stoppedNow then .go (t.putDst d (failWord 1))
        else
          match t.saveCore core va with
          | (t, some v) => .go (t.putDst d v)
          | (t, none) => .wait t) s

/-! ### CTXLD (R382, R387, R401, R406) -/

/-- Resume a continuation on idle core a from the image that has been read: the state, and the result word. One of a fenced region
is not resumed: code 1 (R394; DESIGN CHOICE for the code, log entry 97). -/
def State.resumeOn (s : State) (a : Nat) (ps : ImgParts) (bs : List Byte) (k : Cont) : State × Word :=
  if s.fenced (s.effFdom k.region.toNat) then (s, failWord 1)
  else ((s.charge k.region.toNat .cores 1).onCore a fun u => u.resumeStep bs ps k, 0)

/-- Load the image at va into idle core a: the state, and the result word. -/
def State.loadCore (s : State) (a va : Nat) : State × Word :=
  match s.readImage s.tenant va with
  | (s, .error code) => (s, failWord code)
  | (s, .ok (ps, bs)) =>
    match s.claimOf bs va with
    | none => (s, failWord 1)
    | some k => s.resumeOn a ps bs k

/-- Is core a idle, with no step? -/
def Core.idleNow (c : Core) : Bool := c.phase = .idle && c.ctx.isNone

def execCtxld (h : Hdr) (d : Dst) (a b : Src) (imm : BitVec 32) (s : State) : Host.Outcome State Fault Refusal :=
  issue (s.sysGate [a, b] false) h (useD [a, b] d) (fun t =>
    let core := (t.val imm a).toNat
    let va := (t.valAfter imm [a] b).toNat
    if 4096 ≤ core then t.trapDone .illegal
    else if va % 4096 != 0 then .trap t (t.precise .align va)
    else
      match t.rawRange va 0x1800 .read with
      | (t, .error e) => t.badDone e
      | (t, .ok ps) =>
        if t.gated core then .go (t.putDst d (failWord 3))
        else if !(t.coreAt core).idleNow then .go (t.putDst d (failWord 1))
        else
          match t.rawRead ps with
          | (t, none) => t.trapDone .poison
          | (t, some _) =>
            let (t, v) := t.loadCore core va
            .go (t.putDst d v)) s

end Sys2Proof.Machine
end

