-- ==== Sys2Proof/Machine/Sched.lean ====
section
/-!
DEFINITION. The scheduler: host launches, dealing, the dispatcher and the start of a step, wakes, the timer wheel, power
gating of core groups (R24, R27 to R41, R60, R122, R385 to R398, R426, R445).
-/

namespace Sys2Proof.Machine

/-! ### Claims (R426) -/

/-- What the home of a record does with a Claim: the sender becomes its holder when the token and the sender's epoch are current
and no other package holds the record; the token and the step count come back, none when it is refused. -/
def State.claimAt (s : State) (pa src tok epoch : Nat) : State × Option (Nat × Nat) :=
  if s.recToken pa = tok && lookupD s.holders pa src = src && lookupD s.mgmt.epochs src 0 = epoch then
    ({ s with holders := insertAt s.holders pa src }, some (s.recToken pa, s.recSteps pa))
  else (s, none)

/-- A continuation with the token and the step count that its home gave. -/
def Cont.stamped (k : Cont) (e : Nat × Nat) : Cont := { k with ftoken := BitVec.ofNat 32 e.1, stepseq := BitVec.ofNat 32 e.2 }

/-- The outcome of a Claim: its status, 5 for refusal, and its data (R422). -/
def claimOutcome : Option (Nat × Nat) → Nat × List Byte
  | some (f, n) => (0, natLe 4 f ++ natLe 4 n)
  | none => (5, [])

/-- The claim of a pool record at its home, under the token that this package read: none when it is refused, or its home does not
answer (R428). -/
def State.claim (s : State) (k : Cont) : State × Option Cont :=
  let s := s.send 0x0C (poolNode k.pa) (paOf k.pa) (natLe 4 k.ftoken.toNat)
  if s.nodeUp (poolNode k.pa) then
    match s.claimAt k.pa s.podpos.toNat k.ftoken.toNat s.mgmt.epoch.toNat with
    | (s, e) => (s.keepSent (poolNode k.pa) (claimOutcome e).1 (claimOutcome e).2, e.map k.stamped)
  else (s, none)

/-- Drop a continuation whose claim was refused. -/
def State.dropCont (s : State) (k : Cont) : State := { s with conts := s.conts.filter fun c => c.pa != k.pa }

/-- The claim where a record needs one: none when the continuation has been dropped. -/
def State.claimed (s : State) (k : Cont) : State × Option Cont :=
  if k.isLocal then
    (s, some (k.stamped (s.recToken k.pa, s.recSteps k.pa)))
  else
    match s.claim k with
    | (s, some k) => (s.setCont k, some k)
    | (s, none) => (s.dropCont k, none)

/-- What this package's dispatcher does with the answer to its Claim of a record: a ready continuation of the pool takes the token
and the step count, or is dropped (R426). -/
def State.claimAnswer (s : State) (pa : Nat) (e : Option (Nat × Nat)) : State :=
  match s.cont? pa with
  | some k =>
    if k.state = .ready && !k.isLocal then
      match e with
      | some e => s.setCont (k.stamped e)
      | none => s.dropCont k
    else s
  | none => s

/-! ### Which continuation goes next (R387, R389, R390) -/

/-- Is the head's request granted in its region now? -/
def State.candOk (s : State) (r : Nat) (k : Cont) : Bool :=
  s.wellFormed r && !s.fenced (s.effFdom r) && s.grantable r .cores 1 && s.grantable r .acc k.needKib

/-- The candidate regions with their heads. -/
def State.cands (s : State) : List (Nat × Cont) :=
  let regs := ((s.conts.filter fun c => c.state = .ready).map fun c => c.region.toNat).eraseDups
  regs.filterMap fun r => (s.headOf r).bind fun k => if s.candOk r k then some (r, k) else none

/-- ep(X). -/
def State.ep (s : State) (r : Nat) : Nat :=
  min 7 (s.effPrio r + (s.ftime.toNat - s.rcb r 216 8) / (s.ageq * 1000))

/-- Places from ROT + 1 to a region. -/
def State.rotDist (s : State) (r : Nat) : Nat := (r + 65536 - (s.rot.toNat + 1) % 65536) % 65536

/-- The region of the decision. -/
def State.pickRegion (s : State) : Option (Nat × Cont) :=
  minBy (fun a b => decide (s.ep b.1 < s.ep a.1) || (s.ep a.1 = s.ep b.1 && decide (s.rotDist a.1 < s.rotDist b.1))) s.cands

/-! ### Where it goes (R391, R392) -/

/-- Cores 0 to 4,095 that run nothing, in groups that have power. -/
def State.idleCores (s : State) : List Nat :=
  (List.range 4096).filter fun n => (s.coreAt n).idleNow && !s.gated n

def State.busyIn (s : State) (g : Nat) : Nat :=
  ((List.range 16).filter fun i => (s.coreAt (16 * g + i)).phase != .idle).length

/-- The class of an idle core for a continuation. -/
def State.placeClass (s : State) (k : Cont) (n : Nat) : Nat :=
  let c := s.coreAt n
  let tn := BitVec.ofNat 16 (s.effTenant k.region.toNat)
  let mine : Bool := c.lastTen = some tn
  if k.affv && c.wbTag = some k.afftag && mine then 0 else if mine then 1 else 2

/-- place(c). -/
def State.place (s : State) (k : Cont) : Option Nat :=
  let rank (n : Nat) : Nat × Nat × Nat := (s.placeClass k n, 16 - s.busyIn (n / 16), n)
  let lt (a b : Nat × Nat × Nat) : Bool :=
    decide (a.1 < b.1) || (a.1 = b.1 && (decide (a.2.1 < b.2.1) || (a.2.1 = b.2.1 && decide (a.2.2 < b.2.2))))
  (minBy lt (s.idleCores.map rank)).map (·.2.2)

def State.busyCores (s : State) : Nat := (s.known.filter fun n => !isDcc n && (s.coreAt n).phase != .idle).length

def State.groupOf (s : State) (g : Nat) : GroupPhase := lookupD s.groups g .awake

/-- Gated groups woken at a decision without a place, lowest number first. -/
def State.wakeList (s : State) : List Nat :=
  let want := s.busyCores + (s.cands.filter fun e => decide (12000 ≤ s.waited e.2)).length
  let all := List.range 256
  let up := (all.filter fun g => s.groupOf g != .gated).length
  (all.filter fun g => s.groupOf g = .gated).take ((want + 15) / 16 - up)

/-- GROUP_WAKE: 12 µs from now. -/
def State.wakeGroups (s : State) (gs : List Nat) : State :=
  { s with groups := gs.foldl (fun l g => insertAt l g (.waking (s.ftime + 12000))) s.groups }

/-! ### Reading the frame (R28, R33, R460) -/

/-- Bytes of RC pages in a tenant's tables, none when they are elsewhere or poisoned (log entry 22). -/
def State.readRc (s : State) (ten va n : Nat) : State × Option (List Byte) :=
  match s.devRange ten va n .read with
  | (s, .error _) => (s, none)
  | (s, .ok ps) =>
    if ps.any fun p => p.part.kind != .rc then (s, none)
    else
      match s.readWith State.viewPart (partsOf ps) with
      | (s, bs) => (s, if bs.any (·.2) then none else some (bs.map (·.1)))

/-- Does a range lie on RC pages? -/
def State.onRc (s : State) (ten va n : Nat) : State × Bool :=
  match s.devRange ten va n .read with
  | (s, .error _) => (s, false)
  | (s, .ok ps) => (s, ps.all fun p => p.part.kind = .rc)

/-- The ranges of a frame with their contents, up to the first descriptor that names none (log entry 23). -/
def frameRanges (bs : List Byte) : Nat → Nat → List (LiveRange × List Byte)
  | 0, _ => []
  | n + 1, off =>
    let w := bytesNat bs off 8
    match rangeOf (bitOf w 63) w with
    | none => []
    | some r => (r, (bs.drop (off + 8)).take r.bytes) :: frameRanges bs n (off + 8 + r.bytes)

def frameCount (bs : List Byte) : Nat := bitsOf (bytesNat bs 0 8) 32 8 + bitsOf (bytesNat bs 0 8) 40 8

/-- The whole frame of a continuation. -/
def State.readFrame (s : State) (ten va : Nat) : State × Option (List Byte) :=
  match s.readRc ten va 400 with
  | (s, none) => (s, none)
  | (s, some h) => s.readRc ten va (max 400 (bytesNat h 0 4))

/-! ### The start of a step (R24, R28, R33, R60, R62, R122, R295, R315, R395) -/

/-- C's and S's section numbers: SECL plus a signed 10-bit difference. -/
def secAt (secl : BitVec 12) (d : BitVec 10) : BitVec 12 := secl + d.signExtend 12

/-- A stream at its first header, with its named scalars and predicates. -/
def startStream (x : Stream) (pc : BitVec 32) (sec : BitVec 12) (n : Vector Word 16) (p : Vector Bool 8) : Stream :=
  { x.cleared with pc := pc, shdr := pc, begun := sec, retired := sec, n := n, p := p }

/-- n0 to n3 of a first step. -/
def firstRegs (xyz : List Nat) : Vector Word 16 :=
  Vector.ofFn fun k => if k.val < 4 then BitVec.ofNat 64 (xyz.getD k.val 0) else 0

/-- c0 to c15 at a dispatch: c0 and c1 of a host launch in the function's tenant (R388). -/
def State.dispatchCaps (s : State) (k : Cont) (ten : Nat) : Vector (Option Cap) 16 :=
  let r := k.region.toNat
  let ct := (k.capten.map (·.toNat)).getD ten
  let v := Vector.replicate 16 (none : Option Cap)
  let v := v.set 0 (some (s.bindCap ct k.codecap.toNat 0b00101 0 none))
  let v := if k.card.isEmpty then v
    else v.set 1 (some (s.bindCap ct (cardF k.card 24 0 16) 0b00001
      (cardF k.card 24 16 48 + k.argidx.toNat * cardArgSize k.card) (some (cardArgSize k.card))))
  let v := v.set 2 (some (s.bindCap ten (s.rcb r 112 2) 0b11111 0 none))
  let v := v.set 3 (some (s.bindCap ten (s.rcb r 114 2) 0b11111 0 none))
  v.set 15 (some ⟨true, BitVec.ofNat 16 ten, 0, 0, 0, devInfoBytes, 0b00001⟩)

/-- The release words that the start of a step acquires: SPREL and the batch's at a first step, else the word of the step
before; then that of a JOIN. -/
def Cont.startWords (k : Cont) : List RelWord :=
  let first := match k.firing with
    | some f => f.words
    | none => if k.card.isEmpty then [] else [cardSpRel k.card]
  (if k.first then first else k.relw.toList) ++ k.joinw.toList

/-- Two acquire statuses as one: SKIP and POIS of either, the logs skipped of both, the first one named. -/
def addStatus (a b : Word) : Word :=
  let x := a.toNat
  let y := b.toNat
  let skip := min 255 (bitsOf x 8 8 + bitsOf y 8 8)
  BitVec.ofNat 64 ((x ||| y) % 4 + skip * 256 + (if bitOf x 0 then bitsOf x 16 32 else bitsOf y 16 32) * 65536)

/-- What the dispatcher samples of a region's block for a step (R21, R363, R386, R402). -/
def State.sampled (s : State) (r : Nat) : Sampled where
  seed := BitVec.ofNat 64 (s.rcb r 72 8)
  displo := BitVec.ofNat 64 (s.effDispLo r)
  disphi := BitVec.ofNat 64 (s.effDispHi r)
  hndlc := BitVec.ofNat 64 (s.effHandlerLC r)
  hndls := BitVec.ofNat 32 (s.effHandlerS r)
  wdlim := BitVec.ofNat 32 (s.rcb r 68 4)
  sgrant := s.rcb r 80 32

/-- The step's context as it begins. -/
def State.newCtx (s : State) (k : Cont) (ten : Nat) (log : BitVec 32) : StepCtx where
  va := k.va
  base := k
  tenant := BitVec.ofNat 16 ten
  region := k.region
  fdom := BitVec.ofNat 16 (s.effFdom k.region.toNat)
  smp := s.sampled k.region.toNat
  log := log
  ftok := k.ftoken
  seq := k.stepseq
  depth := k.depth
  lrel := ⟨0, 0⟩
  lrstat := 0
  hzn := []
  hcst := none
  watch := none
  decl := []
  declB := false
  firing := k.firing
  ntag := 1
  accKib := k.needKib
  elapNs := 0
  wdRaised := false
  written := false
  heldTr := []

/-- The core of a new step before its acquires and its frame. -/
def State.newStep (s : State) (k : Cont) (x : StepCtx) : Core :=
  let r := k.region.toNat
  let c := (s.core.vacate s.ftime).forTenant x.tenant
  let n := firstRegs k.xyz
  let p := Vector.replicate 8 false
  { c with
    phase := .running
    l := startStream c.l k.pcl k.secl n p
    c := startStream c.c k.pcc (secAt k.secl k.secdc) n p
    s := startStream c.s k.pcs (secAt k.secl k.secds) n p
    sh := Vector.replicate 4 0
    mreg := Vector.replicate 16 0
    shS := Vector.replicate 4 0
    mregS := Vector.replicate 16 0
    caps := s.dispatchCaps k x.tenant.toNat
    smap := []
    sems := c.sems.filter fun e => decide (256 ≤ e.1)
    ctx := some x
    chk := bitOf (s.rcb r 0 8) 35
    seed := x.smp.seed
    displo := x.smp.displo
    disphi := x.smp.disphi
    hndlc := x.smp.hndlc
    hndls := x.smp.hndls
    wdlim := x.smp.wdlim
    wbTag := if k.affv then some k.afftag else c.wbTag
    issued := false }

/-- Registers, predicates and ranges of a frame. -/
def Core.loadFrame (c : Core) (bs : List Byte) : Core :=
  let pw := bytesNat bs 392 8
  let rs := frameRanges bs (frameCount bs) 400
  let c := { c with
    l := { c.l with n := wordsOf 16 bs 8, p := predsOf (bitsOf pw 0 7) }
    c := { c.c with n := wordsOf 16 bs 136, p := predsOf (bitsOf pw 8 7) }
    s := { c.s with n := wordsOf 16 bs 264, p := predsOf (bitsOf pw 16 7) } }
  let c := rs.foldl (fun (c : Core) e => c.loadRange e.1 e.2) c
  let decl := rs.map (·.1)
  { c with ctx := c.ctx.map fun x => { x with decl := decl, declB := !decl.isEmpty } }

/-- Can the record be read: on RC pages (R28), or, of a raised one that has no address in the tenant's tables, at its home (R41, log
entry 110)? -/
def State.recordOk (s : State) (ten : Nat) (k : Cont) : State × Bool :=
  if k.raised && k.va = paOf k.pa then
    match s.homeRead k.pa 64 with
    | (s, bs) => (s, bs.all fun b => !b.2)
  else
    match s.readRc ten k.va 64 with
    | (s, bs) => (s, bs.isSome)

/-- Begin a step of k on the core in focus. Where its record or its frame does not lie on RC pages (R28), the state that the failed
reads leave. -/
def State.beginStep (s : State) (k : Cont) : Except State State :=
  let ten := s.effTenant k.region.toNat
  let (s, framed) := if k.first && k.frame != 0 then s.onRc ten k.frame.toNat 400 else (s, true)
  match s.recordOk ten k with
  | (s, false) => .error s
  | (s, true) =>
    if !framed then .error s else
    let before := s
    let (log, s) := s.openLog ten k.region.toNat true
    let s := s.setCont { k with state := .running }
    let s := { s with core := s.newStep k (s.newCtx k ten log) }
    let (s, st) := k.startWords.foldl (fun (a : State × Word) w =>
      let (t, v) := a.1.acquire w
      (t, addStatus a.2 v)) (s, (0 : Word))
    let s := { s with core := { s.core with l := { s.core.l with astat := st } } }
    let s := if k.wkind = 2 then s.dropL1 else s
    if k.first || k.frame = 0 then .ok s
    else
      match s.readFrame ten k.frame.toNat with
      | (_, none) => .error (before.readFrame ten k.frame.toNat).1
      | (s, some bs) => .ok { s with core := s.core.loadFrame bs }

/-- The dispatcher's own part of a decision: ROT, charges, LASTDISP, NDISP. -/
def State.countDispatch (s : State) (k : Cont) : State :=
  let r := k.region.toNat
  let s := (s.charge r .cores 1).charge r .acc k.needKib
  let s := (s.setRcb r 216 8 s.ftime.toNat).setRcb r 224 8 (s.rcb r 224 8 + 1)
  { s with rot := k.region }

/-- The dispatcher finds that a continuation cannot run: faulted, its image's charge gone. -/
def State.dispatchFault (s : State) (k : Cont) : State :=
  (s.uncharge k.region.toNat .acc k.imgKib).setCont { k with state := .faulted, imgKib := 0 }

/-- Start the head on a core: a resume from its image, or a new step. -/
def State.startHead (s : State) (k : Cont) (n : Nat) : State :=
  match s.claimed k with
  | (t, none) => { t with rot := k.region }
  | (t, some k) =>
    if k.wkind = 5 then
      match t.readImage 0 (k.wopnd.toNat * 64) with
      | (t, .error _) => t.dispatchFault k
      | (t, .ok (ps, bs)) => (t.countDispatch k).onCore n fun u => u.resumeStep bs ps k
    else
      let home := t.cid
      match ((t.countDispatch k).focus n).beginStep k with
      | .ok u => u.focus home
      | .error _ =>
        match (t.focus n).beginStep k with
        | .error u => (u.focus home).dispatchFault k
        | .ok _ => t.dispatchFault k

/-- DISPATCH: one decision. -/
def State.dispatchOne (s : State) : State :=
  match s.pickRegion with
  | none => s
  | some (_, k) =>
    match s.place k with
    | some n => s.startHead k n
    | none => s.wakeGroups s.wakeList

/-- Would a decision change anything? -/
def State.mayDispatch (s : State) : Bool :=
  match s.pickRegion with
  | none => false
  | some (_, k) => (s.place k).isSome || !s.wakeList.isEmpty

def execDispatch (s : State) : Host.Outcome State Fault Refusal := .next s.dispatchOne

/-! ### Host launches (R388, R429) -/

/-- Is a region in the subtree of another? -/
def State.inSubtree (s : State) (r root : Nat) : Bool := ((s.path r).getD []).contains root

/-- The ECODE of a host launch, 0 when it is accepted. -/
def State.launchCode (s : State) (root : Nat) (card : List Byte) : Nat :=
  let r := cardRegion card
  if !s.wellFormed r || !s.inSubtree r root then 2
  else if !cardOk card true then 1
  else if cardDepth card != 0 then 3
  else if (s.freeSlot r).isNone then 4
  else 0

/-- The card as copied into a slot. -/
def launchCard (card : List Byte) : List Byte :=
  bytesSet (bytesSet card 64 (List.replicate 8 0)) 96 (List.replicate 24 0)

/-- One launch of a function: a card that it posted. -/
def State.launch (s : State) (root : Nat) (card : List Byte) : State :=
  let ten := s.rcb root 34 2
  if !s.rcbV root then s.ashNote 16 4 0 0 0 root 0 []
  else
    match s.launchCode root card with
    | 0 =>
      match s.freeSlot (cardRegion card) with
      | some k => s.placeCard (cardRegion card) k (BitVec.ofNat 16 ten) (launchCard card) true
      | none => s
    | code =>
      let (s, ok) := s.writeCompletion ten card (complWord 0 0 code) ⟨0, 0⟩
      if ok then s else s.ashNote 16 5 0 0 ten (cardRegion card) (cardF card 72 16 48) []

/-- Are entries posted in a function's launch ring, and is the host there to give them? -/
def State.launchPosted (s : State) (fn : Nat) : Bool :=
  s.host.up && (s.fn fn).lrhead != (s.fn fn).lrtail && (s.fn fn).lrsize != 0

/-- HOST_LAUNCH: the next entry of a function's launch ring is read, checked and consumed. -/
def State.hostLaunch (s : State) (fn : Nat) : State :=
  let f := s.fn fn
  if !s.launchPosted fn then s
  else
    let a := keyOf 2 (f.lrbase.toNat + 128 * (f.lrhead.toNat % f.lrsize.toNat))
    let card := s.mem.bytes a 128
    let s := s.launch f.tenroot.toNat card
    s.setFn fn { s.fn fn with lrhead := f.lrhead + 1 }

def execHostLaunch (fn : Nat) (s : State) : Host.Outcome State Fault Refusal := .next (s.hostLaunch fn)

/-! ### Job cards (R27, R37) -/

def execDealChunk (r slot : Nat) (s : State) : Host.Outcome State Fault Refusal := .next (s.dealChunk r slot)

def execJobComplete (r slot : Nat) (s : State) : Host.Outcome State Fault Refusal := .next (s.jobComplete r slot)

def execCompletionWordWrite (r slot : Nat) (s : State) : Host.Outcome State Fault Refusal := .next (s.completionWrite r slot)

/-! ### Wakes (R29, R30, R38) -/

/-- The release word beside a completion word, when the word stands at an address that has one. -/
def State.joinWordOf (s : State) (k : Cont) : State × Option RelWord :=
  let va := k.wopnd.toNat
  if va % 16 = 8 then
    match s.peek k.tenant.toNat (va + 8) 16 with
    | (s, bs) => (s, bs.map relWordOf)
  else (s, none)

/-- Look at the word that a JOIN waits on, as the wake does. -/
def State.lookJoin (s : State) (k : Cont) : State := if k.wkind = 3 then (s.peek k.tenant.toNat k.wopnd.toNat 8).1 else s

/-- CONTINUATION_WAKE: a suspended continuation whose condition is met becomes ready; one with a reserved kind is
faulted. -/
def State.wakeCont (s : State) (pa : Nat) : State :=
  match s.cont? pa with
  | none => s
  | some k =>
    if k.state != .suspended then s
    else if 6 ≤ k.wkind.toNat then s.setCont { k with state := .faulted }
    else if s.wakeHolds k then
      let (s, j) := if k.wkind = 3 then s.joinWordOf k else (s, none)
      s.makeReady { k with cmbWake := false, joinw := j }
    else s.lookJoin k

/-- May a wake of this continuation do something? -/
def State.mayWake (s : State) (k : Cont) : Bool := k.state = .suspended && (decide (6 ≤ k.wkind.toNat) || s.wakeHolds k)

def execContinuationWake (pa : Nat) (s : State) : Host.Outcome State Fault Refusal := .next (s.wakeCont pa)

/-- SUPERVISOR_FREE: a faulted continuation is freed, counted into NFAULT. -/
def State.supervisorFree (s : State) (pa : Nat) : State :=
  match s.cont? pa with
  | some k => if k.state = .faulted then s.freeDone k true none else s
  | none => s

def execSupervisorFree (pa : Nat) (s : State) : Host.Outcome State Fault Refusal := .next (s.supervisorFree pa)

/-! ### Continuations that a record alone describes (R30, R41, R427) -/

/-- KiB of accumulators that a frame restores. -/
def State.frameKib (s : State) (ten va : Nat) : Nat :=
  match s.readFrame ten va with
  | (_, none) => 0
  | (_, some bs) => ((frameRanges bs (frameCount bs) 400).filter (·.1.acc)).foldl (fun n r => n + accKib r.1.count) 0

/-- May a card be the one that a continuation was made from: its code object and its affinity are those of the record? -/
def cardFits (card : List Byte) (k : Cont) : Bool :=
  cardF card 0 0 16 = k.codecap.toNat && (cardF card 0 57 1 = 1) = k.affv && cardF card 34 0 16 = k.afftag.toNat

/-- The job card or template that a record's ORIGIN names, empty when it cannot be read. lost: what lies in local HBM does not
count, as it was another package's, nor what is not this record's card: ORIGIN then named a slot of the lost package (R41, log
entry 25). -/
def State.originCard (s : State) (ten : Nat) (k : Cont) (lost : Bool) : List Byte :=
  if k.okind || k.origin = 0 then []
  else
    match s.devRange ten k.origin.toNat 128 .read with
    | (s, .ok ps) =>
      let card := (s.peekVa ten k.origin.toNat 128).getD []
      if lost && (ps.any (fun p => spaceOf p.part.addr = 0) || !cardFits card k) then [] else card
    | (_, .error _) => []

/-- n0 to n3 of the first step of group g of a card (R24). -/
def groupRegs (card : List Byte) (g : Nat) : List Nat :=
  let w := max 1 (cardDimX card)
  let h := max 1 (cardDimY card)
  [g % w, g / w % h, g / w / h, g]

/-- The continuation of a record read at its home, for a region of this package. Its card is what ORIGIN names; its group is its
argument record's when the card has one for each group, else n0 to n3 of a first step are free values (log entry 25). It acquires
the last release that its home has (R122). -/
def State.adopt (s : State) (va pa region : Nat) (bs : List Byte) (lost : Bool) : State × Cont :=
  let ten := s.effTenant region
  let k := contOf va pa (BitVec.ofNat 16 ten) bs
  let card := s.originCard ten k lost
  let g : Option Nat := if card.isEmpty then none
    else if cardArgCount card != 1 then some k.argidx.toNat
    else if cardGroups card = 1 then some 0
    else none
  let (xyz, s) := match g with
    | some g => (groupRegs card g, s)
    | none => ((List.range 4).map fun i => (Config.freeValue (s.free + i)).toNat, { s with free := s.free + 4 })
  (s, { k with
    region := BitVec.ofNat 16 region
    card := card
    xyz := xyz
    raised := lost
    relw := (s.commits.find? fun e => e.1 = pa).map (·.2)
    frmKib := if k.frame = 0 then 0 else s.frameKib ten k.frame.toNat })

/-- The supervisor has written a record and makes its continuation ready (R30); nothing happens when the record cannot be read or
is in use. -/
def State.superviseReady (s : State) (ten va : Nat) : State :=
  match s.devRange ten va 64 .read with
  | (s, .ok (p :: _)) =>
    let pa := p.part.addr
    match s.peek ten va 64 with
    | (s, some bs) =>
      if (s.cont? pa).isSome then s
      else
        let (s, k) := s.adopt va pa (bitsOf (bytesNat bs 0 8) 8 16) bs false
        s.makeReady k
    | (s, none) => s
  | (s, _) => s

/-! ### The timer wheel (R39, R398) -/

/-- Entries in slots that the wheel has passed, due now. -/
def State.dueEntries (s : State) : List WheelEnt := s.wheel.filter fun e => e.slot && decide (e.due.toNat / 1000 < s.ftime.toNat / 1000)

/-- TIMER_SLOT_BOUNDARY: due entries are released into ready in parking order. -/
def State.slotBoundary (s : State) : State :=
  let due := s.dueEntries
  let s := { s with wheel := s.wheel.filter fun e => !due.contains e }
  let s := due.foldl (fun s e =>
    match s.cont? e.crec with
    | some k => if k.state = .parked then s.makeReady k else s
    | none => s) s
  if due.isEmpty then s else s.eventAll 1

def execTimerSlotBoundary (s : State) : Host.Outcome State Fault Refusal := .next s.slotBoundary

/-- TIMER_OVERFLOW_MOVE: a deadline of the overflow list that has come within range moves to its slot. -/
def State.overflowMove (s : State) (pa : Nat) : State :=
  let move (e : WheelEnt) : WheelEnt := if e.crec = pa && s.inWheel e.due then { e with slot := true } else e
  { s with wheel := s.wheel.map move }

def execTimerOverflowMove (pa : Nat) (s : State) : Host.Outcome State Fault Refusal := .next (s.overflowMove pa)

/-! ### Power gating of core groups (R392, R445) -/

/-- Have all cores of an awake group been idle for GATEIDLE? -/
def State.gateable (s : State) (g : Nat) : Bool :=
  s.gateIdle != 0 && s.groupOf g = .awake && decide (g < 256) &&
    (List.range 16).all fun i =>
      let c := s.coreAt (16 * g + i)
      c.idleNow && decide (1000 * s.gateIdle ≤ s.ftime.toNat - c.idleAt.toNat)

/-- What a core group loses without power. -/
def Core.unpowered (c : Core) : Core := { c with tile := [], wb := [], accs32 := [], wbTag := none }

/-- Apply a function to the cores of a group. -/
def State.mapGroup (s : State) (g : Nat) (f : Core → Core) : State :=
  (List.range 16).foldl (fun s i => s.putCore (16 * g + i) (f (s.coreAt (16 * g + i)))) s

/-- GROUP_GATE. -/
def State.groupGate (s : State) (g : Nat) : State :=
  if s.gateable g then
    let s := s.mapGroup g Core.unpowered
    { s with groups := insertAt s.groups g .gated }
  else s

def execGroupGate (g : Nat) (s : State) : Host.Outcome State Fault Refusal := .next (s.groupGate g)

/-- GROUP_WAKE_DONE: 12 µs after the wake the group's cores are idle. -/
def State.groupWakeDone (s : State) (g : Nat) : State :=
  match s.groupOf g with
  | .waking t =>
    if t.toNat ≤ s.ftime.toNat then
      let now := s.ftime
      let s := s.mapGroup g fun c => { c with idleAt := now }
      { s with groups := insertAt s.groups g .awake }
    else s
  | _ => s

def execGroupWakeDone (g : Nat) (s : State) : Host.Outcome State Fault Refusal := .next (s.groupWakeDone g)

end Sys2Proof.Machine
end

