-- ==== Sys2Proof/Machine/Pool.lean ====
section
/-!
DEFINITION. Logs, leases and pool transactions as events: at their homes, and at this package (R41, R104 to R106, R111, R119,
R123, R124, R138, R422 to R428).
-/

namespace Sys2Proof.Machine

/-! ### Billets (R111, R123) -/

/-- BILLET_SPILL: a closed or sealed billet goes to the region's log area. -/
def execBilletSpill (log seg : Nat) (s : State) : Host.Outcome State Fault Refusal := .next (s.spill (BitVec.ofNat 32 log) seg)

/-- COMPACTION of a sealed billet; the log's billets are freed when nothing keeps them. -/
def execCompaction (log seg : Nat) (s : State) : Host.Outcome State Fault Refusal :=
  .next (s.compact (BitVec.ofNat 32 log) seg).reapLogs

/-! ### Leases by time (R104, R106) -/

/-- Has a held lease come 2 ms into its term without a decision on its renewal? -/
def State.renewDue (s : State) (l : Lease) : Bool :=
  l.served s.ftime && !l.lapse && decide (l.grant.toNat + 2000000 ≤ s.ftime.toNat)

/-- Is the lease renewed then: a line was accessed in the term, or a draft entry keeps the page (R104, R126)? -/
def State.renewWanted (s : State) (l : Lease) : Bool := l.used || decide (s.ftime.toNat < (lookupD s.kept l.page 0).toNat)

/-- Does the home of a page renew the lease of a holder that names a grant stamp: the page is not under recall, and the stamp is
that of the holder's current lease (R104, R425)? -/
def State.renews (s : State) (page pos : Nat) (g : BitVec 64) : Bool :=
  s.nodeUp (poolNode (page * 65536)) && !s.recallOn page &&
    s.hleases.any fun h => h.page = page && h.pos = pos && h.grant = g && h.live s.ftime

/-- The home's answer to a renewal: a new grant stamp, or the refusal, which loses the page (R425). -/
def State.renewLease (s : State) (l : Lease) : State :=
  let me := s.podpos.toNat
  let s := s.send 0x04 (poolNode (l.page * 65536)) (paOf (l.page * 65536)) (natLe 8 l.grant.toNat)
  if s.renews l.page me l.grant then
    let now := s.ftime
    { s with
      leases := s.leases.map fun (x : Lease) => if x.page = l.page then { x with grant := now, used := false, lapse := false } else x
      hleases := s.hleases.map fun (h : HomeLease) => if h.page = l.page && h.pos = me then { h with grant := now } else h }
  else s.loseLease l.page

/-- LEASE_RENEWAL of a page, 2 ms into its term: it is renewed, or left to lapse. -/
def State.leaseRenewal (s : State) (page : Nat) : State :=
  match s.leases.find? fun l => l.page = page with
  | some l =>
    if !s.renewDue l then s
    else if s.renewWanted l then s.renewLease l
    else { s with leases := s.leases.map fun (x : Lease) => if x.page = page then { x with lapse := true } else x }
  | none => s

def execLeaseRenewal (page : Nat) (s : State) : Host.Outcome State Fault Refusal := .next (s.leaseRenewal page)

/-- LEASE_EXPIRY: 10 µs before the term's end the package stops serving the page. -/
def State.leaseExpiry (s : State) (page : Nat) : State :=
  match s.leases.find? fun l => l.page = page with
  | some l => if l.served s.ftime then s else s.loseLease page
  | none => s

def execLeaseExpiry (page : Nat) (s : State) : Host.Outcome State Fault Refusal := .next (s.leaseExpiry page)

/-! ### Answers and outcomes (R217, R422, R423) -/

/-- Status bytes of answers: RERR values, 5 for refusal; 15 stands for OP 0x0F, the poison that replaces a response (log
entry 24). -/
def refusedStatus : Nat := 5
def poisonStatus : Nat := 15

/-- The last answer to a sender: its status byte, then its data. -/
def State.answer (s : State) (t : Txn) (status : Nat) (data : List Byte) : State :=
  { s with answers := insertAt s.answers t.src (BitVec.ofNat 8 status :: data) }

/-- The outcome that the home keeps of a transaction's (SRC, TSEQ). -/
def State.outcome? (s : State) (t : Txn) : Option Outc :=
  s.outs.find? fun o => o.src = t.src && o.node = t.node && o.tseq = t.tseq

/-- Keep the outcome of a transaction and answer it. -/
def State.settled (s : State) (t : Txn) (st : Nat) (bs : List Byte) : State :=
  State.answer { s with outs := keepOutcome s.outs ⟨t.src, t.node, t.tseq, st, bs⟩ } t st bs

/-- Apply a transaction at most once for its (SRC, TSEQ) at its home; a repeat gets the recorded outcome. -/
def State.once (s : State) (t : Txn) (f : State → State × Nat × List Byte) : State :=
  match s.outcome? t with
  | some o => s.answer t o.status o.data
  | none =>
    let (s, st, bs) := f s
    s.settled t st bs

/-- The same where the node may be down, when the port answers with a status of its own (R428). -/
def State.atHome (s : State) (t : Txn) (down : Nat) (f : State → State × Nat × List Byte) : State :=
  if s.nodeUp t.node then s.once t f else s.answer t down []

/-- Keep what waits for the recall of leases, once. -/
def State.keepHeld (s : State) (h : Accepted) : State := if s.accepted.contains h then s else { s with accepted := s.accepted ++ [h] }

/-- A write to the pool bytes of some ranges: a status other than 0 refuses it; it is applied once the leases of its pages are
recalled; until then it is kept, accepted, and has no outcome (R105). own: the sender's own leases go too. -/
def State.applyWrite (s : State) (t : Txn) (down status : Nat) (rs : List (Nat × Nat)) (own : Bool) (held : Accepted)
    (f : State → State) : State :=
  if !s.nodeUp t.node then s.answer t down []
  else
    match s.outcome? t with
    | some o => s.answer t o.status o.data
    | none =>
      if status != 0 then s.settled t status []
      else
        match s.recallPages (poolPages rs) own with
        | (s, true) => (f s).settled t 0 []
        | (s, false) => s.keepHeld held

/-- Is the sender this package? -/
def State.mine (s : State) (t : Txn) : Bool := t.src = s.podpos.toNat

/-- The key address that a transaction names. -/
def txnKey (t : Txn) : Nat := keyOf 1 t.addr

/-! ### Reads -/

/-- The answer to a read of n bytes: its status and the data, or poison. -/
def State.poolData (s : State) (t : Txn) (a n : Nat) : State × Nat × List Byte :=
  if !s.nodeUp t.node then (s, poisonStatus, [])
  else
    let (s, bs) := s.homeRead a n
    if bs.any (·.2) then (s, poisonStatus, []) else (s, 0, bs.map (·.1))

/-- A Read carries 64 bytes to 4 KiB, aligned; any other is refused (log entry 24). -/
def readOk (a n : Nat) : Bool := decide (64 ≤ n) && decide (n ≤ 4096) && n % 64 = 0 && a % 64 = 0

def execRead (t : Txn) (len : Nat) (s : State) : Host.Outcome State Fault Refusal :=
  .next (if readOk t.addr len then
      match s.poolData t (txnKey t) len with
      | (s, st, bs) => s.answer t st bs
    else s.answer t refusedStatus [])

/-- The pieces of a bulk get: each its status byte and its data, at most 4 KiB, in ascending order. -/
def State.bulkPieces (s : State) (t : Txn) (a : Nat) : Nat → Nat → State × List Byte
  | 0, _ => (s, [])
  | f + 1, n =>
    if n = 0 then (s, [])
    else
      let k := min n 4096
      let (s, st, bs) := s.poolData t a k
      let (s, rest) := s.bulkPieces t (a + k) f (n - k)
      (s, BitVec.ofNat 8 st :: bs ++ rest)

def execBulkGet (t : Txn) (len : Nat) (s : State) : Host.Outcome State Fault Refusal :=
  .next (match s.bulkPieces t (txnKey t) 256 (min len (2 ^ 20)) with
    | (s, bs) => s.answer t 0 bs)

/-! ### Leases at the wire (R105, R106, R425) -/

/-- A home grants a page to a sender now. -/
def State.grant (s : State) (page pos : Nat) : State :=
  { s with hleases := ⟨page, pos, s.ftime⟩ :: s.hleases.filter fun h => !(h.page = page && h.pos = pos) }

/-- The grant stamp and the page's data, each line behind a byte that says whether it is poisoned. -/
def State.grantAnswer (s : State) (t : Txn) (page : Nat) : State :=
  let line (i : Nat) : List Byte :=
    BitVec.ofNat 8 (natOfBool (s.poisoned.contains (page * 1024 + i))) :: s.mem.bytes ((page * 1024 + i) * 64) 64
  s.answer t 0 (natLe 8 s.ftime.toNat ++ (List.range 1024).flatMap line)

/-- This package takes a grant made now. -/
def State.takeGrant (s : State) (page : Nat) : State :=
  { s with leases := ⟨page, s.ftime, true, false⟩ :: s.leases.filter fun l => l.page != page }

/-- LEASE_ACQUIRE: refused while a recall of the page is in progress. A refusal loses the page for this package. -/
def State.leaseAcquire (s : State) (t : Txn) : State :=
  let page := leasePage (txnKey t)
  if !s.nodeUp t.node || s.recallOn page then (if s.mine t then s.loseLease page else s).answer t refusedStatus []
  else
    let s := if s.mine t then s.takeGrant page else s
    (s.grant page t.src).grantAnswer t page

def execLeaseAcquire (t : Txn) (s : State) : Host.Outcome State Fault Refusal := .next (s.leaseAcquire t)

/-- LEASE_RENEW with the grant stamp that the sender holds: refused unless it is the current one. -/
def State.leaseRenew (s : State) (t : Txn) (g : BitVec 64) : State :=
  let page := leasePage (txnKey t)
  if s.renews page t.src g then
    let now := s.ftime
    let s := s.grant page t.src
    let s := if s.mine t then
        { s with leases := s.leases.map fun (x : Lease) => if x.page = page then { x with grant := now, used := false, lapse := false } else x }
      else s
    s.answer t 0 (natLe 8 now.toNat)
  else
    let s := if s.mine t then s.loseLease page else s
    s.answer t refusedStatus []

def execLeaseRenew (t : Txn) (g : BitVec 64) (s : State) : Host.Outcome State Fault Refusal := .next (s.leaseRenew t g)

/-- LEASE_RELEASE: no answer. -/
def State.leaseRelease (s : State) (t : Txn) : State :=
  let page := leasePage (txnKey t)
  let s := if s.mine t then s.loseLease page else s
  if s.nodeUp t.node then { s with hleases := s.hleases.filter fun h => !(h.page = page && h.pos = t.src) } else s

def execLeaseRelease (t : Txn) (s : State) : Host.Outcome State Fault Refusal := .next (s.leaseRelease t)

/-- RECALL of a page by its home: invalidated before the acknowledgement; one that is not held is acknowledged at once. -/
def State.recall (s : State) (t : Txn) : State :=
  let page := leasePage (txnKey t)
  (s.yieldLease page).answer t 0 []

def execRecall (t : Txn) (s : State) : Host.Outcome State Fault Refusal := .next (s.recall t)

/-! ### Billets and commits at the log home (R34, R119, R124) -/

/-- REGION of a record at its home. -/
def State.recRegion (s : State) (pa : Nat) : Nat := s.mem.nat pa 4 / 256 % 65536

/-- Keep a billet that has been applied: in its log of this package as shipped, else, at the log home of the record at pa, among the
logs of other packages, under the tenant of the record's region (R119, R218, log entry 98). -/
def State.keepBillet (s : State) (num : BitVec 32) (b : Billet) (pa : Option Nat) : State :=
  match s.log? num, pa with
  | some _, _ => s.mapBillet num b.seg fun x => { x with shipped := true }
  | none, none => s
  | none, some pa =>
    let r := s.recRegion pa
    let g := (s.rlogs.find? fun g => g.num = num).getD ⟨num, BitVec.ofNat 16 (s.effTenant r), BitVec.ofNat 16 r, 0, 0, [], false, false⟩
    let g := if g.bills.any fun x => x.seg = b.seg then g else { g with bills := g.bills ++ [b], stamp := b.stamp }
    { s with rlogs := g :: s.rlogs.filter fun x => x.num != num }

/-- Apply a billet at every pool home that it targets (R119); pa: the record whose log home it came to. -/
def State.applyShipped (s : State) (num : BitVec 32) (b : Billet) (pa : Option Nat) : State :=
  (s.applyHome num b 1).keepBillet num b pa

/-- A log home notes that a release has some billets applied and waits for the rest, until its last (R119). -/
def State.noteOpen (s : State) (num : BitVec 32) (b : Billet) (pa : Nat) : State :=
  let rest := s.opens.filter fun o => !(o.pa = pa && o.log = num && o.stamp = b.stamp)
  { s with opens := if b.lastRel then rest else ⟨pa, num, b.stamp, s.ftime⟩ :: rest }

/-- Does a billet target a node that does not answer? -/
def State.deadTargets (s : State) (b : Billet) : Bool :=
  b.data.any fun r => spaceOf r.addr = 1 && !s.nodeUp (poolNode r.addr)

def Billet.ranges (b : Billet) : List (Nat × Nat) := b.data.map fun r => (r.addr, r.data.length)

/-- The status of a billet at its arrival at the log home, whose record ADDR names, or at a node that its records target, with
ADDR 0 and no token check (R119; log entry 98). -/
def State.shipCheck (s : State) (t : Txn) (b : Billet) : Nat :=
  if t.addr != 0 && b.ftok.toNat < s.recToken (txnKey t) then 1 else if s.deadTargets b then 3 else 0

/-- The record whose log home a billet came to. -/
def txnRec (t : Txn) : Option Nat := if t.addr = 0 then none else some (txnKey t)

/-- The records of a billet are applied and forwarded. -/
def State.takeBillet (s : State) (t : Txn) (num : BitVec 32) (b : Billet) : State :=
  let s := s.applyShipped num b (txnRec t)
  let s := match txnRec t with
    | some pa => s.noteOpen num b pa
    | none => s
  s.reapLogs

/-- BILLET_SHIP: the billet's CRC and token are checked at its arrival, and not when a wait for leases is over. -/
def State.billetShip (s : State) (t : Txn) (body : List Byte) (again : Bool) : State :=
  match billetOf body with
  | none => s.applyWrite t 3 4 [] true (.ship t body) id
  | some (num, b) =>
    let st := if again then (if s.deadTargets b then 3 else 0) else s.shipCheck t b
    s.applyWrite t 3 st b.ranges true (.ship t body) fun s => s.takeBillet t num b

/-- BILLET_SHIP carries the billet's header and its record area (R109, R422). -/
def execBilletShip (t : Txn) (head area : List Byte) (s : State) : Host.Outcome State Fault Refusal :=
  .next (s.billetShip t (head ++ area) false)

/-- The billets of some bodies with their log: none when one does not hold. -/
def billetsOf : List (List Byte) → Option (List (BitVec 32 × Billet))
  | [] => some []
  | x :: xs =>
    match billetOf x, billetsOf xs with
    | some e, some l => some (e :: l)
    | _, _ => none

/-- The type 3 record of a commit for the record at an address. -/
def commitRec (bs : List Billet) (addr : Nat) : Option (Billet × Rec) :=
  (bs.flatMap fun b => (b.recs.filter fun r => r.kind = 3 && r.addr = addr).map fun r => (b, r)).getLast?

/-- The word of the pool-scope release whose tail is a billet. -/
def Billet.word (b : Billet) (log : BitVec 32) : RelWord :=
  let hrec := ((b.recs.getLast?).map Rec.size).getD 0
  let hoff := if b.hk = 0 then 0 else (b.used - hrec) / 8
  ⟨b.stamp, BitVec.ofNat 64 (log.toNat + b.seg * 2 ^ 32 + hoff * 2 ^ 48 + b.hk.val * 2 ^ 57 + 2 ^ 59)⟩

/-- The status of a commit of the record at an address (R34). -/
def State.commitCheck (s : State) (pa : Nat) (bs : List Billet) (c : Billet × Rec) : Nat :=
  if c.1.ftok.toNat != s.recToken pa then 1
  else if bytesNat c.2.data 56 4 != s.recSteps pa then 2
  else if bs.any s.deadTargets then 3
  else 0

/-- STEP_COMMIT: billets and record applied together when FTOKEN and STEPSEQ match; the step count rises, the release is kept, and
a record left done has no holder. A commit without its type 3 record has no meaning and no outcome. Token and step count are
checked at its arrival, and not when a wait for leases is over. -/
def State.stepCommit (s : State) (t : Txn) (bodies : List (List Byte)) (again : Bool) : State :=
  match billetsOf bodies with
  | none => s.applyWrite t 3 4 [] true (.commit t bodies) id
  | some l =>
    let bs := l.map (·.2)
    let pa := txnKey t
    match commitRec bs pa, l.getLast? with
    | some (b, r), some (num, tail) =>
      let st := if again then (if bs.any s.deadTargets then 3 else 0) else s.commitCheck pa bs (b, r)
      s.applyWrite t 3 st ((pa, 64) :: bs.flatMap Billet.ranges) true (.commit t bodies) fun s =>
        let s := l.foldl (fun (s : State) e => s.applyShipped e.1 e.2 (some pa)) s
        let s := s.devAtomic (pa + 56) (natLe 4 (bytesNat r.data 56 4 + 1))
        let s := { s with commits := insertAt s.commits pa (tail.word num) }
        let s := if bytesNat r.data 0 1 % 16 = 4 then { s with holders := s.holders.filter fun h => h.1 != pa } else s
        s.reapLogs
    | _, _ => s

def execStepCommit (t : Txn) (bodies : List (List Byte)) (s : State) : Host.Outcome State Fault Refusal := .next (s.stepCommit t bodies false)

/-! ### Claims (R426) -/

/-- CLAIM at the record's home; this package's dispatcher acts on the answer to its own. -/
def State.claimTxn (s : State) (c : ClaimTxn) : State :=
  let pa := txnKey c.head
  s.atHome c.head refusedStatus fun s =>
    match s.claimAt pa c.head.src c.tok.toNat c.epoch.toNat with
    | (s, e) => (if s.mine c.head then s.claimAnswer pa e else s, (claimOutcome e).1, (claimOutcome e).2)

def execClaim (c : ClaimTxn) (s : State) : Host.Outcome State Fault Refusal := .next (s.claimTxn c)

/-! ### Atomics, reductions and writes in place (R105, R211, R213, R422) -/

/-- A home writes the result of an atomic or reduction of a sender; this package's own drops its copies of the line. -/
def State.homeModify (s : State) (t : Txn) (a : Nat) (bs : List Byte) : State :=
  if s.mine t then s.atomWrite a bs true else s.homeMerge a bs (s.atomKey a bs.length) false

def State.poolAtomic (s : State) (t : Txn) (op : AtKind) (w64 sgn : Bool) (a b : Word) : State :=
  let n := if w64 then 8 else 4
  s.atHome t poisonStatus fun s =>
    match s.homeNat (txnKey t) n with
    | (s, none) => (s, poisonStatus, [])
    | (s, some old) =>
      match atomNew op (8 * n) sgn old a.toNat b.toNat with
      | some new => (s.homeModify t (txnKey t) (natLe n new), 0, natLe n old)
      | none => (s, 0, natLe n old)

def execAtomic (t : Txn) (op : AtKind) (w64 sgn : Bool) (a b : Word) (s : State) : Host.Outcome State Fault Refusal :=
  .next (s.poolAtomic t op w64 sgn a b)

/-- A reduction of a run of elements. -/
def State.poolReduce (s : State) (t : Txn) (op : RedKind) (ety : EType) (data : List Byte) : State :=
  let b := elemBytes ety
  s.atHome t poisonStatus fun s =>
    match s.homeRead (txnKey t) data.length with
    | (s, old) =>
      if old.any (·.2) then (s, poisonStatus, [])
      else (s.homeModify t (txnKey t) (combine (credNew op ety) b (data.length / b) (old.map (·.1)) data), 0, [])

def execReduction (t : Txn) (op : RedKind) (ety : EType) (data : List Byte) (s : State) : Host.Outcome State Fault Refusal :=
  .next (s.poolReduce t op ety data)

/-- An SO or UO store of 1 to 64 bytes at its home, once the leases of its page are recalled: those of other packages only when it
is this package's own (log entry 75). -/
def State.poolWrite (s : State) (t : Txn) (data : List Byte) : State :=
  s.applyWrite t poisonStatus 0 [(txnKey t, data.length)] (!s.mine t) (.write t data) fun s => (s.homePut (txnKey t) data).1

def execInPlaceWrite (t : Txn) (data : List Byte) (s : State) : Host.Outcome State Fault Refusal := .next (s.poolWrite t data)

/-! ### Loss of a package (R41, R427) -/

/-- Raise one record: FTOKEN + 1, ready, WKIND 0, no holder. -/
def State.raiseRecord (s : State) (pa : Nat) : State :=
  let tok := (s.recToken pa + 1) % 2 ^ 32
  let b0 := s.mem.nat pa 1
  let s := s.devAtomic pa (natLe 1 (b0 / 16 * 16 + 1))
  let s := s.devAtomic (pa + 40) (natLe 8 0)
  let s := s.devAtomic (pa + 60) (natLe 4 tok)
  { s with holders := s.holders.filter fun h => h.1 != pa }

/-- The virtual address of a record in its region's continuation area. -/
def State.findVa (s : State) (ten carea pa : Nat) : Nat → Nat → Option Nat
  | 0, _ => none
  | n + 1, i =>
    match s.devRange ten (carea + 64 * i) 64 .read with
    | (_, .ok (p :: _)) => if p.part.addr = pa then some (carea + 64 * i) else s.findVa ten carea pa n (i + 1)
    | _ => s.findVa ten carea pa n (i + 1)

/-- REASSIGN at this package: the record is read at its home, its continuation enters the ready set of the region (R41, R427). A
record outside the region's continuation area has its pool address for the address of the continuation (DESIGN CHOICE, log entry
110). -/
def State.reassign (s : State) (t : Txn) (region : Nat) : State :=
  s.once t fun s =>
    let pa := txnKey t
    match s.homeRead pa 64 with
    | (s, bs) =>
      if bs.any (·.2) then (s, poisonStatus, [])
      else
        let va := (s.findVa (s.effTenant region) (s.rcb region 120 8 % 2 ^ 57) pa (s.rcb region 128 4) 0).getD (paOf pa)
        let (s, k) := s.adopt va pa region (bs.map (·.1)) true
        (s.makeReady k, 0, [])

def execReassign (t : Txn) (region : Nat) (s : State) : Host.Outcome State Fault Refusal := .next (s.reassign t region)

/-- A node as the sender of a transaction: behind the 1,024 pod positions. -/
def nodeSrc (node : Nat) : Nat := 1024 + node

/-- A node hands a raised record to this package: a Reassign with the node's next TSEQ. -/
def State.handOver (s : State) (node pa : Nat) : State :=
  let q := lookupD s.txseq (65536 + node) 0
  let s := { s with txseq := insertAt s.txseq (65536 + node) ((q + 1) % 2 ^ 32) }
  s.reassign ⟨node, nodeSrc node, q, paOf pa⟩ (s.recRegion pa)

/-- The records at a node whose holder is a package. -/
def State.heldRecs (s : State) (lost node : Nat) : List Nat := (s.holders.filter fun h => h.2 = lost && poolNode h.1 = node).map (·.1)

/-- Does an accepted write belong to a release of a record? -/
def Accepted.ofRecord (pa : Nat) : Accepted → Bool
  | .ship t _ => txnRec t = some pa
  | .commit t _ => txnKey t = pa
  | _ => false

/-- Has the log home accepted a release of the record that is not yet applied whole? One whose next billet has not come for RESPTO
has failed (R119, R427; DESIGN CHOICE, log entry 111). -/
def State.relPending (s : State) (pa : Nat) : Bool :=
  s.accepted.any (Accepted.ofRecord pa) ||
    s.opens.any fun o => o.pa = pa && decide (s.ftime.toNat < o.since.toNat + s.mgmt.respto.toNat)

/-- TOKEN_RAISE at a node: every record there whose holder is the lost package is raised, once no accepted release of them is left
to apply; those that this package is to run are handed to it by Reassigns, which it acts on. -/
def State.tokenRaise (s : State) (t : Txn) (lost target : Nat) : State :=
  if s.nodeUp t.node && (s.outcome? t).isNone && (s.heldRecs lost t.node).any s.relPending then s.keepHeld (.raise t lost target)
  else s.atHome t 3 fun s =>
    let recs := s.heldRecs lost t.node
    let s := recs.foldl State.raiseRecord s
    (if target = s.podpos.toNat then recs.foldl (fun s pa => s.handOver t.node pa) s else s, 0, natLe 4 recs.length)

def execTokenRaise (t : Txn) (lost target : Nat) (s : State) : Host.Outcome State Fault Refusal := .next (s.tokenRaise t lost target)

/-- LOST_COMPLETION_WRITE: the reassigning agent writes DONE, ERR and ECODE 6 into a word whose DONE is clear, and sixteen
zero bytes after one that has a release word. space 0 is pool memory, 1 host memory. -/
def State.lostCompletion (s : State) (space : Fin 2) (addr : Nat) : State :=
  let k := keyOf (space.val + 1) addr
  if !s.homeUp k || bitOf (s.mem.nat k 8) 63 then s
  else
    let bs := natLe 8 (complWord 0 0 6) ++ (if addr % 16 = 8 then natLe 16 0 else [])
    if space = 0 then
      match s.recallPages (poolPages [(k, bs.length)]) true with
      | (s, true) => s.devAtomic k bs
      | (s, false) => s.keepHeld (.lost space addr)
    else (s.homeWrite k bs).1

def execLostCompletionWrite (space : Fin 2) (addr : Nat) (s : State) : Host.Outcome State Fault Refusal :=
  .next (s.lostCompletion space addr)

/-! ### What waits at the homes (R105, R119, R427) -/

/-- Try an accepted write or raise again. -/
def State.carryOut (s : State) : Accepted → State
  | .ship t body => s.billetShip t body true
  | .commit t bodies => s.stepCommit t bodies true
  | .write t data => s.poolWrite t data
  | .lost space addr => s.lostCompletion space addr
  | .raise t lost target => s.tokenRaise t lost target

/-- Try all of them again, in the order of acceptance; what still waits is kept again. -/
def State.retryHeld (s : State) : State :=
  s.accepted.foldl (fun (s : State) h => State.carryOut { s with accepted := s.accepted.erase h } h) s

/-- Another package acknowledges the recall of a page (R105). -/
def State.recallAcked (s : State) (page pos : Nat) : State :=
  State.retryHeld { s with hleases := s.hleases.filter fun h => !(h.page = page && h.pos = pos) }

/-! ### Collectives, poison, reserved codes -/

/-- COLLECTIVE: a peer's blocks arrive; they join the participants of this package. -/
def State.collBlocks (s : State) (t : Txn) (b : CollBlock) : State :=
  let g : GroupRec := ⟨b.group, b.nrank, b.rank, b.seq, 0, 0⟩
  (s.joinColl g ⟨b.rank, b.kind, b.op, b.ety, b.n, b.data, none⟩).answer t 0 []

def execCollective (t : Txn) (b : CollBlock) (s : State) : Host.Outcome State Fault Refusal := .next (s.collBlocks t b)

/-- An outstanding access whose response poison has replaced. -/
def State.poisonAcc (s : State) (a : Acc) : State :=
  match a.kind with
  | .load _ _ elems _ => s.finishAcc a (accBad a.pform (elems.map fun _ => 0) .poison 0 0) false
  | .loadTile .. => s.finishAcc a ⟨[], true, some (.poison, 0, 0)⟩ false
  | .atom .. => s.finishAcc a (atomBad a.pform 1 0) false
  | .redi .. | .redf .. => s.finishAcc a ⟨[], false, some (.poison, 4, 0)⟩ false
  | _ => s

/-- POISON: the tag in ADDR names the request. For a request of this package the access of the core in focus with that number
ends poisoned; another sender finds poison for its answer. -/
def State.poisonTxn (s : State) (t : Txn) : State :=
  if s.mine t then
    match s.core.acc? t.addr with
    | some a => if a.rel.isNone then s.poisonAcc a else s
    | none => s
  else s.answer t poisonStatus []

def execPoison (t : Txn) (s : State) : Host.Outcome State Fault Refusal := .next (s.poisonTxn t)

/-- RESERVED_TRANSACTION: dropped, with an ash record of the port. -/
def execReservedTransaction (op : BitVec 8) (t : Txn) (s : State) : Host.Outcome State Fault Refusal :=
  .next (s.ashNote 16 3 op.toNat (s.portOf t.node) 0 0 t.addr [])

/-! ### Agents that do not answer (R428) -/

/-- Every lease page held from a node is recalled inside the package, its pending replays discarded. -/
def State.dropNode (s : State) (node : Nat) : State :=
  let pages := (s.leases.filter fun l => poolNode (l.page * 65536) = node).map (·.page)
  let s := pages.foldl (fun s p => (s.loseLease p).discardPending p) s
  let me := s.podpos.toNat
  { s with hleases := s.hleases.filter fun h => !(h.pos = me && pages.contains h.page) }

def State.setNode (s : State) (node : Nat) (x : NodeState) : State :=
  let s := { s with nodes := insertAt s.nodes node x }
  if x = .up then s else s.dropNode node

/-! ### Response timers (R428) -/

/-- The pool bytes that an access asks for at their homes. -/
def AccKind.asks : AccKind → List Nat
  | .load _ _ elems _ => elems.flatten.map (·.addr)
  | .loadTile _ ps _ => ps.map (·.addr)
  | .atom _ a .. => [a]
  | .redi _ a .. => [a]
  | .redf _ a .. => [a]
  | .acqFlag a _ => [a]
  | _ => []

/-- Does a space-1 address lie at a node? -/
def atNode (node a : Nat) : Bool := spaceOf a = 1 && poolNode a = node

/-- Does an access of a core with a step wait for a node: its own, or the homes of its release? -/
def State.accAsks (s : State) (c : Core) (node : Nat) (a : Acc) : Bool :=
  a.kind.asks.any (atNode node) || (match a.rel, c.ctx with
    | some r, some x => ((s.relRanges x r).any fun e => atNode node e.1) || (r.pool && atNode node x.base.pa)
    | _, _ => false)

/-- Does a collective that a command has begun wait for a peer? -/
def State.collAsks (s : State) (node : Nat) (m : CCmd) : Bool :=
  m.op = .ccoll && m.begun && !m.done &&
    (match s.coll? (Sys2Proof.Machine.groupOf m.lay) with
      | some c => State.collDead { s with nodes := [(node, .dead)] } (Sys2Proof.Machine.groupOf m.lay) c
      | none => false)

/-- Does a begun copy command of the core in focus read or write bytes at a node? -/
def State.copyAsks (s : State) (node : Nat) (m : CCmd) : Bool :=
  m.begun && !m.done && (s.copyRuns m.op m.d ((copySpans m.op m.d).getD [])).any fun p =>
    p.ep.spc = 0 && p.len != 0 &&
      match (s.access s.tenant s.core.caps[p.ep.cap] p.ep.off p.len 1 [] .read).2 with
      | .ok ps => ps.any fun q => atNode node q.part.addr
      | .error _ => false

/-- Does a draft entry in flight wait for pages at a node? -/
def State.draftAsks (s : State) (node : Nat) (j : DraftJob) : Bool :=
  match s.draftBytes j.die j.idx.toNat with
  | some bs => bytesNat bs 28 4 % 8 = 1 && (draftPages bs).any fun p => atNode node (p * 65536)
  | none => false

/-- Has a request to a node been outstanding for RESPTO? -/
def State.overdue (s : State) (node : Nat) : Bool :=
  let old (t : BitVec 64) : Bool := decide (t.toNat + s.mgmt.respto.toNat ≤ s.ftime.toNat)
  (s.drafts.any fun j => old j.since && s.draftAsks node j) || s.known.any fun n =>
    let c := s.coreAt n
    (c.accs.any fun a => old a.since && s.accAsks c node a) ||
      c.copy.any fun m => old m.since && ((s.focus n).collAsks node m || (s.focus n).copyAsks node m)

/-- RESPONSE_TIMEOUT: the timer of a request to the node has expired, and the hardware marks the node Unresponsive. -/
def execResponseTimeout (node : Nat) (s : State) : Host.Outcome State Fault Refusal :=
  .next (if s.nodeUp node && s.overdue node then s.setNode node .unresponsive else s)

/-- NODE_STATE_WRITE: the fabric manager writes Up or Dead. -/
def execNodeStateWrite (node : Nat) (up : Bool) (s : State) : Host.Outcome State Fault Refusal :=
  .next (s.setNode node (if up then .up else .dead))

end Sys2Proof.Machine
end

