-- ==== Sys2Proof/Machine/Link.lean ====
section
/-!
DEFINITION. The optical ports: flits, replay, sending, wavelengths, bring-up, laser ageing (R418 to R421, R424, R435, R436, R451).
-/

namespace Sys2Proof.Machine

def State.port (s : State) (n : Nat) : Port := lookupD s.ports n Port.reset

def State.setPort (s : State) (n : Nat) (p : Port) : State := { s with ports := insertAt s.ports n p }

def State.mapPort (s : State) (n : Nat) (f : Port → Port) : State := s.setPort n (f (s.port n))

/-! ### Flits as bytes (R418) -/

/-- CRC-64 with the ECMA-182 polynomial: most significant bit first, from 0, no final inversion (PRESUMED, log entry 99). -/
def crc64Bit (c : Nat) : Nat := if 2 ^ 63 ≤ c then (c * 2 - 2 ^ 64) ^^^ 0x42F0E1EBA9EA3693 else c * 2

def crc64Byte (c : Nat) (b : Byte) : Nat := (List.range 8).foldl (fun c _ => crc64Bit c) (c ^^^ b.toNat * 2 ^ 56)

/-- The register after more bytes. The match has each step's value before the next, so that evaluating it does not nest. -/
def crc64From (c : Nat) : List Byte → Nat
  | [] => c
  | b :: bs =>
    match crc64Byte c b with
    | 0 => crc64From 0 bs
    | n + 1 => crc64From (n + 1) bs

def crc64 (bs : List Byte) : Nat := crc64From 0 bs

/-- Bytes of a flit's payload. -/
def payloadBytes : Nat := 240

/-- The 256 bytes of a flit. -/
def flitBytes (seq ack : BitVec 12) (ftype cred : Nat) (payload : List Byte) : List Byte :=
  let body := natLe 8 (seq.toNat + ack.toNat * 2 ^ 12 + ftype % 16 * 2 ^ 24 + cred % 256 * 2 ^ 28) ++
    (payload ++ List.replicate payloadBytes 0).take payloadBytes
  body ++ natLe 8 (crc64 body)

def flitSeq (raw : List Byte) : BitVec 12 := BitVec.ofNat 12 (bytesNat raw 0 8)
def flitAck (raw : List Byte) : BitVec 12 := BitVec.ofNat 12 (bytesNat raw 0 8 / 2 ^ 12)
def flitType (raw : List Byte) : Nat := bitsOf (bytesNat raw 0 8) 24 4
def flitCred (raw : List Byte) : Nat := bitsOf (bytesNat raw 0 8) 28 8
def flitPayload (raw : List Byte) : List Byte := (raw.drop 8).take payloadBytes

/-- Has a flit arrived whole: every codeword correctable (fec: RS(544,514) decoding is the outside's, log entry 99), the CRC
right, the type not reserved? -/
def flitGood (raw : List Byte) (fec : Bool) : Bool :=
  fec && raw.length = 256 && bytesNat raw 248 8 = crc64 (raw.take 248) && decide (flitType raw < 4)

/-- How many wavelengths a map names. -/
def Port.count (m : BitVec 10) : Nat := (List.range 10).foldl (fun n k => n + natOfBool (m.getLsbD k)) 0

/-- The bytes of a flit over the wavelengths of a map, one to each in turn, in ascending number (R421). -/
def stripe (m : BitVec 10) (bytes : List Byte) : List (Nat × List Byte) :=
  let waves := (List.range 10).filter fun k => m.getLsbD k
  waves.zipIdx.map fun (k, i) =>
    (k, (List.range ((bytes.length + waves.length - 1 - i) / waves.length)).map fun j => bytes.getD (i + j * waves.length) 0)

/-! ### Receipt and replay (R418, R419) -/

/-- An ACK covers every data flit up to its number; flits in the replay buffer are at most 256. -/
def Port.takeAck (p : Port) (ack : BitVec 12) : Port :=
  let open_ (q : BitVec 12) : Bool := decide (2048 ≤ (ack - q).toNat)
  let rest := p.unacked.filter fun e => open_ e.seq
  { p with
    unacked := rest
    resent := p.resent.filter open_
    txFails := if rest.length = p.unacked.length then p.txFails else 0
    sinceAck := 0 }

/-- What every good flit brings: its ACK and the credits that it returns. -/
def Port.heard (p : Port) (raw : List Byte) : Port :=
  let p := p.takeAck (flitAck raw)
  { p with credits := p.credits + flitCred raw }

/-- The link retrains. -/
def Port.retrain (p : Port) : Port := { p with state := 1, disc := false, fails := 0, txFails := 0 }

/-- A flit has failed at this receiver: it is discarded, and so is every later one until the expected flit comes; a NAK names the
last good one. mine: it is the expected flit again. Its eighth failure in a row makes the link retrain. -/
def Port.failRx (p : Port) (mine : Bool) : Port :=
  if p.disc && !mine then p
  else
    let p := { p with
      disc := true
      fails := p.fails + 1
      nakSent := p.nakSent + 1
      lanes := stripe p.active (flitBytes 0 (p.rxSeq - 1) 2 0 []) }
    if 8 ≤ p.fails then p.retrain else p

/-- Every unacknowledged flit is sent again; the eighth time in a row makes the link retrain. -/
def Port.resend (p : Port) : Port :=
  let p := { p with resent := p.unacked.map (·.seq), txFails := p.txFails + 1, sinceAck := 0 }
  if 8 ≤ p.txFails then p.retrain else p

/-- The expected data flit has come: its payload goes to the transaction layer, in order and once. -/
def Port.deliver (p : Port) (raw : List Byte) : Port :=
  Port.heard { p with
    rxData := p.rxData ++ [flitPayload raw]
    rxSeq := p.rxSeq + 1
    owed := p.owed + 1
    disc := false
    fails := 0 } raw

/-- Receipt of 256 bytes. A training flit brings its ACK and credits too, also to a link that trains; its set of wavelengths is
TRAINING_FLIT's. -/
def Port.rx (p : Port) (f : Flit) : Port :=
  let raw := f.raw
  if !p.isUp then (if p.state = 1 && flitGood raw f.fec && flitType raw = 3 then p.heard raw else p)
  else if !flitGood raw f.fec then p.failRx (flitSeq raw = p.rxSeq)
  else
    match flitType raw with
    | 0 => p.heard raw
    | 1 => if flitSeq raw = p.rxSeq then p.deliver raw else p.failRx false
    | 2 => (p.heard raw).resend
    | 3 => p.heard raw
    | _ => p

def execDataFlit (port : Nat) (f : Flit) (s : State) : Host.Outcome State Fault Refusal :=
  .next (s.mapPort port fun p => p.rx f)

/-- Receipt of a NAK: its ACK names the last good flit; all after it are sent again. -/
def execNakFlit (port : Nat) (f : Flit) (s : State) : Host.Outcome State Fault Refusal :=
  .next (s.mapPort port fun p => p.rx f)

/-- Receipt of an idle flit: its ACK and its credits. -/
def execIdleFlit (port : Nat) (f : Flit) (s : State) : Host.Outcome State Fault Refusal :=
  .next (s.mapPort port fun p => p.rx f)

/-- REPLAY_TIMEOUT: 1 µs without an ACK. -/
def Port.replayDue (p : Port) : Bool := p.isUp && !p.unacked.isEmpty && decide (1000 ≤ p.sinceAck)

def execReplayTimeout (port : Nat) (s : State) : Host.Outcome State Fault Refusal :=
  .next (if (s.port port).replayDue then s.mapPort port Port.resend else s)

/-! ### Sending (R419, R424) -/

/-- The regions that wait at a port with what each may still send, in their order of turns: those that wait no more are dropped. -/
def Port.waiting (p : Port) : List (Nat × Nat) :=
  let regs := (p.egress.map (·.region)).eraseDups
  let old := p.deficit.filter fun e => regs.contains e.1
  old ++ (regs.filter fun r => old.all fun e => e.1 != r).map fun r => (r, 0)

/-- One act of the deficit round robin: the first region's next transaction goes out when it is within what the region may send,
else the turn passes to the next region, which gets its quantum. -/
def Port.choose (p : Port) (quantum : Nat → Nat) : Port :=
  match p.waiting with
  | [] => { p with deficit := [] }
  | (r, left) :: rest =>
    match p.egress.find? fun e => e.region = r with
    | none => p
    | some e =>
      if e.bytes.length ≤ left then
        { p with
          deficit := (r, left - e.bytes.length) :: rest
          egress := p.egress.erase e
          line := p.line ++ e.bytes.map fun b => (e.node, b) }
      else
        match rest ++ [(r, left)] with
        | (x, n) :: t => { p with deficit := (x, n + quantum x) :: t }
        | [] => p

/-- The next data flit, from the bytes at the head of the line. -/
def Port.nextFlit (p : Port) : SentFlit :=
  let part := p.line.take payloadBytes
  { seq := p.txSeq
    bytes := flitBytes p.txSeq (p.rxSeq - 1) 1 (min 255 p.owed) (part.map (·.2))
    nodes := (part.map (·.1)).eraseDups }

/-- May a new data flit go: a credit, room in the replay buffer of 256 flits? -/
def Port.mayForm (p : Port) : Bool := !p.line.isEmpty && p.credits != 0 && decide (p.unacked.length < 256)

/-- One flit of a port that is up: a stored one that is to be sent again, else a new one. -/
def Port.sendNext (p : Port) : Port :=
  if !p.isUp || p.active = 0 then p
  else
    match p.resent with
    | q :: rest =>
      match p.unacked.find? fun f => f.seq = q with
      | some f => { p with resent := rest, lanes := stripe p.active f.bytes }
      | none => { p with resent := rest }
    | [] =>
      if p.mayForm then
        let f := p.nextFlit
        { p with
          txSeq := p.txSeq + 1
          credits := p.credits - 1
          owed := p.owed - min 255 p.owed
          line := p.line.drop payloadBytes
          unacked := p.unacked ++ [f]
          lanes := stripe p.active f.bytes
          sinceAck := if p.unacked.isEmpty then 0 else p.sinceAck }
      else p

/-- One clock of a port, of some ns: the time since the last ACK goes on, transactions are chosen, one flit is sent; while it is
not up transactions wait in its egress. -/
def Port.clock (p : Port) (quantum : Nat → Nat) (ns : Nat) : Port :=
  if !p.isUp then p else
  let p := if p.unacked.isEmpty then p else { p with sinceAck := p.sinceAck + ns }
  (if p.line.length < payloadBytes then p.choose quantum else p).sendNext

/-- One clock of every port; the quantum of a region is POOLWT × 256 bytes (R424). -/
def State.portsClock (s : State) (ns : Nat) : State :=
  { s with ports := s.ports.map fun (e : Nat × Port) => (e.1, e.2.clock (fun r => s.effPoolwt r * 256) ns) }

/-- Does a port still carry transactions to a node? -/
def Port.serves (p : Port) (node : Nat) : Bool :=
  (p.egress.any fun e => e.node = node) || (p.line.any fun e => e.1 = node) || p.unacked.any fun f => f.nodes.contains node

/-- Route writes take effect once the old port carries no transaction to the node and the new port is up (R424, R451). -/
def State.moveRoutes (s : State) : State :=
  let ready (e : Nat × Nat) : Bool := !(s.port (s.portOf e.1)).serves e.1 && (s.port e.2).isUp
  let m := s.mgmt
  { s with mgmt := { m with
      routes := (m.moves.filter ready).foldl (fun l e => insertAt l e.1 e.2) m.routes
      moves := m.moves.filter fun e => !ready e } }

/-- A write to the route table: the node's latest. -/
def State.writeRoute (s : State) (node port : Nat) : State :=
  State.moveRoutes { s with mgmt := { s.mgmt with moves := insertAt s.mgmt.moves node port } }

/-! ### Wavelengths (R421) -/

/-- STATE of a port that stripes over a set: down with fewer than 4 healthy wavelengths, those that are not BAD, or fewer in the
set. -/
def stateFor (m bad : BitVec 10) : Fin 4 :=
  if Port.count (~~~bad) < 4 || Port.count m < 4 then 0 else if Port.count m < 8 then 3 else 2

/-- Restripe over a set; flits in flight are replayed. -/
def Port.restripe (p : Port) (m : BitVec 10) : Port :=
  { p with active := m, state := stateFor m p.bad, resent := p.unacked.map (·.seq), disc := false, fails := 0, txFails := 0 }

/-- A set of wavelengths. -/
def waveSet (f : Nat → Bool) : BitVec 10 := (List.range 10).foldl (fun m k => if f k then m ||| (1 <<< k) else m) 0

/-- The 8 lowest of a set, or all of it. -/
def lowest8 (m : BitVec 10) : BitVec 10 :=
  waveSet fun k => m.getLsbD k && decide (((List.range k).filter fun j => m.getLsbD j).length < 8)

/-- TRAINING_FLIT: both ends stripe over the set that it names, at most 8 that are not BAD. -/
def execTrainingFlit (port : Nat) (active : BitVec 10) (s : State) : Host.Outcome State Fault Refusal :=
  .next (s.mapPort port fun p => p.restripe (lowest8 (active &&& ~~~p.bad)))

/-- The 1 ms window of a port: corrected symbols and uncorrectable codewords of each wavelength. -/
def Port.window (p : Port) (csym ucw : List Nat) : Port :=
  let out (k : Nat) : Bool :=
    p.active.getLsbD k && (decide (p.degth.toNat < csym.getD k 0) || decide (0 < ucw.getD k 0))
  let m := waveSet out
  let p := { p with
    csym := (List.range 10).map fun k => if p.active.getLsbD k then BitVec.ofNat 32 (csym.getD k 0) else p.csym.getD k 0
    ucw := (List.range 10).map fun k => BitVec.ofNat 16 (min 65535 ((p.ucw.getD k 0).toNat + ucw.getD k 0)) }
  if m = 0 then p else ({ p with bad := p.bad ||| m } : Port).restripe (p.active &&& ~~~m)

def execWavelengthWindow (port : Nat) (csym ucw : List Nat) (s : State) : Host.Outcome State Fault Refusal :=
  .next (s.mapPort port fun p => p.window csym ucw)

/-- SPARE_LOCK: a spare that trains is added to the stripe of fewer than 8; one that fails is marked BAD; a BAD wavelength
that trains again is BAD no more (log entry 26). -/
def Port.lock (p : Port) (k : Nat) (ok : Bool) : Port :=
  let w : BitVec 10 := waveSet (· = k)
  if w = 0 || p.active &&& w != 0 then p
  else if !ok then
    let bad := p.bad ||| w
    { p with bad := bad, state := if Port.count (~~~bad) < 4 then 0 else p.state }
  else if p.bad &&& w != 0 then { p with bad := p.bad &&& ~~~w }
  else if 8 ≤ Port.count p.active then p
  else p.restripe (p.active ||| w)

def execSpareLock (port : Nat) (lambda : Nat) (ok : Bool) (s : State) : Host.Outcome State Fault Refusal :=
  .next (s.mapPort port fun p => p.lock lambda ok)

/-! ### Bring-up and laser ageing (R435, R436, R451) -/

/-- A measured bias joins those that DRIFT needs. -/
def Port.record (p : Port) (hours bias : Nat) : Port :=
  { p with
    bias := BitVec.ofNat 24 bias
    history := ((hours, BitVec.ofNat 24 bias) :: p.history).filter fun e => decide (hours ≤ e.1 + 1000) }

/-- PORT_BRINGUP: the bias at constant power; near and far, the healthy wavelengths of each end. -/
def Port.bringup (p : Port) (bias : Nat) (near far : BitVec 10) : Port :=
  let m := lowest8 (near &&& far)
  { p.record p.hours.toNat bias with
    bad := ~~~near
    active := m
    state := if Port.count m < 4 then 0 else if Port.count m < 8 then 3 else 2
    txSeq := 0
    rxSeq := 0
    disc := false
    line := []
    unacked := []
    resent := []
    fails := 0
    txFails := 0
    sinceAck := 0 }

def execPortBringup (port : Nat) (bias : Nat) (near far : BitVec 10) (s : State) : Host.Outcome State Fault Refusal :=
  .next (s.mapPort port fun p => p.bringup bias near far)

/-- EOL of a measurement. -/
def eolOf (hours bias biasmax drift : Nat) : Nat :=
  if biasmax ≤ bias then hours
  else if drift = 0 then 0xFFFFFFFF
  else min 0xFFFFFFFF (hours + ((biasmax - bias) * 1000 + drift - 1) / drift)

/-- LASER_MEASUREMENT: one more hour on; the bias of 1,000 hours earlier gives DRIFT. -/
def Port.measure (p : Port) (bias : Nat) : Port :=
  let hours := min 0xFFFFFFFF (p.hours.toNat + 1)
  let old := (p.history.find? fun e => e.1 + 1000 = hours).map fun e => e.2.toNat
  let drift := if hours < 1000 then 0 else bias - old.getD bias
  { p.record hours bias with
    hours := BitVec.ofNat 32 hours
    drift := BitVec.ofNat 32 drift
    eol := BitVec.ofNat 32 (eolOf hours bias p.biasmax.toNat drift) }

def execLaserMeasurement (port : Nat) (bias : Nat) (s : State) : Host.Outcome State Fault Refusal :=
  .next (s.mapPort port fun p => p.measure bias)

end Sys2Proof.Machine
end

