-- ==== Sys2Proof/Machine/HostIf.lean ====
section
/-!
DEFINITION. The host: function registers, the window and its directory, loss of the host (R429 to R434).
-/

namespace Sys2Proof.Machine

/-! ### Function registers (R429, R430) -/

def State.mapFn (s : State) (n : Nat) (f : HostFn → HostFn) : State := s.setFn n (f (s.fn n))

/-- A write to LRTAIL: the entries below it are posted, and the doorbell shows in EVPEND.HOST (DEDUCED, log entry 58). -/
def State.ringDoorbell (s : State) (fn : Nat) (tail : BitVec 32) : State :=
  State.eventAll (s.mapFn fn fun f => { f with lrtail := tail }) 2

/-- LAUNCH_RING_DOORBELL. -/
def execLaunchRingDoorbell (fn : Nat) (tail : BitVec 32) (s : State) : Host.Outcome State Fault Refusal := .next (s.ringDoorbell fn tail)

/-- FAULT_RING_TAIL_WRITE: a write to FMTAIL. -/
def execFaultRingTailWrite (fn : Nat) (tail : BitVec 32) (s : State) : Host.Outcome State Fault Refusal :=
  .next (s.mapFn fn fun f => { f with fmtail := tail })

/-- Is the launch ring empty, so that LRBASE and LRSIZE can be written? -/
def HostFn.ringIdle (f : HostFn) : Bool := f.lrhead = f.lrtail

/-- What a ring base and a ring size may be: 4 KiB-aligned; a power of two from 16 to 4,096 in bits [12:0], the rest of the register
being reserved. Another value changes nothing (log entry 27). -/
def ringBaseOk (v : Word) : Bool := v.toNat % 4096 = 0
def ringSizeOk (v : Word) : Bool := [16, 32, 64, 128, 256, 512, 1024, 2048, 4096].contains (v.toNat % 2 ^ 13)

/-- A write to a register of a function's own page but LRTAIL; registers that are read-only there, or of other pages, stay. -/
def HostFn.write (f : HostFn) (off : Nat) (v : Word) : HostFn :=
  match off with
  | 0x000 => if f.ringIdle && ringBaseOk v then { f with lrbase := v } else f
  | 0x008 => if f.ringIdle && ringSizeOk v then { f with lrsize := v.setWidth 13 } else f
  | 0x020 => if ringBaseOk v then { f with fmbase := v } else f
  | 0x028 => if ringSizeOk v then { f with fmsize := v.setWidth 13 } else f
  | 0x038 => { f with fmtail := v.setWidth 32 }
  | _ => f

/-- What a read of a function's own page gives: reserved offsets read as zero. -/
def HostFn.read (f : HostFn) (off : Nat) : Word :=
  match off with
  | 0x000 => f.lrbase
  | 0x008 => f.lrsize.setWidth 64
  | 0x010 => f.lrtail.setWidth 64
  | 0x018 => f.lrhead.setWidth 64
  | 0x020 => f.fmbase
  | 0x028 => f.fmsize.setWidth 64
  | 0x030 => f.fmhead.setWidth 64
  | 0x038 => f.fmtail.setWidth 64
  | 0x040 => f.fmlost.setWidth 64
  | 0x048 => f.tenroot.setWidth 64
  | _ => 0

/-- TENROOT of virtual function n in the physical function's own page space, at 4 KiB × n (log entry 28). -/
def vfTenroot (off : Nat) : Option Nat :=
  if off % 0x1000 = 0x048 && 0x1000 ≤ off && off / 0x1000 < 64 then some (off / 0x1000) else none

/-- A read of a BAR0 register of a function: the window registers are the physical function's, zero in a virtual one's page. -/
def State.hostRead (s : State) (fn off : Nat) : Word :=
  if fn != 0 then (s.fn fn).read off
  else if off = 0x100 then BitVec.ofNat 64 (s.host.hwbase.toNat * 2 ^ 30)
  else if off = 0x108 then s.host.hwsize.setWidth 64
  else
    match vfTenroot off with
    | some n => (s.fn n).tenroot.setWidth 64
    | none => (s.fn fn).read off

/-! ### The window (R432, R433) -/

/-- Every line that the host holds is back-invalidated. -/
def State.snoopAll (s : State) : State := (s.host.dirs.map (·.1)).foldl (fun s l => s.snoopLine l) s

/-- HOST_WINDOW_CLOSE: HWSIZE 0. -/
def State.closeWindow (s : State) : State :=
  let s := s.snoopAll
  { s with host := { s.host with hwsize := 0 } }

def execHostWindowClose (s : State) : Host.Outcome State Fault Refusal := .next s.closeWindow

/-- HWBASE is written while HWSIZE is 0 only. -/
def HostLink.setBase (h : HostLink) (b : BitVec 10) : HostLink := if h.hwsize = 0 then { h with hwbase := b } else h

/-- HWSIZE takes 0 to 256; a larger value changes nothing (log entry 27). -/
def HostLink.setSize (h : HostLink) (n : BitVec 9) : HostLink := if n.toNat ≤ 256 then { h with hwsize := n } else h

/-- A write of HWSIZE: 0 closes the window; lines that the host holds outside the new window are back-invalidated. -/
def State.writeSize (s : State) (n : BitVec 9) : State :=
  if n = 0 then s.closeWindow
  else
    let s := { s with host := s.host.setSize n }
    ((s.host.dirs.map (·.1)).filter fun l => !s.inWindow (l * 64) 64).foldl (fun s l => s.snoopLine l) s

/-- HOST_WINDOW_SET: HWBASE, then HWSIZE. -/
def execHostWindowSet (base : BitVec 10) (size : BitVec 9) (s : State) : Host.Outcome State Fault Refusal :=
  .next (State.writeSize { s with host := s.host.setBase base } size)

/-- HOST_REGISTER_WRITE. The physical function reaches the window registers, and TENROOT of the virtual functions. -/
def State.hostWrite (s : State) (fn off : Nat) (v : Word) : State :=
  if off = 0x010 then s.ringDoorbell fn (v.setWidth 32)
  else if fn != 0 then s.mapFn fn fun f => f.write off v
  else if off = 0x100 then { s with host := s.host.setBase (v.extractLsb' 30 10) }
  else if off = 0x108 then s.writeSize (v.setWidth 9)
  else
    match vfTenroot off with
    | some n => s.mapFn n fun f => { f with tenroot := v.setWidth 16 }
    | none => s.mapFn fn fun f => f.write off v

def execHostRegisterWrite (fn off : Nat) (v : Word) (s : State) : Host.Outcome State Fault Refusal :=
  .next (s.hostWrite fn off v)

/-- Entries of the device directory. -/
def dirMax : Nat := 1048576

/-- The host's answer: a line's data, none for poison. -/
def HostLink.tell (h : HostLink) (line : Nat) (data : Option (List Byte)) : HostLink :=
  { h with resps := (line, data) :: h.resps.filter fun e => e.1 != line }

/-- Make room for one entry: the least recently granted is back-invalidated. -/
def State.dirRoom (s : State) : State :=
  if s.host.dirs.length < dirMax then s
  else match s.host.dirs with
    | e :: _ => s.snoopLine e.1
    | [] => s

/-- HOST_MEM_REQUEST for a 64-byte line of the package: poison outside the window, else recorded as asked; store is what the
host then writes into a line that it holds exclusive. -/
def State.hostMem (s : State) (line : Nat) (excl : Bool) (store : Option (List Byte)) : State :=
  if !s.host.up then s
  else if !s.inWindow (line * 64) 64 then { s with host := s.host.tell line none }
  else
    let s := (s.snoopLine line).dirRoom
    let data := s.mem.bytes (line * 64) 64
    let kept := match excl, store with
      | true, some bs => bytesSet data 0 (bs.take 64)
      | _, _ => data
    let ans := if s.linePois (line * 64) && store.isNone then none else some kept
    { s with host := { (s.host.tell line ans) with dirs := s.host.dirs ++ [(line, excl)] } }

def execHostMemRequest (line : Nat) (excl : Bool) (store : Option (List Byte)) (s : State) : Host.Outcome State Fault Refusal :=
  .next (s.hostMem line excl store)

/-- HOST_SNOOP: a host line that the device held in ownership for one operation is written back by now; the answer is host
memory's. -/
def State.hostSnoop (s : State) (line : Nat) : State :=
  let k := keyOf 2 (line * 64)
  { s with host := s.host.tell (k / 64) (some (s.mem.bytes k 64)) }

def execHostSnoop (line : Nat) (s : State) : Host.Outcome State Fault Refusal := .next (s.hostSnoop line)

/-! ### Loss of the host (R434) -/

/-- Does an access touch host memory? -/
def AccKind.onHost : AccKind → Bool
  | .load _ _ elems _ => elems.flatten.any fun p => spaceOf p.addr = 2
  | .loadTile _ ps _ => ps.any fun p => spaceOf p.addr = 2
  | .atom _ a .. => spaceOf a = 2
  | .redi _ a .. => spaceOf a = 2
  | .redf _ a .. => spaceOf a = 2
  | _ => false

/-- Outstanding accesses of a core to host memory end poisoned; one whose release is not over meets the poison when it is
performed. -/
def State.poisonHostAccs (s : State) (n : Nat) : State :=
  s.onCore n fun s => (s.core.accs.filter fun a => a.kind.onHost && a.rel.isNone).foldl (fun s a => s.poisonAcc a) s

/-- What a core's accesses to host memory have waited 10 ms for: the host counts as lost (R434). -/
def State.hostSilent (s : State) : Bool :=
  s.host.up && s.known.any fun n => (s.coreAt n).accs.any fun a =>
    a.kind.onHost && a.rel.isNone && decide (a.since.toNat + 10000000 ≤ s.ftime.toNat)

/-- HOST_LOSS. -/
def State.hostLoss (s : State) : State :=
  let held := (s.host.dirs.filter (·.2)).map (·.1)
  let s := held.foldl (fun s l => s.poisonLine l) s
  let s := { s with host := { s.host with up := false, dirs := [], resps := [] } }
  let s := s.known.foldl (fun s n => s.poisonHostAccs n) s
  (s.eventAll 2).ashNote 16 4 0 0 0 0 0 []

def execHostLoss (s : State) : Host.Outcome State Fault Refusal := .next s.hostLoss

/-- HOST_LINK_TRAINED: not while the collier has halted at a rejected image (R448), nor after package fatal (R439). -/
def execHostLinkTrained (s : State) : Host.Outcome State Fault Refusal :=
  .next (if s.boot = .dead || s.boot = .fatal then s else { s with host := { s.host with up := true } })

end Sys2Proof.Machine
end

