-- ==== Sys2Proof/Machine/Relia.lean ====
section
/-!
DEFINITION. Errors, sparing, ash rings, power and the collier's registers (R424, R428, R435, R437 to R446).
-/

namespace Sys2Proof.Machine

/-! ### Package fatal (R439, R442) -/

/-- PACKAGE_FATAL: every ring freezes, every core, control core and engine stops, the ports and the CXL link go down, with what
the loss of the host brings (R434). -/
def State.packageFatal (s : State) : State :=
  let s := (List.range 17).foldl (fun s d => s.ashFreeze d) s
  let s := if s.host.up then s.hostLoss else s
  let s := s.mapCores fun c => { c with phase := .halted }
  { s with
    ports := s.ports.map fun e => (e.1, { e.2 with state := 0 })
    boot := .fatal }

def execPackageFatal (s : State) : Host.Outcome State Fault Refusal := .next s.packageFatal

/-! ### Errors (R437, R438, R440) -/

/-- DCC_ERROR_STOP: the control core stops as HALT.stop does. -/
def State.dccErrorStop (s : State) (die : Nat) : State := s.onCore (0x1000 + die) fun s => s.haltCore 0 0 []

def execDccErrorStop (die : Nat) (s : State) : Host.Outcome State Fault Refusal := .next (s.dccErrorStop die)

/-- UE in the state of the core in focus: code and entry in INFO; an idle core writes an ash record only. -/
def State.uncorrectable (s : State) (code : BitVec 8) (loc : BitVec 24) : State :=
  if isDcc s.cid then s.dccErrorStop (dieOf s.cid)
  else
    match s.core.ctx with
    | none => s.coreAsh 0 code.toNat 0 0 0 []
    | some x =>
      let s := s.coreAsh 0 code.toNat x.tenant.toNat x.region.toNat 0 []
      s.raiseAsync { Trap.of .ue with
        info := BitVec.ofNat 32 (code.toNat + loc.toNat * 256)
        ipc := s.core.l.pc }

def execUe (code : BitVec 8) (loc : BitVec 24) (s : State) : Host.Outcome State Fault Refusal := .next (s.uncorrectable code loc)

/-- HBM_SCRUB reads a 64-byte line: an error that cannot be corrected is found, bad saying that one has arisen. -/
def State.scrub (s : State) (line : Nat) (bad : Bool) : State :=
  if bad || s.faulty.contains line then s.foundBad line else s

def execHbmScrub (line : Nat) (bad : Bool) (s : State) : Host.Outcome State Fault Refusal := .next (s.scrub line bad)

/-- An error that cannot be corrected arises in a line of local HBM; the next read of it finds it (R440). -/
def State.lineError (s : State) (line : Nat) : State :=
  if s.faulty.contains line || decide (hbmBytes ≤ line * 64) then s else { s with faulty := line :: s.faulty }

/-- An error in a staging slice's word at an address: the word is poisoned (R437). -/
def State.sliceError (s : State) (addr : Nat) : State :=
  if s.spois.contains (addr / 8) then s else { s with spois := addr / 8 :: s.spois }

/-- An error in a rick's storage: an 8-byte word of the record at a place in its queue is poisoned (R437). -/
def State.rickError (s : State) (rick pos word : Nat) : State :=
  let x := s.rick rick
  let hit (t : Token) : Token := if t.pois.contains word then t else { t with pois := word :: t.pois }
  s.setRick rick { x with recs := x.recs.zipIdx.map fun (t, i) => if i = pos then hit t else t }

/-- A corrected error is counted by its unit (R437; the numbers of the units are the model's, log entry 100). -/
def State.corrected (s : State) (unit : Nat) : State := { s with fixed := insertAt s.fixed unit (lookupD s.fixed unit 0 + 1) }

/-! ### Row sparing (R441) -/

/-- Try spares in order; those whose read-back fails are marked bad. -/
def State.findSpare (s : State) (stack bank : Nat) (fails : List Nat) : Nat → State × Option Nat
  | 0 => (s, none)
  | f + 1 =>
    match s.nextSpare stack bank with
    | none => (s, none)
    | some k => if fails.contains k then (s.markSpare stack bank k).findSpare stack bank fails f else (s, some k)

/-- A read of a row corrects a symbol: beyond ROWTH of them in a scrub period the row is spared. -/
def State.rowError (s : State) (stack bank row : Nat) : State :=
  let key := (stack * 64 + bank) * 2 ^ 18 + row
  let n := lookupD s.rowErrs key 0 + 1
  let s := { s with rowErrs := insertAt s.rowErrs key n }
  if s.mgmt.rowth.toNat < n then s.beginSparing stack bank row else s

/-- A row with no usable spare: its lines are poisoned, and an ash record for each gives its package offset, with the entry that
is now free, or the bank and row where there was none (log entry 62). -/
def State.retireRow (s : State) (stack bank row : Nat) (old : Option Remap) (lines : List Nat) : State :=
  let w := (old.map (·.word)).getD (BitVec.ofNat 31 (bank + row * 2 ^ 6))
  lines.foldl (fun (s : State) l => (s.poisonLine l).ashNote stack 2 0 stack 0 0 (l * 64) (natLe 8 w.toNat)) s

/-- ROW_SPARING: a row's copy ends. It has tried spares in order, those of fails with an error at their read-back, and read every
line, finding what cannot be corrected; with a good spare the entry becomes V 1 and CPY 0, and loads of the row read that spare
from then on. Without one the row is retired. The copy keeps every line's bytes and poison, as stores in between do; lines are
the package lines of the row. -/
def State.rowSparing (s : State) (stack bank row : Nat) (fails lines : List Nat) : State :=
  let s := lines.foldl (fun (s : State) l => s.detect (l * 64) 64) (s.beginSparing stack bank row)
  let old := s.remapOf stack bank row
  let s := { s with mgmt := { s.mgmt with remap := s.mgmt.remap.filter fun e => !e.ofRow stack bank row } }
  match s.findSpare stack bank fails 33, old with
  | (s, some k), some e =>
    let w := remapWord bank row k
    (s.setRemap stack e.idx w).ashNote stack 2 0 stack 0 0 (lines.headD 0 * 64) (natLe 8 w.toNat)
  | (s, _), _ => s.retireRow stack bank row old lines

def execRowSparing (stack bank row : Nat) (fails lines : List Nat) (s : State) : Host.Outcome State Fault Refusal :=
  .next (s.rowSparing stack bank row fails lines)

/-- An entry of a stack's CAM. -/
def State.remapAt (s : State) (stack idx : Nat) : BitVec 31 :=
  ((s.mgmt.remap.find? fun e => e.stack = stack && e.idx = idx).map (·.word)).getD 0

/-- A write to an entry: CPY is read-only. -/
def State.writeRemap (s : State) (stack idx : Nat) (v : BitVec 31) : State :=
  let cpy : BitVec 31 := 1 <<< 30
  s.setRemap stack idx ((v &&& ~~~cpy) ||| (s.remapAt stack idx &&& cpy))

/-- ROW_REMAP_WRITE. -/
def execRowRemapWrite (stack idx : Nat) (v : BitVec 31) (s : State) : Host.Outcome State Fault Refusal := .next (s.writeRemap stack idx v)

/-! ### The collier's registers (R16, R363, R424, R427, R428, R435, R441, R442, R444)

The spec gives the offsets of the identification word and of the port blocks only; the others are this model's (log entry 29). -/

def offRespto : Nat := 0x008
def offCap : Nat := 0x010
def offRowth : Nat := 0x018
def offPodpos : Nat := 0x020
def offEpoch : Nat := 0x028
def offRoutes : Nat := 0x10000
def offSpareBad : Nat := 0x20000
def offEpochs : Nat := 0x30000
def offRingCtl : Nat := 0x40000
def offRemap : Nat := 0x80000
def offRings : Nat := 0x800000

/-- The writable words of a port block. -/
def Port.writeReg (p : Port) (off : Nat) (v : Word) : Port :=
  match off with
  | 0x10 => { p with biasmax := v.setWidth 24 }
  | 0x1C => { p with degth := v.setWidth 32 }
  | _ => p

/-- A register of a port block by its offset. -/
def Port.readReg (p : Port) (off : Nat) : Nat :=
  match off with
  | 0x00 => p.bias.toNat
  | 0x04 => p.hours.toNat
  | 0x08 => p.drift.toNat
  | 0x0C => p.eol.toNat
  | 0x10 => p.biasmax.toNat
  | 0x14 => p.active.toNat + p.bad.toNat * 2 ^ 10 + Port.count p.active * 2 ^ 20
  | 0x18 => p.state.val
  | 0x1C => p.degth.toNat
  | _ =>
    if 0x20 ≤ off && off < 0x48 && off % 4 = 0 then (p.csym.getD ((off - 0x20) / 4) 0).toNat
    else if 0x48 ≤ off && off < 0x5C && off % 2 = 0 then (p.ucw.getD ((off - 0x48) / 2) 0).toNat
    else 0

/-- The 8 bytes of an ash ring from an offset: the record in slot i is the one that the write index put there last. -/
def AshRing.read (r : AshRing) (off : Nat) : Nat :=
  let slot := off / 64 % 4096
  bytesNat (r.recs.getD ((r.widx + 4095 - slot) % 4096) (List.replicate 64 0)) (off % 64) 8

/-- A ring's write index, frozen bit and count of dropped records. -/
def AshRing.ctl (r : AshRing) : Nat := r.widx + natOfBool r.frozen * 2 ^ 16 + r.dropped % 2 ^ 32 * 2 ^ 32

/-- A read of the management register page; the identification word stands at offset 0 (R16). -/
def State.mgmtRead (s : State) (off : Nat) : Word :=
  let m := s.mgmt
  let ring (d : Nat) : AshRing := lookupD s.ash d AshRing.reset
  BitVec.ofNat 64 (
    if off = 0 then idWord
    else if off = offRespto then m.respto.toNat
    else if off = offCap then m.cap.toNat
    else if off = offRowth then m.rowth.toNat
    else if off = offPodpos then s.podpos.toNat
    else if off = offEpoch then m.epoch.toNat
    else if 0x400 ≤ off && off < 0x2400 then (s.port ((off - 0x400) / 128)).readReg ((off - 0x400) % 128)
    else if offRoutes ≤ off && off < offRoutes + 8 * 5120 then s.portOf ((off - offRoutes) / 8)
    else if offSpareBad ≤ off && off < offSpareBad + 4 * 1024 then (lookupD m.spareBad ((off - offSpareBad) / 4) 0).toNat
    else if offEpochs ≤ off && off < offEpochs + 8 * 1024 then lookupD m.epochs ((off - offEpochs) / 8) 0
    else if offRingCtl ≤ off && off < offRingCtl + 8 * 17 then (ring ((off - offRingCtl) / 8)).ctl
    else if offRemap ≤ off && off < offRemap + 8 * 16384 then
      (s.remapAt ((off - offRemap) / 8192) ((off - offRemap) / 8 % 1024)).toNat
    else if offRings ≤ off && off < offRings + 17 * 262144 then (ring ((off - offRings) / 262144)).read ((off - offRings) % 262144)
    else (lookupD m.other off 0).toNat)

/-- A node epoch in the route table: the outcomes kept for the node's old epoch are dropped (R427), and the logs of that epoch,
whose numbers may come again (R447). -/
def State.writeEpoch (s : State) (src : Nat) (e : Nat) : State :=
  { s with
    mgmt := { s.mgmt with epochs := insertAt s.mgmt.epochs src e }
    outs := s.outs.filter fun o => o.src != src
    rlogs := s.rlogs.filter fun g => g.num.toNat / 2 ^ 22 != src }

/-- A write to a management register; the identification word is read-only. -/
def State.mgmtWrite (s : State) (off : Nat) (v : Word) : State :=
  let m := s.mgmt
  if off = 0 then s
  else if off = offRespto then { s with mgmt := { m with respto := v.setWidth 32 } }
  else if off = offCap then { s with mgmt := { m with cap := v.setWidth 32 } }
  else if off = offRowth then { s with mgmt := { m with rowth := v.setWidth 32 } }
  else if off = offPodpos then { s with podpos := v.setWidth 10 }
  else if off = offEpoch then { s with mgmt := { m with epoch := v.setWidth 32 } }
  else if 0x400 ≤ off && off < 0x2400 then s.mapPort ((off - 0x400) / 128) fun p => p.writeReg ((off - 0x400) % 128) v
  else if offRoutes ≤ off && off < offRoutes + 8 * 5120 then
    s.writeRoute ((off - offRoutes) / 8) (v.toNat % 64)
  else if offSpareBad ≤ off && off < offSpareBad + 4 * 1024 then
    { s with mgmt := { m with spareBad := insertAt m.spareBad ((off - offSpareBad) / 4) (v.setWidth 32) } }
  else if offEpochs ≤ off && off < offEpochs + 8 * 1024 then
    s.writeEpoch ((off - offEpochs) / 8) (v.toNat % 2 ^ 32)
  else if offRingCtl ≤ off && off < offRingCtl + 8 * 17 then s
  else if offRemap ≤ off && off < offRemap + 8 * 16384 then
    s.writeRemap ((off - offRemap) / 8192) ((off - offRemap) / 8 % 1024) (v.setWidth 31)
  else if offRings ≤ off && off < offRings + 17 * 262144 then s
  else { s with mgmt := { m with other := insertAt m.other off v } }

def execMgmtRegisterWrite (off : Nat) (v : Word) (s : State) : Host.Outcome State Fault Refusal := .next (s.mgmtWrite off v)

/-- ASH_UNFREEZE. -/
def execAshUnfreeze (ring : Nat) (s : State) : Host.Outcome State Fault Refusal :=
  .next { s with ash := insertAt s.ash ring { lookupD s.ash ring AshRing.reset with frozen := false } }

/-! ### Power and heat (R444, R446) -/

/-- 5 µs of 1.8 GHz clocks. -/
def dvfsStop : Nat := 9000

/-- A die's island at a frequency; a change stops issue for 5 µs. -/
def Die.setMhz (d : Die) (f : Nat) : Die := if d.mhz = f then d else { d with mhz := f, haltClk := dvfsStop }

/-- What the collier sets: kept while the die is hot, in force otherwise. -/
def Die.retarget (d : Die) (f : Nat) : Die :=
  let d := { d with want := f }
  if d.hot then d else d.setMhz f

def State.mapDieAt (s : State) (n : Nat) (f : Die → Die) : State := s.setDie n (f (s.die n))

/-- An island that is not a die's, as the collier has set it: 16 to 19 are the HBM PHYs, 20 and 21 the optical islands, 22
management, 23 always-on. -/
def State.island (s : State) (n : Nat) : Island := lookupD s.islands n ⟨0, 0⟩

/-- DVFS_CHANGE: a die's island takes 0.9 to 1.8 GHz in steps of 100 MHz; the others what the collier sets, and voltages are not
limited (log entry 73). -/
def State.dvfsChange (s : State) (island : Nat) (v : Island) : State :=
  if 16 ≤ island then if island < 24 then { s with islands := insertAt s.islands island v } else s
  else if 900 ≤ v.mhz && v.mhz ≤ 1800 && v.mhz % 100 = 0 then s.mapDieAt island fun d => { d.retarget v.mhz with mv := v.mv }
  else s

def execDvfsChange (island : Nat) (v : Island) (s : State) : Host.Outcome State Fault Refusal := .next (s.dvfsChange island v)

/-- POWER_CAP: the 10 ms average of the package, and the die that draws most. -/
def execPowerCap (milliwatts die : Nat) (s : State) : Host.Outcome State Fault Refusal :=
  .next (if s.mgmt.cap.toNat < milliwatts then s.mapDieAt die fun d => d.retarget (max 900 (d.want - 100)) else s)

/-- A die's report: at 105 °C it runs at 0.9 GHz until it has cooled to 95 °C. -/
def Die.report (d : Die) (temp : Nat) : Die :=
  let d := { d with temp := temp }
  if 105 ≤ temp then ({ d with hot := true } : Die).setMhz 900
  else if d.hot && temp ≤ 95 then ({ d with hot := false } : Die).setMhz d.want
  else d

/-- THERMAL_REPORT. -/
def State.thermalReport (s : State) (die temp : Nat) : State :=
  let s := s.mapDieAt die fun d => d.report temp
  if 115 ≤ temp then s.packageFatal else s

def execThermalReport (die temp : Nat) (s : State) : Host.Outcome State Fault Refusal := .next (s.thermalReport die temp)

/-- THERMAL_TRIP at 115 °C, without the collier. -/
def execThermalTrip (die : Nat) (s : State) : Host.Outcome State Fault Refusal :=
  .next (s.mapDieAt die fun d => { d with temp := max 115 d.temp }).packageFatal

end Sys2Proof.Machine
end

