-- ==== Sys2Proof/Machine/Sha3.lean ====
section
/-!
DEFINITION. SHA3-256 of FIPS 202, which R448 names (log entry 5). The sponge's state is its 25 words as a list, word x + 5y of column x and
row y; rotations and round constants are computed, as FIPS 202 defines them, not listed.
-/

namespace Sys2Proof.Machine

/-- The word at a column and a row, both taken modulo 5. -/
def sponge (a : List Word) (col row : Nat) : Word := a.getD (col % 5 + 5 * (row % 5)) 0

/-- Each word takes in the parity of the column before it, and of the column after it turned by one bit. -/
def mixColumns (a : List Word) : List Word :=
  let parity := (List.range 5).map fun col => (List.range 5).foldl (fun w row => w ^^^ sponge a col row) 0
  a.zipIdx.map fun (w, i) => w ^^^ parity.getD ((i + 4) % 5) 0 ^^^ (parity.getD ((i + 1) % 5) 0).rotateLeft 1

/-- Where the word at a place goes. -/
def nextPlace (i : Nat) : Nat := i / 5 + 5 * ((2 * i + 3 * (i / 5)) % 5)

/-- The 24 words other than the first stand on one path from place 1 on: the word at its step t goes to the next place, turned by
(t + 1)(t + 2)/2. -/
def movePath (a : List Word) : List Word :=
  ((List.range 24).foldl (fun (r : Nat × List Word) t =>
    let k := nextPlace r.1
    (k, r.2.set k ((a.getD r.1 0).rotateLeft ((t + 1) * (t + 2) / 2 % 64)))) (1, a)).2

/-- The nonlinear step, along each row. -/
def mixRows (a : List Word) : List Word :=
  a.zipIdx.map fun (w, i) => w ^^^ (~~~(sponge a (i % 5 + 1) (i / 5)) &&& sponge a (i % 5 + 2) (i / 5))

/-- The shift register of the round constants. -/
def shiftReg (r : Nat) : Nat := if 128 ≤ r then (2 * r) ^^^ 0x171 else 2 * r

/-- A round's constant, whose bit 2^j - 1 is the register's low bit after j shifts, and the register after it. -/
def roundConst (r : Nat) : Nat × Nat :=
  (List.range 7).foldl (fun (c : Nat × Nat) j => (c.1 + c.2 % 2 * 2 ^ (2 ^ j - 1), shiftReg c.2)) (0, r)

/-- One round. -/
def spongeRound (s : List Word × Nat) : List Word × Nat :=
  let (c, r) := roundConst s.2
  match mixRows (movePath (mixColumns s.1)) with
  | [] => ([], r)
  | w :: rest => ((w ^^^ BitVec.ofNat 64 c) :: rest, r)

/-- The permutation of 24 rounds. -/
def permute (a : List Word) : List Word := ((List.range 24).foldl (fun s _ => spongeRound s) (a, 1)).1

/-- Bytes of a block of SHA3-256. -/
def spongeRate : Nat := 136

/-- The state after a number of blocks. -/
def soak (a : List Word) (bs : List Byte) : Nat → List Word
  | 0 => a
  | n + 1 =>
    soak (permute (a.zipIdx.map fun (w, i) =>
      if 8 * i < spongeRate then w ^^^ BitVec.ofNat 64 (bytesNat bs (8 * i) 8) else w)) (bs.drop spongeRate) n

/-- A message with the bits 01 of SHA-3 and its padding: the last byte of the last block has its top bit set. -/
def sha3Pad (bs : List Byte) : List Byte :=
  let n := (bs.length / spongeRate + 1) * spongeRate
  let whole := (bs ++ 0x06 :: List.replicate spongeRate 0).take n
  whole.take (n - 1) ++ (whole.drop (n - 1)).map fun b => b ||| 0x80

/-- SHA3-256: the first 32 bytes of the state. -/
def sha3 (bs : List Byte) : List Byte :=
  let p := sha3Pad bs
  ((soak (List.replicate 25 0) p (p.length / spongeRate)).take 4).flatMap fun w => natLe 8 w.toNat

end Sys2Proof.Machine
end

