-- ==== Sys2Proof/Machine/Boot.lean ====
section
/-!
DEFINITION. Reset, the boot chain and the collier's SPDM responder (R447 to R450).
-/

namespace Sys2Proof.Machine

/-! ### Reset (R447) -/

/-- A port after a reset: HOURS, and the measurements that DRIFT needs, stay (R435; log entry 60). -/
def Port.aged (p : Port) : Port := { Port.reset with hours := p.hours, history := p.history }

/-- What a reset of the package does not reach: pool homes and host memory, the hours of the lasers, what the outside does next,
and the number of the next free value. -/
def State.outside (s base : State) : State :=
  let far (k : Nat) : Bool := spaceOf k != 0
  { base with
    agenda := s.agenda
    free := s.free
    mem := s.mem.filter fun c => far c.1
    keys := s.keys.filter fun e => far e.1
    poisoned := s.poisoned.filter fun l => far (l * 64)
    hleases := s.hleases
    recalls := s.recalls
    accepted := s.accepted
    opens := s.opens
    rlogs := s.rlogs
    commits := s.commits
    holders := s.holders
    outs := s.outs
    ports := s.ports.map fun e => (e.1, e.2.aged) }

/-- COLD_RESET. -/
def execColdReset (s : State) : Host.Outcome State Fault Refusal := .next (s.outside State.reset)

/-- WARM_RESET: the always-on island keeps FTIME and the ash rings. -/
def State.warmReset (s : State) : State :=
  { s.outside State.reset with
    ftime := s.ftime
    frac := s.frac
    ash := s.ash }

def execWarmReset (s : State) : Host.Outcome State Fault Refusal := .next s.warmReset

/-! ### Images (R448) -/

def imgSlot (img : List Byte) : Nat := bytesNat img 4 1
def imgBody (img : List Byte) : List Byte := (img.drop 3748).take (bytesNat img 12 4)

/-- The digest of an accepted image, none for a rejected one. -/
def checkImage (img : List Byte) : Option (List Byte) :=
  let slot := imgSlot img
  let pk := (img.drop 16).take 1312
  let digest := sha3 (img.take 16 ++ imgBody img)
  let whole : Bool := decide (3748 + bytesNat img 12 4 ≤ img.length)
  if whole && bytesNat img 0 4 = 0x4E524354 && bytesNat img 5 3 = 0 && decide (slot < 16) && sha3 pk = Config.fusedKeyHash slot &&
      decide (Config.fusedSvnMin slot ≤ bytesNat img 8 4) &&
      Config.mldsaVerify pk digest ((img.drop 1328).take 2420) then some digest
  else none

/-- MSLOT[slot] := SHA3-256(MSLOT[slot] || digest). -/
def State.extend (s : State) (slot : Nat) (digest : List Byte) : State :=
  { s with mslots := insertAt s.mslots slot (sha3 (lookupD s.mslots slot (List.replicate 32 0) ++ digest)) }

/-- A collier ash record, and the collier halts: the package stays in reset, its CXL link and its ports down. -/
def State.collierHalt (s : State) : State :=
  State.ashNote { s with
    boot := .dead
    host := { s.host with up := false, dirs := [], resps := [] }
    ports := s.ports.map fun e => (e.1, { e.2 with state := 0 }) } 16 6 0 0 0 0 0 []

/-- TINDER: copy A of kindling, then copy B; SLOT 0 is required. -/
def State.tinder (s : State) (copyA copyB : List Byte) : State :=
  if s.boot != .reset then s
  else
    let good (img : List Byte) : Option (List Byte) := if imgSlot img = 0 then checkImage img else none
    match good copyA, good copyB with
    | some d, _ => { s.extend 0 d with boot := .tindered }
    | none, some d => { s.extend 0 d with boot := .tindered }
    | none, none => s.collierHalt

def execTinder (copyA copyB : List Byte) (s : State) : Host.Outcome State Fault Refusal := .next (s.tinder copyA copyB)

/-! ### Kindling (R449) -/

/-- Measure the images of some slots in order: whether each is there and accepted; those before a rejected one stay measured. -/
def State.measureAll (s : State) (imgs : List (List Byte)) : List Nat → State × Bool
  | [] => (s, true)
  | slot :: rest =>
    match (imgs.find? fun i => imgSlot i = slot).bind checkImage with
    | some d => (s.extend slot d).measureAll imgs rest
    | none => (s, false)

/-- The collier's runtime measures an image of slots 4 to 15, asked by the supervisor; one that is rejected changes nothing. -/
def State.measureLate (s : State) (img : List Byte) : State :=
  match s.boot, checkImage img with
  | .running, some d => if 4 ≤ imgSlot img then s.extend (imgSlot img) d else s
  | _, _ => s

/-- The stand-in for a record of the code that a die control core runs: tenant 0, no region's step (R101, R360). -/
def dccCtx (log : BitVec 32) : StepCtx where
  va := 0
  base := contOf 0 0 0 []
  tenant := 0
  region := 0
  fdom := 0
  smp := ⟨0, 0, 0, 0, 0, 0, 0⟩
  log := log
  ftok := 0
  seq := 0
  depth := 0
  lrel := ⟨0, 0⟩
  lrstat := 0
  hzn := []
  hcst := none
  watch := none
  decl := []
  declB := false
  firing := none
  ntag := 1
  accKib := 0
  elapNs := 0
  wdRaised := false
  written := false
  heldTr := []

/-- A die control core starts: L at SVEC, C and S at the offsets from it that the supervisor image names (R453; log entry 30). c0 is
the object that the image names, c15 the device-information object. -/
def State.startDcc (s : State) (k : KindlingCfg) (die : Nat) : State :=
  let (log, s) := s.openLog 0 0 false
  s.onCore (0x1000 + die) fun s =>
    let c := s.core
    let n := Vector.replicate 16 (0 : Word)
    let p := Vector.replicate 8 false
    let caps := Vector.replicate 16 (none : Option Cap)
    let caps := caps.set 0 (some (s.bindCap 0 k.dccCode.toNat 0b00101 0 none))
    let caps := caps.set 15 (some ⟨true, 0, 0, 0, 0, devInfoBytes, 0b00001⟩)
    { s with core := { c with
        phase := .running
        l := startStream c.l c.svec 0xFFF n p
        c := startStream c.c (c.svec + k.entryC) 0xFFF n p
        s := startStream c.s (c.svec + k.entryS) 0xFFF n p
        caps := caps
        ctx := some (dccCtx log) } }

/-- The supervisor's image stands in local HBM from offset 0 (log entry 31). -/
def State.loadSupervisor (s : State) (imgs : List (List Byte)) : State :=
  match imgs.find? fun i => imgSlot i = 2 with
  | some i => { s with mem := s.mem.store 0 (imgBody i) }
  | none => s

/-- KINDLING: images 1 to 3 measured, each before it starts, the certificate chain measured into slot 0, HBM zeroed, FTIME locked,
the ports brought up, the roots written, the control cores started. -/
def State.kindling (s : State) (k : KindlingCfg) : State :=
  if s.boot != .tindered then s
  else
    match s.measureAll k.images [1, 2, 3] with
    | (s, false) => s.collierHalt
    | (s, true) =>
      let s := s.extend 0 (sha3 Config.certChain)
      let far (a : Nat) : Bool := spaceOf a != 0
      let s := { s with
        mem := s.mem.filter fun c => far c.1
        keys := s.keys.filter fun e => far e.1
        poisoned := s.poisoned.filter fun l => far (l * 64)
        faulty := []
        ftime := k.ftime
        frac := 0 }
      let s := k.ports.foldl (fun (s : State) u => s.mapPort u.port fun p => p.bringup u.bias u.near u.far) s
      let s := { s with
        root := k.rootAddr
        tdir := k.tdirAddr
        boot := .running }
      (List.range 16).foldl (fun (s : State) d => s.startDcc k d) (s.loadSupervisor k.images)

def execKindling (k : KindlingCfg) (s : State) : Host.Outcome State Fault Refusal := .next (s.kindling k)

/-! ### SPDM (R450)

Message layouts are those of SPDM 1.3 (log entry 32). Bytes of them that this device's spec does not give are free values. -/

def byte (n : Nat) : Byte := BitVec.ofNat 8 n

/-- Send a response. The measurements of the transcript end with any other request. -/
def State.reply (s : State) (resp : List Byte) : State := { s with spdm := { s.spdm with meas := [], out := s.spdm.out ++ [resp] } }

/-- Send a response of version, capabilities or algorithms, and keep the two messages in the transcript. -/
def State.replyVca (s : State) (req resp : List Byte) : State :=
  { s.reply resp with spdm := { (s.reply resp).spdm with vca := s.spdm.vca ++ [req, resp] } }

/-- ERROR UnsupportedRequest to a request code. -/
def State.spdmError (s : State) (code : Nat) : State :=
  s.reply [byte 0x13, byte 0x7F, byte 0x07, byte code]

/-- n free bytes. -/
def State.spdmFree (s : State) (n : Nat) : List Byte × State :=
  ((List.range n).map fun i => (Config.freeValue (s.free + i)).setWidth 8, { s with free := s.free + n })

/-- GET_VERSION: 1.3; a new transcript begins. -/
def execGetVersion (s : State) : Host.Outcome State Fault Refusal :=
  let s := { s with spdm := { s.spdm with version := true, caps := false, algs := false, vca := [] } }
  .next (s.replyVca [byte 0x10, byte 0x84, 0, 0] ([byte 0x10, byte 0x04, 0, 0, 0, 1] ++ natLe 2 0x1300))

/-- GET_CAPABILITIES: CERT_CAP, and MEAS_CAP with signatures. -/
def execGetCapabilities (s : State) : Host.Outcome State Fault Refusal :=
  .next (
    if !s.spdm.version then s.spdmError 0xE1
    else
      let (ct, s) := s.spdmFree 1
      let (flags, s) := s.spdmFree 4
      let (sizes, s) := s.spdmFree 8
      let (ct', s) := s.spdmFree 1
      let (sizes', s) := s.spdmFree 8
      let s := { s with spdm := { s.spdm with caps := true } }
      s.replyVca ([byte 0x13, byte 0xE1, 0, 0, 0] ++ ct ++ [0, 0] ++ flags ++ sizes)
        ([byte 0x13, byte 0x61, 0, 0, 0] ++ ct' ++ [0, 0] ++ natLe 4 0x12 ++ sizes'))

/-- NEGOTIATE_ALGORITHMS: whether the requester offers TPM_ALG_SHA3_256 and TPM_ALG_ECDSA_ECC_NIST_P384. -/
def execNegotiateAlgorithms (hash asym : Bool) (s : State) : Host.Outcome State Fault Refusal :=
  .next (
    if !s.spdm.caps then s.spdmError 0xE3
    else
      let s := { s with spdm := { s.spdm with algs := hash && asym } }
      let (o, s) := s.spdmFree 1
      let a := if asym then 0x80 else 0
      let h := if hash then 0x08 else 0
      let req := [byte 0x13, byte 0xE3, 0, 0] ++ natLe 2 32 ++ [1] ++ o ++ natLe 4 a ++ natLe 4 h ++ List.replicate 16 0
      s.replyVca req
        ([byte 0x13, byte 0x63, 0, 0] ++ natLe 2 36 ++ [1, 0] ++ natLe 4 1 ++ natLe 4 a ++ natLe 4 h ++ List.replicate 16 0))

/-- GET_DIGESTS: the digest of the certificate chain of slot 0. -/
def execGetDigests (s : State) : Host.Outcome State Fault Refusal :=
  .next (
    if !s.spdm.algs then s.spdmError 0x81
    else s.reply ([byte 0x13, byte 0x01, 0, 1] ++ sha3 Config.certChain))

/-- GET_CERTIFICATE: a portion of the chain. -/
def execGetCertificate (off len : Nat) (s : State) : Host.Outcome State Fault Refusal :=
  .next (
    if !s.spdm.algs then s.spdmError 0x82
    else
      let part := (Config.certChain.drop off).take len
      let rest := Config.certChain.length - off - part.length
      s.reply ([byte 0x13, byte 0x02, 0, 0] ++ natLe 2 part.length ++ natLe 2 rest ++ part))

/-- The measurement block of index i: MSLOT(i − 1) as a raw bit stream of 32 bytes. -/
def State.measBlock (s : State) (i : Nat) : List Byte :=
  [byte i, 1] ++ natLe 2 35 ++ [byte 0x81] ++ natLe 2 32 ++ lookupD s.mslots (i - 1) (List.replicate 32 0)

/-- GET_MEASUREMENTS: index 1 to 16, or 0xFF for all; with sign, a signature of the key of slot 0 over the transcript: the
messages of version, capabilities and algorithms, those of measurements since the last signature, this request, and the response
up to it. -/
def execGetMeasurements (idx : BitVec 8) (sign : Bool) (q : MeasReq) (s : State) : Host.Outcome State Fault Refusal :=
  .next (
    let i := idx.toNat
    if !s.spdm.algs || !(i = 0xFF || (1 ≤ i && i ≤ 16)) || (sign && q.slot != 0) then s.spdmError 0xE0
    else
      let ids := if i = 0xFF then (List.range 16).map (· + 1) else [i]
      let blocks := ids.flatMap s.measBlock
      let ctx := natLe 8 q.context.toNat
      let req := [byte 0x13, byte 0xE0, byte (natOfBool sign), idx] ++ (if sign then q.nonce ++ [q.slot] else []) ++ ctx
      let (own, s) := s.spdmFree 32
      let body := [byte 0x13, byte 0x60, 0, 0, byte ids.length] ++ natLe 3 blocks.length ++ blocks ++ own ++ [0, 0] ++ ctx
      let meas := s.spdm.meas ++ [req, body]
      let sig := if sign then Config.ecdsaSign ((s.spdm.vca ++ meas).flatten) else []
      let s := s.reply (body ++ sig)
      { s with spdm := { s.spdm with meas := if sign then [] else meas } })

/-- UNSUPPORTED_REQUEST: any other request; its code is the requester's. -/
def execUnsupportedRequest (s : State) : Host.Outcome State Fault Refusal :=
  .next (
    let (c, s) := s.spdmFree 1
    s.spdmError (c.headD 0).toNat)

end Sys2Proof.Machine
end

