-- ==== Sys2Proof/Machine/Clock.lean ====
section
/-!
DEFINITION. What surrounds the meanings: the turn of a stream, with the checks of R162 in their order; the hardware events that
may happen, and which does; the clock (R10, R42, R45, R52, R162, R163, R198, R199, R264, R364, R368, R369, R400, R416, R424).
-/

namespace Sys2Proof.Machine

/-! ### Fetch failures and the checks of a word (R162, R163) -/

/-- A trap of the word or header being fetched, at the address of the pair's first word; a header's own address there. -/
def State.fetchTrap (s : State) (c : Cause) (fva : Nat) : Trap :=
  { s.precise c fva with ipc := if s.cur.insec then s.cur.pc else s.cur.shdr }

/-- What a stream's turn comes to: an instruction to execute, or the whole outcome. -/
inductive TurnOut where
  | run (s : State) (i : Instr)
  | done (s : State)
  | stop (f : Fault)

/-- A fetch that fails at a word or header; poisoned code raises a precise POISON with FVA 0 (DESIGN CHOICE, log entry 87). -/
def State.fetchFailed (s : State) : FetchBad → TurnOut
  | .bad (.cause c fva) => .done (s.raise (s.fetchTrap c fva))
  | .bad .hole => .stop .hbmHole
  | .poison => .done (s.raise (s.fetchTrap .poison 0))

def wordGroup (w : IWord) : Nat := (w.extractLsb' 90 6).toNat

def wordMinor (w : IWord) : Nat := (w.extractLsb' 84 6).toNat

/-- The privileged instructions that a stream with HND set issues in user mode: ERET, and CSRR, CSRW and CSRX of its own trap
frame and STRST (R361). -/
def freeInHandler (w : IWord) : Bool :=
  let m := wordMinor w
  m = 1 || (2 ≤ m && m ≤ 4 && (w.extractLsb' 0 32 : BitVec 32).toNat ≤ 0x10)

/-- Does the word repeat a prefix kind of its pair (R156)? -/
def Stream.repeats (x : Stream) (w : IWord) : Bool :=
  wordMinor w = 0 && ((wordGroup w = 0x3E && x.wide.isSome) || (wordGroup w = 0x3F && x.rows.isSome))

/-- Steps 2 to 4 of R162 and, before them, the check for a repeated prefix. -/
def State.wordTrap (s : State) (w : IWord) : Option Trap :=
  let n := s.cur.npfx
  if s.cur.repeats w then some (s.encTrap .prefx n)
  else
    match opInfo (wordGroup w) (wordMinor w) with
    | none => some (s.encTrap .illegal n)
    | some (strms, priv) =>
      if wordGroup w = 0x18 && isDcc s.cid then some (s.encTrap .illegal n)
      else if priv && !s.systemMode && !(s.cur.hnd && freeInHandler w) then some (s.encTrap .priv n)
      else if !strms.contains s.who then some (s.encTrap .stream n)
      else none

/-- A word of the issuing stream: checked, decoded. -/
def State.tryWord (s : State) (w : IWord) : TurnOut :=
  match s.wordTrap w with
  | some t => .done (s.raise t)
  | none =>
    match decodeWord w with
    | .ok i => .run s i
    | .error _ => .done (s.raise (s.encTrap .illegal s.cur.npfx))

/-- The next word of the issuing stream: from the loop buffer, or fetched (R49, R163). -/
def State.nextWord (s : State) : TurnOut :=
  let a := s.cur.pc + BitVec.ofNat 32 (3 * s.cur.npfx)
  match s.cur.buffered a with
  | some w => s.tryWord w
  | none =>
    match s.fetch a 12 with
    | (s, .error b) => s.fetchFailed b
    | (s, .ok bs) => (s.mapCur fun x => x.keepWord a (wordOfBytes bs)).tryWord (wordOfBytes bs)

/-- A stream that stands at a header (R143 to R145). -/
def State.headerTurn (s : State) : TurnOut :=
  match s.headerStep with
  | .began s => .done s
  | .gated s => .done (s.stall .gate)
  | .illegal s => .done (s.raise (s.fetchTrap .illegal 0))
  | .fail s b => s.fetchFailed b

/-- Is the word a prefix: does the pair go on in the same clock (R156)? -/
def isPfx : Instr → Bool
  | .pfxi _ => true
  | .pfxm _ => true
  | _ => false

/-! ### The turn of a stream -/

/-- Does the core in focus run in this clock (R384, R399, R439, R446)? -/
def State.running (s : State) : Bool :=
  decide (s.boot = .running) && decide (s.core.phase = .running) && (s.die (dieOf s.cid)).haltClk = 0

/-- May the stream issue: not stopped, not inside a WAITA whose watch has not fired, not waiting at an end instruction for the
others? In checking mode a stream issues at most once in 4 clocks (R65). -/
def State.mayIssue (s : State) : Bool :=
  let x := s.cur
  (match x.waitW with
    | some (_, fired) => fired
    | none => true) &&
  (x.ended.isNone || (s.core.meetReady && s.core.decider = s.who)) &&
  (!s.core.chk || s.cyc.toNat % 4 = 0 || x.npfx != 0)

/-- The turn of stream k of the core in focus: nothing when its trap ends the step in this clock; a pending trap at its boundary;
the end of a sleep that ends without a trap; its next header or word. -/
def State.strmTurn (s : State) (k : Strm) : TurnOut :=
  let s := { s with who := k }
  let x := s.cur
  if !s.running || x.parked || s.core.ending.any (fun e => e.strm = k) then .done s
  else if !(s.dueTraps k).isEmpty then .done (s.trapTaken k)
  else
    match x.asleep with
    | some z => .done (if s.sleepOver z && s.sleepKept z then s.endSleep z else s)
    | none => if !s.mayIssue then .done s else if x.insec then s.nextWord else s.headerTurn

/-! ### Hardware events

Which of them happens, when several may, the spec does not say: the choice is a free value, none of them included (log
entry 1). -/

/-- An event of the hardware, with what names it. -/
inductive Hw where
  | release (id : Nat) | access (id : Nat) | copyBegin | copyEnd (tag : BitVec 16) | mtxBegin | mtxEnd
  | preemptStop
  | draftFetch (idx : Nat) | draftArrival (idx : Nat)
  | spill (log seg : Nat) | compact (log seg : Nat)
  | dispatch | wake (pa : Nat) | deal (r slot : Nat) | jobEnd (r slot : Nat) | complWord (r slot : Nat)
  | launch (fn : Nat) | rick (die : Nat)
  | slotBoundary | overflow (pa : Nat)
  | gate (g : Nat) | wakeDone (g : Nat)
  | renew (page : Nat) | expire (page : Nat) | replay (port : Nat) | timeout (node : Nat) | hostLoss
  deriving DecidableEq, Repr

def Hw.run : Hw → State → Host.Outcome State Fault Refusal
  | .release id, s => execReleaseComplete id s
  | .access id, s => execAccessComplete id s
  | .copyBegin, s => execCopyCommandBegin s
  | .copyEnd tag, s => execCopyCommandComplete tag s
  | .mtxBegin, s => execMatrixCommandBegin s
  | .mtxEnd, s => execMatrixCommandComplete s
  | .preemptStop, s => execPreemptStop s
  | .draftFetch idx, s => execDraftFetch idx s
  | .draftArrival idx, s => execDraftArrival idx s
  | .spill log seg, s => execBilletSpill log seg s
  | .compact log seg, s => execCompaction log seg s
  | .dispatch, s => execDispatch s
  | .wake pa, s => execContinuationWake pa s
  | .deal r slot, s => execDealChunk r slot s
  | .jobEnd r slot, s => execJobComplete r slot s
  | .complWord r slot, s => execCompletionWordWrite r slot s
  | .launch fn, s => execHostLaunch fn s
  | .rick die, s => execRickFiring die s
  | .slotBoundary, s => execTimerSlotBoundary s
  | .overflow pa, s => execTimerOverflowMove pa s
  | .gate g, s => execGroupGate g s
  | .wakeDone g, s => execGroupWakeDone g s
  | .renew page, s => execLeaseRenewal page s
  | .expire page, s => execLeaseExpiry page s
  | .replay port, s => execReplayTimeout port s
  | .timeout node, s => execResponseTimeout node s
  | .hostLoss, s => execHostLoss s

/-- The nodes and peers that something of this package may wait for. -/
def State.askedNodes (s : State) : List Nat :=
  let pool (a : Nat) : Option Nat := if spaceOf a = 1 then some (poolNode a) else none
  let ofCore (c : Core) : List Nat :=
    (c.accs.flatMap fun (a : Acc) => a.kind.asks.filterMap pool) ++ ((c.ctx.bind fun x => pool x.base.pa).toList) ++
      (if c.copy.any fun (m : CCmd) => m.op = .ccoll && m.begun then (List.range 1024).map peerKey else [])
  let ofLogs := s.logs.flatMap fun g => g.bills.flatMap fun b => b.recs.filterMap fun r => pool r.addr
  ((s.known.flatMap fun n => ofCore (s.coreAt n)) ++ ofLogs).eraseDups

/-- The node whose response timer has expired (R428). -/
def State.silentNode (s : State) : Option Nat := s.askedNodes.find? fun n => s.nodeUp n && s.overdue n

/-- An event that happens as soon as it is due. -/
def State.dueHw (s : State) : Option Hw :=
  let moves := s.wheel.filter fun e => !e.slot && s.inWheel e.due
  let old := s.leases.filter fun l => !l.served s.ftime
  let half := s.leases.filter s.renewDue
  let up (g : GroupPhase) : Bool := match g with
    | .waking t => decide (t.toNat ≤ s.ftime.toNat)
    | _ => false
  let woken := s.groups.filter fun e => up e.2
  if s.core.phase = .stopping && s.core.accs.isEmpty then some .preemptStop
  else if !s.dueEntries.isEmpty then some .slotBoundary
  else (moves.head?.map fun e => .overflow e.crec) <|> (old.head?.map fun l => .expire l.page) <|>
    (half.head?.map fun l => .renew l.page) <|>
    (woken.head?.map fun e => .wakeDone e.1) <|> (s.silentNode.map Hw.timeout) <|> (if s.hostSilent then some .hostLoss else none)

/-- Completions of the core in focus, and what its engines may do: they run while the core does. -/
def State.coreHw (s : State) : List Hw :=
  let c := s.core
  let on : Bool := c.phase = .running
  let accs := c.accs.filterMap fun (a : Acc) =>
    match a.rel with
    | some r => if c.relBehind r then none else some (Hw.release a.id)
    | none => some (.access a.id)
  let copyB := match c.nextCopy with
    | some m => if c.waitMet m.e then [Hw.copyBegin] else []
    | none => []
  let copyE := (c.copy.filter s.copyReady).map fun (m : CCmd) => Hw.copyEnd m.tag
  let mtx := (if s.mtxReady then [Hw.mtxBegin] else []) ++ (if c.mtx.running.isSome then [Hw.mtxEnd] else [])
  accs ++ (if on then copyB ++ copyE ++ mtx else [])

/-- The first billet of each log that may be spilled, and compacted. -/
def State.logHw (s : State) : List Hw :=
  s.logs.flatMap fun g =>
    let spill := (g.bills.find? fun (b : Billet) => (b.closed || b.isSealed) && !b.spilled).map fun b =>
      Hw.spill g.num.toNat b.seg
    let comp := (g.bills.find? fun (b : Billet) => b.isSealed && !b.compacted).map fun b => Hw.compact g.num.toNat b.seg
    spill.toList ++ comp.toList

/-- What the package may do beside the core in focus. -/
def State.pkgHw (s : State) : List Hw :=
  let drafts := (s.drafts.filter fun j => j.die = dieOf s.cid).flatMap fun j =>
    [Hw.draftFetch j.idx.toNat, .draftArrival j.idx.toNat]
  let wakes := (s.conts.filter s.mayWake).map fun (k : Cont) => Hw.wake k.pa
  let jobs := s.jobs.flatMap fun (j : Job) => [Hw.deal j.region j.slot, .jobEnd j.region j.slot, .complWord j.region j.slot]
  let fns := (s.fns.filter fun e => s.launchPosted e.1).map fun e => Hw.launch e.1
  let ricks := ((s.ricks.map fun e => e.1 / 128).eraseDups).map Hw.rick
  let gates := if s.gateIdle = 0 then [] else ((List.range 256).filter s.gateable).map Hw.gate
  let ports := (s.ports.filter fun e => e.2.replayDue).map fun e => Hw.replay e.1
  drafts ++ s.logHw ++ (if s.mayDispatch then [.dispatch] else []) ++ wakes ++ jobs ++ fns ++ ricks ++ gates ++ ports

/-- The hardware's turn: what is due, else one of what may happen or nothing. -/
def State.hwTurn (s : State) : Host.Outcome State Fault Refusal :=
  if s.boot != .running then .next s
  else
    match s.dueHw with
    | some e => e.run s
    | none =>
      match s.coreHw ++ s.pkgHw with
      | [] => .next s
      | es =>
        let (v, s) := s.fresh
        match es[v.toNat % (es.length + 1)]? with
        | some e => e.run s
        | none => .next s

/-! ### The clock (R10, R51, R52, R264, R364, R428, R446) -/

def DataQ.settle (q : DataQ) : DataQ := { q with ents := q.ents.map fun e => { e with fresh := false } }

def BitQ.settle (q : BitQ) : BitQ := { q with ents := q.ents.map fun e => (e.1, false) }

/-- One clock of one core: what was filled or pushed can be popped, S sees the shapes and masks, the counts of R52 and of ELAPSED
go on. -/
def Core.clock (c : Core) (ns : Nat) : Core :=
  let on : Bool := c.phase = .running
  { c with
    ldq := c.ldq.settle
    sdq := c.sdq.settle
    bq := c.bq.map BitQ.settle
    shS := c.sh
    mregS := c.mreg
    heldClk := if c.issued then 0 else if on && c.queueHeld then c.heldClk + 1 else c.heldClk
    issued := false
    ctx := c.ctx.map fun (x : StepCtx) => if on then { x with elapNs := x.elapNs + ns } else x }

/-- Has ELAPSED reached the step's limit, with no WATCHDOG raised for it yet (R366)? -/
def Core.limitMet (c : Core) (ns : Nat) : Bool :=
  match c.ctx with
  | some x => c.phase = .running && c.wdlim != 0 && !x.wdRaised && decide (1000 * c.wdlim.toNat ≤ x.elapNs + ns)
  | none => false

/-- Does the core raise QUEUE in this clock? -/
def Core.heldOut (c : Core) : Bool :=
  c.phase = .running && !c.issued && c.queueHeld && decide (2 ^ 20 ≤ c.heldClk + 1)

/-- QUEUE in the core in focus, after the pending traps of the stream that takes it (R368). -/
def State.queueDue (s : State) : State :=
  if [Strm.l, .c, .s].any fun k => (s.core.strm k).hold.isQueue && !(s.dueTraps k).isEmpty then s else s.queueTrap

/-- The streams of the core in focus whose promise sleep is over by now end it: a promise not kept shows now (R199). -/
def State.endSleeps (s : State) : State :=
  [Strm.l, .c, .s].foldl (fun (s : State) k =>
    match (s.core.strm k).asleep with
    | some z =>
      if z.mode = 0 && !(s.core.strm k).parked && s.sleepOver z && (s.dueTraps k).isEmpty && s.core.ending.all (fun e => e.strm != k) then
        State.endSleep { s with who := k } z
      else s
    | none => s) s

/-- The end of a clock on the core in focus: sleeps, the traps that end its step (R369), requests to stop it (R400). -/
def State.endCore (s : State) : State :=
  let s := if s.running then s.endSleeps.endByTraps else s
  s.decideStop s.cid

/-- The end of a clock on every core. -/
def State.endClock (s : State) : State :=
  let who := s.who
  { s.known.foldl (fun (s : State) n => s.onCore n State.endCore) s with who := who }

/-- The counters of a clock: 5/9 ns, for ever after KINDLING. How the collier's PTP discipline moves FTIME against CYC the spec
does not say (R10; DESIGN CHOICE, log entry 95). -/
def State.count (s : State) : State :=
  { s with
    cyc := s.cyc + 1
    frac := (s.frac + 5) % 9
    ftime := s.ftime + BitVec.ofNat 64 ((s.frac + 5) / 9)
    dies := s.dies.map fun (e : Nat × Die) => (e.1, { e.2 with haltClk := e.2.haltClk - 1 }) }

/-- What the homes hold back is tried again in each clock: a lease may have expired there (R104, R105). -/
def State.homesClock (s : State) : State := if s.accepted.isEmpty then s else s.retryHeld

/-- One clock (R10). FTIME advances by 5/9 ns in each (DESIGN CHOICE, log entry 95). -/
def State.clock (s : State) : State :=
  let s := s.endClock.homesClock
  let ns := (s.frac + 5) / 9
  let lim := s.known.filter fun n => (s.coreAt n).limitMet ns
  let held := s.known.filter fun n => (s.coreAt n).heldOut
  let s := ((s.count.portsClock ns).moveRoutes).mapCores fun c => c.clock ns
  let s := lim.foldl (fun s n => s.onCore n State.watchdogFire) s
  held.foldl (fun s n => s.onCore n State.queueDue) s

def State.clocks (s : State) : Nat → State
  | 0 => s
  | n + 1 => s.clock.clocks n

/-- The least of some numbers that passes. -/
def leastNum (p : Nat → Bool) (l : List Nat) : Option Nat := minBy (fun a b => decide (a < b)) (l.filter p)

/-- Does the package not see an event: after package fatal (R439) and while the collier has halted (R448)? It takes resets and,
after package fatal, what is written in its management registers; the pool nodes still answer what is sent to them. -/
def State.deafTo (s : State) (i : Instr) : Bool :=
  let home : Bool := match i with
    | .coldReset => true
    | .warmReset => true
    | .mgmtRegisterWrite _ _ => s.boot = .fatal
    | .ashUnfreeze _ => s.boot = .fatal
    | .read _ _ => true
    | .bulkGet _ _ => true
    | .leaseAcquire _ => true
    | .leaseRenew _ _ => true
    | .leaseRelease _ => true
    | .billetShip _ _ _ => true
    | .stepCommit _ _ => true
    | .atomic _ _ _ _ _ _ => true
    | .reduction _ _ _ _ => true
    | .inPlaceWrite _ _ => true
    | .tokenRaise _ _ _ => true
    | .claim _ => true
    | _ => false
  (s.boot = .fatal || s.boot = .dead) && !home

/-- The end of a core's rotation: the next known core, in the same clock; after the last the clock, and the lowest again. -/
def State.tick (s : State) : State :=
  match leastNum (fun n => decide (s.cid < n)) s.known with
  | some n => s.focus n
  | none =>
    let s := s.clock
    match leastNum (fun _ => true) s.known with
    | some n => s.focus n
    | none => s

/-- What moves after a turn. -/
def Turn.next : Turn → Turn
  | .strm .l => .strm .c
  | .strm .c => .strm .s
  | .strm .s => .hw
  | .hw => .tick
  | .tick => .strm .l

/-- The state that an instruction of a stream's turn runs in: before the last word of a pair the stream keeps its turn. before:
the turn and agenda that the turn was taken from. -/
def State.keepTurn (s before : State) (i : Instr) : State :=
  if isPfx i then { s with turn := before.turn, agenda := before.agenda } else s

/-! ### Placing one instruction -/

/-- A stream that may issue the word. -/
def strmFor (w : IWord) : Strm :=
  match opInfo (wordGroup w) (wordMinor w) with
  | some (k :: _, _) => k
  | _ => .l

/-- Where withFetchWord puts its tables and its code, in local HBM. -/
def probeTdir : Nat := 0x10000
def probeObj : Nat := 0x20000
def probeRoot : Nat := 0x30000
def probeLevel3 : Nat := 0x31000
def probeCode : Nat := 0x40000

/-- Tenant 0 enabled, its object 0 the first GiB with every permission, and one RC page of 1 GiB, writable and executable. -/
def probeTables : List (Nat × Nat × Nat) :=
  [ (probeTdir, 32, probeObj + probeRoot * 2 ^ 64 + 2 ^ 128)
  , (probeObj, 32, 2 ^ 30 * 2 ^ 64 + 0b11111 * 2 ^ 128 + 2 ^ 224)
  , (probeRoot, 16, probeLevel3 + 2 ^ 64)
  , (probeLevel3, 16, 2 ^ 64 + 2 ^ 65 + 1 * 2 ^ 68 + 2 ^ 70 + 2 ^ 72) ]

/-- A section header of a number of words that any stream may enter. -/
def probeHeader (len : Nat) : Nat := 0xB * 2 ^ 60 + len * 2 ^ 32 + 2 ^ 31 + 2 ^ 30 + 0xFFF * 2 ^ 12 + 0xFFF

/-- The memory with tables and code placed. -/
def probeMem (m : Mem) (len : Nat) (w : IWord) : Mem :=
  let m := probeTables.foldl (fun m e => m.store e.1 (natLe e.2.1 e.2.2)) m
  (m.store probeCode (natLe 8 (probeHeader len))).store (probeCode + 8) (bytesOfWord w)

/-- The stream at the first word of the section. -/
def Stream.probe (x : Stream) (len : Nat) : Stream :=
  { x.noPfx with
    pc := BitVec.ofNat 32 (probeCode / 4 + 2)
    shdr := BitVec.ofNat 32 (probeCode / 4)
    slen := BitVec.ofNat 16 len
    insec := true
    loops := []
    lbuf := []
    ended := none
    asleep := none
    waitW := none
    parked := false
    pend := [] }

/-- The core of a step of tenant 0 whose code object is object 0, with no translation cached. -/
def Core.probe (c : Core) (x : StepCtx) : Core :=
  let code : Cap := ⟨false, 0, 0, 0, 0, 2 ^ 30, 0b00101⟩
  { c with
    phase := .running
    ctx := some x
    chk := false
    caps := c.caps.set 0 (some code)
    icache := []
    tlb := []
    ccache := [] }

end Sys2Proof.Machine
end

