-- ==== Sys2Proof/Machine/Vred.lean ====
section
/-!
DEFINITION. Group VRED: reductions and scans of rows and columns (R254, R255, R80).
-/

namespace Sys2Proof.Machine

/-- The results of a reduction: how many, and how many elements each combines. -/
def Shp.outer (p : Shp) (col : Bool) : Nat := if col then p.cols else p.rows
def Shp.inner (p : Shp) (col : Bool) : Nat := if col then p.rows else p.cols

/-- The element at position k of row or column o. -/
def Shp.at_ (p : Shp) (col : Bool) (o k : Nat) : Nat := if col then k * p.cols + o else o * p.cols + k

/-- The elements of row or column o, in ascending order. -/
def Shp.lane (p : Shp) (col : Bool) (o : Nat) : List Nat := (List.range (p.inner col)).map (p.at_ col o)

/-- The 32-bit type of an integer type's signedness. -/
def wide32 (ty : EType) : EType := if ty.isSigned then .s32 else .z32

def sumPair (e t : EType) : Bool := if e.isArith then t = .f32 || t = e else e.isInt && t = wide32 e

def maxPair (e t : EType) : Bool := if e.isArith then t = .f32 || t = e else e.isInt && (t = e || t = wide32 e)

def amaxPair (e t : EType) : Bool := e.isArith && (t = .f32 || t = e)

def argPair (e t : EType) : Bool := (e.isArith || e.isInt) && t = .z32

/-- An element widened exactly to TYPE. -/
def widen (t e : EType) (x : Nat) : Nat := convertBits t e (.rnd .rne) false x

/-- A reduction: one value for each row or column, from its elements and whether each is in W. -/
def redOp (h : Hdr) (o : VRedOp) (ok : EType → EType → Bool) (f : Shp → List (Nat × Bool) → Nat) (s : State) :
    Host.Outcome State Fault Refusal :=
  vecOp (gateV [.c]) h (useS []) o.v.shp
    (fun p => ok p.ty o.v.ty && (fullTile o.va p).fits && (tileAt o.vd (p.outer o.col) o.v.ty).fits)
    (fun t p =>
      let w := t.wset p o.v.mask
      t.vecGo [(fullTile o.va p, w)] [(tileAt o.vd (p.outer o.col) o.v.ty, (List.range (p.outer o.col)).map fun i =>
        (i, f p ((p.lane o.col i).map fun e => (t.elem o.va p e, w.contains e))))] id) s

/-- A reduction by the tree of R80, an element outside W giving the identity. -/
def treeRed (h : Hdr) (o : VRedOp) (ok : EType → EType → Bool) (ident : Nat) (conv : Nat → Nat) (op : Nat → Nat → Nat) (s : State) :
    Host.Outcome State Fault Refusal :=
  redOp h o ok (fun p xs => tree op ident (xs.map fun (x, b) => if b then conv (widen o.v.ty p.ty x) else ident)) s

/-- One combination of a sum. -/
def sumStep (ty : EType) (rnd : Rnd) (sat : Bool) (a b : Nat) : Nat :=
  if ty.isInt then packInt ty sat (intOf ty a + intOf ty b) else fadd ty (.rnd rnd) false a b

/-- The identity of a sum: -0 or 0. -/
def sumIdent (ty : EType) : Nat := if ty.isInt then 0 else signBit ty true

def execVrsum (h : Hdr) (o : VRedOp) (s : State) : Host.Outcome State Fault Refusal :=
  treeRed h o sumPair (sumIdent o.v.ty) (fun x => x) (sumStep o.v.ty o.rnd o.sat) s

/-- The least and greatest patterns of a type: the infinities for a float. -/
def leastOf (ty : EType) : Nat := if ty.isInt then (if ty.isSigned then 2 ^ (ty.bits - 1) else 0) else packFV ty (.rnd .rne) false (.inf true)

def greatestOf (ty : EType) : Nat :=
  if ty.isInt then (if ty.isSigned then 2 ^ (ty.bits - 1) - 1 else 2 ^ ty.bits - 1) else packFV ty (.rnd .rne) false (.inf false)

def execVrmax (h : Hdr) (o : VRedOp) (s : State) : Host.Outcome State Fault Refusal :=
  treeRed h o maxPair (leastOf o.v.ty) (fun x => x) (elemMax o.v.ty) s

/-- The magnitude of a float pattern. -/
def magOf (ty : EType) (x : Nat) : Nat := if (fvOf ty x).isNan then canonNan ty else x % 2 ^ (ty.bits - 1)

def execVramax (h : Hdr) (o : VRedOp) (s : State) : Host.Outcome State Fault Refusal :=
  treeRed h o amaxPair 0 (magOf o.v.ty) (elemMax o.v.ty) s

def execVrmin (h : Hdr) (o : VRedOp) (s : State) : Host.Outcome State Fault Refusal :=
  treeRed h o maxPair (greatestOf o.v.ty) (fun x => x) (elemMin o.v.ty) s

/-- Is a below b in the order of VARGMAX and VSORT, NaN apart? -/
def elemBelow (ty : EType) (a b : Nat) : Bool :=
  if ty.isInt then decide (intOf ty a < intOf ty b) else (fvOf ty a).below (fvOf ty b)

/-- VARGMAX of a row or column (R255). -/
def argmax (ty : EType) (xs : List (Nat × Bool)) : Nat :=
  let inc := xs.zipIdx.filter fun x => x.1.2
  match inc.find? fun x => !ty.isInt && (fvOf ty x.1.1).isNan with
  | some x => x.2
  | none =>
    match minBy (fun a b => elemBelow ty b.1.1 a.1.1) inc with
    | some x => x.2
    | none => 0xFFFFFFFF

def execVargmax (h : Hdr) (o : VRedOp) (s : State) : Host.Outcome State Fault Refusal :=
  redOp h o argPair (fun p xs => argmax p.ty xs) s

/-- Running sums along a list of (element, value). -/
def scanLane (excl : Bool) (op : Nat → Nat → Nat) : Nat → List (Nat × Nat) → List (Nat × Nat)
  | _, [] => []
  | acc, (e, x) :: rest => (e, if excl then acc else op acc x) :: scanLane excl op (op acc x) rest

def execVscan (h : Hdr) (o : VScanOp) (s : State) : Host.Outcome State Fault Refusal :=
  vecOp (gateV [.c]) h (useS []) o.v.shp
    (fun p => sumPair p.ty o.v.ty && (fullTile o.va p).fits && (tileAt o.vd p.n o.v.ty).fits)
    (fun t p =>
      let w := t.wset p o.v.mask
      t.vecGo [(fullTile o.va p, w)] [(tileAt o.vd p.n o.v.ty, (List.range (p.outer o.col)).flatMap fun i =>
        scanLane o.excl (sumStep o.v.ty o.rnd o.sat) (sumIdent o.v.ty)
          (((p.lane o.col i).filter fun e => w.contains e).map fun e => (e, widen o.v.ty p.ty (t.elem o.va p e))))] id) s

end Sys2Proof.Machine
end

