-- ==== Sys2Proof/Machine/Vperm.lean ====
section
/-!
DEFINITION. Group VPERM: permutations, sorting, dropout, the deferral queue, shapes, masks and single elements (R257 to R266).
-/

namespace Sys2Proof.Machine

/-! ### Permutations (R258) -/

/-- vd[j, i] := va[i, j]. -/
def execVtrn (h : Hdr) (o : VTrnOp) (s : State) : Host.Outcome State Fault Refusal :=
  vecOp (gateN [.c]) h (useS []) o.shp
    (fun p => sameAny p.ty o.ty && (fullTile o.va p).fits && (fullTile o.vd p).fits)
    (fun t p => t.vecGo [(fullTile o.va p, List.range p.n)]
      [(fullTile o.vd p, (List.range p.n).map fun e => (e % p.cols * p.rows + e / p.cols, t.elem o.va p e))] id) s

/-- The element that VPERM takes for element e: an index past the end takes none. -/
def State.permIdx (s : State) (o : VPermOp) (p : Shp) (e : Nat) : Option Nat :=
  let x := (tileAt o.vb p.n .z16).get s.core.tile e
  if o.gl then (if x < p.n then some x else none)
  else if x < p.cols then some (e / p.cols * p.cols + x) else none

def execVperm (h : Hdr) (o : VPermOp) (s : State) : Host.Outcome State Fault Refusal :=
  vecOp (gateV [.c]) h (useS []) o.v.shp
    (fun p => sameAny p.ty o.v.ty && (fullTile o.va p).fits && (fullTile o.vd p).fits && (tileAt o.vb p.n .z16).fits)
    (fun t p =>
      let w := t.wset p o.v.mask
      t.vecGo [(tileAt o.vb p.n .z16, w), (fullTile o.va p, w.filterMap (t.permIdx o p))]
        [(fullTile o.vd p, w.map fun e => (e, match t.permIdx o p e with
          | some x => t.elem o.va p x
          | none => 0))] id) s

/-- The element that VSHUF takes for element e. -/
def shufIdx (o : VShufOp) (p : Shp) (e : Nat) : Nat :=
  let i := e / p.cols
  let j := e % p.cols
  if o.ax then (i + o.k.toNat) % p.rows * p.cols + j else i * p.cols + (j + o.k.toNat) % p.cols

def execVshuf (h : Hdr) (o : VShufOp) (s : State) : Host.Outcome State Fault Refusal :=
  vecOp (gateV [.c]) h (useS []) o.v.shp
    (fun p => sameAny p.ty o.v.ty && (fullTile o.va p).fits && (fullTile o.vd p).fits)
    (fun t p =>
      let w := t.wset p o.v.mask
      t.vecGo [(fullTile o.va p, w.map (shufIdx o p))]
        [(fullTile o.vd p, w.map fun e => (e, t.elem o.va p (shufIdx o p e)))] id) s

/-! ### Sorting (R259, R260) -/

def sortType (ty : EType) : Bool := ty.isArith || ty.isInt

def isNanBits (ty : EType) (x : Nat) : Bool := !ty.isInt && (fvOf ty x).isNan

/-- The order of R259: NaN last; desc reverses it. -/
def keyLt (ty : EType) (desc : Bool) (a b : Nat × Nat) : Bool :=
  let lt (x y : Nat) : Bool := !isNanBits ty x && (isNanBits ty y || elemBelow ty x y)
  if desc then lt b.1 a.1 else lt a.1 b.1

/-- A key as it is written: every NaN canonical. -/
def keyOut (ty : EType) (x : Nat) : Nat := if isNanBits ty x then canonNan ty else x

/-- Sorted (key, value) pairs. -/
def sortKeys (ty : EType) (desc : Bool) (l : List (Nat × Nat)) : List (Nat × Nat) := sortBy (keyLt ty desc) l

def execVsort (h : Hdr) (o : VSortOp) (s : State) : Host.Outcome State Fault Refusal :=
  vecOp (gateV [.c]) h (useS []) o.v.shp
    (fun p => sameAny p.ty o.v.ty && sortType p.ty && (fullTile o.va p).fits && (fullTile o.vd p).fits &&
      match o.kv with
      | some (vb, vc) => (fullTile vb p).fits && (fullTile vc p).fits && (fullTile o.vd p).apart (fullTile vc p)
      | none => true)
    (fun t p =>
      let w := t.wset p o.v.mask
      let rows := (List.range p.rows).map fun i => (p.lane false i).filter fun e => w.contains e
      let out := rows.flatMap fun es =>
        es.zip (sortKeys p.ty o.desc (es.map fun e => (t.elem o.va p e, match o.kv with
          | some (vb, _) => t.elem vb p e
          | none => 0)))
      let keys := out.map fun (e, x) => (e, keyOut p.ty x.1)
      match o.kv with
      | some (vb, vc) => t.vecGo [(fullTile o.va p, w), (fullTile vb p, w)]
          [(fullTile o.vd p, keys), (fullTile vc p, out.map fun (e, x) => (e, x.2))] id
      | none => t.vecGo [(fullTile o.va p, w)] [(fullTile o.vd p, keys)] id) s

def execVmrg (h : Hdr) (o : VMrgOp) (s : State) : Host.Outcome State Fault Refusal :=
  vecOp (gateN [.c]) h (useS []) o.shp
    (fun p => sameAny p.ty o.ty && sortType p.ty && (fullTile o.va p).fits && (fullTile o.vb p).fits && (fullTile o.vd p).fits &&
      (fullTile o.vc p).fits && (fullTile o.vd p).apart (fullTile o.vc p))
    (fun t p =>
      let row (i : Nat) : List Nat :=
        (sortKeys p.ty o.desc (((p.lane false i).map fun e => (t.elem o.va p e, 0)) ++
          (p.lane false i).map fun e => (t.elem o.vb p e, 0))).map fun x => keyOut p.ty x.1
      let all := List.range p.n
      t.vecGo [(fullTile o.va p, all), (fullTile o.vb p, all)]
        [(fullTile o.vd p, (List.range p.rows).flatMap fun i => (p.lane false i).zip ((row i).take p.cols)),
         (fullTile o.vc p, (List.range p.rows).flatMap fun i => (p.lane false i).zip ((row i).drop p.cols))] id) s

/-! ### Dropout and hashes (R261) -/

def execVdrop (h : Hdr) (o : VDropOp) (s : State) : Host.Outcome State Fault Refusal :=
  vecOp (gateV [.c]) h (useS [.n o.np, .n o.nc]) o.v.shp
    (fun p => sameAny p.ty o.v.ty && p.ty != .e8m0 && (fullTile o.va p).fits && (fullTile o.vd p).fits)
    (fun t p =>
      let w := t.wset p o.v.mask
      let keep (e : Nat) : Bool := kilnKeep ((t.cur.n[o.np]).toNat % 65536) (kiln t.core.seed t.cur.n[o.nc] e)
      t.vecGo [(fullTile o.va p, w)] [(fullTile o.vd p, w.map fun e => (e, if keep e then t.elem o.va p e else 0))]
        (fun x => match o.mkr with
          | some k => x.putMask k (setBits (t.mask k) (w.map fun e => (e, keep e)))
          | none => x)) s

/-- The value of VRNG for a hash. -/
def rngVal (ty : EType) (k : Nat) : Nat := if ty = .f32 then packFV .f32 (.rnd .rne) false (.fin false (k / 256) (-24)) else k

def execVrng (h : Hdr) (o : VRngOp) (s : State) : Host.Outcome State Fault Refusal :=
  elemOp h [.n o.nc] o.v (fun e t => e = t && (t = .z32 || t = .f32)) o.vd (fun _ => [])
    (fun t p e => rngVal p.ty (kiln t.core.seed t.cur.n[o.nc] e)) s

/-! ### The deferral queue (R262, R263) -/

def defType (ty : EType) : Bool := ty = .f32 || ty = .s32 || ty = .z32

def VDeferOp.tiles (o : VDeferOp) : List (BitVec 10) := [o.va, o.vb, o.vc, o.vd].take (o.cnt.val + 1)

/-- The entry that element e of the tiles gives. -/
def State.defEnt (s : State) (path : BitVec 6) (vs : List (BitVec 10)) (p : Shp) (e : Nat) : DefEnt :=
  { data := BitVec.ofNat 128 (vs.foldr (fun v acc => s.elem v p e + 2 ^ 32 * acc) 0)
    tag := BitVec.ofNat 16 (path.toNat + 64 * e) }

/-- Put entries at the tail of the deferral queue. -/
def State.deferPush (s : State) (l : List DefEnt) : State := { s with core := { s.core with defq := s.core.defq ++ l } }

/-- Entries of the deferral queue. -/
def defqSize : Nat := 4096

def execVdefer (h : Hdr) (o : VDeferOp) (s : State) : Host.Outcome State Fault Refusal :=
  vecOp (gateV [.c]) h (useS []) o.v.shp
    (fun p => sameAny p.ty o.v.ty && defType p.ty && (VDeferOp.tiles o).all fun v => (fullTile v p).fits)
    (fun t p =>
      let w := t.wset p o.v.mask
      let rd := (VDeferOp.tiles o).map fun v => (fullTile v p, w)
      if t.core.defq.length + w.length ≤ defqSize then
        t.vecGo rd [] (fun x => (x.deferPush (w.map (t.defEnt o.path (VDeferOp.tiles o) p))).putPred o.p true)
      else
        t.owned (rd.flatMap fun (a, es) => a.wins false es)
          (if o.p = 0 then .trap t { t.precise .queue 0 with info := 0x60 } else .go (t.putPred o.p false))) s

/-- Take at most n entries of a path: those taken, those left. -/
def takePath (path : Nat) : Nat → List DefEnt → List DefEnt × List DefEnt
  | _, [] => ([], [])
  | n, x :: l =>
    if n != 0 && x.tag.toNat % 64 = path then
      let r := takePath path (n - 1) l
      (x :: r.1, r.2)
    else
      let r := takePath path n l
      (r.1, x :: r.2)

def VDrainOp.tiles (o : VDrainOp) : List (BitVec 10) := [o.vd, o.va, o.vb, o.vc].take (o.cnt.val + 1)

/-- What entry x gives to value tile k. -/
def drainVal (o : VDrainOp) (x : DefEnt) (k : Nat) : Nat :=
  if o.idx && k = 3 then x.tag.toNat / 64 else bitsOf x.data.toNat (32 * k) 32

def execVdrain (h : Hdr) (o : VDrainOp) (s : State) : Host.Outcome State Fault Refusal :=
  vecOp (gateN [.c]) h (useS []) o.shp
    (fun p => sameAny p.ty o.ty && defType p.ty && ((VDrainOp.tiles o).all fun v => (fullTile v p).fits) &&
      allApart ((VDrainOp.tiles o).map fun v => fullTile v p))
    (fun t p =>
      let r := takePath o.path.toNat p.n t.core.defq
      let ws := (VDrainOp.tiles o).zipIdx.map fun (v, k) => (fullTile v p, r.1.zipIdx.map fun (x, e) => (e, drainVal o x k))
      t.vecGo [] ws (fun x =>
        State.putMask { x with core := { x.core with defq := r.2 } } o.mkr (BitVec.ofNat 1024 (2 ^ r.1.length - 1)))) s

/-! ### Shapes and masks (R264, R265) -/

/-- The value that a VSHAPE writes, in the layout of R56. -/
def State.shapeVal (s : State) (v : ShapeVal) : BitVec 32 :=
  match v with
  | .imm rows cols ety => (0 : BitVec 6) ++ ety ++ cols ++ rows
  | .reg k => (s.cur.n[k]).setWidth 32 &&& 0x03FFFFFF

def ShapeVal.srcs : ShapeVal → List Src
  | .imm .. => []
  | .reg k => [.n k]

def execVshape (h : Hdr) (sh : Fin 4) (v : ShapeVal) (s : State) : Host.Outcome State Fault Refusal :=
  issue (gateN [.c]) h (useS (ShapeVal.srcs v)) (fun t =>
    if (shpOf (t.shapeVal v)).isSome then .go { t with core := { t.core with sh := t.core.sh.set sh (t.shapeVal v) } }
    else t.trapDone .illegal) s

/-- The masks' bits where a 4-bit table says so (R183). -/
def maskLog (tbl : BitVec 4) (a b : BitVec 1024) : BitVec 1024 :=
  let pick (k : Nat) (x : BitVec 1024) : BitVec 1024 := if tbl.getLsbD k then x else 0
  pick 0 (~~~a &&& ~~~b) ||| pick 1 (~~~a &&& b) ||| pick 2 (a &&& ~~~b) ||| pick 3 (a &&& b)

def execMlog (h : Hdr) (md ma mb : Fin 16) (tbl : BitVec 4) (s : State) : Host.Outcome State Fault Refusal :=
  issue (gateN [.c]) h (useS []) (fun t => .go (t.putMask md (maskLog tbl (t.mask ma) (t.mask mb)))) s

/-- A value of a mask under a shape, for a destination. -/
def maskOp (h : Hdr) (shp : Fin 4) (d : Dst) (f : List Nat → Nat) (ma : Fin 16) (s : State) : Host.Outcome State Fault Refusal :=
  vecOp (gateN [.c]) h (useD [] d) shp (fun _ => true)
    (fun t p => .go (t.putDst d (BitVec.ofNat 64 (f ((List.range p.n).filter fun e => (t.mask ma).getLsbD e))))) s

def execMcnt (h : Hdr) (shp : Fin 4) (d : Dst) (ma : Fin 16) (s : State) : Host.Outcome State Fault Refusal :=
  maskOp h shp d (fun l => l.length) ma s

def execMfirst (h : Hdr) (shp : Fin 4) (d : Dst) (ma : Fin 16) (s : State) : Host.Outcome State Fault Refusal :=
  maskOp h shp d (fun l => l.headD 1024) ma s

/-! ### Single elements (R266) -/

def VIdx.srcs : VIdx → List Src
  | .imm _ => []
  | .reg k => [.n k]

def State.vidx (s : State) : VIdx → Nat
  | .imm i => i.toNat
  | .reg k => (s.cur.n[k]).toNat

def execVext (h : Hdr) (shp : Fin 4) (ty : EType) (d : Dst) (va : BitVec 10) (idx : VIdx) (s : State) :
    Host.Outcome State Fault Refusal :=
  vecOp (gateN [.c]) h (useD (VIdx.srcs idx) d) shp (fun p => sameAny p.ty ty && (fullTile va p).fits)
    (fun t p =>
      let i := t.vidx idx
      if i < p.n then
        t.owned ((fullTile va p).wins false [i]) (.go (t.putDst d (extendElem ty (t.elem va p i))))
      else t.trapDone .illegal) s

/-- The source of VINS: selector 0x22 reads the PFXI payload. -/
def State.insVal (s : State) (a : Src) : Word :=
  match a with
  | .imm => (s.cur.wide.getD 0).setWidth 64
  | a => s.val 0 a

/-- VINS: the selector 0x22 without PFXI is checked with the word, before its prefixes (R162, R266). -/
def execVins (h : Hdr) (shp : Fin 4) (ty : EType) (vd : BitVec 10) (a : Src) (idx : VIdx) (s : State) :
    Host.Outcome State Fault Refusal :=
  let g : Gate := ⟨[.c], false, false, if a = .imm then 64 else 0, false⟩
  if a = .imm && s.cur.wide.isNone && s.who = .c then .next (s.raise (s.encTrap .illegal s.cur.npfx))
  else
    vecOp g h (useS (a :: VIdx.srcs idx)) shp (fun p => sameAny p.ty ty && (fullTile vd p).fits)
      (fun t p =>
        let i := t.vidx idx
        if i < p.n then t.vecGo [] [(fullTile vd p, [(i, (t.insVal a).toNat % 2 ^ ty.bits)])] id
        else t.trapDone .illegal) s

end Sys2Proof.Machine
end

