-- ==== Sys2Proof/Machine/Vsfu.lean ====
section
/-!
DEFINITION. Group VSFU: special functions of the vector unit (R256, R81).
-/

namespace Sys2Proof.Machine

/-- TYPE and ETYPE are f32. -/
def f32Pair (e t : EType) : Bool := e = .f32 && t = .f32

/-- One function over the elements of W. -/
def sfuOp (h : Hdr) (o : VUn) (f : FV → SF) (s : State) : Host.Outcome State Fault Refusal :=
  elemOp h o.r.srcs o.v f32Pair o.vd (fun p => [(fullTile o.va p, fun e => e)])
    (fun t p e => SF.pack (t.vmode o.r e) o.r.sat (f (fvOf .f32 (t.elem o.va p e)))) s

def execVexp2 (h : Hdr) (o : VUn) (s : State) : Host.Outcome State Fault Refusal := sfuOp h o sfExp2 s

def execVlog2 (h : Hdr) (o : VUn) (s : State) : Host.Outcome State Fault Refusal := sfuOp h o sfLog2 s

def execVrcp (h : Hdr) (o : VUn) (s : State) : Host.Outcome State Fault Refusal := sfuOp h o sfRcp s

def execVrsqrt (h : Hdr) (o : VUn) (s : State) : Host.Outcome State Fault Refusal := sfuOp h o sfRsqrt s

def execVsqrt (h : Hdr) (o : VUn) (s : State) : Host.Outcome State Fault Refusal := sfuOp h o sfSqrt s

def execVtanh (h : Hdr) (o : VUn) (s : State) : Host.Outcome State Fault Refusal := sfuOp h o sfTanh s

def execVsig (h : Hdr) (o : VUn) (s : State) : Host.Outcome State Fault Refusal := sfuOp h o sfSig s

/-- The sine to vd, the cosine to vb. -/
def execVsincos (h : Hdr) (o : VUn3) (s : State) : Host.Outcome State Fault Refusal :=
  vecOp (gateV [.c]) h (useS o.r.srcs) o.v.shp
    (fun p => f32Pair p.ty o.v.ty && (fullTile o.va p).fits && (fullTile o.vd p).fits && (fullTile o.vx p).fits &&
      (fullTile o.vd p).apart (fullTile o.vx p))
    (fun t p =>
      let w := t.wset p o.v.mask
      let val (f : FV → SF) (e : Nat) := SF.pack (t.vmode o.r e) o.r.sat (f (fvOf .f32 (t.elem o.va p e)))
      t.vecGo [(fullTile o.va p, w)]
        [(fullTile o.vd p, w.map fun e => (e, val sfSin e)), (fullTile o.vx p, w.map fun e => (e, val sfCos e))] id) s

end Sys2Proof.Machine
end

