-- ==== Sys2Proof/Machine/Dispatch.lean ====
section
/-!
DEFINITION. One arm per constructor of Instr: the meaning that it calls, or the refusal by name of an instruction that has
none yet.
-/

namespace Sys2Proof.Machine

def exec (i : Instr) (s : State) : Host.Outcome State Fault Refusal :=
  match i with
  | .add h o => Sys2Proof.Machine.execAdd h o s
  | .sub h o => Sys2Proof.Machine.execSub h o s
  | .mul h o => Sys2Proof.Machine.execMul h o s
  | .mulh h o => Sys2Proof.Machine.execMulh h o s
  | .div h o => Sys2Proof.Machine.execDiv h o s
  | .rem h o => Sys2Proof.Machine.execRem h o s
  | .and h o => Sys2Proof.Machine.execAnd h o s
  | .or h o => Sys2Proof.Machine.execOr h o s
  | .xor h o => Sys2Proof.Machine.execXor h o s
  | .andn h o => Sys2Proof.Machine.execAndn h o s
  | .shl h o => Sys2Proof.Machine.execShl h o s
  | .shr h o => Sys2Proof.Machine.execShr h o s
  | .sar h o => Sys2Proof.Machine.execSar h o s
  | .rotl h o => Sys2Proof.Machine.execRotl h o s
  | .min h o => Sys2Proof.Machine.execMin h o s
  | .max h o => Sys2Proof.Machine.execMax h o s
  | .clz h o => Sys2Proof.Machine.execClz h o s
  | .ctz h o => Sys2Proof.Machine.execCtz h o s
  | .popc h o => Sys2Proof.Machine.execPopc h o s
  | .sext h o => Sys2Proof.Machine.execSext h o s
  | .zext h o => Sys2Proof.Machine.execZext h o s
  | .bfx h o => Sys2Proof.Machine.execBfx h o s
  | .bfi h o => Sys2Proof.Machine.execBfi h o s
  | .cmp h o => Sys2Proof.Machine.execCmp h o s
  | .sel h o => Sys2Proof.Machine.execSel h o s
  | .mov h o => Sys2Proof.Machine.execMov h o s
  | .movi h d k v => Sys2Proof.Machine.execMovi h d k v s
  | .lea h sh o => Sys2Proof.Machine.execLea h sh o s
  | .fadd h o => Sys2Proof.Machine.execFadd h o s
  | .fmul h o => Sys2Proof.Machine.execFmul h o s
  | .ffma h o => Sys2Proof.Machine.execFfma h o s
  | .fmin h o => Sys2Proof.Machine.execFmin h o s
  | .fmax h o => Sys2Proof.Machine.execFmax h o s
  | .fcmp h o => Sys2Proof.Machine.execFcmp h o s
  | .fcvt h o => Sys2Proof.Machine.execFcvt h o s
  | .plog h pd pa pb tbl => Sys2Proof.Machine.execPlog h pd pa pb tbl s
  | .br h off => Sys2Proof.Machine.execBr h off s
  | .brIndirect h a => Sys2Proof.Machine.execBrIndirect h a s
  | .bc h cond ty a b off => Sys2Proof.Machine.execBc h cond ty a b off s
  | .bq h q inv pd off => Sys2Proof.Machine.execBq h q inv pd off s
  | .bqNobranch h q inv pd => Sys2Proof.Machine.execBqNobranch h q inv pd s
  | .bpush h tgt p inv => Sys2Proof.Machine.execBpush h tgt p inv s
  | .jtab h a cap len off => Sys2Proof.Machine.execJtab h a cap len off s
  | .call h link off => Sys2Proof.Machine.execCall h link off s
  | .callIndirect h link a => Sys2Proof.Machine.execCallIndirect h link a s
  | .ret h a => Sys2Proof.Machine.execRet h a s
  | .loop h cnt body => Sys2Proof.Machine.execLoop h cnt body s
  | .lbrk h n => Sys2Proof.Machine.execLbrk h n s
  | .nop h => Sys2Proof.Machine.execNop h s
  | .ends h => Sys2Proof.Machine.execEnds h s
  | .sbwait h all => Sys2Proof.Machine.execSbwait h all s
  | .sleep h a imm => Sys2Proof.Machine.execSleep h a imm s
  | .sleepUntil h a imm => Sys2Proof.Machine.execSleepUntil h a imm s
  | .sleepFor h a imm => Sys2Proof.Machine.execSleepFor h a imm s
  | .sleepEnd k => Sys2Proof.Machine.execSleepEnd k s
  | .rdtime h ftime d => Sys2Proof.Machine.execRdtime h ftime d s
  | .rdid h sel d => Sys2Proof.Machine.execRdid h sel d s
  | .qpush h q p a imm => Sys2Proof.Machine.execQpush h q p a imm s
  | .qpop h q d p => Sys2Proof.Machine.execQpop h q d p s
  | .qcnt h q d => Sys2Proof.Machine.execQcnt h q d s
  | .pfxi payload => Sys2Proof.Machine.execPfxi payload s
  | .pfxm f => Sys2Proof.Machine.execPfxm f s
  | .ld h o => Sys2Proof.Machine.execLd h o s
  | .ldTile h o => Sys2Proof.Machine.execLdTile h o s
  | .ldq h o => Sys2Proof.Machine.execLdq h o s
  | .st h o => Sys2Proof.Machine.execSt h o s
  | .stTile h o => Sys2Proof.Machine.execStTile h o s
  | .stq h o => Sys2Proof.Machine.execStq h o s
  | .pref h pv scope m => Sys2Proof.Machine.execPref h pv scope m s
  | .aadd h o => Sys2Proof.Machine.execAadd h o s
  | .amin h o => Sys2Proof.Machine.execAmin h o s
  | .amax h o => Sys2Proof.Machine.execAmax h o s
  | .aand h o => Sys2Proof.Machine.execAand h o s
  | .aor h o => Sys2Proof.Machine.execAor h o s
  | .axor h o => Sys2Proof.Machine.execAxor h o s
  | .aswp h o => Sys2Proof.Machine.execAswp h o s
  | .acas h o => Sys2Proof.Machine.execAcas h o s
  | .afadd h o => Sys2Proof.Machine.execAfadd h o s
  | .redi h o => Sys2Proof.Machine.execRedi h o s
  | .redf h o => Sys2Proof.Machine.execRedf h o s
  | .rel h o => Sys2Proof.Machine.execRel h o s
  | .relCommit h p m => Sys2Proof.Machine.execRelCommit h p m s
  | .rell h scope p d => Sys2Proof.Machine.execRell h scope p d s
  | .releaseComplete id => Sys2Proof.Machine.execReleaseComplete id s
  | .acq h o => Sys2Proof.Machine.execAcq h o s
  | .acql h p a b => Sys2Proof.Machine.execAcql h p a b s
  | .fence h scope kind => Sys2Proof.Machine.execFence h scope kind s
  | .lsync h => Sys2Proof.Machine.execLsync h s
  | .lstat h sel d => Sys2Proof.Machine.execLstat h sel d s
  | .waita h a scope m => Sys2Proof.Machine.execWaita h a scope m s
  | .waitaArm h a scope m => Sys2Proof.Machine.execWaitaArm h a scope m s
  | .wcancel h d => Sys2Proof.Machine.execWcancel h d s
  | .swait h sem dec a imm => Sys2Proof.Machine.execSwait h sem dec a imm s
  | .ssig h sem set a imm => Sys2Proof.Machine.execSsig h sem set a imm s
  | .srd h sem d => Sys2Proof.Machine.execSrd h sem d s
  | .cld h o => Sys2Proof.Machine.execCld h o s
  | .cst h o => Sys2Proof.Machine.execCst h o s
  | .cnarrow h o => Sys2Proof.Machine.execCnarrow h o s
  | .cinfo h fld d cs => Sys2Proof.Machine.execCinfo h fld d cs s
  | .cchk h o => Sys2Proof.Machine.execCchk h o s
  | .cpy h o => Sys2Proof.Machine.execCpy h o s
  | .cpyn h o => Sys2Proof.Machine.execCpyn h o s
  | .cpyt h cord o => Sys2Proof.Machine.execCpyt h cord o s
  | .cgath h o => Sys2Proof.Machine.execCgath h o s
  | .cscat h o => Sys2Proof.Machine.execCscat h o s
  | .cfill h o => Sys2Proof.Machine.execCfill h o s
  | .cred h o => Sys2Proof.Machine.execCred h o s
  | .credc h o => Sys2Proof.Machine.execCredc h o s
  | .ccoll h o => Sys2Proof.Machine.execCcoll h o s
  | .cbget h o => Sys2Proof.Machine.execCbget h o s
  | .cstat h sel d p a imm => Sys2Proof.Machine.execCstat h sel d p a imm s
  | .draft h o => Sys2Proof.Machine.execDraft h o s
  | .drstep h d a => Sys2Proof.Machine.execDrstep h d a s
  | .copyCommandBegin => Sys2Proof.Machine.execCopyCommandBegin s
  | .copyCommandComplete tag => Sys2Proof.Machine.execCopyCommandComplete tag s
  | .draftFetch idx => Sys2Proof.Machine.execDraftFetch idx s
  | .draftArrival idx => Sys2Proof.Machine.execDraftArrival idx s
  | .vadd h o => Sys2Proof.Machine.execVadd h o s
  | .vsub h o => Sys2Proof.Machine.execVsub h o s
  | .vmul h o => Sys2Proof.Machine.execVmul h o s
  | .vfma h o => Sys2Proof.Machine.execVfma h o s
  | .vmin h o => Sys2Proof.Machine.execVmin h o s
  | .vmax h o => Sys2Proof.Machine.execVmax h o s
  | .vabs h o => Sys2Proof.Machine.execVabs h o s
  | .vneg h o => Sys2Proof.Machine.execVneg h o s
  | .vand h o => Sys2Proof.Machine.execVand h o s
  | .vor h o => Sys2Proof.Machine.execVor h o s
  | .vxor h o => Sys2Proof.Machine.execVxor h o s
  | .vshl h o => Sys2Proof.Machine.execVshl h o s
  | .vshr h o => Sys2Proof.Machine.execVshr h o s
  | .vsar h o => Sys2Proof.Machine.execVsar h o s
  | .vcmp h o => Sys2Proof.Machine.execVcmp h o s
  | .vsel h o => Sys2Proof.Machine.execVsel h o s
  | .vmov h o => Sys2Proof.Machine.execVmov h o s
  | .vbcast h o => Sys2Proof.Machine.execVbcast h o s
  | .viota h o => Sys2Proof.Machine.execViota h o s
  | .vcvt h o => Sys2Proof.Machine.execVcvt h o s
  | .vqnt h o => Sys2Proof.Machine.execVqnt h o s
  | .vqntMx h o => Sys2Proof.Machine.execVqntMx h o s
  | .vdqnt h o => Sys2Proof.Machine.execVdqnt h o s
  | .vdqntMx h o => Sys2Proof.Machine.execVdqntMx h o s
  | .vrsum h o => Sys2Proof.Machine.execVrsum h o s
  | .vrmax h o => Sys2Proof.Machine.execVrmax h o s
  | .vramax h o => Sys2Proof.Machine.execVramax h o s
  | .vrmin h o => Sys2Proof.Machine.execVrmin h o s
  | .vargmax h o => Sys2Proof.Machine.execVargmax h o s
  | .vscan h o => Sys2Proof.Machine.execVscan h o s
  | .vexp2 h o => Sys2Proof.Machine.execVexp2 h o s
  | .vlog2 h o => Sys2Proof.Machine.execVlog2 h o s
  | .vrcp h o => Sys2Proof.Machine.execVrcp h o s
  | .vrsqrt h o => Sys2Proof.Machine.execVrsqrt h o s
  | .vsqrt h o => Sys2Proof.Machine.execVsqrt h o s
  | .vtanh h o => Sys2Proof.Machine.execVtanh h o s
  | .vsincos h o => Sys2Proof.Machine.execVsincos h o s
  | .vsig h o => Sys2Proof.Machine.execVsig h o s
  | .vtrn h o => Sys2Proof.Machine.execVtrn h o s
  | .vperm h o => Sys2Proof.Machine.execVperm h o s
  | .vshuf h o => Sys2Proof.Machine.execVshuf h o s
  | .vsort h o => Sys2Proof.Machine.execVsort h o s
  | .vmrg h o => Sys2Proof.Machine.execVmrg h o s
  | .vdrop h o => Sys2Proof.Machine.execVdrop h o s
  | .vrng h o => Sys2Proof.Machine.execVrng h o s
  | .vdefer h o => Sys2Proof.Machine.execVdefer h o s
  | .vdrain h o => Sys2Proof.Machine.execVdrain h o s
  | .vshape h sh v => Sys2Proof.Machine.execVshape h sh v s
  | .mlog h md ma mb tbl => Sys2Proof.Machine.execMlog h md ma mb tbl s
  | .mcnt h shp d ma => Sys2Proof.Machine.execMcnt h shp d ma s
  | .mfirst h shp d ma => Sys2Proof.Machine.execMfirst h shp d ma s
  | .vext h shp ty d va idx => Sys2Proof.Machine.execVext h shp ty d va idx s
  | .vins h shp ty vd a idx => Sys2Proof.Machine.execVins h shp ty vd a idx s
  | .mma h ck o => Sys2Proof.Machine.execMma h ck o s
  | .mmaz h ck o => Sys2Proof.Machine.execMmaz h ck o s
  | .azero h e d0 => Sys2Proof.Machine.execAzero h e d0 s
  | .adrain h ck o => Sys2Proof.Machine.execAdrain h ck o s
  | .aload h o => Sys2Proof.Machine.execAload h o s
  | .aacc h o => Sys2Proof.Machine.execAacc h o s
  | .mstat h sel d p => Sys2Proof.Machine.execMstat h sel d p s
  | .mstop h o => Sys2Proof.Machine.execMstop h o s
  | .mcksumOpen h slot e d0 => Sys2Proof.Machine.execMcksumOpen h slot e d0 s
  | .mcksumClose h slot e => Sys2Proof.Machine.execMcksumClose h slot e s
  | .matrixCommandBegin => Sys2Proof.Machine.execMatrixCommandBegin s
  | .matrixCommandComplete => Sys2Proof.Machine.execMatrixCommandComplete s
  | .uaxpby h o => Sys2Proof.Machine.execUaxpby h o s
  | .uadamw h o => Sys2Proof.Machine.execUadamw h o s
  | .uema h o => Sys2Proof.Machine.execUema h o s
  | .usgdm h nes o => Sys2Proof.Machine.execUsgdm h nes o s
  | .uclipVal h o => Sys2Proof.Machine.execUclipVal h o s
  | .uclipNrm h o => Sys2Proof.Machine.execUclipNrm h o s
  | .xenq h d a k rl p imm => Sys2Proof.Machine.execXenq h d a k rl p imm s
  | .xenqTile h d a w rl p imm => Sys2Proof.Machine.execXenqTile h d a w rl p imm s
  | .xdeq h d a b c imm => Sys2Proof.Machine.execXdeq h d a b c imm s
  | .xcmb h o => Sys2Proof.Machine.execXcmb h o s
  | .xstat h sel d a imm => Sys2Proof.Machine.execXstat h sel d a imm s
  | .xkick h d a imm => Sys2Proof.Machine.execXkick h d a imm s
  | .xdone h => Sys2Proof.Machine.execXdone h s
  | .rickAgeExpiry r => Sys2Proof.Machine.execRickAgeExpiry r s
  | .rickFiring die => Sys2Proof.Machine.execRickFiring die s
  | .susp h tag => Sys2Proof.Machine.execSusp h tag s
  | .suspCmb h tag a imm => Sys2Proof.Machine.execSuspCmb h tag a imm s
  | .yield h tag => Sys2Proof.Machine.execYield h tag s
  | .exit h => Sys2Proof.Machine.execExit h s
  | .spawn h d p m => Sys2Proof.Machine.execSpawn h d p m s
  | .join h tag scope m => Sys2Proof.Machine.execJoin h tag scope m s
  | .twheel h tag a imm => Sys2Proof.Machine.execTwheel h tag a imm s
  | .ctxliveTile h a b imm => Sys2Proof.Machine.execCtxliveTile h a b imm s
  | .ctxliveAcc h a b imm => Sys2Proof.Machine.execCtxliveAcc h a b imm s
  | .ctxliveClr h => Sys2Proof.Machine.execCtxliveClr h s
  | .trap h code => Sys2Proof.Machine.execTrap h code s
  | .eret h => Sys2Proof.Machine.execEret h s
  | .csrr h d csr => Sys2Proof.Machine.execCsrr h d csr s
  | .csrw h csr a => Sys2Proof.Machine.execCsrw h csr a s
  | .csrxSwp h d csr a => Sys2Proof.Machine.execCsrxSwp h d csr a s
  | .csrxSet h d csr a => Sys2Proof.Machine.execCsrxSet h d csr a s
  | .csrxClr h d csr a => Sys2Proof.Machine.execCsrxClr h d csr a s
  | .tlbinvVa h pkg a b imm => Sys2Proof.Machine.execTlbinvVa h pkg a b imm s
  | .tlbinvTnt h pkg a b imm => Sys2Proof.Machine.execTlbinvTnt h pkg a b imm s
  | .tlbinvAll h pkg a b imm => Sys2Proof.Machine.execTlbinvAll h pkg a b imm s
  | .tlbinvCap h pkg a b imm => Sys2Proof.Machine.execTlbinvCap h pkg a b imm s
  | .tlbinvIc h pkg a b imm => Sys2Proof.Machine.execTlbinvIc h pkg a b imm s
  | .ctxsv h d a b imm => Sys2Proof.Machine.execCtxsv h d a b imm s
  | .ctxld h d a b imm => Sys2Proof.Machine.execCtxld h d a b imm s
  | .semmap h zero d a b imm => Sys2Proof.Machine.execSemmap h zero d a b imm s
  | .mdrain h o => Sys2Proof.Machine.execMdrain h o s
  | .preempt h wait o => Sys2Proof.Machine.execPreempt h wait o s
  | .preemptStop => Sys2Proof.Machine.execPreemptStop s
  | .cmintMint h d a b c imm => Sys2Proof.Machine.execCmintMint h d a b c imm s
  | .cmintRevoke h d a b c imm => Sys2Proof.Machine.execCmintRevoke h d a b c imm s
  | .haltWfi h => Sys2Proof.Machine.execHaltWfi h s
  | .haltStop h => Sys2Proof.Machine.execHaltStop h s
  | .trapTaken k => Sys2Proof.Machine.execTrapTaken k s
  | .queueStallExpiry => Sys2Proof.Machine.execQueueStallExpiry s
  | .watchdog => Sys2Proof.Machine.execWatchdog s
  | .hostLaunch fn => Sys2Proof.Machine.execHostLaunch fn s
  | .dealChunk region slot => Sys2Proof.Machine.execDealChunk region slot s
  | .dispatch => Sys2Proof.Machine.execDispatch s
  | .claim c => Sys2Proof.Machine.execClaim c s
  | .continuationWake rec => Sys2Proof.Machine.execContinuationWake rec s
  | .jobComplete region slot => Sys2Proof.Machine.execJobComplete region slot s
  | .completionWordWrite region slot => Sys2Proof.Machine.execCompletionWordWrite region slot s
  | .supervisorFree rec => Sys2Proof.Machine.execSupervisorFree rec s
  | .timerSlotBoundary => Sys2Proof.Machine.execTimerSlotBoundary s
  | .timerOverflowMove rec => Sys2Proof.Machine.execTimerOverflowMove rec s
  | .groupGate g => Sys2Proof.Machine.execGroupGate g s
  | .groupWakeDone g => Sys2Proof.Machine.execGroupWakeDone g s
  | .billetSpill log seg => Sys2Proof.Machine.execBilletSpill log seg s
  | .compaction log seg => Sys2Proof.Machine.execCompaction log seg s
  | .leaseRenewal page => Sys2Proof.Machine.execLeaseRenewal page s
  | .leaseExpiry page => Sys2Proof.Machine.execLeaseExpiry page s
  | .read t len => Sys2Proof.Machine.execRead t len s
  | .bulkGet t len => Sys2Proof.Machine.execBulkGet t len s
  | .leaseAcquire t => Sys2Proof.Machine.execLeaseAcquire t s
  | .leaseRenew t grant => Sys2Proof.Machine.execLeaseRenew t grant s
  | .leaseRelease t => Sys2Proof.Machine.execLeaseRelease t s
  | .leaseRecall t => Sys2Proof.Machine.execRecall t s
  | .billetShip t head area => Sys2Proof.Machine.execBilletShip t head area s
  | .stepCommit t bodies => Sys2Proof.Machine.execStepCommit t bodies s
  | .atomic t op w64 sgn a b => Sys2Proof.Machine.execAtomic t op w64 sgn a b s
  | .reduction t op ety data => Sys2Proof.Machine.execReduction t op ety data s
  | .inPlaceWrite t data => Sys2Proof.Machine.execInPlaceWrite t data s
  | .tokenRaise t lost target => Sys2Proof.Machine.execTokenRaise t lost target s
  | .collective t b => Sys2Proof.Machine.execCollective t b s
  | .poison t => Sys2Proof.Machine.execPoison t s
  | .reassign t region => Sys2Proof.Machine.execReassign t region s
  | .reservedTransaction op t => Sys2Proof.Machine.execReservedTransaction op t s
  | .lostCompletionWrite space addr => Sys2Proof.Machine.execLostCompletionWrite space addr s
  | .responseTimeout node => Sys2Proof.Machine.execResponseTimeout node s
  | .dataFlit port f => Sys2Proof.Machine.execDataFlit port f s
  | .nakFlit port f => Sys2Proof.Machine.execNakFlit port f s
  | .trainingFlit port active => Sys2Proof.Machine.execTrainingFlit port active s
  | .replayTimeout port => Sys2Proof.Machine.execReplayTimeout port s
  | .wavelengthWindow port csym ucw => Sys2Proof.Machine.execWavelengthWindow port csym ucw s
  | .spareLock port lambda ok => Sys2Proof.Machine.execSpareLock port lambda ok s
  | .portBringup port bias near far => Sys2Proof.Machine.execPortBringup port bias near far s
  | .laserMeasurement port bias => Sys2Proof.Machine.execLaserMeasurement port bias s
  | .launchRingDoorbell fn tail => Sys2Proof.Machine.execLaunchRingDoorbell fn tail s
  | .faultRingTailWrite fn tail => Sys2Proof.Machine.execFaultRingTailWrite fn tail s
  | .hostWindowClose => Sys2Proof.Machine.execHostWindowClose s
  | .hostWindowSet base size => Sys2Proof.Machine.execHostWindowSet base size s
  | .hostRegisterWrite fn off v => Sys2Proof.Machine.execHostRegisterWrite fn off v s
  | .hostMemRequest line excl store => Sys2Proof.Machine.execHostMemRequest line excl store s
  | .hostLoss => Sys2Proof.Machine.execHostLoss s
  | .accinjWrite v => Sys2Proof.Machine.execAccinjWrite v s
  | .corectlWrite v => Sys2Proof.Machine.execCorectlWrite v s
  | .evpendClear v => Sys2Proof.Machine.execEvpendClear v s
  | .drtailWrite v => Sys2Proof.Machine.execDrtailWrite v s
  | .draftRingConfigWrite base v => Sys2Proof.Machine.execDraftRingConfigWrite base v s
  | .csrWrite csr v => Sys2Proof.Machine.execCsrWrite csr v s
  | .nodeStateWrite node up => Sys2Proof.Machine.execNodeStateWrite node up s
  | .rowRemapWrite stack idx v => Sys2Proof.Machine.execRowRemapWrite stack idx v s
  | .mgmtRegisterWrite off v => Sys2Proof.Machine.execMgmtRegisterWrite off v s
  | .ashUnfreeze ring => Sys2Proof.Machine.execAshUnfreeze ring s
  | .ue code loc => Sys2Proof.Machine.execUe code loc s
  | .packageFatal => Sys2Proof.Machine.execPackageFatal s
  | .dccErrorStop die => Sys2Proof.Machine.execDccErrorStop die s
  | .hbmScrub line bad => Sys2Proof.Machine.execHbmScrub line bad s
  | .rowSparing stack bank row badSpares lines => Sys2Proof.Machine.execRowSparing stack bank row badSpares lines s
  | .thermalReport die temp => Sys2Proof.Machine.execThermalReport die temp s
  | .thermalTrip die => Sys2Proof.Machine.execThermalTrip die s
  | .powerCap milliwatts die => Sys2Proof.Machine.execPowerCap milliwatts die s
  | .dvfsChange island v => Sys2Proof.Machine.execDvfsChange island v s
  | .coldReset => Sys2Proof.Machine.execColdReset s
  | .warmReset => Sys2Proof.Machine.execWarmReset s
  | .tinder copyA copyB => Sys2Proof.Machine.execTinder copyA copyB s
  | .kindling k => Sys2Proof.Machine.execKindling k s
  | .getVersion => Sys2Proof.Machine.execGetVersion s
  | .getCapabilities => Sys2Proof.Machine.execGetCapabilities s
  | .negotiateAlgorithms hash asym => Sys2Proof.Machine.execNegotiateAlgorithms hash asym s
  | .getDigests => Sys2Proof.Machine.execGetDigests s
  | .getCertificate off len => Sys2Proof.Machine.execGetCertificate off len s
  | .getMeasurements idx sign nonce => Sys2Proof.Machine.execGetMeasurements idx sign nonce s
  | .unsupportedRequest => Sys2Proof.Machine.execUnsupportedRequest s
  | .idleFlit port f => Sys2Proof.Machine.execIdleFlit port f s
  | .hostLinkTrained => Sys2Proof.Machine.execHostLinkTrained s
  | .hostSnoop line => Sys2Proof.Machine.execHostSnoop line s
  | .accessComplete id => Sys2Proof.Machine.execAccessComplete id s

end Sys2Proof.Machine
end

