-- ==== Sys2Proof/Machine/Step.lean ====
section
/-!
DEFINITION. One step of the machine: the moves asked for from outside, then the rotation of log entry 1; and the placing of one
instruction where the next step fetches it.
-/

namespace Sys2Proof.Machine

/-- Carry out a stream's turn; before is the state that the turn was taken from. -/
def runTurn (before : State) : TurnOut → Host.Outcome State Fault Refusal
  | .run t i => exec i (t.keepTurn before i)
  | .done t => .next t
  | .stop f => .fault f

/-- A move asked for from outside. -/
def runMove (before s : State) : Move → Host.Outcome State Fault Refusal
  | .ev i => if s.deafTo i then .next s else exec i s
  | .strm n k => runTurn before ((s.focus n).strmTurn k)
  | .clocks n => .next (s.clocks n)
  | .recallAck page pos => .next (s.recallAcked page pos)
  | .mgmtRead off => .next { s with shown := some (s.mgmtRead off) }
  | .hostRead fn off => .next { s with shown := some (s.hostRead fn off) }
  | .dvsecRead => .next { s with shown := some (BitVec.ofNat 64 idWord) }
  | .doorbell die host => .next (s.eventDcc die (if host then 2 else 0))
  | .lineError line => .next (s.lineError line)
  | .rowError stack bank row => .next (s.rowError stack bank row)
  | .scrubbed => .next { s with rowErrs := [] }
  | .sliceError addr => .next (s.sliceError addr)
  | .rickError rick pos word => .next (s.rickError rick pos word)
  | .corrected unit => .next (s.corrected unit)
  | .makeReady tenant va => .next (s.superviseReady tenant va)
  | .measure img => .next (s.measureLate img)

/-- One step. -/
def step (s : State) : Host.Outcome State Fault Refusal :=
  match s.agenda with
  | m :: rest => runMove s { s with agenda := rest } m
  | [] =>
    match s.turn with
    | .strm k => runTurn s (State.strmTurn { s with turn := s.turn.next } k)
    | .hw => State.hwTurn { s with turn := s.turn.next }
    | .tick => .next (State.tick { s with turn := s.turn.next })

/-- s with an instruction placed as the next one that step runs: core 0 runs a step of tenant 0, with its tables and its code in
local HBM, and a stream that may issue the word stands at it (log entry 33). End instructions stand last in their section; behind
any other word comes one more, of zeros. -/
def State.withFetchWord (s : State) (nbits w : Nat) : State :=
  let w : IWord := BitVec.ofNat 96 (w % 2 ^ nbits)
  let k := strmFor w
  let len := if wordGroup w = 0x1D then 1 else 2
  let (log, s) := s.openLog 0 0 false
  let s := s.focus 0
  let c := s.core.probe (dccCtx log)
  { s with
    turn := .strm k
    agenda := []
    core := c.setStrm k ((c.strm k).probe len)
    mem := probeMem s.mem len w
    poisoned := []
    faulty := []
    tdir := BitVec.ofNat 40 probeTdir
    host := { s.host with hwsize := 0 }
    dies := s.dies.map fun (e : Nat × Die) => (e.1, { e.2 with haltClk := 0, tlb := [] })
    boot := .running }

end Sys2Proof.Machine
end

