-- ==== Sys2Proof/Safety.lean ====
section
/-!
DEFINITION. The terms that claims are stated in: when an instruction of a stream executes and what it then comes to, what an
instruction leaves as it was, and what a run that does not stop is.
-/

namespace Sys2Proof.Machine

/-- Memory is in canonical form. -/
def State.memWf (s : State) : Prop := s.mem.wf = true

/-! ### Execution -/

/-- An instruction whose encoding passes the checks of R161 and R162 executes in this turn: nothing holds it at issue (R43, R46 to
R48, R51, R53) and its guard is true (R149). -/
def Executes (g : Gate) (h : Hdr) (u : Use) (s : State) : Prop :=
  s.gateTrap g u = none ∧ s.blocked h u = none ∧ s.guard h = true

/-- The end of an instruction that takes no transfer: what it popped is gone and the stream stands behind it (R51, R193). -/
def State.finish (s : State) (u : Use) : State := (s.popAll u.srcs).advance

/-- Where i executes and P holds as it issues, the next state is that of its effect f, what it popped is gone and its stream
stands behind it. -/
def Gives (i : Instr) (g : Gate) (h : Hdr) (u : Use) (P : State → Prop) (f : State → State) : Prop :=
  ∀ s, Executes g h u s → P s.markIssued → exec i s = .next ((f s.markIssued).finish u)

/-- The same for an effect that says itself where the stream goes on. -/
def Goes (i : Instr) (g : Gate) (h : Hdr) (u : Use) (P : State → Prop) (f : State → State) : Prop :=
  ∀ s, Executes g h u s → P s.markIssued → exec i s = .next (f s.markIssued)

/-- Where i executes and P holds as it issues, it takes a precise trap of cause c and has no other effect (R366). -/
def Traps (i : Instr) (g : Gate) (h : Hdr) (u : Use) (P : State → Prop) (c : Cause) : Prop :=
  ∀ s, Executes g h u s → P s.markIssued → exec i s = .next (s.markIssued.raise (s.markIssued.precise c 0))

/-- Where i executes and P holds as it issues, its stream stalls at it (R52). -/
def Stalls (i : Instr) (g : Gate) (h : Hdr) (u : Use) (P : State → Prop) : Prop :=
  ∀ s, Executes g h u s → P s.markIssued → ∃ k, exec i s = .next (s.stall k)

/-- No condition beyond the execution. -/
def always (_ : State) : Prop := True

/-- An instruction of any stream whose whole effect is one value for its destination. -/
def valueGives (i : Instr) (h : Hdr) (srcs : List Src) (d : Dst) (f : State → Word) : Prop :=
  Gives i (gateR anyStrm srcs) h (useD srcs d) always fun t => t.putDst d (f t)

/-- The two sources read as numbers of the operand type (R171). -/
def intGives (i : Instr) (h : Hdr) (ty : ITy) (d : Dst) (a b : Src) (imm : BitVec 32) (f : Int → Int → Word) : Prop :=
  valueGives i h [a, b] d fun t => f (ty.read (t.val imm a)) (ty.read (t.valAfter imm [a] b))

/-- The two sources taken as patterns of the operand type's width (R172). -/
def patGives (i : Hdr → IBin → Instr) (f : (w : Nat) → BitVec w → BitVec w → BitVec w) : Prop :=
  ∀ h o, valueGives (i h o) h [o.a, o.b] o.d fun t =>
    o.ty.extend (f o.ty.width (BitVec.ofNat _ (t.val o.imm o.a).toNat) (BitVec.ofNat _ (t.valAfter o.imm [o.a] o.b).toNat)).toNat

/-- A count of bits of a pattern of the operand type's width (R172). -/
def countGives (i : Hdr → IUn → Instr) (f : Nat → Nat → Nat) : Prop :=
  ∀ h o, valueGives (i h o) h [o.a] o.d fun t => BitVec.ofNat 64 (f o.ty.width (o.ty.pat (t.val o.imm o.a)))

/-- The destination of an instruction that has one. -/
def dstOf : Instr → Option Dst
  | .add _ o | .sub _ o | .mul _ o | .div _ o => some o.d
  | .mulh _ o | .rem _ o | .and _ o | .or _ o | .xor _ o | .andn _ o | .shl _ o | .shr _ o | .sar _ o | .rotl _ o | .min _ o
  | .max _ o => some o.d
  | .clz _ o | .ctz _ o | .popc _ o | .mov _ o => some o.d
  | .sext _ o | .zext _ o => some o.d
  | .bfx _ o => some o.d
  | .bfi _ o | .lea _ _ o => some o.d
  | .cmp _ o => some o.d
  | .sel _ o => some o.d
  | .movi _ d _ _ => some (.n d)
  | .fadd _ o | .fmul _ o => some o.d
  | .ffma _ o => some o.d
  | .fmin _ o | .fmax _ o => some o.d
  | .fcmp _ o => some o.d
  | .fcvt _ o => some o.d
  | .call _ d _ | .callIndirect _ d _ | .rdtime _ _ d | .rdid _ _ d | .qpop _ _ d _ | .qcnt _ _ d => some d
  | .ld _ o => some o.d
  | .aadd .. | .amin .. | .amax .. | .aand .. | .aor .. | .axor .. | .aswp .. | .acas .. | .afadd .. => some .t
  | .acq _ o | .xcmb _ o => some o.d
  | .lstat _ _ d | .wcancel _ d | .srd _ _ d | .cinfo _ _ d _ | .cstat _ _ d _ _ _ | .drstep _ d _ => some d
  | .vext _ _ _ d _ _ | .mcnt _ _ d _ | .mfirst _ _ d _ | .mstat _ _ d _ => some d
  | .mstop _ o | .mdrain _ o | .preempt _ _ o => some o.d
  | .xenq _ d .. | .xenqTile _ d .. | .xdeq _ d .. | .xstat _ _ d .. | .xkick _ d .. | .spawn _ d .. => some d
  | .csrr _ d _ | .csrxSwp _ d .. | .csrxSet _ d .. | .csrxClr _ d .. | .ctxsv _ d .. | .ctxld _ d .. | .semmap _ _ d .. => some d
  | .cmintMint _ d .. | .cmintRevoke _ d .. => some d
  | _ => none

/-- The result entries that an instruction allocates, executed or not (R48): one where its destination is the result queue, or it
is a copy command, which answers with its promise or draft (R228, R238). -/
def entriesOf (i : Instr) : Nat :=
  match i with
  | .rell _ _ _ d => RelDst.allocs d
  | .cpy .. | .cpyn .. | .cpyt .. | .cgath .. | .cscat .. | .cfill .. | .cred .. | .credc .. | .ccoll .. | .cbget .. | .draft .. => 1
  | _ => ((dstOf i).map Dst.allocs).getD 0

/-! ### Transfers -/

/-- Does an address lie in the body of a loop level? -/
def LoopLvl.holds (v : LoopLvl) (a : BitVec 32) : Prop := (a - v.start).toNat < (v.stop - v.start).toNat

/-- Where a transfer to an address leads (R147, R148): to a word of the stream's own section, or out of it to a header that is an
entry. -/
def LeadsTo (s : State) (a : BitVec 32) (t : State) : Prop :=
  (∃ i, i < s.cur.slen.toNat ∧ a = wordAddr s.cur.shdr i ∧ t = s.gotoWord a) ∨
  (amongWords s.cur.shdr s.cur.slen a = false ∧ ∃ u h, s.header a = (u, .ok (some h)) ∧ h.entry = true ∧ t = u.gotoHeader a)

/-! ### Accesses -/

/-- What an instruction of access u becomes when it goes: its destination taken, its access on its way. -/
def State.departs (u : State) (h : Hdr) (d : Dst) (p : Bool) (kind : AccKind) : State :=
  (u.reserveDst d).2.addAcc h (u.reserveDst d).1 p kind none

/-- The same for an access that begins with a release. -/
def State.departsRel (u : State) (h : Hdr) (d : Dst) (p : Bool) (kind : AccKind) (r : RelSt) : State :=
  (u.reserveDst d).2.addAcc h (u.reserveDst d).1 p kind (some r)

/-- An access goes on its way from u: without rl at once, with it behind a release (R212, R298, R304). -/
def Sends (i : Instr) (s u : State) (use : Use) (h : Hdr) (d : Dst) (rl : Bool) (scope : Scope) (p : Bool) (k : AccKind) : Prop :=
  (rl = false → exec i s = .next ((u.departs h d p k).finish use)) ∧
  ∀ v r, rl = true → u.sealFor (scope = .pool) none false = .ok (v, r) → exec i s = .next ((v.departsRel h d p k r).finish use)

/-- Is a key address among the bytes that the parts which are not RC take in place? -/
def inPlaceAt (ps : List PPart) (a : Nat) : Prop := ∃ p ∈ ps, p.part.kind ≠ .rc ∧ p.part.addr ≤ a ∧ a < p.part.addr + p.part.len

/-- Is a key address in the LOG usage field of a region on the path of the step's log (R386, R387)? A new billet is charged
there. -/
def logUsage (u : State) (a : Nat) : Prop :=
  ∃ g r, u.log? u.logNum = some g ∧ r ∈ (u.path g.region.toNat).getD [g.region.toNat] ∧ u.rcbAddr r + 200 ≤ a ∧
    a < u.rcbAddr r + 208

/-- A store that its checks, the wait for SO accesses and for the stream's atomics on the same RC bytes, and the recall of leases
let pass (R96, R105, R128), in a state where no host copy of a line is out, changes only those bytes of its parts that are not RC,
and the LOG usage fields when a billet is opened; registers, capabilities, semaphores and tile registers stay. parts: its checked
parts; data: its bytes, of the state at issue and the state after those checks; kind, run and word: as storeBytes takes them. -/
def storeFramed (i : Instr) (h : Hdr) (srcs : List Src) (kind : Fin 4) (run word : Nat)
    (parts : State → State × Except Bad (List PPart)) (data : State → State → List Byte) : Prop :=
  ∀ s t u x v ps bad, Executes (gateM [.s]) h (useS srcs) s → parts s.markIssued = (u, .ok ps) → u.soWait ps = false →
    u.rcBusy ps = false → partsPois ps = false → u.recallPlaced (partsOf ps) = (x, true) →
    x.storeBytes kind run word (partsOf ps) (data s.markIssued u) = .ok (v, bad) → s.memWf → s.host.dirs = [] →
    (∀ a, logUsage u a → ¬(u.root.toNat ≤ a ∧ a < u.root.toNat + 8)) → exec i s = .next t →
    (∀ a, ¬inPlaceAt ps a → ¬logUsage u a → t.mem.get a = s.mem.get a) ∧
    t.cur.n = s.cur.n ∧ t.cur.p = s.cur.p ∧ t.core.caps = s.core.caps ∧ t.core.sems = s.core.sems ∧ t.core.tile = s.core.tile

/-- The checked parts of ST.tile; none where its tile word is ILLEGAL or its tile bytes break a window. -/
def tileStoreParts (o : TileOp) (t : State) : State × Except Bad (List PPart) :=
  match tileWord (t.val 0 o.a).toNat with
  | none => (t, .error (.cause .illegal 0))
  | some (byte, n) =>
    match t.memAccess [o.a] o.m n 8 [permW] .write with
    | (u, .ok ps) => if u.core.breach [⟨1, byte, n, false⟩] then (u, .error (.cause .ownership 0)) else (u, .ok ps)
    | (u, .error b) => (u, .error b)

/-- The checked parts of STQ, element by element; none while SDQ has too few values. -/
def queueStoreParts (o : QMemOp) (t : State) : State × Except Bad (List PPart) :=
  let n := o.n.val + 1
  if t.core.sdq.poppable.length < (if o.m.oreg = .q then n + 1 else n) then (t, .error (.cause .illegal 0))
  else
    match t.elemParts (List.replicate n .q) o.m (2 ^ o.size.val) 1 [permW] .write 0 n with
    | (u, .ok els) => (u, .ok els.flatten)
    | (u, .error b) => (u, .error b)

/-- An atomic goes to its home, a release before it when RL asks; a page that R140 forbids is ATOMSCOPE (R211, R212). -/
def atomGoes (i : Instr) (h : Hdr) (op : AtKind) (srcs : List Src) (w64 sgn rl aq p : Bool) (scope : Scope) (m : MAddr)
    (vals : State → Word × Word) : Prop :=
  let n := if w64 then 8 else 4
  let use := useD (srcs ++ [m.oreg.src]) .t
  ∀ s u q ps, Executes (gateM [.l]) h use s → s.markIssued.memAccess srcs m n n [permA] .write = (u, .ok (q :: ps)) →
    let k := AccKind.atom op q.part.addr q.part.pois q.part.kind w64 sgn aq (vals u).1 (vals u).2
    (atomScope q = true → exec i s = .next (u.raise (u.precise .atomscope q.part.va))) ∧
    (atomScope q = false → u.soWait (q :: ps) = false →
      (rl = false → exec i s = .next ((u.departs h .t p k).finish use)) ∧
      ∀ v r, rl = true → u.sealFor (scope = .pool) none false = .ok (v, r) →
        exec i s = .next ((v.departsRel h .t p k r).finish use))

/-- A reduction goes to its home (R213). -/
def reduceGoes (i : Instr) (h : Hdr) (a : Src) (n : Nat) (m : MAddr) (kind : Nat → PageKind → Word → AccKind) : Prop :=
  ∀ s u q ps, Executes (gateM [.s]) h (useS [a, m.oreg.src]) s →
    s.markIssued.memAccess [a] m n n [permA] .write = (u, .ok (q :: ps)) →
    (atomScope q = true → exec i s = .next (u.raise (u.precise .atomscope q.part.va))) ∧
    (atomScope q = false → q.part.pois = false → u.soWait (q :: ps) = false → exec i s =
      .next ((u.addAcc h .none false (kind q.part.addr q.part.kind (u.val 0 a)) none).finish (useS [a, m.oreg.src])))

/-! ### Copy commands -/

/-- The words of a copy command pass its checks at issue (R101, R160, R229 to R238). -/
def CopyPasses (t : State) (op : CopyOp) (d : Vector Word 4) (spans : List Span) : Prop :=
  copySpans op d = some spans ∧ (t.who = .s → writeDir op spans = true) ∧ (∀ p ∈ t.issueSpans op d spans, p.ep.fits p.len = true) ∧
  t.credAligned op d = true ∧ t.etypesOk op d = true ∧ (∀ p ∈ spans, p.ep.spc = 4 → t.sliceOk p.ep.slice = true)

/-- A copy command traps by its words, waits for one of the engine's 16 places, or is queued. -/
def copyGoes (i : Instr) (strms : List Strm) (h : Hdr) (op : CopyOp) (e : EHdr) (sel : List OReg) : Prop :=
  let use : Use := ⟨sel.map OReg.src, [], .discard, 1⟩
  let d (t : State) := t.words4 sel
  Traps i (gateN strms) h use (fun t => copySpans op (d t) = none) .illegal ∧
  Traps i (gateN strms) h use (fun t => ∃ spans, copySpans op (d t) = some spans ∧ (t.who = .s → writeDir op spans = true) ∧
    t.etypesOk op (d t) = false) .illegal ∧
  Traps i (gateN strms) h use (fun t => ∃ spans, copySpans op (d t) = some spans ∧ t.who = .s ∧ writeDir op spans = false) .stream ∧
  Stalls i (gateN strms) h use (fun t => ∃ spans, CopyPasses t op (d t) spans ∧ 16 ≤ t.core.copy.length) ∧
  ∀ spans, Gives i (gateN strms) h use
    (fun t => CopyPasses t op (d t) spans ∧ t.core.copy.length < 16 ∧ t.core.breach (t.copyWins op (d t)) = false)
    fun t => t.queueCopy h (encode i) op e (d t) spans

/-! ### Frames -/

/-- The same but for the core in focus: all of memory, every other core, every package register (R42). -/
def sameOutside (s t : State) : Prop := { t with core := s.core } = s

/-- The same streams but for the one that issues, and in every store, buffer, capability, semaphore, engine and special register
the same core; queues, outstanding accesses and the issue mark are not compared. -/
def sameBeside (s t : State) : Prop :=
  { t.core with
    l := s.core.l, c := s.core.c, s := s.core.s, ldq := s.core.ldq, sdq := s.core.sdq, bq := s.core.bq, accs := s.core.accs
    nextId := s.core.nextId, issued := s.core.issued } = s.core ∧
  ∀ k, k ≠ s.who → t.core.strm k = s.core.strm k

/-- Of the issuing stream: its scoreboard, its traps and trap frame, its handler state and its acquire status. -/
def sameControl (s t : State) : Prop :=
  t.cur.sb = s.cur.sb ∧ t.cur.pend = s.cur.pend ∧ t.cur.tf = s.cur.tf ∧ t.cur.hnd = s.cur.hnd ∧ t.cur.saved = s.cur.saved ∧
  t.cur.stopo = s.cur.stopo ∧ t.cur.astat = s.cur.astat ∧ t.cur.ended = s.cur.ended ∧ t.cur.asleep = s.cur.asleep

/-- Every named scalar of the issuing stream but a destination. -/
def sameScalars (d : Dst) (s t : State) : Prop := ∀ k, d ≠ .n k → t.cur.n[k] = s.cur.n[k]

/-- Every predicate but those of a list. -/
def samePreds (ps : List (Fin 8)) (s t : State) : Prop := ∀ k, k ∉ ps → t.cur.pred k = s.cur.pred k

/-- Every byte of memory, read at its home. -/
def sameBytes (s t : State) : Prop := ∀ a, t.mem.get a = s.mem.get a

/-- What an instruction of registers alone leaves as it was: everything but its destination d, the predicates ps, the
stream's own place, and the branch-outcome queues, which a frame names for itself. -/
def streamFrame (d : Dst) (ps : List (Fin 8)) (s t : State) : Prop :=
  sameOutside s t ∧ sameBeside s t ∧ sameControl s t ∧ sameScalars d s t ∧ samePreds ps s t ∧ sameBytes s t ∧
  (d ≠ .t → t.cur.rq = s.cur.rq)

/-- The same for an instruction that leaves those queues too. -/
def registerFrame (d : Dst) (ps : List (Fin 8)) (s t : State) : Prop := streamFrame d ps s t ∧ t.core.bq = s.core.bq

/-- An instruction that executes keeps that frame. -/
def framed (i : Instr) (g : Gate) (h : Hdr) (u : Use) (ps : List (Fin 8)) : Prop :=
  ∀ s t, Executes g h u s → exec i s = .next t → registerFrame u.dst ps s t

/-- The same for a family of instructions of any stream that write one destination. -/
def valueFramed {α : Type} (i : Hdr → α → Instr) (srcs : α → List Src) (d : α → Dst) : Prop :=
  ∀ h o, framed (i h o) (gateR anyStrm (srcs o)) h (useD (srcs o) (d o)) []

/-! ### Vector instructions -/

/-- The same but for the tile registers, the queue entries popped and the stream's place. -/
def tileFrame (s t : State) : Prop := registerFrame .discard [] s { t with core := { t.core with tile := s.core.tile } }

/-- An element-wise instruction under a valid shape, with no window open to break (R241 to R243): in W each element takes its value,
every other element and every byte outside the destination tile stays, and nothing else changes. -/
def elemGives (i : Instr) (h : Hdr) (srcs : List Src) (v : VCom) (ok : EType → EType → Bool) (vd : BitVec 10)
    (ins : Shp → List Tile) (f : State → Shp → Nat → Nat) : Prop :=
  ∀ s p, Executes (gateV [.c]) h (useS srcs) s → s.core.tile.wf = true → s.core.chk = false → s.shape v.shp = some p →
    ok p.ty v.ty = true → (tileAt vd p.n v.ty).fits = true → (∀ a ∈ ins p, Tile.fits a = true) →
    let d := tileAt vd p.n v.ty
    ∃ t, exec i s = .next t ∧ tileFrame s t ∧
      (∀ e, e < p.n → d.get t.core.tile e = if e ∈ s.wset p v.mask then f s p e % 2 ^ v.ty.bits else d.get s.core.tile e) ∧
      ∀ a, a < d.base ∨ d.base + d.bytes ≤ a → t.core.tile.get a = s.core.tile.get a

/-- The tile that a B operand reads. -/
def bTiles (b : BOp) (p : Shp) : List Tile := (b.tiles p).map (·.1)

/-- An element-wise instruction of va and B. -/
def binGives (i : Instr) (h : Hdr) (o : VBit) (ok : EType → EType → Bool) (f : EType → Nat → Nat → Nat) : Prop :=
  elemGives i h o.b.srcs o.v ok o.vd (fun p => fullTile o.va p :: bTiles o.b p) fun s p e =>
    f p.ty (s.elem o.va p e) (o.b.val s p e)

/-- One that rounds: a float function with its rounding, or an integer one wrapped or saturated (R72, R245). -/
def arithGives (i : Instr) (h : Hdr) (o : VBin) (ff : EType → RMode → Bool → Nat → Nat → Nat) (fi : Int → Int → Int) : Prop :=
  elemGives i h (o.b.srcs ++ o.r.srcs) o.v sameNum o.vd (fun p => fullTile o.va p :: bTiles o.b p) fun s p e =>
    let a := s.elem o.va p e
    let b := o.b.val s p e
    if p.ty.isInt then packInt p.ty o.r.sat (fi (intOf p.ty a) (intOf p.ty b)) else ff p.ty (s.vmode o.r e) o.r.sat a b

/-- A special function of f32 elements. -/
def sfuGives (i : Instr) (h : Hdr) (o : VUn) (f : FV → SF) : Prop :=
  elemGives i h o.r.srcs o.v f32Pair o.vd (fun p => [fullTile o.va p]) fun s p e =>
    SF.pack (s.vmode o.r e) o.r.sat (f (fvOf .f32 (s.elem o.va p e)))

/-- An instruction under a shape: ILLEGAL when the shape is not valid or the operands do not pass, else elements of tiles written,
all of them or none, and what post adds (R56, R241, R246). -/
def vecGives (i : Instr) (g : Gate) (h : Hdr) (u : Use) (k : Fin 4) (ok : Shp → Bool)
    (outs : State → Shp → List (Tile × List (Nat × Nat))) (post : State → Shp → State → State) : Prop :=
  Traps i g h u (fun t => ∀ p, t.shape k = some p → ok p = false) .illegal ∧
  ∀ p, Gives i g h u (fun t => t.shape k = some p ∧ ok p = true ∧ t.core.chk = false) fun t => post t p (t.putTiles (outs t p))

/-- A reduction of rows or columns: result i comes of the lane's elements, each with whether it is in W (R254). -/
def redGives (i : Instr) (h : Hdr) (o : VRedOp) (ok : EType → EType → Bool) (f : Shp → List (Nat × Bool) → Nat) : Prop :=
  vecGives i (gateV [.c]) h (useS []) o.v.shp
    (fun p => ok p.ty o.v.ty && (fullTile o.va p).fits && (tileAt o.vd (p.outer o.col) o.v.ty).fits)
    (fun t p => [(tileAt o.vd (p.outer o.col) o.v.ty, (List.range (p.outer o.col)).map fun j =>
      (j, f p ((p.lane o.col j).map fun e => (t.elem o.va p e, decide (e ∈ t.wset p o.v.mask)))))])
    fun _ _ t => t

/-- An update of stream S: in W the new elements and moments, from the values of f (R288, R289). -/
def updGives (i : Instr) (h : Hdr) (o : UOp) (ks : List Nat) (rd : Shp → List Tile) (mom : List (BitVec 10))
    (f : State → Shp → Nat → Nat × List Nat) : Prop :=
  vecGives i (gateV [.s]) h (useS (updSrcs o ks)) o.v.shp
    (fun p => p.ty.isArith && o.v.ty.isArith && (fullTile o.va p).fits && (rd p).all Tile.fits &&
      (tileAt o.vd p.n o.v.ty :: mom.map fun v => tileAt v p.n .f32).all Tile.fits &&
      allApart (tileAt o.vd p.n o.v.ty :: mom.map fun v => tileAt v p.n .f32))
    (fun t p => (tileAt o.vd p.n o.v.ty, (t.wset p o.v.mask).map fun e => (e, (f t p e).1)) ::
      mom.zipIdx.map fun (v, k) => (tileAt v p.n .f32, (t.wset p o.v.mask).map fun e => (e, (f t p e).2.getD k 0)))
    fun _ _ t => t

/-! ### The matrix engine -/

/-- A matrix command traps by its words, waits for one of the engine's 8 places, or is queued (R267, R272). -/
def mtxGoes (i : Instr) (h : Hdr) (op : MtxOp) (e : EHdr) (sel : List OReg) : Prop :=
  let g : Gate := { gateN [.c] with mtx := true }
  let use := useS (sel.map OReg.src)
  Traps i g h use (fun t => mtxWordsOk op (t.words4 sel) = false) .illegal ∧
  Stalls i g h use (fun t => mtxWordsOk op (t.words4 sel) = true ∧ 8 ≤ t.core.mtx.q.length) ∧
  Gives i g h use (fun t => mtxWordsOk op (t.words4 sel) = true ∧ t.core.mtx.q.length < 8 ∧
    t.core.breach (mtxWins op (t.words4 sel)) = false) fun t => t.queueMtx h (encode i) op e (t.words4 sel)

/-! ### End instructions -/

/-- An end instruction arrives and waits, or is ILLEGAL where it cannot meet those that wait; while it waits it stalls until its
stream is the one that carries the meeting out (R306). -/
def endGoes (i : Instr) (g : Gate) (h : Hdr) (srcs : List Src) (last : Bool) (tag : BitVec 7)
    (kind : State → State × Except Bad EndKind) : Prop :=
  ∀ s, Executes g h (useS srcs) s → (last = true → s.cur.next = s.cur.secEnd) →
    (∀ u k, s.markIssued.cur.ended = none → kind s.markIssued = (u, .ok k) →
      (u.canMeet u.who ⟨k, tag, false⟩ = true → exec i s =
        .next (u.mapCur fun x => { x with ended := some ⟨k, tag, false⟩, hold := .endIns })) ∧
      (u.canMeet u.who ⟨k, tag, false⟩ = false → exec i s = .next (u.raise (u.precise .illegal 0)))) ∧
    (∀ w, s.markIssued.cur.ended = some w → (s.markIssued.core.meetReady = false ∨ s.markIssued.core.decider ≠ s.who) →
      exec i s = .next (s.stall .endIns))

/-- The stream carries the meeting out, kind k deciding it (R306). -/
def Meets (g : Gate) (h : Hdr) (srcs : List Src) (last : Bool) (s : State) (x : StepCtx) (k : EndKind) : Prop :=
  Executes g h (useS srcs) s ∧ (last = true → s.cur.next = s.cur.secEnd) ∧ s.markIssued.cur.ended.isSome = true ∧
  s.markIssued.core.meetReady = true ∧ s.markIssued.core.decider = s.who ∧ s.markIssued.core.ctx = some x ∧
  s.markIssued.core.deciding = k

/-- A meeting that ends the step: the step closes by plan p, then post (R32, R306). -/
def endsBy (i : Instr) (g : Gate) (h : Hdr) (srcs : List Src) (last : Bool) (k : EndKind) (P : State → Prop)
    (p : State → EndPlan) (post : State → StepCtx → State → Cont → State) : Prop :=
  ∀ s x t c, Meets g h srcs last s x k → s.cid < 0x1000 → P s.markIssued →
    s.markIssued.closeStep x (p s.markIssued) = .ok (t, c) → exec i s = .next (post s.markIssued x t c)

/-- Where the copy engine of the core in focus has no granule in flight that its command holds bytes of. -/
def State.noGranule (s : State) : Prop := ∀ m ∈ s.core.copy, m.begun = true → m.done = false → m.comp = [] ∧ m.old = []

/-! ### The start of a step -/

/-- The state in which a step of k takes its registers, its record and frame read and its log open, and the number of that log (R28,
R107). -/
def State.opening (s : State) (k : Cont) : State × BitVec 32 :=
  let ten := s.effTenant k.region.toNat
  let r := if k.first && k.frame != 0 then (s.onRc ten k.frame.toNat 400).1 else s
  let o := (r.recordOk ten k).1.openLog ten k.region.toNat true
  (o.2.setCont { k with state := .running }, o.1)

/-! ### Homes -/

/-- An atomic's key is higher than those of the n bytes at a, so that all of them are written (R102, R121). -/
def State.keyWins (s : State) (a n : Nat) : Prop := ∀ i, i < n → (s.atomKey a n).higher (keyAt s.keys (a + i)) = true

/-! ### Privileged instructions -/

/-- The gate of a privileged instruction. -/
def sysG (srcs : List Src) : Gate := { gateR anyStrm srcs with priv := true }

/-- In user mode, outside a handler, i raises PRIV whatever else holds (R161, R360). -/
def isPrivileged (i : Instr) : Prop :=
  ∀ s : State, s.systemMode = false → s.cur.hnd = false → exec i s = .next (s.raise (s.encTrap .priv s.cur.npfx))

/-! ### Fetching -/

/-- In a turn of stream k of the core in focus nothing comes before its next word, which the loop buffer holds or a fetch brings
(R49), leaving u, which passes its checks, and which decodes to i (R162, R163). -/
def FetchesNext (s : State) (k : Strm) (u : State) (i : Instr) : Prop :=
  let t : State := { s with who := k }
  t.running = true ∧ t.cur.parked = false ∧ (∀ e ∈ t.core.ending, e.strm ≠ k) ∧ t.dueTraps k = [] ∧ t.cur.asleep = none ∧
  t.mayIssue = true ∧ t.cur.insec = true ∧
    let a := t.cur.pc + BitVec.ofNat 32 (3 * t.cur.npfx)
    ∃ w, (t.cur.buffered a = some w ∧ u = t ∨
        t.cur.buffered a = none ∧ ∃ v bs, t.fetch a 12 = (v, .ok bs) ∧ w = wordOfBytes bs ∧ u = v.mapCur (·.keepWord a w)) ∧
      u.wordTrap w = none ∧ decodeWord w = .ok i

/-! ### Runs -/

/-- A run of n steps from s ends in t, with no stop between. -/
def Runs : Nat → State → State → Prop
  | 0, s, t => s = t
  | n + 1, s, t => ∃ u, step s = .next u ∧ Runs n u t

/-- A run from s never stops. -/
def NeverStops (s : State) : Prop := ∀ n, ∃ t, Runs n s t

end Sys2Proof.Machine
end

