-- ==== Sys2Proof/WellFormed.lean ====
section
/-!
DEFINITION. Well-formed instructions: the rules of an instruction word that the types of Syntax.lean do not carry.
A well-formed instruction's word decodes to it again.
-/

namespace Sys2Proof

/-- f32, bf16 and f16: the types that FCVT does not take as its second type with COND[3] = 1 (R182). -/
def EType.isScalarFloat : EType → Bool
  | .f32 | .bf16 | .f16 => true
  | _ => false

/-- Integer arithmetic of format V takes RND 0 and no stochastic rounding (R245). -/
def roundOk (ty : EType) (r : VRound) : Bool := !ty.isInt || (r.rnd == .rne && r.sr.isNone)

/-- VBCAST takes a row, a column or a scalar (R250). -/
def BOp.notFull : BOp → Bool
  | .full _ => false
  | _ => true

/-- Format B has no IMM32 (R184). -/
def LoopCount.noImm : LoopCount → Bool
  | .src a => a != .imm
  | .imm _ => true

/-- The header of an instruction that has a word and is no prefix (R149). -/
def Instr.hdr? (i : Instr) : Option Hdr :=
  match i with
  | .add h _ | .sub h _ | .mul h _ | .mulh h _ | .div h _ | .rem h _ | .and h _ | .or h _ | .xor h _
  | .andn h _ | .shl h _ | .shr h _ | .sar h _ | .rotl h _ | .min h _ | .max h _ | .clz h _ | .ctz h _
  | .popc h _ | .sext h _ | .zext h _ | .bfx h _ | .bfi h _ | .cmp h _ | .sel h _ | .mov h _ | .movi h _ _ _
  | .lea h _ _ | .fadd h _ | .fmul h _ | .ffma h _ | .fmin h _ | .fmax h _ | .fcmp h _ | .fcvt h _
  | .plog h _ _ _ _ | .br h _ | .brIndirect h _ | .bc h _ _ _ _ _ | .bq h _ _ _ _ | .bqNobranch h _ _ _
  | .bpush h _ _ _ | .jtab h _ _ _ _ | .call h _ _ | .callIndirect h _ _ | .ret h _ | .loop h _ _ | .lbrk h _
  | .nop h | .ends h | .sbwait h _ | .sleep h _ _ | .sleepUntil h _ _ | .sleepFor h _ _ | .rdtime h _ _
  | .rdid h _ _ | .qpush h _ _ _ _ | .qpop h _ _ _ | .qcnt h _ _ | .ld h _ | .ldTile h _ | .ldq h _ | .st h _
  | .stTile h _ | .stq h _ | .pref h _ _ _ | .aadd h _ | .amin h _ | .amax h _ | .aand h _ | .aor h _
  | .axor h _ | .aswp h _ | .acas h _ | .afadd h _ | .redi h _ | .redf h _ | .rel h _ | .relCommit h _ _
  | .rell h _ _ _ | .acq h _ | .acql h _ _ _ | .fence h _ _ | .lsync h | .lstat h _ _ | .waita h _ _ _
  | .waitaArm h _ _ _ | .wcancel h _ | .swait h _ _ _ _ | .ssig h _ _ _ _ | .srd h _ _ | .cld h _ | .cst h _
  | .cnarrow h _ | .cinfo h _ _ _ | .cchk h _ | .cpy h _ | .cpyn h _ | .cpyt h _ _ | .cgath h _ | .cscat h _
  | .cfill h _ | .cred h _ | .credc h _ | .ccoll h _ | .cbget h _ | .cstat h _ _ _ _ _ | .draft h _
  | .drstep h _ _ | .vadd h _ | .vsub h _ | .vmul h _ | .vfma h _ | .vmin h _ | .vmax h _ | .vabs h _
  | .vneg h _ | .vand h _ | .vor h _ | .vxor h _ | .vshl h _ | .vshr h _ | .vsar h _ | .vcmp h _ | .vsel h _
  | .vmov h _ | .vbcast h _ | .viota h _ | .vcvt h _ | .vqnt h _ | .vqntMx h _ | .vdqnt h _ | .vdqntMx h _
  | .vrsum h _ | .vrmax h _ | .vramax h _ | .vrmin h _ | .vargmax h _ | .vscan h _ | .vexp2 h _ | .vlog2 h _
  | .vrcp h _ | .vrsqrt h _ | .vsqrt h _ | .vtanh h _ | .vsincos h _ | .vsig h _ | .vtrn h _ | .vperm h _
  | .vshuf h _ | .vsort h _ | .vmrg h _ | .vdrop h _ | .vrng h _ | .vdefer h _ | .vdrain h _ | .vshape h _ _
  | .mlog h _ _ _ _ | .mcnt h _ _ _ | .mfirst h _ _ _ | .vext h _ _ _ _ _ | .vins h _ _ _ _ _ | .mma h _ _
  | .mmaz h _ _ | .azero h _ _ | .adrain h _ _ | .aload h _ | .aacc h _ | .mstat h _ _ _ | .mstop h _
  | .mcksumOpen h _ _ _ | .mcksumClose h _ _ | .uaxpby h _ | .uadamw h _ | .uema h _ | .usgdm h _ _
  | .uclipVal h _ | .uclipNrm h _ | .xenq h _ _ _ _ _ _ | .xenqTile h _ _ _ _ _ _ | .xdeq h _ _ _ _ _
  | .xcmb h _ | .xstat h _ _ _ _ | .xkick h _ _ _ | .xdone h | .susp h _ | .suspCmb h _ _ _ | .yield h _
  | .exit h | .spawn h _ _ _ | .join h _ _ _ | .twheel h _ _ _ | .ctxliveTile h _ _ _ | .ctxliveAcc h _ _ _
  | .ctxliveClr h | .trap h _ | .eret h | .csrr h _ _ | .csrw h _ _ | .csrxSwp h _ _ _ | .csrxSet h _ _ _
  | .csrxClr h _ _ _ | .tlbinvVa h _ _ _ _ | .tlbinvTnt h _ _ _ _ | .tlbinvAll h _ _ _ _ | .tlbinvCap h _ _ _ _
  | .tlbinvIc h _ _ _ _ | .ctxsv h _ _ _ _ | .ctxld h _ _ _ _ | .semmap h _ _ _ _ _ | .mdrain h _
  | .preempt h _ _ | .cmintMint h _ _ _ _ _ | .cmintRevoke h _ _ _ _ _ | .haltWfi h | .haltStop h => some h
  | .sleepEnd _ | .pfxi _ | .pfxm _ | .releaseComplete _ | .copyCommandBegin | .copyCommandComplete _
  | .draftFetch _ | .draftArrival _ | .matrixCommandBegin | .matrixCommandComplete | .rickAgeExpiry _
  | .rickFiring _ | .preemptStop | .trapTaken _ | .queueStallExpiry | .watchdog | .hostLaunch _
  | .dealChunk _ _ | .dispatch | .claim _ | .continuationWake _ | .jobComplete _ _ | .completionWordWrite _ _
  | .supervisorFree _ | .timerSlotBoundary | .timerOverflowMove _ | .groupGate _ | .groupWakeDone _
  | .billetSpill _ _ | .compaction _ _ | .leaseRenewal _ | .leaseExpiry _ | .read _ _ | .bulkGet _ _
  | .leaseAcquire _ | .leaseRenew _ _ | .leaseRelease _ | .leaseRecall _ | .billetShip _ _ _ | .stepCommit _ _
  | .atomic _ _ _ _ _ _ | .reduction _ _ _ _ | .inPlaceWrite _ _ | .tokenRaise _ _ _ | .collective _ _
  | .poison _ | .reassign _ _ | .reservedTransaction _ _ | .lostCompletionWrite _ _ | .responseTimeout _
  | .dataFlit _ _ | .nakFlit _ _ | .trainingFlit _ _ | .replayTimeout _ | .wavelengthWindow _ _ _
  | .spareLock _ _ _ | .portBringup _ _ _ _ | .laserMeasurement _ _ | .launchRingDoorbell _ _
  | .faultRingTailWrite _ _ | .hostWindowClose | .hostWindowSet _ _ | .hostRegisterWrite _ _ _
  | .hostMemRequest _ _ _ | .hostLoss | .accinjWrite _ | .corectlWrite _ | .evpendClear _ | .drtailWrite _
  | .draftRingConfigWrite _ _ | .csrWrite _ _ | .nodeStateWrite _ _ | .rowRemapWrite _ _ _
  | .mgmtRegisterWrite _ _ | .ashUnfreeze _ | .ue _ _ | .packageFatal | .dccErrorStop _ | .hbmScrub _ _
  | .rowSparing _ _ _ _ _ | .thermalReport _ _ | .thermalTrip _ | .powerCap _ _ | .dvfsChange _ _ | .coldReset
  | .warmReset | .tinder _ _ | .kindling _ | .getVersion | .getCapabilities | .negotiateAlgorithms _ _
  | .getDigests | .getCertificate _ _ | .getMeasurements _ _ _ | .unsupportedRequest | .idleFlit _ _
  | .hostLinkTrained | .hostSnoop _ | .accessComplete _ => none

/-- Has this constructor a word (R160)? The other rows of the table are events. -/
def Instr.isWord : Instr → Bool
  | .pfxi _ | .pfxm _ => true
  | i => i.hdr?.isSome

/-- The encoding rules beyond the operand types (R149, R155, R162 and the instruction's own rule). -/
def Instr.wellFormed (i : Instr) : Bool :=
  match i with
  | .add _ o => immOk o.imm [o.a, o.b]
  | .sub _ o => immOk o.imm [o.a, o.b]
  | .mul _ o => immOk o.imm [o.a, o.b]
  | .mulh _ o => immOk o.imm [o.a, o.b]
  | .div _ o => immOk o.imm [o.a, o.b]
  | .rem _ o => immOk o.imm [o.a, o.b]
  | .and _ o => immOk o.imm [o.a, o.b]
  | .or _ o => immOk o.imm [o.a, o.b]
  | .xor _ o => immOk o.imm [o.a, o.b]
  | .andn _ o => immOk o.imm [o.a, o.b]
  | .shl _ o => immOk o.imm [o.a, o.b]
  | .shr _ o => immOk o.imm [o.a, o.b]
  | .sar _ o => immOk o.imm [o.a, o.b]
  | .rotl _ o => immOk o.imm [o.a, o.b]
  | .min _ o => immOk o.imm [o.a, o.b]
  | .max _ o => immOk o.imm [o.a, o.b]
  | .clz _ o => immOk o.imm [o.a]
  | .ctz _ o => immOk o.imm [o.a]
  | .popc _ o => immOk o.imm [o.a]
  | .sext _ o => immOk o.imm [o.a, o.b]
  | .zext _ o => immOk o.imm [o.a, o.b]
  | .bfx _ o => immOk o.imm [o.a, o.b]
  | .bfi _ o => immOk o.imm [o.a, o.b, o.c]
  | .cmp _ o => immOk o.imm [o.a, o.b]
  | .sel _ o => immOk o.imm [o.a, o.b]
  | .mov _ o => immOk o.imm [o.a]
  | .lea _ _ o => immOk o.imm [o.a, o.b, o.c]
  | .fadd _ o => immOk o.imm [o.a, o.b]
  | .fmul _ o => immOk o.imm [o.a, o.b]
  | .ffma _ o => immOk o.imm [o.a, o.b, o.c]
  | .fmin _ o => immOk o.imm [o.a, o.b]
  | .fmax _ o => immOk o.imm [o.a, o.b]
  | .fcmp _ o => immOk o.imm [o.a, o.b]
  | .fcvt _ o => immOk o.imm [o.a] && (!o.toSz || !o.other.isScalarFloat)
  | .brIndirect _ a => a != .imm
  | .bc _ _ _ a b _ => a != .imm && b != .imm
  | .jtab _ a _ _ off => a != .imm && off.extractLsb' 0 2 == 0
  | .callIndirect _ _ a => a != .imm
  | .ret _ a => a != .imm
  | .loop _ c body => body != 0 && c.noImm
  | .lbrk _ n => n != 0
  | .sleep _ a imm => immOk imm [a]
  | .sleepUntil _ a imm => immOk imm [a]
  | .sleepFor _ a imm => immOk imm [a]
  | .qpush _ _ _ a imm => immOk imm [a]
  | .pfxm f => f.frow.toNat < 1024 && f.fcol.toNat < 1024 && f.nrow.toNat ≤ 1024 && f.ncol.toNat ≤ 1024
  | .ldTile _ o => o.a != .imm
  | .st _ o => o.a != .imm
  | .stTile _ o => o.a != .imm
  | .aadd _ o => o.a != .imm
  | .amin _ o => o.a != .imm
  | .amax _ o => o.a != .imm
  | .aand _ o => o.a != .imm
  | .aor _ o => o.a != .imm
  | .axor _ o => o.a != .imm
  | .aswp _ o => o.a != .imm
  | .afadd _ o => o.a != .imm
  | .redi _ o => o.a != .imm
  | .redf _ o => o.a != .imm
  | .fence _ _ k => k.extractLsb' 0 2 != 0 && k.extractLsb' 2 2 != 0
  | .waita _ a _ _ => a != .imm
  | .waitaArm _ a _ _ => a != .imm
  | .swait _ _ _ a imm => immOk imm [a]
  | .ssig _ _ _ a imm => immOk imm [a]
  | .cld _ o => o.cr != 0
  | .cnarrow _ o => o.cd != 0 && immOk o.imm [o.off, o.len]
  | .cchk _ o => immOk o.imm [o.off, o.len]
  | .cstat _ _ _ _ a imm => immOk imm [a]
  | .vadd _ o => roundOk o.v.ty o.r
  | .vsub _ o => roundOk o.v.ty o.r
  | .vmul _ o => roundOk o.v.ty o.r
  | .vfma _ o => roundOk o.v.ty o.r
  | .vabs _ o => o.v.ty.isInt || !o.sat
  | .vneg _ o => o.v.ty.isInt || !o.sat
  | .vbcast _ o => o.b.notFull
  | .vrsum _ o => (!o.v.ty.isInt || o.rnd == .rne) && (!o.sat || o.v.ty.isInt)
  | .vrmax _ o => (!o.v.ty.isInt || o.rnd == .rne) && !o.sat
  | .vramax _ o => (!o.v.ty.isInt || o.rnd == .rne) && !o.sat
  | .vrmin _ o => (!o.v.ty.isInt || o.rnd == .rne) && !o.sat
  | .vargmax _ o => (!o.v.ty.isInt || o.rnd == .rne) && !o.sat
  | .vscan _ o => (!o.v.ty.isInt || o.rnd == .rne) && (!o.sat || o.v.ty.isInt)
  | .vdefer _ o => (1 ≤ o.cnt.val || o.vb == 0) && (2 ≤ o.cnt.val || o.vc == 0) && (3 ≤ o.cnt.val || o.vd == 0)
  | .vdrain _ o => (1 ≤ o.cnt.val || o.va == 0) && (2 ≤ o.cnt.val || o.vb == 0) && (3 ≤ o.cnt.val || o.vc == 0) &&
    (!o.idx || o.cnt == 3)
  | .mstop _ o => immOk o.imm [o.a]
  | .uaxpby _ o => o.vc == 0 && o.g == 0
  | .uadamw _ o => o.h.val % 2 == 0 && o.g.val % 2 == 0
  | .uema _ o => o.vb == 0 && o.vc == 0 && o.g == 0
  | .usgdm _ _ o => o.vc == 0 && o.g == 0 && o.h.val % 2 == 0
  | .uclipVal _ o => o.vb == 0 && o.vc == 0 && o.g == 0
  | .uclipNrm _ o => o.vb == 0 && o.vc == 0 && o.g == 0
  | .xenq _ _ a _ _ _ imm => immOk imm [a]
  | .xenqTile _ _ a w _ _ imm => immOk imm [a, w]
  | .xdeq _ _ a b c imm => immOk imm [a, b, c]
  | .xstat _ _ _ a imm => immOk imm [a]
  | .xkick _ _ a imm => immOk imm [a]
  | .suspCmb _ _ a imm => immOk imm [a]
  | .twheel _ _ a imm => immOk imm [a]
  | .ctxliveTile _ a b imm => immOk imm [a, b]
  | .ctxliveAcc _ a b imm => immOk imm [a, b]
  | .csrw _ _ a => a != .imm
  | .csrxSwp _ _ _ a => a != .imm
  | .csrxSet _ _ _ a => a != .imm
  | .csrxClr _ _ _ a => a != .imm
  | .tlbinvVa _ _ a b imm => immOk imm [a, b]
  | .tlbinvTnt _ _ a b imm => immOk imm [a, b]
  | .tlbinvAll _ _ a b imm => immOk imm [a, b]
  | .tlbinvCap _ _ a b imm => immOk imm [a, b]
  | .tlbinvIc _ _ a b imm => immOk imm [a, b]
  | .ctxsv _ _ a b imm => immOk imm [a, b]
  | .ctxld _ _ a b imm => immOk imm [a, b]
  | .semmap _ _ _ a b imm => immOk imm [a, b]
  | .mdrain _ o => immOk o.imm [o.a]
  | .preempt _ _ o => immOk o.imm [o.a]
  | .cmintMint _ _ a b c imm => immOk imm [a, b, c]
  | .cmintRevoke _ _ a b c imm => immOk imm [a, b, c]
  | .movi _ _ _ _ | .plog _ _ _ _ _ | .br _ _ | .bq _ _ _ _ _ | .bqNobranch _ _ _ _ | .bpush _ _ _ _
  | .call _ _ _ | .nop _ | .ends _ | .sbwait _ _ | .sleepEnd _ | .rdtime _ _ _ | .rdid _ _ _ | .qpop _ _ _ _
  | .qcnt _ _ _ | .pfxi _ | .ld _ _ | .ldq _ _ | .stq _ _ | .pref _ _ _ _ | .acas _ _ | .rel _ _
  | .relCommit _ _ _ | .rell _ _ _ _ | .releaseComplete _ | .acq _ _ | .acql _ _ _ _ | .lsync _ | .lstat _ _ _
  | .wcancel _ _ | .srd _ _ _ | .cst _ _ | .cinfo _ _ _ _ | .cpy _ _ | .cpyn _ _ | .cpyt _ _ _ | .cgath _ _
  | .cscat _ _ | .cfill _ _ | .cred _ _ | .credc _ _ | .ccoll _ _ | .cbget _ _ | .draft _ _ | .drstep _ _ _
  | .copyCommandBegin | .copyCommandComplete _ | .draftFetch _ | .draftArrival _ | .vmin _ _ | .vmax _ _
  | .vand _ _ | .vor _ _ | .vxor _ _ | .vshl _ _ | .vshr _ _ | .vsar _ _ | .vcmp _ _ | .vsel _ _ | .vmov _ _
  | .viota _ _ | .vcvt _ _ | .vqnt _ _ | .vqntMx _ _ | .vdqnt _ _ | .vdqntMx _ _ | .vexp2 _ _ | .vlog2 _ _
  | .vrcp _ _ | .vrsqrt _ _ | .vsqrt _ _ | .vtanh _ _ | .vsincos _ _ | .vsig _ _ | .vtrn _ _ | .vperm _ _
  | .vshuf _ _ | .vsort _ _ | .vmrg _ _ | .vdrop _ _ | .vrng _ _ | .vshape _ _ _ | .mlog _ _ _ _ _
  | .mcnt _ _ _ _ | .mfirst _ _ _ _ | .vext _ _ _ _ _ _ | .vins _ _ _ _ _ _ | .mma _ _ _ | .mmaz _ _ _
  | .azero _ _ _ | .adrain _ _ _ | .aload _ _ | .aacc _ _ | .mstat _ _ _ _ | .mcksumOpen _ _ _ _
  | .mcksumClose _ _ _ | .matrixCommandBegin | .matrixCommandComplete | .xcmb _ _ | .xdone _ | .rickAgeExpiry _
  | .rickFiring _ | .susp _ _ | .yield _ _ | .exit _ | .spawn _ _ _ _ | .join _ _ _ _ | .ctxliveClr _
  | .trap _ _ | .eret _ | .csrr _ _ _ | .preemptStop | .haltWfi _ | .haltStop _ | .trapTaken _
  | .queueStallExpiry | .watchdog | .hostLaunch _ | .dealChunk _ _ | .dispatch | .claim _ | .continuationWake _
  | .jobComplete _ _ | .completionWordWrite _ _ | .supervisorFree _ | .timerSlotBoundary | .timerOverflowMove _
  | .groupGate _ | .groupWakeDone _ | .billetSpill _ _ | .compaction _ _ | .leaseRenewal _ | .leaseExpiry _
  | .read _ _ | .bulkGet _ _ | .leaseAcquire _ | .leaseRenew _ _ | .leaseRelease _ | .leaseRecall _
  | .billetShip _ _ _ | .stepCommit _ _ | .atomic _ _ _ _ _ _ | .reduction _ _ _ _ | .inPlaceWrite _ _
  | .tokenRaise _ _ _ | .collective _ _ | .poison _ | .reassign _ _ | .reservedTransaction _ _
  | .lostCompletionWrite _ _ | .responseTimeout _ | .dataFlit _ _ | .nakFlit _ _ | .trainingFlit _ _
  | .replayTimeout _ | .wavelengthWindow _ _ _ | .spareLock _ _ _ | .portBringup _ _ _ _
  | .laserMeasurement _ _ | .launchRingDoorbell _ _ | .faultRingTailWrite _ _ | .hostWindowClose
  | .hostWindowSet _ _ | .hostRegisterWrite _ _ _ | .hostMemRequest _ _ _ | .hostLoss | .accinjWrite _
  | .corectlWrite _ | .evpendClear _ | .drtailWrite _ | .draftRingConfigWrite _ _ | .csrWrite _ _
  | .nodeStateWrite _ _ | .rowRemapWrite _ _ _ | .mgmtRegisterWrite _ _ | .ashUnfreeze _ | .ue _ _
  | .packageFatal | .dccErrorStop _ | .hbmScrub _ _ | .rowSparing _ _ _ _ _ | .thermalReport _ _
  | .thermalTrip _ | .powerCap _ _ | .dvfsChange _ _ | .coldReset | .warmReset | .tinder _ _ | .kindling _
  | .getVersion | .getCapabilities | .negotiateAlgorithms _ _ | .getDigests | .getCertificate _ _
  | .getMeasurements _ _ _ | .unsupportedRequest | .idleFlit _ _ | .hostLinkTrained | .hostSnoop _
  | .accessComplete _ => true

end Sys2Proof
end

