-- ==== Sys2Proof/Certificates/Slice0/Obligations.lean ====
section
/-!
DEFINITION. The statements for the provers.
-/

open Sys2Proof Sys2Proof.Machine

/-! ### Encoding -/

/-- Decoding what the encoder writes gives the instruction back, for every well-formed instruction of an encoded group; events
have no word. -/
def Obligations.RoundTrip : Prop :=
  ∀ i : Instr, i.wellFormed = true → wordGroup (encode i) ≠ 0 → decodeWord (encode i) = .ok i

/-- What decodes is well formed, and its word is the only one that decodes so: no bit is dropped (R149 to R162). -/
def Obligations.DecodeExact : Prop :=
  ∀ (w : IWord) i, decodeWord w = .ok i → i.wellFormed = true ∧ encode i = w

/-- Words written out bit by bit from the spec decode to what they stand for: the example after R162, the one of R186, and one
each of other families. The words that R161 leaves unassigned, by group and by minor, decode to nothing; so does the all-zero
word. -/
def Obligations.DecodeExamples : Prop :=
  (decodeWord 0x040B00A4617C800B00000000 = .ok (.add ⟨true, 3, 0, some 2⟩ ⟨false, ⟨true, 3⟩, .t, .n 5, .small 0x39, 0⟩) ∧
  decodeWord 0x0C100002041D4000FFFFFFFA = .ok (.bc ⟨false, 0, 0, none⟩ .lt ⟨true, 2⟩ (.n 2) (.n 7) 0xFFFFFFFA) ∧
  decodeWord 0x0C9000000000000000000000 = .ok (.nop ⟨false, 0, 0, none⟩) ∧
  decodeWord 0x205200982619A20000000040 = .ok (.aadd ⟨false, 2, 0, some 1⟩
    ⟨.small 1, true, false, true, false, false, .pkg, ⟨3, .n 6, 0x40⟩⟩) ∧
  decodeWord 0x40200000A008080004080040 = .ok (.vmul ⟨false, 0, 0, none⟩ ⟨⟨1, .f32, 2⟩, ⟨.rne, false, none⟩, 0x028, 0x008, .col 0x020⟩) ∧
  decodeWord 0x600000002000105110245210 = .ok (.mma ⟨false, 0, 0, none⟩ none ⟨⟨2, 1, 5, 1⟩, .n 8, .n 9, .n 10, .zero⟩) ∧
  decodeWord 0x6810000320404B1908000064 = .ok (.uadamw ⟨false, 0, 0, none⟩ ⟨⟨2, .f32, 0⟩, ⟨.rne, false, none⟩, 200, 64, 300, 400, 4, 6⟩) ∧
  decodeWord 0x700000046184002000000000 = .ok (.xenq ⟨false, 0, 0, none⟩ .t (.n 6) 8 true false 0) ∧
  decodeWord 0x743301046603A80000004100 = .ok (.spawn ⟨false, 3, 1, none⟩ .t true ⟨3, .n 0, 0x4100⟩) ∧
  decodeWord 0xC03000000100000000000104 = .ok (.csrw ⟨false, 0, 0, none⟩ 0x104 (.n 4))) ∧
  ((∀ w : IWord, opInfo (wordGroup w) (wordMinor w) = none → ∀ i, decodeWord w ≠ .ok i) ∧
  (∀ g m, (g = 0x00 ∨ 0x04 ≤ g ∧ g ≤ 0x07 ∨ g = 0x0B ∨ 0x0D ≤ g ∧ g ≤ 0x0F ∨ 0x14 ≤ g ∧ g ≤ 0x17 ∨ g = 0x19 ∨ g = 0x1B ∨
    0x1E ≤ g ∧ g ≤ 0x2F ∨ 0x31 ≤ g ∧ g ≤ 0x3D) → opInfo g m = none) ∧
  ∀ i, decodeWord 0 ≠ .ok i)

/-! ### The step, reset, and what every step keeps -/

/-- A step runs the decoded instruction: a stream whose turn it is, and whose word at its PC passes its checks and decodes to i,
comes to exec of i on the state after the fetch, with the next stream's turn to come; a prefix leaves the turn where it was. The
moves asked for from outside come first: an event comes to exec of it, a stream of a core to the turn of that stream; an event that
the package does not see, after package fatal or while its collier has halted (R439, R448), changes nothing. The order of the turns,
and the agenda before them, are the model's choice (log entry 1). -/
def Obligations.StepRuns : Prop :=
  (∀ s k u i, s.agenda = [] → s.turn = .strm k → FetchesNext { s with turn := s.turn.next } k u i →
    (isPfx i = false → step s = exec i u) ∧
    (isPfx i = true → step s = exec i { u with turn := s.turn, agenda := s.agenda })) ∧
  (∀ s n k rest u i, s.agenda = .strm n k :: rest → FetchesNext (State.focus { s with agenda := rest } n) k u i →
    (isPfx i = false → step s = exec i u) ∧
    (isPfx i = true → step s = exec i { u with turn := s.turn, agenda := s.agenda })) ∧
  (∀ s i rest, s.agenda = .ev i :: rest →
    (s.deafTo i = false → step s = exec i { s with agenda := rest }) ∧
    (s.deafTo i = true → step s = .next { s with agenda := rest }) ∧
    (s.boot ≠ .fatal → s.boot ≠ .dead → s.deafTo i = false)) ∧
  (Turn.next (.strm .l) = .strm .c ∧ Turn.next (.strm .c) = .strm .s ∧ Turn.next (.strm .s) = .hw) ∧
  ∀ w : IWord, wordOfBytes (bytesOfWord w) = w ∧ (bytesOfWord w).length = 12 ∧
    ∀ i, i < 12 → (bytesOfWord w).getD i 0 = w.extractLsb' (8 * i) 8

/-- The machine right after a cold reset: the values that the spec states (R44, R363, R424, R428, R435, R436, R441, R444, R445,
R447). CORECTL's checking mode, KILNSEED, DISPLO, DISPHI, HNDLC, HNDLS and WDOG at 0, no step on core 0, and every other core as
core 0 is, are the model's choice (log entry 34): R363 loads those registers at dispatch and gives them no reset value. -/
def Obligations.ResetState : Prop :=
  let s := State.reset
  s.boot = .reset ∧ s.ftime = 0 ∧ s.memWf ∧ s.core.phase = .idle ∧ s.core.ctx = none ∧ s.others = [] ∧
  (∀ k : Strm, (s.core.strm k).hnd = false ∧ (s.core.strm k).tf = Vector.replicate 16 0 ∧ (s.core.strm k).pend = []) ∧
  s.core.abftTol = 0x37800000 ∧ s.core.abftCnt = 0 ∧ s.core.accinj = 0 ∧ s.core.chk = false ∧ s.core.seed = 0 ∧
  s.core.displo = 0 ∧ s.core.disphi = 0 ∧ s.core.hndlc = 0 ∧ s.core.hndls = 0 ∧ s.core.wdlim = 0 ∧ s.core.evpend = 0 ∧
  s.core.evmask = 0 ∧ s.core.svec = 0 ∧ s.core.tile = [] ∧ s.core.wb = [] ∧ s.core.accs32 = [] ∧ s.core.wbTag = none ∧
  (∀ n, (s.port n).eol = 0xFFFFFFFF ∧ (s.port n).biasmax = 90000 ∧ (s.port n).degth = 640 ∧ (s.port n).hours = 0) ∧
  s.mgmt.respto = 20000000 ∧ s.mgmt.cap = 4400000 ∧ s.mgmt.rowth = 16 ∧
  ∀ k, k < 16 → lookupD s.mslots k [] = List.replicate 32 0

/-- Every step keeps the canonical form of memory: addresses strictly rising, no byte listed that reads as an unlisted one. -/
def Obligations.MemoryCanonical : Prop :=
 ∀ s t, s.memWf → step s = .next t → t.memWf

/-- The model refuses no instruction, whatever the state. -/
def Obligations.NothingRefused : Prop :=
 ∀ i s r, exec i s ≠ .refused r

/-! ### Registers, predicates, stalls -/

/-- p0 reads as true, a write to it and to selector 0x24 is discarded, and an instruction under !p0 never executes: it stalls
while a slot of its mask counts, and else allocates its entries and goes by (R45). -/
def Obligations.PredicateZero : Prop :=
  (∀ x : Stream, x.pred 0 = true) ∧ (∀ (s : State) b, s.putPred 0 b = s) ∧ (∀ (s : State) v, s.putDst .discard v = s) ∧
  ∀ i h s, i.hdr? = some h → h.pred = 0 → h.pneg = true →
    ((∃ t, exec i s = .next (s.raise t)) ∨ (∃ k, exec i s = .next (s.stall k)) ∨
      exec i s = .next (s.markIssued.skip ⟨[], [], .discard, entriesOf i⟩)) ∧
    (s.cur.sbWaits h.wait = true → (∃ t, exec i s = .next (s.raise t)) ∨ ∃ k, exec i s = .next (s.stall k))

/-- What a predicated-false instruction does: it traps by its encoding, stalls, or allocates the entries that it would have
allocated, filled with zero, and goes by (R48). It sets no slot, moves no queue and writes nothing else. A stalled instruction
changes nothing but what its stream is held on (R52). -/
def Obligations.PredicatedFalse : Prop :=
  ((∀ i h s, i.hdr? = some h → s.guard h = false →
    (∃ t, exec i s = .next (s.raise t)) ∨ (∃ k, exec i s = .next (s.stall k)) ∨
      exec i s = .next (s.markIssued.skip ⟨[], [], .discard, entriesOf i⟩)) ∧
  ∀ (s : State) u, registerFrame .t [] s (s.markIssued.skip u) ∧
    (s.markIssued.skip u).core.ldq = s.core.ldq ∧ (s.markIssued.skip u).core.sdq = s.core.sdq ∧ (s.markIssued.skip u).core.accs = s.core.accs ∧
    (u.allocs ≤ 16 → ∀ k, k < 16 → (s.markIssued.skip u).cur.entry k = if k < u.allocs then some 0 else s.cur.entry (k - u.allocs))) ∧
  (∀ (s : State) k, sameOutside s (s.stall k) ∧ ({ (s.stall k).cur with hold := s.cur.hold } = s.cur) ∧
    { (s.stall k).core with l := s.core.l, c := s.core.c, s := s.core.s } = s.core ∧
    ∀ j, j ≠ s.who → (s.stall k).core.strm j = s.core.strm j)

/-- A destination gets the value and nothing else changes (R43, R46, R50, R155): a named scalar holds it, a result entry is the
newest, a queue entry is the youngest of the queue that the stream pushes, 0x24 discards it. Everything else stays: the other named
scalars, older result entries and queue entries, the other data queue, the branch-outcome queues, predicates, the stream's control
state, its place, the other streams, the rest of the core, memory and every package register. -/
def Obligations.DestinationWrites : Prop :=
  ∀ (s : State) (v : Word),
    (∀ k, (s.putDst (.n k) v).cur.n[k] = v ∧ ∀ j, j ≠ k → (s.putDst (.n k) v).cur.n[j] = s.cur.n[j]) ∧
    (s.putDst .t v).cur.entry 0 = some v ∧ (∀ k, k < 15 → (s.putDst .t v).cur.entry (k + 1) = s.cur.entry k) ∧
    (s.who = .l → ∃ e, (s.putDst .q v).core.ldq.ents = s.core.ldq.ents ++ [e] ∧ e.val = some v ∧ e.fresh = true) ∧
    (s.who = .c → ∃ e, (s.putDst .q v).core.sdq.ents = s.core.sdq.ents ++ [e] ∧ e.val = some v ∧ e.fresh = true) ∧
    s.putDst .discard v = s ∧
    ∀ d, registerFrame d [] s (s.putDst d v) ∧ (s.putDst d v).cur.pc = s.cur.pc ∧
      ((∀ k, d ≠ .n k) → (s.putDst d v).core.accs = s.core.accs) ∧ (s.putDst d v).core.nextId = s.core.nextId ∧
      (s.putDst d v).core.issued = s.core.issued ∧
      (d ≠ .q ∨ s.who = .c → (s.putDst d v).core.ldq = s.core.ldq) ∧ (d ≠ .q ∨ s.who = .l → (s.putDst d v).core.sdq = s.core.sdq)

/-! ### Groups SINT and SFLT -/

/-- What the operand type reads and writes (R171): the low w bits, signed with S; saturated with SAT, wrapped, extended. On 64
bits the wrapping operations are those of 64-bit words (R171, R172), whatever S. -/
def Obligations.ReadingAndWriting : Prop :=
  (∀ ty : ITy,
    (∀ x : Word, ty.read x = if ty.sgn then (x.setWidth ty.width).toInt else (x.setWidth ty.width).toNat) ∧
    (∀ r : Int, ty.extend r = if ty.sgn then (BitVec.ofInt ty.width r).signExtend 64 else (BitVec.ofInt ty.width r).setWidth 64) ∧
    (∀ r : Int, ty.lo ≤ r → r ≤ ty.hi → ty.read (ty.write true r) = r ∧ ty.read (ty.write false r) = r) ∧
    (∀ r : Int, r < ty.lo → ty.read (ty.write true r) = ty.lo) ∧
    ∀ r : Int, ty.hi < r → ty.read (ty.write true r) = ty.hi) ∧
  (∀ s : Bool, ∀ a b : Word, let ty : ITy := ⟨s, 3⟩
    ty.write false (ty.read a + ty.read b) = a + b ∧ ty.write false (ty.read a - ty.read b) = a - b ∧
    ty.write false (ty.read a * ty.read b) = a * b ∧
    (b ≠ 0 → ty.write false ((ty.read a).tdiv (ty.read b)) = if s then a.sdiv b else a / b) ∧
    ty.extend (remInt (ty.read a) (ty.read b)) = if s then a.srem b else a % b)

/-- The arithmetic rows of R172, with the corners of R173. The bitwise rows of R172 on w-bit patterns. The counts of R172, and
what they count. -/
def Obligations.IntegerResults : Prop :=
  ((∀ h o, intGives (.add h o) h o.ty o.d o.a o.b o.imm fun a b => o.ty.write o.sat (a + b)) ∧
  (∀ h o, intGives (.sub h o) h o.ty o.d o.a o.b o.imm fun a b => o.ty.write o.sat (a - b)) ∧
  (∀ h o, intGives (.mul h o) h o.ty o.d o.a o.b o.imm fun a b => o.ty.write o.sat (a * b)) ∧
  (∀ h o, intGives (.mulh h o) h o.ty o.d o.a o.b o.imm fun a b => o.ty.extend ((a * b).fdiv (2 ^ o.ty.width : Nat))) ∧
  (∀ h o, intGives (.div h o) h o.ty o.d o.a o.b o.imm fun a b =>
    if b = 0 then o.ty.extend (-1) else o.ty.write o.sat (a.tdiv b)) ∧
  (∀ h o, intGives (.rem h o) h o.ty o.d o.a o.b o.imm fun a b => o.ty.extend (if b = 0 then a else a - b * a.tdiv b)) ∧
  (∀ h o, intGives (.min h o) h o.ty o.d o.a o.b o.imm fun a b => o.ty.extend (if a ≤ b then a else b)) ∧
  (∀ h o, intGives (.max h o) h o.ty o.d o.a o.b o.imm fun a b => o.ty.extend (if a ≤ b then b else a))) ∧
  (patGives .and (fun _ a b => a &&& b) ∧ patGives .or (fun _ a b => a ||| b) ∧ patGives .xor (fun _ a b => a ^^^ b) ∧
  patGives .andn (fun _ a b => a &&& ~~~b) ∧ patGives .shl (fun w a b => a <<< (b.toNat % w)) ∧
  patGives .shr (fun w a b => a >>> (b.toNat % w)) ∧ patGives .sar (fun w a b => a.sshiftRight (b.toNat % w)) ∧
  patGives .rotl (fun w a b => a.rotateLeft (b.toNat % w))) ∧
  (countGives .clz clzNat ∧ countGives .ctz ctzNat ∧ countGives .popc popcNat ∧
  ∀ w x, x < 2 ^ w →
    clzNat w x ≤ w ∧ (∀ j, w - clzNat w x ≤ j → j < w → x.testBit j = false) ∧ (clzNat w x < w → x.testBit (w - 1 - clzNat w x) = true) ∧
    ctzNat w x ≤ w ∧ (∀ j, j < ctzNat w x → x.testBit j = false) ∧ (ctzNat w x < w → x.testBit (ctzNat w x) = true) ∧
    popcNat w x = ((List.range w).filter fun j => x.testBit j).length)

/-- SEXT, ZEXT, BFX and BFI, bit by bit (R174): pos = b[5:0], len = min(b[12:6], 64). CMP, SEL, MOV, MOVI and LEA (R175 to
R178). -/
def Obligations.FieldResults : Prop :=
  (∃ sext zext : Word → Word → Word, ∃ bfx : Bool → Word → Word → Word, ∃ bfi : Word → Word → Word → Word,
    (∀ h o, valueGives (.sext h o) h [o.a, o.b] o.d fun t => sext (t.val o.imm o.a) (t.valAfter o.imm [o.a] o.b)) ∧
    (∀ h o, valueGives (.zext h o) h [o.a, o.b] o.d fun t => zext (t.val o.imm o.a) (t.valAfter o.imm [o.a] o.b)) ∧
    (∀ h o, valueGives (.bfx h o) h [o.a, o.b] o.d fun t => bfx o.sgn (t.val o.imm o.a) (t.valAfter o.imm [o.a] o.b)) ∧
    (∀ h o, valueGives (.bfi h o) h [o.a, o.b, o.c] o.d fun t =>
      bfi (t.val o.imm o.a) (t.valAfter o.imm [o.a] o.b) (t.valAfter o.imm [o.a, o.b] o.c)) ∧
    ∀ a b c : Word,
      let pos := b.toNat % 64
      let len := min (b.toNat / 64 % 128) 64
      ∀ j < 64,
        (sext a b).getLsbD j = a.getLsbD (min j pos) ∧
        (zext a b).getLsbD j = (decide (j ≤ pos) && a.getLsbD j) ∧
        (bfx false a b).getLsbD j = (decide (j < len) && a.getLsbD (pos + j)) ∧
        (bfx true a b).getLsbD j = (decide (0 < len) && a.getLsbD (pos + min j (len - 1))) ∧
        (bfi a b c).getLsbD j = if pos ≤ j ∧ j < pos + len then a.getLsbD (j - pos) else c.getLsbD j) ∧
  ((∀ h o, Gives (.cmp h o) (gateR anyStrm [o.a, o.b]) h (useD [o.a, o.b] o.d) always fun t =>
    let a := o.ty.read (t.val o.imm o.a)
    let b := o.ty.read (t.valAfter o.imm [o.a] o.b)
    let both := (t.val o.imm o.a &&& t.valAfter o.imm [o.a] o.b).setWidth o.ty.width
    let r : Bool := match o.cond with
      | .eq => a = b
      | .ne => a ≠ b
      | .lt => a < b
      | .ge => b ≤ a
      | .le => a ≤ b
      | .gt => b < a
      | .tst => both ≠ 0
      | .ntst => both = 0
    (t.putPred o.p r).putDst o.d (if r then 1 else 0)) ∧
  (∀ h o, Gives (.sel h o) (gateR anyStrm [o.a, o.b]) h { useD [o.a, o.b] o.d with preds := [o.p] } always fun t =>
    t.putDst o.d (o.ty.extend (o.ty.read
      (if xor (t.cur.pred o.p) o.inv then t.val o.imm o.a else t.valAfter o.imm [o.a] o.b)))) ∧
  (∀ h o, valueGives (.mov h o) h [o.a] o.d fun t => o.ty.extend (o.ty.read (t.val o.imm o.a))) ∧
  (∀ h d k v, valueGives (.movi h d k v) h [.n d] (.n d) fun t =>
    (t.cur.n[d] &&& ~~~(0xFFFF#64 <<< (16 * k.val))) ||| (v.setWidth 64 <<< (16 * k.val))) ∧
  ∀ h sh o, valueGives (.lea h sh o) h [o.a, o.b, o.c] o.d fun t =>
    t.val o.imm o.a + t.valAfter o.imm [o.a] o.b * 2#64 ^ sh.val + t.valAfter o.imm [o.a, o.b] o.c)

/-- FADD, FMUL, FFMA, FMIN, FMAX, FCMP, FCVT and PLOG complete wherever they execute, with these values of the low bits of their
types (R179 to R183). The special values of R79: a NaN among the operands gives the canonical NaN, and so do infinities of
opposite signs added and an infinity times a zero; a number added to its opposite gives +0, but -0 in RD; of two zeros of opposite
signs -0 is the minimum and +0 the maximum; a comparison with a NaN is false but for not-equal. -/
def Obligations.FloatResults : Prop :=
  ((∀ h o, valueGives (.fadd h o) h [o.a, o.b] o.d fun t =>
    BitVec.ofNat 64 (fadd o.ty.ety (.rnd o.rnd) false (t.val o.imm o.a).toNat (t.valAfter o.imm [o.a] o.b).toNat)) ∧
  (∀ h o, valueGives (.fmul h o) h [o.a, o.b] o.d fun t =>
    BitVec.ofNat 64 (fmul o.ty.ety (.rnd o.rnd) false (t.val o.imm o.a).toNat (t.valAfter o.imm [o.a] o.b).toNat)) ∧
  (∀ h o, valueGives (.ffma h o) h [o.a, o.b, o.c] o.d fun t =>
    BitVec.ofNat 64 (ffma o.ty.ety (.rnd o.rnd) false (t.val o.imm o.a).toNat (t.valAfter o.imm [o.a] o.b).toNat
      (t.valAfter o.imm [o.a, o.b] o.c).toNat)) ∧
  (∀ h o, valueGives (.fmin h o) h [o.a, o.b] o.d fun t =>
    BitVec.ofNat 64 (fmin o.ty.ety (t.val o.imm o.a).toNat (t.valAfter o.imm [o.a] o.b).toNat)) ∧
  (∀ h o, valueGives (.fmax h o) h [o.a, o.b] o.d fun t =>
    BitVec.ofNat 64 (fmax o.ty.ety (t.val o.imm o.a).toNat (t.valAfter o.imm [o.a] o.b).toNat)) ∧
  (∀ h o, Gives (.fcmp h o) (gateR anyStrm [o.a, o.b]) h (useD [o.a, o.b] o.d) always fun t =>
    let r := fcmp o.cond (fvOf o.ty.ety (t.val o.imm o.a).toNat) (fvOf o.ty.ety (t.valAfter o.imm [o.a] o.b).toNat)
    (t.putPred o.p r).putDst o.d (if r then 1 else 0)) ∧
  (∀ h o, valueGives (.fcvt h o) h [o.a] o.d fun t =>
    let dty := if o.toSz then o.ty.ety else o.other
    let sty := if o.toSz then o.other else o.ty.ety
    let x := convertBits dty sty (.rnd o.rnd) o.sat (t.val o.imm o.a).toNat
    BitVec.ofNat 64 (if dty.isSigned then signFrom x dty.bits else x)) ∧
  ∀ h pd pa pb tbl, Gives (.plog h pd pa pb tbl) (gateN anyStrm) h { useS [] with preds := [pa, pb] } always fun t =>
    t.putPred pd (tbl.getLsbD ((if t.cur.pred pa then 2 else 0) + (if t.cur.pred pb then 1 else 0)))) ∧
  ∀ (ty : SFTy) (r : Rnd) (a b c : Nat),
    let v := fvOf ty.ety
    let nan := canonNan ty.ety
    (v a = .nan ∨ v b = .nan → fadd ty.ety (.rnd r) false a b = nan ∧ fmul ty.ety (.rnd r) false a b = nan ∧
      fmin ty.ety a b = nan ∧ fmax ty.ety a b = nan ∧ ∀ k, fcmp k (v a) (v b) = decide (k = .ne)) ∧
    (v a = .nan ∨ v b = .nan ∨ v c = .nan → ffma ty.ety (.rnd r) false a b c = nan) ∧
    (∀ n, v a = .inf n → v b = .inf (!n) → fadd ty.ety (.rnd r) false a b = nan) ∧
    (∀ n, v a = .inf n → (v b).isZero = true → fmul ty.ety (.rnd r) false a b = nan ∧ fmul ty.ety (.rnd r) false b a = nan) ∧
    (∀ n m e, v a = .fin n m e → v b = .fin (!n) m e →
      fadd ty.ety (.rnd r) false a b = if r = .rd then 2 ^ (ty.ety.bits - 1) else 0) ∧
    ((v a).isZero = true → (v b).isZero = true → (v a).isNeg = true → (v b).isNeg = false →
      fmin ty.ety a b = a % 2 ^ ty.ety.bits ∧ fmin ty.ety b a = a % 2 ^ ty.ety.bits ∧
      fmax ty.ety a b = b % 2 ^ ty.ety.bits ∧ fmax ty.ety b a = b % 2 ^ ty.ety.bits ∧ fcmp .eq (v a) (v b) = true)

/-- An e8m0 pattern is the value 2^(e − 127) with no sign and no significand, 0xFF is NaN, and no pattern is a zero or an
infinity (R69). -/
def Obligations.ScalePatterns : Prop :=
  (∀ e : Nat, e ≤ 0xFE → fvOf .e8m0 e = .fin false 1 ((e : Int) - 127)) ∧ fvOf .e8m0 0xFF = .nan ∧
  ∀ x neg exp, fvOf .e8m0 x ≠ .inf neg ∧ fvOf .e8m0 x ≠ .fin neg 0 exp ∧ fvOf .e8m0 x ≠ .fin true 1 exp

/-- The instructions of groups SINT and SFLT, RDTIME, RDID, LSTAT and SRD change their destination, CMP, FCMP and PLOG also a
predicate, and nothing else but their stream's place and the queue entries that they pop. -/
def Obligations.ScalarFrame : Prop :=
  valueFramed .add (fun o => [o.a, o.b]) (·.d) ∧ valueFramed .sub (fun o => [o.a, o.b]) (·.d) ∧
  valueFramed .mul (fun o => [o.a, o.b]) (·.d) ∧ valueFramed .div (fun o => [o.a, o.b]) (·.d) ∧
  valueFramed .mulh (fun o => [o.a, o.b]) (·.d) ∧ valueFramed .rem (fun o => [o.a, o.b]) (·.d) ∧
  valueFramed .and (fun o => [o.a, o.b]) (·.d) ∧ valueFramed .or (fun o => [o.a, o.b]) (·.d) ∧
  valueFramed .xor (fun o => [o.a, o.b]) (·.d) ∧ valueFramed .andn (fun o => [o.a, o.b]) (·.d) ∧
  valueFramed .shl (fun o => [o.a, o.b]) (·.d) ∧ valueFramed .shr (fun o => [o.a, o.b]) (·.d) ∧
  valueFramed .sar (fun o => [o.a, o.b]) (·.d) ∧ valueFramed .rotl (fun o => [o.a, o.b]) (·.d) ∧
  valueFramed .min (fun o => [o.a, o.b]) (·.d) ∧ valueFramed .max (fun o => [o.a, o.b]) (·.d) ∧
  valueFramed .clz (fun o => [o.a]) (·.d) ∧ valueFramed .ctz (fun o => [o.a]) (·.d) ∧
  valueFramed .popc (fun o => [o.a]) (·.d) ∧ valueFramed .mov (fun o => [o.a]) (·.d) ∧
  valueFramed .sext (fun o => [o.a, o.b]) (·.d) ∧ valueFramed .zext (fun o => [o.a, o.b]) (·.d) ∧
  valueFramed .bfx (fun o => [o.a, o.b]) (·.d) ∧ valueFramed .bfi (fun o => [o.a, o.b, o.c]) (·.d) ∧
  (∀ sh, valueFramed (.lea · sh ·) (fun o => [o.a, o.b, o.c]) (·.d)) ∧ valueFramed .fadd (fun o => [o.a, o.b]) (·.d) ∧
  valueFramed .fmul (fun o => [o.a, o.b]) (·.d) ∧ valueFramed .fmin (fun o => [o.a, o.b]) (·.d) ∧
  valueFramed .fmax (fun o => [o.a, o.b]) (·.d) ∧ valueFramed .ffma (fun o => [o.a, o.b, o.c]) (·.d) ∧
  valueFramed .fcvt (fun o => [o.a]) (·.d) ∧ (∀ x, valueFramed (.rdtime · x ·) (fun _ => []) id) ∧
  (∀ x, valueFramed (.rdid · x ·) (fun _ => []) id) ∧ (∀ x, valueFramed (.lstat · x ·) (fun _ => []) id) ∧
  (∀ x, valueFramed (.srd · x ·) (fun _ => []) id) ∧
  (∀ h d k v, framed (.movi h d k v) (gateR anyStrm [.n d]) h (useD [.n d] (.n d)) []) ∧
  (∀ h o, framed (.sel h o) (gateR anyStrm [o.a, o.b]) h { useD [o.a, o.b] o.d with preds := [o.p] } []) ∧
  (∀ h o, framed (.cmp h o) (gateR anyStrm [o.a, o.b]) h (useD [o.a, o.b] o.d) [o.p]) ∧
  (∀ h o, framed (.fcmp h o) (gateR anyStrm [o.a, o.b]) h (useD [o.a, o.b] o.d) [o.p]) ∧
  (∀ h pd pa pb tbl, framed (.plog h pd pa pb tbl) (gateN anyStrm) h { useS [] with preds := [pa, pb] } [pd])

/-! ### Group CTRL -/

/-- BR, BC, CALL, RET and JTAB transfer where their targets lead; BC whose condition fails and JTAB whose index is LEN or more go
by; CALL writes its return record, of the word after it and its section's header. That JTAB reads its table at issue, and that a
header which cannot be fetched traps at the transfer, are readings of the model (log entries 13, 71); so is that JTAB compares its
index unsigned, takes OFF as unsigned, and at LEN or more goes by without a transfer (log entry 89). -/
def Obligations.Transfers : Prop :=
  (∀ h off s t, Executes (gateN anyStrm) h (useS []) s → LeadsTo s.markIssued (s.cur.pc + off) t →
    exec (.br h off) s = .next t) ∧
  (∀ h a s t, Executes (gateN anyStrm) h (useS [a]) s → LeadsTo s.markIssued ((s.markIssued.val 0 a).setWidth 32) t →
    exec (.brIndirect h a) s = .next (t.popAll [a])) ∧
  (∀ h c ty a b off s t, Executes (gateN anyStrm) h (useS [a, b]) s →
    condHolds c ty (s.markIssued.val 0 a) (s.markIssued.valAfter 0 [a] b) = true → LeadsTo s.markIssued (s.cur.pc + off) t →
    exec (.bc h c ty a b off) s = .next (t.popAll [a, b])) ∧
  (∀ h c ty a b off, Gives (.bc h c ty a b off) (gateN anyStrm) h (useS [a, b])
    (fun t => condHolds c ty (t.val 0 a) (t.valAfter 0 [a] b) = false) id) ∧
  (∀ h link off s t, Executes (gateN anyStrm) h (useD [] link) s → s.cur.next ≠ s.cur.secEnd →
    LeadsTo s.markIssued (s.cur.pc + off) t →
    exec (.call h link off) s = .next (t.putDst link (BitVec.ofNat 64 (s.cur.next.toNat + s.cur.shdr.toNat * 2 ^ 32)))) ∧
  (∀ h link a s t, Executes (gateN anyStrm) h (useD [a] link) s → s.cur.next ≠ s.cur.secEnd →
    LeadsTo s.markIssued ((s.markIssued.val 0 a).setWidth 32) t →
    exec (.callIndirect h link a) s =
      .next ((t.popAll [a]).putDst link (BitVec.ofNat 64 (s.cur.next.toNat + s.cur.shdr.toNat * 2 ^ 32)))) ∧
  (∀ h a s u g i, Executes (gateN anyStrm) h (useS [a]) s →
    let r := s.markIssued.val 0 a
    let hdr : BitVec 32 := r.extractLsb' 32 32
    s.markIssued.header hdr = (u, .ok (some g)) → i < g.len.toNat → r.setWidth 32 = wordAddr hdr i →
    exec (.ret h a) s = .next ((if hdr = u.cur.shdr then u.gotoWord (r.setWidth 32) else u.gotoReturn hdr (r.setWidth 32)).popAll [a])) ∧
  (∀ h a cap len off, Gives (.jtab h a cap len off) (gateN anyStrm) h (useS [a]) (fun t => len.toNat ≤ (t.val 0 a).toNat) id) ∧
  ∀ h a cap len off s u v ps e t, Executes (gateN anyStrm) h (useS [a]) s → (s.markIssued.val 0 a).toNat < len.toNat →
    s.markIssued.access s.tenant s.core.caps[cap] (off.toNat + 4 * (s.markIssued.val 0 a).toNat : Nat) 4 1 [permR] .read =
      (u, .ok ps) → u.soWait ps = false →
    u.loadElem (ps.map (·.part)) (u.ownBytes (ps.map (·.part))) = (v, some e) →
    LeadsTo v (v.cur.pc + BitVec.ofNat 32 e) t → exec (.jtab h a cap len off) s = .next (t.popAll [a])

/-- What a transfer changes (R148, R194): inside the section the PC, and the levels whose bodies do not hold the target are
closed; out of it the stream stands at the header, every level closed. Counters, registers, memory and the other streams stay.
The instructions of CTRL that stay in their section change their destination, their predicate, one branch-outcome queue at most,
and the place and loops of their stream; nothing else but the data queue that they push or pop. -/
def Obligations.ControlFrame : Prop :=
  ((∀ s a, let t := s.gotoWord a
    t.cur.pc = a ∧ t.cur.shdr = s.cur.shdr ∧ t.cur.insec = s.cur.insec ∧ t.cur.secs = s.cur.secs ∧ t.cur.npfx = 0 ∧
    t.cur.lc = s.cur.lc ∧ registerFrame .discard [] s t ∧
    ∃ gone, s.cur.loops = gone ++ t.cur.loops ∧ (∀ v ∈ gone, ¬v.holds a) ∧ ∀ v rest, t.cur.loops = v :: rest → v.holds a) ∧
  ∀ s a, let t := s.gotoHeader a
    t.cur.pc = a ∧ t.cur.shdr = a ∧ t.cur.insec = false ∧ t.cur.npfx = 0 ∧ t.cur.lc = s.cur.lc ∧ t.cur.loops = [] ∧
    registerFrame .discard [] s t) ∧
  ((∀ h, framed (.nop h) (gateN anyStrm) h (useS []) []) ∧ (∀ h all, framed (.sbwait h all) (gateN anyStrm) h (useS []) []) ∧
  (∀ h c body, framed (.loop h (.imm c) body) (gateN anyStrm) h (useS []) []) ∧
  (∀ h q d, framed (.qcnt h q d) (gateN anyStrm) h (useD [] d) []) ∧
  (∀ h tgt p inv s t, Executes (gateN anyStrm) h { useS [] with preds := [p] } s → exec (.bpush h tgt p inv) s = .next t →
    streamFrame .discard [] s t ∧ ∀ j, j ≠ pushBq s.who tgt → t.core.bq[j] = s.core.bq[j]) ∧
  (∀ h q inv p s t, Executes (gateN anyStrm) h (useS []) s → exec (.bqNobranch h q inv p) s = .next t →
    streamFrame .discard [p] s t ∧ ∀ j, j ≠ popBq s.who q → t.core.bq[j] = s.core.bq[j]) ∧
  (∀ h q p a imm s t, Executes (gateR anyStrm [a]) h (useS [a]) s → qPusher q = s.who → exec (.qpush h q p a imm) s = .next t →
    streamFrame .discard [p] s t ∧ ∀ j, q.val < 2 ∨ j ≠ qBranch q → t.core.bq[j] = s.core.bq[j]) ∧
  ∀ h q d p s t, Executes (gateN anyStrm) h (useD [] d) s → qPopper q = s.who → exec (.qpop h q d p) s = .next t →
    streamFrame d [p] s t ∧ ∀ j, q.val < 2 ∨ j ≠ qBranch q → t.core.bq[j] = s.core.bq[j])

/-- LOOP and LBRK (R192, R195), and the step of a level when its last word goes by; where two levels end at the same word, the outer
one steps when the inner one ends (R193). That LBRK out to the section's end goes on at the header there is the model's reading (log
entry 43), and what makes the loop buffer valid too (log entry 86). -/
def Obligations.Loops : Prop :=
  (∀ h cnt body, let srcs := match cnt with
      | .imm _ => []
      | .src a => [a]
    let n (t : State) : BitVec 32 := match cnt with
      | .imm c => c
      | .src a => (t.val 0 a).setWidth 32
    let stop (t : State) : BitVec 32 := t.cur.next + BitVec.ofNat 32 (3 * body.toNat)
    let past (t : State) (e : BitVec 32) : Prop := (e - t.cur.shdr).toNat < (stop t - t.cur.shdr).toNat
    let bad (t : State) : Prop := t.cur.loops.length = 3 ∨ past t t.cur.secEnd ∨ ∃ v ∈ t.cur.loops, past t v.stop
    Traps (.loop h cnt body) (gateN anyStrm) h (useS srcs) bad .illegal ∧
    Goes (.loop h cnt body) (gateN anyStrm) h (useS srcs) (fun t => t.cur.loops.length ≤ 3 ∧ ¬bad t ∧ n t = 0)
      (fun t => State.popAll { t with core := t.core.fallTo t.who (stop t) } srcs) ∧
    Gives (.loop h cnt body) (gateN anyStrm) h (useS srcs) (fun t => t.cur.loops.length ≤ 3 ∧ ¬bad t ∧ n t ≠ 0) fun t =>
      t.mapCur fun x => { x with
        lc := x.lc.set (Fin.ofNat 3 x.loops.length) 0, loops := ⟨n t, t.cur.next, stop t⟩ :: x.loops, lbv := decide (body.toNat ≤ 256)
        lbuf := if x.loops.any LoopLvl.short then x.lbuf else [] }) ∧
  (∀ (h : Hdr) (n : Fin 4), 0 < n.val →
    Traps (.lbrk h n) (gateN anyStrm) h (useS []) (fun t => t.cur.loops.length < n.val) .illegal ∧
    Goes (.lbrk h n) (gateN anyStrm) h (useS []) (fun t => n.val ≤ t.cur.loops.length) fun t =>
      let out := (t.cur.loops.getD (n.val - 1) ⟨0, 0, 0⟩).stop
      let u := t.mapCur fun x => { x with loops := x.loops.drop n.val }
      if out = t.cur.secEnd then u.gotoHeader out else u.gotoWord out) ∧
  (∀ (x : Stream) a, (∀ v rest, x.loops = v :: rest → a ≠ v.stop) → (loopNext x a x.loops).pc = a ∧ (loopNext x a x.loops).loops = x.loops) ∧
  ∀ (x : Stream) v rest, x.loops = v :: rest → rest.length < 3 →
    let k := Fin.ofNat 3 rest.length
    let y := loopNext x v.stop x.loops
    (x.lc[k] + 1 < v.count → y = { x with lc := x.lc.set k (x.lc[k] + 1), pc := v.start }) ∧
    (v.count ≤ x.lc[k] + 1 → (∀ w more, rest = w :: more → v.stop ≠ w.stop) →
      y = { x with lc := x.lc.set k (x.lc[k] + 1), loops := rest, pc := v.stop }) ∧
    ∀ w more, v.count ≤ x.lc[k] + 1 → rest = w :: more → v.stop = w.stop →
      let j := Fin.ofNat 3 more.length
      y.lc[k] = x.lc[k] + 1 ∧ y.lc[j] = x.lc[j] + 1 ∧
      (x.lc[j] + 1 < w.count → y.loops = rest ∧ y.pc = w.start) ∧
      (w.count ≤ x.lc[j] + 1 → (∀ u out, more = u :: out → w.stop ≠ u.stop) → y.loops = more ∧ y.pc = v.stop)

/-- NOP, ENDS, SBWAIT, RDTIME, RDID and the prefixes (R156, R196, R197, R200, R201). What each selector of RDID names (R201), in
a step and on a die control core. -/
def Obligations.Waits : Prop :=
  ((∀ h, Gives (.nop h) (gateN anyStrm) h (useS []) always id) ∧
  (∀ h, Goes (.ends h) (gateN anyStrm) h (useS []) always fun t => t.gotoHeader t.cur.secEnd) ∧
  (∀ h, Gives (.sbwait h false) (gateN anyStrm) h (useS []) always id) ∧
  (∀ h, let done (t : State) : Prop := (∀ k : Fin 8, t.cur.sb[k] = 0) ∧ ∀ e ∈ t.cur.rq, e.2.isSome
    Gives (.sbwait h true) (gateN anyStrm) h (useS []) done id ∧
    Stalls (.sbwait h true) (gateN anyStrm) h (useS []) fun t => ¬done t) ∧
  (∀ h d, valueGives (.rdtime h false d) h [] d State.cyc) ∧ (∀ h d, valueGives (.rdtime h true d) h [] d State.ftime) ∧
  (∀ h sel d, valueGives (.rdid h sel d) h [] d fun t => BitVec.ofNat 64 (t.ident sel.val)) ∧
  (∀ s, s.cur.wide = none → s.cur.pfxLast = false → ∀ w, exec (.pfxi w) s =
    .next (s.mapCur fun x => { x with wide := some w, wideAt := x.npfx, npfx := x.npfx + 1 })) ∧
  (∀ s, s.cur.rows = none → s.cur.pfxLast = false → ∀ f, exec (.pfxm f) s =
    .next (s.mapCur fun x => { x with rows := some f, npfx := x.npfx + 1 })) ∧
  ∀ s, s.cur.pfxLast = true → (∀ w, exec (.pfxi w) s = .next (s.raise (s.encTrap .prefx s.cur.npfx))) ∧
    ∀ f, exec (.pfxm f) s = .next (s.raise (s.encTrap .prefx s.cur.npfx))) ∧
  (∀ s : State, s.ident 0 = s.cid ∧ (s.cid < 0x1000 → s.ident 1 = s.cid / 256 ∧ s.ident 2 = s.cid % 256) ∧
    (0x1000 ≤ s.cid → s.ident 1 = s.cid - 0x1000 ∧ s.ident 2 = 0x100 ∧ s.ident 13 = 1) ∧
    s.ident 3 = (match s.who with | .l => 0 | .c => 1 | .s => 2) ∧ s.ident 6 = s.tenant ∧
    (∀ x, s.core.ctx = some x → s.ident 4 = x.log.toNat ∧ s.ident 5 = x.region.toNat ∧ s.ident 7 = x.va ∧
      s.ident 8 = x.base.ftoken.toNat * 2 ^ 32 + x.base.stepseq.toNat ∧ s.ident 9 = x.depth.val) ∧
    (∀ k : Fin 3, s.ident (10 + k.val) = s.cur.lc[k].toNat) ∧
    (s.cid < 0x1000 → s.ident 13 = if s.tenant = 0 then 1 else 0))

/-- The three sleeps end at once, or put the stream to sleep under the slot that they set; SLEEP_END ends a sleep whose target is
reached, its slot falling, and does nothing before; a promise that is not kept by then raises PROMISE in a SLEEP (R53, R198,
R199). -/
def Obligations.Sleeps : Prop :=
  (∀ (s : State) a n c k, (s.sleepOver ⟨0, a, n, c, k⟩ = true ↔ (s.cyc.setWidth 48 - a.setWidth 48 : BitVec 48).toNat < 2 ^ 47) ∧
    (s.sleepOver ⟨1, a, n, c, k⟩ = true ↔ a ≤ s.cyc) ∧
    (s.sleepOver ⟨2, a, n, c, k⟩ = true ↔ c.toNat + min a.toNat (2 ^ 32 - 1) ≤ s.cyc.toNat)) ∧
  (∀ (i : Instr) (h : Hdr) (a : Src) (imm : BitVec 32) (m : Fin 3),
    (i = .sleep h a imm ∧ m = 0 ∨ i = .sleepUntil h a imm ∧ m = 1 ∨ i = .sleepFor h a imm ∧ m = 2) →
    let z (t : State) : Sleeping := ⟨m, t.val imm a, t.cur.npfx, t.cyc, h.set⟩
    let kept (t : State) : Prop := m = 0 → t.core.tagBusy ((t.val imm a).extractLsb' 48 16) = false
    Goes i (gateR anyStrm [a]) h (useS [a]) (fun t => ¬(t.sleepOver (z t) = true ∧ kept t))
      (fun t => (t.popAll [a]).mapCur fun x => { x.noPfx.sbSet? h.set with asleep := some (z t) }) ∧
    Goes i (gateR anyStrm [a]) h (useS [a]) (fun t => t.sleepOver (z t) = true ∧ kept t)
      (fun t => ((t.popAll [a]).mapCur fun x => { x with asleep := none, npfx := t.cur.npfx }).advance)) ∧
  (∀ s k z, (s.core.strm k).asleep = some z → s.sleepOver z = true →
    (z.mode = 0 → s.core.tagBusy (z.opnd.extractLsb' 48 16) = false) →
    exec (.sleepEnd k) s = .next
      (State.mapCur { s with who := k } fun x => { x.sbClear? z.set with asleep := none, npfx := z.npfx }).advance) ∧
  (∀ s k z, (s.core.strm k).asleep = some z → s.sleepOver z = true → z.mode = 0 →
    s.core.tagBusy (z.opnd.extractLsb' 48 16) = true → ∃ (u : State) (t : Trap),
      exec (.sleepEnd k) s = .next (u.raise t) ∧ t.cause = .promise ∧ u.who = k ∧ (u.core.strm k).asleep = some z) ∧
  ∀ s k, (∀ z, (s.core.strm k).asleep = some z → s.sleepOver z = false) → exec (.sleepEnd k) s = .next s

/-- BQ, BPUSH, QPUSH, QPOP and QCNT on the queues between streams (R50, R51, R187, R188, R202). That BQ without a branch does the
same for either value of its inversion bit is the model's choice (log entry 88). A queue operation that names a queue which its
stream does not push or pop raises ILLEGAL (R202). -/
def Obligations.QueueResults : Prop :=
  ((∀ h q inv pd off s x t, Executes (gateN anyStrm) h (useS []) s → (s.core.bq[popBq s.who q]).head? = some x → x ≠ inv →
    LeadsTo s.markIssued (s.cur.pc + off) t →
    exec (.bq h q inv pd off) s = .next ((t.popBqAt (popBq s.who q)).putPred pd x)) ∧
  (∀ h q inv pd off x, Gives (.bq h q inv pd off) (gateN anyStrm) h (useS [])
    (fun t => (t.core.bq[popBq t.who q]).head? = some x ∧ x = inv) fun t => (t.popBqAt (popBq t.who q)).putPred pd x) ∧
  (∀ h q inv pd x, Gives (.bqNobranch h q inv pd) (gateN anyStrm) h (useS [])
    (fun t => (t.core.bq[popBq t.who q]).head? = some x) fun t => (t.popBqAt (popBq t.who q)).putPred pd x) ∧
  (∀ h q inv pd off, Stalls (.bq h q inv pd off) (gateN anyStrm) h (useS []) fun t => (t.core.bq[popBq t.who q]).head? = none) ∧
  (∀ h q inv pd, Stalls (.bqNobranch h q inv pd) (gateN anyStrm) h (useS []) fun t => (t.core.bq[popBq t.who q]).head? = none) ∧
  (∀ h tgt p inv, let u : Use := { useS [] with preds := [p] }
    Gives (.bpush h tgt p inv) (gateN anyStrm) h u (fun t => (t.core.bq[pushBq t.who tgt]).ents.length < 16)
      (fun t => t.pushBqAt (pushBq t.who tgt) (xor (t.cur.pred p) inv)) ∧
    Stalls (.bpush h tgt p inv) (gateN anyStrm) h u fun t => 16 ≤ (t.core.bq[pushBq t.who tgt]).ents.length) ∧
  (∀ h q p a imm, Gives (.qpush h q p a imm) (gateR anyStrm [a]) h (useS [a])
      (fun t => qPusher q = t.who ∧ t.core.qCount q < qSize q) (fun t => (t.qPush q (t.val imm a)).putPred p true) ∧
    Gives (.qpush h q p a imm) (gateR anyStrm [a]) h (useS [a])
      (fun t => qPusher q = t.who ∧ qSize q ≤ t.core.qCount q) fun t => t.putPred p false) ∧
  (∀ h q d p v u, Gives (.qpop h q d p) (gateN anyStrm) h (useD [] d)
      (fun t => qPopper q = t.who ∧ t.qPop q = some (v, u)) (fun _ => (u.putPred p true).putDst d v) ∧
    Gives (.qpop h q d p) (gateN anyStrm) h (useD [] d)
      (fun t => qPopper q = t.who ∧ t.qPop q = none) fun t => (t.putPred p false).putDst d 0) ∧
  (∀ h q d, Gives (.qcnt h q d) (gateN anyStrm) h (useD [] d) (fun t => qPusher q = t.who ∨ qPopper q = t.who)
    fun t => t.putDst d (BitVec.ofNat 64 (t.core.qCount q))) ∧
  ∀ s : State, (∀ (k : Fin 6) b, (s.pushBqAt k b).core.bq[k].ents = s.core.bq[k].ents ++ [(b, true)] ∧
      (s.popBqAt k).core.bq[k].ents = s.core.bq[k].ents.tail ∧
      ∀ j : Fin 6, j ≠ k → (s.pushBqAt k b).core.bq[j] = s.core.bq[j] ∧ (s.popBqAt k).core.bq[j] = s.core.bq[j])) ∧
  ((∀ h q p a imm s, s.gateTrap (gateR anyStrm [a]) (useS [a]) = none → qPusher q ≠ s.who →
    exec (.qpush h q p a imm) s = .next (s.raise (s.encTrap .illegal s.cur.npfx))) ∧
  (∀ h q d p s, s.gateTrap (gateN anyStrm) (useD [] d) = none → qPopper q ≠ s.who →
    exec (.qpop h q d p) s = .next (s.raise (s.encTrap .illegal s.cur.npfx))) ∧
  ∀ h q d s, s.gateTrap (gateN anyStrm) (useD [] d) = none → qPusher q ≠ s.who → qPopper q ≠ s.who →
    exec (.qcnt h q d) s = .next (s.raise (s.encTrap .illegal s.cur.npfx)))

/-! ### Groups MEM, SYNC and CAP -/

/-- The checks of an access through a capability, in their order (R94): a null register, the range, the permissions, the
alignment; then translation in the tables of the capability's tenant. A failed check is a precise trap of the instruction with its
address (R366): loads, stores, atomics, reductions. -/
def Obligations.AccessChecks : Prop :=
  (∀ (s : State) (c : Option Cap) ea n align perms need,
    (c = none → s.access s.tenant c ea n align perms need = (s, .error (.cause .capfault 0))) ∧
    ∀ u w, s.window c = (u, .ok w) →
      (ea < 0 ∨ (w.len : Int) < ea + n → s.access s.tenant c ea n align perms need = (u, .error (.cause .capfault 0))) ∧
      (0 ≤ ea → ea + n ≤ w.len → ∀ p ∈ perms, w.perm.getLsbD p = false →
        s.access s.tenant c ea n align perms need = (u, .error (.cause .capfault 0))) ∧
      (0 ≤ ea → ea + n ≤ w.len → (∀ p ∈ perms, w.perm.getLsbD p = true) → (w.vbase + ea.toNat) % align ≠ 0 →
        s.access s.tenant c ea n align perms need = (u, .error (.cause .align (w.vbase + ea.toNat)))) ∧
      ∀ v ps d, 0 ≤ ea → ea + n ≤ w.len → (∀ p ∈ perms, w.perm.getLsbD p = true) → (w.vbase + ea.toNat) % align = 0 →
        c = some d → d.dev = false → u.range d.ten.toNat (w.vbase + ea.toNat) n need = (v, .ok ps) →
        s.access s.tenant c ea n align perms need = (v, .ok ps)) ∧
  (∀ h s u c fva,
    (∀ o, Executes (gateM [.l]) h (useD [o.m.oreg.src] o.d) s →
      s.markIssued.memAccess [] o.m (2 ^ o.size.val) 1 [permR] .read = (u, .error (.cause c fva)) →
      exec (.ld h o) s = .next (u.raise (u.precise c fva))) ∧
    (∀ o, Executes (gateM [.s]) h (useS [o.a, o.m.oreg.src]) s →
      s.markIssued.memAccess [o.a] o.m (2 ^ o.size.val) 1 [permW] .write = (u, .error (.cause c fva)) →
      exec (.st h o) s = .next (u.raise (u.precise c fva))) ∧
    (∀ o, Executes (gateM [.l]) h (useD [o.a, o.m.oreg.src] .t) s →
      (let n := if o.w64 then 8 else 4; s.markIssued.memAccess [o.a] o.m n n [permA] .write = (u, .error (.cause c fva))) →
      exec (.aadd h o) s = .next (u.raise (u.precise c fva)) ∧ exec (.aswp h o) s = .next (u.raise (u.precise c fva))) ∧
    ∀ o, Executes (gateM [.s]) h (useS [o.a, o.m.oreg.src]) s →
      (let n := if o.w64 then 8 else 4; s.markIssued.memAccess [o.a] o.m n n [permA] .write = (u, .error (.cause c fva))) →
      exec (.redi h o) s = .next (u.raise (u.precise c fva)))

/-- LD, LD.tile, LDQ and PREF go on their way when their checks pass (R207 to R210); PREF never traps. An access on its way: it
stands last among the outstanding ones, its slot counts one more, an older write to its destination counts no more, and nothing
is in memory yet (R43, R53, R54). -/
def Obligations.LoadsIssue : Prop :=
  ((∀ h o s u ps, Executes (gateM [.l]) h (useD [o.m.oreg.src] o.d) s →
    s.markIssued.memAccess [] o.m (2 ^ o.size.val) 1 [permR] .read = (u, .ok ps) → u.soWait ps = false →
    exec (.ld h o) s = .next ((u.departs h o.d o.p
      (.load (2 ^ o.size.val) o.sx [partsOf ps] ((u.reserveDst o.d).2.ownBytes (partsOf ps)))).finish (useD [o.m.oreg.src] o.d))) ∧
  (∀ h o s u ps byte n, Executes (gateM [.l]) h (useS [o.a, o.m.oreg.src]) s →
    tileWord (s.markIssued.val 0 o.a).toNat = some (byte, n) → s.markIssued.memAccess [o.a] o.m n 8 [permR] .read = (u, .ok ps) →
    u.soWait ps = false → u.core.breach [⟨1, byte, n, true⟩] = false →
    exec (.ldTile h o) s = .next ((u.addAcc h .none false (.loadTile byte (partsOf ps) (u.ownBytes (partsOf ps))) none).finish
      (useS [o.a, o.m.oreg.src]))) ∧
  (∀ h o s u els, Executes (gateM [.l]) h (useS [o.m.oreg.src]) s → s.markIssued.core.ldq.ents.length + (o.n.val + 1) ≤ 32 →
    s.markIssued.elemParts [] o.m (2 ^ o.size.val) 1 [permR] .read 0 (o.n.val + 1) = (u, .ok els) → u.soWait els.flatten = false →
    let v := (u.reserveLdq (o.n.val + 1)).2
    exec (.ldq h o) s = .next ((v.addAcc h (.ldq (u.reserveLdq (o.n.val + 1)).1) false
      (.load (2 ^ o.size.val) o.sx (els.map partsOf) (v.ownBytes (partsOf els.flatten))) none).finish (useS [o.m.oreg.src]))) ∧
  (∀ h o, Stalls (.ldq h o) (gateM [.l]) h (useS [o.m.oreg.src]) fun t => 32 < t.core.ldq.ents.length + (o.n.val + 1)) ∧
  ∀ h pv scope m s, Executes (gateM [.l]) h (useS [m.oreg.src]) s → ∃ u : State,
    exec (.pref h pv scope m) s = .next (u.finish (useS [m.oreg.src])) ∧ (s.host.dirs = [] → u.mem = s.mem) ∧ u.core.accs = s.core.accs ∧
    u.cur.n = s.cur.n ∧ u.cur.pend = s.cur.pend) ∧
  (∀ (s : State) h d p kind,
    let t := s.departs h d p kind
    (∃ a, t.core.accs.getLast? = some a ∧ a.kind = kind ∧ a.strm = s.who ∧ a.slot = h.set ∧ a.pform = p ∧ a.rel = none ∧
      (∀ k, d = .n k → a.dst = .n k ∧ t.core.nFinal s.who k = false ∧
        ∀ b ∈ t.core.accs.dropLast, b.strm = s.who → b.dst.writes k = false) ∧
      (d = .t → a.dst = .entry s.cur.rqN ∧ t.cur.entry 0 = none) ∧ (d = .discard → a.dst = .none)) ∧
    (∀ k, h.set = some k → t.cur.sb[k] = s.cur.sb[k] + 1) ∧ t.cur.n = s.cur.n ∧ t.cur.p = s.cur.p ∧ t.mem = s.mem ∧
    t.core.caps = s.core.caps ∧ t.core.tile = s.core.tile)

/-- A load completes (R46, R50, R54, R205, R207, R371): its register, its result entry or its entries of the data queue take the
elements, extended; poison under .p gives 0 and a false p7, else a pending POISON trap and no value. LD.tile puts the bytes that are
not poisoned into the tile registers, and no others change; a poisoned byte pends POISON (R209). Its access is gone. The value of a
load: the low bytes, extended by SX (R207). That a load is performed when it completes is the model's choice (log entry 38). -/
def Obligations.LoadCompletes : Prop :=
  (∀ (s u : State) (a : Acc) size sx elems own vals, s.core.acc? a.id = some a → a.rel = none →
    a.kind = .load size sx elems own → s.loadElems size sx own elems = (u, vals) →
    let clean : Bool := vals.all (·.isSome)
    let got (i : Nat) : Option Word := if clean = false ∧ a.pform = true then (vals[i]?).map (·.getD 0) else (vals[i]?).join
    ∃ t, exec (.accessComplete a.id) s = .next t ∧ (∀ b ∈ t.core.accs, b.id ≠ a.id) ∧
      (∀ k, a.dst = .n k → (t.core.strm a.strm).n[k] = (got 0).getD (s.core.strm a.strm).n[k]) ∧
      (∀ i, a.dst = .entry i → (t.core.strm a.strm).rq =
        (s.core.strm a.strm).rq.map fun e => if e.1 = i then (i, (got 0).or e.2) else e) ∧
      (∀ ids, a.dst = .ldq ids → ids.Nodup → (∀ j < ids.length, ∀ e ∈ t.core.ldq.ents, e.id = ids.getD j 0 →
          ∃ b ∈ s.core.ldq.ents, b.id = e.id ∧ e.val = b.val.or (got j)) ∧
        t.core.ldq.ents.length = s.core.ldq.ents.length ∧ t.core.ldq.head = s.core.ldq.head) ∧
      (clean = true ∨ a.pform = true → (t.core.strm a.strm).pend = (s.core.strm a.strm).pend ∧
        (a.p7w = true → (s.core.strm a.strm).hnd = a.hnd → (t.core.strm a.strm).pred 7 = clean)) ∧
      (clean = false → a.pform = false → ∃ x ∈ (t.core.strm a.strm).pend, x.cause = .poison ∧ x.info = 0 ∧ x.ipc = a.ipc) ∧
      (∀ j, a.slot = some j → (t.core.strm a.strm).sb[j] = (s.core.strm a.strm).sb[j] - 1)) ∧
  (∀ (s u : State) (a : Acc) byte ps own raw, s.core.acc? a.id = some a → a.rel = none → a.kind = .loadTile byte ps own →
    s.readWith State.readPart ps = (u, raw) → s.core.tile.wf = true →
    let bs := overlayOwn own ps raw
    ∃ t, exec (.accessComplete a.id) s = .next t ∧ (∀ b ∈ t.core.accs, b.id ≠ a.id) ∧
      (∀ i b, bs[i]? = some (b, false) → t.core.tile.get (byte + i) = b) ∧
      (∀ x, (∀ i b, x = byte + i → bs[i]? ≠ some (b, false)) → t.core.tile.get x = s.core.tile.get x) ∧
      ((∃ b, (b, true) ∈ bs) → ∃ x ∈ (t.core.strm a.strm).pend, x.cause = .poison ∧ x.info = 0 ∧ x.ipc = a.ipc)) ∧
  (∀ x : Nat, ∀ sx : Bool,
    extendBytes 1 sx x = (if sx then (BitVec.ofNat 8 x).signExtend 64 else (BitVec.ofNat 8 x).setWidth 64) ∧
    extendBytes 2 sx x = (if sx then (BitVec.ofNat 16 x).signExtend 64 else (BitVec.ofNat 16 x).setWidth 64) ∧
    extendBytes 4 sx x = (if sx then (BitVec.ofNat 32 x).signExtend 64 else (BitVec.ofNat 32 x).setWidth 64) ∧
    extendBytes 8 sx x = BitVec.ofNat 64 x)

/-- ST, ST.tile and STQ perform at issue: the bytes of RC parts are records, the rest is in place (R98, R107, R209), when no other
package holds a lease on a pool page that they write in place; until then they stall (R105), as they do for an atomic or a
reduction of the stream on the same RC bytes that is not performed yet (R128). That a store is performed at issue is the model's
choice (log entry 38). -/
def Obligations.StoresIssue : Prop :=
  (∀ h o s u x v ps bad, Executes (gateM [.s]) h (useS [o.a, o.m.oreg.src]) s →
    s.markIssued.memAccess [o.a] o.m (2 ^ o.size.val) 1 [permW] .write = (u, .ok ps) →
    (u.rcBusy ps = true → exec (.st h o) s = .next (s.stall .other)) ∧ (u.soWait ps = false → u.rcBusy ps = false →
    partsPois ps = false →
    (u.recallPlaced (partsOf ps) = (x, false) → exec (.st h o) s = .next ((x.unissued s).stall .other)) ∧
    (u.recallPlaced (partsOf ps) = (x, true) →
      x.storeBytes 0 128 (2 ^ o.size.val) (partsOf ps) (natLe (2 ^ o.size.val) (u.val 0 o.a).toNat) = .ok (v, bad) →
      exec (.st h o) s = .next ((if bad then v.deferTrap .poison 6 0 else v).finish (useS [o.a, o.m.oreg.src]))))) ∧
  (∀ h o s u x v ps byte n bad, Executes (gateM [.s]) h (useS [o.a, o.m.oreg.src]) s →
    tileWord (s.markIssued.val 0 o.a).toNat = some (byte, n) → s.markIssued.memAccess [o.a] o.m n 8 [permW] .write = (u, .ok ps) →
    u.core.breach [⟨1, byte, n, false⟩] = false → u.soWait ps = false → u.rcBusy ps = false → partsPois ps = false →
    (u.recallPlaced (partsOf ps) = (x, false) → exec (.stTile h o) s = .next ((x.unissued s).stall .other)) ∧
    (u.recallPlaced (partsOf ps) = (x, true) →
      x.storeBytes 1 1024 8 (partsOf ps) (u.core.tile.bytes byte n) = .ok (v, bad) →
      exec (.stTile h o) s = .next ((if bad then v.deferTrap .poison 6 0 else v).finish (useS [o.a, o.m.oreg.src])))) ∧
  (∀ (h : Hdr) (o : QMemOp) s u x v els bad, Executes (gateM [.s]) h (useS [o.m.oreg.src]) s →
    let n := o.n.val + 1
    let size := 2 ^ o.size.val
    (if o.m.oreg = .q then n + 1 else n) ≤ s.markIssued.core.sdq.poppable.length →
    s.markIssued.elemParts (List.replicate n .q) o.m size 1 [permW] .write 0 n = (u, .ok els) → u.soWait els.flatten = false →
    u.rcBusy els.flatten = false → partsPois els.flatten = false →
    (u.recallPlaced (partsOf els.flatten) = (x, false) → exec (.stq h o) s = .next ((x.unissued s).stall .other)) ∧
    (u.recallPlaced (partsOf els.flatten) = (x, true) →
      x.storeBytes 0 128 size (partsOf els.flatten) ((u.core.sdq.poppable.take n).flatMap fun x => natLe size x.toNat) = .ok (v, bad) →
      exec (.stq h o) s = .next (((if bad then v.deferTrap .poison 6 0 else v).popSdq n).finish (useS [o.m.oreg.src])))) ∧
  ∀ (h : Hdr) (o : QMemOp), Stalls (.stq h o) (gateM [.s]) h (useS [o.m.oreg.src]) fun t =>
    t.core.sdq.poppable.length < if o.m.oreg = .q then o.n.val + 2 else o.n.val + 1

/-- Which bytes of memory ST, ST.tile and STQ change: where no host copy of a line is out, those of their parts that are not RC, at
the addresses their checks gave, and the LOG usage fields when a billet is opened (R98, R107, R209). -/
def Obligations.StoreFrame : Prop :=
  (∀ h o, storeFramed (.st h o) h [o.a, o.m.oreg.src] 0 128 (2 ^ o.size.val)
    (fun t => t.memAccess [o.a] o.m (2 ^ o.size.val) 1 [permW] .write) fun _ u => natLe (2 ^ o.size.val) (u.val 0 o.a).toNat) ∧
  (∀ h o, storeFramed (.stTile h o) h [o.a, o.m.oreg.src] 1 1024 8 (tileStoreParts o) fun t u =>
    match tileWord (t.val 0 o.a).toNat with
    | some (byte, n) => u.core.tile.bytes byte n
    | none => []) ∧
  ∀ h (o : QMemOp), storeFramed (.stq h o) h [o.m.oreg.src] 0 128 (2 ^ o.size.val) (queueStoreParts o) fun _ u =>
    (u.core.sdq.poppable.take (o.n.val + 1)).flatMap fun x => natLe (2 ^ o.size.val) x.toNat

/-- The bytes a store of one part in place leaves there, at an address of local HBM. A step's own load sees the bytes its own
store put in the log (R113). -/
def Obligations.StoredBytes : Prop :=
  (∀ (u v : State) (p : Part) bs bad kind run word, p.kind ≠ .rc → spaceOf p.addr = 0 → spaceOf (p.addr + bs.length) = 0 →
    bs.length = p.len → 0 < word → u.memWf → u.host.dirs = [] → u.storeBytes kind run word [p] bs = .ok (v, bad) →
    bad = false ∧ v.mem.bytes p.addr p.len = bs) ∧
  (∀ (u v : State) (p : Part) bs bad x g, p.kind = .rc → bs.length = p.len → p.len ≤ 128 → u.core.ctx = some x →
    u.log? x.log = some g → u.storeBytes 0 128 p.len [p] bs = .ok (v, bad) →
    (∀ i, i < p.len → (v.ownBytes [p]).find? (fun e => e.1 = p.addr + i) = some (p.addr + i, bs.getD i 0)) ∧
    (g.budget = false → v.mem = u.mem))

/-- The atomics and the reductions go to their homes (R211 to R213). -/
def Obligations.AtomicsIssue : Prop :=
  (∀ h o, atomGoes (.aadd h o) h .add [o.a] o.w64 o.sgn o.rl o.aq o.p o.scope o.m fun t => (t.val 0 o.a, 0)) ∧
  (∀ h o, atomGoes (.amin h o) h .min [o.a] o.w64 o.sgn o.rl o.aq o.p o.scope o.m fun t => (t.val 0 o.a, 0)) ∧
  (∀ h o, atomGoes (.amax h o) h .max [o.a] o.w64 o.sgn o.rl o.aq o.p o.scope o.m fun t => (t.val 0 o.a, 0)) ∧
  (∀ h o, atomGoes (.aand h o) h .and [o.a] o.w64 o.sgn o.rl o.aq o.p o.scope o.m fun t => (t.val 0 o.a, 0)) ∧
  (∀ h o, atomGoes (.aor h o) h .or [o.a] o.w64 o.sgn o.rl o.aq o.p o.scope o.m fun t => (t.val 0 o.a, 0)) ∧
  (∀ h o, atomGoes (.axor h o) h .xor [o.a] o.w64 o.sgn o.rl o.aq o.p o.scope o.m fun t => (t.val 0 o.a, 0)) ∧
  (∀ h o, atomGoes (.aswp h o) h .swp [o.a] o.w64 o.sgn o.rl o.aq o.p o.scope o.m fun t => (t.val 0 o.a, 0)) ∧
  (∀ h o, atomGoes (.acas h o) h .cas [.n (pairLo o.k), .n (pairHi o.k)] o.w64 o.sgn o.rl o.aq o.p o.scope o.m
    fun t => (t.cur.n[pairLo o.k], t.cur.n[pairHi o.k])) ∧
  (∀ h o, atomGoes (.afadd h o) h .fadd [o.a] false false o.rl o.aq o.p o.scope o.m fun t => (t.val 0 o.a, 0)) ∧
  (∀ h o, reduceGoes (.redi h o) h o.a (if o.w64 then 8 else 4) o.m fun a page v => .redi o.op a page o.w64 o.sgn v) ∧
  ∀ h o, reduceGoes (.redf h o) h o.a 4 o.m fun a page v => .redf o.op a page v

/-- What an atomic leaves at its home, of the old value and its operands over 32 or 64 bits (R211), and what it gives back; a line
that is poisoned, or that cannot be corrected, gives nothing and keeps its bytes (R440). -/
def Obligations.AtomicResults : Prop :=
  (∀ (w : Nat) (sgn : Bool) (old a b : BitVec w), w = 32 ∨ w = 64 →
    let new (op : AtKind) : Option (BitVec w) := (atomNew op w sgn old.toNat a.toNat b.toNat).map (BitVec.ofNat w)
    let less (x y : BitVec w) : Bool := if sgn then x.slt y else x.ult y
    new .add = some (old + a) ∧ new .min = some (if less a old then a else old) ∧ new .max = some (if less old a then a else old) ∧
    new .and = some (old &&& a) ∧ new .or = some (old ||| a) ∧ new .xor = some (old ^^^ a) ∧ new .swp = some a ∧
    new .cas = (if old = a then some b else none)) ∧
  (∀ sgn old a b, a < 2 ^ 32 → atomNew .fadd 32 sgn old a b = some (fadd .f32 (.rnd .rne) false old a)) ∧
  ∀ (s : State) op a w64 sgn x y, let n := if w64 then 8 else 4
    let t := (s.doAtom op a false w64 sgn x y).1
    spaceOf a = 0 → spaceOf (a + n) = 0 → s.memWf → s.host.dirs = [] →
    ((∃ i, i < n ∧ (s.linePois (a + i) = true ∨ (a + i) / 64 ∈ s.faulty)) →
      (s.doAtom op a false w64 sgn x y).2 = none ∧ t.mem = s.mem ∧ (s.faulty = [] → t = s)) ∧
    ((∀ i, i < n → s.linePois (a + i) = false ∧ (a + i) / 64 ∉ s.faulty) →
      (s.doAtom op a false w64 sgn x y).2 = some (s.mem.nat a n) ∧
      t.mem.nat a n = (atomNew op (8 * n) sgn (s.mem.nat a n) x y).getD (s.mem.nat a n) % 2 ^ (8 * n) ∧
      ∀ b, b < a ∨ a + n ≤ b → t.mem.get b = s.mem.get b)

/-- REL, RELL, ACQ, ACQL, FENCE, LSYNC, LSTAT and RELEASE_COMPLETE (R116 to R120, R214 to R222). A release completes after the
earlier ones of its log, when no other package holds a lease on what it writes; the event does nothing before (R105, R116). What
sealing a release leaves (R116, R117): every billet of the step's log is sealed, the word names the log, its tail and its scope,
and its stamp is higher than the log's earlier ones, if it has any. That a release of no records has a billet of its own, that
FENCE waits at issue, that a release at pool scope ships its own billets only, that stamp 0 is no stamp, and the order of
completion are readings of the model (log entries 9, 14, 69, 79, 84). -/
def Obligations.SyncResults : Prop :=
  ((∀ h o s u v p r, Executes (gateM [.s]) h (useS [o.m.oreg.src]) s →
    s.markIssued.flagPart o.m [permW, permA] .write = (u, .ok p) → p.part.pois = false →
    u.sealFor (o.scope = .pool) (some p.part.addr) false = .ok (v, r) →
    exec (.rel h o) s = .next ((v.addAcc h .none o.p .rel (some r)).finish (useS [o.m.oreg.src]))) ∧
  (∀ h scope p d s v r, let use : Use := ⟨[], [], .discard, match d with | .pair _ => 0 | .t => 2⟩
    Executes (gateN [.s]) h use s → s.markIssued.sealFor (scope = .pool) none false = .ok (v, r) →
    let e := match d with
      | .pair k => v.reservePair k
      | .t => v.reserveTwo
    exec (.rell h scope p d) s = .next ((e.2.addAcc h e.1 p .rel (some r)).finish use)) ∧
  (∀ h o s u p, Executes (gateM [.l]) h (useD [o.m.oreg.src] o.d) s → s.markIssued.flagPart o.m [permR] .read = (u, .ok p) →
    exec (.acq h o) s = .next ((u.departs h o.d o.p (.acqFlag p.part.addr p.part.pois)).finish (useD [o.m.oreg.src] o.d))) ∧
  (∀ h p a b, Gives (.acql h p a b) (gateR [.l] [a, b]) h (useS [a, b]) always fun t =>
    t.addAcc h .none p (.acqWord ⟨t.val 0 a, t.valAfter 0 [a] b⟩) none) ∧
  (∀ h scope (kind : BitVec 4), kind.extractLsb' 0 2 ≠ 0 → kind.extractLsb' 2 2 ≠ 0 →
    let held (t : State) : Prop := ∃ a ∈ t.core.accs, a.strm = t.who ∧ (if a.rd then kind.getLsbD 0 else kind.getLsbD 1) = true
    Gives (.fence h scope kind) (gateM anyStrm) h (useS []) (fun t => ¬held t) id ∧
    Stalls (.fence h scope kind) (gateM anyStrm) h (useS []) held) ∧
  (∀ h, Gives (.lsync h) (gateN [.s]) h (useS []) always fun t =>
    t.addAcc h .none false (.lsync t.logNum (((t.log? t.logNum).map (·.nrec)).getD 0)) none) ∧
  (∀ h sel d, valueGives (.lstat h sel d) h [] d fun t => t.logItem sel.val) ∧
  (∀ s id a r, s.core.acc? id = some a → a.rel = some r →
    (s.core.relBehind r = true → exec (.releaseComplete id) s = .next s) ∧
    (∀ u, s.core.relBehind r = false → s.relRecall r = (u, false) → exec (.releaseComplete id) s = .next u) ∧
    ∀ u, s.core.relBehind r = false → s.relRecall r = (u, true) →
      exec (.releaseComplete id) s = .next (u.completeRelease a r false)) ∧
  ∀ s id, (∀ a, s.core.acc? id = some a → a.rel = none) → exec (.releaseComplete id) s = .next s) ∧
  (∀ (s t : State) pool w x g, s.core.ctx = some x → s.log? x.log = some g → s.sealLog pool = .ok (t, w) →
    g.bills.length < 65536 → (∀ b ∈ g.bills, b.isSealed = true → b.closed = true) →
    (∃ k, t.log? x.log = some k ∧ k.stamp = w.stamp ∧ (∀ b ∈ k.bills, b.isSealed = true) ∧ w.tail.toNat + 1 = k.bills.length ∧
      (∀ b ∈ g.bills, b.isSealed = true → b ∈ k.bills)) ∧
    w.log = g.num ∧ w.poolScope = pool ∧ (g.stamp ≠ 0 → stampHigher w.stamp g.stamp = true))

/-- WAITA, WAITA.arm and WCANCEL (R223, R224): a word that differs lets the stream go by, as a full wait table does (its size is
opaque, log entry 81); one that is equal leaves a watch. That a waiting WAITA takes no slot of the scoreboard is the model's
reading (log entry 44). SWAIT, SSIG and SRD on counts from 0 to 65,535 (R62, R225): a count too low holds SWAIT, a sum too high
stays at 65,535 and traps with SEMOVF after its instruction. -/
def Obligations.WatchResults : Prop :=
  ((∀ h a scope m s u p, Executes (gateM [.l]) h (useS [a, m.oreg.src]) s → s.markIssued.cur.waitW = none →
    s.markIssued.waitPart [a] m = (u, .ok p) →
    (u.homeWord p.addr ≠ u.val 0 a → exec (.waita h a scope m) s = .next (u.finish (useS [a, m.oreg.src]))) ∧
    (u.homeWord p.addr = u.val 0 a → exec (.waita h a scope m) s = .next (if u.waitsFull p.addr then u.finish (useS [a, m.oreg.src])
      else (u.addWatch p.addr (u.val 0 a)).mapCur fun x => { x with waitW := some (p.addr, false) }))) ∧
  (∀ h a scope m, Gives (.waita h a scope m) (gateM [.l]) h (useS [a, m.oreg.src]) (fun t => ∃ w, t.cur.waitW = some (w, true))
    fun t => t.mapCur fun x => { x with waitW := none }) ∧
  (∀ h a scope m, Stalls (.waita h a scope m) (gateM [.l]) h (useS [a, m.oreg.src]) fun t => ∃ w, t.cur.waitW = some (w, false)) ∧
  (∀ h a scope m s u p, Executes (gateM [.l]) h (useS [a, m.oreg.src]) s → s.markIssued.waitPart [a] m = (u, .ok p) →
    let c := u.val 0 a
    let fired : Bool := decide (u.homeWord p.addr ≠ c) || u.waitsFull p.addr
    let v := u.dropArmed.mapCtx fun x => { x with watch := some ⟨p.va, p.addr, c, fired⟩ }
    exec (.waitaArm h a scope m) s = .next ((if fired then v else v.addWatch p.addr c).finish (useS [a, m.oreg.src]))) ∧
  ∀ h d, Gives (.wcancel h d) (gateN [.l]) h (useD [] d) always fun t =>
    t.dropArmed.putDst d (if (t.core.ctx.bind (·.watch)).any fun w => !w.fired then 1 else 0)) ∧
  ((∀ h sem dec a imm,
    Traps (.swait h sem dec a imm) (gateR anyStrm [a]) h (useS [a]) (fun t => 65535 < (t.val imm a).toNat) .illegal ∧
    Stalls (.swait h sem dec a imm) (gateR anyStrm [a]) h (useS [a])
      (fun t => (t.val imm a).toNat ≤ 65535 ∧ t.core.sem sem < (t.val imm a).toNat) ∧
    Gives (.swait h sem dec a imm) (gateR anyStrm [a]) h (useS [a])
      (fun t => (t.val imm a).toNat ≤ 65535 ∧ (t.val imm a).toNat ≤ t.core.sem sem)
      fun t => if dec then { t with core := t.core.setSem sem (t.core.sem sem - (t.val imm a).toNat) } else t) ∧
  (∀ h sem set a imm,
    Traps (.ssig h sem set a imm) (gateR anyStrm [a]) h (useS [a]) (fun t => 65535 < (t.val imm a).toNat) .illegal ∧
    Gives (.ssig h sem set a imm) (gateR anyStrm [a]) h (useS [a])
      (fun t => (t.val imm a).toNat ≤ 65535 ∧ (set = true ∨ t.core.sem sem + (t.val imm a).toNat ≤ 65535))
      (fun t => { t with core := t.core.setSem sem (if set then (t.val imm a).toNat else t.core.sem sem + (t.val imm a).toNat) }) ∧
    Goes (.ssig h sem set a imm) (gateR anyStrm [a]) h (useS [a])
      (fun t => (t.val imm a).toNat ≤ 65535 ∧ set = false ∧ 65535 < t.core.sem sem + (t.val imm a).toNat)
      fun t => State.raiseAfter { t with core := t.core.setSem sem 65535 } [a] .semovf 0) ∧
  (∀ h sem d, valueGives (.srd h sem d) h [] d fun t => BitVec.ofNat 64 (t.core.sem sem)) ∧
  ∀ (c : Core) v n, (c.setSem v n).sem v = n ∧ ∀ w, c.semPhys w ≠ c.semPhys v → (c.setSem v n).sem w = c.sem w)

/-- CLD, CST, CNARROW, CINFO and CCHK (R93, R226, R227, R409). A null image opens nothing, an image of another tenant or of an
object revoked since opens nothing, and what is sealed opens again while it is valid (R226, R409). The bits of an image are
opaque, and CLD reads at issue: the model's choices (log entries 3, 15). -/
def Obligations.CapabilityResults : Prop :=
  ((∀ h o s u ps v n, Executes (gateM [.l]) h (useS [o.m.oreg.src]) s → o.cr ≠ 0 →
    s.markIssued.memAccess [] o.m 16 16 [permR] .read = (u, .ok ps) → u.soWait ps = false →
    u.loadElem (partsOf ps) (u.ownBytes (partsOf ps)) = (v, n) →
    (n = none → exec (.cld h o) s = .next ((v.deferTrap .poison 0 0).finish (useS [o.m.oreg.src]))) ∧
    (n = some 0 → exec (.cld h o) s = .next (State.finish { v with core := v.core.setCap o.cr none } (useS [o.m.oreg.src]))) ∧
    ∀ x w c, n = some x → x ≠ 0 → v.openSeal (BitVec.ofNat 128 x) = (w, c) → exec (.cld h o) s = .next (match c with
      | some c => State.finish { w with core := w.core.setCap o.cr (some c) } (useS [o.m.oreg.src])
      | none => w.raise (w.precise .capfault 0))) ∧
  (∀ h o s u x ps v bad, Executes (gateM [.l]) h (useS [o.m.oreg.src]) s →
    s.markIssued.memAccess [] o.m 16 16 [permW] .write = (u, .ok ps) →
    let image := match u.core.caps[o.cr] with
      | none => ((0 : BitVec 128), u)
      | some c => u.sealCap c
    image.2.soWait ps = false → image.2.rcBusy ps = false → partsPois ps = false → image.2.recallPlaced (partsOf ps) = (x, true) →
    x.storeBytes 0 128 16 (partsOf ps) (natLe 16 image.1.toNat) = .ok (v, bad) →
    exec (.cst h o) s = .next ((if bad then v.deferTrap .poison 6 0 else v).finish (useS [o.m.oreg.src]))) ∧
  (∀ h o s u w, Executes (gateR [.l] [o.off, o.len]) h (useS [o.off, o.len]) s → o.cd ≠ 0 →
    s.markIssued.window s.markIssued.core.caps[o.cs] = (u, .ok w) →
    let off := (s.markIssued.val o.imm o.off).toNat
    let len := (s.markIssued.valAfter o.imm [o.off] o.len).toNat
    (w.perm.getLsbD permN = false ∨ w.len < off + len → exec (.cnarrow h o) s = .next (u.raise (u.precise .capfault 0))) ∧
    (w.perm.getLsbD permN = true → off + len ≤ w.len → 
      let c := u.core.caps[o.cs].map fun (c : Cap) => { c with off := c.off + off, len := len, perm := c.perm &&& o.mask }
      exec (.cnarrow h o) s = .next (State.finish { u with core := u.core.setCap o.cd c } (useS [o.off, o.len])))) ∧
  (∀ h fld d cs s u c w, Executes (gateN [.l]) h (useD [] d) s → s.markIssued.core.caps[cs] = some c →
    s.markIssued.window (some c) = (u, .ok w) → exec (.cinfo h fld d cs) s = .next ((u.putDst d (BitVec.ofNat 64
      (match fld with | 0 => w.vbase | 1 => w.len | 2 => w.perm.toNat | 3 => c.obj.toNat | 4 => c.ten.toNat))).finish (useD [] d))) ∧
  (∀ h o s u w, Executes (gateR [.l] [o.off, o.len]) h (useS [o.off, o.len]) s →
    s.markIssued.window s.markIssued.core.caps[o.cs] = (u, w) →
    exec (.cchk h o) s = .next ((u.putPred o.p (match w with
      | .error _ => false
      | .ok w => decide ((s.markIssued.val o.imm o.off).toNat + (s.markIssued.valAfter o.imm [o.off] o.len).toNat ≤ w.len) &&
          (w.perm &&& o.mask) = o.mask)).finish (useS [o.off, o.len]))) ∧
  ∀ h o s, (o.cr = 0 → s.gateTrap (gateM [.l]) (useS [o.m.oreg.src]) = none →
    exec (.cld h o) s = .next (s.raise (s.encTrap .illegal s.cur.npfx)))) ∧
  (∀ (s : State) (c : Cap), let b := (s.sealCap c).1
    let t := (s.sealCap c).2
    (c.dev = false → c.ten.toNat ≠ t.tenant → t.openSeal b = (t, none)) ∧
    (c.dev = true ∨ c.ten.toNat = t.tenant → ∀ u w, t.window (some c) = (u, .ok w) → t.openSeal b = (u, some c)) ∧
    (c.dev = true ∨ c.ten.toNat = t.tenant → ∀ u e, t.window (some c) = (u, .error e) → t.openSeal b = (u, none)) ∧
    (∀ e, c.dev = false → s.objEntry c.ten.toNat c.obj.toNat = (s, some e) → entV e = false ∨ entGen e ≠ c.gen.toNat →
      s.window (some c) = (s, .error (.cause .capfault 0))))

/-! ### Group COPY -/

/-- The eleven commands of the copy engine at issue. What queueing a command leaves (R228, R239): the command stands last under
a tag that is not 0 and that no command or kept status bears, its result entry holds its promise (DRAFT's stays unfilled), its
slot counts one more, and memory, scalars and stores are as they were. CSTAT and DRSTEP (R238, R240): a tag that no command
bears reads as done without a fault. The promise is the model's (log entry 4). -/
def Obligations.CopyIssue : Prop :=
  ((∀ h o, copyGoes (.cpy h o) [.l, .s] h .cpy o.e [o.d0, o.d1, o.d2]) ∧
  (∀ h o, copyGoes (.cpyn h o) [.l, .s] h .cpyn o.e [o.d0, o.d1, o.d2, o.d3]) ∧
  (∀ h cord o, copyGoes (.cpyt h cord o) [.l, .s] h (.cpyt cord) o.e [o.d0, o.d1, o.d2, o.d3]) ∧
  (∀ h o, copyGoes (.cgath h o) [.l] h .cgath o.e [o.d0, o.d1, o.d2, o.d3]) ∧
  (∀ h o, copyGoes (.cscat h o) [.l, .s] h .cscat o.e [o.d0, o.d1, o.d2, o.d3]) ∧
  (∀ h o, copyGoes (.cfill h o) [.l, .s] h .cfill o.e [o.d0, o.d1, o.d2]) ∧
  (∀ h o, copyGoes (.cred h o) [.l, .s] h .cred o.e [o.d0, o.d1, o.d2]) ∧
  (∀ h o, copyGoes (.credc h o) [.l, .s] h .credc o.e [o.d0, o.d1, o.d2, o.d3]) ∧
  (∀ h o, copyGoes (.ccoll h o) [.l] h .ccoll o.e [o.d0, o.d1, o.d2, o.d3]) ∧
  (∀ h o, copyGoes (.cbget h o) [.l] h .cbget o.e [o.d0, o.d1, o.d2]) ∧
  ∀ h o, copyGoes (.draft h o) [.l] h .draft o.e [o.d0, o.d1, o.d2, o.d3]) ∧
  (∀ (s : State) h iw op e d spans, s.core.copy.length ≤ 16 → s.core.cstat.length ≤ 64 →
    let t := s.queueCopy h iw op e d spans
    (∃ m, t.core.copy = s.core.copy ++ [m] ∧ m.op = op ∧ m.iw = iw ∧ m.e = e ∧ m.d = d ∧ m.strm = s.who ∧ m.begun = false ∧
      m.done = false ∧ m.tag ≠ 0 ∧ (∀ c ∈ s.core.copy, c.tag ≠ m.tag) ∧ (∀ c ∈ s.core.cstat, c.tag ≠ m.tag) ∧
      m.prom.extractLsb' 48 16 = m.tag ∧ t.cur.entry 0 = if op = .draft then none else some m.prom) ∧
    (∀ k, k < 15 → t.cur.entry (k + 1) = s.cur.entry k) ∧ (∀ k, h.set = some k → t.cur.sb[k] = s.cur.sb[k] + 1) ∧
    t.mem = s.mem ∧ t.cur.n = s.cur.n ∧ t.cur.p = s.cur.p ∧ t.core.tile = s.core.tile ∧ t.core.wb = s.core.wb ∧
    t.core.accs32 = s.core.accs32 ∧ t.slices = s.slices) ∧
  ((∀ h sel d p a imm, Gives (.cstat h sel d p a imm) (gateR [.l, .s] [a]) h (useD [a] d) always fun t =>
    let r := t.core.cstatItem ((t.val imm a).extractLsb' 48 16) sel.val
    (t.putPred p r.2).putDst d (BitVec.ofNat 64 r.1)) ∧
  (∀ (c : Core) tag m, c.copy.find? (fun m => m.tag = tag) = some m → (∀ sel, (c.cstatItem tag sel).2 = m.done) ∧
    (c.cstatItem tag 0).1 = (if m.done then 1 else 0) + (if m.fault.isSome then 2 else 0) +
      (match m.fault with | some x => 4 * x.code | none => 0) + m.wbase % 2 ^ 32 * 2 ^ 16 + tag.toNat * 2 ^ 48 ∧
    (∀ i, i < 64 → ((c.cstatItem tag 1).1.testBit i = true ↔ m.wbase + i ∈ m.marks)) ∧
    (c.cstatItem tag 2).1 = m.fva.toNat ∧ (c.cstatItem tag 3).1 = m.wbase + m.marks.length) ∧
  (∀ (c : Core) tag, (∀ m ∈ c.copy, m.tag ≠ tag) → (∀ m ∈ c.cstat, m.tag ≠ tag) → (∀ sel, (c.cstatItem tag sel).2 = true) ∧
    (c.cstatItem tag 0).1 = 1 + tag.toNat * 2 ^ 48 ∧ (c.cstatItem tag 1).1 = 0 ∧ (c.cstatItem tag 2).1 = 0 ∧
    (c.cstatItem tag 3).1 = 0) ∧
  ∀ h d a, Gives (.drstep h d a) (gateR [.l] [a]) h (useD [a] d) always fun t =>
    let r := t.draftStep ((t.val 0 a).setWidth 32)
    r.1.putDst d (BitVec.ofNat 64 r.2))

/-- COPY_COMMAND_BEGIN and COPY_COMMAND_COMPLETE: what waits changes nothing; a command of the plain kinds begins, its view fixed
then: the records appended so far, those of commands under way left out; CBGET sends its bulk get (R231); one whose granules all
succeed is finished, one with a failure stands with its fault, one that waits between granules keeps what it has (R62, R131,
R230). DRAFT_FETCH and DRAFT_ARRIVAL (R126): an entry that no job waits for is left; the next pending one becomes in flight when
it is well formed and its leases are had, and ends with STATUS 3 when it is malformed; the leases of an entry for the package view
are held for DEADLINE + 2 ms at least. A draft entry of 0 pages is malformed: a reading of the model (log entry 46). -/
def Obligations.CopyEvents : Prop :=
  ((∀ s, (∀ m, s.core.nextCopy = some m → s.core.sem m.e.wsem < m.e.wthr.toNat) → exec .copyCommandBegin s = .next s) ∧
  (∀ s m, s.core.nextCopy = some m → m.e.wthr.toNat ≤ s.core.sem m.e.wsem →
    let m' : CCmd := { m with begun := true, seen := s.recsNow, since := s.ftime, hide := s.hiddenNow }
    (m.op ∈ [.cpy, .cfill, .cpyt false, .cgath, .cscat, .cred, .credc] → exec .copyCommandBegin s = .next (s.setCopy m')) ∧
    (m.op = .cbget → exec .copyCommandBegin s = .next ((s.sendBulk m').setCopy m'))) ∧
  (∀ s tag, (∀ m, s.core.copy.find? (fun m => m.tag = tag) = some m → s.copyReady m = false) →
    exec (.copyCommandComplete tag) s = .next s) ∧
  (∀ s tag m t r, s.core.copy.find? (fun m => m.tag = tag) = some m → s.copyReady m = true → m.op ≠ .draft →
    granLoop s ⟨m, none, none⟩ (s.granEnd m - m.wbase) m.wbase = (t, r) →
    (r.stop = none → r.bad = none → exec (.copyCommandComplete tag) s = .next ((t.setCopy r.m).finishCopy r.m)) ∧
    (∀ i c fva, r.stop = none → r.bad = some (i, c, fva) → exec (.copyCommandComplete tag) s = .next (t.copyFault r.m i c fva)) ∧
    ∀ b, r.stop = some b → b ≠ .hole → exec (.copyCommandComplete tag) s = .next (t.setCopy r.m)) ∧
  ∀ (s : State) m unit c fva, m ∈ s.core.copy → (∀ x ∈ s.core.copy, x.tag = m.tag → x = m) → s.cid < 0x1000 →
    let t := s.copyFault m unit c fva
    (∃ x ∈ t.core.copy, x.tag = m.tag ∧ x.done = true ∧ x.fault = some c) ∧
    (∃ x ∈ (t.core.strm m.strm).pend, x.cause = c ∧ x.eng = true ∧ x.tag = m.tag ∧ x.ipc = m.ipc) ∧
    (t.core.strm m.strm).sb = (s.core.strm m.strm).sb ∧ t.core.sems = s.core.sems) ∧
  ((∀ s idx, s.draftJob idx = none → exec (.draftFetch idx) s = .next s ∧ exec (.draftArrival idx) s = .next s) ∧
  (∀ s idx j u bs, s.draftJob idx = some j → s.draftRead j.die idx = (u, some bs) → bytesNat bs 28 4 % 8 = 0 →
    u.draftNext j bs = true →
    (draftBad j bs = true → exec (.draftFetch idx) s = .next (u.draftEnd j 3)) ∧
    (draftBad j bs = false →
      let r := (draftPages bs).foldl (fun (a : State × Bool) p => ((a.1.takeLease p).1, a.2 && (a.1.takeLease p).2)) (u, true)
      exec (.draftFetch idx) s = .next (if r.2 then (r.1.draftStatus j.die idx 1).draftAsked j else r.1.draftEnd j 3))) ∧
  ∀ s idx j u bs, s.draftJob idx = some j → s.draftRead j.die idx = (u, some bs) → bytesNat bs 28 4 % 8 = 1 →
    let r := readLines State.viewLine 64 u (keyOf 1 (bytesNat bs 0 8)) (65536 * bytesNat bs 8 2)
    (r.2.any (·.2) = true → exec (.draftArrival idx) s = .next (r.1.draftEnd j 3)) ∧
    (r.2.any (·.2) = false → bytesNat bs 10 1 = 1 → exec (.draftArrival idx) s =
      .next ((r.1.sliceStore (bytesNat bs 11 1 * 2 ^ 21 + bytesNat bs 12 4) (r.2.map (·.1))).draftEnd j
        (if bytesNat bs 16 8 < u.ftime.toNat then 4 else 2))) ∧
    (r.2.any (·.2) = false → bytesNat bs 10 1 ≠ 1 → ∃ t, exec (.draftArrival idx) s = .next (State.draftEnd t j
      (if bytesNat bs 16 8 < u.ftime.toNat then 4 else 2)) ∧ t.view = r.1.view ∧
      ∀ p ∈ draftPages bs, (BitVec.ofNat 64 (bytesNat bs 16 8 + 2000000)).toNat ≤ (lookupD t.kept p 0).toNat))

/-- CFILL and CPY among the tile registers, to their end: every byte of the range is written, no other, memory stays, and the
command leaves the engine (R231, R234). -/
def Obligations.CopyMoves : Prop :=
  ∀ (s : State) m c l dst len, s.core.copy.find? (fun x => x.tag = m.tag) = some m → m.begun = true → m.done = false →
    m.wbase = 0 → m.marks = [] → m.e.sinc = 0 → epOf m.d[0] = some ⟨1, c, (dst : Nat), l⟩ → lenWord m.d[2] = some len →
    dst + len ≤ 2 ^ 20 → s.core.tile.wf = true →
    (m.op = .cfill → ∃ t, exec (.copyCommandComplete m.tag) s = .next t ∧ t.mem = s.mem ∧ (∀ x ∈ t.core.copy, x.tag ≠ m.tag) ∧
      ∀ a, t.core.tile.get a = if dst ≤ a ∧ a < dst + len then (natLe 8 m.d[1].toNat).getD ((a - dst) % 8) 0 else s.core.tile.get a) ∧
    ∀ k src, m.op = .cpy → epOf m.d[1] = some ⟨1, k, (src : Nat), l⟩ → src + len ≤ 2 ^ 20 → src + len ≤ dst ∨ dst + len ≤ src →
      ∃ t, exec (.copyCommandComplete m.tag) s = .next t ∧ t.mem = s.mem ∧ (∀ x ∈ t.core.copy, x.tag ≠ m.tag) ∧
        ∀ a, t.core.tile.get a = if dst ≤ a ∧ a < dst + len then s.core.tile.get (src + (a - dst)) else s.core.tile.get a

/-! ### Groups VEC, VRED, VSFU, VPERM and UPD -/

/-- The element-wise instructions of group VEC, element by element, with their frame (R247, R249 to R253). -/
def Obligations.VectorElements : Prop :=
  (∀ h o, arithGives (.vadd h o) h o fadd (· + ·)) ∧ (∀ h o, arithGives (.vsub h o) h o fsub (· - ·)) ∧
  (∀ h o, arithGives (.vmul h o) h o fmul (· * ·)) ∧
  (∀ h o, elemGives (.vfma h o) h (o.b.srcs ++ o.r.srcs) o.v sameNum o.vd
    (fun p => fullTile o.va p :: fullTile o.vc p :: bTiles o.b p) fun s p e =>
      let a := s.elem o.va p e
      let b := o.b.val s p e
      let c := s.elem o.vc p e
      if p.ty.isInt then packInt p.ty o.r.sat (intOf p.ty a * intOf p.ty b + intOf p.ty c)
      else ffma p.ty (s.vmode o.r e) o.r.sat a b c) ∧
  (∀ h o, binGives (.vmin h o) h o sameNum fun ty a b =>
    if ty.isInt then (if intOf ty b < intOf ty a then b else a) else fmin ty a b) ∧
  (∀ h o, binGives (.vmax h o) h o sameNum fun ty a b =>
    if ty.isInt then (if intOf ty a < intOf ty b then b else a) else fmax ty a b) ∧
  (∀ h o, binGives (.vand h o) h o bitPair fun _ a b => a &&& b) ∧ (∀ h o, binGives (.vor h o) h o bitPair fun _ a b => a ||| b) ∧
  (∀ h o, binGives (.vxor h o) h o bitPair fun _ a b => a ^^^ b) ∧
  (∀ h o, binGives (.vshl h o) h o sameInt fun ty a b => a <<< (b % ty.bits)) ∧
  (∀ h o, binGives (.vshr h o) h o sameInt fun ty a b => a >>> (b % ty.bits)) ∧
  (∀ h o, binGives (.vsar h o) h o sameInt fun ty a b =>
    wrapInt ty.bits (signedPat ty.bits a / (2 ^ (b % ty.bits) : Nat))) ∧
  (∀ h o, elemGives (.vabs h o) h [] o.v (fun e t => e = t && (t.isArith || t.isSigned)) o.vd (fun p => [fullTile o.va p])
    fun s p e => let a := s.elem o.va p e
      if p.ty.isInt then packInt p.ty o.sat (intOf p.ty a).natAbs
      else if (fvOf p.ty a).isNan then canonNan p.ty else a % 2 ^ (p.ty.bits - 1)) ∧
  (∀ h o, elemGives (.vneg h o) h [] o.v (fun e t => e = t && (t.isArith || t.isSigned)) o.vd (fun p => [fullTile o.va p])
    fun s p e => let a := s.elem o.va p e
      if p.ty.isInt then packInt p.ty o.sat (-intOf p.ty a)
      else if (fvOf p.ty a).isNan then canonNan p.ty else a ^^^ 2 ^ (p.ty.bits - 1)) ∧
  (∀ h o, elemGives (.vsel h o) h o.b.srcs o.v sameAny o.vd (fun p => fullTile o.va p :: bTiles o.b p)
    fun s p e => if (s.mask o.mkr).getLsbD e then s.elem o.va p e else o.b.val s p e) ∧
  (∀ h o, elemGives (.vmov h o) h [] o.v sameAny o.vd (fun p => [fullTile o.va p]) fun s p e => s.elem o.va p e) ∧
  (∀ h o, elemGives (.vbcast h o) h o.b.srcs o.v sameAny o.vd (fun p => bTiles o.b p) fun s p e => o.b.val s p e) ∧
  (∀ h o, elemGives (.viota h o) h [] o.v iotaPair o.vd (fun _ => []) fun _ p e =>
    packFV p.ty (.rnd .rne) false (.fin false (if o.sel = 0 then e else if o.sel = 1 then e / p.cols else e % p.cols) 0)) ∧
  (∀ h o, elemGives (.vcvt h o) h o.r.srcs o.v (fun _ _ => true) o.vd (fun p => [fullTile o.va p]) fun s p e =>
    convertBits o.v.ty p.ty (s.vmode o.r e) o.r.sat (s.elem o.va p e)) ∧
  (∀ h o, elemGives (.vqnt h o) h o.r.srcs o.v (fun e t => e.isArith && (t = .e4m3 || t = .e5m2 || t = .e2m1 || t = .s8)) o.vd
    (fun p => [fullTile o.va p, tileAt o.vx p.rows .f32]) fun s p e => SF.packTo o.v.ty (s.vmode o.r e) o.r.sat
      (quotient (fvOf p.ty (s.elem o.va p e)) (fvOf .f32 ((tileAt o.vx p.rows .f32).get s.core.tile (e / p.cols))))) ∧
  (∀ h o, elemGives (.vdqnt h o) h o.r.srcs o.v dqntPair o.vd (fun p => [fullTile o.va p, tileAt o.vx p.rows .f32]) fun s p e =>
    packFV o.v.ty (s.vmode o.r e) o.r.sat ((fvOf p.ty (s.elem o.va p e)).mul
      (fvOf .f32 ((tileAt o.vx p.rows .f32).get s.core.tile (e / p.cols))))) ∧
  (∀ h o, elemGives (.vdqntMx h o) h o.r.srcs o.v dqntPair o.vd (fun p => [fullTile o.va p, scaleTile o.vx p]) fun s p e =>
    packFV o.v.ty (s.vmode o.r e) o.r.sat ((fvOf p.ty (s.elem o.va p e)).mul
      (fvOf .e8m0 ((scaleTile o.vx p).get s.core.tile (e / p.cols * ((p.cols + 31) / 32) + e % p.cols / 32))))) ∧
  ∀ h o, elemGives (.vrng h o) h [.n o.nc] o.v (fun e t => e = t && (t = .z32 || t = .f32)) o.vd (fun _ => []) fun s p e =>
    let k := kiln s.core.seed s.cur.n[o.nc] e
    if p.ty = .f32 then packFV .f32 (.rnd .rne) false (.fin false (k / 256) (-24)) else k

/-- The reductions of rows and columns, VSCAN, VCMP and VQNT.mx (R248, R252, R254, R255). -/
def Obligations.VectorReductions : Prop :=
  (∀ h o, redGives (.vrsum h o) h o sumPair fun p xs => tree (sumStep o.v.ty o.rnd o.sat) (sumIdent o.v.ty)
    (xs.map fun x => if x.2 then widen o.v.ty p.ty x.1 else sumIdent o.v.ty)) ∧
  (∀ h o, redGives (.vrmax h o) h o maxPair fun p xs => tree (elemMax o.v.ty) (leastOf o.v.ty)
    (xs.map fun x => if x.2 then widen o.v.ty p.ty x.1 else leastOf o.v.ty)) ∧
  (∀ h o, redGives (.vrmin h o) h o maxPair fun p xs => tree (elemMin o.v.ty) (greatestOf o.v.ty)
    (xs.map fun x => if x.2 then widen o.v.ty p.ty x.1 else greatestOf o.v.ty)) ∧
  (∀ h o, redGives (.vramax h o) h o amaxPair fun p xs => tree (elemMax o.v.ty) 0
    (xs.map fun x => if x.2 then magOf o.v.ty (widen o.v.ty p.ty x.1) else 0)) ∧
  (∀ h o, redGives (.vargmax h o) h o argPair fun p xs => argmax p.ty xs) ∧
  (∀ (h : Hdr) (o : VScanOp), vecGives (.vscan h o) (gateV [.c]) h (useS []) o.v.shp
    (fun p => sumPair p.ty o.v.ty && (fullTile o.va p).fits && (tileAt o.vd p.n o.v.ty).fits)
    (fun t p => [(tileAt o.vd p.n o.v.ty, (List.range (p.outer o.col)).flatMap fun i =>
      scanLane o.excl (sumStep o.v.ty o.rnd o.sat) (sumIdent o.v.ty) (((p.lane o.col i).filter fun e =>
        decide (e ∈ t.wset p o.v.mask)).map fun e => (e, widen o.v.ty p.ty (t.elem o.va p e))))]) fun _ _ t => t) ∧
  (∀ (h : Hdr) (o : VCmpOp), vecGives (.vcmp h o) (gateV [.c]) h (useS o.b.srcs) o.v.shp
    (fun p => sameNum p.ty o.v.ty && (fullTile o.va p).fits && (bTiles o.b p).all Tile.fits) (fun _ _ => [])
    fun t p x => x.putMask o.md (setBits (t.mask o.md)
      ((t.wset p o.v.mask).map fun e => (e, elemCmp o.cond p.ty (t.elem o.va p e) (o.b.val t p e))))) ∧
  ∀ (h : Hdr) (o : VUn3), vecGives (.vqntMx h o) (gateV [.c]) h (useS o.r.srcs) o.v.shp
    (fun p => p.ty.isArith && (o.v.ty = .e4m3 || o.v.ty = .e5m2 || o.v.ty = .e2m1) && (fullTile o.va p).fits &&
      (tileAt o.vd p.n o.v.ty).fits && (scaleTile o.vx p).fits && (tileAt o.vd p.n o.v.ty).apart (scaleTile o.vx p))
    (fun t p => let w := t.wset p o.v.mask
      [(scaleTile o.vx p, (List.range (p.rows * blocks p)).map fun b => (b, (t.mxScale o.v.ty o.va p w b + 127).toNat)),
       (tileAt o.vd p.n o.v.ty, w.map fun e => (e, packFV o.v.ty (t.vmode o.r e) o.r.sat
         (FV.scale (-(t.mxScale o.v.ty o.va p w (scaleIdx p e))) (fvOf p.ty (t.elem o.va p e)))))]) fun _ _ t => t

/-- The instructions of group VPERM that move, sort, drop, defer and drain elements (R258 to R263). -/
def Obligations.VectorMoves : Prop :=
  (∀ (h : Hdr) (o : VTrnOp), vecGives (.vtrn h o) (gateN [.c]) h (useS []) o.shp
    (fun p => sameAny p.ty o.ty && (fullTile o.va p).fits && (fullTile o.vd p).fits)
    (fun t p => [(fullTile o.vd p, (List.range p.n).map fun e => (e % p.cols * p.rows + e / p.cols, t.elem o.va p e))])
    fun _ _ t => t) ∧
  (∀ (h : Hdr) (o : VPermOp), vecGives (.vperm h o) (gateV [.c]) h (useS []) o.v.shp
    (fun p => sameAny p.ty o.v.ty && (fullTile o.va p).fits && (fullTile o.vd p).fits && (tileAt o.vb p.n .z16).fits)
    (fun t p => [(fullTile o.vd p, (t.wset p o.v.mask).map fun e =>
      let x := (tileAt o.vb p.n .z16).get t.core.tile e
      (e, if o.gl then (if x < p.n then t.elem o.va p x else 0)
        else if x < p.cols then t.elem o.va p (e / p.cols * p.cols + x) else 0))]) fun _ _ t => t) ∧
  (∀ (h : Hdr) (o : VShufOp), vecGives (.vshuf h o) (gateV [.c]) h (useS []) o.v.shp
    (fun p => sameAny p.ty o.v.ty && (fullTile o.va p).fits && (fullTile o.vd p).fits)
    (fun t p => [(fullTile o.vd p, (t.wset p o.v.mask).map fun e => (e, t.elem o.va p
      (if o.ax then (e / p.cols + o.k.toNat) % p.rows * p.cols + e % p.cols
        else e / p.cols * p.cols + (e % p.cols + o.k.toNat) % p.cols)))]) fun _ _ t => t) ∧
  (∀ (h : Hdr) (o : VSortOp), o.kv = none → vecGives (.vsort h o) (gateV [.c]) h (useS []) o.v.shp
    (fun p => sameAny p.ty o.v.ty && sortType p.ty && (fullTile o.va p).fits && (fullTile o.vd p).fits)
    (fun t p => [(fullTile o.vd p, (List.range p.rows).flatMap fun i =>
      let es := (p.lane false i).filter fun e => decide (e ∈ t.wset p o.v.mask)
      es.zip ((sortKeys p.ty o.desc (es.map fun e => (t.elem o.va p e, 0))).map fun x => keyOut p.ty x.1))]) fun _ _ t => t) ∧
  (∀ (h : Hdr) (o : VSortOp) vb vc, o.kv = some (vb, vc) → vecGives (.vsort h o) (gateV [.c]) h (useS []) o.v.shp
    (fun p => sameAny p.ty o.v.ty && sortType p.ty && (fullTile o.va p).fits && (fullTile o.vd p).fits &&
      ((fullTile vb p).fits && (fullTile vc p).fits && (fullTile o.vd p).apart (fullTile vc p)))
    (fun t p =>
      let out := (List.range p.rows).flatMap fun i =>
        let es := (p.lane false i).filter fun e => decide (e ∈ t.wset p o.v.mask)
        es.zip (sortKeys p.ty o.desc (es.map fun e => (t.elem o.va p e, t.elem vb p e)))
      [(fullTile o.vd p, out.map fun x => (x.1, keyOut p.ty x.2.1)), (fullTile vc p, out.map fun x => (x.1, x.2.2))])
    fun _ _ t => t) ∧
  (∀ (h : Hdr) (o : VMrgOp), vecGives (.vmrg h o) (gateN [.c]) h (useS []) o.shp
    (fun p => sameAny p.ty o.ty && sortType p.ty && (fullTile o.va p).fits && (fullTile o.vb p).fits && (fullTile o.vd p).fits &&
      (fullTile o.vc p).fits && (fullTile o.vd p).apart (fullTile o.vc p))
    (fun t p =>
      let row (i : Nat) : List Nat := (sortKeys p.ty o.desc (((p.lane false i).map fun e => (t.elem o.va p e, 0)) ++
        (p.lane false i).map fun e => (t.elem o.vb p e, 0))).map fun x => keyOut p.ty x.1
      [(fullTile o.vd p, (List.range p.rows).flatMap fun i => (p.lane false i).zip ((row i).take p.cols)),
       (fullTile o.vc p, (List.range p.rows).flatMap fun i => (p.lane false i).zip ((row i).drop p.cols))]) fun _ _ t => t) ∧
  (∀ (h : Hdr) (o : VDropOp), vecGives (.vdrop h o) (gateV [.c]) h (useS [.n o.np, .n o.nc]) o.v.shp
    (fun p => sameAny p.ty o.v.ty && p.ty != .e8m0 && (fullTile o.va p).fits && (fullTile o.vd p).fits)
    (fun t p => [(fullTile o.vd p, (t.wset p o.v.mask).map fun e =>
      (e, if kilnKeep ((t.cur.n[o.np]).toNat % 65536) (kiln t.core.seed t.cur.n[o.nc] e) then t.elem o.va p e else 0))])
    fun t p x => match o.mkr with
      | some k => x.putMask k (setBits (t.mask k) ((t.wset p o.v.mask).map fun e =>
          (e, kilnKeep ((t.cur.n[o.np]).toNat % 65536) (kiln t.core.seed t.cur.n[o.nc] e))))
      | none => x) ∧
  (∀ (h : Hdr) (o : VDeferOp) p,
    let ok (p : Shp) : Bool := sameAny p.ty o.v.ty && defType p.ty && (VDeferOp.tiles o).all fun v => (fullTile v p).fits
    Gives (.vdefer h o) (gateV [.c]) h (useS []) (fun t => t.shape o.v.shp = some p ∧ ok p = true ∧ t.core.chk = false ∧
        t.core.defq.length + (t.wset p o.v.mask).length ≤ 4096)
      (fun t => (t.deferPush ((t.wset p o.v.mask).map (t.defEnt o.path (VDeferOp.tiles o) p))).putPred o.p true) ∧
    Gives (.vdefer h o) (gateV [.c]) h (useS []) (fun t => t.shape o.v.shp = some p ∧ ok p = true ∧ t.core.chk = false ∧ o.p ≠ 0 ∧
        4096 < t.core.defq.length + (t.wset p o.v.mask).length) fun t => t.putPred o.p false) ∧
  ∀ (h : Hdr) (o : VDrainOp), vecGives (.vdrain h o) (gateN [.c]) h (useS []) o.shp
    (fun p => sameAny p.ty o.ty && defType p.ty && ((VDrainOp.tiles o).all fun v => (fullTile v p).fits) &&
      allApart ((VDrainOp.tiles o).map fun v => fullTile v p))
    (fun t p => (VDrainOp.tiles o).zipIdx.map fun (v, k) =>
      (fullTile v p, (takePath o.path.toNat p.n t.core.defq).1.zipIdx.map fun (x, e) => (e, drainVal o x k)))
    fun t p x => let r := takePath o.path.toNat p.n t.core.defq
      State.putMask { x with core := { x.core with defq := r.2 } } o.mkr (BitVec.ofNat 1024 (2 ^ r.1.length - 1))

/-- Sorting keeps the keys with their values and orders them, NaN last, descending when asked (R259). The pairwise tree of R80
over an associative operation is the fold of the list, whatever its length. What writing elements of tiles leaves: the elements
named last, every other byte outside those elements as it was. -/
def Obligations.VectorOrder : Prop :=
  (∀ (ty : EType) (desc : Bool) (l : List (Nat × Nat)), (sortKeys ty desc l).Perm l ∧
    (sortKeys ty desc l).Pairwise (fun a b => keyLt ty desc b a = false) ∧
    (∀ a b, keyLt ty true a b = keyLt ty false b a) ∧
    ∀ a b, isNanBits ty a.1 = true → keyLt ty false a b = false) ∧
  (∀ (op : Nat → Nat → Nat) (d x : Nat) (l : List Nat), (∀ a b c, op (op a b) c = op a (op b c)) →
    tree op d (x :: l) = l.foldl op x ∧ tree op d [] = d ∧ ∀ a b c e, tree op d [a, b, c, e] = op (op a b) (op c e)) ∧
  (∀ (s : State) (d : Tile) (vs : List (Nat × Nat)), s.core.tile.wf = true → vs.Pairwise (fun a b => a.1 ≠ b.1) →
    let t := s.putTiles [(d, vs)]
    t.core.tile.wf = true ∧ (∀ e x, (e, x) ∈ vs → d.get t.core.tile e = x % 2 ^ d.ty.bits) ∧
    (∀ e, (∀ x, (e, x) ∉ vs) → d.get t.core.tile e = d.get s.core.tile e) ∧
    (∀ a, a < d.base → t.core.tile.get a = s.core.tile.get a) ∧
    { t with core := { t.core with tile := s.core.tile } } = s)

/-- VSHAPE, MLOG, MCNT, MFIRST, VEXT and VINS (R264 to R266). -/
def Obligations.MaskAndElement : Prop :=
  (∀ h sh v, Gives (.vshape h sh v) (gateN [.c]) h (useS (ShapeVal.srcs v)) (fun t => (shpOf (t.shapeVal v)).isSome)
      (fun t => { t with core := { t.core with sh := t.core.sh.set sh (t.shapeVal v) } }) ∧
    Traps (.vshape h sh v) (gateN [.c]) h (useS (ShapeVal.srcs v)) (fun t => shpOf (t.shapeVal v) = none) .illegal) ∧
  (∀ h md ma mb tbl, Gives (.mlog h md ma mb tbl) (gateN [.c]) h (useS []) always fun t =>
    t.putMask md (maskLog tbl (t.mask ma) (t.mask mb))) ∧
  (∀ (tbl : BitVec 4) (a b : BitVec 1024), ∀ e < 1024,
    (maskLog tbl a b).getLsbD e = tbl.getLsbD ((if a.getLsbD e then 2 else 0) + (if b.getLsbD e then 1 else 0))) ∧
  (∀ h shp d ma p, Gives (.mcnt h shp d ma) (gateN [.c]) h (useD [] d) (fun t => t.shape shp = some p)
    fun t => t.putDst d (BitVec.ofNat 64 ((List.range p.n).countP fun e => (t.mask ma).getLsbD e))) ∧
  (∀ h shp d ma p, Gives (.mfirst h shp d ma) (gateN [.c]) h (useD [] d) (fun t => t.shape shp = some p)
    fun t => t.putDst d (BitVec.ofNat 64 (((List.range p.n).find? fun e => (t.mask ma).getLsbD e).getD 1024))) ∧
  (∀ h shp ty d va idx p, Gives (.vext h shp ty d va idx) (gateN [.c]) h (useD (VIdx.srcs idx) d)
      (fun t => t.shape shp = some p ∧ p.ty = ty ∧ (fullTile va p).fits = true ∧ t.core.chk = false ∧ t.vidx idx < p.n)
      (fun t => t.putDst d (extendElem ty (t.elem va p (t.vidx idx)))) ∧
    Traps (.vext h shp ty d va idx) (gateN [.c]) h (useD (VIdx.srcs idx) d)
      (fun t => t.shape shp = some p ∧ p.n ≤ t.vidx idx) .illegal) ∧
  ∀ h shp ty vd a idx p, let g : Gate := ⟨[.c], false, false, if a = .imm then 64 else 0, false⟩
    Gives (.vins h shp ty vd a idx) g h (useS (a :: VIdx.srcs idx))
      (fun t => (a = .imm → t.cur.wide.isSome) ∧ t.shape shp = some p ∧ p.ty = ty ∧ (fullTile vd p).fits = true ∧
        t.core.chk = false ∧ t.vidx idx < p.n)
      (fun t => t.putTiles [(fullTile vd p, [(t.vidx idx, (t.insVal a).toNat % 2 ^ ty.bits)])])

/-- The special functions (R81, R256). The updates of stream S (R290). The series behind the special functions and the one
rounding of the root in UADAMW are the model's (log entries 11, 54). -/
def Obligations.UpdateResults : Prop :=
  ((∀ h o, sfuGives (.vexp2 h o) h o sfExp2) ∧ (∀ h o, sfuGives (.vlog2 h o) h o sfLog2) ∧ (∀ h o, sfuGives (.vrcp h o) h o sfRcp) ∧
  (∀ h o, sfuGives (.vrsqrt h o) h o sfRsqrt) ∧ (∀ h o, sfuGives (.vsqrt h o) h o sfSqrt) ∧
  (∀ h o, sfuGives (.vtanh h o) h o sfTanh) ∧ (∀ h o, sfuGives (.vsig h o) h o sfSig) ∧
  ∀ (h : Hdr) (o : VUn3), vecGives (.vsincos h o) (gateV [.c]) h (useS o.r.srcs) o.v.shp
    (fun p => f32Pair p.ty o.v.ty && (fullTile o.va p).fits && (fullTile o.vd p).fits && (fullTile o.vx p).fits &&
      (fullTile o.vd p).apart (fullTile o.vx p))
    (fun t p => let val (f : FV → SF) (e : Nat) : Nat := SF.pack (t.vmode o.r e) o.r.sat (f (fvOf .f32 (t.elem o.va p e)))
      [(fullTile o.vd p, (t.wset p o.v.mask).map fun e => (e, val sfSin e)),
       (fullTile o.vx p, (t.wset p o.v.mask).map fun e => (e, val sfCos e))]) fun _ _ t => t) ∧
  ((∀ h o, updGives (.uaxpby h o) h o [o.h.val] (fun p => [fullTile o.vb p]) [] fun t p e =>
    (t.fin_ o e (((t.hyper o.h.val 0).mul (t.fvElem o.va p p.ty e)).add (t.finRd o e)
      (rn ((t.hyper o.h.val 1).mul (t.fvElem o.vb p p.ty e)))), [])) ∧
  (∀ h o, updGives (.uema h o) h o [o.h.val] (fun p => [tileAt o.vd p.n o.v.ty]) [] fun t p e =>
    let d := t.hyper o.h.val 0
    (t.fin_ o e ((d.mul (t.fvElem o.vd p o.v.ty e)).add (t.finRd o e) (rn ((rn (one.sub d)).mul (t.fvElem o.va p p.ty e)))), [])) ∧
  (∀ h nes o, updGives (.usgdm h nes o) h o [o.h.val, o.h.val + 1]
    (fun p => [tileAt o.vd p.n o.v.ty, tileAt o.vb p.n .f32]) [o.vb] fun t p e =>
      let w := t.fvElem o.vd p o.v.ty e
      let lr := t.hyper o.h.val 0
      let wd := t.hyper o.h.val 1
      let mu := t.hyper (o.h.val + 1) 0
      let g2 := rn ((t.fvElem o.va p p.ty e).add false (rn (wd.mul w)))
      let m2 := (mu.mul (t.fvElem o.vb p .f32 e)).add false g2
      let dir := if nes then rn (g2.add false (rn (mu.mul (rn m2)))) else rn m2
      (t.fin_ o e (w.add (t.finRd o e) (rn (lr.mul dir)).neg), [packFV .f32 (.rnd .rne) false m2])) ∧
  (∀ h o, updGives (.uadamw h o) h o [o.h.val, o.h.val + 1, o.g.val, o.g.val + 1]
    (fun p => [tileAt o.vd p.n o.v.ty, tileAt o.vb p.n .f32, tileAt o.vc p.n .f32]) [o.vb, o.vc] fun t p e =>
      let g := t.fvElem o.va p p.ty e
      let w := t.fvElem o.vd p o.v.ty e
      let lr := t.hyper o.h.val 0
      let wd := t.hyper o.h.val 1
      let b1 := t.hyper (o.h.val + 1) 0
      let b2 := t.hyper (o.h.val + 1) 1
      let m2 := (b1.mul (t.fvElem o.vb p .f32 e)).add false (rn ((rn (one.sub b1)).mul g))
      let v2 := (b2.mul (t.fvElem o.vc p .f32 e)).add false (rn ((rn (one.sub b2)).mul (rn (g.mul g))))
      let den := rnSF (rootPlus (rn ((rn v2).mul (t.hyper (o.g.val + 1) 0))) (t.hyper o.g.val 0))
      let u := rnSF (quotient (rn ((rn m2).mul (t.hyper o.g.val 1))) den)
      (t.fin_ o e (w.add (t.finRd o e) (rn (lr.mul (rn (u.add false (rn (wd.mul w)))))).neg),
        [packFV .f32 (.rnd .rne) false m2, packFV .f32 (.rnd .rne) false v2])) ∧
  (∀ h o, updGives (.uclipVal h o) h o [o.h.val] (fun _ => []) [] fun t p e =>
    (t.fin_ o e (FV.max (t.hyper o.h.val 0) (FV.min (t.hyper o.h.val 1) (t.fvElem o.va p p.ty e))), [])) ∧
  ∀ h o, updGives (.uclipNrm h o) h o [o.h.val] (fun _ => []) [] fun t p e =>
    let c := t.hyper o.h.val 0
    let n := t.hyper o.h.val 1
    (t.fin_ o e ((t.fvElem o.va p p.ty e).mul
      (if c.isNan || n.isNan then .nan else if c.lt n then rnSF (quotient c n) else one)), []))

/-! ### Groups MTX and EXP -/

/-- The matrix commands at issue, what queueing one leaves, MSTAT with the fields of its status word, and MSTOP. Where a product
stops is a free value, and that an abandoned command counts in CMPL is a reading of the model (log entries 17, 42). -/
def Obligations.MatrixIssue : Prop :=
  (∀ h ck o, mtxGoes (.mma h ck o) h (.mma false ck) o.e [o.d0, o.d1, o.d2, o.d3]) ∧
  (∀ h ck o, mtxGoes (.mmaz h ck o) h (.mma true ck) o.e [o.d0, o.d1, o.d2, o.d3]) ∧
  (∀ h e d0, mtxGoes (.azero h e d0) h .azero e [d0]) ∧
  (∀ h ck o, mtxGoes (.adrain h ck o) h (.adrain ck) o.e [o.d0, o.d1, o.d2]) ∧
  (∀ h o, mtxGoes (.aload h o) h .aload o.e [o.d0, o.d1, o.d2]) ∧ (∀ h o, mtxGoes (.aacc h o) h .aacc o.e [o.d0, o.d1, o.d2]) ∧
  (∀ h slot e d0, mtxGoes (.mcksumOpen h slot e d0) h (.ckOpen slot) e [d0]) ∧
  (∀ h slot e, mtxGoes (.mcksumClose h slot e) h (.ckClose slot) e []) ∧
  (∀ (s : State) h iw op e d, let t := s.queueMtx h iw op e d
    (∃ m, t.core.mtx.q = s.core.mtx.q ++ [m] ∧ m.op = op ∧ m.d = d ∧ m.e = e ∧ m.slot = h.set ∧ m.ipc = s.cur.pc ∧ m.begun = false ∧
      m.fault = none) ∧ (∀ k, h.set = some k → t.cur.sb[k] = s.cur.sb[k] + 1) ∧ t.mem = s.mem ∧ t.cur.n = s.cur.n ∧
    t.cur.p = s.cur.p ∧ t.core.accs32 = s.core.accs32 ∧ t.core.tile = s.core.tile ∧ t.core.wb = s.core.wb ∧ t.core.sems = s.core.sems) ∧
  (∀ h sel d p, Gives (.mstat h sel d p) { gateN [.c] with mtx := true } h (useD [] d) always fun t =>
    let v := match sel with
      | 0 => t.core.mtx.status t.kpNow
      | 1 => t.core.abftCnt.toNat
      | 2 => t.core.mtx.slots.foldl (fun x e => x + 2 ^ e.1.val) 0
    (State.putPred { t with free := t.free + 1 } p (t.core.mtx.q.all fun x => x.fault.isSome)).putDst d (BitVec.ofNat 64 v)) ∧
  (∀ (m : MtxSt) kp, kp < 2 ^ 16 → m.q.length < 16 → let w := m.status kp
    w % 2 = (if m.q.all fun x => x.fault.isSome then 1 else 0) ∧ w / 2 % 2 = (if m.q.any fun x => x.fault.isSome then 1 else 0) ∧
    w / 2 ^ 8 % 16 = m.q.length ∧ w / 2 ^ 12 % 2 = (if m.running.isSome then 1 else 0) ∧ w / 2 ^ 16 % 2 ^ 16 = kp ∧
    w / 2 ^ 32 = m.cmpl.toNat) ∧
  ∀ h o, let g : Gate := { gateR [.c] [o.a] with mtx := true }
    let at_ (t : State) : Nat := (t.val o.imm o.a).toNat
    let ok (t : State) : Prop := at_ t % 64 = 0 ∧ at_ t < 2 ^ 20 ∧ t.core.breach [⟨1, at_ t, 64, true⟩] = false
    Traps (.mstop h o) g h (useD [o.a] o.d) (fun t => at_ t % 64 ≠ 0 ∨ 2 ^ 20 ≤ at_ t) .illegal ∧
    Gives (.mstop h o) g h (useD [o.a] o.d) (fun t => ok t ∧ t.core.mtx.running = none) (fun t =>
      (t.setCore t.core.discardMtx.1).putDst o.d (stopWord false t.core.discardMtx.2 0)) ∧
    (∀ m p, Gives (.mstop h o) g h (useD [o.a] o.d)
      (fun t => ok t ∧ t.core.mtx.running = some m ∧ m.product = some p) fun t =>
        let u := t.stopMma m p
        let r := ((u.1.core.putWords (at_ t) (m.srec p u.2)).popMtx m).discardMtx
        (u.1.setCore r.1).putDst o.d (stopWord true r.2 u.2)) ∧
    (∀ m, Gives (.mstop h o) g h (useD [o.a] o.d) (fun t => ok t ∧ t.core.mtx.running = some m ∧ m.product = none ∧
      ((t.endMtx m).core.mtx.q.any fun x => x.fault.isSome) = false) fun t => let u := t.endMtx m
        (u.setCore u.core.discardMtx.1).putDst o.d (stopWord false u.core.discardMtx.2 0)) ∧
    ∀ (t : State) m p, m.kp ≤ p.kg → m.kp ≤ (t.stopMma m p).2 ∧ (t.stopMma m p).2 ≤ p.kg

/-- MATRIX_COMMAND_BEGIN, MATRIX_COMMAND_COMPLETE and MATRIX_FAULT (R62, R272, R276, R279, R285). A product whose first K step
finds a cord header that is not good, or not of a format that A pairs with, is ILLEGAL when it begins (R85, R271). -/
def Obligations.MatrixEvents : Prop :=
  (∀ s, s.mtxReady = false → exec .matrixCommandBegin s = .next s) ∧
  (∀ s m rest, s.core.mtx.q = m :: rest → s.mtxReady = true →
    (s.core.mtx.ckOk m.op m.d = false → exec .matrixCommandBegin s = .next (s.mtxFault m .illegal 0)) ∧
    (s.core.mtx.ckOk m.op m.d = true →
      (∀ o, m.product = some o → s.core.startKp m o = none → exec .matrixCommandBegin s = .next (s.mtxFault m .illegal 0)) ∧
      (∀ o, m.product = some o → s.core.startKp m o = some 0 → s.core.blockOk o 0 = false →
        exec .matrixCommandBegin s = .next (s.mtxFault m .illegal 0)) ∧
      (∀ o k, m.product = some o → s.core.startKp m o = some k → k ≠ 0 ∨ s.core.blockOk o 0 = true → exec .matrixCommandBegin s =
        .next { s with core := { s.core with mtx := { s.core.mtx with q := { m with begun := true, kp := k } :: rest } } }) ∧
      (m.product = none → exec .matrixCommandBegin s =
        .next { s with core := { s.core with mtx := { s.core.mtx with q := { m with begun := true, kp := 0 } :: rest } } }))) ∧
  (∀ s, s.core.mtx.running = none → exec .matrixCommandComplete s = .next s) ∧
  (∀ s m, s.core.mtx.running = some m → m.product = none →
    (∀ c, s.core.performMtx m.op m.d = .ok c → exec .matrixCommandComplete s = .next ((s.setCore c).finishMtx m)) ∧
    ∀ e, s.core.performMtx m.op m.d = .error e → exec .matrixCommandComplete s = .next (s.mtxFault m e 0)) ∧
  (∀ s m o g z ck, s.core.mtx.running = some m → m.op = .mma z ck → m.product = some o → s.core.badGroup o m.kp = some g →
    exec .matrixCommandComplete s = .next ((s.setCore (s.core.runGroups o z ck m.kp g)).mtxFault m .illegal g)) ∧
  ∀ (s : State) m c kp rest, s.core.mtx.q = m :: rest → s.cid < 0x1000 → let t := s.mtxFault m c kp
    (∃ x, t.core.mtx.q = x :: rest ∧ x.fault = some c ∧ x.kp = kp ∧ x.op = m.op ∧ x.d = m.d) ∧
    (∃ x ∈ (t.core.strm .c).pend, x.cause = c ∧ x.eng = true ∧ x.mtx = true ∧ x.ipc = m.ipc) ∧
    t.core.accs32 = s.core.accs32 ∧ t.core.tile = s.core.tile ∧ t.mem = s.mem ∧ (t.core.strm .c).sb = (s.core.strm .c).sb

/-- What matrix commands compute. A product performed to its end adds its K-groups to each entry in order, from the entry or, for
MMAZ, from zero, and changes no other entry, no tile and no byte of memory; an armed ACCINJ then inverts the bit that it names of
the entry that it names, and is disarmed (R327); AZERO, ALOAD, AACC and ADRAIN the same way (R87 to R89, R273, R280 to R283). The
checks on sums of lines and their correction (R91, R92): nothing off leaves all as it is, one column and one row off correct the
entry where they cross and count it, anything else is ABFT. What the checksums of absolute values sum is a reading of the model
(log entry 47). -/
def Obligations.MatrixProduct : Prop :=
  ((∀ s m o z ck, s.core.mtx.running = some m → m.op = .mma z ck → m.product = some o → s.core.badGroup o m.kp = none →
    m.e.sinc = 0 → s.core.accs32.wf = true → m.kp ≤ o.kg →
    let armed : Bool := s.core.accinj.getLsbD 24
    let flip (e x : Nat) : Nat := if armed = true ∧ e = (s.core.accinj.extractLsb' 0 19).toNat then
      x ^^^ 2 ^ (s.core.accinj.extractLsb' 19 5).toNat else x
    ∃ t, exec .matrixCommandComplete s = .next t ∧ t.core.tile = s.core.tile ∧ t.core.wb = s.core.wb ∧ t.mem = s.mem ∧
      t.core.mtx.q = s.core.mtx.q.tail ∧ t.core.mtx.cmpl = s.core.mtx.cmpl + 1 ∧
      (∀ i n, i < o.r.m → n < o.r.n → m.kp < o.kg → t.core.accGet (o.r.entry i n) = flip (o.r.entry i n)
        (((List.range (o.kg - m.kp)).map (m.kp + ·)).foldl (s.core.accStep o i n)
          (if z = true ∧ m.kp = 0 then 0 else s.core.accGet (o.r.entry i n)) % 2 ^ 32)) ∧
      (∀ e, (∀ i n, i < o.r.m → n < o.r.n → e ≠ o.r.entry i n) → t.core.accGet e = flip e (s.core.accGet e)) ∧
      t.core.accinj = if armed then s.core.accinj &&& 0xFFFFFF else s.core.accinj) ∧
  (∀ (c : Core) d r, regionOf d[0] false = some r → c.accs32.wf = true →
    (∃ b, c.performMtx .azero d = .ok b ∧ b.tile = c.tile ∧ (∀ i n, i < r.m → n < r.n → b.accGet (r.entry i n) = 0) ∧
      ∀ e, (∀ i n, i < r.m → n < r.n → e ≠ r.entry i n) → b.accGet e = c.accGet e) ∧
    ∀ x sc, scaleOf d[2] = some sc →
      (xWordOf d[1] r false = some x → ∀ add, ∃ b, c.performMtx (if add then .aacc else .aload) d = .ok b ∧ b.tile = c.tile ∧
        (∀ i n, i < r.m → n < r.n → b.accGet (r.entry i n) =
          loadEntry r x sc add (c.accGet (r.entry i n)) ((x.row i).get c.tile n) % 2 ^ 32) ∧
        ∀ e, (∀ i n, i < r.m → n < r.n → e ≠ r.entry i n) → b.accGet e = c.accGet e) ∧
      (xWordOf d[1] r true = some x → c.tile.wf = true → ∃ b, c.performMtx (.adrain none) d = .ok b ∧
        (∀ i n, i < r.m → n < r.n → (x.row i).get b.tile n = drainElem r x sc (c.accGet (r.entry i n)) % 2 ^ x.ty.bits) ∧
        (∀ i n, i < r.m → n < r.n → b.accGet (r.entry i n) = if x.clr then 0 else c.accGet (r.entry i n)) ∧
        ∀ e, (∀ i n, i < r.m → n < r.n → e ≠ r.entry i n) → b.accGet e = c.accGet e)) ∧
  (∀ (c : Core) o i n a g, o.r.int = true → c.accStep o i n a g = ((a + c.contribInt o i n g) % 2 ^ 32).toNat) ∧
  ∀ (c : Core) o i n a g, o.r.int = false → c.accStep o i n a g =
    packFV .f32 (.rnd .rne) false ((fvOf .f32 a).add false (c.contrib o i n g))) ∧
  (∀ (c : Core) (r : Region) (k : CkSlot), let act := c.lineSums r fun x => x
    let cols := badLines r.int c.abftTol.toNat act.1 k.csCol k.abCol
    let rows := badLines r.int c.abftTol.toNat act.2 k.csRow k.abRow
    (cols = [] → rows = [] → c.abftCheck r k = some c) ∧
    (∀ n i, cols = [n] → rows = [i] → c.accs32.wf = true → ∃ b, c.abftCheck r k = some b ∧ b.tile = c.tile ∧
      b.abftCnt = (if c.abftCnt = BitVec.allOnes 32 then c.abftCnt else c.abftCnt + 1) ∧
      (r.int = true → b.accGet (r.entry i n) = ((c.accGet (r.entry i n) + (((k.csCol.getD n 0).toNat : Int) - act.1.getD n 0)) % 2 ^ 32).toNat) ∧
      ∀ e, e ≠ r.entry i n → b.accGet e = c.accGet e) ∧
    ((¬(cols = [] ∧ rows = []) ∧ ¬∃ n i, cols = [n] ∧ rows = [i]) → c.abftCheck r k = none) ∧
    (∀ (d : Vector Word 4) x sc j, regionOf d[0] false = some r → xWordOf d[1] r true = some x → scaleOf d[2] = some sc →
      c.mtx.slot? j = some k → c.abftCheck r k = none → c.performMtx (.adrain (some j)) d = .error .abft))

/-- XENQ, XENQ.tile, XDEQ, XSTAT, XKICK, XDONE and XCMB at issue (R298 to R304); a poisoned word of a batch stays out of the tile
registers and raises POISON (R437). -/
def Obligations.ExpertIssue : Prop :=
  (∀ h d a k rl p imm s, let use := useD (a :: (recScalars k).map Src.n) d
    (s.gateTrap (gateR [.c, .s] [a]) use = none → k.val % 4 ≠ 0 ∨ rl = true ∧ s.who = .c →
      exec (.xenq h d a k rl p imm) s = .next (s.raise (s.encTrap .illegal s.cur.npfx))) ∧
    (Executes (gateR [.c, .s] [a]) h use s → k.val % 4 = 0 → (rl = true → s.who ≠ .c) →
      let t := s.markIssued
      (2048 ≤ (t.val imm a).toNat → exec (.xenq h d a k rl p imm) s = .next (t.raise (t.precise .illegal 0))) ∧
      ((t.val imm a).toNat < 2048 → Sends (.xenq h d a k rl p imm) s t use h d rl .pkg p
        (.xenq (t.val imm a).toNat [(recScalars k).flatMap fun j => natLe 8 t.cur.n[j].toNat] t.attachWord)))) ∧
  (∀ h d a w rl p imm s, let use := useD [a, w] d
    Executes (gateR [.c, .s] [a, w]) h use s → (rl = true → s.who ≠ .c) →
    let t := s.markIssued
    (xenqWord (t.valAfter imm [a] w).toNat = none → exec (.xenqTile h d a w rl p imm) s = .next (t.raise (t.precise .illegal 0))) ∧
    ∀ byte c, xenqWord (t.valAfter imm [a] w).toNat = some (byte, c) → t.core.breach [⟨1, byte, 32 * c, false⟩] = false →
      (t.val imm a).toNat < 2048 → Sends (.xenqTile h d a w rl p imm) s t use h d rl .pkg p
        (.xenq (t.val imm a).toNat ((List.range c).map fun i => t.core.tile.bytes (byte + 32 * i) 32) t.attachWord)) ∧
  (∀ h d a b c imm, let byte (t : State) : Nat := (t.val imm a).toNat
    let most (t : State) : Nat := (t.valAfter imm [a, b] c).toNat
    let recs (t : State) : List (List Byte × List Nat) := (t.batch.drop (t.valAfter imm [a] b).toNat).take (most t)
    let bytes (t : State) : List PByte := (recs t).flatMap recBytes
    let moved (t : State) : State :=
      State.putDst { t with core := { t.core with tile := storeClean t.core.tile (byte t) (bytes t) } } d
        (BitVec.ofNat 64 (recs t).length)
    let ok (t : State) : Prop := byte t % 32 = 0 ∧ 1 ≤ most t ∧ most t ≤ 128 ∧ byte t + 32 * most t ≤ 2 ^ 20
    Traps (.xdeq h d a b c imm) (gateR [.l] [a, b, c]) h (useD [a, b, c] d) (fun t => ¬ok t) .illegal ∧
    Gives (.xdeq h d a b c imm) (gateR [.l] [a, b, c]) h (useD [a, b, c] d)
      (fun t => ok t ∧ t.core.breach [⟨1, byte t, 32 * (recs t).length, true⟩] = false) fun t =>
        if (bytes t).any (·.2) then (moved t).deferTrap .poison 0 0 else moved t) ∧
  (∀ h sel d a imm, let use := useD [a] d
    let far (t : State) : Prop := 2048 ≤ (t.val imm a).toNat
    Traps (.xstat h sel d a imm) (gateR [.l] [a]) h use far .illegal ∧
    Gives (.xstat h sel d a imm) (gateR [.l] [a]) h use (fun t => ¬far t) (fun t => t.departs h d false (.xstat (t.val imm a).toNat sel)) ∧
    Traps (.xkick h d a imm) (gateR [.l] [a]) h use far .illegal ∧
    Gives (.xkick h d a imm) (gateR [.l] [a]) h use (fun t => ¬far t) fun t => t.departs h d false (.xkick (t.val imm a).toNat)) ∧
  (∀ h f, Gives (.xdone h) (gateN [.s]) h (useS []) (fun t => t.core.ctx.bind (·.firing) = some f) fun t => t.retireStep f) ∧
  (∀ h, Traps (.xdone h) (gateN [.s]) h (useS [])
    (fun t => t.core.ctx.bind (·.firing) = none ∧ ∀ x, t.core.ctx = some x → x.base.raised = false) .illegal) ∧
  (∀ h o s u q ps, let use := useD [o.m.oreg.src] o.d
    Executes (gateM [.s]) h use s → s.markIssued.memAccess [] o.m 16 16 [permW, permA] .write = (u, .ok (q :: ps)) →
    (q.part.kind ≠ .rc → exec (.xcmb h o) s = .next (u.raise (u.precise .perm q.part.va))) ∧
    (q.part.kind = .rc → spaceOf q.part.addr ≠ 0 → exec (.xcmb h o) s = .next (u.raise (u.precise .atomscope q.part.va))) ∧
    (q.part.kind = .rc → spaceOf q.part.addr = 0 →
      Sends (.xcmb h o) s u use h o.d true o.scope o.p (.xcmb q.part.addr q.part.pois))) ∧
  (∀ (s : State) f, f.retired = false → ((s.retireFiring f).rick f.rick).inflt = (s.rick f.rick).inflt - 1) ∧
  ∀ (s : State) f, f.retired = true → s.retireFiring f = s

/-- What the home of a rick and of a combine slot does with them, and RICK_FIRING with RICK_AGE_EXPIRY (R291 to R296, R298, R300,
R301, R303, R304): a rick keeps 512 records on the die, later ones in its ring; a refused enqueue adds nothing; a firing takes
records at the head, none of its own clock, and records of the ring take their place. That the expiry of an age is a firing, and
that XDONE does nothing after reassignment, are readings of the model (log entries 18, 48). -/
def Obligations.ExpertHomes : Prop :=
  (∀ s id a, s.core.acc? id = some a → a.rel = none → exec (.accessComplete id) s = .next (s.performAcc a false)) ∧
  (∀ s id, (s.core.acc? id = none ∨ ∃ a, s.core.acc? id = some a ∧ a.rel.isSome) → exec (.accessComplete id) s = .next s) ∧
  (∀ (s t : State) ten r recs w n, s.enqueue ten r recs w = (t, .ok n) →
    n = (s.rick r).enq ∧ (t.rick r).count = (s.rick r).count + recs.length ∧
    ((s.rick r).recs.length ≤ 512 → (t.rick r).recs.length ≤ 512) ∧
    ((s.rick r).spill = [] → (s.rick r).recs.length + recs.length ≤ 512 →
      (t.rick r).recs = (s.rick r).recs ++ recs.map (fun b => ⟨b, s.ftime, s.cyc, w, []⟩)) ∧
    (t.rick r).enq = (s.rick r).enq + BitVec.ofNat 32 recs.length ∧ ∀ q, q ≠ r → t.rick q = s.rick q) ∧
  (∀ (s t : State) ten r recs w, (s.enqueue ten r recs w = (t, .full) ∨ s.enqueue ten r recs w = (t, .refused)) →
    ∀ q, (t.rick q).recs = (s.rick q).recs ∧ (t.rick q).count = (s.rick q).count ∧ (t.rick q).enq = (s.rick q).enq) ∧
  (∀ s die, exec (.rickFiring die) s = .next (s.rickUnit die)) ∧
  (∀ s r, exec (.rickAgeExpiry r) s = .next (match s.rickCfg r with
    | (t, none) => t
    | (t, some cfg) => if t.rickAged (t.rick r) cfg && t.rickEligible r cfg then t.rickUnit (r / 128) else t)) ∧
  (∀ (s u : State) r cfg v, s.freeRecord (cardRegion cfg.card) = (u, some v) → let t := s.fireRick r cfg
    let n := s.rickBatch (s.rick r) cfg
    (n ≤ cfg.b ∧ ∀ x ∈ (s.rick r).recs.take n, x.clock ≠ s.cyc) ∧
    (∃ back, (t.rick r).recs = (s.rick r).recs.drop n ++ back ∧
      back.length + (t.rick r).spill.length = (s.rick r).spill.length) ∧ (t.rick r).taken = (s.rick r).taken + BitVec.ofNat 32 n ∧
    (t.rick r).fired = (s.rick r).fired + 1 ∧ (t.rick r).inflt = (s.rick r).inflt + 1 ∧ (t.rick r).kicked = false ∧
    (t.rick r).enq = (s.rick r).enq ∧ (∀ q, q ≠ r → t.rick q = s.rick q) ∧
    ∃ c ∈ t.conts, c.pa = v.2 ∧ c.state = .ready ∧ c.first = true ∧ c.xyz.take 3 = [r, n, (s.rick r).fired.toNat] ∧
      ∃ f, c.firing = some f ∧ f.batch = ((s.rick r).recs.take n).map (fun x => (x.bytes, x.pois)) ∧ f.retired = false) ∧
  (∀ (s u : State) r cfg, s.freeRecord (cardRegion cfg.card) = (u, none) → s.fireRick r cfg = u ∧ u.ricks = s.ricks) ∧
  (∀ (s : State) r cfg, s.rickEligible r cfg = true →
    (s.rick r).recs ≠ [] ∧ (s.rick r).inflt < cfg.limit ∧ s.fenced (s.effFdom (cardRegion cfg.card)) = false ∧
    (cfg.f ≤ s.rickRipe (s.rick r) ∨ (s.rick r).kicked = true ∨ cfg.a * 1000 < s.rickAge (s.rick r))) ∧
  ∀ (s t : State) a old expect, s.memWf → s.host.dirs = [] → spaceOf a = 0 → spaceOf (a + 16) = 0 →
    (∀ n ∈ [4, 12], ∀ i, i < n → (s.atomKey (a + 4) n).higher (keyAt s.keys (a + 4 + i)) = true) → s.arrive a = (t, some (old, expect)) →
    expect = s.mem.nat a 4 ∧ old = s.mem.nat (a + 4) 4 ∧ t.mem.nat a 4 = expect ∧
    t.mem.nat (a + 4) 4 = (if old < expect then old + 1 else old) ∧
    (old + 1 = expect → s.mem.nat (a + 8) 8 % 2 ^ 57 ≠ 0 → t.mem.nat (a + 8) 8 = 0) ∧
    ∀ b, (b < a + 4 ∨ a + 16 ≤ b) → t.mem.get b = s.mem.get b

/-! ### Group CONT -/

/-- The end instructions: their arrival, and the meeting that each of them decides (R306, R308 to R312). What end instructions
do on a die control core, and that the release at the end is within the meeting, are readings of the model (log entries 49, 50,
51). -/
def Obligations.EndInstructions : Prop :=
  (∀ h tag, endGoes (.susp h tag) (gateN anyStrm) h [] true tag (fun t => (t, .ok .susp)) ∧
    endsBy (.susp h tag) (gateN anyStrm) h [] true .susp always (fun t => t.planOf .susp) fun _ x t c =>
      match x.watch with
      | some w => (t.armWatch c.pa w).suspend c
      | none => t.makeReady c) ∧
  (∀ h tag a imm, endGoes (.suspCmb h tag a imm) (gateR anyStrm [a]) h [a] true tag
      (fun t => (t, .ok (.suspCmb (t.val imm a)))) ∧
    ∀ v s x u slot t c, Meets (gateR anyStrm [a]) h [a] true s x (.suspCmb v) → s.cid < 0x1000 →
      s.markIssued.slotOf v.toNat = (u, .ok slot) → u.closeStep x (s.markIssued.planOf (.suspCmb v)) = .ok (t, c) →
      exec (.suspCmb h tag a imm) s = .next (t.armCombine c slot)) ∧
  (∀ h tag, endGoes (.yield h tag) (gateN anyStrm) h [] true tag (fun t => (t, .ok .yield)) ∧
    endsBy (.yield h tag) (gateN anyStrm) h [] true .yield always (fun t => t.planOf .yield) fun _ _ t c => t.makeReady c) ∧
  (∀ h tag a imm, let g := gateR anyStrm [a]
    endGoes (.twheel h tag a imm) g h [a] true tag (fun t => (t, .ok (.twheel (t.val imm a)))) ∧
    ∀ v, endsBy (.twheel h tag a imm) g h [a] true (.twheel v) (fun t => t.ahead v ≤ 0) (fun t => t.planOf (.twheel v))
        (fun _ _ t c => t.makeReady c) ∧
      ∀ i, endsBy (.twheel h tag a imm) g h [a] true (.twheel v)
        (fun t => 0 < t.ahead v ∧ t.ahead v < 2 ^ 55 ∧ t.wheelFree = some i) (fun t => t.planOf (.twheel v))
        fun _ _ t c => t.park c v i) ∧
  (∀ h tag scope m, endGoes (.join h tag scope m) (gateM anyStrm) h [m.oreg.src] true tag (fun t => t.joinWord m) ∧
    ∀ va ten dev s x u ps, Meets (gateM anyStrm) h [m.oreg.src] true s x (.join va ten dev) →
      s.markIssued.joinParts va ten dev = (u, .ok ps) →
      let r := u.readWith (fun t q => if q.pois then (t, List.replicate q.len (0, true)) else t.homeRead q.addr q.len) ps
      let bytes := r.2.map (·.1)
      r.2.any (·.2) = false →
      (bitOf (bytesNat bytes 0 8) 63 = true → exec (.join h tag scope m) s =
        .next ((r.1.popAll [m.oreg.src]).joinDone (relWordOf (bytes.drop 8)))) ∧
      ∀ t c, bitOf (bytesNat bytes 0 8) 63 = false → s.cid < 0x1000 → isDcc r.1.cid = false →
        r.1.closeStep x (s.markIssued.planOf (.join va ten dev)) = .ok (t, c) → exec (.join h tag scope m) s = .next (t.suspend c)) ∧
  ∀ h, endGoes (.exit h) (gateN anyStrm) h [] false 0 (fun t => (t, .ok .exit)) ∧
    endsBy (.exit h) (gateN anyStrm) h [] false .exit always (fun t => t.planOf .exit) fun _ _ t c => t.freeDone c false c.relw

/-- What a step that ends leaves (R28, R29, R31, R32): its core idle with nothing outstanding, and a continuation in the planned
state that stands at the headers behind the three end instructions. That the release completes within the meeting is a reading
of the model (log entry 50). -/
def Obligations.StepEnds : Prop :=
  (∀ (s t : State) x p c, s.core.ctx = some x → x.heldTr = [] → s.closeStep x p = .ok (t, c) →
    t.core.ctx = none ∧ t.core.phase = .idle ∧ t.core.accs = [] ∧ t.core.copy = [] ∧ t.core.mtx.q = [] ∧ t.core.ldq.ents = [] ∧
    (∀ k : Fin 16, t.core.caps[k] = none) ∧ t.core.tile = s.core.tile ∧ t.core.accs32 = s.core.accs32 ∧
    c.pa = x.base.pa ∧ c.region = x.base.region ∧ c.state = p.state ∧ c.first = false ∧ c.wkind = BitVec.ofNat 8 p.wkind ∧
    c.wopnd = BitVec.ofNat 56 p.wopnd ∧ c.pcl = s.core.l.secEnd ∧ c.pcc = s.core.c.secEnd ∧ c.pcs = s.core.s.secEnd ∧
    ∃ w, c.relw = some w) ∧
  (∀ s : State, s.planOf .yield = ⟨.ready, 0, 0⟩ ∧ s.planOf .exit = ⟨.done, 0, 0⟩ ∧
    (∀ a, s.planOf (.suspCmb a) = ⟨.suspended, 2, a.toNat⟩) ∧ (∀ va ten dev, s.planOf (.join va ten dev) = ⟨.suspended, 3, va⟩) ∧
    (∀ w, s.core.ctx.bind (·.watch) = some w → s.planOf .susp = ⟨.suspended, 1, w.va⟩) ∧
    (∀ a, 0 < (a - s.ftime).toInt → s.planOf (.twheel a) = ⟨.parked, 4, a.toNat % 2 ^ 56⟩)) ∧
  (∀ (s : State) c, ∃ d ∈ (s.makeReady c).conts, d = { c with state := .ready, readyAt := s.ftime, readyCk := s.cyc }) ∧
  (∀ (s : State) c, s.wakeHolds c = true → s.suspend c = s.makeReady c) ∧
  (∀ (s : State) c, s.wakeHolds c = false → ∃ d ∈ (s.suspend c).conts, d = { c with state := .suspended }) ∧
  (∀ (s : State) c due i, (∃ d ∈ (s.park c due i).conts, d = { c with state := .parked }) ∧
    ∃ e ∈ (s.park c due i).wheel, e.idx = i ∧ e.crec = c.pa ∧ e.due = due) ∧
  ∀ (s : State) w, let t := s.goOn
    t.mem = s.mem ∧ t.core.l.ended = none ∧ t.core.c.ended = none ∧ t.core.s.ended = none ∧ t.core.l.n = s.core.l.n ∧
    (∀ u st, s.acquire w = (u, st) → st.getLsbD 1 = false → s.joinDone w = (u.mapCur fun x => { x with astat := st }).goOn)

/-- REL.commit, SPAWN and CTXLIVE (R33, R36, R215, R313 to R315); the card that SPAWN places carries the word of SPAWN's own
release. The order of SPAWN's checks is a reading of the model (log entry 39). -/
def Obligations.StepInstructions : Prop :=
  (∀ h p m s u q, Executes (gateM [.s]) h (useS [m.oreg.src]) s → s.commitEnd.2.isSome = true →
    s.markIssued.flagPart m [permW, permA] .write = (u, .ok q) → q.part.pois = false →
    (∀ w, u.cur.ended = none → u.commitEnd.2 = some w →
      (u.canMeet u.who w = true → exec (.relCommit h p m) s =
        .next (u.mapCur fun x => { x with ended := some w, hold := .endIns })) ∧
      (u.canMeet u.who w = false → exec (.relCommit h p m) s = .next (u.raise (u.precise .illegal 0)))) ∧
    ∀ x t v r, u.cur.ended.isSome = true → isDcc u.cid = false → u.core.meetReady = true → u.core.decider = u.who → u.core.ctx = some x →
      u.writeEnd x (x.endCont (u.core.setStrm .s u.commitEnd.1.core.s).afterEnds (u.planOf u.core.deciding)) = .ok t →
      t.sealSlow true (some q.part.addr) true = .ok (v, r) → exec (.relCommit h p m) s =
        .next ((((v.mapCtx fun y => { y with written := true }).mapCur fun y => { y with ended := none }).addAcc h .none p .rel
          (some r)).finish (useS [m.oreg.src]))) ∧
  (∀ h d p m s u ps, let use := useD [m.oreg.src] d
    Executes (gateM anyStrm) h use s → s.markIssued.memAccess [] m 128 128 [permR] .read = (u, .ok ps) → u.soWait ps = false →
    let r := u.readWith State.readPart (partsOf ps)
    let bs := overlayOwn (u.ownBytes (partsOf ps)) (partsOf ps) r.2
    let card := bs.map (·.1)
    let own := (r.1.core.ctx.map fun x => x.region.toNat).getD 0
    (bs.any (·.2) = true →
      Sends (.spawn h d p m) s r.1 use h d true .pkg p (.spawn (BitVec.ofNat 16 (cardRegion card)) card true ⟨0, 0⟩)) ∧
    (bs.any (·.2) = false → r.1.spawnable own (cardRegion card) = false →
      exec (.spawn h d p m) s = .next (r.1.raise (r.1.precise .perm 0))) ∧
    (bs.any (·.2) = false → r.1.spawnable own (cardRegion card) = true →
      Sends (.spawn h d p m) s r.1 use h d true .pkg p (.spawn (BitVec.ofNat 16 (cardRegion card)) card false ⟨0, 0⟩))) ∧
  (∀ r card bad w0 w, (AccKind.spawn r card bad w0).attach w = .spawn r card bad w) ∧
  (∀ (s : State) reg card w x, s.core.ctx = some x →
    (8 ≤ x.depth.val → s.spawn reg card w = (s, 2 ^ 63 + 3)) ∧
    (x.depth.val < 8 → s.freeSlot reg = none → s.spawn reg card w = (s, 2 ^ 63 + 4)) ∧
    ∀ k, x.depth.val < 8 → s.freeSlot reg = some k →
      s.spawn reg card w = (s.placeCard reg k x.tenant (spawnCard card (x.depth.val + 1) x.va w) false, k) ∧ k < 4096 ∧
      s.job? reg k = none) ∧
  (∀ h acc a b imm i, i = (if acc then Instr.ctxliveAcc h a b imm else .ctxliveTile h a b imm) →
    let n (t : State) : Nat := (t.valAfter imm [a] b).toNat
    Traps i (gateR anyStrm [a, b]) h (useS [a, b])
      (fun t => ∀ x, t.core.ctx = some x → appendLive x.decl acc (t.val imm a).toNat (n t) = none) .illegal ∧
    ∀ x l, Gives i (gateR anyStrm [a, b]) h (useS [a, b])
      (fun t => t.core.ctx = some x ∧ t.cid < 0x1000 ∧ appendLive x.decl acc (t.val imm a).toNat (n t) = some l) fun t =>
        let kib := if acc then accKib (n t) else 0
        (t.charge x.region.toNat .acc kib).mapCtx fun x => { x with decl := l, declB := true, accKib := x.accKib + kib }) ∧
  (∀ h, Gives (.ctxliveClr h) (gateN anyStrm) h (useS []) always fun t => t.mapCtx fun x => { x with decl := [], declB := true }) ∧
  ∀ l acc a b, let k := (l.filter fun r : LiveRange => r.acc = acc).length
    (b = 0 ∨ (if acc then 524288 else 1024) < a + b ∨ 8 ≤ k → appendLive l acc a b = none) ∧
    (b ≠ 0 → a + b ≤ (if acc then 524288 else 1024) → k < 8 → appendLive l acc a b = some (l ++ [⟨acc, a, b⟩]))

/-! ### Traps, group SYS, scheduling -/

/-- Taking a trap and returning from it (R366 to R376, R380): entry saves the frame and what the handler would disturb, and stands
at the handler's first word, or past a section of no words; traps of ROLLBACK and FAULT in one clock end the step together when
the clock is over, FAULT before ROLLBACK, each with its ash record; a trap raised on a stream with HND set ends the step as a
double trap, and stops a die control core (R374, R375); ERET puts back what was saved and stands where the frame says. That TF is
kept after ERET, and that a UE of ROLLBACK or FAULT disposition is no double trap, are the model's readings (log entries 40, 104).
-/
def Obligations.TrapEntry : Prop :=
  (∀ (s : State) k hdr h t, let u := s.enterHandler k hdr h t
    let x := s.core.strm k
    let y := u.core.strm k
    y.tf = t.frame x false ∧ y.hnd = true ∧ y.rq = [] ∧ y.loops = [] ∧
    (h.len ≠ 0 → y.pc = hdr + 2 ∧ y.shdr = hdr ∧ y.slen = h.len ∧ y.insec = true) ∧
    (h.len = 0 → y.pc = wordAddr hdr 0 ∧ y.shdr = wordAddr hdr 0 ∧ y.insec = false) ∧
    y.n = x.n ∧ y.sb = x.sb ∧ y.begun = x.begun ∧ u.mem = s.mem ∧
    (∃ z, y.saved = some z ∧ z.rq = x.rq ∧ z.p = x.p ∧ z.lc = x.lc ∧ z.loops = x.loops ∧ z.ent = some t) ∧
    ∀ j, j ≠ k → (u.core.strm j).n = (s.core.strm j).n ∧ (u.core.strm j).tf = (s.core.strm j).tf ∧
      (t.cause.stopsOthers = true → (u.core.strm j).parked = true)) ∧
  (∀ (t : Trap) x dbl, t.srec = [] → let f := t.frame x dbl
    f[0].toNat % 64 = t.cause.code ∧ f[0].getLsbD 8 = t.defd ∧ f[0].getLsbD 9 = t.eng ∧ f[0].getLsbD 13 = dbl ∧
    f[0].extractLsb' 32 32 = t.info ∧ f[1].extractLsb' 0 32 = (if x.insec then x.pc else x.shdr) ∧
    f[1].extractLsb' 32 32 = x.shdr ∧ f[2] = t.ipc.setWidth 64 ∧ f[3] = t.data ∧ f[4] = t.fva ∧ f[5] = t.aux ∧ f[7] = 0) ∧
  (∀ (s u : State) k t h dbl, s.cid < 0x1000 → s.dispAt k t = (u, .handle, dbl, some h) →
    s.takeTrap k t = u.enterHandler k (u.core.handler k) h t) ∧
  (∀ (s u : State) k t d dbl o, s.cid < 0x1000 → d ≠ .handle → s.dispAt k t = (u, d, dbl, o) →
    let v := u.setTf k (t.frame (u.core.strm k) dbl)
    s.takeTrap k t = { v with core := { v.core with ending := v.core.ending ++ [(⟨k, t, decide (d = .fault), dbl⟩ : Ending)] } }) ∧
  (∀ s : State, (s.core.ending = [] → s.endByTraps = s) ∧ (s.core.ending ≠ [] → ∃ e ∈ s.core.ending,
    (e.fault = false → ∀ x ∈ s.core.ending, x.fault = false) ∧
    let n := (s.core.l.pend ++ s.core.c.pend ++ s.core.s.pend).length
    let u := s.trapsNow.foldl (fun s x => s.trapAsh x.2.1 (s.core.strm x.1).tf n) s
    s.endByTraps = if e.fault then u.faultStep e.trap else u.rollbackStep)) ∧
  (∀ (s u : State) k t h, 0x1000 ≤ s.cid → t.inHnd = false → s.header s.core.svec = (u, .ok (some h)) →
    s.takeTrap k t = u.enterHandler k u.core.svec h t) ∧
  (∀ (s : State) k t, 0x1000 ≤ s.cid → t.inHnd = true → let tf := t.frame (s.core.strm k) true
    s.takeTrap k t = (s.setTf k tf).haltCore t.cause.code t.fva.toNat (frameDetail tf)) ∧
  (∀ (s : State) k t, s.cid < 0x1000 → t.inHnd = true → t.cause ≠ .ue → s.dispAt k t = (s, .fault, true, none)) ∧
  (∀ (s : State) k t, s.cid < 0x1000 → t.cause = .ue → s.core.dispOf .ue ≠ .handle →
    s.dispAt k t = (s, s.core.dispOf .ue, false, none)) ∧
  (∀ (s : State) k t, (s.pendOn k t).core.strm k =
    { s.core.strm k with pend := (s.core.strm k).pend ++ [{ t with inHnd := (s.core.strm k).hnd }] }) ∧
  (∀ (s : State) x, s.core.ctx = some x →
    (∃ c ∈ s.rollbackStep.conts, c.pa = x.base.pa ∧ c.state = .ready ∧ c.rollb = true ∧ c.pcl = x.base.pcl) ∧
    (s.core.accs = [] → s.noGranule → s.rollbackStep.core.ctx = none ∧ s.rollbackStep.core.phase = .idle)) ∧
  (∀ h code, Goes (.trap h code) (gateN anyStrm) h (useS []) always fun t => t.raiseAfter [] .trap (code.setWidth 64)) ∧
  (∀ (s : State) c data, s.raiseAfter [] c data =
    s.pass.takeTrap s.who { Trap.of c with
      inHnd := s.cur.hnd, word := BitVec.ofNat 2 s.cur.npfx, ipc := s.cur.pc, data := data }) ∧
  (∀ s : State, s.pass.cur.pc = (loopNext s.cur s.cur.next s.cur.loops).pc ∧ s.pass.cur.insec = s.cur.insec ∧
    s.pass.cur.shdr = s.cur.shdr) ∧
  (∀ h s, Executes (sysG []) h (useS []) s → s.cur.hnd = false →
    exec (.eret h) s = .next (s.markIssued.raise (s.markIssued.precise .illegal 0))) ∧
  (∀ h s z u hd, Executes { gateR anyStrm [] with priv := false } h (useS []) s → s.cur.hnd = true → s.cur.saved = some z →
    s.markIssued.header (s.cur.tf[1].extractLsb' 32 32) = (u, .ok (some hd)) →
    returnOk (s.cur.tf[1].extractLsb' 32 32) (s.cur.tf[1].extractLsb' 0 32) hd = true →
    exec (.eret h) s = .next (u.returnTo u.who hd z)) ∧
  ∀ (s : State) k h z, let x := s.core.strm k
    let y := (s.returnTo k h z).core.strm k
    y.hnd = false ∧ y.saved = none ∧ y.p = z.p ∧ y.lc = z.lc ∧ y.loops = z.loops ∧ y.n = x.n ∧ y.tf = x.tf ∧
    y.pc = x.tf[1].extractLsb' 0 32 ∧ y.shdr = x.tf[1].extractLsb' 32 32 ∧
    (y.insec = true ↔ x.tf[1].extractLsb' 0 32 ≠ x.tf[1].extractLsb' 32 32) ∧
    (x.tf[0].getLsbD 14 = false ∨ s.host.dirs = [] → (s.returnTo k h z).mem = s.mem) ∧
    y.rq.map (·.1) = z.rq.map (·.1) ∧ (z.ent = none → y.rq = z.rq)

/-- A stream runs in system mode on a die control core and in a step of a region whose effective TENANT is 0, in user mode else
(R360). RDID.mode reports the mode. Every privileged instruction raises PRIV in user mode, outside a handler, whatever else
holds; in system mode none does. -/
def Obligations.Privilege : Prop :=
  (∀ h, isPrivileged (.eret h)) ∧ (∀ h d csr, isPrivileged (.csrr h d csr)) ∧ (∀ h csr a, isPrivileged (.csrw h csr a)) ∧
  (∀ h d csr a, isPrivileged (.csrxSwp h d csr a) ∧ isPrivileged (.csrxSet h d csr a) ∧ isPrivileged (.csrxClr h d csr a)) ∧
  (∀ h pkg a b imm, isPrivileged (.tlbinvVa h pkg a b imm) ∧ isPrivileged (.tlbinvTnt h pkg a b imm) ∧
    isPrivileged (.tlbinvAll h pkg a b imm) ∧ isPrivileged (.tlbinvCap h pkg a b imm) ∧ isPrivileged (.tlbinvIc h pkg a b imm)) ∧
  (∀ h d a b imm, isPrivileged (.ctxsv h d a b imm) ∧ isPrivileged (.ctxld h d a b imm) ∧ ∀ z, isPrivileged (.semmap h z d a b imm)) ∧
  (∀ h o, isPrivileged (.mdrain h o) ∧ ∀ w, isPrivileged (.preempt h w o)) ∧
  (∀ h d a b c imm, isPrivileged (.cmintMint h d a b c imm) ∧ isPrivileged (.cmintRevoke h d a b c imm)) ∧
  (∀ h, isPrivileged (.haltWfi h) ∧ isPrivileged (.haltStop h)) ∧
  (∀ (s : State) x, s.core.ctx = some x → (s.systemMode = true ↔ (0x1000 ≤ s.cid ∨ x.tenant.toNat = 0))) ∧
  (∀ (s t : State) k, s.beginStep k = .ok t → ∃ x, t.core.ctx = some x ∧ x.tenant = BitVec.ofNat 16 (s.effTenant k.region.toNat)) ∧
  (∀ s : State, s.ident 13 = if s.systemMode then 1 else 0) ∧
  ∀ (s : State) g u t, s.systemMode = true → s.gateTrap g u = some t → t.cause ≠ .priv

/-- The control and status registers: CSRR, CSRW, CSRX, the events that write one, and what a written one reads as (R361 to
R364, R380). TLBINV: it waits for what still uses a translation, then drops what it names (R381). What names a page in
TLBINV.va, and that TF is kept after ERET, are readings of the model (log entries 19, 40). -/
def Obligations.ControlRegisters : Prop :=
  ((∀ h csr s, let g (srcs : List Src) : Gate := { gateR anyStrm srcs with priv := !(ownCsr csr && s.cur.hnd) }
    let t := s.markIssued
    (∀ d v, Executes (g []) h (useD [] d) s → s.csr csr = some v → exec (.csrr h d csr) s = .next ((t.putDst d v).finish (useD [] d))) ∧
    (∀ d, s.gateTrap (g []) (useD [] d) = none → s.csr csr = none →
      exec (.csrr h d csr) s = .next (s.raise (s.encTrap .illegal s.cur.npfx))) ∧
    (∀ a, Executes (g [a]) h (useS [a]) s → csrWritable csr = true →
      exec (.csrw h csr a) s = .next ((t.setCsr csr (t.val 0 a)).finish (useS [a]))) ∧
    (∀ a, s.gateTrap (g [a]) (useS [a]) = none → csrWritable csr = false →
      exec (.csrw h csr a) s = .next (s.raise (s.encTrap .illegal s.cur.npfx))) ∧
    ∀ d a old, Executes (g [a]) h (useD [a] d) s → csrWritable csr = true → s.csr csr = some old →
      exec (.csrxSwp h d csr a) s = .next (((t.setCsr csr (t.val 0 a)).putDst d old).finish (useD [a] d)) ∧
      exec (.csrxSet h d csr a) s = .next (((t.setCsr csr (old ||| t.val 0 a)).putDst d old).finish (useD [a] d)) ∧
      exec (.csrxClr h d csr a) s = .next (((t.setCsr csr (old &&& ~~~(t.val 0 a))).putDst d old).finish (useD [a] d))) ∧
  (∀ s v, exec (.accinjWrite v) s = .next (s.setCsr 0x104 v) ∧ exec (.corectlWrite v) s = .next (s.setCsr 0x100 v) ∧
    exec (.evpendClear v) s = .next (s.setCsr 0x10A v) ∧ exec (.drtailWrite v) s = .next (s.setCsr 0x203 v) ∧
    exec (.draftRingConfigWrite true v) s = .next (s.setCsr 0x200 v) ∧
    exec (.draftRingConfigWrite false v) s = .next (s.setCsr 0x201 v) ∧ ∀ csr, exec (.csrWrite csr v) s = .next (s.setCsr csr v)) ∧
  ∀ (s : State) v, let low (n : Nat) : Word := BitVec.ofNat 64 (v.toNat % 2 ^ n)
    (s.setCsr 0x100 v).csr 0x100 = some (low 1) ∧ (∀ r ∈ [0x101, 0x105, 0x106, 0x107], (s.setCsr r v).csr r = some v) ∧
    (∀ r ∈ [0x102, 0x103, 0x108, 0x10C], (s.setCsr r v).csr r = some (low 32)) ∧ (s.setCsr 0x104 v).csr 0x104 = some (low 25) ∧
    (s.setCsr 0x10B v).csr 0x10B = some (low 6) ∧
    (s.setCsr 0x10A v).core.evpend = s.core.evpend &&& ~~~(v.setWidth 6) ∧ (s.setCsr 0x109 v).core.wdlim = v.setWidth 32 ∧
    (∀ x, (s.setCsr 0x109 v).core.ctx = some x → x.wdRaised = false) ∧
    (∀ r : BitVec 12, r.toNat < 16 → r ∉ [0, 1, 3, 6] → csrWritable r = false) ∧
    (∀ r ∈ [0x010, 0x202, 0x300], csrWritable r = false) ∧
    (∀ d : Die, d.drhead ≠ d.drtail → d.config true v = d ∧ d.config false v = d) ∧
    ∀ d : Die, d.drhead = d.drtail → d.config true v = { d with drbase := v } ∧ d.config false v = { d with drsize := v.setWidth 17 }) ∧
  ((∀ h pkg a b imm, let use := useS [a, b]
    let own (t : State) : Prop := ∃ z ∈ t.core.accs, z.strm = t.who
    let ten (t : State) : Nat := tenantOf (t.valAfter imm [a] b)
    (Gives (.tlbinvVa h pkg a b imm) (sysG [a, b]) h use (fun t => ¬own t ∧ t.transBusy pkg (some (ten t)) = false) fun t =>
      t.dropTlb pkg fun e => e.hits (ten t) (t.val imm a).toNat || e.hits (ten t) ((t.val imm a).toNat * 4096)) ∧
    Stalls (.tlbinvVa h pkg a b imm) (sysG [a, b]) h use (fun t => own t ∨ t.transBusy pkg (some (ten t)) = true) ∧
    (Gives (.tlbinvTnt h pkg a b imm) (sysG [a, b]) h use (fun t => ¬own t ∧ t.transBusy pkg (some (ten t)) = false) fun t =>
      t.dropTlb pkg fun e => e.tenant.toNat = ten t) ∧
    Stalls (.tlbinvTnt h pkg a b imm) (sysG [a, b]) h use (fun t => own t ∨ t.transBusy pkg (some (ten t)) = true) ∧
    (Gives (.tlbinvAll h pkg a b imm) (sysG [a, b]) h use (fun t => ¬own t ∧ t.transBusy pkg none = false) fun t =>
      t.dropTlb pkg fun _ => true) ∧
    Stalls (.tlbinvAll h pkg a b imm) (sysG [a, b]) h use (fun t => own t ∨ t.transBusy pkg none = true) ∧
    (Gives (.tlbinvCap h pkg a b imm) (sysG [a, b]) h use (fun t => ¬own t) fun t =>
      t.mapCovered pkg fun c => c.dropObj (ten t) (t.val imm a).toNat) ∧
    (Gives (.tlbinvIc h pkg a b imm) (sysG [a, b]) h use (fun t => ¬own t) fun t =>
      t.mapCovered pkg fun c => ({ c with icache := [] } : Core).mapStrms fun x => { x with lbuf := [] }) ∧
    Stalls (.tlbinvCap h pkg a b imm) (sysG [a, b]) h use own ∧ Stalls (.tlbinvIc h pkg a b imm) (sysG [a, b]) h use own) ∧
  (∀ (s : State) pkg hit, (∀ e ∈ (s.dropTlb pkg hit).core.tlb, e ∈ s.core.tlb ∧ hit e = false) ∧
    (∀ e ∈ s.core.tlb, hit e = false → e ∈ (s.dropTlb pkg hit).core.tlb) ∧ (s.dropTlb pkg hit).mem = s.mem ∧
    ∀ n ∈ s.known, s.covered pkg n = true → ∀ e ∈ ((s.dropTlb pkg hit).coreAt n).tlb, hit e = false) ∧
  ∀ (s : State) pkg, (let t := s.mapCovered pkg fun c => ({ c with icache := [] } : Core).mapStrms fun x => { x with lbuf := [] }
      t.core.icache = [] ∧ ∀ k, (t.core.strm k).lbuf = []) ∧
    ∀ ten obj, ∀ e ∈ (s.mapCovered pkg fun c => c.dropObj ten obj).core.ccache, ¬(e.tenant.toNat = ten ∧ e.obj.toNat = obj))

/-- PREEMPT, PREEMPT_STOP, MDRAIN, CTXSV, CTXLD, SEMMAP, CMINT and HALT, with the words of their failures (R382 to R384, R399 to
R401, R410). A request to another core is decided when the clock is over, so an event of that clock may refuse it; a continuation
of a fenced domain is not resumed (R394). A product that MDRAIN finds with its last K-group done completes (R456). TRAP_TAKEN,
QUEUE_STALL_EXPIRY and WATCHDOG (R52, R364, R368). The code of HALT.stop's ash record, those of CMINT and PREEMPT.wait in their
corners, that a WATCHDOG is raised once for a LIMIT, and that a pending HANDLE trap waits for ERET, are readings of the model (log
entries 20, 55, 57, 63, 97, 104). -/
def Obligations.CoreControl : Prop :=
  ((∀ h o, let a (t : State) : Nat := (t.val o.imm o.a).toNat
    let use := useD [o.a] o.d
    (∀ w, let far (t : State) : Prop := w = true ∧ a t ≠ t.cid
      let held (t : State) : Prop := w = true ∧ (t.coreAt (a t)).phase = .stopping
      Traps (.preempt h w o) (sysG [o.a]) h use (fun t => 4096 ≤ a t) .illegal ∧
      (∀ code, Gives (.preempt h w o) (sysG [o.a]) h use
        (fun t => a t < 4096 ∧ t.askedOf (a t) = .none ∧ t.preemptCode (a t) = some code) fun t => t.putDst o.d (failWord code)) ∧
      Gives (.preempt h w o) (sysG [o.a]) h use
        (fun t => a t < 4096 ∧ far t ∧ t.askedOf (a t) = .none ∧ t.preemptCode (a t) = none)
        (fun t => (t.askStop (a t)).departs h o.d false (.preempt (a t))) ∧
      Stalls (.preempt h w o) (sysG [o.a]) h use (fun t => a t < 4096 ∧ far t ∧ t.askedOf (a t) ≠ .none) ∧
      (∀ code, Gives (.preempt h w o) (sysG [o.a]) h use
        (fun t => a t < 4096 ∧ ¬far t ∧ t.askedOf (a t) = .mine (some (some code)))
        fun t => (t.putCore (a t) { t.coreAt (a t) with asked := none }).putDst o.d (failWord code)) ∧
      Gives (.preempt h w o) (sysG [o.a]) h use (fun t => a t < 4096 ∧ ¬far t ∧ t.askedOf (a t) = .mine (some none) ∧ ¬held t)
        (fun t => (t.putCore (a t) { t.coreAt (a t) with asked := none }).putDst o.d 0) ∧
      Stalls (.preempt h w o) (sysG [o.a]) h use (fun t => a t < 4096 ∧ ¬far t ∧ (t.askedOf (a t) = .other ∨
        t.askedOf (a t) = .mine none ∨ t.askedOf (a t) = .mine (some none) ∧ held t)) ∧
      ∀ s, Executes (sysG [o.a]) h use s → let t := s.markIssued
        a t < 4096 → t.askedOf (a t) = .none → t.preemptCode (a t) = none →
        (a t ≠ t.cid → w = false → exec (.preempt h w o) s = .next (((t.askStop (a t)).unissued s).stall .other)) ∧
        (a t = t.cid → w = true → exec (.preempt h w o) s = .next ((((t.askStop (a t)).decideStop (a t)).unissued s).stall .other)) ∧
        (a t = t.cid → w = false →
          exec (.preempt h w o) s = .next (((((t.askStop (a t)).decideStop (a t)).putDst o.d 0)).finish use))) ∧
    Traps (.mdrain h o) (sysG [o.a]) h use (fun t => 4096 ≤ a t) .illegal ∧
    Gives (.mdrain h o) (sysG [o.a]) h use (fun t => a t < 4096 ∧ t.gated (a t) = true) (fun t => t.putDst o.d (failWord 3)) ∧
    Gives (.mdrain h o) (sysG [o.a]) h use (fun t => a t < 4096 ∧ t.gated (a t) = false ∧ (t.coreAt (a t)).stoppedNow = false)
      (fun t => t.putDst o.d (failWord 1)) ∧
    Gives (.mdrain h o) (sysG [o.a]) h use (fun t => a t < 4096 ∧ t.gated (a t) = false ∧ (t.coreAt (a t)).stoppedNow = true)
      fun t => let u := t.onCore (a t) fun v => v.drainCore.1
        u.putDst o.d (BitVec.ofNat 64 (u.coreAt (a t)).mtx.q.length)) ∧
  (∀ (s : State) (a : Acc) n q, s.core.acc? a.id = some a → a.rel = none → a.kind = .preempt n → (s.coreAt n).asked = some q →
    q.by_ = s.cid → q.strm = a.strm → let u := s.putCore n { s.coreAt n with asked := none }
    (q.code = none ∨ q.code = some none ∧ (s.coreAt n).phase = .stopping → exec (.accessComplete a.id) s = .next s) ∧
    (∀ code, q.code = some (some code) → exec (.accessComplete a.id) s = .next (u.finishAcc a (accOk [failWord code]) false)) ∧
    (q.code = some none → (s.coreAt n).phase ≠ .stopping →
      exec (.accessComplete a.id) s = .next (u.finishAcc a (accOk [0]) false))) ∧
  (∀ (s : State) m o, s.core.drained = false → s.core.mtx.running = some m → m.product = some o → let r := s.stopMma m o
    (r.2 = o.kg → let u := r.1.finishMtx m
      s.drainCore = ({ u with core := { u.core with phase := .drained } }, u.core.mtx.q.length)) ∧
    (r.2 ≠ o.kg → s.drainCore.1.core.phase = .drained ∧ s.drainCore.1.core.mtx.q = { m with kp := r.2 } :: r.1.core.mtx.q.tail)) ∧
  (∀ (s : State) a, (s.gated a = true → s.preemptCode a = some 3) ∧
    (s.gated a = false → ((s.coreAt a).ctx = none ∨ (s.coreAt a).phase ≠ .running) → s.preemptCode a = some 1) ∧
    (∀ x, s.gated a = false → (s.coreAt a).ctx = some x → (s.coreAt a).phase = .running →
      (x.written = true → s.preemptCode a = some 4) ∧
      ((∀ k, ((s.coreAt a).strm k).ended.isSome = true) → (∀ w, (s.coreAt a).s.ended = some w → w.commit = false) →
        s.preemptCode a = some 4) ∧
      (x.written = false → (∃ k, ((s.coreAt a).strm k).ended = none) → s.preemptCode a = none)) ∧
    ∀ q, (s.coreAt a).asked = some q → q.code = none → let u := s.decideStop a
      (∀ code, s.preemptCode a = some code → (u.coreAt a).asked = some { q with code := some (some code) } ∧
        (u.coreAt a).phase = (s.coreAt a).phase) ∧
      (s.preemptCode a = none → (u.coreAt a).phase = .stopping ∧ (u.coreAt a).asked = some { q with code := some none })) ∧
  (∀ s, (s.core.phase = .stopping → s.core.accs = [] → ∃ t, exec .preemptStop s = .next t ∧ t.core.phase = .stopped ∧
      (s.noGranule → t.core.l.n = s.core.l.n ∧ t.core.l.pc = s.core.l.pc ∧
      ∀ g, s.log? s.logNum = some g → (∀ k, t.log? s.logNum = some k → ∀ b ∈ k.bills, b.spilled = true) ∧
        ((∀ b ∈ g.bills, b.spilled = true) → t.mem = s.mem))) ∧
    (s.core.phase ≠ .stopping ∨ s.core.accs ≠ [] → exec .preemptStop s = .next s)) ∧
  (∀ h d a b imm s u ps, let use := useD [a, b] d
    let core := (s.markIssued.val imm a).toNat
    let va := (s.markIssued.valAfter imm [a] b).toNat
    Executes (sysG [a, b]) h use s → core < 4096 →
    (va % 4096 ≠ 0 → exec (.ctxsv h d a b imm) s = .next (s.markIssued.raise (s.markIssued.precise .align va)) ∧
      exec (.ctxld h d a b imm) s = .next (s.markIssued.raise (s.markIssued.precise .align va))) ∧
    (va % 4096 = 0 → s.markIssued.rawRange va 0x1800 .write = (u, .ok ps) → u.gated core = false →
      ((u.coreAt core).stoppedNow = false → exec (.ctxsv h d a b imm) s = .next ((u.putDst d (failWord 1)).finish use)) ∧
      ((u.coreAt core).stoppedNow = true → ∀ v,
        (∀ w, u.saveCore core va = (v, some w) → exec (.ctxsv h d a b imm) s = .next ((v.putDst d w).finish use)) ∧
        (u.saveCore core va = (v, none) → exec (.ctxsv h d a b imm) s = .next ((v.unissued s).stall .other)))) ∧
    (va % 4096 = 0 → s.markIssued.rawRange va 0x1800 .read = (u, .ok ps) → u.gated core = false →
      ((u.coreAt core).idleNow = false → exec (.ctxld h d a b imm) s = .next ((u.putDst d (failWord 1)).finish use)) ∧
      ∀ v bs, (u.coreAt core).idleNow = true → u.rawRead ps = (v, some bs) → exec (.ctxld h d a b imm) s =
        .next (((v.loadCore core va).1.putDst d (v.loadCore core va).2).finish use)) ∧
    ∀ zero v bs, va % 512 = 0 → s.markIssued.rawRange va 512 .read = (u, .ok ps) → u.gated core = false →
      (core = u.cid ∨ (u.coreAt core).stoppedNow = true ∨ (u.coreAt core).idleNow = true) → u.rawRead ps = (v, some bs) →
      let es := (List.range 256).map fun k => bytesNat bs (2 * k) 2
      ((∃ e ∈ es, 512 ≤ e) → exec (.semmap h zero d a b imm) s = .next ((v.putDst d (failWord 2)).finish use)) ∧
      ((∀ e ∈ es, e < 512) → exec (.semmap h zero d a b imm) s =
        .next (((v.putCore core ((v.coreAt core).loadMap es zero)).putDst d 0).finish use))) ∧
  (∀ (s : State) a va, s.loadCore a va = match s.readImage s.tenant va with
    | (u, .error code) => (u, failWord code)
    | (u, .ok (ps, bs)) => match u.claimOf bs va with
      | none => (u, failWord 1)
      | some k => u.resumeOn a ps bs k) ∧
  (∀ (s : State) a ps bs (k : Cont), (s.fenced (s.effFdom k.region.toNat) = true → s.resumeOn a ps bs k = (s, failWord 1)) ∧
    (s.fenced (s.effFdom k.region.toNat) = false → s.resumeOn a ps bs k =
      ((s.charge k.region.toNat .cores 1).onCore a fun u => u.resumeStep bs ps k, 0))) ∧
  (∀ (c : Core) (es : List Nat) zero k, es.length = 256 → k < 256 → (∀ e ∈ es, e < 512) →
    (c.loadMap es zero).semPhys (BitVec.ofNat 8 k) = es.getD k 0 ∧
    (zero = true → (c.loadMap es zero).sem (BitVec.ofNat 8 k) = 0)) ∧
  (∀ h d a b c imm s, let use := useD [a, b, c] d
    let t := s.markIssued
    let obj := (t.val imm a).toNat
    let ten := tenantOf (t.valAfter imm [a, b] c)
    Executes (sysG [a, b, c]) h use s →
    (∀ v ps u g, t.rawRange (t.valAfter imm [a] b).toNat 32 .read = (v, .ok ps) → obj < 65536 →
      v.mintEntry ten obj none = (u, some g) →
      exec (.cmintRevoke h d a b c imm) s = .next ((u.putDst d (BitVec.ofNat 64 g)).finish use)) ∧
    (∀ v k fva, t.rawRange (t.valAfter imm [a] b).toNat 32 .read = (v, .error (.cause k fva)) →
      exec (.cmintRevoke h d a b c imm) s = .next (v.raise (v.precise k fva)) ∧
      exec (.cmintMint h d a b c imm) s = .next (v.raise (v.precise k fva))) ∧
    ∀ u ps v bs, t.rawRange (t.valAfter imm [a] b).toNat 32 .read = (u, .ok ps) → u.rawRead ps = (v, some bs) →
      (descOk bs = false → exec (.cmintMint h d a b c imm) s = .next ((v.putDst d (failWord 2)).finish use)) ∧
      ∀ w g, descOk bs = true → obj < 65536 → v.mintEntry ten obj (some bs) = (w, some g) →
        exec (.cmintMint h d a b c imm) s = .next ((w.putDst d (BitVec.ofNat 64 g)).finish use)) ∧
  (∀ h, Gives (.haltWfi h) (sysG []) h (useS []) (fun t => t.core.evpend &&& t.core.evmask ≠ 0) id ∧
    Stalls (.haltWfi h) (sysG []) h (useS []) (fun t => t.core.evpend &&& t.core.evmask = 0) ∧
    Goes (.haltStop h) (sysG []) h (useS []) always fun t => t.advance.haltCore 0 0 []) ∧
  ∀ (s : State) code addr bs, (s.haltCore code addr bs).core.phase = .halted ∧ (s.haltCore code addr bs).mem = s.mem) ∧
  ((∀ s k, (s.dueTraps k = [] ∨ ∃ e ∈ s.core.ending, e.strm = k) → exec (.trapTaken k) s = .next s) ∧
  (∀ s k t, (∀ e ∈ s.core.ending, e.strm ≠ k) → s.choose k = some t → let u := s.unpend k t
    exec (.trapTaken k) s = .next (State.takeTrap { u with core := u.core.setStrm k (u.core.strm k).noPfx } k t)) ∧
  (∀ (s : State) k t, s.choose k = some t → t ∈ s.dueTraps k ∧ ∀ y ∈ s.dueTraps k, y.before t = false) ∧
  (∀ (s : State) k t, t ∈ s.dueTraps k ↔ t ∈ (s.core.strm k).pend ∧
    ((s.core.strm k).hnd = false ∨ t.inHnd = true ∨ isDcc s.cid = false ∧ s.core.dispOf t.cause ≠ .handle)) ∧
  (∀ s, (s.core.queueHeld = false ∨ s.core.heldClk < 2 ^ 20) → exec .queueStallExpiry s = .next s) ∧
  (∀ s, s.core.queueHeld = true → 2 ^ 20 ≤ s.core.heldClk → exec .queueStallExpiry s = .next s.queueTrap) ∧
  (∀ s, ((∀ x, s.core.ctx = some x → x.wdRaised = true) ∨ s.core.wdlim = 0 ∨ s.elapsed < s.core.wdlim.toNat) →
    exec .watchdog s = .next s) ∧
  ∀ s x, s.core.ctx = some x → x.wdRaised = false → x.written = false → s.core.wdlim ≠ 0 → s.core.wdlim.toNat ≤ s.elapsed →
    s.core.l.pend = [] → ∃ t, exec .watchdog s = .next t ∧ (∃ y, t.core.l.pend = [y] ∧ y.cause = .watchdog ∧ y.ipc = s.core.l.pc) ∧
      t.core.ctx = some { x with wdRaised := true } ∧ t.mem = s.mem)

/-- Launch, dealing, dispatch, claims, wakes, completion, timers, power gating, spills and leases. What becomes of a
continuation that cannot begin, or of a card whose region turns malformed, and where a spilled billet stands, are readings of the
model (log entries 22, 23, 52, 56, 78, 82). -/
def Obligations.SchedulerEvents : Prop :=
  (∀ s fn, exec (.hostLaunch fn) s = .next (s.hostLaunch fn) ∧ (s.launchPosted fn = false → s.hostLaunch fn = s) ∧
    (s.launchPosted fn = true → ((s.hostLaunch fn).fn fn).lrhead = (s.fn fn).lrhead + 1) ∧
    let f := s.fn fn
    let card := s.mem.bytes (keyOf 2 (f.lrbase.toNat + 128 * (f.lrhead.toNat % f.lrsize.toNat))) 128
    let root := f.tenroot.toNat
    let r := cardRegion card
    let ten := s.rcb root 34 2
    (∀ slot, s.launchPosted fn = true → s.rcbV root = true → s.launchCode root card = 0 → s.freeSlot r = some slot →
      let u := s.devStore (s.slotAddr r slot) ((launchCard card).take 128)
      (s.hostLaunch fn).job? r slot = some ⟨r, slot, BitVec.ofNat 16 ten, [], none, none, 0, true, 0⟩ ∧
      (s.hostLaunch fn).mem = (u.setRcb r 194 2 ((u.rcb r 194 2 + 1) % 8192)).mem) ∧
    ∀ u, s.launchPosted fn = true → s.rcbV root = true → s.launchCode root card ≠ 0 →
      s.writeCompletion ten card (complWord 0 0 (s.launchCode root card)) ⟨0, 0⟩ = (u, true) → (s.hostLaunch fn).mem = u.mem) ∧
  (∀ (s : State) root card, let r := cardRegion card
    let here := s.wellFormed r = true ∧ s.inSubtree r root = true
    (¬here → s.launchCode root card = 2) ∧ (here → cardOk card true = false → s.launchCode root card = 1) ∧
    (here → cardOk card true = true → cardDepth card ≠ 0 → s.launchCode root card = 3) ∧
    (here → cardOk card true = true → cardDepth card = 0 → s.freeSlot r = none → s.launchCode root card = 4) ∧
    (∀ k, here → cardOk card true = true → cardDepth card = 0 → s.freeSlot r = some k → s.launchCode root card = 0 ∧
      k < 4096 ∧ s.job? r k = none ∧ ∀ i, i < k → (s.job? r i).isSome = true)) ∧
  (∀ s r slot, exec (.dealChunk r slot) s = .next (s.dealChunk r slot) ∧ exec (.jobComplete r slot) s = .next (s.jobComplete r slot) ∧
    exec (.completionWordWrite r slot) s = .next (s.completionWrite r slot) ∧
    (s.job? r slot = none → s.dealChunk r slot = s ∧ s.jobComplete r slot = s ∧ s.completionWrite r slot = s) ∧
    ∀ j, s.job? r slot = some j → (j.rel = none → s.completionWrite r slot = s) ∧
      (j.rel.isSome → s.dealChunk r slot = s.touchSlot r slot ∧ s.jobComplete r slot = s.touchSlot r slot) ∧
      let u := s.touchSlot r slot
      let card := u.slotCard r slot
      let live := j.rel = none ∧ cardJState card < 2 ∧ u.wellFormed r = true ∧ cardOk card false = true ∧ u.fenced (u.effFdom r) = false
      (live → j.left ≠ 0 → s.dealChunk r slot = u.dealSome j card (min j.left (cardGroups card - cardCursor card))) ∧
      (live → j.left = 0 → u.undealt r slot = false → u.overBudget r = false →
        s.dealChunk r slot = u.dealSome j card (u.chunkSize r slot card)) ∧
      (live → j.left = 0 → u.undealt r slot = true ∨ u.overBudget r = true → s.dealChunk r slot = u)) ∧
  (∀ (s : State) r slot card, let left := cardGroups card - cardCursor card
    let ka := cardF card 0 48 8 * max 1 (s.jobCores r slot)
    0 < ka → ∃ q, left ≤ q * ka ∧ q * ka < left + ka ∧
      s.chunkSize r slot card = min left (max (cardF card 20 0 16) (min (cardF card 22 0 16) q))) ∧
  (∀ (s : State) j card n, let d := s.dealFrom j.region j.slot card (if j.host then some j.tenant else none) (cardCursor card) n
    let cur := cardCursor card + d.2
    d.2 ≤ n ∧ s.dealSome j card n = (((d.1.setSlot j.region j.slot 96 8 cur).setSlot j.region j.slot 104 4 (cardLive card + d.2)).setSlot
      j.region j.slot 108 4 (if cur = cardGroups card then 2 else 1)).setJob { j with left := n - d.2 }) ∧
  (∀ (s : State) r slot card ct pos n, (∀ u, s.freeRecord r = (u, none) → s.dealFrom r slot card ct pos (n + 1) = (u, 0)) ∧
    ∀ u va pa, s.freeRecord r = (u, some (va, pa)) → let p := cardGroupAt card pos
      let g := p.1 + cardDimX card * (p.2.1 + cardDimY card * p.2.2)
      let v := u.newCont card r va pa (cardF card 0 32 3) (cardDepth card) [p.1, p.2.1, p.2.2, g]
        (if cardArgCount card = 1 then 0 else g) (if cardFStride card = 0 then 0 else cardFBase card + g * cardFStride card)
        (u.slotAddr r slot) none (some (BitVec.ofNat 16 r, slot)) ct
      let d := v.dealFrom r slot card ct (pos + 1) n
      s.dealFrom r slot card ct pos (n + 1) = (d.1, d.2 + 1)) ∧
  (∀ (s : State) card r va pa prio depth xyz arg frame origin firing job ct,
    ∃ c, (s.newCont card r va pa prio depth xyz arg frame origin firing job ct).cont? pa = some c ∧ c.state = .ready ∧ c.first = true ∧
      c.va = va ∧ c.region = BitVec.ofNat 16 r ∧ c.xyz = xyz ∧ c.argidx = BitVec.ofNat 48 arg ∧ c.frame = BitVec.ofNat 57 frame ∧
      c.card = card ∧ c.codecap = BitVec.ofNat 16 (cardF card 0 0 16) ∧ c.pcl = BitVec.ofNat 32 (cardF card 8 0 32) ∧
      c.pcc = BitVec.ofNat 32 (cardF card 12 0 32) ∧ c.pcs = BitVec.ofNat 32 (cardF card 16 0 32) ∧ c.secl = 0xFFF ∧ c.wkind = 0 ∧
      c.depth = Fin.ofNat 16 depth ∧ c.job = job ∧ c.capten = ct) ∧
  (∀ card b i, let w := cardDimX card
    let h := cardDimY card
    let band := if cardF card 0 42 5 = 0 then w else 2 ^ cardF card 0 42 5
    let wb := min band (w - b * band)
    b * band < w → i < wb * h * cardDimZ card → let p := cardGroupAt card (b * (band * h * cardDimZ card) + i)
      (cardF card 0 40 2 = 0 → p = (b * band + i % wb, i / wb % h, i / (wb * h))) ∧
      (cardF card 0 40 2 = 1 → p = (b * band + i / h % wb, i % h, i / (wb * h))) ∧
      (2 ≤ cardF card 0 40 2 → let q := planePoint (cardF card 0 40 2) wb h (i % (wb * h))
        p = (b * band + q.1, q.2, i / (wb * h)))) ∧
  (∀ pt inside f p m q, m ≤ q → q < m + f → inside (pt q) = true →
    ((List.range' m (q - m)).filter fun i => inside (pt i)).length = p → nthPoint pt inside f p m = pt q) ∧
  (∀ m i, i < 32 → (evenBits 32 m).testBit i = m.testBit (2 * i) ∧ (evenBits 32 (m / 2)).testBit i = m.testBit (2 * i + 1)) ∧
  (List.range 4).map (hilbertPoint 1) = [(0, 0), (0, 1), (1, 1), (1, 0)] ∧
  (∀ nd nf ec, nd < 2 ^ 48 → nf < 256 → ec < 64 → let w := complWord nd nf ec
    w % 2 ^ 48 = nd ∧ w / 2 ^ 48 % 256 = nf ∧ w / 2 ^ 56 % 64 = ec ∧ w.testBit 62 = decide (ec ≠ 0) ∧ w.testBit 63 = true ∧ w < 2 ^ 64) ∧
  (∀ s, exec .dispatch s = .next s.dispatchOne ∧ (s.pickRegion = none → s.dispatchOne = s) ∧
    ∀ r k, s.pickRegion = some (r, k) → (s.place k = none → s.dispatchOne = s.wakeGroups s.wakeList) ∧
      ∀ n, s.place k = some n → s.dispatchOne = s.startHead k n) ∧
  (∀ (s : State) k n t, (s.claimed k = (t, none) → s.startHead k n = { t with rot := k.region }) ∧
    ∀ c, s.claimed k = (t, some c) →
      (c.wkind = 5 → (∀ u e, t.readImage 0 (c.wopnd.toNat * 64) = (u, .error e) → s.startHead k n = u.dispatchFault c) ∧
        ∀ u ps bs, t.readImage 0 (c.wopnd.toNat * 64) = (u, .ok (ps, bs)) →
          s.startHead k n = (u.countDispatch c).onCore n fun v => v.resumeStep bs ps c) ∧
      (c.wkind ≠ 5 → (∀ u, ((t.countDispatch c).focus n).beginStep c = .ok u → s.startHead k n = u.focus t.cid) ∧
        ∀ u v, ((t.countDispatch c).focus n).beginStep c = .error u → (t.focus n).beginStep c = .error v →
          s.startHead k n = (v.focus t.cid).dispatchFault c)) ∧
  (∀ (s : State) k, (k.isLocal = true → s.claimed k = (s, some (k.stamped (s.recToken k.pa, s.recSteps k.pa)))) ∧
    (k.isLocal = false → ∀ t, (∀ c, s.claim k = (t, some c) → s.claimed k = (t.setCont c, some c)) ∧
      (s.claim k = (t, none) → ∀ c ∈ (s.claimed k).1.conts, c.pa ≠ k.pa))) ∧
  (∀ (s : State) k, (s.dispatchFault k).cont? k.pa = some { k with state := .faulted, imgKib := 0 } ∧ (s.countDispatch k).rot = k.region) ∧
  (∀ s t tok epoch, let c : ClaimTxn := ⟨t, tok, epoch⟩
    exec (.claim c) s = .next (s.claimTxn c) ∧
    (s.nodeUp t.node = false → s.claimTxn c = s.answer t 5 []) ∧
    (∀ o, s.nodeUp t.node = true → s.outcome? t = some o → s.claimTxn c = s.answer t o.status o.data) ∧
    (s.nodeUp t.node = true → s.outcome? t = none → let pa := txnKey t
      let e := (s.recToken pa, s.recSteps pa)
      let free := s.recToken pa = tok.toNat ∧ lookupD s.holders pa t.src = t.src ∧ lookupD s.mgmt.epochs t.src 0 = epoch.toNat
      (free → ∃ u : State, s.claimTxn c = u.answer t 0 (natLe 4 e.1 ++ natLe 4 e.2) ∧ lookupD u.holders pa 1024 = t.src ∧ u.mem = s.mem ∧
        (s.mine t = false → u.conts = s.conts) ∧
        ∀ k, s.mine t = true → s.cont? pa = some k → k.state = .ready → k.isLocal = false → u.cont? pa = some (k.stamped e)) ∧
      (¬free → ∃ u : State, s.claimTxn c = u.answer t 5 [] ∧ u.holders = s.holders ∧ u.mem = s.mem ∧
        (s.mine t = false → u.conts = s.conts) ∧
        ∀ k, s.mine t = true → s.cont? pa = some k → k.state = .ready → k.isLocal = false → ∀ y ∈ u.conts, y.pa ≠ pa))) ∧
  (∀ s pa k, s.cont? pa = some k →
    (k.state ≠ .suspended → exec (.continuationWake pa) s = .next s) ∧
    (k.state = .suspended → 6 ≤ k.wkind.toNat → exec (.continuationWake pa) s = .next (s.setCont { k with state := .faulted })) ∧
    (k.state = .suspended → k.wkind.toNat < 6 → s.wakeHolds k = false →
      exec (.continuationWake pa) s = .next (s.lookJoin k) ∧ (k.wkind ≠ 3 → s.lookJoin k = s)) ∧
    (k.state = .suspended → k.wkind.toNat < 6 → s.wakeHolds k = true →
      (k.wkind = 3 → exec (.continuationWake pa) s = .next
        ((s.joinWordOf k).1.makeReady { k with cmbWake := false, joinw := (s.joinWordOf k).2 })) ∧
      (k.wkind ≠ 3 → exec (.continuationWake pa) s = .next (s.makeReady { k with cmbWake := false, joinw := none }))) ∧
    (k.state = .faulted → exec (.supervisorFree pa) s = .next (s.freeDone k true none)) ∧
    (k.state ≠ .faulted → exec (.supervisorFree pa) s = .next s)) ∧
  (∀ s, s.dueEntries = [] → exec .timerSlotBoundary s = .next s) ∧
  (∀ s, ∃ t, exec .timerSlotBoundary s = .next t ∧ ∀ e ∈ t.wheel, e ∈ s.wheel ∧ e ∉ s.dueEntries) ∧
  (∀ s pa, let move (e : WheelEnt) : WheelEnt := if e.crec = pa ∧ s.inWheel e.due = true then { e with slot := true } else e
    exec (.timerOverflowMove pa) s = .next { s with wheel := s.wheel.map move }) ∧
  (∀ s g, (s.gateable g = false → exec (.groupGate g) s = .next s) ∧
    (s.gateable g = true → ∃ t, exec (.groupGate g) s = .next t ∧ t.groupOf g = .gated ∧ ∀ i, i < 16 →
      (t.coreAt (16 * g + i)).tile = [] ∧ (t.coreAt (16 * g + i)).wb = [] ∧ (t.coreAt (16 * g + i)).accs32 = [])) ∧
  (∀ s g due, s.groupOf g = .waking due → (s.ftime.toNat < due.toNat → exec (.groupWakeDone g) s = .next s) ∧
    (due.toNat ≤ s.ftime.toNat → ∃ t, exec (.groupWakeDone g) s = .next t ∧ t.groupOf g = .awake)) ∧
  (∀ s log seg, exec (.compaction log seg) s = .next (s.compact (BitVec.ofNat 32 log) seg).reapLogs ∧
    ∃ t, exec (.billetSpill log seg) s = .next t ∧ t.logs.map (·.num) = s.logs.map (·.num) ∧
      (∀ b, t.billet? (BitVec.ofNat 32 log) seg = some b → b.closed = true ∨ b.isSealed = true → b.spilled = true) ∧
      ∀ b, s.billet? (BitVec.ofNat 32 log) seg = some b →
        (b.spilled = true ∨ b.closed = false ∧ b.isSealed = false → t = s) ∧
        (b.spilled = false → b.closed = true ∨ b.isSealed = true → t.mem = (s.writeBillet (BitVec.ofNat 32 log) b).mem)) ∧
  ∀ s page l, (s.leases.find? fun l => l.page = page) = some l →
    (s.renewDue l = false → exec (.leaseRenewal page) s = .next s) ∧
    (s.renewDue l = true → s.renewWanted l = true → exec (.leaseRenewal page) s = .next (s.renewLease l)) ∧
    (s.renewDue l = true → s.renewWanted l = false → ∃ t, exec (.leaseRenewal page) s = .next t ∧ t.mem = s.mem ∧
      (∀ x ∈ t.leases, x.page = page → x.lapse = true) ∧ t.leases.map (·.page) = s.leases.map (·.page)) ∧
    (s.renewDue l = true ↔ l.served s.ftime = true ∧ l.lapse = false ∧ l.grant.toNat + 2000000 ≤ s.ftime.toNat) ∧
    (s.renews page s.podpos.toNat l.grant = true → ∀ x ∈ (s.renewLease l).leases, x.page = page → x.grant = s.ftime) ∧
    (s.renews page s.podpos.toNat l.grant = false → ∀ x ∈ (s.renewLease l).leases, x.page ≠ page) ∧
    (l.served s.ftime = true → exec (.leaseExpiry page) s = .next s) ∧
    (l.served s.ftime = false → exec (.leaseExpiry page) s = .next (s.loseLease page)) ∧
    (∀ x ∈ (s.loseLease page).leases, x.page ≠ page) ∧ (l.served s.ftime = true ↔ s.ftime.toNat < l.grant.toNat + 3990000)

/-- The start of a step at its first dispatch (R24, R28, R44, R60, R62, R363, R389, R395): in each stream, the header of its
entry, n0 to n3 the group, the other scalars 0, predicates false, nothing queued; semaphores 0; the capabilities; the core's
controls as the region's block gives them; a log of its own, whose number no log in use has while one is free; what the start
acquires. How the statuses of several acquires are combined is the model's (log entry 56), and no clause speaks of it. -/
def Obligations.DispatchStart : Prop :=
  ∀ (s t : State) k, s.beginStep k = .ok t → k.first = true →
    let r := k.region.toNat
    let ten := s.effTenant r
    let u := (s.opening k).1
    let log := (s.opening k).2
    let last := (u.core.ctx.map fun x => x.tenant).or u.core.lastTen
    let ct := (k.capten.map fun v => v.toNat).getD (ten % 65536)
    let num (q : Nat) : BitVec 32 := BitVec.ofNat 32 (s.podpos.toNat * 2 ^ 22 + (s.logseq + q) % 2 ^ 22)
    let c := t.core
    c.phase = .running ∧
    (∀ j : Strm, let x := c.strm j
      (∀ i : Fin 16, x.n[i] = if i.val < 4 then BitVec.ofNat 64 (k.xyz.getD i.val 0) else 0) ∧ (∀ i : Fin 8, i ≠ 0 → x.pred i = false) ∧
      x.shdr = x.pc ∧ x.insec = false ∧ x.retired = x.begun ∧ x.rq = [] ∧ x.loops = [] ∧ x.lc = Vector.replicate 3 0 ∧
      x.sb = Vector.replicate 8 0 ∧ x.hnd = false ∧ x.pend = [] ∧ x.ended = none) ∧
    c.l.pc = k.pcl ∧ c.c.pc = k.pcc ∧ c.s.pc = k.pcs ∧
    c.l.begun = k.secl ∧ c.c.begun = k.secl + k.secdc.signExtend 12 ∧ c.s.begun = k.secl + k.secds.signExtend 12 ∧
    (∀ v : BitVec 8, c.sem v = 0) ∧ c.smap = [] ∧ c.sh = Vector.replicate 4 0 ∧ c.shS = Vector.replicate 4 0 ∧
    c.mreg = Vector.replicate 16 0 ∧ c.mregS = Vector.replicate 16 0 ∧ c.accs = [] ∧ c.mtx.q = [] ∧ c.copy = [] ∧ c.defq = [] ∧
    c.ldq.ents = [] ∧ c.sdq.ents = [] ∧ (∀ j : Fin 6, c.bq[j].ents = []) ∧
    c.caps[0] = some (u.bindCap ct k.codecap.toNat 0b00101 0 none) ∧
    c.caps[1] = (if k.card.isEmpty then none else some (u.bindCap ct (cardF k.card 24 0 16) 0b00001
      (cardF k.card 24 16 48 + k.argidx.toNat * cardArgSize k.card) (some (cardArgSize k.card)))) ∧
    c.caps[2] = some (u.bindCap (ten % 65536) (u.rcb r 112 2) 0b11111 0 none) ∧
    c.caps[3] = some (u.bindCap (ten % 65536) (u.rcb r 114 2) 0b11111 0 none) ∧
    (∀ i : Fin 16, 4 ≤ i.val → i.val < 15 → c.caps[i] = none) ∧
    c.caps[15] = some ⟨true, BitVec.ofNat 16 ten, 0, 0, 0, devInfoBytes, 0b00001⟩ ∧
    c.chk = bitOf (u.rcb r 0 8) 35 ∧ c.seed = BitVec.ofNat 64 (u.rcb r 72 8) ∧ c.displo = BitVec.ofNat 64 (u.effDispLo r) ∧
    c.disphi = BitVec.ofNat 64 (u.effDispHi r) ∧ c.hndlc = BitVec.ofNat 64 (u.effHandlerLC r) ∧
    c.hndls = BitVec.ofNat 32 (u.effHandlerS r) ∧ c.wdlim = BitVec.ofNat 32 (u.rcb r 68 4) ∧
    (last ≠ some (BitVec.ofNat 16 ten) → c.tile = [] ∧ c.accs32 = [] ∧ c.wb = []) ∧
    (last = some (BitVec.ofNat 16 ten) → c.tile = u.core.tile ∧ c.accs32 = u.core.accs32 ∧ c.wb = u.core.wb) ∧
    u.log? log = some ⟨log, BitVec.ofNat 16 ten, k.region, 0, 0, [], true, true⟩ ∧
    ((∃ q, q ≤ s.logs.length ∧ s.logBusy (num q) = false) → s.logBusy log = false) ∧
    (∀ f, k.firing = some f → k.startWords = f.words ++ k.joinw.toList) ∧
    (k.firing = none → k.startWords = (if k.card.isEmpty then [] else [cardSpRel k.card]) ++ k.joinw.toList) ∧
    ((∀ w ∈ k.startWords, w.stamp = 0) → c.l.astat = 0) ∧ (k.wkind = 2 ∨ (∃ w ∈ k.startWords, w.stamp ≠ 0) → c.l1 = []) ∧
    ∃ x, c.ctx = some x ∧ x.va = k.va ∧ x.region = k.region ∧ x.depth = k.depth ∧ x.tenant = BitVec.ofNat 16 ten ∧ x.log = log ∧
      x.ftok = k.ftoken ∧ x.seq = k.stepseq ∧ x.firing = k.firing ∧ x.watch = none ∧ x.decl = [] ∧ x.declB = false ∧ x.written = false ∧
      x.wdRaised = false ∧ ((∀ w ∈ k.startWords, w.stamp = 0) → x.hzn = []) ∧
      ∀ w, k.startWords = [w] → w.stamp ≠ 0 → x.hzn = [(w.log, w.tail)]

/-- Transactions at their homes, and what a package does about agents that do not answer. The numbers of refusals in answers,
what a re-created continuation begins with, the clock of a lease's home, a Billet ship without a record's address, the address of a
record outside its region's area, and when a release that is not whole has failed, are the model's (log entries 24, 25, 65, 67, 75,
98, 110, 111). -/
def Obligations.PoolEvents : Prop :=
  (∀ s t n, (readOk t.addr n = false → exec (.read t n) s = .next (s.answer t 5 [])) ∧
    (readOk t.addr n = true → s.nodeUp t.node = false → exec (.read t n) s = .next (s.answer t 15 [])) ∧
    (readOk t.addr n = true → s.nodeUp t.node = true → let r := s.homeRead (txnKey t) n
      exec (.read t n) s = .next (if r.2.any (·.2) then r.1.answer t 15 [] else r.1.answer t 0 (r.2.map (·.1)))) ∧
    let p := s.bulkPieces t (txnKey t) 256 (min n (2 ^ 20))
    exec (.bulkGet t n) s = .next (p.1.answer t 0 p.2)) ∧
  (∀ a n, readOk a n = true ↔ 64 ≤ n ∧ n ≤ 4096 ∧ n % 64 = 0 ∧ a % 64 = 0) ∧
  (∀ (s : State) t a f n, 0 < n → let p := s.poolData t a (min n 4096)
    let q := p.1.bulkPieces t (a + min n 4096) f (n - min n 4096)
    s.bulkPieces t a (f + 1) n = (q.1, BitVec.ofNat 8 p.2.1 :: p.2.2 ++ q.2)) ∧
  (∀ (s : State) t st bs, lookupD (s.answer t st bs).answers t.src [] = BitVec.ofNat 8 st :: bs ∧ (s.answer t st bs).mem = s.mem) ∧
  (∀ s t g, let page := leasePage (txnKey t)
    exec (.leaseAcquire t) s = .next (s.leaseAcquire t) ∧ exec (.leaseRenew t g) s = .next (s.leaseRenew t g) ∧
    exec (.leaseRelease t) s = .next (s.leaseRelease t) ∧ exec (.leaseRecall t) s = .next (s.recall t) ∧
    (s.nodeUp t.node = false ∨ s.recallOn page = true →
      s.leaseAcquire t = (if s.mine t then s.loseLease page else s).answer t 5 []) ∧
    (s.nodeUp t.node = true → s.recallOn page = false →
      s.leaseAcquire t = ((if s.mine t then s.takeGrant page else s).grant page t.src).grantAnswer t page) ∧
    (s.renews page t.src g = true ↔ s.nodeUp (poolNode (page * 65536)) = true ∧ s.recallOn page = false ∧
      ∃ h ∈ s.hleases, h.page = page ∧ h.pos = t.src ∧ h.grant = g ∧ s.ftime.toNat < g.toNat + 4010000) ∧
    (s.renews page t.src g = false → s.leaseRenew t g = (if s.mine t then s.loseLease page else s).answer t 5 []) ∧
    (s.mine t = false → s.renews page t.src g = true → s.leaseRenew t g = (s.grant page t.src).answer t 0 (natLe 8 s.ftime.toNat)) ∧
    (s.nodeUp t.node = true → ∀ h ∈ (s.leaseRelease t).hleases, ¬(h.page = page ∧ h.pos = t.src)) ∧
    (∀ l ∈ (s.recall t).leases, l.page ≠ page) ∧ ∃ h ∈ (s.grant page t.src).hleases, h = ⟨page, t.src, s.ftime⟩) ∧
  (∀ (s : State) t f o, s.outcome? t = some o →
    s.once t f = s.answer t o.status o.data) ∧
  (∀ (s : State) t down f, s.nodeUp t.node = false → s.atHome t down f = s.answer t down []) ∧
  (∀ s t op w64 sgn a b, exec (.atomic t op w64 sgn a b) s = .next (s.poolAtomic t op w64 sgn a b) ∧
    ∀ u old, let n := if w64 then 8 else 4
      s.nodeUp t.node = true → s.outcome? t = none →
      s.homeNat (txnKey t) n = (u, some old) → ∃ v : State, s.poolAtomic t op w64 sgn a b = v.answer t 0 (natLe n old) ∧
        v.mem = (match atomNew op (8 * n) sgn old a.toNat b.toNat with
          | some new => u.homeModify t (txnKey t) (natLe n new)
          | none => u).mem) ∧
  (∀ s t op ety bs, exec (.reduction t op ety bs) s = .next (s.poolReduce t op ety bs) ∧
    (s.nodeUp t.node = false → s.poolReduce t op ety bs = s.answer t 15 []) ∧
    ∀ u old, s.nodeUp t.node = true → s.outcome? t = none → s.homeRead (txnKey t) bs.length = (u, old) →
      (old.any (·.2) = true → ∃ v : State, s.poolReduce t op ety bs = v.answer t 15 [] ∧ v.mem = u.mem) ∧
      (old.any (·.2) = false → ∃ v : State, s.poolReduce t op ety bs = v.answer t 0 [] ∧ let b := elemBytes ety
        v.mem = (u.homeModify t (txnKey t) (combine (credNew op ety) b (bs.length / b) (old.map (·.1)) bs)).mem)) ∧
  (∀ f b n i, ∀ old new : List Byte, i < n → n * b ≤ old.length → n * b ≤ new.length →
    bytesNat (combine f b n old new) (i * b) b = f (bytesNat old (i * b) b) (bytesNat new (i * b) b) % 2 ^ (8 * b)) ∧
  (∀ (s : State) a bs i, s.memWf → spaceOf a = 1 → s.keyWins a bs.length → i < bs.length → (s.devAtomic a bs).mem.get (a + i) = bs.getD i 0) ∧
  (∀ s t bs, exec (.inPlaceWrite t bs) s = .next (s.poolWrite t bs) ∧
    (s.nodeUp t.node = true → s.outcome? t = none → poolNode (txnKey t) = t.node → t.addr < 2 ^ 64 →
      let r := s.recallPages (poolPages [(txnKey t, bs.length)]) (!s.mine t)
      (r.2 = true → ∃ v : State, s.poolWrite t bs = v.answer t 0 [] ∧ v.mem = r.1.mem.store (txnKey t) bs) ∧
      (r.2 = false → s.poolWrite t bs = r.1.keepHeld (.write t bs)))) ∧
  (∀ (s : State) h, h ∈ (s.keepHeld h).accepted ∧ { s.keepHeld h with accepted := s.accepted } = s ∧
    (s.accepted = [h] → s.retryHeld = State.carryOut { s with accepted := [] } h)) ∧
  (∀ s t head area, let body := head ++ area
    exec (.billetShip t head area) s = .next (s.billetShip t body false) ∧
    (s.nodeUp t.node = false → s.billetShip t body false = s.answer t 3 []) ∧
    (∀ o, s.nodeUp t.node = true → s.outcome? t = some o → s.billetShip t body false = s.answer t o.status o.data) ∧
    (s.nodeUp t.node = true → s.outcome? t = none →
      (billetOf body = none → ∃ v : State, s.billetShip t body false = v.answer t 4 [] ∧ v.mem = s.mem) ∧
      ∀ num b, billetOf body = some (num, b) → let stale := t.addr ≠ 0 ∧ b.ftok.toNat < s.recToken (txnKey t)
        (stale → ∃ v : State, s.billetShip t body false = v.answer t 1 [] ∧ v.mem = s.mem) ∧
        (¬stale → s.deadTargets b = true → ∃ v : State, s.billetShip t body false = v.answer t 3 [] ∧ v.mem = s.mem) ∧
        (¬stale → s.deadTargets b = false → let r := s.recallPages (poolPages b.ranges) true
          (r.2 = false → s.billetShip t body false = r.1.keepHeld (.ship t body)) ∧
          (r.2 = true → ∃ v : State, s.billetShip t body false = v.answer t 0 [] ∧ v.mem = (r.1.takeBillet t num b).mem)) ∧
        (s.deadTargets b = false → (s.recallPages (poolPages b.ranges) true).2 = true →
          ∃ v : State, s.carryOut (.ship t body) = v.answer t 0 []))) ∧
  (∀ (s : State) num b pa o, o ∈ (s.noteOpen num b pa).opens ∧ o.pa = pa ∧ o.log = num ∧ o.stamp = b.stamp →
    b.lastRel = false ∧ o.since = s.ftime) ∧
  (∀ s t bodies, exec (.stepCommit t bodies) s = .next (s.stepCommit t bodies false) ∧
    ∀ l num tail b r, billetsOf bodies = some l → let bs := l.map (·.2)
      commitRec bs (txnKey t) = some (b, r) → l.getLast? = some (num, tail) → s.nodeUp t.node = true → s.outcome? t = none →
      (b.ftok.toNat ≠ s.recToken (txnKey t) → ∃ v : State, s.stepCommit t bodies false = v.answer t 1 [] ∧ v.mem = s.mem ∧ v.holders = s.holders) ∧
      (b.ftok.toNat = s.recToken (txnKey t) → bytesNat r.data 56 4 ≠ s.recSteps (txnKey t) →
        ∃ v : State, s.stepCommit t bodies false = v.answer t 2 [] ∧ v.mem = s.mem ∧ v.holders = s.holders) ∧
      (b.ftok.toNat = s.recToken (txnKey t) → bytesNat r.data 56 4 = s.recSteps (txnKey t) → bs.any s.deadTargets = false →
        let q := s.recallPages (poolPages ((txnKey t, 64) :: bs.flatMap Billet.ranges)) true
        (q.2 = false → s.stepCommit t bodies false = q.1.keepHeld (.commit t bodies)) ∧
        (q.2 = true → ∃ v : State, s.stepCommit t bodies false = v.answer t 0 [] ∧ lookupD v.commits (txnKey t) ⟨0, 0⟩ = tail.word num))) ∧
  (∀ s t lost target, exec (.tokenRaise t lost target) s = .next (s.tokenRaise t lost target) ∧ let recs := s.heldRecs lost t.node
    (s.nodeUp t.node = false → s.tokenRaise t lost target = s.answer t 3 []) ∧
    (s.nodeUp t.node = true → s.outcome? t = none →
      (recs.any s.relPending = true → s.tokenRaise t lost target = s.keepHeld (.raise t lost target)) ∧
      (recs.any s.relPending = false → ∃ v : State, s.tokenRaise t lost target = v.answer t 0 (natLe 4 recs.length) ∧
        (∀ h ∈ v.holders, h ∈ s.holders ∧ h.1 ∉ recs) ∧
        (target ≠ s.podpos.toNat → v.mem = (recs.foldl State.raiseRecord s).mem)))) ∧
  (∀ (s : State) pa, (∀ h ∈ (s.raiseRecord pa).holders, h.1 ≠ pa) ∧
    (s.memWf → spaceOf pa = 1 → spaceOf (pa + 63) = 1 → s.keyWins pa 1 → s.keyWins (pa + 40) 8 → s.keyWins (pa + 60) 4 → let t := s.raiseRecord pa
      t.mem.nat (pa + 60) 4 = (s.recToken pa + 1) % 2 ^ 32 ∧ t.mem.nat (pa + 40) 8 = 0 ∧ t.mem.nat pa 1 % 16 = 1 ∧
      ∀ a, a ≠ pa → (a < pa + 40 ∨ pa + 48 ≤ a) → (a < pa + 60 ∨ pa + 64 ≤ a) → t.mem.get a = s.mem.get a)) ∧
  (∀ s t reg, exec (.reassign t reg) s = .next (s.reassign t reg) ∧ ∀ u bs, s.outcome? t = none → s.homeRead (txnKey t) 64 = (u, bs) →
    (bs.any (·.2) = true → ∃ v : State, s.reassign t reg = v.answer t 15 [] ∧ v.conts = u.conts) ∧
    (bs.any (·.2) = false → ∃ (v : State) (k : Cont), s.reassign t reg = v.answer t 0 [] ∧ v.cont? (txnKey t) = some k ∧ k.state = .ready ∧
      k.raised = true ∧ k.region = BitVec.ofNat 16 reg ∧ k.job = none ∧ k.firing = none ∧
      let w := contOf k.va (txnKey t) k.tenant (bs.map (·.1))
      k.codecap = w.codecap ∧ k.pcl = w.pcl ∧ k.pcc = w.pcc ∧ k.pcs = w.pcs ∧ k.frame = w.frame ∧ k.secl = w.secl ∧ k.first = w.first ∧
      k.ftoken = w.ftoken ∧ k.stepseq = w.stepseq)) ∧
  (∀ s t b, exec (.collective t b) s = .next (s.collBlocks t b) ∧ let g : GroupRec := ⟨b.group, b.nrank, b.rank, b.seq, 0, 0⟩
    (s.collBlocks t b).mem = s.mem ∧ ∃ c, (s.collBlocks t b).coll? g = some c ∧
      ⟨b.rank, b.kind, b.op, b.ety, b.n, b.data, none⟩ ∈ c.parts ∧ (s.coll? g = none → c.failed = none ∧ c.parts.length = 1) ∧
      ∀ old, s.coll? g = some old → (∀ q ∈ old.parts, q.rank ≠ b.rank → q ∈ c.parts) ∧
        ((old.nrank ≠ b.nrank ∨ ∃ q ∈ old.parts, q.kind ≠ b.kind ∨ q.op ≠ b.op ∨ q.ety ≠ b.ety ∨ q.n ≠ b.n) → c.failed = some .illegal)) ∧
  (∀ s t, (s.mine t = false → exec (.poison t) s = .next (s.answer t 15 [])) ∧
    (s.mine t = true → s.core.acc? t.addr = none → exec (.poison t) s = .next s) ∧
    ∀ a, s.mine t = true → s.core.acc? t.addr = some a → a.rel = none → exec (.poison t) s = .next (s.poisonAcc a)) ∧
  (∀ s op t, exec (.reservedTransaction op t) s = .next (s.ashNote 16 3 op.toNat (s.portOf t.node) 0 0 t.addr [])) ∧
  (∀ s space addr, let k := keyOf (space.val + 1) addr
    let bs := natLe 8 (2 ^ 63 + 2 ^ 62 + 6 * 2 ^ 56) ++ (if addr % 16 = 8 then natLe 16 0 else [])
    let q := s.recallPages (poolPages [(k, bs.length)]) true
    let open_ := s.homeUp k = true ∧ bitOf (s.mem.nat k 8) 63 = false
    (s.homeUp k = false → exec (.lostCompletionWrite space addr) s = .next s) ∧
    (bitOf (s.mem.nat k 8) 63 = true → exec (.lostCompletionWrite space addr) s = .next s) ∧
    (open_ → space = 0 → q.2 = true → exec (.lostCompletionWrite space addr) s = .next (q.1.devAtomic k bs)) ∧
    (open_ → space = 0 → q.2 = false → exec (.lostCompletionWrite space addr) s = .next (q.1.keepHeld (.lost space addr))) ∧
    (open_ → space = 1 → addr < 2 ^ 64 → exec (.lostCompletionWrite space addr) s = .next { s with mem := s.mem.store k bs })) ∧
  ∀ s node, (s.nodeUp node = true → s.overdue node = true →
      exec (.responseTimeout node) s = .next (s.setNode node .unresponsive)) ∧
    (s.nodeUp node = false ∨ s.overdue node = false → exec (.responseTimeout node) s = .next s) ∧
    exec (.nodeStateWrite node true) s = .next (s.setNode node .up) ∧ exec (.nodeStateWrite node false) s = .next (s.setNode node .dead) ∧
    ∀ x, lookupD (s.setNode node x).nodes node .up = x ∧
      (x ≠ .up → ∀ l ∈ (s.setNode node x).leases, poolNode (l.page * 65536) ≠ node)

/-- The events of a port change that port alone; what they make of it. The host's function registers, window and loss. What
becomes of a bad wavelength that trains again, the handling of HWSIZE and TENROOT, and the bit order of a flit's check are readings
of the model (log entries 26, 27, 28, 99). -/
def Obligations.LinkEvents : Prop :=
  ((∀ s n f, exec (.dataFlit n f) s = .next (s.mapPort n fun p => p.rx f) ∧
    exec (.nakFlit n f) s = .next (s.mapPort n fun p => p.rx f) ∧
    exec (.idleFlit n f) s = .next (s.mapPort n fun p => p.rx f)) ∧
  (∀ raw, flitGood raw false = false ∧ (flitGood raw true = true ↔
    raw.length = 256 ∧ bytesNat raw 248 8 = crc64 (raw.take 248) ∧ flitType raw < 4)) ∧
  (∀ seq ack ftype cred payload, ftype < 4 → cred < 256 → payload.length = 240 → let f := flitBytes seq ack ftype cred payload
    flitGood f true = true ∧ flitSeq f = seq ∧ flitAck f = ack ∧ flitType f = ftype ∧ flitCred f = cred ∧ flitPayload f = payload) ∧
  (∀ s n, ((s.port n).replayDue = true → exec (.replayTimeout n) s = .next (s.mapPort n Port.resend)) ∧
    ((s.port n).replayDue = false → exec (.replayTimeout n) s = .next s)) ∧
  (∀ s n a c u k ok b x y, exec (.trainingFlit n a) s = .next (s.mapPort n fun p => p.restripe (lowest8 (a &&& ~~~p.bad))) ∧
    exec (.wavelengthWindow n c u) s = .next (s.mapPort n fun p => p.window c u) ∧
    exec (.spareLock n k ok) s = .next (s.mapPort n fun p => p.lock k ok) ∧
    exec (.portBringup n b x y) s = .next (s.mapPort n fun p => p.bringup b x y) ∧
    exec (.laserMeasurement n b) s = .next (s.mapPort n fun p => p.measure b)) ∧
  (∀ (s : State) n f, (s.mapPort n f).port n = f (s.port n) ∧ (∀ k, k ≠ n → (s.mapPort n f).port k = s.port k) ∧
    { s.mapPort n f with ports := s.ports } = s) ∧
  (∀ (p : Port) raw fec, p.isUp = true →
    (flitGood raw fec = true → flitType raw = 1 → flitSeq raw = p.rxSeq → let q := p.rx ⟨raw, fec⟩
      q.rxData = p.rxData ++ [flitPayload raw] ∧ q.rxSeq = p.rxSeq + 1 ∧ q.credits = p.credits + flitCred raw ∧ q.fails = 0 ∧
      q.disc = false ∧ q.nakSent = p.nakSent) ∧
    (flitGood raw fec = true → flitType raw = 1 → flitSeq raw ≠ p.rxSeq → p.rx ⟨raw, fec⟩ = p.failRx false) ∧
    (flitGood raw fec = false → p.rx ⟨raw, fec⟩ = p.failRx (decide (flitSeq raw = p.rxSeq))) ∧
    (flitGood raw fec = true → flitType raw = 0 → p.rx ⟨raw, fec⟩ = p.heard raw) ∧
    (flitGood raw fec = true → flitType raw = 2 → p.rx ⟨raw, fec⟩ = (p.heard raw).resend)) ∧
  (∀ (p : Port) mine, (p.failRx mine).rxData = p.rxData ∧ (p.failRx mine).rxSeq = p.rxSeq ∧
    (p.disc = true → mine = false → p.failRx mine = p) ∧
    (p.disc = false ∨ mine = true → (p.failRx mine).nakSent = p.nakSent + 1 ∧
      (p.fails < 7 → (p.failRx mine).fails = p.fails + 1 ∧ (p.failRx mine).state = p.state ∧ (p.failRx mine).disc = true) ∧
      (7 ≤ p.fails → (p.failRx mine).state = 1 ∧ (p.failRx mine).fails = 0))) ∧
  (∀ (p : Port) raw fec, p.isUp = true → flitGood raw fec = true → flitType raw = 3 → p.rx ⟨raw, fec⟩ = p.heard raw) ∧
  (∀ (p : Port) raw fec, p.isUp = false → let training := p.state = 1 ∧ flitGood raw fec = true ∧ flitType raw = 3
    (training → p.rx ⟨raw, fec⟩ = p.heard raw) ∧ (¬training → p.rx ⟨raw, fec⟩ = p)) ∧
  (∀ (p : Port) raw, (p.heard raw).credits = p.credits + flitCred raw ∧ (p.heard raw).unacked = (p.takeAck (flitAck raw)).unacked ∧
    (p.heard raw).state = p.state) ∧
  (∀ (p : Port) quantum ns, p.isUp = false → p.clock quantum ns = p) ∧
  (∀ p : Port, p.isUp = true → p.active ≠ 0 → p.resent = [] →
    (p.mayForm = true → let f := p.nextFlit
      p.sendNext.unacked = p.unacked ++ [f] ∧ p.sendNext.txSeq = p.txSeq + 1 ∧ p.sendNext.credits = p.credits - 1 ∧
      p.sendNext.lanes = stripe p.active f.bytes ∧ f.seq = p.txSeq) ∧
    (p.mayForm = false → p.sendNext = p)) ∧
  (∀ p : Port, p.resend.resent = p.unacked.map (·.seq) ∧ p.resend.sinceAck = 0 ∧ (p.txFails < 7 → p.resend.state = p.state) ∧
    (7 ≤ p.txFails → p.resend.state = 1)) ∧
  (∀ (p : Port) ack q, q ∈ (p.takeAck ack).unacked ↔ q ∈ p.unacked ∧ 2048 ≤ (ack - q.seq).toNat) ∧
  (∀ m bad : BitVec 10, Port.count (lowest8 m) = min 8 (Port.count m) ∧ lowest8 m &&& ~~~m = 0 ∧
    stateFor m bad = (if Port.count (~~~bad) < 4 ∨ Port.count m < 4 then 0 else if Port.count m < 8 then 3 else 2)) ∧
  (∀ (p : Port) b x y, (p.bringup b x y).active = lowest8 (x &&& y) ∧ (p.bringup b x y).bad = ~~~x ∧
    (p.bringup b x y).state = (if Port.count (lowest8 (x &&& y)) < 4 then 0 else if Port.count (lowest8 (x &&& y)) < 8 then 3 else 2) ∧
    (p.bringup b x y).txSeq = 0 ∧ (p.bringup b x y).rxSeq = 0) ∧
  (∀ (p : Port) c u k, k < 10 → p.active.getLsbD k = true →
    ((p.degth.toNat < c.getD k 0 ∨ 0 < u.getD k 0) → (p.window c u).active.getLsbD k = false ∧ (p.window c u).bad.getLsbD k = true) ∧
    (c.getD k 0 ≤ p.degth.toNat → u.getD k 0 = 0 → (p.window c u).active.getLsbD k = true)) ∧
  ∀ h b m d, (m ≤ b → eolOf h b m d = h) ∧ (b < m → d = 0 → eolOf h b m d = 0xFFFFFFFF) ∧
    (b < m → 0 < d → ∃ q, eolOf h b m d = min 0xFFFFFFFF (h + q) ∧ (m - b) * 1000 ≤ q * d ∧ q * d < (m - b) * 1000 + d)) ∧
  ((∀ s fn v, exec (.launchRingDoorbell fn v) s = .next (s.ringDoorbell fn v) ∧ ((s.ringDoorbell fn v).fn fn).lrtail = v ∧
    (s.ringDoorbell fn v).mem = s.mem ∧
    exec (.faultRingTailWrite fn v) s = .next (s.mapFn fn fun f => { f with fmtail := v })) ∧
  (∀ (s : State) fn f, (s.mapFn fn f).fn fn = f (s.fn fn) ∧ (∀ k, k ≠ fn → (s.mapFn fn f).fn k = s.fn k) ∧ (s.mapFn fn f).mem = s.mem) ∧
  (∀ s fn off v, exec (.hostRegisterWrite fn off v) s = .next (s.hostWrite fn off v) ∧
    (off = 0x10 → s.hostWrite fn off v = s.ringDoorbell fn (v.setWidth 32)) ∧
    (fn ≠ 0 → off ≠ 0x10 → s.hostWrite fn off v = s.mapFn fn fun f => f.write off v) ∧
    (fn ≠ 0 → s.hostRead fn 0x100 = 0 ∧ s.hostRead fn 0x108 = 0)) ∧
  (∀ (f : HostFn) v, (f.lrhead = f.lrtail → (ringBaseOk v = true → (f.write 0 v).lrbase = v) ∧
      (ringSizeOk v = true → (f.write 8 v).lrsize = v.setWidth 13)) ∧
    (f.lrhead ≠ f.lrtail → f.write 0 v = f ∧ f.write 8 v = f) ∧ f.write 0x18 v = f ∧ f.write 0x30 v = f ∧
    (ringBaseOk v = true → (f.write 0x20 v).fmbase = v) ∧ (ringSizeOk v = true → (f.write 0x28 v).fmsize = v.setWidth 13) ∧
    (f.write 0x38 v).fmtail = v.setWidth 32 ∧ (ringBaseOk v = false → f.write 0 v = f ∧ f.write 0x20 v = f) ∧
    (ringSizeOk v = false → f.write 8 v = f ∧ f.write 0x28 v = f) ∧ ringSizeOk v = ringSizeOk (v &&& 0x1FFF)) ∧
  (∀ s, exec .hostWindowClose s = .next s.closeWindow ∧ s.closeWindow.host.hwsize = 0 ∧ s.closeWindow.host.dirs = []) ∧
  (∀ s b n, exec (.hostWindowSet b n) s = .next (State.writeSize { s with host := s.host.setBase b } n) ∧
    (s.host.hwsize ≠ 0 → s.host.setBase b = s.host) ∧ (s.host.hwsize = 0 → (s.host.setBase b).hwbase = b) ∧
    (n.toNat ≤ 256 → (s.writeSize n).host.hwsize = n)) ∧
  (∀ s line excl st, (s.host.up = false → exec (.hostMemRequest line excl st) s = .next s) ∧
    (s.host.up = true → s.inWindow (line * 64) 64 = false →
      exec (.hostMemRequest line excl st) s = .next { s with host := s.host.tell line none }) ∧
    (s.host.up = true → s.inWindow (line * 64) 64 = true → ∃ t, exec (.hostMemRequest line excl st) s = .next t ∧
      (line, excl) ∈ t.host.dirs)) ∧
  (∀ s line, ∃ t, exec (.hostSnoop line) s = .next t ∧ t.mem = s.mem ∧
    (keyOf 2 (line * 64) / 64, some (s.mem.bytes (keyOf 2 (line * 64)) 64)) ∈ t.host.resps) ∧
  (∀ s, exec .hostLoss s = .next s.hostLoss ∧ s.hostLoss.host.up = false ∧ s.hostLoss.host.dirs = []) ∧
  ∀ s, (s.boot = .dead ∨ s.boot = .fatal → exec .hostLinkTrained s = .next s) ∧
    (s.boot ≠ .dead → s.boot ≠ .fatal → exec .hostLinkTrained s = .next { s with host := { s.host with up := true } }))

/-- Errors, sparing, rings, power and heat. The offsets of management registers, fields of ash records, when a row's copy ends and
which lines a row has, the clock of a die that cools, and the numbers of islands 16 to 23, what they take, and a die's voltage, are
the model's (log entries 29, 55, 62, 66, 73). -/
def Obligations.ReliabilityEvents : Prop :=
  (∀ s, exec .packageFatal s = .next s.packageFatal ∧ s.packageFatal.boot = .fatal ∧ s.packageFatal.core.phase = .halted ∧
    s.packageFatal.host.up = false ∧ (∀ e ∈ s.packageFatal.others, e.2.phase = .halted) ∧ s.packageFatal.mem = s.mem ∧
    ∀ n, n < 17 → (lookupD s.packageFatal.ash n AshRing.reset).frozen = true) ∧
  (∀ s ring, ∃ t, exec (.ashUnfreeze ring) s = .next t ∧ (lookupD t.ash ring AshRing.reset).frozen = false ∧ t.core = s.core) ∧
  (∀ (r : AshRing) b, (r.frozen = true → (r.write b).recs = r.recs ∧ (r.write b).dropped = r.dropped + 1) ∧
    (r.frozen = false → (r.write b).recs.head? = some b)) ∧
  (∀ s die, exec (.dccErrorStop die) s = .next (s.onCore (0x1000 + die) fun u => u.haltCore 0 0 [])) ∧
  (∀ s code loc, s.cid < 0x1000 →
    (s.core.ctx = none → exec (.ue code loc) s = .next (s.coreAsh 0 code.toNat 0 0 0 [])) ∧
    ∀ x, s.core.ctx = some x → x.written = false → ∃ t, exec (.ue code loc) s = .next t ∧
      ∃ y ∈ t.core.l.pend, y.cause = .ue ∧ y.info = BitVec.ofNat 32 (code.toNat + loc.toNat * 256)) ∧
  (∀ s line bad, (bad = false → line ∉ s.faulty → exec (.hbmScrub line bad) s = .next s) ∧
    (bad = true ∨ line ∈ s.faulty → ∃ t, exec (.hbmScrub line bad) s = .next t ∧ line ∈ t.poisoned ∧ line ∉ t.faulty ∧ t.mem = s.mem)) ∧
  (∀ (s : State) stack bank row, s.remapOf stack bank row = none → ∀ k i, s.nextSpare stack bank = some k → s.freeRemap stack = some i →
    ⟨stack, i, remapCopying bank row k⟩ ∈ (s.beginSparing stack bank row).mgmt.remap) ∧
  (∀ s stack bank row fails lines, exec (.rowSparing stack bank row fails lines) s = .next (s.rowSparing stack bank row fails lines) ∧
    let u := lines.foldl (fun (t : State) l => t.detect (l * 64) 64) (s.beginSparing stack bank row)
    let v : State := { u with mgmt := { u.mgmt with remap := u.mgmt.remap.filter fun e => !e.ofRow stack bank row } }
    let t := s.rowSparing stack bank row fails lines
    t.mem = s.mem ∧
    (∀ e w k, u.remapOf stack bank row = some e → v.findSpare stack bank fails 33 = (w, some k) →
      fails.contains k = false ∧ ⟨stack, e.idx, remapWord bank row k⟩ ∈ t.mgmt.remap) ∧
    (u.remapOf stack bank row = none ∨ (v.findSpare stack bank fails 33).2 = none → ∀ l ∈ lines, l ∈ t.poisoned)) ∧
  (∀ (s : State) stack bank k, s.nextSpare stack bank = some k → k < 32 ∧ (s.spareBadMap stack bank).getLsbD k = false ∧
    s.spareInUse stack bank k = false ∧
    ∀ j, j < k → (s.spareBadMap stack bank).getLsbD j = true ∨ s.spareInUse stack bank j = true) ∧
  (∀ s stack idx v, ∃ t, exec (.rowRemapWrite stack idx v) s = .next t ∧ ∃ e ∈ t.mgmt.remap, e.stack = stack ∧ e.idx = idx ∧
    e.word &&& 0x3FFFFFFF = v &&& 0x3FFFFFFF) ∧
  (∀ s off v, exec (.mgmtRegisterWrite off v) s = .next (s.mgmtWrite off v)) ∧
  (∀ (s : State) n k v, n < 64 → (k = 0x10 ∨ k = 0x1C) → s.mgmtWrite (0x400 + 128 * n + k) v = s.mapPort n fun p => p.writeReg k v) ∧
  (∀ s i f mv, (i < 16 → 900 ≤ f → f ≤ 1800 → f % 100 = 0 →
      exec (.dvfsChange i ⟨f, mv⟩) s = .next (s.mapDieAt i fun d => { d.retarget f with mv := mv })) ∧
    (i < 16 → f < 900 ∨ 1800 < f ∨ f % 100 ≠ 0 → exec (.dvfsChange i ⟨f, mv⟩) s = .next s) ∧
    (16 ≤ i → i < 24 → exec (.dvfsChange i ⟨f, mv⟩) s = .next { s with islands := insertAt s.islands i ⟨f, mv⟩ }) ∧
    (24 ≤ i → exec (.dvfsChange i ⟨f, mv⟩) s = .next s)) ∧
  (∀ (d : Die) f, d.hot = false → (d.mhz ≠ f → (d.retarget f).mhz = f ∧ (d.retarget f).haltClk = 9000) ∧
    (d.mhz = f → (d.retarget f).haltClk = d.haltClk)) ∧
  (∀ s mw die, (mw ≤ s.mgmt.cap.toNat → exec (.powerCap mw die) s = .next s) ∧
    (s.mgmt.cap.toNat < mw → exec (.powerCap mw die) s = .next (s.mapDieAt die fun d => d.retarget (max 900 (d.want - 100))))) ∧
  (∀ s die temp, (temp < 115 → exec (.thermalReport die temp) s = .next (s.mapDieAt die fun d => d.report temp)) ∧
    (115 ≤ temp → ∃ t, exec (.thermalReport die temp) s = .next t ∧ t.boot = .fatal)) ∧
  (∀ s die, ∃ t, exec (.thermalTrip die) s = .next t ∧ t.boot = .fatal ∧ t.core.phase = .halted) ∧
  ∀ (d : Die) temp, (105 ≤ temp → (d.report temp).mhz = 900 ∧ (d.report temp).hot = true) ∧
    (d.hot = true → temp ≤ 95 → (d.report temp).mhz = d.want ∧ (d.report temp).hot = false) ∧
    (d.hot = true → 95 < temp → temp < 105 → (d.report temp).mhz = d.mhz) ∧ (d.hot = false → temp < 105 → (d.report temp).mhz = d.mhz)

/-- Resets, the boot chain and the SPDM responder (R447 to R450). Verification and signing are opaque, so no witness can show an
image that is accepted; where images go, what resets keep, the start of control cores and SPDM layouts are the model's (log
entries 5, 30, 31, 32, 60, 64). -/
def Obligations.BootEvents : Prop :=
  (∀ s, ∃ t, exec .coldReset s = .next t ∧ t.core = State.reset.core ∧ t.others = State.reset.others ∧ t.boot = .reset ∧
    t.ftime = 0 ∧ t.ports = s.ports.map (fun e => (e.1, e.2.aged)) ∧ t.mslots = State.reset.mslots ∧ ∀ c ∈ t.mem, spaceOf c.1 ≠ 0) ∧
  (∀ s, ∃ t, exec .warmReset s = .next t ∧ t.core = State.reset.core ∧ t.boot = .reset ∧ t.ftime = s.ftime ∧ t.ash = s.ash ∧
    (∀ e ∈ t.ports, ∃ p ∈ s.ports, e.1 = p.1 ∧ e.2.hours = p.2.hours) ∧ ∀ c ∈ t.mem, spaceOf c.1 ≠ 0) ∧
  (∀ p : Port, p.aged.hours = p.hours ∧ { p.aged with hours := 0, history := [] } = ({ Port.reset with hours := 0, history := [] } : Port)) ∧
  (∀ s a b, exec (.tinder a b) s = .next (s.tinder a b) ∧ (s.boot ≠ .reset → s.tinder a b = s) ∧
    (s.boot = .reset → checkImage a = none → checkImage b = none → (s.tinder a b).boot = .dead) ∧
    (∀ d, s.boot = .reset → imgSlot a = 0 → checkImage a = some d → s.tinder a b = { s.extend 0 d with boot := .tindered }) ∧
    ∀ d, s.boot = .reset → checkImage a = none → imgSlot b = 0 → checkImage b = some d →
      s.tinder a b = { s.extend 0 d with boot := .tindered }) ∧
  (∀ (s : State) slot d, lookupD (s.extend slot d).mslots slot [] = sha3 (lookupD s.mslots slot (List.replicate 32 0) ++ d)) ∧
  (∀ img d, checkImage img = some d → bytesNat img 0 4 = 0x4E524354 ∧ imgSlot img < 16 ∧
    sha3 ((img.drop 16).take 1312) = Config.fusedKeyHash (imgSlot img) ∧ Config.fusedSvnMin (imgSlot img) ≤ bytesNat img 8 4 ∧
    Config.mldsaVerify ((img.drop 16).take 1312) d ((img.drop 1328).take 2420) = true ∧ d = sha3 (img.take 16 ++ imgBody img)) ∧
  (∀ s k, exec (.kindling k) s = .next (s.kindling k) ∧ (s.boot ≠ .tindered → s.kindling k = s) ∧
    (s.boot = .tindered → (s.measureAll k.images [1, 2, 3]).2 = false → (s.kindling k).boot = .dead) ∧
    (s.boot = .tindered → (s.measureAll k.images [1, 2, 3]).2 = true → let t := s.kindling k
      t.boot = .running ∧ t.ftime = k.ftime ∧ t.root = k.rootAddr ∧ t.tdir = k.tdirAddr)) ∧
  (∀ (s : State) imgs slot rest, s.measureAll imgs [] = (s, true) ∧
    (∀ d, (imgs.find? fun i => imgSlot i = slot).bind checkImage = some d →
      s.measureAll imgs (slot :: rest) = (s.extend slot d).measureAll imgs rest) ∧
    ((imgs.find? fun i => imgSlot i = slot).bind checkImage = none → s.measureAll imgs (slot :: rest) = (s, false))) ∧
  (∀ s, ∃ t, exec .getVersion s = .next t ∧ t.spdm.version = true ∧ t.spdm.caps = false ∧ t.spdm.algs = false ∧
    t.spdm.out = s.spdm.out ++ [[0x10, 0x04, 0, 0, 0, 1, 0x00, 0x13]]) ∧
  (∀ s h a i sg q o l, let err (c : Byte) : State := { s with spdm := { s.spdm with meas := [], out := s.spdm.out ++ [[0x13, 0x7F, 0x07, c]] } }
    (s.spdm.version = false → exec .getCapabilities s = .next (err 0xE1)) ∧
    (s.spdm.version = true → ∃ t, exec .getCapabilities s = .next t ∧ t.spdm.caps = true) ∧
    (s.spdm.caps = false → exec (.negotiateAlgorithms h a) s = .next (err 0xE3)) ∧
    (s.spdm.caps = true → ∃ t, exec (.negotiateAlgorithms h a) s = .next t ∧ t.spdm.algs = (h && a)) ∧
    (s.spdm.algs = false → exec .getDigests s = .next (err 0x81) ∧ exec (.getCertificate o l) s = .next (err 0x82) ∧
      exec (.getMeasurements i sg q) s = .next (err 0xE0)) ∧
    (s.spdm.algs = true → sg = true → q.slot ≠ 0 → exec (.getMeasurements i sg q) s = .next (err 0xE0)) ∧
    (s.spdm.algs = true → (∃ t, exec .getDigests s = .next t ∧
        t.spdm.out = s.spdm.out ++ [[0x13, 0x01, 0, 1] ++ sha3 Config.certChain]) ∧
      (∃ t r, exec (.getCertificate o l) s = .next t ∧ t.spdm.out = s.spdm.out ++ [r] ∧ r.drop 8 = (Config.certChain.drop o).take l) ∧
      (1 ≤ i.toNat → i.toNat ≤ 16 → (sg = false ∨ q.slot = 0) → let m := lookupD s.mslots (i.toNat - 1) (List.replicate 32 0)
        ∃ t r, exec (.getMeasurements i sg q) s = .next t ∧ t.spdm.out = s.spdm.out ++ [r] ∧
          (m.length = 32 → (r.drop 15).take 32 = m)))) ∧
  ∀ s, ∃ t, exec .unsupportedRequest s = .next t ∧ t.spdm.out.length = s.spdm.out.length + 1 ∧ t.core = s.core
end

