-- ==== Sys2Proof/Laws/Ops.lean ====
section
/-!
SUPPORT. What issuing an instruction comes to, once for all of them: a trap of its encoding, a stall, nothing but its result
entries when its guard is false, its effect otherwise.
-/

namespace Sys2Proof.Machine

variable {g : Gate} {h : Hdr} {u : Use} {eff : State → Done} {s t : State}

/-- Everything that issuing can do. -/
theorem issue_cases (g : Gate) (h : Hdr) (u : Use) (eff : State → Done) (s : State) :
    (∃ t, s.gateTrap g u = some t ∧ issue g h u eff s = .next (s.raise t)) ∨
    (∃ k, s.gateTrap g u = none ∧ s.blocked h u = some k ∧ issue g h u eff s = .next (s.stall k)) ∨
    (s.gateTrap g u = none ∧ s.blocked h u = none ∧ s.guard h = false ∧ issue g h u eff s = .next (s.markIssued.skip u)) ∨
    (Executes g h u s ∧ issue g h u eff s = (eff s.markIssued).out s u) := by
  unfold issue Executes
  cases hg : s.gateTrap g u with
  | some t => exact .inl ⟨t, rfl, rfl⟩
  | none =>
    cases hb : s.blocked h u with
    | some k => exact .inr (.inl ⟨k, rfl, rfl, rfl⟩)
    | none => cases hq : s.guard h <;> simp

theorem issue_eq (he : Executes g h u s) : issue g h u eff s = (eff s.markIssued).out s u := by
  obtain ⟨h1, h2, h3⟩ := he
  simp [issue, h1, h2, h3]

theorem issueIf_eq {ok : Bool} (hok : ok = true) : issueIf ok g h u eff s = issue g h u eff s := by
  simp [issueIf, hok]

theorem issue_go (he : Executes g h u s) (hf : eff s.markIssued = .go t) : issue g h u eff s = .next (t.finish u) := by
  rw [issue_eq he, hf]; rfl

theorem issue_stay (he : Executes g h u s) (hf : eff s.markIssued = .stay t) : issue g h u eff s = .next t := by
  rw [issue_eq he, hf]; rfl

theorem issue_hold {k : Hold} (he : Executes g h u s) (hf : eff s.markIssued = .hold k) :
    issue g h u eff s = .next (s.stall k) := by
  rw [issue_eq he, hf]; rfl

theorem issue_trap {x : Trap} (he : Executes g h u s) (hf : eff s.markIssued = .trap t x) :
    issue g h u eff s = .next (t.raise x) := by
  rw [issue_eq he, hf]; rfl

/-- Only a stop of the effect is a fault. -/
theorem issue_not_refused (r : Refusal) : issue g h u eff s ≠ .refused r := by
  rcases issue_cases g h u eff s with ⟨t, -, e⟩ | ⟨k, -, -, e⟩ | ⟨-, -, -, e⟩ | ⟨-, e⟩ <;> rw [e]
  · simp
  · simp
  · simp
  · cases eff s.markIssued <;> simp [Done.out]

theorem issueIf_not_refused {ok : Bool} (r : Refusal) : issueIf ok g h u eff s ≠ .refused r := by
  unfold issueIf
  split
  · simp
  · exact issue_not_refused r

/-- A false guard: a trap of the encoding, a stall, or the skip. -/
theorem issue_false (hg : s.guard h = false) :
    (∃ t, issue g h u eff s = .next (s.raise t)) ∨ (∃ k, issue g h u eff s = .next (s.stall k)) ∨
    issue g h u eff s = .next (s.markIssued.skip u) := by
  rcases issue_cases g h u eff s with ⟨t, -, e⟩ | ⟨k, -, -, e⟩ | ⟨-, -, -, e⟩ | ⟨⟨-, -, e⟩, -⟩
  · exact .inl ⟨t, e⟩
  · exact .inr (.inl ⟨k, e⟩)
  · exact .inr (.inr e)
  · simp [hg] at e

theorem issueIf_false {ok : Bool} (hg : s.guard h = false) :
    (∃ t, issueIf ok g h u eff s = .next (s.raise t)) ∨ (∃ k, issueIf ok g h u eff s = .next (s.stall k)) ∨
    issueIf ok g h u eff s = .next (s.markIssued.skip u) := by
  unfold issueIf
  split
  · exact .inl ⟨_, rfl⟩
  · exact issue_false hg

/-! ### The shapes that claims use -/

theorem gives_of {i : Instr} {P : State → Prop} {f : State → State} (hi : ∀ s, exec i s = issue g h u eff s)
    (hf : ∀ t, P t → eff t = .go (f t)) : Gives i g h u P f := by
  intro s he hp
  rw [hi, issue_go he (hf _ hp)]

theorem goes_of {i : Instr} {P : State → Prop} {f : State → State} (hi : ∀ s, exec i s = issue g h u eff s)
    (hf : ∀ t, P t → eff t = .stay (f t)) : Goes i g h u P f := by
  intro s he hp
  rw [hi, issue_stay he (hf _ hp)]

theorem traps_of {i : Instr} {P : State → Prop} {c : Cause} (hi : ∀ s, exec i s = issue g h u eff s)
    (hf : ∀ t, P t → eff t = .trap t (t.precise c 0)) : Traps i g h u P c := by
  intro s he hp
  rw [hi, issue_trap he (hf _ hp)]

theorem stalls_of {i : Instr} {P : State → Prop} {k : Hold} (hi : ∀ s, exec i s = issue g h u eff s)
    (hf : ∀ t, P t → eff t = .hold k) : Stalls i g h u P := by
  intro s he hp
  exact ⟨k, by rw [hi, issue_hold he (hf _ hp)]⟩

end Sys2Proof.Machine
end

