-- ==== Sys2Proof/Laws/State.lean ====
section
/-!
SUPPORT. One lemma per field for each update of the state and of a core, so that no later proof unfolds a record update.
-/

namespace Sys2Proof.Machine

/-! ### Streams of a core -/

@[simp] theorem Core.strm_setStrm (c : Core) (k : Strm) (x : Stream) : (c.setStrm k x).strm k = x := by cases k <;> rfl
theorem Core.strm_setStrm_ne (c : Core) {j k : Strm} (x : Stream) (h : j ≠ k) : (c.setStrm k x).strm j = c.strm j := by
  cases j <;> cases k <;> first | rfl | exact absurd rfl h
@[simp] theorem Core.setStrm_self (c : Core) (k : Strm) : c.setStrm k (c.strm k) = c := by cases k <;> rfl
@[simp] theorem Core.setStrm_setStrm (c : Core) (k : Strm) (x y : Stream) : (c.setStrm k x).setStrm k y = c.setStrm k y := by
  cases k <;> rfl

@[simp] theorem Core.setStrm_phase (c : Core) (k : Strm) (x : Stream) : (c.setStrm k x).phase = c.phase := by cases k <;> rfl
@[simp] theorem Core.setStrm_ldq (c : Core) (k : Strm) (x : Stream) : (c.setStrm k x).ldq = c.ldq := by cases k <;> rfl
@[simp] theorem Core.setStrm_sdq (c : Core) (k : Strm) (x : Stream) : (c.setStrm k x).sdq = c.sdq := by cases k <;> rfl
@[simp] theorem Core.setStrm_bq (c : Core) (k : Strm) (x : Stream) : (c.setStrm k x).bq = c.bq := by cases k <;> rfl
@[simp] theorem Core.setStrm_accs (c : Core) (k : Strm) (x : Stream) : (c.setStrm k x).accs = c.accs := by cases k <;> rfl
@[simp] theorem Core.setStrm_nextId (c : Core) (k : Strm) (x : Stream) : (c.setStrm k x).nextId = c.nextId := by cases k <;> rfl
@[simp] theorem Core.setStrm_sh (c : Core) (k : Strm) (x : Stream) : (c.setStrm k x).sh = c.sh := by cases k <;> rfl
@[simp] theorem Core.setStrm_mreg (c : Core) (k : Strm) (x : Stream) : (c.setStrm k x).mreg = c.mreg := by cases k <;> rfl
@[simp] theorem Core.setStrm_shS (c : Core) (k : Strm) (x : Stream) : (c.setStrm k x).shS = c.shS := by cases k <;> rfl
@[simp] theorem Core.setStrm_mregS (c : Core) (k : Strm) (x : Stream) : (c.setStrm k x).mregS = c.mregS := by cases k <;> rfl
@[simp] theorem Core.setStrm_tile (c : Core) (k : Strm) (x : Stream) : (c.setStrm k x).tile = c.tile := by cases k <;> rfl
@[simp] theorem Core.setStrm_wb (c : Core) (k : Strm) (x : Stream) : (c.setStrm k x).wb = c.wb := by cases k <;> rfl
@[simp] theorem Core.setStrm_accs32 (c : Core) (k : Strm) (x : Stream) : (c.setStrm k x).accs32 = c.accs32 := by cases k <;> rfl
@[simp] theorem Core.setStrm_caps (c : Core) (k : Strm) (x : Stream) : (c.setStrm k x).caps = c.caps := by cases k <;> rfl
@[simp] theorem Core.setStrm_smap (c : Core) (k : Strm) (x : Stream) : (c.setStrm k x).smap = c.smap := by cases k <;> rfl
@[simp] theorem Core.setStrm_sems (c : Core) (k : Strm) (x : Stream) : (c.setStrm k x).sems = c.sems := by cases k <;> rfl
@[simp] theorem Core.setStrm_defq (c : Core) (k : Strm) (x : Stream) : (c.setStrm k x).defq = c.defq := by cases k <;> rfl
@[simp] theorem Core.setStrm_mtx (c : Core) (k : Strm) (x : Stream) : (c.setStrm k x).mtx = c.mtx := by cases k <;> rfl
@[simp] theorem Core.setStrm_copy (c : Core) (k : Strm) (x : Stream) : (c.setStrm k x).copy = c.copy := by cases k <;> rfl
@[simp] theorem Core.setStrm_cstat (c : Core) (k : Strm) (x : Stream) : (c.setStrm k x).cstat = c.cstat := by cases k <;> rfl
@[simp] theorem Core.setStrm_fq (c : Core) (k : Strm) (x : Stream) : (c.setStrm k x).fq = c.fq := by cases k <;> rfl
@[simp] theorem Core.setStrm_ending (c : Core) (k : Strm) (x : Stream) : (c.setStrm k x).ending = c.ending := by cases k <;> rfl
@[simp] theorem Core.setStrm_ctx (c : Core) (k : Strm) (x : Stream) : (c.setStrm k x).ctx = c.ctx := by cases k <;> rfl
@[simp] theorem Core.setStrm_chk (c : Core) (k : Strm) (x : Stream) : (c.setStrm k x).chk = c.chk := by cases k <;> rfl
@[simp] theorem Core.setStrm_seed (c : Core) (k : Strm) (x : Stream) : (c.setStrm k x).seed = c.seed := by cases k <;> rfl
@[simp] theorem Core.setStrm_abftTol (c : Core) (k : Strm) (x : Stream) : (c.setStrm k x).abftTol = c.abftTol := by cases k <;> rfl
@[simp] theorem Core.setStrm_abftCnt (c : Core) (k : Strm) (x : Stream) : (c.setStrm k x).abftCnt = c.abftCnt := by cases k <;> rfl
@[simp] theorem Core.setStrm_accinj (c : Core) (k : Strm) (x : Stream) : (c.setStrm k x).accinj = c.accinj := by cases k <;> rfl
@[simp] theorem Core.setStrm_displo (c : Core) (k : Strm) (x : Stream) : (c.setStrm k x).displo = c.displo := by cases k <;> rfl
@[simp] theorem Core.setStrm_disphi (c : Core) (k : Strm) (x : Stream) : (c.setStrm k x).disphi = c.disphi := by cases k <;> rfl
@[simp] theorem Core.setStrm_hndlc (c : Core) (k : Strm) (x : Stream) : (c.setStrm k x).hndlc = c.hndlc := by cases k <;> rfl
@[simp] theorem Core.setStrm_hndls (c : Core) (k : Strm) (x : Stream) : (c.setStrm k x).hndls = c.hndls := by cases k <;> rfl
@[simp] theorem Core.setStrm_wdlim (c : Core) (k : Strm) (x : Stream) : (c.setStrm k x).wdlim = c.wdlim := by cases k <;> rfl
@[simp] theorem Core.setStrm_evpend (c : Core) (k : Strm) (x : Stream) : (c.setStrm k x).evpend = c.evpend := by cases k <;> rfl
@[simp] theorem Core.setStrm_evmask (c : Core) (k : Strm) (x : Stream) : (c.setStrm k x).evmask = c.evmask := by cases k <;> rfl
@[simp] theorem Core.setStrm_svec (c : Core) (k : Strm) (x : Stream) : (c.setStrm k x).svec = c.svec := by cases k <;> rfl
@[simp] theorem Core.setStrm_wbTag (c : Core) (k : Strm) (x : Stream) : (c.setStrm k x).wbTag = c.wbTag := by cases k <;> rfl
@[simp] theorem Core.setStrm_lastTen (c : Core) (k : Strm) (x : Stream) : (c.setStrm k x).lastTen = c.lastTen := by cases k <;> rfl
@[simp] theorem Core.setStrm_idleAt (c : Core) (k : Strm) (x : Stream) : (c.setStrm k x).idleAt = c.idleAt := by cases k <;> rfl
@[simp] theorem Core.setStrm_l1 (c : Core) (k : Strm) (x : Stream) : (c.setStrm k x).l1 = c.l1 := by cases k <;> rfl
@[simp] theorem Core.setStrm_icache (c : Core) (k : Strm) (x : Stream) : (c.setStrm k x).icache = c.icache := by cases k <;> rfl
@[simp] theorem Core.setStrm_tlb (c : Core) (k : Strm) (x : Stream) : (c.setStrm k x).tlb = c.tlb := by cases k <;> rfl
@[simp] theorem Core.setStrm_ccache (c : Core) (k : Strm) (x : Stream) : (c.setStrm k x).ccache = c.ccache := by cases k <;> rfl
@[simp] theorem Core.setStrm_heldClk (c : Core) (k : Strm) (x : Stream) : (c.setStrm k x).heldClk = c.heldClk := by cases k <;> rfl
@[simp] theorem Core.setStrm_issued (c : Core) (k : Strm) (x : Stream) : (c.setStrm k x).issued = c.issued := by cases k <;> rfl
@[simp] theorem Core.setStrm_asked (c : Core) (k : Strm) (x : Stream) : (c.setStrm k x).asked = c.asked := by cases k <;> rfl

/-! ### The state around its core -/

@[simp] theorem State.setCur_turn (s : State) (x : Stream) : (s.setCur x).turn = s.turn := rfl
@[simp] theorem State.setCur_who (s : State) (x : Stream) : (s.setCur x).who = s.who := rfl
@[simp] theorem State.setCur_agenda (s : State) (x : Stream) : (s.setCur x).agenda = s.agenda := rfl
@[simp] theorem State.setCur_cid (s : State) (x : Stream) : (s.setCur x).cid = s.cid := rfl
@[simp] theorem State.setCur_others (s : State) (x : Stream) : (s.setCur x).others = s.others := rfl
@[simp] theorem State.setCur_free (s : State) (x : Stream) : (s.setCur x).free = s.free := rfl
@[simp] theorem State.setCur_cyc (s : State) (x : Stream) : (s.setCur x).cyc = s.cyc := rfl
@[simp] theorem State.setCur_ftime (s : State) (x : Stream) : (s.setCur x).ftime = s.ftime := rfl
@[simp] theorem State.setCur_frac (s : State) (x : Stream) : (s.setCur x).frac = s.frac := rfl
@[simp] theorem State.setCur_mem (s : State) (x : Stream) : (s.setCur x).mem = s.mem := rfl
@[simp] theorem State.setCur_keys (s : State) (x : Stream) : (s.setCur x).keys = s.keys := rfl
@[simp] theorem State.setCur_poisoned (s : State) (x : Stream) : (s.setCur x).poisoned = s.poisoned := rfl
@[simp] theorem State.setCur_faulty (s : State) (x : Stream) : (s.setCur x).faulty = s.faulty := rfl
@[simp] theorem State.setCur_rowErrs (s : State) (x : Stream) : (s.setCur x).rowErrs = s.rowErrs := rfl
@[simp] theorem State.setCur_view (s : State) (x : Stream) : (s.setCur x).view = s.view := rfl
@[simp] theorem State.setCur_vkeys (s : State) (x : Stream) : (s.setCur x).vkeys = s.vkeys := rfl
@[simp] theorem State.setCur_vlines (s : State) (x : Stream) : (s.setCur x).vlines = s.vlines := rfl
@[simp] theorem State.setCur_slices (s : State) (x : Stream) : (s.setCur x).slices = s.slices := rfl
@[simp] theorem State.setCur_leases (s : State) (x : Stream) : (s.setCur x).leases = s.leases := rfl
@[simp] theorem State.setCur_kept (s : State) (x : Stream) : (s.setCur x).kept = s.kept := rfl
@[simp] theorem State.setCur_hleases (s : State) (x : Stream) : (s.setCur x).hleases = s.hleases := rfl
@[simp] theorem State.setCur_logs (s : State) (x : Stream) : (s.setCur x).logs = s.logs := rfl
@[simp] theorem State.setCur_spois (s : State) (x : Stream) : (s.setCur x).spois = s.spois := rfl
@[simp] theorem State.setCur_recalls (s : State) (x : Stream) : (s.setCur x).recalls = s.recalls := rfl
@[simp] theorem State.setCur_accepted (s : State) (x : Stream) : (s.setCur x).accepted = s.accepted := rfl
@[simp] theorem State.setCur_opens (s : State) (x : Stream) : (s.setCur x).opens = s.opens := rfl
@[simp] theorem State.setCur_commits (s : State) (x : Stream) : (s.setCur x).commits = s.commits := rfl
@[simp] theorem State.setCur_islands (s : State) (x : Stream) : (s.setCur x).islands = s.islands := rfl
@[simp] theorem State.setCur_fixed (s : State) (x : Stream) : (s.setCur x).fixed = s.fixed := rfl
@[simp] theorem State.setCur_shown (s : State) (x : Stream) : (s.setCur x).shown = s.shown := rfl
@[simp] theorem State.setCur_rlogs (s : State) (x : Stream) : (s.setCur x).rlogs = s.rlogs := rfl
@[simp] theorem State.setCur_logseq (s : State) (x : Stream) : (s.setCur x).logseq = s.logseq := rfl
@[simp] theorem State.setCur_conts (s : State) (x : Stream) : (s.setCur x).conts = s.conts := rfl
@[simp] theorem State.setCur_seals (s : State) (x : Stream) : (s.setCur x).seals = s.seals := rfl
@[simp] theorem State.setCur_root (s : State) (x : Stream) : (s.setCur x).root = s.root := rfl
@[simp] theorem State.setCur_tdir (s : State) (x : Stream) : (s.setCur x).tdir = s.tdir := rfl
@[simp] theorem State.setCur_rot (s : State) (x : Stream) : (s.setCur x).rot = s.rot := rfl
@[simp] theorem State.setCur_ricks (s : State) (x : Stream) : (s.setCur x).ricks = s.ricks := rfl
@[simp] theorem State.setCur_wheel (s : State) (x : Stream) : (s.setCur x).wheel = s.wheel := rfl
@[simp] theorem State.setCur_waits (s : State) (x : Stream) : (s.setCur x).waits = s.waits := rfl
@[simp] theorem State.setCur_dies (s : State) (x : Stream) : (s.setCur x).dies = s.dies := rfl
@[simp] theorem State.setCur_drafts (s : State) (x : Stream) : (s.setCur x).drafts = s.drafts := rfl
@[simp] theorem State.setCur_groups (s : State) (x : Stream) : (s.setCur x).groups = s.groups := rfl
@[simp] theorem State.setCur_ash (s : State) (x : Stream) : (s.setCur x).ash = s.ash := rfl
@[simp] theorem State.setCur_ports (s : State) (x : Stream) : (s.setCur x).ports = s.ports := rfl
@[simp] theorem State.setCur_nodes (s : State) (x : Stream) : (s.setCur x).nodes = s.nodes := rfl
@[simp] theorem State.setCur_holders (s : State) (x : Stream) : (s.setCur x).holders = s.holders := rfl
@[simp] theorem State.setCur_outs (s : State) (x : Stream) : (s.setCur x).outs = s.outs := rfl
@[simp] theorem State.setCur_txseq (s : State) (x : Stream) : (s.setCur x).txseq = s.txseq := rfl
@[simp] theorem State.setCur_answers (s : State) (x : Stream) : (s.setCur x).answers = s.answers := rfl
@[simp] theorem State.setCur_colls (s : State) (x : Stream) : (s.setCur x).colls = s.colls := rfl
@[simp] theorem State.setCur_fns (s : State) (x : Stream) : (s.setCur x).fns = s.fns := rfl
@[simp] theorem State.setCur_host (s : State) (x : Stream) : (s.setCur x).host = s.host := rfl
@[simp] theorem State.setCur_mgmt (s : State) (x : Stream) : (s.setCur x).mgmt = s.mgmt := rfl
@[simp] theorem State.setCur_podpos (s : State) (x : Stream) : (s.setCur x).podpos = s.podpos := rfl
@[simp] theorem State.setCur_devw (s : State) (x : Stream) : (s.setCur x).devw = s.devw := rfl
@[simp] theorem State.setCur_boot (s : State) (x : Stream) : (s.setCur x).boot = s.boot := rfl
@[simp] theorem State.setCur_mslots (s : State) (x : Stream) : (s.setCur x).mslots = s.mslots := rfl
@[simp] theorem State.setCur_spdm (s : State) (x : Stream) : (s.setCur x).spdm = s.spdm := rfl
@[simp] theorem State.setCur_jobs (s : State) (x : Stream) : (s.setCur x).jobs = s.jobs := rfl

@[simp] theorem State.mapCur_turn (s : State) (f : Stream → Stream) : (s.mapCur f).turn = s.turn := rfl
@[simp] theorem State.mapCur_who (s : State) (f : Stream → Stream) : (s.mapCur f).who = s.who := rfl
@[simp] theorem State.mapCur_agenda (s : State) (f : Stream → Stream) : (s.mapCur f).agenda = s.agenda := rfl
@[simp] theorem State.mapCur_cid (s : State) (f : Stream → Stream) : (s.mapCur f).cid = s.cid := rfl
@[simp] theorem State.mapCur_others (s : State) (f : Stream → Stream) : (s.mapCur f).others = s.others := rfl
@[simp] theorem State.mapCur_free (s : State) (f : Stream → Stream) : (s.mapCur f).free = s.free := rfl
@[simp] theorem State.mapCur_cyc (s : State) (f : Stream → Stream) : (s.mapCur f).cyc = s.cyc := rfl
@[simp] theorem State.mapCur_ftime (s : State) (f : Stream → Stream) : (s.mapCur f).ftime = s.ftime := rfl
@[simp] theorem State.mapCur_frac (s : State) (f : Stream → Stream) : (s.mapCur f).frac = s.frac := rfl
@[simp] theorem State.mapCur_mem (s : State) (f : Stream → Stream) : (s.mapCur f).mem = s.mem := rfl
@[simp] theorem State.mapCur_keys (s : State) (f : Stream → Stream) : (s.mapCur f).keys = s.keys := rfl
@[simp] theorem State.mapCur_poisoned (s : State) (f : Stream → Stream) : (s.mapCur f).poisoned = s.poisoned := rfl
@[simp] theorem State.mapCur_faulty (s : State) (f : Stream → Stream) : (s.mapCur f).faulty = s.faulty := rfl
@[simp] theorem State.mapCur_rowErrs (s : State) (f : Stream → Stream) : (s.mapCur f).rowErrs = s.rowErrs := rfl
@[simp] theorem State.mapCur_view (s : State) (f : Stream → Stream) : (s.mapCur f).view = s.view := rfl
@[simp] theorem State.mapCur_vkeys (s : State) (f : Stream → Stream) : (s.mapCur f).vkeys = s.vkeys := rfl
@[simp] theorem State.mapCur_vlines (s : State) (f : Stream → Stream) : (s.mapCur f).vlines = s.vlines := rfl
@[simp] theorem State.mapCur_slices (s : State) (f : Stream → Stream) : (s.mapCur f).slices = s.slices := rfl
@[simp] theorem State.mapCur_leases (s : State) (f : Stream → Stream) : (s.mapCur f).leases = s.leases := rfl
@[simp] theorem State.mapCur_kept (s : State) (f : Stream → Stream) : (s.mapCur f).kept = s.kept := rfl
@[simp] theorem State.mapCur_hleases (s : State) (f : Stream → Stream) : (s.mapCur f).hleases = s.hleases := rfl
@[simp] theorem State.mapCur_logs (s : State) (f : Stream → Stream) : (s.mapCur f).logs = s.logs := rfl
@[simp] theorem State.mapCur_spois (s : State) (f : Stream → Stream) : (s.mapCur f).spois = s.spois := rfl
@[simp] theorem State.mapCur_recalls (s : State) (f : Stream → Stream) : (s.mapCur f).recalls = s.recalls := rfl
@[simp] theorem State.mapCur_accepted (s : State) (f : Stream → Stream) : (s.mapCur f).accepted = s.accepted := rfl
@[simp] theorem State.mapCur_opens (s : State) (f : Stream → Stream) : (s.mapCur f).opens = s.opens := rfl
@[simp] theorem State.mapCur_commits (s : State) (f : Stream → Stream) : (s.mapCur f).commits = s.commits := rfl
@[simp] theorem State.mapCur_islands (s : State) (f : Stream → Stream) : (s.mapCur f).islands = s.islands := rfl
@[simp] theorem State.mapCur_fixed (s : State) (f : Stream → Stream) : (s.mapCur f).fixed = s.fixed := rfl
@[simp] theorem State.mapCur_shown (s : State) (f : Stream → Stream) : (s.mapCur f).shown = s.shown := rfl
@[simp] theorem State.mapCur_rlogs (s : State) (f : Stream → Stream) : (s.mapCur f).rlogs = s.rlogs := rfl
@[simp] theorem State.mapCur_logseq (s : State) (f : Stream → Stream) : (s.mapCur f).logseq = s.logseq := rfl
@[simp] theorem State.mapCur_conts (s : State) (f : Stream → Stream) : (s.mapCur f).conts = s.conts := rfl
@[simp] theorem State.mapCur_seals (s : State) (f : Stream → Stream) : (s.mapCur f).seals = s.seals := rfl
@[simp] theorem State.mapCur_root (s : State) (f : Stream → Stream) : (s.mapCur f).root = s.root := rfl
@[simp] theorem State.mapCur_tdir (s : State) (f : Stream → Stream) : (s.mapCur f).tdir = s.tdir := rfl
@[simp] theorem State.mapCur_rot (s : State) (f : Stream → Stream) : (s.mapCur f).rot = s.rot := rfl
@[simp] theorem State.mapCur_ricks (s : State) (f : Stream → Stream) : (s.mapCur f).ricks = s.ricks := rfl
@[simp] theorem State.mapCur_wheel (s : State) (f : Stream → Stream) : (s.mapCur f).wheel = s.wheel := rfl
@[simp] theorem State.mapCur_waits (s : State) (f : Stream → Stream) : (s.mapCur f).waits = s.waits := rfl
@[simp] theorem State.mapCur_dies (s : State) (f : Stream → Stream) : (s.mapCur f).dies = s.dies := rfl
@[simp] theorem State.mapCur_drafts (s : State) (f : Stream → Stream) : (s.mapCur f).drafts = s.drafts := rfl
@[simp] theorem State.mapCur_groups (s : State) (f : Stream → Stream) : (s.mapCur f).groups = s.groups := rfl
@[simp] theorem State.mapCur_ash (s : State) (f : Stream → Stream) : (s.mapCur f).ash = s.ash := rfl
@[simp] theorem State.mapCur_ports (s : State) (f : Stream → Stream) : (s.mapCur f).ports = s.ports := rfl
@[simp] theorem State.mapCur_nodes (s : State) (f : Stream → Stream) : (s.mapCur f).nodes = s.nodes := rfl
@[simp] theorem State.mapCur_holders (s : State) (f : Stream → Stream) : (s.mapCur f).holders = s.holders := rfl
@[simp] theorem State.mapCur_outs (s : State) (f : Stream → Stream) : (s.mapCur f).outs = s.outs := rfl
@[simp] theorem State.mapCur_txseq (s : State) (f : Stream → Stream) : (s.mapCur f).txseq = s.txseq := rfl
@[simp] theorem State.mapCur_answers (s : State) (f : Stream → Stream) : (s.mapCur f).answers = s.answers := rfl
@[simp] theorem State.mapCur_colls (s : State) (f : Stream → Stream) : (s.mapCur f).colls = s.colls := rfl
@[simp] theorem State.mapCur_fns (s : State) (f : Stream → Stream) : (s.mapCur f).fns = s.fns := rfl
@[simp] theorem State.mapCur_host (s : State) (f : Stream → Stream) : (s.mapCur f).host = s.host := rfl
@[simp] theorem State.mapCur_mgmt (s : State) (f : Stream → Stream) : (s.mapCur f).mgmt = s.mgmt := rfl
@[simp] theorem State.mapCur_podpos (s : State) (f : Stream → Stream) : (s.mapCur f).podpos = s.podpos := rfl
@[simp] theorem State.mapCur_devw (s : State) (f : Stream → Stream) : (s.mapCur f).devw = s.devw := rfl
@[simp] theorem State.mapCur_boot (s : State) (f : Stream → Stream) : (s.mapCur f).boot = s.boot := rfl
@[simp] theorem State.mapCur_mslots (s : State) (f : Stream → Stream) : (s.mapCur f).mslots = s.mslots := rfl
@[simp] theorem State.mapCur_spdm (s : State) (f : Stream → Stream) : (s.mapCur f).spdm = s.spdm := rfl
@[simp] theorem State.mapCur_jobs (s : State) (f : Stream → Stream) : (s.mapCur f).jobs = s.jobs := rfl

@[simp] theorem State.setCore_turn (s : State) (c : Core) : (s.setCore c).turn = s.turn := rfl
@[simp] theorem State.setCore_who (s : State) (c : Core) : (s.setCore c).who = s.who := rfl
@[simp] theorem State.setCore_agenda (s : State) (c : Core) : (s.setCore c).agenda = s.agenda := rfl
@[simp] theorem State.setCore_cid (s : State) (c : Core) : (s.setCore c).cid = s.cid := rfl
@[simp] theorem State.setCore_others (s : State) (c : Core) : (s.setCore c).others = s.others := rfl
@[simp] theorem State.setCore_free (s : State) (c : Core) : (s.setCore c).free = s.free := rfl
@[simp] theorem State.setCore_cyc (s : State) (c : Core) : (s.setCore c).cyc = s.cyc := rfl
@[simp] theorem State.setCore_ftime (s : State) (c : Core) : (s.setCore c).ftime = s.ftime := rfl
@[simp] theorem State.setCore_frac (s : State) (c : Core) : (s.setCore c).frac = s.frac := rfl
@[simp] theorem State.setCore_mem (s : State) (c : Core) : (s.setCore c).mem = s.mem := rfl
@[simp] theorem State.setCore_keys (s : State) (c : Core) : (s.setCore c).keys = s.keys := rfl
@[simp] theorem State.setCore_poisoned (s : State) (c : Core) : (s.setCore c).poisoned = s.poisoned := rfl
@[simp] theorem State.setCore_faulty (s : State) (c : Core) : (s.setCore c).faulty = s.faulty := rfl
@[simp] theorem State.setCore_rowErrs (s : State) (c : Core) : (s.setCore c).rowErrs = s.rowErrs := rfl
@[simp] theorem State.setCore_view (s : State) (c : Core) : (s.setCore c).view = s.view := rfl
@[simp] theorem State.setCore_vkeys (s : State) (c : Core) : (s.setCore c).vkeys = s.vkeys := rfl
@[simp] theorem State.setCore_vlines (s : State) (c : Core) : (s.setCore c).vlines = s.vlines := rfl
@[simp] theorem State.setCore_slices (s : State) (c : Core) : (s.setCore c).slices = s.slices := rfl
@[simp] theorem State.setCore_leases (s : State) (c : Core) : (s.setCore c).leases = s.leases := rfl
@[simp] theorem State.setCore_kept (s : State) (c : Core) : (s.setCore c).kept = s.kept := rfl
@[simp] theorem State.setCore_hleases (s : State) (c : Core) : (s.setCore c).hleases = s.hleases := rfl
@[simp] theorem State.setCore_logs (s : State) (c : Core) : (s.setCore c).logs = s.logs := rfl
@[simp] theorem State.setCore_spois (s : State) (c : Core) : (s.setCore c).spois = s.spois := rfl
@[simp] theorem State.setCore_recalls (s : State) (c : Core) : (s.setCore c).recalls = s.recalls := rfl
@[simp] theorem State.setCore_accepted (s : State) (c : Core) : (s.setCore c).accepted = s.accepted := rfl
@[simp] theorem State.setCore_opens (s : State) (c : Core) : (s.setCore c).opens = s.opens := rfl
@[simp] theorem State.setCore_commits (s : State) (c : Core) : (s.setCore c).commits = s.commits := rfl
@[simp] theorem State.setCore_islands (s : State) (c : Core) : (s.setCore c).islands = s.islands := rfl
@[simp] theorem State.setCore_fixed (s : State) (c : Core) : (s.setCore c).fixed = s.fixed := rfl
@[simp] theorem State.setCore_shown (s : State) (c : Core) : (s.setCore c).shown = s.shown := rfl
@[simp] theorem State.setCore_rlogs (s : State) (c : Core) : (s.setCore c).rlogs = s.rlogs := rfl
@[simp] theorem State.setCore_logseq (s : State) (c : Core) : (s.setCore c).logseq = s.logseq := rfl
@[simp] theorem State.setCore_conts (s : State) (c : Core) : (s.setCore c).conts = s.conts := rfl
@[simp] theorem State.setCore_seals (s : State) (c : Core) : (s.setCore c).seals = s.seals := rfl
@[simp] theorem State.setCore_root (s : State) (c : Core) : (s.setCore c).root = s.root := rfl
@[simp] theorem State.setCore_tdir (s : State) (c : Core) : (s.setCore c).tdir = s.tdir := rfl
@[simp] theorem State.setCore_rot (s : State) (c : Core) : (s.setCore c).rot = s.rot := rfl
@[simp] theorem State.setCore_ricks (s : State) (c : Core) : (s.setCore c).ricks = s.ricks := rfl
@[simp] theorem State.setCore_wheel (s : State) (c : Core) : (s.setCore c).wheel = s.wheel := rfl
@[simp] theorem State.setCore_waits (s : State) (c : Core) : (s.setCore c).waits = s.waits := rfl
@[simp] theorem State.setCore_dies (s : State) (c : Core) : (s.setCore c).dies = s.dies := rfl
@[simp] theorem State.setCore_drafts (s : State) (c : Core) : (s.setCore c).drafts = s.drafts := rfl
@[simp] theorem State.setCore_groups (s : State) (c : Core) : (s.setCore c).groups = s.groups := rfl
@[simp] theorem State.setCore_ash (s : State) (c : Core) : (s.setCore c).ash = s.ash := rfl
@[simp] theorem State.setCore_ports (s : State) (c : Core) : (s.setCore c).ports = s.ports := rfl
@[simp] theorem State.setCore_nodes (s : State) (c : Core) : (s.setCore c).nodes = s.nodes := rfl
@[simp] theorem State.setCore_holders (s : State) (c : Core) : (s.setCore c).holders = s.holders := rfl
@[simp] theorem State.setCore_outs (s : State) (c : Core) : (s.setCore c).outs = s.outs := rfl
@[simp] theorem State.setCore_txseq (s : State) (c : Core) : (s.setCore c).txseq = s.txseq := rfl
@[simp] theorem State.setCore_answers (s : State) (c : Core) : (s.setCore c).answers = s.answers := rfl
@[simp] theorem State.setCore_colls (s : State) (c : Core) : (s.setCore c).colls = s.colls := rfl
@[simp] theorem State.setCore_fns (s : State) (c : Core) : (s.setCore c).fns = s.fns := rfl
@[simp] theorem State.setCore_host (s : State) (c : Core) : (s.setCore c).host = s.host := rfl
@[simp] theorem State.setCore_mgmt (s : State) (c : Core) : (s.setCore c).mgmt = s.mgmt := rfl
@[simp] theorem State.setCore_podpos (s : State) (c : Core) : (s.setCore c).podpos = s.podpos := rfl
@[simp] theorem State.setCore_devw (s : State) (c : Core) : (s.setCore c).devw = s.devw := rfl
@[simp] theorem State.setCore_boot (s : State) (c : Core) : (s.setCore c).boot = s.boot := rfl
@[simp] theorem State.setCore_mslots (s : State) (c : Core) : (s.setCore c).mslots = s.mslots := rfl
@[simp] theorem State.setCore_spdm (s : State) (c : Core) : (s.setCore c).spdm = s.spdm := rfl
@[simp] theorem State.setCore_jobs (s : State) (c : Core) : (s.setCore c).jobs = s.jobs := rfl

@[simp] theorem State.advance_turn (s : State) : (s.advance).turn = s.turn := rfl
@[simp] theorem State.advance_who (s : State) : (s.advance).who = s.who := rfl
@[simp] theorem State.advance_agenda (s : State) : (s.advance).agenda = s.agenda := rfl
@[simp] theorem State.advance_cid (s : State) : (s.advance).cid = s.cid := rfl
@[simp] theorem State.advance_others (s : State) : (s.advance).others = s.others := rfl
@[simp] theorem State.advance_free (s : State) : (s.advance).free = s.free := rfl
@[simp] theorem State.advance_cyc (s : State) : (s.advance).cyc = s.cyc := rfl
@[simp] theorem State.advance_ftime (s : State) : (s.advance).ftime = s.ftime := rfl
@[simp] theorem State.advance_frac (s : State) : (s.advance).frac = s.frac := rfl
@[simp] theorem State.advance_mem (s : State) : (s.advance).mem = s.mem := rfl
@[simp] theorem State.advance_keys (s : State) : (s.advance).keys = s.keys := rfl
@[simp] theorem State.advance_poisoned (s : State) : (s.advance).poisoned = s.poisoned := rfl
@[simp] theorem State.advance_faulty (s : State) : (s.advance).faulty = s.faulty := rfl
@[simp] theorem State.advance_rowErrs (s : State) : (s.advance).rowErrs = s.rowErrs := rfl
@[simp] theorem State.advance_view (s : State) : (s.advance).view = s.view := rfl
@[simp] theorem State.advance_vkeys (s : State) : (s.advance).vkeys = s.vkeys := rfl
@[simp] theorem State.advance_vlines (s : State) : (s.advance).vlines = s.vlines := rfl
@[simp] theorem State.advance_slices (s : State) : (s.advance).slices = s.slices := rfl
@[simp] theorem State.advance_leases (s : State) : (s.advance).leases = s.leases := rfl
@[simp] theorem State.advance_kept (s : State) : (s.advance).kept = s.kept := rfl
@[simp] theorem State.advance_hleases (s : State) : (s.advance).hleases = s.hleases := rfl
@[simp] theorem State.advance_logs (s : State) : (s.advance).logs = s.logs := rfl
@[simp] theorem State.advance_spois (s : State) : (s.advance).spois = s.spois := rfl
@[simp] theorem State.advance_recalls (s : State) : (s.advance).recalls = s.recalls := rfl
@[simp] theorem State.advance_accepted (s : State) : (s.advance).accepted = s.accepted := rfl
@[simp] theorem State.advance_opens (s : State) : (s.advance).opens = s.opens := rfl
@[simp] theorem State.advance_commits (s : State) : (s.advance).commits = s.commits := rfl
@[simp] theorem State.advance_islands (s : State) : (s.advance).islands = s.islands := rfl
@[simp] theorem State.advance_fixed (s : State) : (s.advance).fixed = s.fixed := rfl
@[simp] theorem State.advance_shown (s : State) : (s.advance).shown = s.shown := rfl
@[simp] theorem State.advance_rlogs (s : State) : (s.advance).rlogs = s.rlogs := rfl
@[simp] theorem State.advance_logseq (s : State) : (s.advance).logseq = s.logseq := rfl
@[simp] theorem State.advance_conts (s : State) : (s.advance).conts = s.conts := rfl
@[simp] theorem State.advance_seals (s : State) : (s.advance).seals = s.seals := rfl
@[simp] theorem State.advance_root (s : State) : (s.advance).root = s.root := rfl
@[simp] theorem State.advance_tdir (s : State) : (s.advance).tdir = s.tdir := rfl
@[simp] theorem State.advance_rot (s : State) : (s.advance).rot = s.rot := rfl
@[simp] theorem State.advance_ricks (s : State) : (s.advance).ricks = s.ricks := rfl
@[simp] theorem State.advance_wheel (s : State) : (s.advance).wheel = s.wheel := rfl
@[simp] theorem State.advance_waits (s : State) : (s.advance).waits = s.waits := rfl
@[simp] theorem State.advance_dies (s : State) : (s.advance).dies = s.dies := rfl
@[simp] theorem State.advance_drafts (s : State) : (s.advance).drafts = s.drafts := rfl
@[simp] theorem State.advance_groups (s : State) : (s.advance).groups = s.groups := rfl
@[simp] theorem State.advance_ash (s : State) : (s.advance).ash = s.ash := rfl
@[simp] theorem State.advance_ports (s : State) : (s.advance).ports = s.ports := rfl
@[simp] theorem State.advance_nodes (s : State) : (s.advance).nodes = s.nodes := rfl
@[simp] theorem State.advance_holders (s : State) : (s.advance).holders = s.holders := rfl
@[simp] theorem State.advance_outs (s : State) : (s.advance).outs = s.outs := rfl
@[simp] theorem State.advance_txseq (s : State) : (s.advance).txseq = s.txseq := rfl
@[simp] theorem State.advance_answers (s : State) : (s.advance).answers = s.answers := rfl
@[simp] theorem State.advance_colls (s : State) : (s.advance).colls = s.colls := rfl
@[simp] theorem State.advance_fns (s : State) : (s.advance).fns = s.fns := rfl
@[simp] theorem State.advance_host (s : State) : (s.advance).host = s.host := rfl
@[simp] theorem State.advance_mgmt (s : State) : (s.advance).mgmt = s.mgmt := rfl
@[simp] theorem State.advance_podpos (s : State) : (s.advance).podpos = s.podpos := rfl
@[simp] theorem State.advance_devw (s : State) : (s.advance).devw = s.devw := rfl
@[simp] theorem State.advance_boot (s : State) : (s.advance).boot = s.boot := rfl
@[simp] theorem State.advance_mslots (s : State) : (s.advance).mslots = s.mslots := rfl
@[simp] theorem State.advance_spdm (s : State) : (s.advance).spdm = s.spdm := rfl
@[simp] theorem State.advance_jobs (s : State) : (s.advance).jobs = s.jobs := rfl

@[simp] theorem State.markIssued_turn (s : State) : (s.markIssued).turn = s.turn := rfl
@[simp] theorem State.markIssued_who (s : State) : (s.markIssued).who = s.who := rfl
@[simp] theorem State.markIssued_agenda (s : State) : (s.markIssued).agenda = s.agenda := rfl
@[simp] theorem State.markIssued_cid (s : State) : (s.markIssued).cid = s.cid := rfl
@[simp] theorem State.markIssued_others (s : State) : (s.markIssued).others = s.others := rfl
@[simp] theorem State.markIssued_free (s : State) : (s.markIssued).free = s.free := rfl
@[simp] theorem State.markIssued_cyc (s : State) : (s.markIssued).cyc = s.cyc := rfl
@[simp] theorem State.markIssued_ftime (s : State) : (s.markIssued).ftime = s.ftime := rfl
@[simp] theorem State.markIssued_frac (s : State) : (s.markIssued).frac = s.frac := rfl
@[simp] theorem State.markIssued_mem (s : State) : (s.markIssued).mem = s.mem := rfl
@[simp] theorem State.markIssued_keys (s : State) : (s.markIssued).keys = s.keys := rfl
@[simp] theorem State.markIssued_poisoned (s : State) : (s.markIssued).poisoned = s.poisoned := rfl
@[simp] theorem State.markIssued_faulty (s : State) : (s.markIssued).faulty = s.faulty := rfl
@[simp] theorem State.markIssued_rowErrs (s : State) : (s.markIssued).rowErrs = s.rowErrs := rfl
@[simp] theorem State.markIssued_view (s : State) : (s.markIssued).view = s.view := rfl
@[simp] theorem State.markIssued_vkeys (s : State) : (s.markIssued).vkeys = s.vkeys := rfl
@[simp] theorem State.markIssued_vlines (s : State) : (s.markIssued).vlines = s.vlines := rfl
@[simp] theorem State.markIssued_slices (s : State) : (s.markIssued).slices = s.slices := rfl
@[simp] theorem State.markIssued_leases (s : State) : (s.markIssued).leases = s.leases := rfl
@[simp] theorem State.markIssued_kept (s : State) : (s.markIssued).kept = s.kept := rfl
@[simp] theorem State.markIssued_hleases (s : State) : (s.markIssued).hleases = s.hleases := rfl
@[simp] theorem State.markIssued_logs (s : State) : (s.markIssued).logs = s.logs := rfl
@[simp] theorem State.markIssued_spois (s : State) : (s.markIssued).spois = s.spois := rfl
@[simp] theorem State.markIssued_recalls (s : State) : (s.markIssued).recalls = s.recalls := rfl
@[simp] theorem State.markIssued_accepted (s : State) : (s.markIssued).accepted = s.accepted := rfl
@[simp] theorem State.markIssued_opens (s : State) : (s.markIssued).opens = s.opens := rfl
@[simp] theorem State.markIssued_commits (s : State) : (s.markIssued).commits = s.commits := rfl
@[simp] theorem State.markIssued_islands (s : State) : (s.markIssued).islands = s.islands := rfl
@[simp] theorem State.markIssued_fixed (s : State) : (s.markIssued).fixed = s.fixed := rfl
@[simp] theorem State.markIssued_shown (s : State) : (s.markIssued).shown = s.shown := rfl
@[simp] theorem State.markIssued_rlogs (s : State) : (s.markIssued).rlogs = s.rlogs := rfl
@[simp] theorem State.markIssued_logseq (s : State) : (s.markIssued).logseq = s.logseq := rfl
@[simp] theorem State.markIssued_conts (s : State) : (s.markIssued).conts = s.conts := rfl
@[simp] theorem State.markIssued_seals (s : State) : (s.markIssued).seals = s.seals := rfl
@[simp] theorem State.markIssued_root (s : State) : (s.markIssued).root = s.root := rfl
@[simp] theorem State.markIssued_tdir (s : State) : (s.markIssued).tdir = s.tdir := rfl
@[simp] theorem State.markIssued_rot (s : State) : (s.markIssued).rot = s.rot := rfl
@[simp] theorem State.markIssued_ricks (s : State) : (s.markIssued).ricks = s.ricks := rfl
@[simp] theorem State.markIssued_wheel (s : State) : (s.markIssued).wheel = s.wheel := rfl
@[simp] theorem State.markIssued_waits (s : State) : (s.markIssued).waits = s.waits := rfl
@[simp] theorem State.markIssued_dies (s : State) : (s.markIssued).dies = s.dies := rfl
@[simp] theorem State.markIssued_drafts (s : State) : (s.markIssued).drafts = s.drafts := rfl
@[simp] theorem State.markIssued_groups (s : State) : (s.markIssued).groups = s.groups := rfl
@[simp] theorem State.markIssued_ash (s : State) : (s.markIssued).ash = s.ash := rfl
@[simp] theorem State.markIssued_ports (s : State) : (s.markIssued).ports = s.ports := rfl
@[simp] theorem State.markIssued_nodes (s : State) : (s.markIssued).nodes = s.nodes := rfl
@[simp] theorem State.markIssued_holders (s : State) : (s.markIssued).holders = s.holders := rfl
@[simp] theorem State.markIssued_outs (s : State) : (s.markIssued).outs = s.outs := rfl
@[simp] theorem State.markIssued_txseq (s : State) : (s.markIssued).txseq = s.txseq := rfl
@[simp] theorem State.markIssued_answers (s : State) : (s.markIssued).answers = s.answers := rfl
@[simp] theorem State.markIssued_colls (s : State) : (s.markIssued).colls = s.colls := rfl
@[simp] theorem State.markIssued_fns (s : State) : (s.markIssued).fns = s.fns := rfl
@[simp] theorem State.markIssued_host (s : State) : (s.markIssued).host = s.host := rfl
@[simp] theorem State.markIssued_mgmt (s : State) : (s.markIssued).mgmt = s.mgmt := rfl
@[simp] theorem State.markIssued_podpos (s : State) : (s.markIssued).podpos = s.podpos := rfl
@[simp] theorem State.markIssued_devw (s : State) : (s.markIssued).devw = s.devw := rfl
@[simp] theorem State.markIssued_boot (s : State) : (s.markIssued).boot = s.boot := rfl
@[simp] theorem State.markIssued_mslots (s : State) : (s.markIssued).mslots = s.mslots := rfl
@[simp] theorem State.markIssued_spdm (s : State) : (s.markIssued).spdm = s.spdm := rfl
@[simp] theorem State.markIssued_jobs (s : State) : (s.markIssued).jobs = s.jobs := rfl

@[simp] theorem State.setCur_core_phase (s : State) (x : Stream) : (s.setCur x).core.phase = s.core.phase := by simp [State.setCur]
@[simp] theorem State.setCur_core_ldq (s : State) (x : Stream) : (s.setCur x).core.ldq = s.core.ldq := by simp [State.setCur]
@[simp] theorem State.setCur_core_sdq (s : State) (x : Stream) : (s.setCur x).core.sdq = s.core.sdq := by simp [State.setCur]
@[simp] theorem State.setCur_core_bq (s : State) (x : Stream) : (s.setCur x).core.bq = s.core.bq := by simp [State.setCur]
@[simp] theorem State.setCur_core_accs (s : State) (x : Stream) : (s.setCur x).core.accs = s.core.accs := by simp [State.setCur]
@[simp] theorem State.setCur_core_nextId (s : State) (x : Stream) : (s.setCur x).core.nextId = s.core.nextId := by simp [State.setCur]
@[simp] theorem State.setCur_core_sh (s : State) (x : Stream) : (s.setCur x).core.sh = s.core.sh := by simp [State.setCur]
@[simp] theorem State.setCur_core_mreg (s : State) (x : Stream) : (s.setCur x).core.mreg = s.core.mreg := by simp [State.setCur]
@[simp] theorem State.setCur_core_shS (s : State) (x : Stream) : (s.setCur x).core.shS = s.core.shS := by simp [State.setCur]
@[simp] theorem State.setCur_core_mregS (s : State) (x : Stream) : (s.setCur x).core.mregS = s.core.mregS := by simp [State.setCur]
@[simp] theorem State.setCur_core_tile (s : State) (x : Stream) : (s.setCur x).core.tile = s.core.tile := by simp [State.setCur]
@[simp] theorem State.setCur_core_wb (s : State) (x : Stream) : (s.setCur x).core.wb = s.core.wb := by simp [State.setCur]
@[simp] theorem State.setCur_core_accs32 (s : State) (x : Stream) : (s.setCur x).core.accs32 = s.core.accs32 := by simp [State.setCur]
@[simp] theorem State.setCur_core_caps (s : State) (x : Stream) : (s.setCur x).core.caps = s.core.caps := by simp [State.setCur]
@[simp] theorem State.setCur_core_smap (s : State) (x : Stream) : (s.setCur x).core.smap = s.core.smap := by simp [State.setCur]
@[simp] theorem State.setCur_core_sems (s : State) (x : Stream) : (s.setCur x).core.sems = s.core.sems := by simp [State.setCur]
@[simp] theorem State.setCur_core_defq (s : State) (x : Stream) : (s.setCur x).core.defq = s.core.defq := by simp [State.setCur]
@[simp] theorem State.setCur_core_mtx (s : State) (x : Stream) : (s.setCur x).core.mtx = s.core.mtx := by simp [State.setCur]
@[simp] theorem State.setCur_core_copy (s : State) (x : Stream) : (s.setCur x).core.copy = s.core.copy := by simp [State.setCur]
@[simp] theorem State.setCur_core_cstat (s : State) (x : Stream) : (s.setCur x).core.cstat = s.core.cstat := by simp [State.setCur]
@[simp] theorem State.setCur_core_fq (s : State) (x : Stream) : (s.setCur x).core.fq = s.core.fq := by simp [State.setCur]
@[simp] theorem State.setCur_core_ending (s : State) (x : Stream) : (s.setCur x).core.ending = s.core.ending := by simp [State.setCur]
@[simp] theorem State.setCur_core_ctx (s : State) (x : Stream) : (s.setCur x).core.ctx = s.core.ctx := by simp [State.setCur]
@[simp] theorem State.setCur_core_chk (s : State) (x : Stream) : (s.setCur x).core.chk = s.core.chk := by simp [State.setCur]
@[simp] theorem State.setCur_core_seed (s : State) (x : Stream) : (s.setCur x).core.seed = s.core.seed := by simp [State.setCur]
@[simp] theorem State.setCur_core_abftTol (s : State) (x : Stream) : (s.setCur x).core.abftTol = s.core.abftTol := by simp [State.setCur]
@[simp] theorem State.setCur_core_abftCnt (s : State) (x : Stream) : (s.setCur x).core.abftCnt = s.core.abftCnt := by simp [State.setCur]
@[simp] theorem State.setCur_core_accinj (s : State) (x : Stream) : (s.setCur x).core.accinj = s.core.accinj := by simp [State.setCur]
@[simp] theorem State.setCur_core_displo (s : State) (x : Stream) : (s.setCur x).core.displo = s.core.displo := by simp [State.setCur]
@[simp] theorem State.setCur_core_disphi (s : State) (x : Stream) : (s.setCur x).core.disphi = s.core.disphi := by simp [State.setCur]
@[simp] theorem State.setCur_core_hndlc (s : State) (x : Stream) : (s.setCur x).core.hndlc = s.core.hndlc := by simp [State.setCur]
@[simp] theorem State.setCur_core_hndls (s : State) (x : Stream) : (s.setCur x).core.hndls = s.core.hndls := by simp [State.setCur]
@[simp] theorem State.setCur_core_wdlim (s : State) (x : Stream) : (s.setCur x).core.wdlim = s.core.wdlim := by simp [State.setCur]
@[simp] theorem State.setCur_core_evpend (s : State) (x : Stream) : (s.setCur x).core.evpend = s.core.evpend := by simp [State.setCur]
@[simp] theorem State.setCur_core_evmask (s : State) (x : Stream) : (s.setCur x).core.evmask = s.core.evmask := by simp [State.setCur]
@[simp] theorem State.setCur_core_svec (s : State) (x : Stream) : (s.setCur x).core.svec = s.core.svec := by simp [State.setCur]
@[simp] theorem State.setCur_core_wbTag (s : State) (x : Stream) : (s.setCur x).core.wbTag = s.core.wbTag := by simp [State.setCur]
@[simp] theorem State.setCur_core_lastTen (s : State) (x : Stream) : (s.setCur x).core.lastTen = s.core.lastTen := by simp [State.setCur]
@[simp] theorem State.setCur_core_idleAt (s : State) (x : Stream) : (s.setCur x).core.idleAt = s.core.idleAt := by simp [State.setCur]
@[simp] theorem State.setCur_core_l1 (s : State) (x : Stream) : (s.setCur x).core.l1 = s.core.l1 := by simp [State.setCur]
@[simp] theorem State.setCur_core_icache (s : State) (x : Stream) : (s.setCur x).core.icache = s.core.icache := by simp [State.setCur]
@[simp] theorem State.setCur_core_tlb (s : State) (x : Stream) : (s.setCur x).core.tlb = s.core.tlb := by simp [State.setCur]
@[simp] theorem State.setCur_core_ccache (s : State) (x : Stream) : (s.setCur x).core.ccache = s.core.ccache := by simp [State.setCur]
@[simp] theorem State.setCur_core_heldClk (s : State) (x : Stream) : (s.setCur x).core.heldClk = s.core.heldClk := by simp [State.setCur]
@[simp] theorem State.setCur_core_issued (s : State) (x : Stream) : (s.setCur x).core.issued = s.core.issued := by simp [State.setCur]
@[simp] theorem State.setCur_core_asked (s : State) (x : Stream) : (s.setCur x).core.asked = s.core.asked := by simp [State.setCur]

@[simp] theorem State.mapCur_core_phase (s : State) (f : Stream → Stream) : (s.mapCur f).core.phase = s.core.phase := by simp [State.mapCur]
@[simp] theorem State.mapCur_core_ldq (s : State) (f : Stream → Stream) : (s.mapCur f).core.ldq = s.core.ldq := by simp [State.mapCur]
@[simp] theorem State.mapCur_core_sdq (s : State) (f : Stream → Stream) : (s.mapCur f).core.sdq = s.core.sdq := by simp [State.mapCur]
@[simp] theorem State.mapCur_core_bq (s : State) (f : Stream → Stream) : (s.mapCur f).core.bq = s.core.bq := by simp [State.mapCur]
@[simp] theorem State.mapCur_core_accs (s : State) (f : Stream → Stream) : (s.mapCur f).core.accs = s.core.accs := by simp [State.mapCur]
@[simp] theorem State.mapCur_core_nextId (s : State) (f : Stream → Stream) : (s.mapCur f).core.nextId = s.core.nextId := by simp [State.mapCur]
@[simp] theorem State.mapCur_core_sh (s : State) (f : Stream → Stream) : (s.mapCur f).core.sh = s.core.sh := by simp [State.mapCur]
@[simp] theorem State.mapCur_core_mreg (s : State) (f : Stream → Stream) : (s.mapCur f).core.mreg = s.core.mreg := by simp [State.mapCur]
@[simp] theorem State.mapCur_core_shS (s : State) (f : Stream → Stream) : (s.mapCur f).core.shS = s.core.shS := by simp [State.mapCur]
@[simp] theorem State.mapCur_core_mregS (s : State) (f : Stream → Stream) : (s.mapCur f).core.mregS = s.core.mregS := by simp [State.mapCur]
@[simp] theorem State.mapCur_core_tile (s : State) (f : Stream → Stream) : (s.mapCur f).core.tile = s.core.tile := by simp [State.mapCur]
@[simp] theorem State.mapCur_core_wb (s : State) (f : Stream → Stream) : (s.mapCur f).core.wb = s.core.wb := by simp [State.mapCur]
@[simp] theorem State.mapCur_core_accs32 (s : State) (f : Stream → Stream) : (s.mapCur f).core.accs32 = s.core.accs32 := by simp [State.mapCur]
@[simp] theorem State.mapCur_core_caps (s : State) (f : Stream → Stream) : (s.mapCur f).core.caps = s.core.caps := by simp [State.mapCur]
@[simp] theorem State.mapCur_core_smap (s : State) (f : Stream → Stream) : (s.mapCur f).core.smap = s.core.smap := by simp [State.mapCur]
@[simp] theorem State.mapCur_core_sems (s : State) (f : Stream → Stream) : (s.mapCur f).core.sems = s.core.sems := by simp [State.mapCur]
@[simp] theorem State.mapCur_core_defq (s : State) (f : Stream → Stream) : (s.mapCur f).core.defq = s.core.defq := by simp [State.mapCur]
@[simp] theorem State.mapCur_core_mtx (s : State) (f : Stream → Stream) : (s.mapCur f).core.mtx = s.core.mtx := by simp [State.mapCur]
@[simp] theorem State.mapCur_core_copy (s : State) (f : Stream → Stream) : (s.mapCur f).core.copy = s.core.copy := by simp [State.mapCur]
@[simp] theorem State.mapCur_core_cstat (s : State) (f : Stream → Stream) : (s.mapCur f).core.cstat = s.core.cstat := by simp [State.mapCur]
@[simp] theorem State.mapCur_core_fq (s : State) (f : Stream → Stream) : (s.mapCur f).core.fq = s.core.fq := by simp [State.mapCur]
@[simp] theorem State.mapCur_core_ending (s : State) (f : Stream → Stream) : (s.mapCur f).core.ending = s.core.ending := by simp [State.mapCur]
@[simp] theorem State.mapCur_core_ctx (s : State) (f : Stream → Stream) : (s.mapCur f).core.ctx = s.core.ctx := by simp [State.mapCur]
@[simp] theorem State.mapCur_core_chk (s : State) (f : Stream → Stream) : (s.mapCur f).core.chk = s.core.chk := by simp [State.mapCur]
@[simp] theorem State.mapCur_core_seed (s : State) (f : Stream → Stream) : (s.mapCur f).core.seed = s.core.seed := by simp [State.mapCur]
@[simp] theorem State.mapCur_core_abftTol (s : State) (f : Stream → Stream) : (s.mapCur f).core.abftTol = s.core.abftTol := by simp [State.mapCur]
@[simp] theorem State.mapCur_core_abftCnt (s : State) (f : Stream → Stream) : (s.mapCur f).core.abftCnt = s.core.abftCnt := by simp [State.mapCur]
@[simp] theorem State.mapCur_core_accinj (s : State) (f : Stream → Stream) : (s.mapCur f).core.accinj = s.core.accinj := by simp [State.mapCur]
@[simp] theorem State.mapCur_core_displo (s : State) (f : Stream → Stream) : (s.mapCur f).core.displo = s.core.displo := by simp [State.mapCur]
@[simp] theorem State.mapCur_core_disphi (s : State) (f : Stream → Stream) : (s.mapCur f).core.disphi = s.core.disphi := by simp [State.mapCur]
@[simp] theorem State.mapCur_core_hndlc (s : State) (f : Stream → Stream) : (s.mapCur f).core.hndlc = s.core.hndlc := by simp [State.mapCur]
@[simp] theorem State.mapCur_core_hndls (s : State) (f : Stream → Stream) : (s.mapCur f).core.hndls = s.core.hndls := by simp [State.mapCur]
@[simp] theorem State.mapCur_core_wdlim (s : State) (f : Stream → Stream) : (s.mapCur f).core.wdlim = s.core.wdlim := by simp [State.mapCur]
@[simp] theorem State.mapCur_core_evpend (s : State) (f : Stream → Stream) : (s.mapCur f).core.evpend = s.core.evpend := by simp [State.mapCur]
@[simp] theorem State.mapCur_core_evmask (s : State) (f : Stream → Stream) : (s.mapCur f).core.evmask = s.core.evmask := by simp [State.mapCur]
@[simp] theorem State.mapCur_core_svec (s : State) (f : Stream → Stream) : (s.mapCur f).core.svec = s.core.svec := by simp [State.mapCur]
@[simp] theorem State.mapCur_core_wbTag (s : State) (f : Stream → Stream) : (s.mapCur f).core.wbTag = s.core.wbTag := by simp [State.mapCur]
@[simp] theorem State.mapCur_core_lastTen (s : State) (f : Stream → Stream) : (s.mapCur f).core.lastTen = s.core.lastTen := by simp [State.mapCur]
@[simp] theorem State.mapCur_core_idleAt (s : State) (f : Stream → Stream) : (s.mapCur f).core.idleAt = s.core.idleAt := by simp [State.mapCur]
@[simp] theorem State.mapCur_core_l1 (s : State) (f : Stream → Stream) : (s.mapCur f).core.l1 = s.core.l1 := by simp [State.mapCur]
@[simp] theorem State.mapCur_core_icache (s : State) (f : Stream → Stream) : (s.mapCur f).core.icache = s.core.icache := by simp [State.mapCur]
@[simp] theorem State.mapCur_core_tlb (s : State) (f : Stream → Stream) : (s.mapCur f).core.tlb = s.core.tlb := by simp [State.mapCur]
@[simp] theorem State.mapCur_core_ccache (s : State) (f : Stream → Stream) : (s.mapCur f).core.ccache = s.core.ccache := by simp [State.mapCur]
@[simp] theorem State.mapCur_core_heldClk (s : State) (f : Stream → Stream) : (s.mapCur f).core.heldClk = s.core.heldClk := by simp [State.mapCur]
@[simp] theorem State.mapCur_core_issued (s : State) (f : Stream → Stream) : (s.mapCur f).core.issued = s.core.issued := by simp [State.mapCur]
@[simp] theorem State.mapCur_core_asked (s : State) (f : Stream → Stream) : (s.mapCur f).core.asked = s.core.asked := by simp [State.mapCur]

@[simp] theorem State.markIssued_core_phase (s : State) : (s.markIssued).core.phase = s.core.phase := by
  simp [State.markIssued]
@[simp] theorem State.markIssued_core_ldq (s : State) : (s.markIssued).core.ldq = s.core.ldq := by
  simp [State.markIssued]
@[simp] theorem State.markIssued_core_sdq (s : State) : (s.markIssued).core.sdq = s.core.sdq := by
  simp [State.markIssued]
@[simp] theorem State.markIssued_core_bq (s : State) : (s.markIssued).core.bq = s.core.bq := by
  simp [State.markIssued]
@[simp] theorem State.markIssued_core_accs (s : State) : (s.markIssued).core.accs = s.core.accs := by
  simp [State.markIssued]
@[simp] theorem State.markIssued_core_nextId (s : State) : (s.markIssued).core.nextId = s.core.nextId := by
  simp [State.markIssued]
@[simp] theorem State.markIssued_core_sh (s : State) : (s.markIssued).core.sh = s.core.sh := by
  simp [State.markIssued]
@[simp] theorem State.markIssued_core_mreg (s : State) : (s.markIssued).core.mreg = s.core.mreg := by
  simp [State.markIssued]
@[simp] theorem State.markIssued_core_shS (s : State) : (s.markIssued).core.shS = s.core.shS := by
  simp [State.markIssued]
@[simp] theorem State.markIssued_core_mregS (s : State) : (s.markIssued).core.mregS = s.core.mregS := by
  simp [State.markIssued]
@[simp] theorem State.markIssued_core_tile (s : State) : (s.markIssued).core.tile = s.core.tile := by
  simp [State.markIssued]
@[simp] theorem State.markIssued_core_wb (s : State) : (s.markIssued).core.wb = s.core.wb := by
  simp [State.markIssued]
@[simp] theorem State.markIssued_core_accs32 (s : State) : (s.markIssued).core.accs32 = s.core.accs32 := by
  simp [State.markIssued]
@[simp] theorem State.markIssued_core_caps (s : State) : (s.markIssued).core.caps = s.core.caps := by
  simp [State.markIssued]
@[simp] theorem State.markIssued_core_smap (s : State) : (s.markIssued).core.smap = s.core.smap := by
  simp [State.markIssued]
@[simp] theorem State.markIssued_core_sems (s : State) : (s.markIssued).core.sems = s.core.sems := by
  simp [State.markIssued]
@[simp] theorem State.markIssued_core_defq (s : State) : (s.markIssued).core.defq = s.core.defq := by
  simp [State.markIssued]
@[simp] theorem State.markIssued_core_mtx (s : State) : (s.markIssued).core.mtx = s.core.mtx := by
  simp [State.markIssued]
@[simp] theorem State.markIssued_core_copy (s : State) : (s.markIssued).core.copy = s.core.copy := by
  simp [State.markIssued]
@[simp] theorem State.markIssued_core_cstat (s : State) : (s.markIssued).core.cstat = s.core.cstat := by
  simp [State.markIssued]
@[simp] theorem State.markIssued_core_fq (s : State) : (s.markIssued).core.fq = s.core.fq := by
  simp [State.markIssued]
@[simp] theorem State.markIssued_core_ending (s : State) : (s.markIssued).core.ending = s.core.ending := by
  simp [State.markIssued]
@[simp] theorem State.markIssued_core_ctx (s : State) : (s.markIssued).core.ctx = s.core.ctx := by
  simp [State.markIssued]
@[simp] theorem State.markIssued_core_chk (s : State) : (s.markIssued).core.chk = s.core.chk := by
  simp [State.markIssued]
@[simp] theorem State.markIssued_core_seed (s : State) : (s.markIssued).core.seed = s.core.seed := by
  simp [State.markIssued]
@[simp] theorem State.markIssued_core_abftTol (s : State) : (s.markIssued).core.abftTol = s.core.abftTol := by
  simp [State.markIssued]
@[simp] theorem State.markIssued_core_abftCnt (s : State) : (s.markIssued).core.abftCnt = s.core.abftCnt := by
  simp [State.markIssued]
@[simp] theorem State.markIssued_core_accinj (s : State) : (s.markIssued).core.accinj = s.core.accinj := by
  simp [State.markIssued]
@[simp] theorem State.markIssued_core_displo (s : State) : (s.markIssued).core.displo = s.core.displo := by
  simp [State.markIssued]
@[simp] theorem State.markIssued_core_disphi (s : State) : (s.markIssued).core.disphi = s.core.disphi := by
  simp [State.markIssued]
@[simp] theorem State.markIssued_core_hndlc (s : State) : (s.markIssued).core.hndlc = s.core.hndlc := by
  simp [State.markIssued]
@[simp] theorem State.markIssued_core_hndls (s : State) : (s.markIssued).core.hndls = s.core.hndls := by
  simp [State.markIssued]
@[simp] theorem State.markIssued_core_wdlim (s : State) : (s.markIssued).core.wdlim = s.core.wdlim := by
  simp [State.markIssued]
@[simp] theorem State.markIssued_core_evpend (s : State) : (s.markIssued).core.evpend = s.core.evpend := by
  simp [State.markIssued]
@[simp] theorem State.markIssued_core_evmask (s : State) : (s.markIssued).core.evmask = s.core.evmask := by
  simp [State.markIssued]
@[simp] theorem State.markIssued_core_svec (s : State) : (s.markIssued).core.svec = s.core.svec := by
  simp [State.markIssued]
@[simp] theorem State.markIssued_core_wbTag (s : State) : (s.markIssued).core.wbTag = s.core.wbTag := by
  simp [State.markIssued]
@[simp] theorem State.markIssued_core_lastTen (s : State) : (s.markIssued).core.lastTen = s.core.lastTen := by
  simp [State.markIssued]
@[simp] theorem State.markIssued_core_idleAt (s : State) : (s.markIssued).core.idleAt = s.core.idleAt := by
  simp [State.markIssued]
@[simp] theorem State.markIssued_core_l1 (s : State) : (s.markIssued).core.l1 = s.core.l1 := by
  simp [State.markIssued]
@[simp] theorem State.markIssued_core_icache (s : State) : (s.markIssued).core.icache = s.core.icache := by
  simp [State.markIssued]
@[simp] theorem State.markIssued_core_tlb (s : State) : (s.markIssued).core.tlb = s.core.tlb := by
  simp [State.markIssued]
@[simp] theorem State.markIssued_core_ccache (s : State) : (s.markIssued).core.ccache = s.core.ccache := by
  simp [State.markIssued]
@[simp] theorem State.markIssued_core_heldClk (s : State) : (s.markIssued).core.heldClk = s.core.heldClk := by
  simp [State.markIssued]
@[simp] theorem State.markIssued_core_asked (s : State) : (s.markIssued).core.asked = s.core.asked := by
  simp [State.markIssued]

/-! ### The stream that issues -/

@[simp] theorem State.cur_setCur (s : State) (x : Stream) : (s.setCur x).cur = x := by simp [State.cur, State.setCur]
@[simp] theorem State.cur_mapCur (s : State) (f : Stream → Stream) : (s.mapCur f).cur = f s.cur := by simp [State.mapCur]
@[simp] theorem State.setCore_core (s : State) (c : Core) : (s.setCore c).core = c := rfl
@[simp] theorem State.mapCur_core (s : State) (f : Stream → Stream) : (s.mapCur f).core = s.core.setStrm s.who (f s.cur) := rfl

theorem State.markIssued_cur (s : State) : s.markIssued.cur = { s.cur with hold := .issuing } := by
  unfold State.markIssued State.mapCur State.setCur State.cur Core.setStrm Core.strm
  cases s.who <;> rfl

@[simp] theorem State.markIssued_issued (s : State) : s.markIssued.core.issued = true := rfl
@[simp] theorem State.markIssued_tenant (s : State) : s.markIssued.tenant = s.tenant := by simp [State.tenant]
@[simp] theorem State.markIssued_qCount (s : State) (q : Fin 8) : s.markIssued.core.qCount q = s.core.qCount q := by
  simp [Core.qCount]

theorem State.markIssued_strm_ne (s : State) {k : Strm} (h : k ≠ s.who) : s.markIssued.core.strm k = s.core.strm k := by
  unfold State.markIssued State.mapCur State.setCur Core.setStrm Core.strm
  cases hw : s.who <;> cases k <;> simp_all

/-! ### Registers, predicates, queues -/

theorem Stream.pred_zero (x : Stream) : x.pred 0 = true := rfl
@[simp] theorem Stream.setPred_zero (x : Stream) (b : Bool) : x.setPred 0 b = x := rfl

theorem Stream.pred_setPred (x : Stream) (k : Fin 8) (b : Bool) (h : k ≠ 0) : (x.setPred k b).pred k = b := by
  simp [Stream.setPred, Stream.pred, h]

theorem Stream.pred_setPred_ne (x : Stream) {j k : Fin 8} (b : Bool) (h : j ≠ k) : (x.setPred k b).pred j = x.pred j := by
  unfold Stream.setPred Stream.pred
  split
  · rfl
  · have : k.val ≠ j.val := fun e => h (Fin.ext e.symm)
    simp [Vector.getElem_set_ne, this]

/-- What writes only the core leaves the rest of the machine as it was. -/
theorem sameOutside_core (s : State) (c : Core) : sameOutside s { s with core := c } := rfl

theorem sameOutside_setCur (s : State) (x : Stream) : sameOutside s (s.setCur x) := rfl
theorem sameOutside_mapCur (s : State) (f : Stream → Stream) : sameOutside s (s.mapCur f) := rfl
theorem sameOutside_markIssued (s : State) : sameOutside s s.markIssued := rfl
theorem sameOutside_advance (s : State) : sameOutside s s.advance := rfl
theorem sameOutside_stall (s : State) (k : Hold) : sameOutside s (s.stall k) := rfl
theorem sameOutside_putN (s : State) (k : Fin 16) (v : Word) : sameOutside s (s.putN k v) := rfl
theorem sameOutside_putPred (s : State) (k : Fin 8) (b : Bool) : sameOutside s (s.putPred k b) := rfl
theorem sameOutside_putDst (s : State) (d : Dst) (v : Word) : sameOutside s (s.putDst d v) := by cases d <;> rfl
theorem sameOutside_popSrc (s : State) (a : Src) : sameOutside s (s.popSrc a) := by cases a <;> rfl
theorem sameOutside_gotoWord (s : State) (a : BitVec 32) : sameOutside s (s.gotoWord a) := rfl
theorem sameOutside_gotoHeader (s : State) (a : BitVec 32) : sameOutside s (s.gotoHeader a) := rfl

theorem sameOutside_trans {s t u : State} (h1 : sameOutside s t) (h2 : sameOutside t u) : sameOutside s u := by
  unfold sameOutside at *
  rw [← h1, ← h2]

theorem sameOutside_popAll (srcs : List Src) (s : State) : sameOutside s (s.popAll srcs) := by
  induction srcs generalizing s with
  | nil => rfl
  | cons a l ih => exact sameOutside_trans (sameOutside_popSrc s a) (ih (s.popSrc a))

theorem sameOutside_finish (s : State) (u : Use) : sameOutside s (s.finish u) :=
  sameOutside_trans (sameOutside_popAll u.srcs s) (sameOutside_advance _)

theorem sameOutside_mem {s t : State} (h : sameOutside s t) : t.mem = s.mem := by unfold sameOutside at h; rw [← h]
theorem sameOutside_who {s t : State} (h : sameOutside s t) : t.who = s.who := by unfold sameOutside at h; rw [← h]
theorem sameOutside_cid {s t : State} (h : sameOutside s t) : t.cid = s.cid := by unfold sameOutside at h; rw [← h]

end Sys2Proof.Machine
end

