-- ==== Sys2Proof/Laws/Ctrl.lean ====
section
/-!
SUPPORT. Where transfers lead, what end instructions and accesses come to, and when a privileged instruction traps: one lemma for
each shared operation of these.
-/

namespace Sys2Proof.Machine

/-! ### Transfers -/

theorem wordIn_wordAddr {hdr : BitVec 32} {len : BitVec 16} {i : Nat} (hi : i < len.toNat) :
    wordIn hdr len (wordAddr hdr i) = some i := by
  have e : hdr + BitVec.ofNat 32 (2 + 3 * i) - hdr - 2 = BitVec.ofNat 32 (3 * i) := by
    rw [Nat.add_comm 2, BitVec.ofNat_add]
    generalize BitVec.ofNat 32 (3 * i) = x
    bv_omega
  have h : (hdr + BitVec.ofNat 32 (2 + 3 * i) - hdr - 2).toNat = 3 * i := by
    have := len.isLt
    rw [e, BitVec.toNat_ofNat, Nat.mod_eq_of_lt (by omega)]
  simp only [wordIn, wordAddr, h]
  simp
  omega

theorem amongWords_of {hdr : BitVec 32} {len : BitVec 16} {a : BitVec 32} {i : Nat} (h : wordIn hdr len a = some i) :
    amongWords hdr len a = true := by
  unfold wordIn at h
  unfold amongWords
  simp only [Bool.and_eq_true, decide_eq_true_eq] at h ⊢
  split at h <;> simp_all

/-- A transfer goes where its target leads. -/
theorem transfer_of {s : State} {a : BitVec 32} {t : State} (h : LeadsTo s a t) : s.transfer a = .to t := by
  rcases h with ⟨i, hi, rfl, rfl⟩ | ⟨h1, u, g, h2, h3, rfl⟩
  · have := wordIn_wordAddr (hdr := s.cur.shdr) hi
    simp [State.transfer, this, amongWords_of this]
  · simp [State.transfer, h1, h2, h3]

theorem target_markIssued (s : State) (off : BitVec 32) : s.markIssued.target off = s.cur.pc + off := by
  simp [State.target, State.markIssued_cur]

/-! ### Accesses -/

/-- An access that goes, with its release or without. -/
theorem sends_of {i : Instr} {g : Gate} {h : Hdr} {use : Use} {eff : State → Done} {s u : State} {d : Dst} {rl p : Bool}
    {scope : Scope} {k : AccKind} (hi : exec i s = issue g h use eff s) (he : Executes g h use s)
    (hf : eff s.markIssued = u.sendRel h rl scope d p k) : Sends i s u use h d rl scope p k := by
  constructor
  · intro hr
    rw [hi, issue_go he]
    rw [hf]
    simp [State.sendRel, hr, State.departs]
  · intro v r hr hs
    rw [hi, issue_go he]
    rw [hf]
    simp [State.sendRel, hr, hs, State.departsRel]

/-! ### End instructions -/

variable {h : Hdr} {g : Gate} {srcs : List Src} {last : Bool} {tag : BitVec 7} {kind : State → State × Except Bad EndKind} {i : Instr}

theorem endGoes_of (hi : ∀ s, exec i s = endOp h g srcs last tag kind s) : endGoes i g h srcs last tag kind := by
  intro s he hl
  have hok : (!last || decide (s.cur.next = s.cur.secEnd)) = true := by cases last <;> simp_all
  refine ⟨fun u k h1 h2 => ⟨fun hc => ?_, fun hc => ?_⟩, fun w h1 h2 => ?_⟩
  · rw [hi]
    simp only [endOp, issueIf_eq hok]
    rw [issue_stay he]
    simp [h1, h2, hc]
  · rw [hi]
    simp only [endOp, issueIf_eq hok]
    rw [issue_trap he]
    simp only [h1, h2, hc]
    rfl
  · rw [hi]
    simp only [endOp, issueIf_eq hok]
    rw [issue_hold he]
    simp only [h1]
    rcases h2 with h2 | h2
    · simp [h2]
    · simp [h2]

/-- The stream that carries a meeting out. -/
theorem meet_of (hi : ∀ s, exec i s = endOp h g srcs last tag kind s) {s : State} {x : StepCtx} {k : EndKind}
    (hm : Meets g h srcs last s x k) {t : State} (hs : s.markIssued.meet srcs = .stay t) : exec i s = .next t := by
  obtain ⟨he, hl, h1, h2, h3, -, -⟩ := hm
  have hok : (!last || decide (s.cur.next = s.cur.secEnd)) = true := by cases last <;> simp_all
  obtain ⟨w, hw⟩ := Option.isSome_iff_exists.1 h1
  rw [hi]
  simp only [endOp, issueIf_eq hok]
  rw [issue_stay he]
  simp [hw, h2, h3, hs]

theorem isDcc_markIssued {s : State} (h : s.cid < 0x1000) : isDcc s.markIssued.cid = false := by
  exact decide_eq_false (show ¬0x1000 ≤ s.cid by omega)

/-! ### Privilege -/

/-- The gate of a privileged instruction in user mode, outside a handler. -/
theorem gateTrap_priv {s : State} (srcs : List Src) (u : Use) (f : Bool) (h1 : s.systemMode = false) (h2 : s.cur.hnd = false) :
    s.gateTrap (s.sysGate srcs f) u = some (s.encTrap .priv s.cur.npfx) := by
  simp [State.gateTrap, State.sysGate, h1, h2, gateR]

theorem sysGate_false (s : State) (srcs : List Src) : s.sysGate srcs false = sysG srcs := rfl

/-! ### Searches -/

theorem leastFrom_spec {p : Nat → Bool} : ∀ {f lo k : Nat}, leastFrom p lo f = some k →
    lo ≤ k ∧ k < lo + f ∧ p k = true ∧ ∀ j, lo ≤ j → j < k → p j = false
  | 0, lo, k, h => by simp [leastFrom] at h
  | f + 1, lo, k, h => by
    unfold leastFrom at h
    split at h
    · next hp =>
      cases h
      exact ⟨le_rfl, by omega, hp, fun j h1 h2 => by omega⟩
    · next hp =>
      obtain ⟨a, b, c, d⟩ := leastFrom_spec h
      refine ⟨by omega, by omega, c, fun j h1 h2 => ?_⟩
      by_cases e : j = lo
      · simpa [e] using hp
      · exact d j (by omega) h2

end Sys2Proof.Machine
end

