-- ==== Sys2Proof/Laws/Decode.lean ====
section
/-!
SUPPORT. Laws of the decoder and the encoder: each format's fields come back from its packed word, each selector and
code from its own encoding.
-/

namespace Sys2Proof

theorem extract_append_hi {n m : Nat} (x : BitVec n) (y : BitVec m) (lo w : Nat) (h : m ≤ lo) :
    (x ++ y).extractLsb' lo w = x.extractLsb' (lo - m) w := by
  ext i hi
  simp only [BitVec.getElem_extractLsb', BitVec.getLsbD_append]
  rw [if_neg (by omega), show lo + i - m = lo - m + i by omega]

theorem extract_append_lo {n m : Nat} (x : BitVec n) (y : BitVec m) (lo w : Nat) (h : lo + w ≤ m) :
    (x ++ y).extractLsb' lo w = y.extractLsb' lo w := by
  ext i hi
  simp only [BitVec.getElem_extractLsb', BitVec.getLsbD_append]
  rw [if_pos (by omega)]

theorem FmtR.unpack_pack (x : BitVec 28) (f : FmtR) : FmtR.unpack (x ++ f.pack) = f := by
  cases f
  simp (disch := omega) only [FmtR.unpack, FmtR.pack, extract_append_lo, extract_append_hi]
  simp

theorem FmtV.unpack_pack (x : BitVec 28) (f : FmtV) : FmtV.unpack (x ++ f.pack) = f := by
  cases f
  simp (disch := omega) only [FmtV.unpack, FmtV.pack, extract_append_lo, extract_append_hi]
  simp

theorem FmtM.unpack_pack (x : BitVec 28) (f : FmtM) : FmtM.unpack (x ++ f.pack) = f := by
  cases f
  simp (disch := omega) only [FmtM.unpack, FmtM.pack, extract_append_lo, extract_append_hi]
  simp

theorem FmtE.unpack_pack (x : BitVec 28) (f : FmtE) : FmtE.unpack (x ++ f.pack) = f := by
  cases f
  simp (disch := omega) only [FmtE.unpack, FmtE.pack, extract_append_lo, extract_append_hi]
  simp

theorem FmtB.unpack_pack (x : BitVec 28) (f : FmtB) : FmtB.unpack (x ++ f.pack) = f := by
  cases f
  simp (disch := omega) only [FmtB.unpack, FmtB.pack, extract_append_lo, extract_append_hi]
  simp

theorem WHead.unpack_pack (f : WHead) (p : BitVec 68) : WHead.unpack (f.pack ++ p) = f := by
  cases f
  simp (disch := omega) only [WHead.unpack, WHead.pack, extract_append_lo, extract_append_hi]
  simp

theorem Src.dec_enc (s : Src) : Src.dec s.enc = .ok s := by
  cases s with
  | small v => revert v; decide
  | n k => revert k; decide
  | t k => revert k; decide
  | _ => rfl

theorem Src.decNoImm_enc (s : Src) (h : s ≠ .imm) : Src.decNoImm s.enc = .ok s := by
  cases s with
  | small v => revert v; decide
  | n k => revert k; decide
  | t k => revert k; decide
  | imm => exact absurd rfl h
  | _ => rfl

theorem Dst.dec_enc (s : Dst) : Dst.dec s.enc = .ok s := by
  cases s with
  | n k => revert k; decide
  | _ => rfl

theorem OReg.dec_enc (s : OReg) : OReg.dec s.enc = .ok s := by
  cases s with
  | n k => revert k; decide
  | t k => revert k; decide
  | _ => rfl

theorem EType.dec_enc (e : EType) : EType.dec e.enc = .ok e := by cases e <;> rfl

theorem Scope.dec_enc (e : Scope) : Scope.dec e.enc = .ok e := by cases e <;> rfl

theorem SFTy.dec_enc (e : SFTy) : SFTy.dec e.enc = .ok e := by cases e <;> rfl

theorem Rnd.dec_enc (e : Rnd) : Rnd.dec e.enc = e := by cases e <;> rfl

theorem ICond.dec_enc (e : ICond) : ICond.dec e.enc = e := by cases e <;> rfl

theorem FCond.dec_enc (e : FCond) : FCond.dec e.enc = .ok e := by cases e <;> rfl

theorem ITy.dec_enc (t : ITy) (s : Bool) : ITy.dec (t.enc s) = t ∧ (t.enc s).getLsbD 2 = s := by
  rcases t with ⟨a, w⟩; revert a w s; decide

/-- The head of an encoded word. -/
def headOf (g m : BitVec 6) (h : Hdr) : WHead :=
  ⟨g, m, bit1 h.pneg, BitVec.ofFin h.pred, h.wait, bit1 h.set.isSome,
    match h.set with | some k => BitVec.ofFin k | none => 0⟩

theorem head_unpack (g m : BitVec 6) (h : Hdr) (p : BitVec 68) : WHead.unpack (h.enc g m ++ p) = headOf g m h := by
  rw [Hdr.enc, WHead.unpack_pack]
  rfl

theorem Hdr.dec_headOf (g m : BitVec 6) (h : Hdr) : Hdr.dec (headOf g m h) = .ok h := by
  rcases h with ⟨pn, pr, w, _ | k⟩ <;> cases pn <;>
    simp [Hdr.dec, headOf, need, bit1, bind, Except.bind, pure, Except.pure]

/-- A word with a nonzero assigned group that is no prefix decodes as its payload does. -/
theorem decodeWord_enc (g m : BitVec 6) (h : Hdr) (p : BitVec 68) (hg : g ≠ 0) (hl : g.toNat < 0x3E)
    (ho : opInfo g.toNat m.toNat ≠ none) :
    decodeWord (h.enc g m ++ p) = decodePayload g.toNat m.toNat h (h.enc g m ++ p) := by
  have hz : h.enc g m ++ p ≠ 0 := by
    intro e
    have := congrArg WHead.grp ((head_unpack g m h p).symm.trans (congrArg WHead.unpack e))
    exact hg (by simpa [headOf, WHead.unpack] using this)
  unfold decodeWord
  rw [if_neg hz, head_unpack, decodeHead, if_neg (show opInfo (headOf g m h).grp.toNat (headOf g m h).minor.toNat ≠ none from ho),
    if_neg (by simpa [headOf] using hl), Hdr.dec_headOf]
  rfl

theorem decodeWord_encR (g m : BitVec 6) (h : Hdr) (f : FmtR) (hg : g ≠ 0) (hl : g.toNat < 0x3E)
    (ho : opInfo g.toNat m.toNat ≠ none) :
    decodeWord (encR g m h f) = decodePayload g.toNat m.toNat h (encR g m h f) :=
  decodeWord_enc g m h f.pack hg hl ho

theorem encR_unpack (g m : BitVec 6) (h : Hdr) (f : FmtR) : FmtR.unpack (encR g m h f) = f :=
  FmtR.unpack_pack _ f

theorem encV_unpack (g m : BitVec 6) (h : Hdr) (f : FmtV) : FmtV.unpack (encV g m h f) = f :=
  FmtV.unpack_pack _ f

theorem encM_unpack (g m : BitVec 6) (h : Hdr) (f : FmtM) : FmtM.unpack (encM g m h f) = f :=
  FmtM.unpack_pack _ f

theorem encE_unpack (g m : BitVec 6) (h : Hdr) (f : FmtE) : FmtE.unpack (encE g m h f) = f :=
  FmtE.unpack_pack _ f

theorem encB_unpack (g m : BitVec 6) (h : Hdr) (f : FmtB) : FmtB.unpack (encB g m h f) = f :=
  FmtB.unpack_pack _ f

/-! ### Of the other formats, and of single bits -/

theorem decodeWord_encV (g m : BitVec 6) (h : Hdr) (f : FmtV) (hg : g ≠ 0) (hl : g.toNat < 0x3E)
    (ho : opInfo g.toNat m.toNat ≠ none) :
    decodeWord (encV g m h f) = decodePayload g.toNat m.toNat h (encV g m h f) :=
  decodeWord_enc g m h f.pack hg hl ho

theorem decodeWord_encM (g m : BitVec 6) (h : Hdr) (f : FmtM) (hg : g ≠ 0) (hl : g.toNat < 0x3E)
    (ho : opInfo g.toNat m.toNat ≠ none) :
    decodeWord (encM g m h f) = decodePayload g.toNat m.toNat h (encM g m h f) :=
  decodeWord_enc g m h f.pack hg hl ho

theorem decodeWord_encE (g m : BitVec 6) (h : Hdr) (f : FmtE) (hg : g ≠ 0) (hl : g.toNat < 0x3E)
    (ho : opInfo g.toNat m.toNat ≠ none) :
    decodeWord (encE g m h f) = decodePayload g.toNat m.toNat h (encE g m h f) :=
  decodeWord_enc g m h f.pack hg hl ho

theorem decodeWord_encB (g m : BitVec 6) (h : Hdr) (f : FmtB) (hg : g ≠ 0) (hl : g.toNat < 0x3E)
    (ho : opInfo g.toNat m.toNat ≠ none) :
    decodeWord (encB g m h f) = decodePayload g.toNat m.toNat h (encB g m h f) :=
  decodeWord_enc g m h f.pack hg hl ho

theorem getLsbD_append_hi {n m : Nat} (x : BitVec n) (y : BitVec m) (i : Nat) (h : m ≤ i) :
    (x ++ y).getLsbD i = x.getLsbD (i - m) := by
  rw [BitVec.getLsbD_append, if_neg (by omega)]

theorem getLsbD_append_lo {n m : Nat} (x : BitVec n) (y : BitVec m) (i : Nat) (h : i < m) :
    (x ++ y).getLsbD i = y.getLsbD i := by
  rw [BitVec.getLsbD_append, if_pos h]

theorem bit1_eq_one (b : Bool) : (bit1 b = 1) = (b = true) := by cases b <;> decide
theorem bit1_getElem (b : Bool) : (bit1 b)[0] = b := by cases b <;> rfl
theorem bit1_getLsbD (b : Bool) : (bit1 b).getLsbD 0 = b := by cases b <;> rfl

theorem size4_enc (x : Fin 4) : size4 ((0 : BitVec 1) ++ (BitVec.ofFin x : BitVec 2)) = .ok x := by revert x; decide

end Sys2Proof
end

