-- ==== Sys2Proof/Laws/Mem.lean ====
section
/-!
SUPPORT. Laws of the sparse bytes and of the tables by number: read after write, the canonical form kept, little-endian numbers.
-/

namespace Sys2Proof.Machine

/-! ### The canonical form -/

theorem Mem.wfFrom_cons {lo : Nat} {e : Nat × Byte} {m : Mem} :
    Mem.wfFrom lo (e :: m) = true ↔ lo ≤ e.1 ∧ e.2 ≠ 0 ∧ Mem.wfFrom (e.1 + 1) m = true := by
  simp only [Mem.wfFrom, Bool.and_eq_true, decide_eq_true_eq, bne_iff_ne, and_assoc]

theorem Mem.wfFrom_mono {lo hi : Nat} {m : Mem} (h : lo ≤ hi) (w : Mem.wfFrom hi m = true) : Mem.wfFrom lo m = true := by
  cases m with
  | nil => rfl
  | cons e m =>
    rw [Mem.wfFrom_cons] at w ⊢
    exact ⟨by omega, w.2⟩

/-- Below its first address a canonical memory reads zero. -/
theorem Mem.get_below {lo a : Nat} {m : Mem} (w : Mem.wfFrom lo m = true) (h : a < lo) : m.get a = 0 := by
  cases m with
  | nil => rfl
  | cons e m =>
    rw [Mem.wfFrom_cons] at w
    rw [Mem.get, if_neg (by omega), if_pos (by omega)]

/-- Writing a byte keeps the canonical form. -/
theorem Mem.wfFrom_put {lo a : Nat} {m : Mem} (b : Byte) (w : Mem.wfFrom lo m = true) (h : lo ≤ a) :
    Mem.wfFrom lo (m.put a b) = true := by
  induction m generalizing lo with
  | nil =>
    rw [Mem.put]
    split
    · rfl
    · next hb => exact Mem.wfFrom_cons.2 ⟨h, hb, rfl⟩
  | cons e m ih =>
    have w' := Mem.wfFrom_cons.1 w
    rw [Mem.put]
    split
    · next h1 =>
      split
      · exact w
      · next hb => exact Mem.wfFrom_cons.2 ⟨h, hb, Mem.wfFrom_cons.2 ⟨h1, w'.2⟩⟩
    · split
      · next h2 =>
        subst h2
        split
        · exact Mem.wfFrom_mono (by omega) w'.2.2
        · next hb => exact Mem.wfFrom_cons.2 ⟨h, hb, w'.2.2⟩
      · exact Mem.wfFrom_cons.2 ⟨w'.1, w'.2.1, ih w'.2.2 (by omega)⟩

theorem Mem.wf_put {m : Mem} (a : Nat) (b : Byte) (w : m.wf = true) : (m.put a b).wf = true :=
  Mem.wfFrom_put b w (Nat.zero_le a)

theorem Mem.wf_store {m : Mem} (a : Nat) (bs : List Byte) (w : m.wf = true) : (m.store a bs).wf = true := by
  induction bs generalizing m a with
  | nil => exact w
  | cons b bs ih => exact ih (a + 1) (Mem.wf_put a b w)

theorem Mem.wfFrom_filter {lo : Nat} {m : Mem} (p : Nat × Byte → Bool) (w : Mem.wfFrom lo m = true) :
    Mem.wfFrom lo (m.filter p) = true := by
  induction m generalizing lo with
  | nil => rfl
  | cons e m ih =>
    rw [Mem.wfFrom_cons] at w
    simp only [List.filter_cons]
    split
    · exact Mem.wfFrom_cons.2 ⟨w.1, w.2.1, ih w.2.2⟩
    · exact Mem.wfFrom_mono (by omega) (ih w.2.2)

theorem Mem.wf_filter {m : Mem} (p : Nat × Byte → Bool) (w : m.wf = true) : Mem.wf (m.filter p) = true :=
  Mem.wfFrom_filter p w

theorem Mem.wf_clear {m : Mem} (a n : Nat) (w : m.wf = true) : (m.clear a n).wf = true := Mem.wf_filter _ w

theorem Mem.wf_nil : Mem.wf [] = true := rfl

theorem reset_memWf : State.reset.memWf := rfl

/-! ### Read after write -/

theorem Mem.get_put_same {lo a : Nat} {m : Mem} (b : Byte) (w : Mem.wfFrom lo m = true) : (m.put a b).get a = b := by
  induction m generalizing lo with
  | nil =>
    rw [Mem.put]
    split
    · next hb => exact hb.symm
    · rw [Mem.get, if_pos rfl]
  | cons e m ih =>
    rw [Mem.wfFrom_cons] at w
    rw [Mem.put]
    split
    · next h =>
      split
      · next hb => rw [Mem.get, if_neg (by omega), if_pos h, hb]
      · rw [Mem.get, if_pos rfl]
    · next h =>
      split
      · next h2 =>
        subst h2
        split
        · next hb => rw [Mem.get_below w.2.2 (Nat.lt_succ_self _), hb]
        · rw [Mem.get, if_pos rfl]
      · next h2 => rw [Mem.get, if_neg h2, if_neg h, ih w.2.2]

theorem Mem.get_put_ne {lo a c : Nat} {m : Mem} (b : Byte) (w : Mem.wfFrom lo m = true) (hc : c ≠ a) :
    (m.put a b).get c = m.get c := by
  induction m generalizing lo with
  | nil =>
    rw [Mem.put]
    split
    · rfl
    · show (if c = a then b else if c < a then 0 else Mem.get [] c) = 0
      rw [if_neg hc]
      split <;> rfl
  | cons e m ih =>
    have w' := Mem.wfFrom_cons.1 w
    rw [Mem.put]
    split
    · next h =>
      split
      · rfl
      · by_cases h1 : c < a
        · rw [Mem.get, if_neg hc, if_pos h1, Mem.get_below (Mem.wfFrom_cons.2 ⟨le_rfl, w'.2⟩) (by omega)]
        · rw [Mem.get, if_neg hc, if_neg h1]
    · next h =>
      split
      · next h2 =>
        subst h2
        split
        · by_cases h1 : c < e.1
          · rw [Mem.get_below w'.2.2 (by omega), Mem.get, if_neg hc, if_pos h1]
          · rw [Mem.get, if_neg hc, if_neg h1]
        · rw [Mem.get, Mem.get, if_neg hc, if_neg hc]
      · rw [Mem.get, Mem.get]
        split
        · rfl
        · split
          · rfl
          · exact ih w'.2.2

/-- What a store leaves: its own bytes, every other byte as it was. -/
theorem Mem.get_store {m : Mem} (a : Nat) (bs : List Byte) (c : Nat) (w : m.wf = true) :
    (m.store a bs).get c = if a ≤ c ∧ c < a + bs.length then bs.getD (c - a) 0 else m.get c := by
  induction bs generalizing m a with
  | nil => rw [Mem.store, if_neg (by simp only [List.length_nil]; omega)]
  | cons b bs ih =>
    rw [Mem.store, ih _ (Mem.wf_put a b w)]
    by_cases h1 : a = c
    · subst h1
      rw [if_neg (by omega), if_pos (by simp), Mem.get_put_same b w]
      simp
    · rw [Mem.get_put_ne b w (Ne.symm h1)]
      by_cases h2 : a + 1 ≤ c ∧ c < a + 1 + bs.length
      · rw [if_pos h2, if_pos (by simp only [List.length_cons]; omega), show c - a = (c - (a + 1)) + 1 by omega]
        simp
      · rw [if_neg h2, if_neg (by simp only [List.length_cons]; omega)]

/-- Clearing a range: zero in it, every other byte as it was. -/
theorem Mem.get_filter {lo : Nat} {m : Mem} (p : Nat → Bool) (c : Nat) (w : Mem.wfFrom lo m = true) :
    Mem.get (m.filter fun e => p e.1) c = if p c then m.get c else 0 := by
  induction m generalizing lo with
  | nil => simp [Mem.get]
  | cons e m ih =>
    rw [Mem.wfFrom_cons] at w
    simp only [List.filter_cons]
    by_cases h1 : c = e.1
    · subst h1
      split
      · next hp => simp [Mem.get]
      · next hp => rw [ih w.2.2, if_neg hp]
    · split
      · simp only [Mem.get, if_neg h1]
        split
        · simp
        · exact ih w.2.2
      · rw [ih w.2.2]
        simp only [Mem.get, if_neg h1]
        split
        · split
          · exact Mem.get_below w.2.2 (by omega)
          · rfl
        · rfl

@[simp] theorem Mem.length_bytes (m : Mem) (a n : Nat) : (m.bytes a n).length = n := by
  induction n generalizing a with
  | zero => rfl
  | succ n ih => simp [Mem.bytes, ih]

theorem Mem.getD_bytes (m : Mem) (a n i : Nat) (h : i < n) : (m.bytes a n).getD i 0 = m.get (a + i) := by
  induction n generalizing a i with
  | zero => omega
  | succ n ih =>
    cases i with
    | zero => rfl
    | succ i =>
      rw [Mem.bytes, List.getD_cons_succ, ih (a + 1) i (by omega)]
      congr 1
      omega

/-- Bytes of memory are those of a list when each reads so. -/
theorem Mem.bytes_eq {m : Mem} {a : Nat} {bs : List Byte} (h : ∀ i, i < bs.length → m.get (a + i) = bs.getD i 0) :
    m.bytes a bs.length = bs := by
  induction bs generalizing a with
  | nil => rfl
  | cons b bs ih =>
    rw [List.length_cons, Mem.bytes]
    refine congrArg₂ _ (by simpa using h 0 (by simp)) (ih fun i hi => ?_)
    have := h (i + 1) (by simpa using hi)
    rw [show a + 1 + i = a + (i + 1) by omega, this]
    simp

theorem Mem.bytes_store {m : Mem} (a : Nat) (bs : List Byte) (w : m.wf = true) : (m.store a bs).bytes a bs.length = bs :=
  Mem.bytes_eq fun i hi => by rw [Mem.get_store a bs _ w, if_pos (by omega), show a + i - a = i by omega]

/-! ### Little-endian numbers (R13) -/

@[simp] theorem length_natLe (n x : Nat) : (natLe n x).length = n := by
  induction n generalizing x with
  | zero => rfl
  | succ n ih => simp [natLe, ih]

theorem leNat_natLe (n x : Nat) : leNat (natLe n x) = x % 2 ^ (8 * n) := by
  induction n generalizing x with
  | zero => simp [natLe, leNat, Nat.mod_one]
  | succ n ih =>
    rw [natLe, leNat, ih, BitVec.toNat_ofNat, show 8 * (n + 1) = 8 + 8 * n by omega, Nat.pow_add, Nat.mod_mul]

theorem leNat_lt (bs : List Byte) : leNat bs < 2 ^ (8 * bs.length) := by
  induction bs with
  | nil => simp [leNat]
  | cons b bs ih =>
    rw [leNat, List.length_cons, show 8 * (bs.length + 1) = 8 + 8 * bs.length by omega, Nat.pow_add]
    have := b.isLt
    omega

/-- A number stored reads back, by its width. -/
theorem Mem.nat_store {m : Mem} (a n x : Nat) (w : m.wf = true) : (m.store a (natLe n x)).nat a n = x % 2 ^ (8 * n) := by
  have h := Mem.bytes_store a (natLe n x) w
  rw [length_natLe] at h
  rw [Mem.nat, h, leNat_natLe]

/-- A number outside a stored range stays. -/
theorem Mem.bytes_store_ne {m : Mem} (a : Nat) (bs : List Byte) (c n : Nat) (w : m.wf = true) (h : c + n ≤ a ∨ a + bs.length ≤ c) :
    (m.store a bs).bytes c n = m.bytes c n := by
  induction n generalizing c with
  | zero => rfl
  | succ n ih =>
    rw [Mem.bytes, Mem.bytes, ih (c + 1) (by omega), Mem.get_store a bs c w, if_neg (by omega)]

/-! ### Tables by number -/

theorem lookupD_insertAt_same {α : Type} (l : List (Nat × α)) (k : Nat) (v d : α) : lookupD (insertAt l k v) k d = v := by
  induction l with
  | nil => simp [insertAt, lookupD]
  | cons e l ih =>
    simp only [insertAt]
    split
    · simp [lookupD]
    · split
      · simp [lookupD]
      · next h1 h2 => rw [lookupD, if_neg h2, if_neg h1, ih]

theorem lookupD_insertAt_ne {α : Type} (l : List (Nat × α)) {j k : Nat} (v d : α) (h : j ≠ k) :
    lookupD (insertAt l k v) j d = lookupD l j d := by
  induction l with
  | nil => simp [insertAt, lookupD, h]
  | cons e l ih =>
    simp only [insertAt]
    split
    · next h1 =>
      rw [lookupD, if_neg h]
      split
      · next h2 => rw [lookupD, if_neg (by omega), if_pos (by omega)]
      · rfl
    · split
      · next h2 =>
        subst h2
        rw [lookupD, lookupD, if_neg h, if_neg h]
      · rw [lookupD, lookupD, ih]

end Sys2Proof.Machine
end

