-- ==== Sys2Proof/Laws/View.lean ====
section
/-!
SUPPORT. What the operations on homes, host copies and the package view do to memory: reads of the view leave it alone, every
write keeps its canonical form.
-/

namespace Sys2Proof.Machine

/-- What every element of a fold keeps, the fold keeps. -/
theorem foldl_keeps {α σ : Type} (Keeps : σ → Prop) (f : σ → α → σ) (l : List α) (s : σ) (start : Keeps s)
    (step : ∀ s x, Keeps s → Keeps (f s x)) : Keeps (l.foldl f s) :=
  List.foldlRecOn l f start fun s h x _ => step s x h

/-! ### Memory left alone -/

@[simp] theorem State.putCore_mem (s : State) (n : Nat) (c : Core) : (s.putCore n c).mem = s.mem := by
  unfold State.putCore
  split <;> rfl

@[simp] theorem State.focus_mem (s : State) (n : Nat) : (s.focus n).mem = s.mem := by
  unfold State.focus
  split <;> rfl

@[simp] theorem State.mapCores_mem (s : State) (f : Core → Core) : (s.mapCores f).mem = s.mem := rfl
@[simp] theorem State.loseLease_mem (s : State) (p : Nat) : (s.loseLease p).mem = s.mem := rfl
@[simp] theorem State.useLease_mem (s : State) (p : Nat) : (s.useLease p).mem = s.mem := rfl
@[simp] theorem State.yieldLease_mem (s : State) (p : Nat) : (s.yieldLease p).mem = s.mem := rfl

@[simp] theorem State.eventDcc_mem (s : State) (d b : Nat) : (s.eventDcc d b).mem = s.mem := State.putCore_mem ..

@[simp] theorem State.eventAll_mem (s : State) (b : Nat) : (s.eventAll b).mem = s.mem :=
  foldl_keeps (fun (t : State) => t.mem = s.mem) _ _ _ rfl fun t d ht => (State.eventDcc_mem t d b).trans ht

@[simp] theorem State.ashWrite_mem (s : State) (r : Nat) (bs : List Byte) : (s.ashWrite r bs).mem = s.mem := by
  unfold State.ashWrite
  dsimp only
  repeat' split
  all_goals simp

@[simp] theorem State.poisonLine_mem (s : State) (l : Nat) : (s.poisonLine l).mem = s.mem := by
  unfold State.poisonLine
  split <;> rfl

@[simp] theorem State.beginSparing_mem (s : State) (k b r : Nat) : (s.beginSparing k b r).mem = s.mem := by
  unfold State.beginSparing
  split <;> rfl

@[simp] theorem State.foundBad_mem (s : State) (l : Nat) : (s.foundBad l).mem = s.mem := by
  unfold State.foundBad State.ashNote
  simp

@[simp] theorem State.detect_mem (s : State) (a n : Nat) : (s.detect a n).mem = s.mem := by
  unfold State.detect
  split
  · rfl
  · refine foldl_keeps (fun (t : State) => t.mem = s.mem) _ _ _ rfl fun t l ht => ?_
    split
    · exact (State.foundBad_mem t l).trans ht
    · exact ht

@[simp] theorem State.coverPoison_mem (s : State) (a n : Nat) : (s.coverPoison a n).mem = s.mem := by
  unfold State.coverPoison
  simp

@[simp] theorem State.toPort_mem (s : State) (n : Nat) (bs : List Byte) : (s.toPort n bs).mem = s.mem := by
  unfold State.toPort
  dsimp only
  split <;> rfl

@[simp] theorem State.send_mem (s : State) (op n a : Nat) (bs : List Byte) : (s.send op n a bs).mem = s.mem := by
  unfold State.send
  dsimp only
  split <;> simp

@[simp] theorem State.sendAt_mem (s : State) (op a : Nat) (bs : List Byte) : (s.sendAt op a bs).mem = s.mem := by
  unfold State.sendAt
  split <;> simp

@[simp] theorem State.keepSentAt_mem (s : State) (a st : Nat) (bs : List Byte) : (s.keepSentAt a st bs).mem = s.mem := by
  unfold State.keepSentAt State.keepSent
  dsimp only
  repeat' split
  all_goals rfl

@[simp] theorem State.ownGrant_mem (s : State) (p : Nat) : (s.ownGrant p).mem = s.mem := State.send_mem ..

@[simp] theorem State.fireWatches_mem (s : State) : s.fireWatches.mem = s.mem := by
  unfold State.fireWatches
  simp only
  split
  · rfl
  · refine foldl_keeps (fun (t : State) => t.mem = s.mem) _ _ _ rfl fun t w ht => ?_
    split
    · exact ht
    · rw [State.putCore_mem]
      exact ht

@[simp] theorem State.recallPage_mem (s : State) (p : Nat) (own : Bool) : (s.recallPage p own).1.mem = s.mem := by
  have h : (if own then s.yieldLease p else s).mem = s.mem := by split <;> rfl
  unfold State.recallPage
  dsimp only
  generalize (if own then s.yieldLease p else s) = u at h ⊢
  split <;> exact h

@[simp] theorem State.recallPages_mem (s : State) (ps : List Nat) (own : Bool) : (s.recallPages ps own).1.mem = s.mem :=
  foldl_keeps (fun (t : State × Bool) => t.1.mem = s.mem) _ _ _ rfl fun t p ht => (State.recallPage_mem t.1 p own).trans ht

@[simp] theorem State.recallFor_mem (s : State) (a n : Nat) : (s.recallFor a n).mem = s.mem :=
  State.recallPages_mem s _ true

@[simp] theorem State.takeLease_mem (s : State) (p : Nat) : (s.takeLease p).1.mem = s.mem := by
  unfold State.takeLease
  repeat' split
  all_goals simp

@[simp] theorem State.fetchLine_mem (s : State) (l : Nat) : (s.fetchLine l).1.mem = s.mem := by
  have h := State.takeLease_mem s (leasePage (l * 64))
  unfold State.fetchLine
  split
  · next e => rw [e] at h; exact h
  · next e =>
    rw [e] at h
    split <;> exact h

@[simp] theorem State.viewLine_mem (s : State) (l : Nat) : (s.viewLine l).1.mem = s.mem := by
  have h := State.fetchLine_mem s l
  unfold State.viewLine
  split
  · split
    · rfl
    · split
      · next e => rw [e] at h; exact h
      · next e => rw [e] at h; exact h
  · exact State.detect_mem s _ _

@[simp] theorem State.loadMiss_mem (s : State) (l : Nat) : (s.loadMiss l).1.mem = s.mem := by
  have h : ((s.viewLine (l * 2)).1.viewLine (l * 2 + 1)).1.mem = s.mem := by simp
  exact h

@[simp] theorem State.loadLine_mem (s : State) (l : Nat) : (s.loadLine l).1.mem = s.mem := by
  unfold State.loadLine
  split
  · split <;> rfl
  · exact State.loadMiss_mem s l

theorem readLines_mem {rd : State → Nat → State × List PByte} (hr : ∀ s l, (rd s l).1.mem = s.mem) (size : Nat) (s : State)
    (a n : Nat) : (readLines rd size s a n).1.mem = s.mem := by
  unfold readLines
  exact foldl_keeps (fun (t : State × List PByte) => t.1.mem = s.mem) _ _ _ rfl fun t l ht => (hr t.1 l).trans ht

@[simp] theorem State.freeBytes_mem (s : State) (n : Nat) : (s.freeBytes n).1.mem = s.mem := by
  induction n generalizing s with
  | zero => rfl
  | succ n ih => exact ih { s with free := s.free + 1 }

/-! ### The canonical form kept -/

theorem State.send_memWf (s : State) (op n a : Nat) (bs : List Byte) : (s.send op n a bs).memWf ↔ s.memWf := by
  unfold State.memWf
  rw [State.send_mem]

theorem mergeByte_wf {m : Mem} (ks : List (Nat × Key)) (a : Nat) (b : Byte) (k : Key) (w : m.wf = true) :
    (mergeByte m ks a b k).1.wf = true := by
  unfold mergeByte
  split
  · exact Mem.wf_put a b w
  · exact w

theorem mergeBytes_wf {m : Mem} (ks : List (Nat × Key)) (a : Nat) (bs : List Byte) (k : Key) (w : m.wf = true) :
    (mergeBytes m ks a bs k).1.wf = true := by
  induction bs generalizing m ks a with
  | nil => exact w
  | cons b bs ih => exact ih _ _ (mergeByte_wf ks a b k w)

theorem State.memWf_host {s : State} (h : HostLink) (w : s.memWf) : ({ s with host := h } : State).memWf := w

theorem State.store_memWf {s : State} (a : Nat) (bs : List Byte) (w : s.memWf) : ({ s with mem := s.mem.store a bs } : State).memWf := by
  unfold State.memWf
  exact Mem.wf_store _ _ w

theorem State.fireWatches_memWf {s : State} (w : s.memWf) : s.fireWatches.memWf := by
  unfold State.memWf
  rw [State.fireWatches_mem]
  exact w

theorem State.coverPoison_memWf {s : State} (a n : Nat) (w : s.memWf) : (s.coverPoison a n).memWf := by
  unfold State.memWf
  rw [State.coverPoison_mem]
  exact w

theorem State.snoopLine_memWf {s : State} (l : Nat) (w : s.memWf) : (s.snoopLine l).memWf := by
  unfold State.snoopLine
  split
  · exact w
  · refine State.memWf_host _ ?_
    split
    · exact State.fireWatches_memWf (State.coverPoison_memWf _ _ (State.store_memWf _ _ w))
    · exact w

theorem State.snoopWrite_memWf {s : State} (a n : Nat) (w : s.memWf) : (s.snoopWrite a n).memWf := by
  unfold State.snoopWrite
  split
  · exact w
  · exact foldl_keeps State.memWf _ _ _ w fun _ l h => State.snoopLine_memWf l h

theorem State.snoopRead_memWf {s : State} (a n : Nat) (w : s.memWf) : (s.snoopRead a n).memWf := by
  unfold State.snoopRead
  split
  · exact w
  · refine foldl_keeps State.memWf _ _ _ w fun _ l h => ?_
    split
    · exact State.snoopLine_memWf l h
    · exact h

theorem State.touch_memWf {s : State} (a n : Nat) (w : s.memWf) : (s.touch a n).memWf := by
  unfold State.memWf State.touch
  rw [State.detect_mem]
  exact State.snoopRead_memWf a n w

theorem State.homeRead_memWf {s : State} (a n : Nat) (w : s.memWf) : (s.homeRead a n).1.memWf := by
  unfold State.homeRead
  split
  · exact State.touch_memWf a n w
  · split <;> exact w
  · exact w
  · unfold State.memWf
    dsimp only
    rw [State.freeBytes_mem]
    exact w
  · exact w

theorem State.updateCopies_mem (s : State) (a : Nat) (bs : List Byte) : (s.updateCopies a bs).mem = s.mem := by
  unfold State.updateCopies
  dsimp only
  split <;> rfl

theorem State.homePut_memWf {s : State} (a : Nat) (bs : List Byte) (w : s.memWf) : (s.homePut a bs).1.memWf := by
  unfold State.homePut
  split
  · unfold State.memWf
    dsimp only
    rw [State.fireWatches_mem, State.updateCopies_mem]
    exact Mem.wf_store _ _ (State.coverPoison_memWf _ _ (State.snoopWrite_memWf a bs.length w))
  · split
    · unfold State.memWf
      dsimp only
      rw [State.updateCopies_mem, State.coverPoison_mem]
      exact Mem.wf_store _ _ w
    · exact w
  · split
    · exact Mem.wf_store _ _ w
    · exact w
  · exact w
  · exact w

theorem State.homeWrite_memWf {s : State} (a : Nat) (bs : List Byte) (w : s.memWf) : (s.homeWrite a bs).1.memWf := by
  unfold State.homeWrite
  refine State.homePut_memWf a bs ?_
  split
  · refine foldl_keeps State.memWf _ _ _ w fun t l h => ?_
    unfold State.memWf
    simp only [State.keepSentAt_mem, State.sendAt_mem]
    exact h
  · exact w

theorem State.homeMerge_memWf {s : State} (a : Nat) (bs : List Byte) (k : Key) (r : Bool) (w : s.memWf) :
    (s.homeMerge a bs k r).memWf := by
  unfold State.homeMerge State.memWf
  dsimp only
  rw [State.fireWatches_mem]
  refine mergeBytes_wf _ _ _ _ ?_
  rw [State.coverPoison_mem]
  split
  · exact State.snoopWrite_memWf a bs.length w
  · split
    · rw [State.recallFor_mem]
      exact w
    · exact w

theorem State.dropLine_mem (s : State) (a : Nat) : (s.dropLine a).mem = s.mem := by
  unfold State.dropLine
  dsimp only
  split <;> rfl

theorem State.atomWrite_memWf {s : State} (a : Nat) (bs : List Byte) (rc : Bool) (w : s.memWf) : (s.atomWrite a bs rc).memWf := by
  unfold State.atomWrite
  split
  · unfold State.memWf
    rw [State.dropLine_mem]
    exact State.homeMerge_memWf _ _ _ _ w
  · dsimp only
    split
    · unfold State.memWf
      rw [State.dropLine_mem]
      exact State.homePut_memWf a bs w
    · exact State.homePut_memWf a bs w

theorem State.atomSend_memWf {s : State} (a : Nat) (bs : List Byte) (rc : Bool) (w : s.memWf) : (s.atomSend a bs rc).memWf := by
  unfold State.atomSend State.memWf
  rw [State.keepSentAt_mem]
  refine State.atomWrite_memWf a bs rc ?_
  unfold State.memWf
  rw [State.sendAt_mem]
  exact w

theorem State.devAtomic_memWf {s : State} (a : Nat) (bs : List Byte) (w : s.memWf) : (s.devAtomic a bs).memWf :=
  State.homeMerge_memWf _ _ _ _ w

theorem State.devStore_memWf {s : State} (a : Nat) (bs : List Byte) (w : s.memWf) : (s.devStore a bs).memWf :=
  State.fireWatches_memWf (State.store_memWf _ _ (State.coverPoison_memWf _ _ (State.snoopWrite_memWf a bs.length w)))

theorem State.setRcb_memWf {s : State} (r off n v : Nat) (w : s.memWf) : (s.setRcb r off n v).memWf :=
  State.devStore_memWf _ _ w

/-- With no host copy out, a read of a home leaves memory alone. -/
theorem State.homeRead_mem {s : State} (a n : Nat) (h : s.host.dirs = []) : (s.homeRead a n).1.mem = s.mem := by
  unfold State.homeRead
  split
  · simp [State.touch, State.snoopRead, h]
  · split <;> rfl
  · rfl
  · exact State.freeBytes_mem s n
  · rfl

end Sys2Proof.Machine
end

