-- ==== Sys2Proof/Tests/Slice0.lean ====
section
/-!
SUPPORT. Tests of the model on the spec's own worked examples, the smoke test of well-formedness, and a witness for the hypotheses
of each statement.
-/

open Sys2Proof Sys2Proof.Machine

namespace Sys2Proof.Tests

-- Each theorem here is evaluated by the kernel for some time; run in turn, they need one thread and little memory.
set_option Elab.async false

/-! ### States and fields that the tests use -/

/-- No guard, no waits, no slot. -/
def h0 : Hdr := ⟨false, 0, 0, none⟩

/-- Guarded by !p0. -/
def hNo : Hdr := ⟨true, 0, 0, none⟩

/-- The reset state with a stream to issue. -/
def atStrm (k : Strm) : State := { State.reset with who := k }

def s64 : ITy := ⟨true, 3⟩
def z8 : ITy := ⟨false, 0⟩
def s8 : ITy := ⟨true, 0⟩

/-! ### Words of the spec -/

/-- The example after R162. -/
theorem test_word_add : decodeWord 0x040B00A4617C800B00000000 =
    .ok (.add ⟨true, 3, 0, some 2⟩ ⟨false, s64, .t, .n 5, .small 0x39, 0⟩) := by decide

/-- The example of R186. -/
theorem test_word_bc : decodeWord 0x0C100002041D4000FFFFFFFA =
    .ok (.bc h0 .lt ⟨true, 2⟩ (.n 2) (.n 7) 0xFFFFFFFA) := by decide

/-- The example of R211. -/
theorem test_word_aadd : decodeWord 0x205200982619A20000000040 = .ok (.aadd ⟨false, 2, 0, some 1⟩
    ⟨.small 1, true, false, true, false, false, .pkg, ⟨3, .n 6, 0x40⟩⟩) := by decide

/-- The example of group VEC. -/
theorem test_word_vmul : decodeWord 0x40200000A008080004080040 = .ok (.vmul h0
    ⟨⟨1, .f32, 2⟩, ⟨.rne, false, none⟩, 0x028, 0x008, .col 0x020⟩) := by decide

/-- The example of group MTX. -/
theorem test_word_mma : decodeWord 0x600000002000105110245210 = .ok (.mma h0 none
    ⟨⟨2, 1, 5, 1⟩, .n 8, .n 9, .n 10, .zero⟩) := by decide

/-- The example of group UPD. -/
theorem test_word_uadamw : decodeWord 0x6810000320404B1908000064 = .ok (.uadamw h0
    ⟨⟨2, .f32, 0⟩, ⟨.rne, false, none⟩, 200, 64, 300, 400, 4, 6⟩) := by decide

/-- The example of group EXP. -/
theorem test_word_xenq : decodeWord 0x700000046184002000000000 = .ok (.xenq h0 .t (.n 6) 8 true false 0) := by decide

/-- The example of the CSR instructions. -/
theorem test_word_csrw : decodeWord 0xC03000000100000000000104 = .ok (.csrw h0 0x104 (.n 4)) := by decide

/-- Words of the programs of the spec: CPYT, VQNT, VSORT, XCMB, REL.commit, SPAWN, JOIN. -/
theorem test_word_programs :
    decodeWord 0x30200100000000210A183881 = .ok (.cpyt ⟨false, 0, 1, none⟩ true ⟨⟨0, 0, 2, 1⟩, .n 5, .n 6, .n 7, .n 8⟩) ∧
    decodeWord 0x414000002808024004C08000 = .ok (.vqnt h0 ⟨⟨1, .e4m3, 0⟩, ⟨.rne, true, none⟩, 10, 8, 9⟩) ∧
    decodeWord 0x4C300000040000C020000003 = .ok (.vsort h0 ⟨⟨0, .f32, 0⟩, true, some (3, 2), 1, 0⟩) ∧
    decodeWord 0x702001048682200000000000 = .ok (.xcmb ⟨false, 0, 1, none⟩ ⟨.discard, false, .pkg, ⟨3, .q, 0⟩⟩) ∧
    decodeWord 0x240000000A86390000000040 = .ok (.relCommit h0 true ⟨5, .zero, 0x40⟩) ∧
    decodeWord 0x743301046603A80000004100 = .ok (.spawn ⟨false, 3, 1, none⟩ .t true ⟨3, .n 0, 0x4100⟩) ∧
    decodeWord 0x744002002639800000000000 = .ok (.join ⟨false, 0, 2, none⟩ 1 .core ⟨3, .n 14, 0⟩) := by decide

/-- Words of the time-slicing scheduler. -/
theorem test_word_scheduler :
    decodeWord 0xC0A000012100001000000000 = .ok (.preempt h0 true ⟨.n 9, .n 4, 0⟩) ∧
    decodeWord 0xC09000014100000000000000 = .ok (.mdrain h0 ⟨.n 10, .n 4, 0⟩) ∧
    decodeWord 0xC06000016102800000000000 = .ok (.ctxsv h0 (.n 11) (.n 4) (.n 5) 0) ∧
    decodeWord 0xC08000018103800000000000 = .ok (.semmap h0 false (.n 12) (.n 4) (.n 7) 0) ∧
    decodeWord 0xC0700001A103000000000000 = .ok (.ctxld h0 (.n 13) (.n 4) (.n 6) 0) ∧
    decodeWord 0x0C9000000000000000000000 = .ok (.nop h0) := by decide

/-- The bytes that the spec gives for PREEMPT.wait. -/
theorem test_bytes_preempt : bytesOfWord 0xC0A000012100001000000000 =
    [0x00, 0x00, 0x00, 0x00, 0x10, 0x00, 0x00, 0x21, 0x01, 0x00, 0xA0, 0xC0] := by decide

/-- A word with an unassigned group, an unassigned minor, a set bit where a field must be zero. -/
theorem test_word_refused : (decodeWord 0).toOption = none ∧ (decodeWord 0x1C0000000000000000000000).toOption = none ∧
    (decodeWord 0x0C9000000000000000000001).toOption = none := by decide

/-! ### Ill-formed terms, each refused by its check -/

theorem test_illformed_imm : (Instr.add h0 ⟨false, s64, .n 0, .n 1, .n 2, 5⟩).wellFormed = false ∧
    (Instr.brIndirect h0 .imm).wellFormed = false ∧ (Instr.st h0 ⟨.imm, 0, .core, ⟨0, .zero, 0⟩⟩).wellFormed = false ∧
    (Instr.csrw h0 0x100 .imm).wellFormed = false ∧ (Instr.loop h0 (.src .imm) 1).wellFormed = false ∧
    (Instr.jtab h0 .imm 0 1 0).wellFormed = false ∧ (Instr.bc h0 .eq s64 (.n 0) .imm 0).wellFormed = false := by decide

theorem test_illformed_ctrl : (Instr.jtab h0 (.n 0) 0 1 2).wellFormed = false ∧ (Instr.loop h0 (.imm 1) 0).wellFormed = false ∧
    (Instr.lbrk h0 0).wellFormed = false ∧ (Instr.fence h0 .pkg 1).wellFormed = false ∧
    (Instr.fence h0 .pkg 4).wellFormed = false ∧ (Instr.pfxm ⟨1024, 0, 0, 0, 0, false⟩).wellFormed = false ∧
    (Instr.pfxm ⟨0, 0, 1024, 0, 0, false⟩).wellFormed = false ∧ (Instr.pfxm ⟨0, 1025, 0, 0, 0, false⟩).wellFormed = false ∧
    (Instr.pfxm ⟨0, 0, 0, 1025, 0, false⟩).wellFormed = false := by decide

theorem test_illformed_float : (Instr.fcvt h0 ⟨.f32, .bf16, true, false, .rne, .n 0, .n 1, 0⟩).wellFormed = false ∧
    (Instr.vadd h0 ⟨⟨0, .s32, 0⟩, ⟨.rz, false, none⟩, 0, 0, .full 0⟩).wellFormed = false ∧
    (Instr.vadd h0 ⟨⟨0, .s32, 0⟩, ⟨.rne, false, some 1⟩, 0, 0, .full 0⟩).wellFormed = false ∧
    (Instr.vabs h0 ⟨⟨0, .f32, 0⟩, true, 0, 0⟩).wellFormed = false ∧ (Instr.vbcast h0 ⟨⟨0, .f32, 0⟩, 0, .full 0⟩).wellFormed = false ∧
    (Instr.vrsum h0 ⟨⟨0, .s32, 0⟩, .rz, false, false, 0, 0⟩).wellFormed = false ∧
    (Instr.vrsum h0 ⟨⟨0, .f32, 0⟩, .rz, true, false, 0, 0⟩).wellFormed = false ∧
    (Instr.vrmax h0 ⟨⟨0, .s32, 0⟩, .rne, true, false, 0, 0⟩).wellFormed = false := by decide

theorem test_illformed_fields : (Instr.cld h0 ⟨0, .core, ⟨1, .zero, 0⟩⟩).wellFormed = false ∧
    (Instr.cnarrow h0 ⟨0, 1, .n 0, .n 1, 0, 0⟩).wellFormed = false ∧
    (Instr.vdefer h0 ⟨⟨0, .f32, 0⟩, 0, 0, 0, 0, 0, 0, 1⟩).wellFormed = false ∧
    (Instr.uaxpby h0 ⟨⟨0, .f32, 0⟩, ⟨.rne, false, none⟩, 0, 0, 0, 1, 0, 0⟩).wellFormed = false ∧
    (Instr.uadamw h0 ⟨⟨0, .f32, 0⟩, ⟨.rne, false, none⟩, 0, 0, 0, 0, 1, 0⟩).wellFormed = false ∧
    (Instr.uema h0 ⟨⟨0, .f32, 0⟩, ⟨.rne, false, none⟩, 0, 0, 1, 0, 0, 0⟩).wellFormed = false := by decide

/-! ### The spec's worked examples -/

/-- The table after R253: VQNT.e4m3 by 1.5625 and 1.0. -/
theorem test_vqnt_table :
    (let q (sat : Bool) (x d : Nat) := SF.packTo .e4m3 (.rnd .rne) sat (quotient (fvOf .f32 x) (fvOf .f32 d))
    [q true 0x442F0000 0x3FC80000, q true 0xC3AF0000 0x3FC80000, q true 0x3F800000 0x3FC80000, q true 0x3A83126F 0x3FC80000,
      q true 0x43EB0000 0x3F800000, q false 0x43EB0000 0x3F800000, q true 0x80000000 0x3F800000, q true 0x7FC00000 0x3F800000,
      q true 0 0x3F800000]) = [0x7E, 0xF6, 0x32, 0x00, 0x7E, 0x7F, 0x80, 0x7F, 0x00] := by decide +kernel

/-- The replay example after R124: two partly overlapping writers, in either order. -/
theorem test_replay_order :
    (let a (m : Mem × List (Nat × Key)) := mergeBytes m.1 m.2 0 (List.replicate 8 0x11) ⟨0xF42401A05, 0x1A05, 0⟩
    let b (m : Mem × List (Nat × Key)) := mergeBytes m.1 m.2 4 (List.replicate 8 0x22) ⟨0xF42362B07, 0x2B07, 0⟩
    (((a (b ([], []))).1.bytes 0 12, (b (a ([], []))).1.bytes 0 12, (b ([], [])).1.bytes 0 12))) =
    (List.replicate 8 0x11 ++ List.replicate 4 0x22, List.replicate 8 0x11 ++ List.replicate 4 0x22,
      List.replicate 4 0 ++ List.replicate 8 0x22) := by decide +kernel

/-- The example of R436: EOL of a port at 12,000 hours. -/
theorem test_eol : eolOf 12000 62000 80000 250 = 84000 := by decide

/-- The example of R451: port 40 comes up with its wavelength 5 failing here. -/
theorem test_port_bringup : ((Port.reset.bringup 0 0x3DF 0x3FF).active, (Port.reset.bringup 0 0x3DF 0x3FF).state) =
    (0x1DF, 2) := by decide +kernel

/-- R76: for index 0 the hash is 0 where the counter equals the seed. -/
theorem test_kiln_zero : kiln 0x1234 0x1234 0 = 0 := by decide +kernel

/-- The order of a 2 by 2 Hilbert curve. -/
theorem test_hilbert : (List.range 4).map (hilbertPoint 1) = [(0, 0), (0, 1), (1, 1), (1, 0)] := by decide +kernel

/-! ### Witnesses: registers, predicates, stalls, results

Each names a state and operands that meet the hypotheses of the clauses of one statement. -/

/-- Nothing holds an instruction of this use at issue. -/
def runs (g : Gate) (h : Hdr) (u : Use) (s : State) : Bool :=
  (s.gateTrap g u).isNone && (s.blocked h u).isNone && s.guard h

theorem executes_of {g : Gate} {h : Hdr} {u : Use} {s : State} (e : runs g h u s = true) : Executes g h u s := by
  simp only [runs, Bool.and_eq_true, Option.isNone_iff_eq_none] at e
  exact ⟨e.1.1, e.1.2, e.2⟩

/-- An operation answers, and P holds of what it answers. -/
def answers {α ε : Type} (p : State × Except ε α) (P : State → α → Bool) : Bool :=
  match p with
  | (u, .ok x) => P u x
  | (_, .error _) => false

theorem exists_of_answers {α ε : Type} {p : State × Except ε α} {P : State → α → Bool} (e : answers p P = true) :
    ∃ u x, p = (u, .ok x) ∧ P u x = true := by
  rcases p with ⟨u, _ | x⟩
  · simp [answers] at e
  · exact ⟨u, x, rfl, e⟩

theorem test_witness_RoundTrip : (Instr.nop h0).wellFormed = true ∧ wordGroup (encode (.nop h0)) ≠ 0 := by decide

theorem test_witness_MemoryCanonical : State.reset.memWf ∧ step State.reset = .next { State.reset with who := .l, turn := .strm .c } :=
  ⟨rfl, rfl⟩

/-- p0, negated: with no slot in its mask, and with one that counts. -/
theorem test_witness_PredicateZero : (Instr.nop hNo).hdr? = some hNo ∧ hNo.pred = 0 ∧ hNo.pneg = true ∧
    (State.mapCur State.reset fun x => { x with sb := x.sb.set 7 1 }).cur.sbWaits 0x80 = true := by decide

theorem test_witness_PredicatedFalse : (Instr.nop hNo).hdr? = some hNo ∧ State.reset.guard hNo = false := by decide

theorem test_witness_DestinationWrites : (atStrm .l).who = .l ∧ (atStrm .c).who = .c := by decide

/-- The ends of an 8-bit range, and beyond them; a divisor. -/
theorem test_witness_ReadingAndWriting : s8.lo ≤ -128 ∧ (127 : Int) ≤ s8.hi ∧ (-129 : Int) < s8.lo ∧ s8.hi < (128 : Int) ∧
    z8.lo ≤ 0 ∧ (255 : Int) ≤ z8.hi ∧ (-1 : Int) < z8.lo ∧ z8.hi < (256 : Int) ∧ (1 : Word) ≠ 0 := by decide

/-- Two sources, one source; a shift of 63 and of 64; the least and the greatest count. -/
theorem test_witness_IntegerResults : Executes (gateR anyStrm [.n 1, .n 2]) h0 (useD [.n 1, .n 2] (.n 0)) State.reset ∧
    Executes (gateR anyStrm [.zero]) h0 (useD [.zero] .t) State.reset ∧ (0 : Nat) < 2 ^ 8 ∧ 2 ^ 64 - 1 < 2 ^ 64 :=
  ⟨executes_of (by decide), executes_of (by decide), by decide, by decide⟩

theorem test_witness_FieldResults : Executes (gateR anyStrm [.n 1, .n 2, .n 3]) h0 (useD [.n 1, .n 2, .n 3] (.n 0)) State.reset ∧
    Executes (gateR anyStrm [.n 1, .n 2]) h0 { useD [.n 1, .n 2] (.n 0) with preds := [7] } State.reset ∧
    Executes (gateR anyStrm [.n 0]) h0 (useD [.n 0] (.n 0)) State.reset :=
  ⟨executes_of (by decide), executes_of (by decide), executes_of (by decide)⟩

/-- One, two and three sources, and predicates. A NaN, the infinities, the zeros, and 1.5 and its opposite, of f32. -/
theorem test_witness_FloatResults : Executes (gateN anyStrm) h0 { useS [] with preds := [1, 2] } State.reset ∧
    Executes (gateR anyStrm [.n 1]) h0 (useD [.n 1] (.n 0)) State.reset ∧
    Executes (gateR anyStrm [.n 1, .n 2]) h0 (useD [.n 1, .n 2] (.n 0)) State.reset ∧
    Executes (gateR anyStrm [.n 1, .n 2, .n 3]) h0 (useD [.n 1, .n 2, .n 3] (.n 0)) State.reset ∧
    fvOf SFTy.f32.ety 0x7FC00000 = .nan ∧ fvOf SFTy.f32.ety 0xFF800000 = .inf true ∧ fvOf SFTy.f32.ety 0x7F800000 = .inf false ∧
    (fvOf SFTy.f32.ety 0).isZero = true ∧ (fvOf SFTy.f32.ety 0).isNeg = false ∧ (fvOf SFTy.f32.ety 0x80000000).isZero = true ∧
    (fvOf SFTy.f32.ety 0x80000000).isNeg = true ∧ fvOf SFTy.f32.ety 0x3FC00000 = .fin false 12582912 (-23) ∧
    fvOf SFTy.f32.ety 0xBFC00000 = .fin true 12582912 (-23) :=
  ⟨executes_of (by decide), executes_of (by decide), executes_of (by decide), executes_of (by decide), by decide⟩

/-- FADD of 1.5 and 2.25 (R179): 3.75. -/
theorem test_fadd_value : fadd .f32 (.rnd .rne) false 0x3FC00000 0x40100000 = 0x40700000 := by decide

/-- Of -0 and +0 the minimum is -0 and the maximum +0 (R79). -/
theorem test_fmin_fmax_zeros : (fmin .f32 0 0x80000000, fmax .f32 0x80000000 0) = (0x80000000, 0) := by decide

theorem test_witness_ScalePatterns : (0xFE : Nat) ≤ 0xFE ∧ fvOf .e8m0 0xFE = .fin false 1 127 ∧ fvOf .e8m0 0 = .fin false 1 (-127) := by
  decide

theorem test_witness_ScalarFrame : Executes (gateR anyStrm [.n 1, .n 2]) h0 (useD [.n 1, .n 2] (.n 0)) State.reset ∧
    ∃ t, exec (.add h0 ⟨false, s64, .n 0, .n 1, .n 2, 0⟩) State.reset = .next t :=
  ⟨executes_of (by decide), _, rfl⟩

/-! ### Witnesses: the step and group CTRL -/

/-- A stream at the first of two words of a section, in a step of tenant 0. -/
def coded : State := { State.reset.withFetchWord 96 0x0C9000000000000000000000 with who := .l }

def nopWord : IWord := 0x0C9000000000000000000000

/-- The state before its turn, and the address of its next word. -/
def turning : State := { coded with turn := coded.turn.next, who := .l }

def nextAt : BitVec 32 := turning.cur.pc + BitVec.ofNat 32 (3 * turning.cur.npfx)

/-- What the fetch of the next word leaves. -/
def fetched : State := (turning.fetch nextAt 12).1.mapCur (·.keepWord nextAt nopWord)

theorem fetch_nop : turning.fetch nextAt 12 = ((turning.fetch nextAt 12).1, .ok (bytesOfWord nopWord)) := by
  have h : (match turning.fetch nextAt 12 with
    | (_, .ok bs) => decide (bs = bytesOfWord nopWord)
    | (_, .error _) => false) = true := by decide +kernel
  split at h
  · rename_i e
    rw [e, of_decide_eq_true h]
  · cases h

/-- The word at the stream decodes to NOP, and a step runs it. What follows a move asked for, by an event that is seen and not. -/
theorem test_witness_StepRuns : coded.agenda = [] ∧ coded.turn = .strm .l ∧
    FetchesNext { coded with turn := coded.turn.next } .l fetched (.nop h0) ∧
    State.reset.deafTo (.dispatch) = false ∧ State.deafTo { State.reset with boot := .fatal } .dispatch = true :=
  ⟨rfl, rfl, ⟨by decide, by decide, by decide, by decide, by decide, by decide, by decide, nopWord,
    .inr ⟨by decide, _, _, fetch_nop, by decide, rfl⟩, by decide +kernel, by decide +kernel⟩, by decide, by decide⟩

/-- A word of the section, and the header of the section. -/
theorem test_witness_leads : LeadsTo coded (coded.cur.pc + 3) (coded.gotoWord (coded.cur.pc + 3)) ∧
    LeadsTo coded (coded.cur.pc - 2) ((coded.header (coded.cur.pc - 2)).1.gotoHeader (coded.cur.pc - 2)) :=
  ⟨.inl ⟨1, by decide, by decide, rfl⟩, .inr ⟨by decide, _, _, rfl, by decide +kernel, rfl⟩⟩

/-- The stream of coded with other registers and loops. -/
def codedWith (f : Stream → Stream) : State := coded.mapCur f

/-- BR, BR a, BC, CALL, CALL a: each executes and leads on; BC with a condition that holds and one that fails. -/
theorem test_witness_Transfers : Executes (gateN anyStrm) h0 (useS []) coded ∧
    LeadsTo coded.markIssued (coded.cur.pc + 3) (coded.markIssued.gotoWord (coded.cur.pc + 3)) ∧
    (∀ u, Executes (gateN anyStrm) h0 (useS [.n 0, .n u]) coded) ∧ Executes (gateN anyStrm) h0 (useD [.n 0] .t) coded ∧
    condHolds .eq s64 (coded.markIssued.val 0 (.n 0)) (coded.markIssued.valAfter 0 [.n 0] (.n 1)) = true ∧
    condHolds .lt s64 (coded.markIssued.val 0 (.n 0)) (coded.markIssued.valAfter 0 [.n 0] (.n 1)) = false ∧
    coded.cur.next ≠ coded.cur.secEnd :=
  ⟨executes_of (by decide), .inl ⟨1, by decide, by decide, rfl⟩, fun u => executes_of (by revert u; decide), executes_of (by decide),
    by decide⟩

/-- RET to the last word of the section: its return record in n0. -/
def returning : State := codedWith fun x => { x with n := x.n.set 0 0x1000000010005 }

theorem test_witness_Transfers_ret : Executes (gateN anyStrm) h0 (useS [.n 0]) returning ∧
    (∃ u g, returning.markIssued.header ((returning.markIssued.val 0 (.n 0)).extractLsb' 32 32) = (u, .ok g) ∧
      decide (g.map (·.len) = some 2) = true) ∧
    (returning.markIssued.val 0 (.n 0)).setWidth 32 = wordAddr ((returning.markIssued.val 0 (.n 0)).extractLsb' 32 32) 1 :=
  ⟨executes_of (by decide), exists_of_answers (P := fun _ (g : Option SecHdr) => decide (g.map (·.len) = some 2)) (by decide +kernel),
    by decide⟩

/-- No store of the stream holds the access, its entry is 0, and the stream stands at word 0 of its section. -/
def jtabOk (u : State) (ps : List PPart) : Bool :=
  let r := u.loadElem (ps.map (·.part)) (u.ownBytes (ps.map (·.part)))
  !u.soWait ps && r.2 = some 0 && r.1.cur.pc = wordAddr r.1.cur.shdr 0

/-- JTAB: an index of LEN, and the last below it, whose entry 0 leads back to the word itself. -/
theorem test_witness_Transfers_jtab : Executes (gateN anyStrm) h0 (useS [.n 0]) coded ∧
    (0#16).toNat ≤ (coded.markIssued.val 0 (.n 0)).toNat ∧ (coded.markIssued.val 0 (.n 0)).toNat < (1#16).toNat ∧
    ∃ u ps, coded.markIssued.access coded.tenant coded.core.caps[(0 : Fin 16)] (0x1000 : Nat) 4 1 [permR] .read = (u, .ok ps) ∧
      jtabOk u ps = true :=
  ⟨executes_of (by decide), by decide, by decide, exists_of_answers (by decide +kernel)⟩

/-- What stays inside a section keeps its frame: NOP, SBWAIT, LOOP, QCNT, BPUSH, QPUSH, QPOP execute and come to a next state. -/
theorem test_witness_ControlFrame : Executes (gateN anyStrm) h0 (useS []) coded ∧ (∃ t, exec (.nop h0) coded = .next t) ∧
    (∃ t, exec (.bpush h0 false 1 false) coded = .next t) ∧ Executes (gateR anyStrm [.n 0]) h0 (useS [.n 0]) coded ∧
    qPusher 0 = coded.who ∧ qPopper 4 = coded.who ∧ (∃ t, exec (.qpush h0 0 1 (.n 0) 0) coded = .next t) ∧
    ∃ t, exec (.qpop h0 4 .t 1) coded = .next t :=
  ⟨executes_of (by decide), ⟨_, rfl⟩, ⟨_, rfl⟩, executes_of (by decide), by decide, by decide, ⟨_, rfl⟩, _, rfl⟩

/-- LOOP that fits to the last word, that goes one past, with a count of 0 and of 1; three levels open. -/
theorem test_witness_Loops : Executes (gateN anyStrm) h0 (useS []) coded ∧
    (let past (t : State) (stop e : BitVec 32) : Bool := decide ((e - t.cur.shdr).toNat < (stop - t.cur.shdr).toNat)
    past coded.markIssued (coded.markIssued.cur.next + 3) coded.markIssued.cur.secEnd = false ∧
    past coded.markIssued (coded.markIssued.cur.next + 6) coded.markIssued.cur.secEnd = true) ∧
    coded.markIssued.cur.loops.length ≤ 3 ∧
    (codedWith fun x => { x with loops := [⟨1, 0, 1⟩, ⟨1, 0, 2⟩, ⟨1, 0, 3⟩] }).markIssued.cur.loops.length = 3 :=
  ⟨executes_of (by decide), by decide⟩

/-- LBRK of as many levels as are open, and of one more; the step of the only level at its last word, with passes to go and on its
last pass; the step of an inner one that ends before the outer. -/
theorem test_witness_Loops_lbrk : (let s := codedWith fun x => { x with loops := [⟨2, 0, 30⟩] }
    (1 ≤ s.markIssued.cur.loops.length ∧ s.markIssued.cur.loops.length < 2) ∧ (0 + 1 < (2 : BitVec 32)) ∧ ((2 : BitVec 32) ≤ 1 + 1) ∧
      (30 : BitVec 32) ≠ 60) := by decide

/-- Two levels that end at the same word, the inner one on its last pass, the outer one with passes to go and on its last. -/
theorem test_witness_Loops_shared : (let x (n : BitVec 32) : Stream := (codedWith fun x => { x with loops := [⟨1, 0, 30⟩, ⟨n, 0, 30⟩] }).cur
    ((x 2).loops = [⟨1, 0, 30⟩, ⟨2, 0, 30⟩] ∧ (1 : BitVec 32) ≤ (x 2).lc[(1 : Fin 3)] + 1 ∧ (x 2).lc[(0 : Fin 3)] + 1 < (2 : BitVec 32)) ∧
      (1 : BitVec 32) ≤ (x 1).lc[(0 : Fin 3)] + 1) := by decide

theorem test_witness_Waits : Executes (gateN anyStrm) h0 (useS []) coded ∧
    ((∀ k : Fin 8, coded.markIssued.cur.sb[k] = 0) ∧ ∀ e ∈ coded.markIssued.cur.rq, e.2.isSome) ∧
    ¬((∀ k : Fin 8, (codedWith fun x => { x with sb := x.sb.set 7 1 }).markIssued.cur.sb[k] = 0)) ∧
    coded.cur.wide = none ∧ coded.cur.rows = none ∧ coded.cur.pfxLast = false ∧
    (codedWith fun x => { x with npfx := 1 }).cur.pfxLast = true ∧ coded.cid < 0x1000 ∧ (0x1000 ≤ State.cid { coded with cid := 0x100F }) ∧
    coded.core.ctx.isSome = true :=
  ⟨executes_of (by decide), by decide⟩

/-- Asleep until a clock not yet reached, and just reached; with its tag busy and free. -/
theorem test_witness_Sleeps : Executes (gateR anyStrm [.n 0]) h0 (useS [.n 0]) coded ∧
    coded.markIssued.sleepOver ⟨1, 1, 0, 0, none⟩ = false ∧ coded.markIssued.sleepOver ⟨1, 0, 0, 0, none⟩ = true ∧
    coded.markIssued.sleepOver ⟨0, 0, 0, 0, none⟩ = true ∧ coded.markIssued.sleepOver ⟨0, 1, 0, 0, none⟩ = false ∧
    coded.markIssued.sleepOver ⟨2, 0, 0, 0, none⟩ = true ∧ coded.markIssued.sleepOver ⟨2, 1, 0, 0, none⟩ = false ∧
    coded.markIssued.core.tagBusy 0 = false ∧ coded.markIssued.sleepOver ⟨0, 0xFFFF000000000000, 0, 0, none⟩ = true ∧
    (codedWith fun x => { x with asleep := some ⟨1, 0, 0, 0, none⟩ }).cur.asleep = some ⟨1, 0, 0, 0, none⟩ :=
  ⟨executes_of (by decide), by decide⟩

/-- A branch-outcome queue with a head, an empty one, one of 15 and one of 16 entries; data queues that are empty and full. -/
def queued (n : Nat) : State := { coded with core := { coded.core with
  bq := Vector.replicate 6 ⟨List.replicate n (true, false), 0⟩, ldq := ⟨List.replicate (2 * n) ⟨some 1, false, 0⟩, 0⟩ } }

theorem test_witness_QueueResults : Executes (gateN anyStrm) h0 (useS []) (queued 1) ∧
    ((queued 1).core.bq[popBq (queued 1).who false]).head? = some true ∧ true ≠ false ∧
    LeadsTo (queued 1).markIssued ((queued 1).cur.pc + 3) ((queued 1).markIssued.gotoWord ((queued 1).cur.pc + 3)) ∧
    ((queued 0).markIssued.core.bq[popBq .l false]).head? = none ∧
    Executes (gateN anyStrm) h0 { useS [] with preds := [1] } (queued 15) ∧
    ((queued 15).markIssued.core.bq[pushBq .l false]).ents.length < 16 ∧ 16 ≤ ((queued 16).markIssued.core.bq[pushBq .l false]).ents.length ∧
    Executes (gateR anyStrm [.n 0]) h0 (useS [.n 0]) (queued 0) ∧ (queued 15).markIssued.core.qCount 0 < qSize 0 ∧
    qSize 0 ≤ (queued 16).markIssued.core.qCount 0 ∧ qPusher 0 = .l ∧ qPopper 4 = .l ∧ Executes (gateN anyStrm) h0 (useD [] .t) (queued 1) ∧
    ((queued 1).markIssued.qPop 4).isSome = true ∧ ((queued 0).markIssued.qPop 4) = none ∧ qPusher 1 ≠ .l ∧ qPopper 0 ≠ .l :=
  ⟨executes_of (by decide), by decide, by decide, .inl ⟨1, by decide, by decide, rfl⟩, by decide, executes_of (by decide), by decide,
    by decide, executes_of (by decide), by decide, by decide, by decide, by decide, executes_of (by decide), by decide⟩

/-! ### Witnesses: groups MEM, SYNC and CAP -/

/-- Every permission on the first GiB of local HBM, whose one page is RC. -/
def allCap : Cap := ⟨false, 0, 0, 0, 0, 2 ^ 30, 0b11111⟩

/-- A stream of a step of tenant 0 that holds allCap in c1. -/
def able (k : Strm) : State := { coded with who := k, core := { coded.core with caps := coded.core.caps.set 1 (some allCap) } }

/-- An operand at a byte of c1. -/
def at1 (off : BitVec 40) : MAddr := ⟨1, .zero, off⟩

/-- An operation fails with a cause. -/
def fails {α : Type} (p : State × Except Bad α) (c : Cause) : Bool :=
  match p with
  | (_, .error (.cause d _)) => c = d
  | (_, _) => false

theorem exists_of_fails {α : Type} {p : State × Except Bad α} {c : Cause} (e : fails p c = true) :
    ∃ u fva, p = (u, .error (.cause c fva)) := by
  rcases p with ⟨u, (_ | _) | x⟩ <;> simp [fails] at e
  exact ⟨u, _, by rw [e]⟩

/-- An Except answers, and P holds of it. -/
def holdsOf {α ε : Type} (p : Except ε α) (P : α → Bool) : Bool :=
  match p with
  | .ok x => P x
  | .error _ => false

theorem exists_of_holdsOf {α ε : Type} {p : Except ε α} {P : α → Bool} (e : holdsOf p P = true) : ∃ x, p = .ok x ∧ P x = true := by
  rcases p with _ | x
  · simp [holdsOf] at e
  · exact ⟨x, rfl, e⟩

/-- The last bytes of the window, one past it, before it; a permission it lacks; an address that is not aligned. -/
theorem test_witness_AccessChecks : (∃ u w, (able .l).window (some allCap) = (u, .ok w) ∧
      (decide (w.len = 2 ^ 30) && w.perm == 0b11111 && decide (w.vbase = 0)) = true) ∧
    (-1 : Int) < 0 ∧ ((2 ^ 30 : Nat) : Int) < (2 ^ 30 - 7 : Int) + 8 ∧ (2 ^ 30 - 8 : Int) + 8 ≤ (2 ^ 30 : Nat) ∧
    (0b00101#5).getLsbD permW = false ∧ (0 + (4 : Int).toNat) % 16 ≠ 0 ∧ allCap.dev = false ∧
    ∃ v ps, (able .l).range 0 (2 ^ 30 - 8) 8 .read = (v, .ok ps) ∧ decide (ps.length = 1) = true :=
  ⟨exists_of_answers (P := fun _ (w : Window) => decide (w.len = 2 ^ 30) && w.perm == 0b11111 && decide (w.vbase = 0)) (by decide +kernel),
    by decide, by decide, by decide, by decide, by decide, by decide,
    exists_of_answers (P := fun _ (ps : List PPart) => decide (ps.length = 1)) (by decide +kernel)⟩

/-- A load and a store one byte past the window. -/
theorem test_witness_AccessTraps : Executes (gateM [.l]) h0 (useD [(at1 0).oreg.src] .t) (able .l) ∧
    Executes (gateM [.s]) h0 (useS [.n 0, (at1 0).oreg.src]) (able .s) ∧
    Executes (gateM [.l]) h0 (useD [.n 0, (at1 0).oreg.src] .t) (able .l) ∧
    (∃ u fva, (able .l).markIssued.memAccess [] (at1 0x3FFFFFF9) 8 1 [permR] .read = (u, .error (.cause .capfault fva))) ∧
    (∃ u fva, (able .s).markIssued.memAccess [.n 0] (at1 0x3FFFFFF9) 8 1 [permW] .write = (u, .error (.cause .capfault fva))) ∧
    (∃ u fva, (able .l).markIssued.memAccess [.n 0] (at1 4) 8 8 [permA] .write = (u, .error (.cause .align fva))) ∧
    ∃ u fva, (able .s).markIssued.memAccess [.n 0] (at1 4) 8 8 [permA] .write = (u, .error (.cause .align fva)) :=
  ⟨executes_of (by decide), executes_of (by decide), executes_of (by decide), exists_of_fails (by decide +kernel),
    exists_of_fails (by decide +kernel), exists_of_fails (by decide +kernel), exists_of_fails (by decide +kernel)⟩

/-- The checks pass at the window's last 8 bytes; LDQ of 8 elements; no earlier SO access is outstanding. -/
theorem test_witness_LoadsIssue : Executes (gateM [.l]) h0 (useD [(at1 0).oreg.src] .t) (able .l) ∧
    (∃ u ps, (able .l).markIssued.memAccess [] (at1 0x3FFFFFF8) 8 1 [permR] .read = (u, .ok ps) ∧ (!u.soWait ps) = true) ∧
    tileWord 0x400 = some (0, 1) ∧ tileWord (0x3FF + 0x100000) = some (0x3FF * 1024, 1024) ∧
    (able .l).markIssued.core.ldq.ents.length + (7 + 1) ≤ 32 ∧
    (∃ u els, (able .l).markIssued.elemParts [] (at1 0x2000) 8 1 [permR] .read 0 8 = (u, .ok els) ∧ (!u.soWait els.flatten) = true) ∧
    32 < (queued 16).markIssued.core.ldq.ents.length + (0 + 1) :=
  ⟨executes_of (by decide), exists_of_answers (P := fun u (ps : List PPart) => !u.soWait ps) (by decide +kernel), by decide, by decide,
    by decide, exists_of_answers (P := fun u (els : List (List PPart)) => !u.soWait els.flatten) (by decide +kernel), by decide⟩

/-- A load that is on its way to n2. -/
def loading : State :=
  match exec (.ld h0 ⟨.n 2, 3, false, false, .core, at1 0x40000⟩) (able .l) with
  | .next t => t
  | _ => able .l

def isLoad (a : Acc) : Bool :=
  match a.kind, a.dst, a.rel with
  | .load _ _ [_] _, .n _, none => true
  | _, _, _ => false

/-- The access that an instruction of the stream leaves on its way, and what the stream then looks like. -/
def accessOf (o : Host.Outcome State Fault Refusal) (P : State → Acc → Bool) : Bool :=
  match o with
  | .next t => t.core.accs.head?.any fun a => t.core.acc? a.id = some a && P t a
  | _ => false

/-- A load to n2, one to a result entry, one of two entries of the data queue, one to the tile registers, on lines that can be
read. -/
theorem test_witness_LoadCompletes : ((loading.core.acc? 0).map isLoad) = some true ∧
    accessOf (execLd h0 ⟨.t, 3, false, true, .core, at1 0x40000⟩ (able .l)) (fun t a => a.rel.isNone && a.dst = .entry 0 && a.pform &&
      match a.kind with
      | .load _ _ els own => (t.loadElems 8 false own els).2.all (·.isSome)
      | _ => false) = true ∧
    accessOf (execLdq h0 ⟨1, false, 3, .core, at1 0x40000⟩ (able .l)) (fun t a => a.rel.isNone && (match a.dst with
      | .ldq ids => decide ids.Nodup && ids.all fun i => t.core.ldq.ents.any fun e => e.id = i && e.val.isNone
      | _ => false)) = true ∧
    accessOf (execLdTile h0 ⟨.n 5, .core, at1 0x40000⟩ ((able .l).mapCur fun x => { x with n := x.n.set 5 0x400 })) (fun t a =>
      a.rel.isNone && t.core.tile.wf && match a.kind with
      | .loadTile 0 ps own => decide ((overlayOwn own ps (t.readWith State.readPart ps).2).length = 1)
      | _ => false) = true := by decide +kernel

/-- The same with a line that is poisoned: no value, and a POISON trap unless the load has .p. -/
theorem test_witness_LoadCompletes_poison : (let s : State := { loading with poisoned := [0x40000 / 64] }
    (s.core.acc? 0).any fun a => a.pform = false && match a.kind with
      | .load size sx els own => (s.loadElems size sx own els).2 == [none]
      | _ => false) = true := by decide +kernel

/-- The loaded value is the header that stands there. -/
def loadedValue : Word :=
  match execAccessComplete 0 loading with
  | .next t => if t.core.accs = [] then t.core.l.n[(2 : Fin 16)] else 0
  | _ => 0

theorem test_load_value : loadedValue = 0xB0000002C0FFFFFF := by decide +kernel

/-- A store to RC pages at S whose bytes go to the log; STQ of one value; a value missing. -/
def stores (u : State) (ps : List PPart) (bs : List Byte) : Bool :=
  let x := u.recallPlaced (partsOf ps)
  !u.soWait ps && !u.rcBusy ps && !partsPois ps && x.2 && holdsOf (x.1.storeBytes 0 128 bs.length (partsOf ps) bs) fun _ => true

def withSdq : State := { able .s with core := { (able .s).core with sdq := ⟨[⟨some 7, false, 0⟩], 0⟩ } }

theorem test_witness_StoresIssue : Executes (gateM [.s]) h0 (useS [.n 0, (at1 0).oreg.src]) (able .s) ∧
    (∃ u ps, (able .s).markIssued.memAccess [.n 0] (at1 0x3FFFFFF8) 8 1 [permW] .write = (u, .ok ps) ∧
      stores u ps (natLe 8 (u.val 0 (.n 0)).toNat) = true) ∧
    (∃ u els, withSdq.markIssued.elemParts [.q] (at1 0x2000) 8 1 [permW] .write 0 1 = (u, .ok els) ∧
      stores u els.flatten (natLe 8 7) = true) ∧
    1 ≤ withSdq.markIssued.core.sdq.poppable.length ∧ (able .s).markIssued.core.sdq.poppable.length < 1 :=
  ⟨executes_of (by decide), exists_of_answers (P := fun u (ps : List PPart) => stores u ps (natLe 8 (u.val 0 (.n 0)).toNat)) (by decide +kernel),
    exists_of_answers (P := fun u (els : List (List PPart)) => stores u els.flatten (natLe 8 7)) (by decide +kernel), by decide, by decide⟩

/-- The same bytes while a reduction of the stream on them is not performed yet. -/
def reducing : State := { able .s with core := { (able .s).core with
  accs := [⟨0, .s, 0, none, .none, false, false, 0, 0, false, false, .redi .add 0x3FFFFFF8 .rc true false 5, none, 0⟩] } }

theorem test_witness_StoresIssue_busy : Executes (gateM [.s]) h0 (useS [.n 0, (at1 0).oreg.src]) reducing ∧
    answers (reducing.markIssued.memAccess [.n 0] (at1 0x3FFFFFF8) 8 1 [permW] .write) (fun u ps => u.rcBusy ps && !u.soWait ps) = true ∧
    answers (reducing.markIssued.memAccess [.n 0] (at1 0x3FFFFFF0) 8 1 [permW] .write) (fun u ps => !u.rcBusy ps) = true :=
  ⟨executes_of (by decide), by decide +kernel, by decide +kernel⟩

/-- The same store: memory canonical, no host copy out, and the LOG usage fields clear of a root pointer at 0. -/
theorem test_witness_StoreFrame : (able .s).memWf ∧ (able .s).host.dirs = [] ∧
    (∃ t, exec (.st h0 ⟨.n 0, 3, .core, at1 0x3FFFFFF8⟩) (able .s) = .next t) ∧
    ((able .s).markIssued.memAccess [.n 0] (at1 0x3FFFFFF8) 8 1 [permW] .write).1.root = 0 ∧
    ∀ u : State, u.root = 0 → ∀ a, logUsage u a → ¬(u.root.toNat ≤ a ∧ a < u.root.toNat + 8) :=
  ⟨show (able .s).mem.wf = true from by decide +kernel, rfl, ⟨_, rfl⟩, by decide +kernel, fun u h a ⟨_, r, _, _, h1, _⟩ => by
    have z : (u.root).toNat = 0 := by rw [h]; rfl
    omega⟩

/-- ST.tile of one unit, STQ of one value: their parts and their bytes. -/
def tiling : State := (able .s).mapCur fun x => { x with n := x.n.set 5 0x400 }

theorem test_witness_StoreFrame_forms : Executes (gateM [.s]) h0 (useS [.n 5, (at1 0).oreg.src]) tiling ∧
    answers (tileStoreParts ⟨.n 5, .core, at1 0x40000⟩ tiling.markIssued) (fun u ps => u.root = 0 && stores u ps (u.core.tile.bytes 0 1)) = true ∧
    Executes (gateM [.s]) h0 (useS [(at1 0).oreg.src]) withSdq ∧
    answers (queueStoreParts ⟨0, false, 3, .core, at1 0x40000⟩ withSdq.markIssued) (fun u ps => u.root = 0 && stores u ps (natLe 8 7)) = true ∧
    tiling.memWf ∧ withSdq.memWf ∧ (∃ t, exec (.stTile h0 ⟨.n 5, .core, at1 0x40000⟩) tiling = .next t) ∧
    ∃ t, exec (.stq h0 ⟨0, false, 3, .core, at1 0x40000⟩) withSdq = .next t :=
  ⟨executes_of (by decide), by decide +kernel, executes_of (by decide), by decide +kernel,
    show (able .s).mem.wf = true from by decide +kernel, show (able .s).mem.wf = true from by decide +kernel, ⟨_, rfl⟩, _, rfl⟩

/-- One part in place at the top of the key space of local HBM but one byte, and one RC part. -/
theorem test_witness_StoredBytes : PageKind.so ≠ .rc ∧ spaceOf (2 ^ 40) = 0 ∧ spaceOf (2 ^ 40 + 8) = 0 ∧ (able .s).memWf ∧
    (able .s).host.dirs = [] ∧ holdsOf ((able .s).storeBytes 0 128 8 [⟨2 ^ 40, 8, .so, 0, false⟩] (natLe 8 5)) (fun r => !r.2) = true ∧
    holdsOf ((able .s).storeBytes 0 128 128 [⟨0x2000, 128, .rc, 0x2000, false⟩] (natLe 128 5)) (fun r => !r.2) = true ∧
    ((able .s).core.ctx.bind fun x => (able .s).log? x.log).isSome = true :=
  ⟨by decide, by decide, by decide, show (able .s).mem.wf = true from by decide +kernel, rfl, by decide +kernel⟩

/-- The same stream over two GiB of addresses: the second GiB is one SO page of host memory without SA. -/
def hostly (k : Strm) : State := { able k with
  mem := ((able k).mem.store (probeObj + 8) (natLe 8 (2 ^ 31))).store (probeLevel3 + 16) (natLe 16 (2 ^ 64 + 2 ^ 65 + 2 * 2 ^ 66 + 2 ^ 70))
  core := { (able k).core with caps := (able k).core.caps.set 1 (some { allCap with len := 2 ^ 31 }) } }

/-- The same with the second GiB a UO page of pool node 0, a lease of whose last page another package holds. -/
def poolly (k : Strm) : State := { hostly k with
  mem := (hostly k).mem.store (probeLevel3 + 16) (natLe 16 (2 ^ 64 + 2 ^ 65 + 2 ^ 66 + 2 * 2 ^ 68 + 2 ^ 70))
  hleases := [⟨leasePage (keyOf 1 0x3FFFFFF8), 9, 0⟩] }

/-- A store that waits for that lease. -/
theorem test_witness_StoresIssue_recall : Executes (gateM [.s]) h0 (useS [.n 0, (at1 0).oreg.src]) (poolly .s) ∧
    ∃ u ps, (poolly .s).markIssued.memAccess [.n 0] (at1 0x7FFFFFF8) 8 1 [permW] .write = (u, .ok ps) ∧
      (!u.soWait ps && !partsPois ps && !(u.recallPlaced (partsOf ps)).2) = true :=
  ⟨executes_of (by decide), exists_of_answers (P := fun u (ps : List PPart) => !u.soWait ps && !partsPois ps && !(u.recallPlaced (partsOf ps)).2)
    (by decide +kernel)⟩

/-- Atomics of 4 and 8 bytes on an RC page, with and without a release before them; on a host page that R140 forbids. -/
def atomReady (u : State) (ps : List PPart) : Bool :=
  match ps with
  | q :: l => !atomScope q && !q.part.pois && !u.soWait (q :: l) && holdsOf (u.sealFor false none false) fun _ => true
  | [] => false

def atomForbidden (_ : State) (ps : List PPart) : Bool :=
  match ps with
  | q :: _ => atomScope q
  | [] => false

theorem test_witness_AtomicsIssue : Executes (gateM [.l]) h0 (useD [.n 0, (at1 0).oreg.src] .t) (able .l) ∧
    Executes (gateM [.l]) h0 (useD [.n (pairLo 7), .n (pairHi 7), (at1 0).oreg.src] .t) (able .l) ∧
    Executes (gateM [.s]) h0 (useS [.n 0, (at1 0).oreg.src]) (able .s) ∧
    (∃ u ps, (able .l).markIssued.memAccess [.n 0] (at1 0x3FFFFFF8) 8 8 [permA] .write = (u, .ok ps) ∧ atomReady u ps = true) ∧
    (∃ u ps, (able .s).markIssued.memAccess [.n 0] (at1 0x3FFFFFFC) 4 4 [permA] .write = (u, .ok ps) ∧ atomReady u ps = true) ∧
    Executes (gateM [.l]) h0 (useD [.n 0, (at1 0).oreg.src] .t) (hostly .l) ∧
    Executes (gateM [.s]) h0 (useS [.n 0, (at1 0).oreg.src]) (hostly .s) ∧
    (∃ u ps, (hostly .l).markIssued.memAccess [.n 0] (at1 0x7FFFFFF8) 8 8 [permA] .write = (u, .ok ps) ∧ atomForbidden u ps = true) ∧
    ∃ u ps, (hostly .s).markIssued.memAccess [.n 0] (at1 0x7FFFFFF8) 8 8 [permA] .write = (u, .ok ps) ∧ atomForbidden u ps = true :=
  ⟨executes_of (by decide), executes_of (by decide), executes_of (by decide), exists_of_answers (by decide +kernel),
    exists_of_answers (by decide +kernel), executes_of (by decide), executes_of (by decide), exists_of_answers (by decide +kernel),
    exists_of_answers (by decide +kernel)⟩

/-- The last 8 bytes of the key space of local HBM, with no line poisoned and with their line poisoned. -/
theorem test_witness_AtomicResults : (32 = 32 ∨ 32 = 64) ∧ (64 = 32 ∨ 64 = 64) ∧ (2 ^ 32 - 1 < 2 ^ 32) ∧
    spaceOf (2 ^ 64 - 9) = 0 ∧ spaceOf (2 ^ 64 - 9 + 8) = 0 ∧ (able .l).memWf ∧ (able .l).host.dirs = [] ∧
    (∀ i, i < 8 → (able .l).linePois (2 ^ 64 - 9 + i) = false) ∧
    (∀ i, i < 8 → (2 ^ 64 - 9 + i) / 64 ∉ (able .l).faulty) ∧
    (∃ i, i < 8 ∧ (2 ^ 64 - 9 + i) / 64 ∈ State.faulty { able .l with faulty := [2 ^ 58 - 1] }) ∧
    ∃ i, i < 8 ∧ State.linePois { able .l with poisoned := [2 ^ 58 - 1] } (2 ^ 64 - 9 + i) = true :=
  ⟨by decide, by decide, by decide, by decide, by decide, show (able .l).mem.wf = true from by decide +kernel, rfl, by decide, by decide,
    ⟨7, by decide, by decide⟩, 7, by decide, by decide⟩

/-- A step with a release on its way, and with a load, which is none. -/
def releasing : State :=
  match execRell h0 .pkg false (.pair 0) (able .s) with
  | .next t => t
  | _ => able .s

def sealsTo (p : Except NoBillet (State × RelWord)) (n : Nat) : Bool := holdsOf p fun r => decide (r.2.tail.toNat = n)

theorem test_witness_SyncResults : Executes (gateM [.s]) h0 (useS [(at1 0).oreg.src]) (able .s) ∧
    (∃ u p, (able .s).markIssued.flagPart (at1 0x3FFFFFF0) [permW, permA] .write = (u, .ok p) ∧
      (!p.part.pois && holdsOf (u.sealFor false (some p.part.addr) false) fun _ => true) = true) ∧
    Executes (gateN [.s]) h0 ⟨[], [], .discard, 0⟩ (able .s) ∧ Executes (gateN [.s]) h0 ⟨[], [], .discard, 2⟩ (able .s) ∧
    (∃ r, (able .s).markIssued.sealFor true none false = .ok r ∧ true = true) ∧
    Executes (gateM [.l]) h0 (useD [(at1 0).oreg.src] .t) (able .l) ∧
    (∃ u p, (able .l).markIssued.flagPart (at1 0) [permR] .read = (u, .ok p) ∧ true = true) ∧
    Executes (gateR [.l] [.n 1, .n 2]) h0 (useS [.n 1, .n 2]) (able .l) ∧ Executes (gateM anyStrm) h0 (useS []) (able .l) ∧
    (0b0101#4).extractLsb' 0 2 ≠ 0 ∧ (0b0101#4).extractLsb' 2 2 ≠ 0 ∧
    (∀ a ∈ (able .l).markIssued.core.accs, ¬(a.strm = (able .l).who ∧ (if a.rd then (0b0101#4).getLsbD 0 else (0b0101#4).getLsbD 1) = true)) ∧
    (loading.core.accs.any fun a => a.strm = loading.who && a.rd) = true ∧ Executes (gateN [.s]) h0 (useS []) (able .s) ∧
    Executes (gateR anyStrm []) h0 (useD [] .t) (able .s) ∧ ((releasing.core.acc? 0).any fun a => a.rel.isSome) = true ∧
    ((loading.core.acc? 0).all fun a => a.rel.isNone) = true :=
  ⟨executes_of (by decide), exists_of_answers (P := fun u (p : PPart) => !p.part.pois && holdsOf (u.sealFor false (some p.part.addr) false) fun _ => true) (by decide +kernel),
    executes_of (by decide), executes_of (by decide), exists_of_holdsOf (P := fun _ => true) (by decide +kernel), executes_of (by decide),
    exists_of_answers (P := fun _ _ => true) (by decide +kernel), executes_of (by decide), executes_of (by decide), by decide, by decide,
    by decide, by decide +kernel, executes_of (by decide), executes_of (by decide), by decide +kernel, by decide +kernel⟩

/-- Two releases on their way, the second behind the first; a commit of a pool record whose page another package leases. -/
def releasing2 : State :=
  match execRell h0 .pkg false (.pair 0) { releasing with ftime := 5 } with
  | .next t => t
  | _ => releasing

def committingPool : State := State.mapCtx (poolly .s) fun x => { x with base := { x.base with pa := keyOf 1 0x3FFFFFC0, isLocal := false } }

theorem test_witness_SyncResults_order : ((releasing2.core.acc? 0).bind (·.rel)).any (fun r => !releasing2.core.relBehind r && (releasing2.relRecall r).2) = true ∧
    ((releasing2.core.acc? 1).bind (·.rel)).any (fun r => releasing2.core.relBehind r) = true ∧
    (committingPool.relRecall ⟨committingPool.logNum, ⟨5, 0⟩, true, none, true⟩).2 = false ∧
    ((State.log? { (able .s) with logs := (able .s).logs.map fun (g : LogSt) => { g with stamp := 5 } } (able .s).logNum).any fun g => g.stamp != 0) = true := by
  decide +kernel

/-- What a release seals: the empty log of the step opens its first billet. -/
theorem test_witness_SyncResults_seal : (able .s).core.ctx.isSome = true ∧
    (((able .s).core.ctx.bind fun x => (able .s).log? x.log).any fun g => decide (g.bills.length < 65536) &&
      g.bills.all fun b => !b.isSealed || b.closed) = true ∧ sealsTo ((able .s).sealLog false) 0 = true := by decide +kernel

/-- A word equal to the comparand and one that differs; a wait in progress that has fired, and one that has not; counts of 0 and
65,535 and beyond. -/
theorem test_witness_WatchResults : Executes (gateM [.l]) h0 (useS [.n 0, (at1 0).oreg.src]) (able .l) ∧
    (able .l).markIssued.cur.waitW = none ∧
    (∃ u p, (able .l).markIssued.waitPart [.n 0] (at1 0x3FFFFFF8) = (u, .ok p) ∧ (u.homeWord p.addr == u.val 0 (.n 0)) = true) ∧
    (∃ u p, (able .l).markIssued.waitPart [.n 0] (at1 0x40000) = (u, .ok p) ∧ (u.homeWord p.addr != u.val 0 (.n 0)) = true) ∧
    Executes (gateM [.l]) h0 (useS [.n 0, (at1 0).oreg.src]) ((able .l).mapCur fun x => { x with waitW := some (0, true) }) ∧
    Executes (gateM [.l]) h0 (useS [.n 0, (at1 0).oreg.src]) ((able .l).mapCur fun x => { x with waitW := some (0, false) }) ∧
    Executes (gateN [.l]) h0 (useD [] .t) (able .l) :=
  ⟨executes_of (by decide), by decide, exists_of_answers (P := fun u (p : Part) => u.homeWord p.addr == u.val 0 (.n 0)) (by decide +kernel),
    exists_of_answers (P := fun u (p : Part) => u.homeWord p.addr != u.val 0 (.n 0)) (by decide +kernel), executes_of (by decide),
    executes_of (by decide), executes_of (by decide)⟩

/-- Virtual semaphore 3 at a count of n, with an immediate operand. -/
def withSem (n : Nat) : State := { coded with core := coded.core.setSem 3 n }

theorem test_witness_WatchResults_sem : Executes (gateR anyStrm [.imm]) h0 (useS [.imm]) (withSem 65535) ∧
    65535 < ((withSem 0).markIssued.val 0x10000 .imm).toNat ∧
    (((withSem 0).markIssued.val 1 .imm).toNat ≤ 65535 ∧ (withSem 0).markIssued.core.sem 3 < ((withSem 0).markIssued.val 1 .imm).toNat) ∧
    (((withSem 65535).markIssued.val 65535 .imm).toNat ≤ 65535 ∧
      ((withSem 65535).markIssued.val 65535 .imm).toNat ≤ (withSem 65535).markIssued.core.sem 3) ∧
    (withSem 65534).markIssued.core.sem 3 + ((withSem 65534).markIssued.val 1 .imm).toNat ≤ 65535 ∧
    65535 < (withSem 65535).markIssued.core.sem 3 + ((withSem 65535).markIssued.val 1 .imm).toNat ∧
    Executes (gateR anyStrm []) h0 (useD [] .t) (withSem 0) ∧ (withSem 0).core.semPhys 4 ≠ (withSem 0).core.semPhys 3 :=
  ⟨executes_of (by decide), by decide, by decide, by decide, by decide, by decide, executes_of (by decide), by decide⟩

/-- A step whose package has sealed allCap as image 5, and the device-information object as 6, and has stored both in memory. -/
def sealing : State := { able .l with
  seals := [(5, allCap), (6, { allCap with dev := true }), (7, { allCap with ten := 1 })]
  mem := ((able .l).mem.store 0x2000 (natLe 16 5)).store 0x2010 (natLe 16 7) }

/-- What a CLD of the image at an address finds. -/
def opens (off : BitVec 40) (P : Option Nat → Option Cap → Bool) : Bool :=
  match sealing.markIssued.memAccess [] (at1 off) 16 16 [permR] .read with
  | (u, .ok ps) =>
    let r := u.loadElem (partsOf ps) (u.ownBytes (partsOf ps))
    !u.soWait ps && P r.2 (r.1.openSeal (BitVec.ofNat 128 (r.2.getD 0))).2
  | _ => false

theorem test_witness_CapabilityResults : Executes (gateM [.l]) h0 (useS [(at1 0).oreg.src]) sealing ∧ (1 : Fin 16) ≠ 0 ∧
    opens 0x2000 (fun n c => n = some 5 && c = some allCap) = true ∧ opens 0x2010 (fun n c => n = some 7 && c = none) = true ∧
    opens 0x3FFFFFF0 (fun n _ => n = some 0) = true ∧ Executes (gateR [.l] [.n 0, .imm]) h0 (useS [.n 0, .imm]) sealing ∧
    (∃ u w, sealing.markIssued.window sealing.markIssued.core.caps[(1 : Fin 16)] = (u, .ok w) ∧ (w.perm.getLsbD permN &&
      decide ((sealing.markIssued.val 0x40000000 (.n 0)).toNat + (sealing.markIssued.valAfter 0x40000000 [.n 0] .imm).toNat ≤ w.len) &&
      decide (w.len < (sealing.markIssued.val 0x40000001 (.n 0)).toNat + (sealing.markIssued.valAfter 0x40000001 [.n 0] .imm).toNat)) = true) ∧
    Executes (gateN [.l]) h0 (useD [] .t) sealing ∧ sealing.markIssued.core.caps[(1 : Fin 16)] = some allCap ∧
    sealing.gateTrap (gateM [.l]) (useS [(at1 0).oreg.src]) = none :=
  ⟨executes_of (by decide), by decide, by decide +kernel, by decide +kernel, by decide +kernel, executes_of (by decide),
    exists_of_answers (P := fun _ (w : Window) => w.perm.getLsbD permN &&
      decide ((sealing.markIssued.val 0x40000000 (.n 0)).toNat + (sealing.markIssued.valAfter 0x40000000 [.n 0] .imm).toNat ≤ w.len) &&
      decide (w.len < (sealing.markIssued.val 0x40000001 (.n 0)).toNat + (sealing.markIssued.valAfter 0x40000001 [.n 0] .imm).toNat)) (by decide +kernel),
    executes_of (by decide), by decide, by decide⟩

/-- Storing: c1 and a null register, and a poisoned line read back. -/
def stored (c : Fin 16) : Bool :=
  match (able .l).markIssued.memAccess [] (at1 0x3FFFFFF0) 16 16 [permW] .write with
  | (u, .ok ps) =>
    match u.core.caps[c] with
    | none => !u.soWait ps && !partsPois ps && (u.recallPlaced (partsOf ps)).2 &&
      holdsOf ((u.recallPlaced (partsOf ps)).1.storeBytes 0 128 16 (partsOf ps) (natLe 16 0)) fun _ => true
    | some _ => !u.soWait ps && !partsPois ps && (u.recallPlaced (partsOf ps)).2
  | _ => false

theorem test_witness_CapabilityResults_store : stored 3 = true ∧ stored 1 = true ∧
    (State.loadElem { able .l with poisoned := [0x2000 / 64] } [⟨0x2000, 16, .rc, 0x2000, false⟩] []).2 = none := by decide +kernel

/-- Images of another tenant, of the step's own that opens, and of an object revoked since. -/
theorem test_witness_CapabilityResults_image : allCap.dev = false ∧ allCap.ten.toNat = (able .l).tenant ∧
    ({ allCap with ten := 1 } : Cap).ten.toNat ≠ (able .l).tenant ∧
    (∃ u w, (able .l).window (some allCap) = (u, .ok w) ∧ true = true) ∧
    (∃ u fva, (able .l).window (some { allCap with gen := 1 }) = (u, .error (.cause .capfault fva))) ∧
    (((able .l).objEntry 0 0).2.any fun e => entGen e != 1) = true :=
  ⟨rfl, by decide, by decide, exists_of_answers (P := fun _ _ => true) (by decide +kernel), exists_of_fails (by decide +kernel),
    by decide +kernel⟩

/-! ### Witnesses: group COPY -/

/-- Words that each command takes: tile registers at 0x100 and 0x200, memory through c1. -/
def wordsOf : CopyOp → Vector Word 4
  | .cpy => #v[0x1001, 0x2001, 64, 0]
  | .cpyn => #v[0x1001, 0x10, 1, 1]
  | .cpyt false => #v[0x1001, 0x10, 2 + 2 * 2 ^ 24, 8 + 8 * 2 ^ 32]
  | .cpyt true => #v[2, 0x10, 64 + 32 * 2 ^ 24 + 3 * 2 ^ 48, 32]
  | .cgath => #v[0x1001, 0x10, 0x2001, 64 + 2 * 2 ^ 16]
  | .cscat => #v[0x10, 0x1001, 0x2001, 64 + 2 * 2 ^ 16]
  | .cfill => #v[0x1001, 7, 1, 0]
  | .cred => #v[0x1001, 0x2001, 64 + 13 * 2 ^ 36, 0]
  | .credc => #v[0x1001, 0x2001, 0x3001, 16 + 2 ^ 32]
  | .ccoll => #v[0x1001, 0x2001, 13 * 2 ^ 8 + 4 * 2 ^ 12, 1]
  | .cbget => #v[1, 0x10, 2 ^ 20, 0]
  | .draft => #v[0x10, 1, 0, 0]

def copyOps : List CopyOp := [.cpy, .cpyn, .cpyt false, .cpyt true, .cgath, .cscat, .cfill, .cred, .credc, .ccoll, .cbget, .draft]

def passes (t : State) (op : CopyOp) (d : Vector Word 4) : Bool :=
  match copySpans op d with
  | none => false
  | some spans => (t.who != .s || writeDir op spans) && ((t.issueSpans op d spans).all fun p => p.ep.fits p.len) && t.credAligned op d && t.etypesOk op d &&
      (spans.all fun p => p.ep.spc != 4 || t.sliceOk p.ep.slice) && !t.core.breach (t.copyWins op d)

theorem passes_of {t : State} {op : CopyOp} {d : Vector Word 4} (e : passes t op d = true) :
    ∃ spans, CopyPasses t op d spans ∧ t.core.breach (t.copyWins op d) = false := by
  unfold passes at e
  split at e
  · cases e
  · rename_i spans hs
    simp only [Bool.and_eq_true, Bool.or_eq_true, List.all_eq_true, bne_iff_ne, ne_eq, Bool.not_eq_true'] at e
    exact ⟨spans, ⟨hs, fun w => by simpa [w] using e.1.1.1.1.1, fun p hp => e.1.1.1.1.2 p hp, e.1.1.1.2, e.1.1.2,
      fun p hp => by simpa [Classical.or_iff_not_imp_left] using e.1.2 p hp⟩, e.2⟩

/-- A command with these words in the engine. -/
def cmdOf (op : CopyOp) (d : Vector Word 4) (wthr : BitVec 16) (begun : Bool) : CCmd := {
  op := op, iw := 0, strm := .l, slot := none, e := ⟨0, wthr, 0, 0⟩, d := d, tag := 1, prom := 0, ipc := 0, entry := 0, begun := begun
  done := false, fault := none, fva := 0, wbase := 0, marks := [], unit := 0, seen := 0, lay := [], idx := 0, wins := [], hide := [], pins := []
  since := 0, acc := 0, comp := [], old := [] }

/-- Four words in n0 to n3. -/
def words16 (d : Vector Word 4) : Vector Word 16 := #v[d[0], d[1], d[2], d[3], 0, 0, 0, 0, 0, 0, 0, 0, 0, 0, 0, 0]

/-- A stream with the words of a command in n0 to n3 and n commands in the engine. -/
def copying (k : Strm) (op : CopyOp) (n : Nat) : State := { (able k) with
  core := { ((able k).mapCur fun x => { x with n := words16 (wordsOf op) }).core with
    copy := (List.range n).map fun i => { cmdOf .cpy (wordsOf .cpy) 0 false with tag := BitVec.ofNat 16 (i + 1) } } }

def sel4 : List OReg := [.n 0, .n 1, .n 2, .n 3]

/-- Every command executes and passes its checks, with 15 commands in the engine and with 16. -/
theorem test_witness_CopyIssue : Executes (gateN [.l]) h0 ⟨sel4.map OReg.src, [], .discard, 1⟩ (copying .l .draft 15) ∧
    Executes (gateN [.l, .s]) h0 ⟨[.n 0, .n 1, .n 2], [], .discard, 1⟩ (copying .s .cfill 16) ∧
    (∀ op ∈ copyOps, passes (copying .l op 15).markIssued op ((copying .l op 15).markIssued.words4 sel4) = true ∧
      passes (copying .l op 16).markIssued op ((copying .l op 16).markIssued.words4 sel4) = true) ∧
    passes (copying .s .cfill 0).markIssued .cfill ((copying .s .cfill 0).markIssued.words4 sel4) = true ∧
    (copying .l .cpy 15).markIssued.core.copy.length < 16 ∧ 16 ≤ (copying .l .cpy 16).markIssued.core.copy.length ∧
    (copying .l .cpy 16).core.copy.length ≤ 16 ∧ (copying .l .cpy 16).core.cstat.length ≤ 64 :=
  ⟨executes_of (by decide), executes_of (by decide), by decide +kernel⟩

/-- Words that are ILLEGAL for each command; a read from S. CSTAT of a tag held and of one not held; DRSTEP. -/
theorem test_witness_CopyIssue_layout : (let t := copying .l .cpyn 0
    let d := t.words4 sel4
    t.etypesOk .cpyn d && !State.etypesOk { t with mem := t.mem.store 0x80001 [7] } .cpyn #v[d[0], d[1], 0x800001, d[3]]) = true := by decide +kernel

theorem test_witness_CopyIssue_traps : (∀ op ∈ copyOps, copySpans op #v[5, 5, 0, 0] = none) ∧
    ((copySpans .cpy (wordsOf .cpy)).any fun spans => !writeDir .cpy spans) = true ∧
    Executes (gateR [.l, .s] [.n 0]) h0 (useD [.n 0] .t) (copying .l .cpy 16) ∧ Executes (gateN [.l]) h0 (useD [.n 0] .t) (copying .l .cpy 0) ∧
    ((copying .l .cpy 16).core.copy.find? fun m => m.tag = 16).isSome = true ∧ (∀ m ∈ (copying .l .cpy 16).core.copy, m.tag ≠ 17) :=
  ⟨by decide, by decide, executes_of (by decide), executes_of (by decide), by decide +kernel, by decide +kernel⟩

/-- One command in the engine; an entry of the draft ring of die 0, at 0x50000. -/
def engaged (m : CCmd) : State := { able .l with core := { (able .l).core with copy := [m] } }

/-- How the granules of the one command go. -/
def granules (m : CCmd) : Bool × Bool :=
  let r := (granLoop (engaged m) ⟨m, none, none⟩ ((engaged m).granCount m - m.wbase) m.wbase).2
  (match r.stop with | none => true | some _ => false, r.bad.isSome)

theorem test_witness_CopyEvents : (∀ m, (engaged (cmdOf .cpy (wordsOf .cpy) 1 false)).core.nextCopy = some m →
      (engaged (cmdOf .cpy (wordsOf .cpy) 1 false)).core.sem m.e.wsem < m.e.wthr.toNat) ∧
    (engaged (cmdOf .cpy (wordsOf .cpy) 0 false)).core.nextCopy = some (cmdOf .cpy (wordsOf .cpy) 0 false) ∧
    (engaged (cmdOf .cbget (wordsOf .cbget) 0 false)).core.nextCopy = some (cmdOf .cbget (wordsOf .cbget) 0 false) ∧
    (engaged (cmdOf .cpy (wordsOf .cpy) 0 false)).copyReady (cmdOf .cpy (wordsOf .cpy) 0 false) = false ∧
    (engaged (cmdOf .cpy (wordsOf .cpy) 0 true)).copyReady (cmdOf .cpy (wordsOf .cpy) 0 true) = true ∧
    granules (cmdOf .cpy (wordsOf .cpy) 0 true) = (true, false) ∧
    granules (cmdOf .cpy #v[0x1001, 0x10 + 0x3FFFFFF9 * 256, 8, 0] 0 true) = (true, true) ∧
    ∀ x ∈ (engaged (cmdOf .cpy (wordsOf .cpy) 0 true)).core.copy, x.tag = 1 → x = cmdOf .cpy (wordsOf .cpy) 0 true :=
  ⟨by intro m h; obtain rfl := Option.some.inj h; decide, rfl, rfl, by decide +kernel, by decide +kernel, by decide +kernel,
    by decide +kernel, by intro x h _; simpa [engaged] using h⟩

/-- A draft of one entry: its pages, its target, its status. -/
def drafting (pages tgt st : Nat) (pois : List Nat) : State :=
  let s := able .l
  { s.setDie 0 { s.die 0 with drbase := 0x50000, drsize := 1, drhead := 1 } with
    mem := s.mem.store 0x50000 (natLe 8 0 ++ natLe 2 pages ++ natLe 1 tgt ++ natLe 17 0 ++ natLe 4 st)
    drafts := [⟨0, 0, 0, 1, [0], 0⟩]
    poisoned := pois }

/-- A fill of a pool page whose lease another package holds stops between granules. -/
def filling : CCmd := cmdOf .cfill #v[0x10 + 0x7FFFFFF8 * 256, 7, 8, 0] 0 true

theorem test_witness_CopyEvents_stop : (let s : State := { poolly .l with core := { (poolly .l).core with copy := [filling] } }
    let r := (granLoop s ⟨filling, none, none⟩ (s.granEnd filling - filling.wbase) filling.wbase).2
    s.copyReady filling && r.stop.isSome && r.stop != some .hole) = true := by decide +kernel

def draftSays (s : State) (P : List Byte → Bool) : Bool := (s.draftJob 0).isSome && (s.draftRead 0 0).2.any P

def arrives (s : State) : Bool := (readLines State.viewLine 64 s (keyOf 1 0) 65536).2.any (·.2)

theorem test_witness_CopyEvents_draft : (able .l).draftJob 0 = none ∧
    draftSays (drafting 1 0 0 []) (fun bs => bytesNat bs 28 4 % 8 = 0 && (match (drafting 1 0 0 []).draftJob 0 with
      | some j => !draftBad j bs && (drafting 1 0 0 []).draftNext j bs | none => false)) = true ∧
    draftSays (drafting 0 0 0 []) (fun bs => bytesNat bs 28 4 % 8 = 0 && (match (drafting 0 0 0 []).draftJob 0 with
      | some j => draftBad j bs && (drafting 0 0 0 []).draftNext j bs | none => false)) = true ∧
    draftSays (drafting 1 1 1 []) (fun bs => bytesNat bs 28 4 % 8 = 1 && bytesNat bs 10 1 = 1 && bytesNat bs 8 2 = 1) = true ∧
    draftSays (drafting 1 0 1 []) (fun bs => bytesNat bs 28 4 % 8 = 1 && bytesNat bs 10 1 = 0) = true := by decide +kernel

/-- CFILL of one byte at the last of the tile registers; CPY of ranges that touch. -/
theorem test_witness_CopyMoves : let m := cmdOf .cfill #v[0xFFFFF1, 7, 1, 0] 0 true
    (engaged m).core.copy.find? (fun x => x.tag = m.tag) = some m ∧ m.begun = true ∧ m.done = false ∧ m.wbase = 0 ∧ m.marks = [] ∧
    m.e.sinc = 0 ∧ epOf m.d[0] = some ⟨1, 0, (0xFFFFF : Nat), 0⟩ ∧ lenWord m.d[2] = some 1 ∧ 0xFFFFF + 1 ≤ 2 ^ 20 ∧
    (engaged m).core.tile.wf = true ∧
    (let c := cmdOf .cpy #v[0x1401, 0x1001, 64, 0] 0 true
     epOf c.d[0] = some ⟨1, 0, (0x140 : Nat), 0⟩ ∧ epOf c.d[1] = some ⟨1, 0, (0x100 : Nat), 0⟩ ∧ lenWord c.d[2] = some 64 ∧
      0x100 + 64 ≤ 0x140) := by
  refine ⟨rfl, rfl, rfl, rfl, rfl, rfl, ?_, ?_, ?_, rfl, ?_⟩ <;> decide

/-! ### Witnesses: groups VEC, VRED, VSFU, VPERM and UPD -/

/-- Stream k under shape 0 of rows, columns and an element-type code. -/
def tiled (k : Strm) (rows cols code : Nat) : State :=
  let v := BitVec.ofNat 32 (rows + cols * 2 ^ 11 + code * 2 ^ 22)
  { coded with who := k, core := { coded.core with sh := coded.core.sh.set 0 v, shS := coded.core.shS.set 0 v } }

/-- 1,024 elements end with the last tile register; the greatest and the least shape of f32, and s32. -/
theorem test_witness_VectorElements : Executes (gateV [.c]) h0 (useS []) (tiled .c 1 1024 0) ∧
    Executes (gateV [.c]) h0 (useS [.n 1, .n 2]) (tiled .c 1024 1 0) ∧ (tiled .c 1 1024 0).core.tile.wf = true ∧
    (tiled .c 1 1024 0).core.chk = false ∧ (tiled .c 1 1024 0).shape 0 = some ⟨1, 1024, .f32⟩ ∧
    (tiled .c 1024 1 0).shape 0 = some ⟨1024, 1, .f32⟩ ∧ (tiled .c 2 3 10).shape 0 = some ⟨2, 3, .s32⟩ ∧
    (tileAt 1020 1024 .f32).fits = true ∧ (fullTile 1020 ⟨1, 1024, .f32⟩).fits = true ∧
    (∀ b ∈ [BOp.full 1020, .row 1020, .col 1023, .scal 15], (bTiles b ⟨1, 1024, .f32⟩).all Tile.fits = true) ∧
    (scaleTile 1023 ⟨1, 1024, .f32⟩).fits = true :=
  ⟨executes_of (by decide), executes_of (by decide), rfl, rfl, by decide⟩

/-- Element types that each check lets pass. -/
theorem test_witness_VectorElements_types : sameNum .bf16 .bf16 = true ∧ sameNum .s8 .s8 = true ∧ bitPair .f32 .z32 = true ∧
    sameInt .z16 .z16 = true ∧ sameAny .e8m0 .e8m0 = true ∧ iotaPair .z16 .z16 = true ∧ dqntPair .e2m1 .f32 = true ∧
    f32Pair .f32 .f32 = true ∧ sumPair .s8 .s32 = true ∧ maxPair .bf16 .f32 = true ∧ amaxPair .f16 .f16 = true ∧ argPair .f32 .z32 = true ∧
    sortType .f16 = true ∧ defType .z32 = true ∧ EType.isArith .f32 = true ∧ EType.isSigned .s16 = true := by decide

/-- A shape that is not valid, and reductions of it by rows and by columns. -/
theorem test_witness_VectorReductions : Executes (gateV [.c]) h0 (useS []) (tiled .c 0 1 0) ∧
    (tiled .c 0 1 0).markIssued.shape 0 = none ∧ (tiled .c 1025 1 0).markIssued.shape 0 = none ∧
    (tiled .c 2 4 0).markIssued.shape 0 = some ⟨2, 4, .f32⟩ ∧ (tiled .c 2 4 0).markIssued.core.chk = false ∧
    (sumPair .f32 .f32 && (fullTile 0 ⟨2, 4, .f32⟩).fits && (tileAt 1023 (Shp.outer ⟨2, 4, .f32⟩ true) .f32).fits) = true ∧
    (sumPair .f32 .s8 && (fullTile 0 ⟨2, 4, .f32⟩).fits) = false ∧
    (EType.isArith .f32 && (fullTile 0 ⟨2, 4, .f32⟩).fits && (tileAt 1 8 .e4m3).fits && (scaleTile 2 ⟨2, 4, .f32⟩).fits &&
      (tileAt 1 8 .e4m3).apart (scaleTile 2 ⟨2, 4, .f32⟩)) = true :=
  ⟨executes_of (by decide), by decide, by decide, by decide, rfl, by decide⟩

/-- A deferral queue of 4,096 less the elements of W, and one more. -/
def deferred (n : Nat) : State := { tiled .c 2 4 0 with core := { (tiled .c 2 4 0).core with defq := List.replicate n ⟨0, 0⟩ } }

theorem test_witness_VectorMoves : Executes (gateN [.c]) h0 (useS []) (tiled .c 2 4 0) ∧
    Executes (gateV [.c]) h0 (useS [.n 1, .n 2]) (tiled .c 2 4 0) ∧
    (sameAny .f32 .f32 && sortType .f32 && (fullTile 0 ⟨2, 4, .f32⟩).fits && (fullTile 1 ⟨2, 4, .f32⟩).apart (fullTile 2 ⟨2, 4, .f32⟩)) = true ∧
    (fullTile 1 ⟨2, 4, .f32⟩).apart (fullTile 1 ⟨2, 4, .f32⟩) = false ∧
    allApart ((VDrainOp.tiles ⟨0, .f32, 0, 3, false, 1, 1, 2, 3, 4⟩).map fun v => fullTile v ⟨2, 4, .f32⟩) = true ∧
    Executes (gateV [.c]) h0 (useS []) (deferred 4088) ∧ Executes (gateV [.c]) h0 (useS []) (deferred 4089) ∧
    ((deferred 0).markIssued.wset ⟨2, 4, .f32⟩ 0).length = 8 ∧
    (deferred 4088).markIssued.core.defq.length + 8 ≤ 4096 ∧ 4096 < (deferred 4089).markIssued.core.defq.length + 8 ∧ (7 : Fin 8) ≠ 0 :=
  ⟨executes_of (by decide), executes_of (by decide), by decide, by decide, by decide, executes_of (by decide), executes_of (by decide),
    by decide +kernel⟩

/-- A NaN among keys; an associative operation; elements at different places. -/
theorem test_witness_VectorOrder : isNanBits .f32 0x7FC00000 = true ∧ (∀ a b c : Nat, max (max a b) c = max a (max b c)) ∧
    (tiled .c 2 4 0).core.tile.wf = true ∧ [(0, 5), (7, 6)].Pairwise (fun a b : Nat × Nat => a.1 ≠ b.1) :=
  ⟨by decide, by omega, rfl, by decide⟩

/-- A valid and an invalid shape value; an index that is the last element, and one past it. -/
theorem test_witness_MaskAndElement : Executes (gateN [.c]) h0 (useS []) (tiled .c 2 4 0) ∧
    Executes (gateN [.c]) h0 (useD [.n 1] .t) (tiled .c 2 4 0) ∧ (shpOf 0x2801).isSome = true ∧ shpOf 0 = none ∧
    (tiled .c 2 4 0).markIssued.shape 0 = some ⟨2, 4, .f32⟩ ∧ (fullTile 1023 ⟨2, 4, .f32⟩).fits = true ∧
    (tiled .c 2 4 0).markIssued.core.chk = false ∧ (tiled .c 2 4 0).markIssued.vidx (.imm 7) < 8 ∧
    8 ≤ (tiled .c 2 4 0).markIssued.vidx (.imm 8) ∧ (1023 < 1024) ∧
    Executes ⟨[.c], false, false, 0, false⟩ h0 (useS [.n 1]) (tiled .c 2 4 0) ∧
    Executes ⟨[.c], false, false, 64, false⟩ h0 (useS [.imm]) ((tiled .c 2 4 0).mapCur fun x => { x with wide := some 5 }) ∧
    (State.markIssued ((tiled .c 2 4 0).mapCur fun x => { x with wide := some 5 })).cur.wide.isSome = true :=
  ⟨executes_of (by decide), executes_of (by decide), by decide, by decide, by decide, by decide, rfl, by decide, by decide, by decide,
    executes_of (by decide), executes_of (by decide), by decide⟩

/-- Four tiles of f32 that share no byte, and the named scalars of an update at the top of their range. -/
theorem test_witness_UpdateResults : Executes (gateV [.c]) h0 (useS []) (tiled .c 2 4 0) ∧
    Executes (gateV [.s]) h0 (useS (updSrcs ⟨⟨0, .f32, 0⟩, ⟨.rne, false, none⟩, 0, 1, 2, 3, 14, 12⟩ [14, 15, 12, 13])) (tiled .s 2 4 0) ∧
    (tiled .s 2 4 0).markIssued.shape 0 = some ⟨2, 4, .f32⟩ ∧ (tiled .s 2 4 0).markIssued.core.chk = false ∧
    (tiled .s 0 4 0).markIssued.shape 0 = none ∧
    (EType.isArith .f32 && [fullTile 1 ⟨2, 4, .f32⟩, tileAt 2 8 .f32, tileAt 3 8 .f32].all Tile.fits &&
      allApart [tileAt 0 8 .f32, tileAt 2 8 .f32, tileAt 3 8 .f32]) = true :=
  ⟨executes_of (by decide), executes_of (by decide), by decide, rfl, by decide, by decide⟩

/-! ### Witnesses: groups MTX and EXP -/

/-- Region words of one row at entry 0: 32 columns of integers, one K-block or none; 64 columns of f32. -/
def intRegion (kb : Nat) : Word := BitVec.ofNat 64 (2 ^ 19 + 32 * 2 ^ 28 + kb * 2 ^ 40 + 2 ^ 49 + 32 * 2 ^ 50)
def cordRegion : Word := BitVec.ofNat 64 (2 ^ 19 + 64 * 2 ^ 28 + 2 ^ 40 + 64 * 2 ^ 50)

/-- A product of s8 with a raw B, one of e4m3 with cords; an int region with a transfer of s32. -/
def mmaWords (resume : Word) : Vector Word 4 := #v[32 * 2 ^ 10 + 8 * 2 ^ 26, 2 ^ 14 + 2 ^ 15 + 8 * 2 ^ 22, intRegion 1, resume]
def cordWords : Vector Word 4 := #v[32 * 2 ^ 10 + 3 * 2 ^ 26, 2 ^ 15, cordRegion, 0]
def longWords (kb : Nat) : Vector Word 4 := #v[64 * 2 ^ 10 + 3 * 2 ^ 26, 2 ^ 15, cordRegion + BitVec.ofNat 64 (kb - 1) * 2 ^ 40, 0]
def moveWords : Vector Word 4 := #v[intRegion 0, 128 * 2 ^ 10 + 10 * 2 ^ 26, 0, 0]

def mcmd (op : MtxOp) (d : Vector Word 4) (begun : Bool) : MCmd := {
  op := op, iw := 0, slot := none, e := ⟨0, 0, 0, 0⟩, d := d, ipc := 0, seq := 0, begun := begun, fault := none, kp := 0, own := false, acc := 0 }

/-- Stream C with words in n0 to n3 and commands in the matrix engine. -/
def working (d : Vector Word 4) (q : List MCmd) : State := { able .c with
  core := { ((able .c).mapCur fun x => { x with n := words16 d }).core with mtx := { (able .c).core.mtx with q := q } } }

def gateX (srcs : List Src) : Gate := { gateR [.c] srcs with mtx := true }

/-- Words that pass and words that do not, with seven commands and with eight in the engine; MSTAT; MSTOP with nothing that runs,
with a product and with another command. -/
theorem test_witness_MatrixIssue : Executes { gateN [.c] with mtx := true } h0 (useS (sel4.map OReg.src)) (working (mmaWords 0) []) ∧
    mtxWordsOk (.mma false none) ((working (mmaWords 0) []).markIssued.words4 sel4) = true ∧
    (∀ op ∈ [MtxOp.azero, .ckOpen 7, .adrain none, .aload, .aacc, .ckClose 7], mtxWordsOk op moveWords = true) ∧
    (∀ op ∈ [MtxOp.azero, .ckOpen 7, .adrain none, .aload, .aacc, .mma true none], mtxWordsOk op #v[0, 0, 0, 0] = false) ∧
    (working (mmaWords 0) (List.replicate 7 (mcmd .azero moveWords false))).markIssued.core.mtx.q.length < 8 ∧
    8 ≤ (working (mmaWords 0) (List.replicate 8 (mcmd .azero moveWords false))).markIssued.core.mtx.q.length ∧
    (working (mmaWords 0) []).markIssued.core.breach (mtxWins (.mma false none) (mmaWords 0)) = false ∧
    Executes { gateN [.c] with mtx := true } h0 (useD [] .t) (working moveWords []) ∧
    Executes (gateX [.imm]) h0 (useD [.imm] .t) (working moveWords []) ∧
    ((working moveWords []).markIssued.val 1 .imm).toNat % 64 ≠ 0 ∧ 2 ^ 20 ≤ ((working moveWords []).markIssued.val 0x100000 .imm).toNat ∧
    ((working moveWords []).markIssued.val 0xFFFC0 .imm).toNat < 2 ^ 20 ∧ ((working moveWords []).markIssued.val 0xFFFC0 .imm).toNat % 64 = 0 ∧
    (working moveWords []).markIssued.core.breach [⟨1, 0xFFFC0, 64, true⟩] = false :=
  ⟨executes_of (by decide), by decide, by decide, by decide, by decide, by decide, by decide, executes_of (by decide),
    executes_of (by decide), by decide⟩

theorem test_witness_MatrixIssue_stop : (working moveWords []).core.mtx.running = none ∧
    (working moveWords [mcmd (.mma false none) (mmaWords 0) true]).core.mtx.running = some (mcmd (.mma false none) (mmaWords 0) true) ∧
    (mcmd (.mma false none) (mmaWords 0) true).product.isSome = true ∧
    (working moveWords [mcmd .azero moveWords true]).core.mtx.running = some (mcmd .azero moveWords true) ∧
    (mcmd .azero moveWords true).product = none ∧
    (((working moveWords [mcmd .azero moveWords true]).endMtx (mcmd .azero moveWords true)).core.mtx.q.any fun x => x.fault.isSome) = false ∧
    (0 < 2 ^ 16) ∧ (MtxSt.q ⟨[], [], 0, 0⟩).length < 16 ∧ ((mcmd (.mma false none) (mmaWords 0) true).product.any fun p => decide (0 ≤ p.kg)) = true := by
  decide +kernel

/-- A slot over the region of moveWords, with sums of columns and rows. -/
def slotOf (cols rows : List (BitVec 32)) : CkSlot := ⟨intRegion 0, cols, [], rows, []⟩

def checked (q : List MCmd) : State :=
  { working moveWords q with core := { (working moveWords q).core with mtx := { (working moveWords q).core.mtx with slots := [(0, slotOf [] [])] } } }

/-- Not ready: nothing queued, a wait that is not met. Ready: a region of an open slot, a resume record that fails, one that is not
asked for, a command that is no product. -/
theorem test_witness_MatrixEvents : (working moveWords []).mtxReady = false ∧
    (working moveWords [{ mcmd .azero moveWords false with e := ⟨0, 1, 0, 0⟩ }]).mtxReady = false ∧
    (checked [mcmd .azero moveWords false]).mtxReady = true ∧
    (checked [mcmd .azero moveWords false]).core.mtx.ckOk .azero moveWords = false ∧
    (working moveWords [mcmd .azero moveWords false]).core.mtx.ckOk .azero moveWords = true ∧
    (working moveWords [mcmd (.mma false none) (mmaWords 0x100000) false]).core.mtx.ckOk (.mma false none) (mmaWords 0x100000) = true ∧
    (mcmd (.mma false none) (mmaWords 0x100000) false).product.all (fun o =>
      ((able .c).core.startKp (mcmd (.mma false none) (mmaWords 0x100000) false) o).isNone) = true ∧
    (mcmd (.mma false none) (mmaWords 0) false).product.all (fun o =>
      (able .c).core.startKp (mcmd (.mma false none) (mmaWords 0) false) o == some 0) = true ∧
    (mcmd .azero moveWords false).product = none ∧ holdsOf ((able .c).core.performMtx .azero moveWords) (fun _ => true) = true ∧
    holdsOf ((able .c).core.performMtx (.adrain (some 1)) moveWords) (fun _ => true) = false ∧
    (mcmd (.mma false none) cordWords false).product.any (fun o =>
      (able .c).core.startKp (mcmd (.mma false none) cordWords false) o == some 0 && !(able .c).core.blockOk o 0) = true ∧
    (mcmd (.mma false none) (mmaWords 0) false).product.any (fun o => (able .c).core.blockOk o 0) = true ∧
    (mcmd (.mma false none) (longWords 2) true).product.any (fun o => ((able .c).core.badGroup o 0).isSome) = true := by
  decide +kernel

/-- A product whose groups can all be fetched; regions, transfers and scales of the other commands. -/
theorem test_witness_MatrixProduct : (working moveWords [mcmd (.mma true none) (mmaWords 0) true]).core.mtx.running =
      some (mcmd (.mma true none) (mmaWords 0) true) ∧
    (mcmd (.mma true none) (mmaWords 0) true).product.any (fun o => (able .c).core.badGroup o 0 == none && decide (0 < o.kg)) = true ∧
    (able .c).core.accinj.getLsbD 24 = false ∧ (able .c).core.accs32.wf = true ∧ (able .c).core.tile.wf = true ∧
    (regionOf moveWords[0] false).any (fun r => r.int && (xWordOf moveWords[1] r false).isSome && (xWordOf moveWords[1] r true).isSome) = true ∧
    scaleOf moveWords[2] = some none ∧ (regionOf (cordRegion - 2 ^ 40) false).any (fun r => !r.int) = true := by decide +kernel

/-- Sums with nothing off, with one column and one row off, and with a column alone off. -/
theorem test_witness_MatrixProduct_checks : let r : Region := ⟨0, 1, 32, 0, true, 32⟩
    let c := (able .c).core
    let act := c.lineSums r fun x => x
    let off := (List.replicate 32 (0 : BitVec 32)).set 31 5
    badLines true 0 act.1 (List.replicate 32 0) [] = [] ∧ badLines true 0 act.2 [0] [] = [] ∧
    badLines true 0 act.1 off [] = [31] ∧ badLines true 0 act.2 [5] [] = [0] ∧ c.abftCheck r (slotOf off [0]) = none ∧
    (checked []).core.mtx.slot? 0 = some (slotOf [] []) ∧ regionOf moveWords[0] false = some r := by decide +kernel

/-- Core 0 in a step of region 0, which is a root; a scheduling root block at 0x60000, a continuation area of four records, one
rick with a template, a timer wheel of two entries. -/
def rootTables : List (Nat × Nat × Nat) :=
  [ (0x60000, 32, 0x61000 + 0x63000 * 2 ^ 64 + 0x62000 * 2 ^ 128 + (0x66000 + 2 * 2 ^ 40) * 2 ^ 192)
  , (0x61000, 32, 0xFFFF + 2 ^ 36 + 10 * 2 ^ 64 + 2 ^ 20 * 2 ^ 96 + 2 ^ 40 * 2 ^ 128 + 2 ^ 40 * 2 ^ 192)
  , (0x61078, 24, 0x64000 + 4 * 2 ^ 64 + 0x65000 * 2 ^ 128)
  , (0x62000, 32, 0x67000 + 2 ^ 64 + 2 ^ 80 + 2 ^ 144) ]

def managed (k : Strm) : State := { able k with
  root := 0x60000
  mem := rootTables.foldl (fun m e => m.store e.1 (natLe e.2.1 e.2.2)) (able k).mem }

/-- XENQ from C: scalars that are not four from a multiple of four, a rick of 2,048 and of 2,047. -/
theorem test_witness_ExpertIssue : (managed .c).gateTrap (gateR [.c, .s] [.imm]) (useD (.imm :: (recScalars 4).map Src.n) .t) = none ∧
    (5 : Fin 16).val % 4 ≠ 0 ∧ (4 : Fin 16).val % 4 = 0 ∧
    Executes (gateR [.c, .s] [.imm]) h0 (useD (.imm :: (recScalars 12).map Src.n) .t) (managed .c) ∧
    Executes (gateR [.c, .s] [.imm]) h0 (useD (.imm :: (recScalars 12).map Src.n) .t) (managed .s) ∧
    2048 ≤ ((managed .c).markIssued.val 2048 .imm).toNat ∧ ((managed .c).markIssued.val 2047 .imm).toNat < 2048 ∧
    Executes (gateR [.c, .s] [.imm, .n 0]) h0 (useD [.imm, .n 0] .t) (managed .c) ∧ xenqWord 0 = none ∧
    xenqWord (1023 + 32 * 2 ^ 10) = some (0xFFC00, 32) ∧ (managed .c).core.breach [⟨1, 0xFFC00, 1024, false⟩] = false ∧
    (∃ r, (managed .s).markIssued.sealFor false none false = .ok r ∧ true = true) :=
  ⟨by decide, by decide, by decide, executes_of (by decide), executes_of (by decide), by decide, by decide, executes_of (by decide),
    by decide, by decide, by decide, exists_of_holdsOf (P := fun _ => true) (by decide +kernel)⟩

/-- A step that a firing has made, its batch of one record. -/
def fired : Firing := ⟨0, 1, 0, 0, [(List.replicate 32 7, [])], [], false, false⟩

def withFiring (s : State) : State := s.mapCtx fun x => { x with firing := some fired }

theorem test_witness_ExpertIssue_more : Executes (gateR [.l] [.n 0, .n 0, .imm]) h0 (useD [.n 0, .n 0, .imm] .t) (withFiring (managed .l)) ∧
    (let t := (withFiring (managed .l)).markIssued
     (t.val 1 (.n 0)).toNat % 32 = 0 ∧ (t.valAfter 1 [.n 0, .n 0] .imm).toNat = 1 ∧ (t.valAfter 129 [.n 0, .n 0] .imm).toNat = 129 ∧
      t.batch.length = 1 ∧ t.core.breach [⟨1, 0, 32, true⟩] = false) ∧
    Executes (gateR [.l] [.imm]) h0 (useD [.imm] .t) (managed .l) ∧ Executes (gateN [.s]) h0 (useS []) (withFiring (managed .s)) ∧
    (withFiring (managed .s)).markIssued.core.ctx.bind (·.firing) = some fired ∧
    (managed .s).markIssued.core.ctx.bind (·.firing) = none ∧ (managed .s).markIssued.core.ctx.all (fun x => !x.base.raised) = true ∧
    Executes (gateM [.s]) h0 (useD [(at1 0).oreg.src] .t) (managed .s) ∧
    (∃ u ps, (managed .s).markIssued.memAccess [] (at1 0x3FFFFFF0) 16 16 [permW, permA] .write = (u, .ok ps) ∧
      (ps.head?.any fun q => q.part.kind = .rc && spaceOf q.part.addr = 0) = true) ∧
    (∃ u ps, (hostly .s).markIssued.memAccess [] (at1 0x7FFFFFF0) 16 16 [permW, permA] .write = (u, .ok ps) ∧
      (ps.head?.any fun q => q.part.kind != .rc) = true) ∧ fired.retired = false :=
  ⟨executes_of (by decide), by decide, executes_of (by decide), executes_of (by decide), by decide, by decide, by decide,
    executes_of (by decide),
    exists_of_answers (P := fun _ (ps : List PPart) => ps.head?.any fun q => q.part.kind = .rc && spaceOf q.part.addr = 0) (by decide +kernel),
    exists_of_answers (P := fun _ (ps : List PPart) => ps.head?.any fun q => q.part.kind != .rc) (by decide +kernel), rfl⟩

/-- A rick with one record; what an enqueue comes to; its configuration. -/
def enqueued : State := { ((managed .l).enqueue 0 0 [List.replicate 32 7] ⟨0, 0⟩).1 with cyc := 1 }

def cfgOf (s : State) (P : State → RickCfg → Bool) : Bool :=
  match s.rickCfg 0 with
  | (t, some c) => P t c
  | (_, none) => false

theorem test_witness_ExpertHomes : (match (managed .l).enqueue 0 0 [List.replicate 32 7] ⟨0, 0⟩ with
      | (_, .ok n) => n = 0 | _ => false) = true ∧
    (match (managed .l).enqueue 1 0 [List.replicate 32 7] ⟨0, 0⟩ with | (_, .refused) => true | _ => false) = true ∧
    cfgOf enqueued (fun t c => t.rickEligible 0 c && (match t.freeRecord (cardRegion c.card) with
      | (_, some v) => v.2 = 0x64000 | _ => false)) = true ∧
    cfgOf (managed .l) (fun t c => !t.rickEligible 0 c) = true ∧
    ((loading.core.acc? 0).any fun a => a.rel.isNone) = true ∧ ((releasing.core.acc? 0).any fun a => a.rel.isSome) = true ∧
    loading.core.acc? 1 = none := by decide +kernel

/-- A combine slot at 0x68000 that expects one arrival and holds a waiter. -/
def combining : State := { managed .l with mem := (managed .l).mem.store 0x68000 (natLe 16 (1 + 0x64000 * 2 ^ 64)) }

theorem test_witness_ExpertHomes_combine : combining.mem.wf = true ∧ combining.host.dirs = [] ∧ spaceOf 0x68000 = 0 ∧
    spaceOf (0x68000 + 16) = 0 ∧ (match combining.arrive 0x68000 with | (_, some (old, e)) => old = 0 && e = 1 | _ => false) = true ∧
    (∀ n ∈ [4, 12], ∀ i, i < n → (combining.atomKey (0x68000 + 4) n).higher (keyAt combining.keys (0x68000 + 4 + i)) = true) := by
  refine ⟨by decide +kernel, rfl, by decide +kernel⟩

/-! ### Witnesses: group CONT, traps -/

/-- The three streams of a step at the last word of a section, each waiting or not; stream k issues. -/
def ending (k : Strm) (l c s : Option EndWait) : State :=
  let x := (managed .l).core.l
  let x := { x with pc := x.pc + 3 }
  { managed k with core := { (managed k).core with l := { x with ended := l }, c := { x with ended := c }, s := { x with ended := s } } }

def ew (k : EndKind) : Option EndWait := some ⟨k, 0, false⟩

/-- All three wait: SUSP on C and S, k on L. -/
def meeting (k : EndKind) : State := ending .l (ew k) (ew .susp) (ew .susp)

/-- The step closes by the plan of k. -/
def closes (s : State) (k : EndKind) : Bool :=
  match s.core.ctx with
  | some x => holdsOf (s.closeStep x (s.planOf k)) fun r => decide (x.heldTr.length = 0) && r.2.pa = x.base.pa
  | none => false

/-- Stream L decides a meeting by k. -/
def meetsBy (g : Gate) (srcs : List Src) (last : Bool) (k : EndKind) : Bool :=
  let s := meeting k
  runs g h0 (useS srcs) s && (!last || s.cur.next = s.cur.secEnd) && s.markIssued.cur.ended.isSome && s.markIssued.core.meetReady &&
    s.markIssued.core.decider = s.who && s.markIssued.core.deciding = k && closes s.markIssued k

/-- An end instruction that arrives, that cannot meet EXIT, that waits for the others. -/
theorem test_witness_EndInstructions : Executes (gateN anyStrm) h0 (useS []) (ending .l none none none) ∧
    Executes (gateR anyStrm [.n 0]) h0 (useS [.n 0]) (ending .l none none none) ∧
    Executes (gateM anyStrm) h0 (useS [(at1 0).oreg.src]) (ending .l none none none) ∧
    (ending .l none none none).cur.next = (ending .l none none none).cur.secEnd ∧
    (ending .l none none none).markIssued.cur.ended = none ∧
    (ending .l none none none).markIssued.canMeet .l ⟨.susp, 127, false⟩ = true ∧
    (ending .l none (ew .exit) none).markIssued.canMeet .l ⟨.susp, 0, false⟩ = false ∧
    (ending .l none none none).markIssued.canMeet .l ⟨.exit, 0, false⟩ = true ∧
    (ending .l none (ew .yield) none).markIssued.canMeet .l ⟨.yield, 0, false⟩ = false ∧
    (ending .l (ew .susp) none none).markIssued.core.meetReady = false ∧
    (∃ u k, (ending .l none none none).markIssued.joinWord (at1 0x69008) = (u, .ok k) ∧ k.isJoin = true) :=
  ⟨executes_of (by decide), executes_of (by decide), executes_of (by decide), by decide, by decide, by decide, by decide, by decide,
    by decide, by decide, exists_of_answers (P := fun _ (k : EndKind) => k.isJoin) (by decide +kernel)⟩

/-- JOIN of a word at 0x69008, with DONE and without. -/
def joinKind : EndKind := .join 0x69008 0 false

def joining (v : Nat) : State := { meeting joinKind with
  mem := (managed .l).mem.store 0x69008 (natLe 24 v) }

def joinBytes (s : State) : List (Byte × Bool) :=
  match s.markIssued.joinParts 0x69008 0 false with
  | (u, .ok ps) =>
    (u.readWith (fun t q => if q.pois then (t, List.replicate q.len (0, true)) else t.homeRead q.addr q.len) ps).2
  | _ => [(0, true)]

theorem test_witness_EndInstructions_meet : meetsBy (gateN anyStrm) [] true .susp = true ∧
    meetsBy (gateN anyStrm) [] true .yield = true ∧ meetsBy (gateR anyStrm [.n 0]) [.n 0] true (.suspCmb 0x68000) = true ∧
    answers ((meeting (.suspCmb 0x68000)).markIssued.slotOf 0x68000) (fun _ a => a = 0x68000) = true ∧
    meetsBy (gateR anyStrm [.n 0]) [.n 0] true (.twheel 0) = true ∧ (meeting (.twheel 0)).markIssued.ahead 0 ≤ 0 ∧
    meetsBy (gateR anyStrm [.n 0]) [.n 0] true (.twheel 1) = true ∧ 0 < (meeting (.twheel 1)).markIssued.ahead 1 ∧
    (meeting (.twheel 1)).markIssued.ahead 1 < 2 ^ 55 ∧ (meeting (.twheel 1)).markIssued.wheelFree = some 0 ∧
    (meeting .susp).cid < 0x1000 ∧ (meeting .susp).markIssued.core.ctx.isSome = true := by decide +kernel

theorem test_witness_EndInstructions_exit :
    (let s := ending .l (ew .exit) (ew .exit) (ew .exit)
     runs (gateN anyStrm) h0 (useS []) s && s.markIssued.core.meetReady && s.markIssued.core.decider = .l &&
      s.markIssued.core.deciding = .exit && closes s.markIssued .exit) = true ∧
    (joinBytes (joining 0)).any (·.2) = false ∧ bitOf (bytesNat ((joinBytes (joining 0)).map (·.1)) 0 8) 63 = false ∧
    (joinBytes (joining (2 ^ 63))).any (·.2) = false ∧ bitOf (bytesNat ((joinBytes (joining (2 ^ 63))).map (·.1)) 0 8) 63 = true ∧
    meetsBy (gateM anyStrm) [(at1 0).oreg.src] true joinKind = true ∧ isDcc (joining 0).cid = false := by decide +kernel

/-- A continuation of the pool area of region 0, made by the card at 0x67000. -/
def withCont : State := (managed .l).newCont (List.replicate 128 0) 0 0x64000 0x64000 0 0 [0, 0, 0, 0] 0 0 0 none none none

/-- A continuation of a kind, and in a state. -/
def contAs (s : State) (wkind : BitVec 8) (st : CState) : State :=
  { s with conts := s.conts.map fun (c : Cont) => { c with wkind := wkind, state := st } }

theorem test_witness_StepEnds : (meeting .yield).core.ctx.any (fun x => x.heldTr.isEmpty) = true ∧ closes (meeting .yield) .yield = true ∧
    ((State.mapCtx (meeting .susp) fun x => { x with watch := some ⟨0x2000, 0x2000, 0, false⟩ }).core.ctx.bind (·.watch)).isSome = true ∧
    0 < ((1 : Word) - (meeting .yield).ftime).toInt ∧ withCont.conts.all (fun c => withCont.wakeHolds c) = true ∧
    (contAs withCont 3 .suspended).conts.all (fun c => !withCont.wakeHolds c) = true ∧ withCont.conts.length = 1 ∧
    ((meeting .yield).acquire ⟨0, 0⟩).2.getLsbD 1 = false := by decide +kernel

/-- REL.commit at word 0 with SUSP behind it at word 1. -/
def committing (w : Option EndWait) : State :=
  let s := ending .s (ew .susp) (ew .susp) w
  { s with
    core := { s.core with s := { s.core.s with pc := s.core.s.pc - 3 } }
    mem := s.mem.store (probeCode + 20) (bytesOfWord 0x740000000000000000000000) }

/-- The record and the frame are written and the commit begins. -/
def commits (s : State) : Bool :=
  match s.core.ctx with
  | some x =>
    match s.writeEnd x (x.endCont (s.core.setStrm .s s.commitEnd.1.core.s).afterEnds (s.planOf s.core.deciding)) with
    | .ok t => holdsOf (t.sealSlow true (some 0x2000) true) fun _ => true
    | .error _ => false
  | none => false

theorem test_witness_StepInstructions : Executes (gateM [.s]) h0 (useS [(at1 0).oreg.src]) (committing none) ∧
    (committing none).commitEnd.2 = some ⟨.susp, 0, true⟩ ∧ (committing none).markIssued.cur.ended = none ∧
    (∃ u q, (committing none).markIssued.flagPart (at1 0x3FFFFFF0) [permW, permA] .write = (u, .ok q) ∧ (!q.part.pois) = true) ∧
    (committing none).canMeet .s ⟨.susp, 0, true⟩ = true ∧
    (ending .s (ew .yield) (ew .exit) none).canMeet .s ⟨.susp, 0, true⟩ = false ∧
    (committing (some ⟨.susp, 0, true⟩)).cur.ended.isSome = true ∧ isDcc (committing none).cid = false ∧
    (committing (some ⟨.susp, 0, true⟩)).core.meetReady = true ∧ (committing (some ⟨.susp, 0, true⟩)).core.decider = .s ∧
    commits (committing (some ⟨.susp, 0, true⟩)) = true :=
  ⟨executes_of (by decide +kernel), by decide +kernel, by decide, exists_of_answers (P := fun _ (q : PPart) => !q.part.pois) (by decide +kernel),
    by decide +kernel⟩

/-- SPAWN of a card of the step's own region, of a region that is not well formed, and of one that is poisoned. -/
def spawning (region : Nat) (pois : List Nat) : State :=
  { managed .l with mem := (managed .l).mem.store 0x6A000 (natLe 16 (region * 2 ^ 16)), poisoned := pois }

def spawns (s : State) (P : Bool → Bool → Bool) : Bool :=
  match s.markIssued.memAccess [] (at1 0x6A000) 128 128 [permR] .read with
  | (u, .ok ps) =>
    let r := u.readWith State.readPart (partsOf ps)
    let bs := overlayOwn (u.ownBytes (partsOf ps)) (partsOf ps) r.2
    !u.soWait ps && P (bs.any (·.2)) (r.1.spawnable 0 (cardRegion (bs.map (·.1)))) &&
      holdsOf (r.1.sealFor false none false) fun _ => true
  | _ => false

/-- Every slot of region 0 holds a card. -/
def fullPool : State := { managed .l with
  jobs := (List.range 4096).map fun i => ⟨0, i, 0, [], none, none, 0, false, 0⟩ }

theorem leastFrom_none {p : Nat → Bool} : ∀ f lo, (∀ j, lo ≤ j → j < lo + f → p j = false) → leastFrom p lo f = none
  | 0, _, _ => rfl
  | f + 1, lo, h => by
    rw [leastFrom, h lo (by omega) (by omega)]
    exact leastFrom_none f (lo + 1) fun j a b => h j (by omega) (by omega)

theorem fullPool_freeSlot : fullPool.freeSlot 0 = none := by
  refine leastFrom_none _ _ fun j _ hj => ?_
  simp only [State.job?, fullPool, Option.isNone_eq_false_iff, List.find?_isSome]
  exact ⟨⟨0, j, 0, [], none, none, 0, false, 0⟩, List.mem_map.2 ⟨j, List.mem_range.2 (by omega), rfl⟩, by simp⟩

theorem test_witness_StepInstructions_spawn : Executes (gateM anyStrm) h0 (useD [(at1 0).oreg.src] .t) (spawning 0 []) ∧
    spawns (spawning 0 []) (fun bad ok => !bad && ok) = true ∧ spawns (spawning 5 []) (fun bad ok => !bad && !ok) = true ∧
    spawns (spawning 0 [0x6A000 / 64]) (fun bad _ => bad) = true ∧ (managed .l).core.ctx.any (fun x => decide (x.depth.val < 8)) = true ∧
    (State.mapCtx (managed .l) fun x => { x with depth := 8 }).core.ctx.any (fun x => decide (8 ≤ x.depth.val)) = true ∧
    (managed .l).freeSlot 0 = some 0 ∧ fullPool.freeSlot 0 = none :=
  ⟨executes_of (by decide), by decide +kernel, by decide +kernel, by decide +kernel, by decide, by decide, by decide, fullPool_freeSlot⟩

/-- CTXLIVE of the last tile register, of one past it, of the last accumulator; eight ranges already. -/
theorem test_witness_StepInstructions_live : Executes (gateR anyStrm [.n 0, .imm]) h0 (useS [.n 0, .imm]) (managed .l) ∧
    appendLive [] false 1023 1 = some [⟨false, 1023, 1⟩] ∧ appendLive [] false 1023 2 = none ∧ appendLive [] true 524287 1 = some [⟨true, 524287, 1⟩] ∧
    appendLive [] true 524287 2 = none ∧ appendLive (List.replicate 8 ⟨false, 0, 1⟩) false 0 1 = none ∧
    Executes (gateN anyStrm) h0 (useS []) (managed .l) ∧ (managed .l).markIssued.cid < 0x1000 :=
  ⟨executes_of (by decide), by decide, by decide, by decide, by decide, by decide, executes_of (by decide), by decide⟩

/-- Dispositions all HANDLE, with handlers at the section of the stream; all FAULT. -/
def handling (d : Word) : State := { managed .l with core := { (managed .l).core with
  displo := d, hndlc := BitVec.ofNat 64 (0x10000 + 0x10000 * 2 ^ 32), hndls := 0x10000 } }

def dispIs (s : State) (P : State → Disp → Bool → Option SecHdr → Bool) : Bool :=
  match s.dispAt .l (Trap.of .illegal) with
  | (u, d, b, h) => P u d b h

theorem test_witness_TrapEntry : (Trap.of .illegal).srec = [] ∧ (handling 0).cid < 0x1000 ∧
    dispIs (handling 0xAAAAAAAAAAAAAAAA) (fun _ d b h => d = .handle && !b && h.isSome) = true ∧
    dispIs (handling 0) (fun _ d b h => d = .fault && !b && h.isNone) = true ∧
    ({ (handling 0).core with ending := [⟨.l, Trap.of .illegal, true, false⟩] } : Core).ending ≠ [] ∧ (handling 0).core.ending = [] ∧
    (managed .l).core.ctx.isSome = true ∧ (managed .l).core.accs = [] ∧ ¬(0x1000 ≤ (handling 0).cid) := by decide +kernel

/-- A die control core whose SVEC names a header of its code. -/
def onDcc : State := { managed .l with cid := 0x1000, core := { (managed .l).core with svec := 0x10000 } }

theorem test_witness_TrapEntry_dcc : 0x1000 ≤ onDcc.cid ∧ (onDcc.core.strm .l).hnd = false ∧
    ∃ u h, onDcc.header onDcc.core.svec = (u, .ok h) ∧ h.isSome = true :=
  ⟨by decide, by decide, exists_of_answers (P := fun _ (h : Option SecHdr) => h.isSome) (by decide +kernel)⟩

/-- Pending traps of a stream with HND set: one raised before and one raised in the handler; UE of another disposition. -/
theorem test_witness_TrapEntry_pending : (Trap.of .illegal).inHnd = false ∧ (returning.cur.hnd = false) ∧
    (handling 0).core.dispOf .ue ≠ .handle ∧ (Trap.of .ue).cause = .ue ∧ (managed .l).core.copy = [] ∧
    (∃ h : SecHdr, h.len = 0) ∧ ∃ h : SecHdr, h.len ≠ 0 :=
  ⟨rfl, rfl, by decide, rfl, by decide, ⟨⟨0, 0, true, false, 0, 0⟩, rfl⟩, ⟨0, 1, true, false, 0, 0⟩, by decide⟩

/-- A handler that returns to the last word of the section, and to the header. -/
def returns (rpc : Nat) : State := (managed .l).mapCur fun x => { x with
  hnd := true, saved := some ⟨[], Vector.replicate 8 true, Vector.replicate 3 0, [], false, 0, 0, none, none, none⟩
  tf := x.tf.set 1 (BitVec.ofNat 64 (rpc + 0x10000 * 2 ^ 32)) }

theorem test_witness_TrapEntry_eret : Executes (sysG []) h0 (useS []) (managed .l) ∧ (managed .l).cur.hnd = false ∧
    Executes { gateR anyStrm [] with priv := false } h0 (useS []) (returns 0x10005) ∧ (returns 0x10005).cur.hnd = true ∧
    (returns 0x10005).cur.saved.isSome = true ∧
    (∃ u h, (returns 0x10005).markIssued.header ((returns 0x10005).cur.tf[1].extractLsb' 32 32) = (u, .ok h) ∧
      (h.any fun h => returnOk 0x10000 0x10005 h && returnOk 0x10000 0x10000 h) = true) :=
  ⟨executes_of (by decide), by decide, executes_of (by decide), by decide, by decide,
    exists_of_answers (P := fun _ (h : Option SecHdr) => h.any fun h => returnOk 0x10000 0x10005 h && returnOk 0x10000 0x10000 h) (by decide +kernel)⟩

/-- A step of tenant 1, in a handler and not. -/
def user : State := State.mapCtx (managed .l) fun x => { x with tenant := 1 }

theorem test_witness_Privilege : user.systemMode = false ∧ user.cur.hnd = false ∧ (managed .l).systemMode = true ∧ onDcc.systemMode = true ∧
    withCont.conts.any (fun k => holdsOf (withCont.beginStep k) fun _ => true) = true ∧
    ((managed .l).gateTrap (gateN [.c]) (useS [])).isSome = true := by decide +kernel

/-! ### Witnesses: group SYS -/

/-- A register that can be read and written, one that can only be read, one that does not exist; in a handler, its own frame. -/
theorem test_witness_ControlRegisters : Executes { gateR anyStrm [] with priv := true } h0 (useD [] .t) (managed .l) ∧
    (!(ownCsr 0x105 && (managed .l).cur.hnd)) = true ∧ ((managed .l).csr 0x105).isSome = true ∧
    (managed .l).gateTrap { gateR anyStrm [] with priv := true } (useD [] .t) = none ∧ (managed .l).csr 0xFFF = none ∧
    Executes { gateR anyStrm [.n 0] with priv := true } h0 (useS [.n 0]) (managed .l) ∧ csrWritable 0x10C = true ∧
    (managed .l).gateTrap { gateR anyStrm [.n 0] with priv := true } (useS [.n 0]) = none ∧ csrWritable 0x10D = false ∧ csrWritable 2 = false ∧
    Executes { gateR anyStrm [.n 0] with priv := true } h0 (useD [.n 0] .t) (managed .l) ∧
    Executes { gateR anyStrm [] with priv := !(ownCsr 3 && (returns 0x10005).cur.hnd) } h0 (useD [] .t) (returns 0x10005) ∧
    (Machine.Die.drhead (State.die State.reset 0) = Machine.Die.drtail (State.die State.reset 0)) ∧
    (((drafting 1 0 0 []).die 0).drhead ≠ ((drafting 1 0 0 []).die 0).drtail) :=
  ⟨executes_of (by decide), by decide, by decide, by decide, by decide, executes_of (by decide), by decide, by decide, by decide, by decide,
    executes_of (by decide), executes_of (by decide), by decide, by decide⟩

/-- TLBINV with nothing outstanding, with a load of the stream, and with an access of another core of the tenant. -/
def otherBusy : State := { managed .l with others := [(1, loading.core)] }

theorem test_witness_ControlRegisters_tlb : Executes (sysG [.n 0, .n 0]) h0 (useS [.n 0, .n 0]) (managed .l) ∧
    (managed .l).core.accs = [] ∧ (managed .l).transBusy true (some 0) = false ∧ (managed .l).transBusy true none = false ∧
    Executes (sysG [.n 0, .n 0]) h0 (useS [.n 0, .n 0]) loading ∧ (loading.markIssued.core.accs.any fun z => z.strm = loading.markIssued.who) = true ∧
    Executes (sysG [.n 0, .n 0]) h0 (useS [.n 0, .n 0]) otherBusy ∧ otherBusy.markIssued.transBusy false (some 0) = true ∧
    otherBusy.markIssued.transBusy true none = true ∧ otherBusy.markIssued.core.accs = [] ∧ (1 ∈ otherBusy.known) ∧ otherBusy.covered false 1 = true :=
  ⟨executes_of (by decide), by decide +kernel, by decide +kernel, by decide +kernel, executes_of (by decide +kernel), by decide +kernel,
    executes_of (by decide +kernel), by decide +kernel⟩

/-- Core 1 in a phase, asked by stream L of core 0 or by no one, with a step or without. -/
def twoCores (ph : CorePhase) (asked : Option Ask) (busy : Bool) : State := { managed .l with
  others := [(1, { Core.reset with phase := ph, asked := asked, ctx := if busy then (managed .l).core.ctx else none })] }

def coreOf (s : State) (imm : BitVec 32) : Nat := (s.markIssued.val imm .imm).toNat

theorem test_witness_CoreControl : Executes (sysG [.imm]) h0 (useD [.imm] .t) (twoCores .running none true) ∧
    4096 ≤ coreOf (twoCores .running none true) 4096 ∧ coreOf (twoCores .running none true) 4095 < 4096 ∧
    (twoCores .idle none false).preemptCode 1 = some 1 ∧ (twoCores .running none true).preemptCode 1 = none ∧
    (twoCores .running none true).askedOf 1 = .none ∧ (twoCores .running none true).cid ≠ 1 ∧
    (twoCores .running (some ⟨0, .l, some (some 1)⟩) true).askedOf 1 = .mine (some (some 1)) ∧
    (twoCores .stopped (some ⟨0, .l, some none⟩) true).askedOf 1 = .mine (some none) ∧
    ((twoCores .stopped (some ⟨0, .l, some none⟩) true).coreAt 1).phase ≠ .stopping ∧
    ((twoCores .stopping (some ⟨0, .l, some none⟩) true).coreAt 1).phase = .stopping ∧
    (twoCores .running (some ⟨0, .l, none⟩) true).askedOf 1 = .mine none ∧
    (twoCores .running (some ⟨5, .l, none⟩) true).askedOf 1 = .other ∧ (managed .l).preemptCode 0 = none ∧
    State.gated { managed .l with groups := [(0, .gated)] } 1 = true ∧ (twoCores .stopped none true).gated 1 = false ∧
    ((twoCores .stopped none true).coreAt 1).stoppedNow = true ∧ ((twoCores .running none true).coreAt 1).stoppedNow = false ∧
    ((twoCores .idle none false).coreAt 1).idleNow = true ∧ ((twoCores .running none true).coreAt 1).idleNow = false :=
  ⟨executes_of (by decide), by decide⟩

/-- PREEMPT of core 1 on its way, its request open, refused, granted; a step that has written its record, one whose streams all
wait to end. -/
def asking (ph : CorePhase) (code : Option (Option Nat)) : State := { twoCores ph (some ⟨0, .l, code⟩) true with
  core := { (managed .l).core with accs := [⟨0, .l, 0, none, .none, false, false, 0, 0, false, true, .preempt 1, none, 0⟩] } }

def onCore1 (f : Core → Core) : State := { managed .l with others := [(1, f { (managed .l).core with phase := .running })] }

theorem test_witness_CoreControl_preempt : ((asking .running none).core.acc? 0).any (fun a => a.rel.isNone && a.kind = .preempt 1 && a.strm = .l) = true ∧
    (asking .running none).cid = 0 ∧ ((asking .running none).coreAt 1).asked = some ⟨0, .l, none⟩ ∧
    ((asking .stopping (some none)).coreAt 1).asked = some ⟨0, .l, some none⟩ ∧
    ((asking .stopped (some none)).coreAt 1).phase ≠ .stopping ∧
    ((asking .running (some (some 4))).coreAt 1).asked = some ⟨0, .l, some (some 4)⟩ ∧
    (onCore1 fun c => { c with ctx := c.ctx.map fun x => { x with written := true } }).preemptCode 1 = some 4 ∧
    (onCore1 fun c => { c with l := { c.l with ended := some ⟨.susp, 0, false⟩ }, c := { c.c with ended := some ⟨.susp, 0, false⟩ }
                               s := { c.s with ended := some ⟨.susp, 0, false⟩ } }).preemptCode 1 = some 4 ∧
    (onCore1 id).preemptCode 1 = none := by decide +kernel

/-- Where a product stops when it can go no further. -/
theorem stop_at {s : State} {m : MCmd} {o : Mma} (e : (s.core.badGroup o m.kp).getD o.kg = m.kp) : (s.stopMma m o).2 = m.kp := by
  simp [State.stopMma, State.stopKp, e, Nat.mod_one]

/-- A product that is done with its last K-group, and one whose next group cannot be fetched. -/
def stopsAt32 (d : Vector Word 4) (kg : Nat) : Bool :=
  let m : MCmd := { mcmd (.mma false none) d true with kp := 32 }
  let s := working d [m]
  !s.core.drained && s.core.mtx.running == some m &&
    m.product.any fun o => (s.core.badGroup o 32).getD o.kg == 32 && o.kg == kg

theorem test_witness_CoreControl_drain : stopsAt32 (mmaWords 0) 32 = true ∧ stopsAt32 (longWords 2) 64 = true := by decide +kernel

/-- Core 1 is stopped and its step has declared nothing live: its image can be saved; not while another package leases the page. -/
def saveable (s : State) : State := { s with
  others := [(1, { Core.reset with phase := .drained, ctx := (managed .l).core.ctx.map fun x => { x with declB := true } })] }

theorem test_witness_CoreControl_save : ((saveable (managed .l)).saveCore 1 0x80000).2.isSome = true := by decide +kernel

theorem test_witness_CoreControl_save_waits :
    (State.saveCore (saveable { poolly .l with hleases := [⟨leasePage (keyOf 1 0), 9, 0⟩] }) 1 0x40000000).2 = none := by decide +kernel

/-- A range that the privileged instructions read or write as a whole. -/
def rawOk (va n : Nat) (need : Need) (P : List Byte → Bool) : Bool :=
  match (managed .l).markIssued.rawRange va n need with
  | (u, .ok ps) => (u.rawRead ps).2.any P
  | _ => false

def wordsIn (bs : List Byte) : List Nat := (List.range 256).map fun k => bytesNat bs (2 * k) 2

theorem test_witness_CoreControl_images : Executes (sysG [.n 0, .imm]) h0 (useD [.n 0, .imm] .t) (managed .l) ∧
    ((managed .l).markIssued.valAfter 1 [.n 0] .imm).toNat % 4096 ≠ 0 ∧
    ((managed .l).markIssued.valAfter 0 [.n 0] .imm).toNat % 4096 = 0 ∧ ((managed .l).markIssued.val 1 (.n 0)).toNat < 4096 ∧
    answers ((managed .l).markIssued.rawRange 0 0x1800 .write) (fun _ _ => true) = true ∧
    rawOk 0 512 .read (fun bs => (wordsIn bs).all fun e => decide (e < 512)) = true ∧
    rawOk 0x61000 512 .read (fun bs => (wordsIn bs).any fun e => decide (512 ≤ e)) = true ∧
    (List.replicate 256 511).length = 256 ∧ (List.replicate 256 511).all (fun e => decide (e < 512)) = true :=
  ⟨executes_of (by decide +kernel), by decide +kernel⟩

/-! A whole image can be read where no line is poisoned. -/

theorem viewLine_clean {s : State} {line : Nat} (hp : s.poisoned = []) (hf : s.faulty = []) (h0 : spaceOf (line * 64) ≠ 1) :
    (s.viewLine line).1 = s ∧ (s.viewLine line).2.any (·.2) = false := by
  have d : s.detect (line * 64) 64 = s := by simp [State.detect, hf]
  simp [State.viewLine, h0, hp, d]

theorem readLines_clean {s : State} {a n : Nat} (hp : s.poisoned = []) (hf : s.faulty = [])
    (h0 : ∀ l ∈ linesOf 64 a n, spaceOf (l * 64) ≠ 1) :
    (readLines State.viewLine 64 s a n).2.any (·.2) = false := by
  have key : ∀ (ls : List Nat) (acc : List PByte), (∀ l ∈ ls, spaceOf (l * 64) ≠ 1) → acc.any (·.2) = false →
      (ls.foldl (fun (p : State × List PByte) l => ((State.viewLine p.1 l).1, p.2 ++ (State.viewLine p.1 l).2)) (s, acc)).2.any (·.2) = false := by
    intro ls
    induction ls with
    | nil => intro acc _ h; exact h
    | cons l ls ih =>
      intro acc h1 h2
      obtain ⟨e1, e2⟩ := viewLine_clean hp hf (h1 l (by simp))
      simp only [List.foldl_cons, e1]
      exact ih _ (fun m hm => h1 m (by simp [hm])) (by simp only [List.any_append, h2, e2, Bool.or_false])
  have := key (linesOf 64 a n) [] h0 rfl
  simp only [List.any_eq_false] at this ⊢
  intro x hx
  exact this x (List.mem_of_mem_drop (List.mem_of_mem_take hx))

theorem rawRead_clean {s : State} {p : Part} (hp : s.poisoned = []) (hf : s.faulty = []) (h1 : p.pois = false) (h2 : p.kind ≠ .so)
    (h0 : ∀ l ∈ linesOf 64 p.addr p.len, spaceOf (l * 64) ≠ 1) : ∃ v bs, s.rawRead [p] = (v, some bs) := by
  have c := readLines_clean hp hf h0
  simp only [State.rawRead, State.readWith, List.foldl_cons, List.foldl_nil, State.viewPart, h1, h2, List.nil_append, c, if_false,
    Bool.false_eq_true]
  exact ⟨_, _, rfl⟩

theorem range_image : ∃ u, (managed .l).markIssued.rawRange 0 0x1800 .read = (u, .ok [⟨0, 0x1800, .rc, 0, false⟩]) ∧ u.poisoned = [] ∧
    u.faulty = [] := by
  have h : (match (managed .l).markIssued.rawRange 0 0x1800 .read with
    | (u, .ok ps) => decide (ps = [⟨0, 0x1800, .rc, 0, false⟩]) && decide (u.poisoned = []) && decide (u.faulty = [])
    | _ => false) = true := by decide +kernel
  split at h
  · rename_i u ps e
    simp only [Bool.and_eq_true, decide_eq_true_eq] at h
    exact ⟨u, by rw [e, h.1.1], h.1.2, h.2⟩
  · cases h

theorem test_witness_CoreControl_read : ∃ u ps v bs, (managed .l).markIssued.rawRange 0 0x1800 .read = (u, .ok ps) ∧
    u.rawRead ps = (v, some bs) := by
  obtain ⟨u, e, hp, hf⟩ := range_image
  obtain ⟨v, bs, h⟩ := rawRead_clean (p := ⟨0, 0x1800, .rc, 0, false⟩) hp hf rfl (by decide) (by decide +kernel)
  exact ⟨u, _, v, bs, e, h⟩

/-- CMINT of object 0 and of object 65,535; descriptors that are and are not well formed; a tenant without tables. -/
theorem test_witness_CoreControl_mint : Executes (sysG [.imm, .n 0, .n 0]) h0 (useD [.imm, .n 0, .n 0] .t) (managed .l) ∧
    ((managed .l).markIssued.val 65535 .imm).toNat < 65536 ∧ ((managed .l).mintEntry 0 65535 none).2 = some 1 ∧
    ((managed .l).mintEntry 1 0 none).2 = none ∧ rawOk 0x70000 32 .read descOk = true ∧
    rawOk 0x61000 32 .read (fun bs => !descOk bs) = true ∧ ((managed .l).mintEntry 0 0 (some (List.replicate 32 0))).2 = some 1 :=
  ⟨executes_of (by decide), by decide +kernel⟩

/-- A descriptor that cannot be read; a domain that is fenced and one that is not; a request that is decided either way. -/
theorem test_witness_CoreControl_more :
    (∃ u fva, (managed .l).markIssued.rawRange 0x40000000 32 .read = (u, .error (.cause .pagefault fva))) ∧
    withCont.conts.all (fun (k : Cont) => !withCont.fenced (withCont.effFdom k.region.toNat)) = true ∧
    withCont.conts.all (fun (k : Cont) => State.fenced { withCont with mem := withCont.mem.store 0x63000 [1] } (withCont.effFdom k.region.toNat)) = true ∧
    ((twoCores .running (some ⟨0, .l, none⟩) true).coreAt 1).asked = some ⟨0, .l, none⟩ ∧
    (twoCores .running (some ⟨0, .l, none⟩) true).preemptCode 1 = none ∧ (twoCores .idle (some ⟨0, .l, none⟩) false).preemptCode 1 = some 1 :=
  ⟨exists_of_fails (by decide +kernel), by decide +kernel⟩

def stopping (accs : List Acc) : State := { managed .l with core := { (managed .l).core with phase := .stopping, accs := accs } }

/-- HALT with an event that is let through and one that is masked; a core that is stopping, with an access and without. -/
theorem test_witness_CoreControl_halt : Executes (sysG []) h0 (useS []) (managed .l) ∧
    (managed .l).markIssued.core.evpend &&& (managed .l).markIssued.core.evmask = 0 ∧
    (let s := { managed .l with core := { (managed .l).core with evpend := 32, evmask := 63 } }
     runs (sysG []) h0 (useS []) s && s.markIssued.core.evpend &&& s.markIssued.core.evmask != 0) = true ∧
    (stopping []).core.phase = .stopping ∧ (stopping []).core.accs = [] ∧ (stopping loading.core.accs).core.accs ≠ [] :=
  ⟨executes_of (by decide), by decide, by decide +kernel, rfl, rfl, by decide +kernel⟩

/-- Nothing pending, a trap pending; three streams held on queues for 2^20 clocks and for one less; a limit reached and not. -/
def held (n : Nat) : State := let s := managed .l
  { s with core := { s.core with heldClk := n, l := { s.core.l with hold := .ldq }, c := { s.core.c with hold := .sdq }, s := { s.core.s with hold := .gate } } }

def watched (lim : BitVec 32) (ns : Nat) : State :=
  State.mapCtx { managed .l with core := { (managed .l).core with wdlim := lim } } fun x => { x with elapNs := ns }

theorem test_witness_CoreControl_events : ((managed .l).core.strm .l).pend = [] ∧
    ((managed .l).mapCur fun x => { x with pend := [Trap.of .poison] }).choose .l = some (Trap.of .poison) ∧
    (managed .l).core.queueHeld = false ∧ (held (2 ^ 20 - 1)).core.heldClk < 2 ^ 20 ∧ (held (2 ^ 20)).core.queueHeld = true ∧
    2 ^ 20 ≤ (held (2 ^ 20)).core.heldClk ∧ (watched 0 0).core.wdlim = 0 ∧ (watched 1 0).elapsed < (watched 1 0).core.wdlim.toNat ∧
    (watched 1 1000000).core.ctx.any (fun x => !x.written && !x.wdRaised) = true ∧
    (State.mapCtx (watched 1 1000000) fun x => { x with wdRaised := true }).core.ctx.all (fun x => x.wdRaised) = true ∧ (watched 1 1000000).core.wdlim ≠ 0 ∧
    (watched 1 1000000).core.wdlim.toNat ≤ (watched 1 1000000).elapsed ∧ (watched 1 1000000).core.l.pend = [] := by decide +kernel

/-! ### Witnesses: scheduling, pool, link, reliability, bring-up -/

/-- A launch ring of function 0 with one card posted, and with none. -/
def ringed (tail : BitVec 32) : State :=
  { managed .l with
    host := { (managed .l).host with up := true }
    fns := [(0, { (managed .l).fn 0 with lrsize := 1, lrtail := tail })] }

/-- A job card in slot 4,095 with and without its completion release. -/
def jobbed (rel : Option RelWord) : State := { managed .l with jobs := [⟨0, 4095, 0, [], none, rel, 0, false, 0⟩] }

/-- A card of region 0 of 2 by 2 groups, one to a core; and one that no group may take. -/
def cardBytes (perCore : Nat) : List Byte :=
  natLe 128 (perCore * 2 ^ 48 + 2 ^ 160 + 2 ^ 176 + 8 * 2 ^ 256 + 2 ^ 288 + 2 * 2 ^ 320 + 2 * 2 ^ 352 + 2 ^ 384)

def launching (perCore : Nat) : State := { ringed 1 with mem := (managed .l).mem.store (keyOf 2 0) (cardBytes perCore) }

theorem test_witness_SchedulerEvents_launch : (launching 1).launchPosted 0 = true ∧ (launching 1).rcbV 0 = true ∧
    (launching 1).launchCode 0 (cardBytes 1) = 0 ∧ (launching 1).freeSlot 0 = some 0 ∧ (launching 1).launchCode 0 (cardBytes 0) = 1 ∧
    (launching 1).wellFormed 0 = true ∧ (launching 1).inSubtree 0 0 = true ∧ (launching 1).wellFormed 5 = false ∧
    ((launching 1).writeCompletion ((launching 1).rcb 0 34 2) (cardBytes 0) (complWord 0 0 1) ⟨0, 0⟩).2 = true := by decide +kernel

/-- A continuation of slot 0's card that has not been dispatched. -/
def withJob : List Cont := withCont.conts.map fun (k : Cont) => { k with job := some (0, 0) }

/-- Every record of region 0 holds a continuation. -/
def allRecords : List Cont := [0, 1, 2, 3].flatMap fun i =>
  withCont.conts.map fun (k : Cont) => { k with pa := 0x64000 + 64 * i, va := 0x64000 + 64 * i }

/-- The card in slot 0: nothing of a chunk left, two groups left, its last chunk not all dispatched, its records all taken. -/
def dealing (left : Nat) : State := { managed .l with
  mem := (managed .l).mem.store ((managed .l).slotAddr 0 0) (cardBytes 1)
  jobs := [⟨0, 0, 0, [], none, none, 0, false, left⟩] }

def dealLive (s : State) : Bool :=
  let u := s.touchSlot 0 0
  let card := u.slotCard 0 0
  decide (cardJState card < 2) && u.wellFormed 0 && cardOk card false && !u.fenced (u.effFdom 0) && 0 < cardF card 0 48 8

theorem test_witness_SchedulerEvents_deal : dealLive (dealing 0) = true ∧ dealLive (dealing 2) = true ∧
    ((dealing 0).touchSlot 0 0).undealt 0 0 = false ∧ ((dealing 0).touchSlot 0 0).overBudget 0 = false ∧
    (State.touchSlot { dealing 0 with conts := withJob } 0 0).undealt 0 0 = true ∧
    ((dealing 0).freeRecord 0).2.isSome = true ∧
    (State.freeRecord { dealing 0 with conts := allRecords } 0).2 = none := by decide +kernel

/-- Cards whose bands are two wide, by rows, by columns and by curves: their last points are in range. -/
theorem test_witness_SchedulerEvents_points : ([0, 1, 2, 3].all fun t =>
    let c := bytesSet (cardBytes 1) 5 [BitVec.ofNat 8 (t + 4)]
    cardF c 0 40 2 = t && cardF c 0 42 5 = 1 && decide (0 * 2 < cardDimX c) && decide (3 < 2 * cardDimY c * cardDimZ c)) = true ∧
    (let inside (q : Nat × Nat) : Bool := decide (q.1 < 2)
     ((List.range' 0 (1 - 0)).filter fun i => inside (hilbertPoint 1 i)).length = 1 ∧ inside (hilbertPoint 1 1) = true) := by decide +kernel

theorem test_witness_SchedulerEvents : (ringed 0).launchPosted 0 = false ∧ (ringed 1).launchPosted 0 = true ∧
    (jobbed none).job? 0 0 = none ∧ (jobbed none).job? 0 4095 = some ⟨0, 4095, 0, [], none, none, 0, false, 0⟩ ∧
    ((jobbed (some ⟨0, 0⟩)).job? 0 4095).any (fun j => j.rel.isSome) = true ∧ (2 ^ 48 - 1 < 2 ^ 48) ∧
    (managed .l).pickRegion = none ∧ withCont.pickRegion.isSome = true ∧
    withCont.conts.all (fun k => k.state = .ready && k.isLocal) = true ∧
    (contAs withCont 0 .suspended).conts.all (fun k => (contAs withCont 0 .suspended).wakeHolds k) = true ∧
    (contAs withCont 3 .suspended).conts.all (fun k => decide (k.wkind.toNat < 6) && !(contAs withCont 3 .suspended).wakeHolds k) = true ∧
    (contAs withCont 6 .faulted).conts.all (fun k => decide (6 ≤ k.wkind.toNat) && k.state = .faulted) = true ∧
    (withCont.cont? 0x64000).isSome = true := by decide +kernel

/-- No core group has power. -/
def unpowered : State := { withCont with groups := (List.range 256).map fun g => (g, .gated) }

theorem lookupD_from : ∀ n lo g, lo ≤ g → g < lo + n →
    lookupD ((List.range' lo n).map fun g => (g, GroupPhase.gated)) g .awake = .gated
  | 0, _, _, _, _ => by omega
  | n + 1, lo, g, h1, h2 => by
    rw [List.range'_succ, List.map_cons, lookupD]
    by_cases e : g = lo
    · rw [if_pos e]
    · rw [if_neg e, if_neg (by omega)]
      exact lookupD_from n (lo + 1) g (by omega) (by omega)

theorem unpowered_gated (g : Nat) (h : g < 256) : lookupD unpowered.groups g .awake = .gated := by
  simp only [unpowered, List.range_eq_range']
  exact lookupD_from 256 0 g (by omega) (by omega)

theorem unpowered_idle : unpowered.idleCores = [] := by
  simp only [State.idleCores, List.filter_eq_nil_iff, List.mem_range]
  intro n hn
  have h := unpowered_gated (n / 16) (by omega)
  simp [State.gated, isDcc, h, show ¬4096 ≤ n by omega]

theorem place_of_idle {s : State} {k : Cont} {n : Nat} (h : n ∈ s.idleCores) : (s.place k).isSome = true := by
  cases e : s.idleCores with
  | nil => rw [e] at h; cases h
  | cons a l => simp [State.place, e, minBy]

theorem test_witness_SchedulerEvents_place : (∀ k, (withCont.place k).isSome = true) ∧ ∀ k, unpowered.place k = none :=
  ⟨fun _ => place_of_idle (n := 4095) (List.mem_filter.2 ⟨List.mem_range.2 (by decide), by decide +kernel⟩), fun _ => by unfold State.place; rw [unpowered_idle]; rfl⟩

/-- A claim of a pool record whose node does not answer. -/
def poolCont : State := { withCont with
  conts := withCont.conts.map fun (c : Cont) => { c with pa := 2 ^ 64, isLocal := false }
  nodes := [(poolNode (2 ^ 64), .dead)] }

theorem test_witness_SchedulerEvents_claim : poolCont.conts.all (fun k => k.state = .ready && !k.isLocal && (poolCont.claim k).2.isNone) = true := by
  decide +kernel

/-- Another package's claim: free of other holders, held by a third. -/
theorem test_witness_SchedulerEvents_others : (let t : Txn := ⟨0, 9, 1, 64⟩
    let s := managed .l
    s.mine t = false ∧ s.nodeUp t.node = true ∧ s.outcome? t = none ∧ s.recToken (txnKey t) = 0 ∧ lookupD s.holders (txnKey t) t.src = t.src ∧
    lookupD s.mgmt.epochs t.src 0 = 0 ∧ lookupD (State.holders { s with holders := [(txnKey t, 3)] }) (txnKey t) t.src ≠ t.src) ∧
    (let t : Txn := ⟨0, 0, 1, 0⟩
     poolCont.mine t = true ∧ (poolCont.cont? (txnKey t)).any (fun k => k.state = .ready && !k.isLocal) = true) ∧
    (contAs withCont 3 .suspended).conts.all (fun k => k.wkind = 3) = true ∧
    (let s : State := { managed .l with
        mem := (managed .l).mem.store 0x69008 (natLe 8 (2 ^ 63))
        conts := (contAs withCont 3 .suspended).conts.map fun (k : Cont) => { k with wopnd := 0x69008 } }
     s.conts.all fun k => s.wakeHolds k) = true := by decide +kernel

/-- A group whose cores have been idle for 1 µs with GATEIDLE at 1; a group that wakes; leases at 2 ms and at 3,990 µs of their
term. -/
def idleWorld (ft : BitVec 64) (l : List Lease) (g : List (Nat × GroupPhase)) : State := { managed .l with
  mem := (managed .l).mem.store 0x60022 [1]
  ftime := ft
  leases := l
  groups := g }

theorem test_witness_SchedulerEvents_time : (managed .l).dueEntries = [] ∧
    (idleWorld 1000 [] []).gateable 1 = true ∧ (idleWorld 999 [] []).gateable 1 = false ∧
    (idleWorld 12000 [] [(3, .waking 12000)]).groupOf 3 = .waking 12000 ∧ (12000 : BitVec 64).toNat ≤ (idleWorld 12000 [] []).ftime.toNat ∧
    (idleWorld 11999 [] []).ftime.toNat < (12000 : BitVec 64).toNat ∧
    (let l : Lease := ⟨7, 0, true, false⟩
     (idleWorld 2000000 [l] []).renewDue l = true ∧ (idleWorld 1999999 [l] []).renewDue l = false ∧
      State.renews { idleWorld 2000000 [l] [] with hleases := [⟨7, 0, 0⟩] } 7 0 0 = true ∧
      (idleWorld 2000000 [l] []).renews 7 0 0 = false ∧ (idleWorld 2000000 [l] []).renewWanted l = true ∧
      (idleWorld 2000000 [l] []).renewWanted { l with used := false } = false ∧ (idleWorld 2000000 [l] []).renewDue { l with used := false } = true ∧ l.served 3989999 = true ∧ l.served 3990000 = false ∧ ([l].find? fun l => l.page = 7) = some l) := by decide +kernel

/-- The first step of a continuation: with nothing to acquire, with a card, with a joined release, after a combine. -/
theorem test_witness_DispatchStart : withCont.conts.all (fun k => k.first && holdsOf (withCont.beginStep { k with card := [] }) (fun _ => true) &&
      decide (Cont.startWords { k with card := [] } = [])) = true ∧
    withCont.conts.all (fun k => holdsOf (withCont.beginStep k) (fun _ => true) && !k.card.isEmpty) = true ∧
    withCont.conts.all (fun k => let k : Cont := { k with card := [], joinw := some ⟨5, 7⟩ }
      holdsOf (withCont.beginStep k) (fun _ => true) && k.startWords == [⟨5, 7⟩]) = true ∧
    withCont.conts.all (fun k => holdsOf (withCont.beginStep { k with wkind := 2 }) (fun _ => true)) = true := by decide +kernel

/-- A transaction on pool node n from another package, and from this one. -/
def txn (src : Nat) : Txn := ⟨0, src, 1, 0⟩

def poolWorld (x : NodeState) (outs : List Outc) : State := { managed .l with nodes := [(0, x)], outs := outs }

theorem test_witness_PoolEvents : (poolWorld .up []).nodeUp (txn 9).node = true ∧ (poolWorld .dead []).nodeUp (txn 9).node = false ∧
    (poolWorld .up []).mine (txn 9) = false ∧ (poolWorld .up []).mine (txn 0) = true ∧
    (∀ h ∈ (poolWorld .up []).hleases, ¬(h.page = leasePage (txnKey (txn 9)) ∧ h.pos = 9 ∧ h.grant = 0)) ∧
    (∃ h ∈ ((poolWorld .up []).grant (leasePage (txnKey (txn 9))) 9).hleases, h.page = leasePage (txnKey (txn 9)) ∧ h.pos = (txn 9).src ∧
      h.grant = (poolWorld .up []).ftime) ∧
    ((poolWorld .up [⟨9, 0, 1, 0, []⟩]).outcome? (txn 9)).isSome = true ∧ (poolWorld .up []).outcome? (txn 9) = none ∧
    ((poolWorld .up []).homeNat (txnKey (txn 9)) 8).2 = some 0 ∧ (poolWorld .up []).core.acc? (txn 0).addr = none ∧
    (loading.core.acc? (txn 0).addr).any (fun a => a.rel.isNone) = true ∧ loading.mine (txn 0) = true := by
  refine ⟨by decide, by decide, by decide, by decide, by decide, ?_, by decide +kernel⟩
  exact ⟨⟨leasePage (txnKey (txn 9)), 9, (poolWorld .up []).ftime⟩, by simp [State.grant, txn], rfl, rfl, rfl⟩

/-- The body of a billet of log 77 with the record of a commit, under a token and after some steps. -/
def shippedBody (ftok seq : BitVec 32) : List Byte :=
  let r : Rec := ⟨txnKey (txn 9), natLe 56 0 ++ natLe 4 seq.toNat ++ natLe 4 ftok.toNat, 3, false, 0, true, 0⟩
  Billet.bytes ⟨0, 0, none, true, true, ftok, 5, [r], r.size, true, true, false, false, false, 0, true, false⟩ 77

def shipOf (ftok seq : BitVec 32) (P : BitVec 32 → Billet → Bool) : Bool := (billetOf (shippedBody ftok seq)).any fun e => P e.1 e.2

/-- A commit of its record, for its token or another, after its steps or others. -/
def commitOf (ftok seq : BitVec 32) (P : Billet → Rec → Bool) : Bool :=
  match billetsOf [shippedBody ftok seq] with
  | some l => l.getLast?.isSome && (commitRec (l.map (·.2)) (txnKey (txn 9))).any fun p => P p.1 p.2
  | none => false

theorem test_witness_PoolEvents_ship : (let s := poolWorld .up []
    let pa := txnKey (txn 9)
    billetOf [] = none ∧ s.outcome? (txn 9) = none ∧
    shipOf 0 0 (fun n b => n = 77 && !decide (b.ftok.toNat < s.recToken pa) && !s.deadTargets b &&
      (s.recallPages (poolPages b.ranges) true).2) = true ∧
    shipOf 0 0 (fun _ b => (poolWorld .dead []).deadTargets b) = true ∧
    commitOf 1 0 (fun b _ => b.ftok.toNat != s.recToken pa) = true ∧
    commitOf 0 1 (fun b r => b.ftok.toNat = s.recToken pa && bytesNat r.data 56 4 != s.recSteps pa) = true ∧
    commitOf 0 0 (fun b r => b.ftok.toNat = s.recToken pa && bytesNat r.data 56 4 = s.recSteps pa && !s.deadTargets b &&
      (s.recallPages (poolPages ((pa, 64) :: b.ranges)) true).2) = true) ∧
    (poolWorld .dead []).homeUp (keyOf 1 0) = false ∧
    bitOf (State.mem { managed .l with mem := (managed .l).mem.store (keyOf 2 0) (natLe 8 (2 ^ 63)) } |>.nat (keyOf 2 0) 8) 63 = true := by
  decide +kernel

/-- A record with a token of 1 at its home, which a billet of token 0 is stale for; a page under recall; a node that has not
answered a load for RESPTO. -/
def recalled : State := { poolWorld .up [] with hleases := [⟨leasePage (txnKey (txn 9)), 9, 0⟩], recalls := [leasePage (txnKey (txn 9))] }

theorem test_witness_PoolEvents_more : (let t : Txn := ⟨0, 9, 1, 64⟩
    let s := poolWorld .up []
    t.addr ≠ 0 ∧ shipOf 0 0 (fun _ b => decide (b.ftok.toNat < State.recToken { s with mem := s.mem.store (txnKey t) (natLe 64 (2 ^ 480)) } (txnKey t))) = true) ∧
    recalled.recallOn (leasePage (txnKey (txn 9))) = true ∧ recalled.renews (leasePage (txnKey (txn 9))) 9 0 = false ∧
    State.renews { recalled with recalls := [] } (leasePage (txnKey (txn 9))) 9 0 = true ∧
    (recalled.recallPages [leasePage (txnKey (txn 9))] true).2 = false ∧ readOk 64 64 = true ∧ readOk 0 32 = false ∧
    (poolWorld .up []).overdue 0 = false ∧
    State.overdue { loading with
      core := { loading.core with accs := [⟨0, .l, 0, none, .none, false, false, 0, 0, false, true, .acqFlag (keyOf 1 0) false, none, 0⟩] }
      ftime := BitVec.ofNat 64 loading.mgmt.respto.toNat } 0 = true := by decide +kernel

/-- What waits for a recall; a raise that waits for it, and one that need not; keys below an atomic's; a record to hand over;
blocks of a collective that agree and that do not; a completion word of the pool, of the host. -/
def heldWorld (acc : List Accepted) : State := { poolWorld .up [] with holders := [(keyOf 1 64, 9)], accepted := acc }

def collWorld : State := { poolWorld .up [] with colls := [⟨1, 2, 2, [⟨0, 0, 0, 0, 4, [], none⟩], none⟩] }

theorem test_witness_PoolEvents_kept : (let t : Txn := ⟨0, 9, 1, 64⟩
      (recalled.recallPages (poolPages [(txnKey (txn 9), 8)]) (!recalled.mine (txn 9))).2 = false ∧
      ((poolWorld .up []).recallPages (poolPages [(txnKey (txn 9), 8)]) true).2 = true ∧ poolNode (txnKey (txn 9)) = (txn 9).node ∧
      (heldWorld []).heldRecs 9 0 = [keyOf 1 64] ∧ (heldWorld [.write t [1]]).heldRecs 9 0 = [keyOf 1 64] ∧
      ((heldWorld []).heldRecs 9 0).any (heldWorld []).relPending = false ∧
      ((heldWorld [.commit t []]).heldRecs 9 0).any (heldWorld [.commit t []]).relPending = true ∧
      (5 : Nat) ≠ (heldWorld []).podpos.toNat ∧ ((heldWorld []).homeRead (txnKey t) 64).2.any (·.2) = false ∧
      (State.homeRead { heldWorld [] with poisoned := [txnKey t / 64] } (txnKey t) 64).2.any (·.2) = true ∧
      (elemBytes .f32 = 4 ∧ 1 * 4 ≤ [1, 2, 3, 4].length) ∧ (heldWorld [.write t [1]]).accepted = [.write t [1]]) ∧
    (collWorld.coll? ⟨1, 2, 0, 2, 0, 0⟩).isSome = true ∧ collWorld.coll? ⟨1, 2, 0, 3, 0, 0⟩ = none ∧
    (poolWorld .up []).homeUp (keyOf 1 8) = true ∧ (poolWorld .up []).homeUp (keyOf 2 8) = (poolWorld .up []).host.up ∧
    bitOf ((poolWorld .up []).mem.nat (keyOf 1 8) 8) 63 = false ∧ (ringed 0).homeUp (keyOf 2 8) = true := by decide +kernel

theorem test_witness_PoolEvents_keys : (managed .l).memWf ∧ spaceOf (keyOf 1 64) = 1 ∧ spaceOf (keyOf 1 64 + 63) = 1 ∧
    (managed .l).keyWins (keyOf 1 64) 1 ∧ (managed .l).keyWins (keyOf 1 64 + 40) 8 ∧ (managed .l).keyWins (keyOf 1 64 + 60) 4 :=
  ⟨show (managed .l).mem.wf = true from by decide +kernel, by decide, by decide, by unfold State.keyWins; decide +kernel,
    by unfold State.keyWins; decide +kernel, by unfold State.keyWins; decide +kernel⟩

/-- A port that is up: a good flit, a bad one, the eighth failure; one that is down; replay due and not due. -/
def upPort (fails since : Nat) : Port := { Port.reset with
  state := 2, fails := fails, txFails := fails, sinceAck := since, unacked := [⟨0, [], []⟩], active := 0xFF }

theorem test_witness_LinkEvents : (upPort 0 0).isUp = true ∧ Port.reset.isUp = false ∧ (0 : BitVec 12) = (upPort 0 0).rxSeq ∧
    (upPort 6 0).fails < 7 ∧ 7 ≤ (upPort 7 0).fails ∧ (upPort 0 1000).replayDue = true ∧ (upPort 0 999).replayDue = false ∧
    (upPort 0 0).active.getLsbD 7 = true ∧ (7 < 10) ∧ (upPort 0 0).degth.toNat < 641 ∧ 640 ≤ (upPort 0 0).degth.toNat ∧
    (State.port { managed .l with ports := [(3, upPort 0 1000)] } 3).replayDue = true := by decide

/-- Flits of the four types, good and not, expected and not; a port that may send a new flit, and one that may not. -/
def flitOf (seq : BitVec 12) (ftype : Nat) : List Byte := flitBytes seq 0 ftype 1 (List.replicate 240 5)

theorem test_witness_LinkEvents_flits : ([0, 1, 2].all fun k => flitGood (flitOf 0 k) true && flitType (flitOf 0 k) = k) = true ∧
    flitSeq (flitOf 0 1) = (upPort 0 0).rxSeq ∧ flitSeq (flitOf 7 1) ≠ (upPort 0 0).rxSeq ∧ flitGood (flitOf 0 4) true = false ∧
    (upPort 0 0).disc = false ∧ (upPort 0 0).resent = [] ∧ (upPort 0 0).active ≠ 0 ∧ (upPort 0 0).mayForm = false ∧
    Port.mayForm { upPort 0 0 with line := [(0, 1)], credits := 1 } = true := by decide +kernel

theorem test_witness_LinkEvents_trained : State.reset.boot ≠ .dead ∧ State.reset.collierHalt.boot = .dead := by decide

/-- A training flit at a port that is up, at one that trains, and at one that is down. -/
theorem test_witness_LinkEvents_training : flitGood (flitOf 0 3) true = true ∧ flitType (flitOf 0 3) = 3 ∧ (upPort 0 0).isUp = true ∧
    Port.isUp { upPort 0 0 with state := 1 } = false ∧ Port.reset.isUp = false ∧ Port.reset.state ≠ 1 ∧
    State.boot { State.reset with boot := .fatal } = .fatal ∧ State.reset.boot ≠ .fatal := by decide +kernel

/-- A reserved type is a CRC error (R418), and the expected data flit is delivered once. -/
theorem test_flit_delivery : ((upPort 0 0).rx ⟨flitOf 0 1, true⟩).rxSeq = 1 ∧ (((upPort 0 0).rx ⟨flitOf 0 1, true⟩).rx ⟨flitOf 0 1, true⟩).rxSeq = 1 ∧
    ((upPort 0 0).rx ⟨flitOf 0 4, true⟩).nakSent = (upPort 0 0).nakSent + 1 := by decide +kernel

/-- A function whose ring is empty and one whose ring is not; a window; a host that is there and one that is not. -/
theorem test_witness_LinkEvents_host : ((ringed 0).fn 0).lrhead = ((ringed 0).fn 0).lrtail ∧ ((ringed 1).fn 0).lrhead ≠ ((ringed 1).fn 0).lrtail ∧
    (5 : Nat) ≠ 0 ∧ (ringed 0).host.hwsize = 0 ∧ (ringed 0).host.up = true ∧ (managed .l).host.up = false ∧
    (ringed 0).inWindow 0 64 = false ∧ ringBaseOk 0x1000 = true ∧ ringBaseOk 8 = false ∧ ringSizeOk 16 = true ∧ ringSizeOk 17 = false ∧ (let w := { ringed 0 with host := { (ringed 0).host with hwsize := 1 } }
      w.host.hwsize ≠ 0 ∧ w.inWindow 0 64 = true ∧ (1 : BitVec 9).toNat ≤ 256) := by decide

theorem test_witness_ReliabilityEvents : (managed .l).cid < 0x1000 ∧ State.reset.core.ctx = none ∧
    (managed .l).core.ctx.any (fun x => !x.written) = true ∧ AshRing.reset.frozen = false ∧
    ((managed .l).nextSpare 0 0).isSome = true ∧ (managed .l).remapOf 0 0 0 = none ∧ ((managed .l).freeRemap 0).isSome = true ∧
    5 ∉ (managed .l).faulty ∧ 5 ∈ State.faulty { managed .l with faulty := [5] } ∧
    ((managed .l).beginSparing 0 0 0 |>.remapOf 0 0 0).isSome = true ∧ ((managed .l).findSpare 0 0 [0] 33).2.isSome = true ∧
    ((managed .l).findSpare 0 0 (List.range 32) 33).2 = none ∧ (900 ≤ 900 ∧ 900 ≤ 1800 ∧ 900 % 100 = 0) ∧ (899 < 900 ∧ 1800 < 1900) ∧
    ((managed .l).die 0).hot = false ∧ ((managed .l).die 0).mhz ≠ 900 ∧ ((managed .l).die 0).mhz = 1800 ∧
    4400000 ≤ (managed .l).mgmt.cap.toNat ∧ (managed .l).mgmt.cap.toNat < 4400001 ∧ (114 < 115) ∧
    (((managed .l).die 0).report 105).hot = true ∧ (63 < 64) ∧ (0 ≤ 31) := by decide +kernel

/-- Two images that are no images; the phases; a version asked for and not. What accepts an image is opaque: no test can show one.
-/
theorem test_witness_BootEvents : State.reset.boot = .reset ∧ checkImage [] = none ∧ imgSlot [] = 0 ∧
    (State.boot { State.reset with boot := .tindered } = .tindered) ∧ (State.reset.measureAll [[]] [1, 2, 3]).2 = false ∧ State.reset.spdm.version = false ∧
    State.reset.spdm.caps = false ∧ State.reset.spdm.algs = false ∧
    (Spdm.algs { State.reset.spdm with version := true, caps := true, algs := true } = true) ∧ (managed .l).boot ≠ .reset ∧
    (0 : BitVec 8) ≠ 1 ∧ (List.replicate 32 (0 : Byte)).length = 32 :=
  ⟨rfl, rfl, rfl, rfl, by decide, rfl, rfl, rfl, rfl, by decide, by decide, rfl⟩

end Sys2Proof.Tests
end

section
/-!
SUPPORT. What the memory system changes of its own accord. `State.unmem` forgets those fields: memory, the view, leases, watches,
poison, ash rings, ports. A device read or write then leaves `unmem` as it was (`MemOnly`), and with it the scheduling state, the
logs and the core in focus but for a fired watch, an event bit and lines of the L1. `MemLogs` lets the logs change too.
-/

namespace Sys2Proof.Machine

/-! ### The forgetful maps -/

/-- A step's context whose watch has not fired. -/
def StepCtx.unfired (x : StepCtx) : StepCtx := { x with watch := x.watch.map fun w => { w with fired := false } }

/-- A core without what a watch, an ash record and a lease that goes change of it. -/
def Core.unmem (c : Core) : Core :=
  { c with l := { c.l with waitW := none }, ctx := c.ctx.map StepCtx.unfired, evpend := 0, l1 := [] }

/-- The machine without what its memory system changes. -/
def State.unmem (s : State) : State :=
  { s with
    core := s.core.unmem, others := [], free := 0, mem := [], keys := [], poisoned := [], faulty := [], waits := [], ash := []
    view := [], vkeys := [], vlines := [], leases := [], hleases := [], recalls := [], ports := [], txseq := [], outs := [], devw := []
    mgmt := { s.mgmt with remap := [] }, host := { s.host with dirs := [], resps := [] } }

/-- The core d comes from c by what the memory system does. -/
def CoreMemOnly (c d : Core) : Prop := d.unmem = c.unmem ∧ (c.l1 = [] → d.l1 = [])

/-- The state t comes from s by what the memory system does. -/
def MemOnly (s t : State) : Prop := t.unmem = s.unmem ∧ (s.core.l1 = [] → t.core.l1 = [])

/-- The same, with the logs that this package and its homes keep. -/
def MemLogs (s t : State) : Prop :=
  { t.unmem with logs := [], rlogs := [] } = { s.unmem with logs := [], rlogs := [] } ∧ (s.core.l1 = [] → t.core.l1 = [])

theorem CoreMemOnly.refl (c : Core) : CoreMemOnly c c := ⟨rfl, id⟩

theorem MemOnly.refl (s : State) : MemOnly s s := ⟨rfl, id⟩

theorem MemOnly.trans {s t u : State} (h : MemOnly s t) (k : MemOnly t u) : MemOnly s u :=
  ⟨k.1.trans h.1, fun e => k.2 (h.2 e)⟩

theorem MemOnly.logs_too {s t : State} (h : MemOnly s t) : MemLogs s t :=
  ⟨congrArg (fun u : State => ({ u with logs := [], rlogs := [] } : State)) h.1, h.2⟩

theorem MemLogs.refl (s : State) : MemLogs s s := ⟨rfl, id⟩

theorem MemLogs.trans {s t u : State} (h : MemLogs s t) (k : MemLogs t u) : MemLogs s u :=
  ⟨k.1.trans h.1, fun e => k.2 (h.2 e)⟩

theorem MemOnly.of_foldl {α : Type} (f : State → α → State) (hf : ∀ s x, MemOnly s (f s x)) (l : List α) (s : State) :
    MemOnly s (l.foldl f s) :=
  foldl_keeps (MemOnly s) f l s (.refl s) fun t x h => h.trans (hf t x)

theorem MemLogs.of_foldl {α : Type} (f : State → α → State) (hf : ∀ s x, MemLogs s (f s x)) (l : List α) (s : State) :
    MemLogs s (l.foldl f s) :=
  foldl_keeps (MemLogs s) f l s (.refl s) fun t x h => h.trans (hf t x)

/-- A fold that carries a result beside the state. -/
theorem MemOnly.of_foldl_fst {α β : Type} (f : State × β → α → State × β) (hf : ∀ p x, MemOnly p.1 (f p x).1) (l : List α)
    (p : State × β) : MemOnly p.1 (l.foldl f p).1 :=
  foldl_keeps (fun q : State × β => MemOnly p.1 q.1) f l p (.refl p.1) fun q x h => h.trans (hf q x)

theorem MemLogs.of_foldl_fst {α β : Type} (f : State × β → α → State × β) (hf : ∀ p x, MemLogs p.1 (f p x).1) (l : List α)
    (p : State × β) : MemLogs p.1 (l.foldl f p).1 :=
  foldl_keeps (fun q : State × β => MemLogs p.1 q.1) f l p (.refl p.1) fun q x h => h.trans (hf q x)

/-! ### What stays -/

section stays
variable {s t : State}

theorem MemLogs.core_unmem (h : MemLogs s t) : t.core.unmem = s.core.unmem := congrArg (·.core) h.1
theorem MemLogs.tile (h : MemLogs s t) : t.core.tile = s.core.tile := congrArg (·.core.tile) h.1
theorem MemLogs.accs32 (h : MemLogs s t) : t.core.accs32 = s.core.accs32 := congrArg (·.core.accs32) h.1
theorem MemLogs.conts (h : MemLogs s t) : t.conts = s.conts := congrArg (·.conts) h.1
theorem MemLogs.commits (h : MemLogs s t) : t.commits = s.commits := congrArg (·.commits) h.1
theorem MemLogs.ftime (h : MemLogs s t) : t.ftime = s.ftime := congrArg (·.ftime) h.1

theorem MemOnly.conts (h : MemOnly s t) : t.conts = s.conts := congrArg (·.conts) h.1
theorem MemOnly.cont? (h : MemOnly s t) (pa : Nat) : t.cont? pa = s.cont? pa := by rw [State.cont?, h.conts, State.cont?]
theorem MemOnly.jobs (h : MemOnly s t) : t.jobs = s.jobs := congrArg (·.jobs) h.1
theorem MemOnly.job? (h : MemOnly s t) (r slot : Nat) : t.job? r slot = s.job? r slot := by rw [State.job?, h.jobs, State.job?]
theorem MemOnly.logs (h : MemOnly s t) : t.logs = s.logs := congrArg (·.logs) h.1
theorem MemOnly.log? (h : MemOnly s t) (n : BitVec 32) : t.log? n = s.log? n := by rw [State.log?, h.logs, State.log?]
theorem MemOnly.logseq (h : MemOnly s t) : t.logseq = s.logseq := congrArg (·.logseq) h.1
theorem MemOnly.podpos (h : MemOnly s t) : t.podpos = s.podpos := congrArg (·.podpos) h.1
theorem MemOnly.wheel (h : MemOnly s t) : t.wheel = s.wheel := congrArg (·.wheel) h.1
theorem MemOnly.holders (h : MemOnly s t) : t.holders = s.holders := congrArg (·.holders) h.1
theorem MemOnly.nodes (h : MemOnly s t) : t.nodes = s.nodes := congrArg (·.nodes) h.1
theorem MemOnly.ftime (h : MemOnly s t) : t.ftime = s.ftime := congrArg (·.ftime) h.1
theorem MemOnly.cyc (h : MemOnly s t) : t.cyc = s.cyc := congrArg (·.cyc) h.1

theorem MemOnly.nodeUp (h : MemOnly s t) (n : Nat) : t.nodeUp n = s.nodeUp n := by rw [State.nodeUp, h.nodes, State.nodeUp]

end stays

/-- A write of fields that `unmem` forgets. -/
theorem memOnly_fields (s : State) (fr : Nat) (m : Mem) (ks : List (Nat × Key)) (po fa : List Nat) (v : Mem) (vk : List (Nat × Key))
    (vl : List Nat) (le : List Lease) (hl : List HomeLease) (re : List Nat) (wa : List WaitEnt) (ash : List (Nat × AshRing))
    (ps : List (Nat × Port)) (outs : List Outc) (tx : List (Nat × Nat)) (dw : List (Nat × Word)) :
    MemOnly s { s with
      free := fr, mem := m, keys := ks, poisoned := po, faulty := fa, view := v, vkeys := vk, vlines := vl, leases := le
      hleases := hl, recalls := re, waits := wa, ash := ash, ports := ps, outs := outs, txseq := tx, devw := dw } := ⟨rfl, id⟩

/-- Host copies of lines that come or go. -/
theorem memOnly_dirs (s : State) (d : List (Nat × Bool)) (r : List (Nat × Option (List Byte))) :
    MemOnly s { s with host := { s.host with dirs := d, resps := r } } := ⟨rfl, id⟩

theorem State.setRemap_memOnly (s : State) (k i : Nat) (w : BitVec 31) : MemOnly s (s.setRemap k i w) := ⟨rfl, id⟩

/-- A core in focus that the memory system changed. -/
theorem memOnly_core {s : State} {c : Core} (h : CoreMemOnly s.core c) : MemOnly s { s with core := c } :=
  ⟨congrArg (fun d => ({ s.unmem with core := d } : State)) h.1, h.2⟩

theorem State.putCore_memOnly {s : State} {n : Nat} {c : Core} (h : CoreMemOnly (s.coreAt n) c) : MemOnly s (s.putCore n c) := by
  unfold State.putCore
  unfold State.coreAt at h
  split
  · next e => exact memOnly_core (by rwa [if_pos e] at h)
  · exact .refl s

/-! ### Watches, ash records, poison -/

theorem CoreMemOnly.trans {c d e : Core} (h : CoreMemOnly c d) (k : CoreMemOnly d e) : CoreMemOnly c e :=
  ⟨k.1.trans h.1, fun z => k.2 (h.2 z)⟩

theorem coreMemOnly_waitW (c : Core) (v : Option (Nat × Bool)) : CoreMemOnly c { c with l := { c.l with waitW := v } } :=
  ⟨rfl, id⟩

theorem coreMemOnly_ctx (c : Core) (f : StepCtx → StepCtx) (h : ∀ x, (f x).unfired = x.unfired) :
    CoreMemOnly c { c with ctx := c.ctx.map f } := by
  have e : (c.ctx.map f).map StepCtx.unfired = c.ctx.map StepCtx.unfired := by
    rw [Option.map_map]
    exact congrArg (Option.map · c.ctx) (funext h)
  exact ⟨congrArg (fun x => ({ c.unmem with ctx := x } : Core)) e, id⟩

theorem coreMemOnly_event (c : Core) (b : Nat) : CoreMemOnly c (c.event b) := ⟨rfl, id⟩

theorem State.fireWatches_memOnly (s : State) : MemOnly s s.fireWatches := by
  unfold State.fireWatches
  dsimp only
  split
  · exact .refl s
  · refine MemOnly.trans (t := { s with waits := s.waits.filter fun w => BitVec.ofNat 64 (s.mem.nat w.addr 8) = w.cmp })
      (memOnly_fields ..) (MemOnly.of_foldl _ (fun u w => ?_) _ _)
    split
    · exact .refl u
    · refine State.putCore_memOnly (CoreMemOnly.trans ?_ (coreMemOnly_ctx _ _ fun x => ?_))
      · split
        · exact coreMemOnly_waitW _ _
        · exact .refl _
      · split
        · next y hy =>
          split
          · simp [StepCtx.unfired, hy]
          · rfl
        · rfl

theorem State.eventDcc_memOnly (s : State) (d b : Nat) : MemOnly s (s.eventDcc d b) :=
  State.putCore_memOnly (coreMemOnly_event _ b)

theorem State.eventAll_memOnly (s : State) (b : Nat) : MemOnly s (s.eventAll b) :=
  MemOnly.of_foldl _ (fun t d => t.eventDcc_memOnly d b) _ _

theorem State.ashWrite_memOnly (s : State) (r : Nat) (bs : List Byte) : MemOnly s (s.ashWrite r bs) := by
  unfold State.ashWrite
  dsimp only
  refine MemOnly.trans (t := { s with ash := insertAt s.ash r ((lookupD s.ash r AshRing.reset).write bs) })
    (memOnly_fields ..) ?_
  split
  · exact .refl _
  · split
    · exact State.eventDcc_memOnly _ r 5
    · exact State.eventAll_memOnly _ 5

theorem State.ashNote_memOnly (s : State) (ring src code unit ten reg addr : Nat) (detail : List Byte) :
    MemOnly s (s.ashNote ring src code unit ten reg addr detail) := s.ashWrite_memOnly ring _

theorem State.poisonLine_memOnly (s : State) (l : Nat) : MemOnly s (s.poisonLine l) := by
  unfold State.poisonLine
  split
  · exact .refl s
  · exact memOnly_fields ..

theorem State.beginSparing_memOnly (s : State) (k b r : Nat) : MemOnly s (s.beginSparing k b r) := by
  unfold State.beginSparing
  split
  · exact State.setRemap_memOnly ..
  · exact .refl s

theorem State.foundBad_memOnly (s : State) (l : Nat) : MemOnly s (s.foundBad l) :=
  MemOnly.trans (t := State.poisonLine { s with faulty := s.faulty.filter (· != l) } l)
    (MemOnly.trans (t := { s with faulty := s.faulty.filter (· != l) }) (memOnly_fields ..) (State.poisonLine_memOnly _ l))
    ((State.ashNote_memOnly ..).trans (State.beginSparing_memOnly ..))

theorem State.detect_memOnly (s : State) (a n : Nat) : MemOnly s (s.detect a n) := by
  unfold State.detect
  split
  · exact .refl s
  · refine MemOnly.of_foldl _ (fun t l => ?_) _ _
    split
    · exact t.foundBad_memOnly l
    · exact .refl t

theorem State.coverPoison_memOnly (s : State) (a n : Nat) : MemOnly s (s.coverPoison a n) :=
  MemOnly.trans (memOnly_fields ..) (State.detect_memOnly _ a n)

/-! ### Host copies and the device's own records -/

theorem State.snoopLine_memOnly (s : State) (l : Nat) : MemOnly s (s.snoopLine l) := by
  unfold State.snoopLine
  split
  · exact .refl s
  · refine MemOnly.trans ?_ (memOnly_dirs _ _ _)
    split
    · exact (MemOnly.trans (memOnly_fields ..) (State.coverPoison_memOnly ..)).trans (State.fireWatches_memOnly _)
    · exact .refl s

theorem State.snoopWrite_memOnly (s : State) (a n : Nat) : MemOnly s (s.snoopWrite a n) := by
  unfold State.snoopWrite
  split
  · exact .refl s
  · exact MemOnly.of_foldl _ State.snoopLine_memOnly _ _

theorem State.snoopRead_memOnly (s : State) (a n : Nat) : MemOnly s (s.snoopRead a n) := by
  unfold State.snoopRead
  split
  · exact .refl s
  · refine MemOnly.of_foldl _ (fun t l => ?_) _ _
    split
    · exact t.snoopLine_memOnly l
    · exact .refl t

theorem State.touch_memOnly (s : State) (a n : Nat) : MemOnly s (s.touch a n) :=
  (s.snoopRead_memOnly a n).trans (State.detect_memOnly _ a n)

theorem State.devStore_memOnly (s : State) (a : Nat) (bs : List Byte) : MemOnly s (s.devStore a bs) :=
  ((s.snoopWrite_memOnly a bs.length).trans (State.coverPoison_memOnly _ a bs.length)).trans
    (MemOnly.trans (memOnly_fields ..) (State.fireWatches_memOnly _))

theorem State.setRcb_memOnly (s : State) (r off n v : Nat) : MemOnly s (s.setRcb r off n v) := s.devStore_memOnly _ _

theorem State.setUsage_memOnly (s : State) (r : Nat) (b : Budget) (v : Nat) : MemOnly s (s.setUsage r b v) := by
  cases b <;> exact s.setRcb_memOnly _ _ _ _

theorem State.uncharge_memOnly (s : State) (r : Nat) (b : Budget) (n : Nat) : MemOnly s (s.uncharge r b n) :=
  MemOnly.of_foldl _ (fun t x => t.setUsage_memOnly x b _) _ _

/-! ### Leases and homes -/

theorem State.loseLease_memOnly (s : State) (p : Nat) : MemOnly s (s.loseLease p) :=
  ⟨rfl, fun e => by simp [State.loseLease, State.mapCores, e]⟩

theorem State.yieldLease_memOnly (s : State) (p : Nat) : MemOnly s (s.yieldLease p) :=
  (s.loseLease_memOnly p).trans (memOnly_fields ..)

theorem State.recallPage_memOnly (s : State) (p : Nat) (own : Bool) : MemOnly s (s.recallPage p own).1 := by
  have h : MemOnly s (if own then s.yieldLease p else s) := by
    split
    · exact s.yieldLease_memOnly p
    · exact .refl s
  unfold State.recallPage
  dsimp only
  generalize (if own then s.yieldLease p else s) = u at h ⊢
  split
  · exact h.trans (memOnly_fields ..)
  · exact h.trans (memOnly_fields ..)

theorem State.recallPages_memOnly (s : State) (ps : List Nat) (own : Bool) : MemOnly s (s.recallPages ps own).1 := by
  unfold State.recallPages
  refine MemOnly.of_foldl_fst _ (fun q p => ?_) ps (s, true)
  exact q.1.recallPage_memOnly p own

theorem State.recallFor_memOnly (s : State) (a n : Nat) : MemOnly s (s.recallFor a n) := s.recallPages_memOnly _ true

theorem State.homeMerge_memOnly (s : State) (a : Nat) (bs : List Byte) (k : Key) (r : Bool) : MemOnly s (s.homeMerge a bs k r) := by
  unfold State.homeMerge
  dsimp only
  refine MemOnly.trans (t := State.coverPoison (if spaceOf a = 0 then s.snoopWrite a bs.length
      else if r = true then s.recallFor a bs.length else s) a bs.length) ?_
    (MemOnly.trans (memOnly_fields ..) (State.fireWatches_memOnly _))
  refine MemOnly.trans ?_ (State.coverPoison_memOnly _ _ _)
  split
  · exact s.snoopWrite_memOnly a _
  · split
    · exact s.recallFor_memOnly a _
    · exact .refl s

theorem State.devAtomic_memOnly (s : State) (a : Nat) (bs : List Byte) : MemOnly s (s.devAtomic a bs) := s.homeMerge_memOnly _ _ _ _

/-! ### Transactions sent -/

theorem State.toPort_memOnly (s : State) (n : Nat) (bs : List Byte) : MemOnly s (s.toPort n bs) := by
  unfold State.toPort
  dsimp only
  split
  · exact memOnly_fields ..
  · exact .refl s

theorem State.send_memOnly (s : State) (op n a : Nat) (bs : List Byte) : MemOnly s (s.send op n a bs) := by
  unfold State.send
  dsimp only
  split
  · exact MemOnly.trans (memOnly_fields ..) (State.toPort_memOnly ..)
  · exact s.toPort_memOnly n _

theorem State.sendAt_memOnly (s : State) (op a : Nat) (bs : List Byte) : MemOnly s (s.sendAt op a bs) := by
  unfold State.sendAt
  split
  · exact s.send_memOnly ..
  · exact .refl s

theorem State.sendReads_memOnly (s : State) (a n : Nat) : MemOnly s (s.sendReads a n) :=
  MemOnly.of_foldl _ (fun t _ => t.sendAt_memOnly ..) _ _

/-! ### Reads of the package view and of homes -/

theorem State.ownGrant_memOnly (s : State) (p : Nat) : MemOnly s (s.ownGrant p) :=
  (s.send_memOnly ..).trans (memOnly_fields ..)

theorem State.takeLease_memOnly (s : State) (p : Nat) : MemOnly s (s.takeLease p).1 := by
  unfold State.takeLease
  split
  · exact memOnly_fields ..
  · split
    · exact (s.loseLease_memOnly p).trans (State.ownGrant_memOnly _ p)
    · exact s.loseLease_memOnly p

theorem State.fetchLine_memOnly (s : State) (l : Nat) : MemOnly s (s.fetchLine l).1 := by
  have h := s.takeLease_memOnly (leasePage (l * 64))
  unfold State.fetchLine
  split
  · next e => rw [e] at h; exact h
  · next e =>
    rw [e] at h
    split
    · exact h
    · exact h.trans (memOnly_fields ..)

theorem State.viewLine_memOnly (s : State) (l : Nat) : MemOnly s (s.viewLine l).1 := by
  have h := s.fetchLine_memOnly l
  unfold State.viewLine
  split
  · split
    · exact .refl s
    · split
      · next e => rw [e] at h; exact h
      · next e => rw [e] at h; exact h
  · exact s.detect_memOnly _ _

theorem readLines_memOnly {rd : State → Nat → State × List PByte} (hr : ∀ s l, MemOnly s (rd s l).1) (size : Nat) (s : State)
    (a n : Nat) : MemOnly s (readLines rd size s a n).1 := by
  unfold readLines
  refine MemOnly.of_foldl_fst _ (fun q l => ?_) (linesOf size a n) (s, [])
  exact hr q.1 l

theorem State.freeBytes_memOnly (s : State) (n : Nat) : MemOnly s (s.freeBytes n).1 := by
  induction n generalizing s with
  | zero => exact .refl s
  | succ n ih => exact MemOnly.trans (memOnly_fields ..) (ih { s with free := s.free + 1 })

theorem State.homeRead_memOnly (s : State) (a n : Nat) : MemOnly s (s.homeRead a n).1 := by
  unfold State.homeRead
  split
  · exact s.touch_memOnly a n
  · split
    · exact .refl s
    · exact .refl s
  · exact .refl s
  · exact s.freeBytes_memOnly n
  · exact .refl s

theorem State.soRead_memOnly (s : State) (a n : Nat) : MemOnly s (s.soRead a n).1 := by
  refine MemOnly.trans ?_ (State.homeRead_memOnly _ a n)
  split
  · exact s.sendReads_memOnly a n
  · exact .refl s

theorem State.viewPart_memOnly (s : State) (p : Part) : MemOnly s (s.viewPart p).1 := by
  unfold State.viewPart
  split
  · exact .refl s
  · split
    · exact s.soRead_memOnly ..
    · exact readLines_memOnly State.viewLine_memOnly ..

theorem State.readWith_memOnly {rd : State → Part → State × List PByte} (hr : ∀ s p, MemOnly s (rd s p).1) (s : State)
    (ps : List Part) : MemOnly s (s.readWith rd ps).1 := by
  unfold State.readWith
  refine MemOnly.of_foldl_fst _ (fun q p => ?_) ps (s, [])
  exact hr q.1 p

/-! ### The device's own walks and reads -/

theorem State.walkFrom_memOnly (s : State) (va table : Nat) (lvls : List Nat) : MemOnly s (s.walkFrom va table lvls).1 := by
  induction lvls generalizing s table with
  | nil => exact .refl s
  | cons lvl rest ih =>
    have h := s.touch_memOnly (table + 16 * bitsOf va (levelShift lvl) (levelBits lvl)) 16
    unfold State.walkFrom
    dsimp only
    split
    · exact h
    · split
      · exact h.trans (State.ashNote_memOnly ..)
      · split
        · exact h
        · split
          · exact h
          · exact h.trans (ih ..)

theorem State.walk_memOnly (s : State) (ten va : Nat) : MemOnly s (s.walk ten va).1 := by
  have h := s.touch_memOnly (s.tdir.toNat + 32 * ten) 32
  unfold State.walk
  dsimp only
  split
  · exact h
  · split
    · exact h
    · exact h.trans (State.walkFrom_memOnly ..)

theorem State.devParts_memOnly (s : State) (ten va f n : Nat) : MemOnly s (s.devParts ten va f n).1 := by
  induction f generalizing s va n with
  | zero => cases n <;> exact .refl s
  | succ f ih =>
    cases n with
    | zero => exact .refl s
    | succ n =>
      have h := s.walk_memOnly ten va
      simp only [State.devParts]
      split
      · next e => rw [e] at h; exact h
      · next u lvl w e =>
        rw [e] at h
        have k := ih u (va + min (n + 1) ((pageOf w lvl).size - va % (pageOf w lvl).size))
          (n + 1 - min (n + 1) ((pageOf w lvl).size - va % (pageOf w lvl).size))
        split
        · next e => rw [e] at k; exact h.trans k
        · next e => rw [e] at k; exact h.trans k

theorem State.devRange_memOnly (s : State) (ten va n : Nat) (need : Need) : MemOnly s (s.devRange ten va n need).1 := by
  have h := s.devParts_memOnly ten va (n / 4096 + 2) n
  unfold State.devRange
  split
  · next e => rw [e] at h; exact h
  · next e =>
    rw [e] at h
    split
    · exact h
    · exact h

theorem State.readRc_memOnly (s : State) (ten va n : Nat) : MemOnly s (s.readRc ten va n).1 := by
  have h := s.devRange_memOnly ten va n .read
  unfold State.readRc
  split
  · next e => rw [e] at h; exact h
  · next e =>
    rw [e] at h
    split
    · exact h
    · exact h.trans (State.readWith_memOnly State.viewPart_memOnly ..)

theorem State.onRc_memOnly (s : State) (ten va n : Nat) : MemOnly s (s.onRc ten va n).1 := by
  have h := s.devRange_memOnly ten va n .read
  unfold State.onRc
  split
  · next e => rw [e] at h; exact h
  · next e => rw [e] at h; exact h

theorem State.recordOk_memOnly (s : State) (ten : Nat) (k : Cont) : MemOnly s (s.recordOk ten k).1 := by
  unfold State.recordOk
  split
  · exact s.homeRead_memOnly ..
  · exact s.readRc_memOnly ..

/-! ### Continuations entered in the scheduling state -/

theorem MemOnly.with_conts {s t : State} (h : MemOnly s t) (l : List Cont) : MemOnly { s with conts := l } { t with conts := l } :=
  ⟨congrArg (fun u : State => ({ u with conts := l } : State)) h.1, h.2⟩

/-- The continuations with one of them entered anew. -/
def enterCont (l : List Cont) (c : Cont) : List Cont := c :: l.filter fun x => x.pa != c.pa

theorem State.setCont_memOnly (s : State) (c : Cont) : MemOnly { s with conts := enterCont s.conts c } (s.setCont c) := by
  unfold State.setCont
  dsimp only
  split
  · exact (State.devAtomic_memOnly ..).trans (State.devAtomic_memOnly ..)
  · exact .refl _

/-- A continuation as it becomes ready. -/
def State.readied (s : State) (c : Cont) : Cont := { c with state := .ready, readyAt := s.ftime, readyCk := s.cyc }

theorem State.makeReady_memOnly (s : State) (c : Cont) :
    MemOnly { s with conts := enterCont s.conts (s.readied c) } (s.makeReady c) := by
  have h : MemOnly s (if (s.readyOf c.region.toNat).isEmpty then s.setRcb c.region.toNat 216 8 s.ftime.toNat else s) := by
    split
    · exact s.setRcb_memOnly ..
    · exact .refl s
  unfold State.makeReady
  dsimp only
  generalize (if (s.readyOf c.region.toNat).isEmpty then s.setRcb c.region.toNat 216 8 s.ftime.toNat else s) = u at h ⊢
  have e : s.readied c = u.readied c := by simp [State.readied, h.ftime, h.cyc]
  rw [← h.conts, e]
  exact (h.with_conts _).trans (u.setCont_memOnly _)

theorem State.setCont_conts (s : State) (c : Cont) : (s.setCont c).conts = enterCont s.conts c := (s.setCont_memOnly c).conts

theorem State.makeReady_conts (s : State) (c : Cont) : (s.makeReady c).conts = enterCont s.conts (s.readied c) :=
  (s.makeReady_memOnly c).conts

theorem State.cont?_of_enter {s t : State} {c : Cont} {pa : Nat} (h : t.conts = enterCont s.conts c) (e : c.pa = pa) :
    t.cont? pa = some c := by
  simp [State.cont?, h, enterCont, e]

theorem State.setCont_cont? (s : State) (c : Cont) : (s.setCont c).cont? c.pa = some c :=
  State.cont?_of_enter (s.setCont_conts c) rfl

/-! ### Logs -/

/-- A write of the logs alone. -/
theorem memLogs_fields (s : State) (l r : List LogSt) : MemLogs s { s with logs := l, rlogs := r } := ⟨rfl, id⟩

theorem State.setLog_memLogs (s : State) (g : LogSt) : MemLogs s (s.setLog g) := memLogs_fields s _ _

theorem State.mapBillet_memLogs (s : State) (log : BitVec 32) (seg : Nat) (f : Billet → Billet) : MemLogs s (s.mapBillet log seg f) :=
  memLogs_fields s _ _

theorem State.reapLogs_memLogs (s : State) : MemLogs s s.reapLogs := by
  unfold State.reapLogs
  refine MemLogs.of_foldl _ (fun t g => ?_) _ _
  dsimp only
  split
  · refine MemLogs.trans ?_ (State.setLog_memLogs _ _)
    split
    · exact (t.uncharge_memOnly ..).logs_too
    · exact .refl t
  · exact .refl t

theorem State.closeLog_memLogs (s : State) (num : BitVec 32) : MemLogs s (s.closeLog num) :=
  MemLogs.trans (memLogs_fields s _ _) (State.reapLogs_memLogs _)

theorem State.refetch_memLogs (s : State) (log : BitVec 32) (b : Billet) : MemLogs s (s.refetch log b).1 := by
  have h : MemOnly s (match b.area with
      | some a => if b.spilled then s.touch a (64 + b.used) else s
      | none => s) := by
    split
    · split
      · exact s.touch_memOnly _ _
      · exact .refl s
    · exact .refl s
  unfold State.refetch
  dsimp only
  split
  · exact h.logs_too
  · exact h.logs_too.trans (State.mapBillet_memLogs ..)

theorem State.applyHome_memOnly (s : State) (log : BitVec 32) (b : Billet) (space : Nat) : MemOnly s (s.applyHome log b space) :=
  MemOnly.of_foldl _ (fun t _ => t.homeMerge_memOnly ..) _ _

theorem State.compact_memLogs (s : State) (log : BitVec 32) (seg : Nat) : MemLogs s (s.compact log seg) := by
  unfold State.compact
  split
  · exact .refl s
  · next b _ =>
    have h := s.refetch_memLogs log b
    split
    · split
      · next e =>
        rw [e] at h
        exact (h.trans (State.applyHome_memOnly ..).logs_too).trans (State.mapBillet_memLogs ..)
      · next e => rw [e] at h; exact h
    · exact .refl s

theorem State.replayRec_memOnly (s : State) (k : Key) (r : Rec) : MemOnly s (s.replayRec k r) := by
  unfold State.replayRec
  split
  · exact s.homeMerge_memOnly ..
  · exact memOnly_fields ..

theorem State.markReplayed_memLogs (s : State) (log : BitVec 32) (segs : List Nat) : MemLogs s (s.markReplayed log segs) :=
  memLogs_fields s _ _

theorem State.replayLog_memLogs (s : State) (g : LogSt) (tail : Nat) : MemLogs s (s.replayLog g tail).1 := by
  unfold State.replayLog
  dsimp only
  refine MemLogs.trans ?_ (State.markReplayed_memLogs ..)
  refine MemLogs.of_foldl_fst _ (fun q b => ?_) _ (s, [])
  have h := q.1.refetch_memLogs g.num b
  split
  · next e =>
    rw [e] at h
    exact h.trans (MemOnly.of_foldl _ (fun t _ => t.replayRec_memOnly ..) _ _).logs_too
  · next e => rw [e] at h; exact h

theorem State.settle_memLogs (s : State) (hzn : List (BitVec 32 × BitVec 16)) : MemLogs s (s.settle hzn) := by
  unfold State.settle
  refine MemLogs.of_foldl _ (fun t e => ?_) _ _
  split
  · exact .refl t
  · exact (t.replayLog_memLogs ..).trans (MemLogs.of_foldl _ (fun u _ => u.compact_memLogs ..) _ _)

theorem State.replay_memLogs (s : State) (w : RelWord) (ten : Nat) : MemLogs s (s.replay w ten).1 := by
  unfold State.replay
  dsimp only
  refine MemLogs.of_foldl_fst _ (fun q e => ?_) _ (s, false)
  split
  · exact .refl _
  · exact q.1.replayLog_memLogs ..

end Sys2Proof.Machine
end

section
/-!
SUPPORT. The end of a step (R28 to R32, R308 to R312): how its streams stand behind their end instructions, what leaving the core
keeps, how the continuation enters the scheduling state.
-/

namespace Sys2Proof.Machine

/-! ### A stream that goes on -/

theorem Core.retire_eq (c : Core) (k : Strm) :
    ∃ secs r, c.retire k = c.setStrm k { c.strm k with secs := secs, retired := r } := by
  unfold Core.retire
  dsimp only
  split
  · exact ⟨(c.strm k).secs, (c.strm k).retired, (c.setStrm_self k).symm⟩
  · exact ⟨_, _, rfl⟩

theorem Stream.leave_eq (x : Stream) : ∃ secs, x.leave = { x with secs := secs } := by
  unfold Stream.leave
  split
  · exact ⟨x.secs, rfl⟩
  · exact ⟨_, rfl⟩

/-- A stream that reaches a header stands at it, outside a section; only what it keeps of its sections changes beside. -/
theorem Core.goHeader_eq (c : Core) (k : Strm) (a : BitVec 32) : ∃ secs r, c.goHeader k a = c.setStrm k
    { c.strm k with pc := a, shdr := a, insec := false, slen := 0, secs := secs, retired := r } := by
  obtain ⟨l, hl⟩ := (c.strm k).leave_eq
  obtain ⟨secs, r, hr⟩ := (c.setStrm k ((c.strm k).leave.atHeader a)).retire_eq k
  refine ⟨secs, r, ?_⟩
  unfold Core.goHeader
  rw [hr, hl, Core.strm_setStrm, Core.setStrm_setStrm]
  rfl

theorem loopNext_n (x : Stream) (next : BitVec 32) (l : List LoopLvl) : (loopNext x next l).n = x.n := by
  induction l generalizing x with
  | nil => rfl
  | cons v rest ih =>
    unfold loopNext
    split
    · dsimp only
      split
      · rfl
      · exact ih _
    · rfl

/-- A stream that falls to its next word keeps its scalars. -/
theorem Core.fallTo_eq (c : Core) (k : Strm) (next : BitVec 32) : ∃ y, c.fallTo k next = c.setStrm k y ∧ y.n = (c.strm k).n := by
  have hn := loopNext_n (c.strm k) next (c.strm k).loops
  unfold Core.fallTo
  dsimp only
  split
  · obtain ⟨secs, r, h⟩ := (c.setStrm k (loopNext (c.strm k) next (c.strm k).loops).noPfx).goHeader_eq k
      (loopNext (c.strm k) next (c.strm k).loops).pc
    rw [h, Core.setStrm_setStrm]
    exact ⟨_, rfl, by rw [Core.strm_setStrm]; exact hn⟩
  · exact ⟨_, rfl, hn⟩

/-- One stream goes on at the word after its end instruction. -/
def Core.goOnStrm (c : Core) (k : Strm) : Core :=
  (c.fallTo k (c.strm k).next).setStrm k { (c.fallTo k (c.strm k).next).strm k with ended := none }

theorem State.goOn_eq (s : State) : s.goOn = { s with core := ((s.core.goOnStrm .l).goOnStrm .c).goOnStrm .s } := rfl

theorem Core.goOnStrm_eq (c : Core) (k : Strm) : ∃ y, c.goOnStrm k = c.setStrm k y ∧ y.n = (c.strm k).n ∧ y.ended = none := by
  obtain ⟨y, h, hn⟩ := c.fallTo_eq k (c.strm k).next
  refine ⟨{ y with ended := none }, ?_, hn, rfl⟩
  rw [Core.goOnStrm, h, Core.setStrm_setStrm, Core.strm_setStrm]

/-- The streams of a core after a meeting that ends no step: each behind its end instruction, waiting no more (R311). -/
theorem State.goOn_streams (s : State) : ∃ x y z : Stream, s.goOn = { s with core := { s.core with l := x, c := y, s := z } } ∧
    x.n = s.core.l.n ∧ x.ended = none ∧ y.ended = none ∧ z.ended = none := by
  obtain ⟨x, hx, hn, ex⟩ := s.core.goOnStrm_eq .l
  obtain ⟨y, hy, -, ey⟩ := (s.core.goOnStrm .l).goOnStrm_eq .c
  obtain ⟨z, hz, -, ez⟩ := ((s.core.goOnStrm .l).goOnStrm .c).goOnStrm_eq .s
  refine ⟨x, y, z, ?_, hn, ex, ey, ez⟩
  rw [State.goOn_eq, hz, hy, hx]
  rfl

/-- One stream stands at the header behind its end instruction. -/
def Core.endStrm (c : Core) (k : Strm) : Core := c.goHeader k (c.strm k).secEnd

theorem Core.endStrm_eq (c : Core) (k : Strm) : ∃ y, c.endStrm k = c.setStrm k y ∧ y.shdr = (c.strm k).secEnd := by
  obtain ⟨secs, r, h⟩ := c.goHeader_eq k (c.strm k).secEnd
  exact ⟨_, h, rfl⟩

theorem Core.afterEnds_def (c : Core) : c.afterEnds =
    { (((c.endStrm .l).endStrm .c).endStrm .s).mapStrms fun x => { x.noPfx with loops := [], lbv := false, ended := none } with
      ldq := ⟨[], 0⟩, sdq := ⟨[], 0⟩, bq := Vector.replicate 6 ⟨[], 0⟩ } := rfl

/-- What the end instructions leave of the core: each stream at the header behind its end instruction, the stores as they were
(R32). -/
theorem Core.afterEnds_eq (c : Core) : c.afterEnds.ctx = c.ctx ∧ c.afterEnds.tile = c.tile ∧ c.afterEnds.accs32 = c.accs32 ∧
    c.afterEnds.l.shdr = c.l.secEnd ∧ c.afterEnds.c.shdr = c.c.secEnd ∧ c.afterEnds.s.shdr = c.s.secEnd := by
  obtain ⟨x, hx, ex⟩ := c.endStrm_eq .l
  obtain ⟨y, hy, ey⟩ := (c.endStrm .l).endStrm_eq .c
  obtain ⟨z, hz, ez⟩ := ((c.endStrm .l).endStrm .c).endStrm_eq .s
  rw [hy, hx] at ez
  rw [hx] at ey
  rw [Core.afterEnds_def, hz, hy, hx]
  exact ⟨rfl, rfl, rfl, ex, ey, ez⟩

/-! ### Leaving the core -/

/-- The step leaves its core: what its charges and its log leave of the machine, the core then vacated (R31, R387). -/
theorem State.leaveCore_core {s : State} {x : StepCtx} (h : s.core.ctx = some x) :
    ∃ v, MemLogs s v ∧ s.leaveCore.core = v.core.vacate v.ftime := by
  refine ⟨((s.dropWatches.uncharge x.region.toNat .cores 1).uncharge x.region.toNat .acc x.accKib).closeLog x.log, ?_, ?_⟩
  · have h1 : MemOnly s s.dropWatches := memOnly_fields ..
    exact ((h1.trans (State.uncharge_memOnly ..)).trans (State.uncharge_memOnly ..)).logs_too.trans (State.closeLog_memLogs ..)
  · unfold State.leaveCore
    rw [h]

theorem State.dropHeld_nil {s : State} {x : StepCtx} (h : x.heldTr = []) : s.dropHeld x = s := by
  simp [State.dropHeld, h]

/-- A step that closes: its record and release made, its core left, its continuation as the end instructions leave it (R32). -/
theorem State.closeStep_ok {s t : State} {x : StepCtx} {p : EndPlan} {c : Cont} (h : s.closeStep x p = .ok (t, c)) :
    ∃ (u : State) (w : RelWord), t = State.dropHeld (State.leaveCore { u with core := s.core.afterEnds }) x ∧
      c = { x.endCont s.core.afterEnds p with relw := some w } := by
  unfold State.closeStep at h
  dsimp only at h
  split at h
  · simp at h
  · split at h
    · simp at h
    · split at h
      · simp at h
      · simp only [Except.ok.injEq, Prod.mk.injEq] at h
        exact ⟨_, _, h.1.symm, h.2.symm⟩

/-! ### Entering the scheduling state -/

theorem State.mem_makeReady (s : State) (c : Cont) : s.readied c ∈ (s.makeReady c).conts := by
  simp [State.makeReady_conts, enterCont]

theorem State.mem_setCont (s : State) (c : Cont) : c ∈ (s.setCont c).conts := by
  simp [State.setCont_conts, enterCont]

theorem State.suspend_ready {s : State} {c : Cont} (h : s.wakeHolds c = true) : s.suspend c = s.makeReady c := if_pos h

theorem State.suspend_waits {s : State} {c : Cont} (h : s.wakeHolds c = false) : s.suspend c = s.setCont { c with state := .suspended } :=
  if_neg (by simp [h])

theorem State.park_conts (s : State) (c : Cont) (due : BitVec 64) (i : Nat) :
    (s.park c due i).conts = (s.setCont { c with state := .parked }).conts := (State.devStore_memOnly _ _ _).conts

theorem State.park_wheel (s : State) (c : Cont) (due : BitVec 64) (i : Nat) :
    ∃ slot, (⟨i, c.pa, due, slot⟩ : WheelEnt) ∈ (s.park c due i).wheel :=
  ⟨_, List.mem_append_right _ (List.mem_singleton_self _)⟩

/-- A JOIN that finds its word done acquires the release word, and its streams go on (R311). -/
theorem State.joinDone_clean {s u : State} {w : RelWord} {st : Word} (h : s.acquire w = (u, st)) (hp : st.getLsbD 1 = false) :
    s.joinDone w = (u.mapCur fun x => { x with astat := st }).goOn := by
  simp only [State.joinDone, h, hp, Bool.false_eq_true, if_false]

/-- Settles O49: the lemmas above, clause by clause. -/
theorem stepEnds : Obligations.StepEnds := by
  unfold Obligations.StepEnds
  refine ⟨?_, ?_, fun s c => ⟨_, s.mem_makeReady c, rfl⟩, fun s c => State.suspend_ready, ?_, ?_, ?_⟩
  · intro s t x p c hx hh hc
    obtain ⟨u, w, rfl, rfl⟩ := State.closeStep_ok hc
    obtain ⟨ectx, etile, eaccs, el, ec, es⟩ := s.core.afterEnds_eq
    obtain ⟨v, hv, e⟩ := State.leaveCore_core (s := { u with core := s.core.afterEnds }) (ectx.trans hx)
    rw [State.dropHeld_nil hh, e]
    refine ⟨rfl, rfl, rfl, rfl, rfl, rfl, fun k => ?_, hv.tile.trans etile, hv.accs32.trans eaccs, rfl, rfl, rfl, rfl, rfl, rfl, el,
      ec, es, w, rfl⟩
    simp [Core.vacate]
  · intro s
    refine ⟨rfl, rfl, fun a => rfl, fun va ten dev => rfl, fun w hw => ?_, fun a ha => ?_⟩
    · simp [State.planOf, hw]
    · exact if_neg (not_le.2 ha)
  · intro s c h
    rw [State.suspend_waits h]
    exact ⟨_, s.mem_setCont _, rfl⟩
  · intro s c due i
    refine ⟨⟨{ c with state := .parked }, ?_, rfl⟩, ?_⟩
    · rw [State.park_conts]
      exact s.mem_setCont _
    · obtain ⟨slot, h⟩ := s.park_wheel c due i
      exact ⟨_, h, rfl, rfl, rfl⟩
  · intro s w
    obtain ⟨x, y, z, e, hn, hx, hy, hz⟩ := s.goOn_streams
    dsimp only
    rw [e]
    exact ⟨rfl, hx, hy, hz, hn, fun u st => State.joinDone_clean⟩

end Sys2Proof.Machine
end

section
/-!
SUPPORT. The first dispatch of a step (R24, R28, R60, R62, R363): what its acquires keep of the core that dispatch has set up, the
number of its log, and the fields of that core.
-/

namespace Sys2Proof.Machine

/-! ### What acquires keep of a core (R120) -/

/-- A core without what acquires change of it: the horizon of its step, and what the memory system changes. -/
def Core.unacquired (c : Core) : Core :=
  { c.unmem with ctx := c.unmem.ctx.map fun x => { x with hzn := [], hcst := none } }

/-- The core of t comes from that of s by acquires. -/
def Acquired (s t : State) : Prop := t.core.unacquired = s.core.unacquired ∧ (s.core.l1 = [] → t.core.l1 = [])

theorem Acquired.refl (s : State) : Acquired s s := ⟨rfl, id⟩

theorem Acquired.trans {s t u : State} (h : Acquired s t) (k : Acquired t u) : Acquired s u :=
  ⟨k.1.trans h.1, fun e => k.2 (h.2 e)⟩

theorem MemLogs.acquired {s t : State} (h : MemLogs s t) : Acquired s t :=
  ⟨congrArg (fun c : Core => ({ c with ctx := c.ctx.map fun x => { x with hzn := [], hcst := none } } : Core)) h.core_unmem, h.2⟩

/-- A change of the horizon alone. -/
theorem mapCtx_acquired (s : State) (f : StepCtx → StepCtx)
    (h : ∀ x, ({ (f x).unfired with hzn := [], hcst := none } : StepCtx) = { x.unfired with hzn := [], hcst := none }) :
    Acquired s (s.mapCtx f) := by
  refine ⟨?_, id⟩
  have e : (((s.core.ctx.map f).map StepCtx.unfired).map fun x => ({ x with hzn := [], hcst := none } : StepCtx)) =
      (s.core.ctx.map StepCtx.unfired).map fun x => { x with hzn := [], hcst := none } := by
    simp only [Option.map_map]
    exact congrArg (Option.map · s.core.ctx) (funext h)
  exact congrArg (fun x => ({ s.core.unmem with ctx := x } : Core)) e

theorem State.dropL1_acquired (s : State) : Acquired s s.dropL1 := ⟨rfl, fun _ => rfl⟩

theorem State.extendHorizon_acquired (s : State) (e : BitVec 32 × BitVec 16) : Acquired s (s.extendHorizon e) := by
  unfold State.extendHorizon
  split
  · exact .refl s
  · split
    · exact (s.settle_memLogs _).acquired.trans (mapCtx_acquired _ _ fun _ => rfl)
    · exact mapCtx_acquired _ _ fun _ => rfl

theorem State.acquire_zero (s : State) {w : RelWord} (h : w.stamp = 0) : s.acquire w = (s, 0) := if_pos h

theorem State.acquire_fst (s : State) {w : RelWord} (h : w.stamp ≠ 0) :
    (s.acquire w).1 = (s.replay w s.tenant).1.dropL1.extendHorizon (w.log, w.tail) := by
  rw [State.acquire, if_neg h]

theorem State.acquire_acquired (s : State) (w : RelWord) : Acquired s (s.acquire w).1 := by
  by_cases h : w.stamp = 0
  · rw [s.acquire_zero h]
    exact .refl s
  · rw [s.acquire_fst h]
    exact ((s.replay_memLogs _ _).acquired.trans (State.dropL1_acquired _)).trans (State.extendHorizon_acquired _ _)

/-- An acquire that is not of stamp 0 leaves no line in the L1 (R120). -/
theorem State.acquire_l1 (s : State) {w : RelWord} (h : w.stamp ≠ 0) : (s.acquire w).1.core.l1 = [] := by
  rw [s.acquire_fst h]
  exact (State.extendHorizon_acquired _ _).2 rfl

theorem State.extendHorizon_nil {s : State} {x : StepCtx} (hx : s.core.ctx = some x) (h : x.hzn = []) (e : BitVec 32 × BitVec 16) :
    ∃ y, (s.extendHorizon e).core.ctx = some y ∧ y.hzn = [e] := by
  refine ⟨{ x with hzn := [e] }, ?_, rfl⟩
  simp [State.extendHorizon, hx, h, State.mapCtx, addHorizon]

/-- The first acquire of a step whose horizon is empty holds its word's log (R118). -/
theorem State.acquire_hzn {s : State} {x : StepCtx} {w : RelWord} (hx : s.core.ctx = some x) (h : x.hzn = []) (hw : w.stamp ≠ 0) :
    ∃ y, (s.acquire w).1.core.ctx = some y ∧ y.hzn = [(w.log, w.tail)] := by
  have e : (s.replay w s.tenant).1.core.ctx.map StepCtx.unfired = some x.unfired := by
    rw [show (some x.unfired) = s.core.ctx.map StepCtx.unfired by rw [hx]; rfl]
    exact congrArg (·.ctx) (s.replay_memLogs w s.tenant).core_unmem
  obtain ⟨y, hy, ey⟩ := Option.map_eq_some_iff.1 e
  have hz : y.hzn = [] := (congrArg (·.hzn) ey).trans h
  rw [s.acquire_fst hw]
  exact State.extendHorizon_nil (s := (s.replay w s.tenant).1.dropL1) hy hz _

/-! ### The acquires at the start of a step -/

/-- Some words acquired in turn, and the statuses of the acquires as one. -/
def State.acquireAll (s : State) (ws : List RelWord) : State × Word :=
  ws.foldl (fun a w => ((a.1.acquire w).1, addStatus a.2 (a.1.acquire w).2)) (s, 0)

theorem acquireFold_acquired (ws : List RelWord) (a : State × Word) : Acquired a.1
    (ws.foldl (fun a w => ((a.1.acquire w).1, addStatus a.2 (a.1.acquire w).2)) a).1 :=
  foldl_keeps (fun b : State × Word => Acquired a.1 b.1) _ ws a (.refl a.1) fun b w h => h.trans (b.1.acquire_acquired w)

theorem State.acquireAll_acquired (s : State) (ws : List RelWord) : Acquired s (s.acquireAll ws).1 := acquireFold_acquired ws (s, 0)

theorem State.acquireAll_zero (s : State) {ws : List RelWord} (h : ∀ w ∈ ws, w.stamp = 0) : s.acquireAll ws = (s, 0) := by
  unfold State.acquireAll
  induction ws with
  | nil => rfl
  | cons w ws ih =>
    have h0 : addStatus 0 0 = 0 := by decide
    rw [List.foldl_cons, s.acquire_zero (h w (by simp)), h0]
    exact ih fun v hv => h v (by simp [hv])

theorem acquireFold_l1 (ws : List RelWord) (a : State × Word) (h : ∃ w ∈ ws, w.stamp ≠ 0) :
    (ws.foldl (fun a w => ((a.1.acquire w).1, addStatus a.2 (a.1.acquire w).2)) a).1.core.l1 = [] := by
  induction ws generalizing a with
  | nil => simp at h
  | cons w ws ih =>
    rw [List.foldl_cons]
    obtain ⟨v, hv, hs⟩ := h
    rcases List.mem_cons.1 hv with rfl | hv
    · exact (acquireFold_acquired ws _).2 (a.1.acquire_l1 hs)
    · exact ih _ ⟨v, hv, hs⟩

/-! ### The core that dispatch sets up -/

/-- The state in which a first step begins: its core as dispatch sets it up, its context begun. -/
def State.entered (u : State) (k : Cont) (ten : Nat) (log : BitVec 32) : State :=
  { u with core := u.newStep k (u.newCtx k ten log) }

/-- The core of a first step: as it is set up, its acquires made (R28, R120). -/
theorem State.beginStep_first {s t : State} {k : Cont} (h : s.beginStep k = .ok t) (hf : k.first = true) :
    let a := ((s.opening k).1.entered k (s.effTenant k.region.toNat) (s.opening k).2).acquireAll k.startWords
    t.core = { a.1.core with
      l := { a.1.core.l with astat := a.2 }, l1 := if k.wkind = 2 then [] else a.1.core.l1 } := by
  unfold State.beginStep at h
  dsimp only at h
  have e : (if (k.first && k.frame != 0) = true then s.onRc (s.effTenant k.region.toNat) k.frame.toNat 400 else (s, true)).1 =
      if (k.first && k.frame != 0) = true then (s.onRc (s.effTenant k.region.toNat) k.frame.toNat 400).1 else s := by
    split <;> rfl
  generalize (if (k.first && k.frame != 0) = true then s.onRc (s.effTenant k.region.toNat) k.frame.toNat 400 else (s, true)) = p
    at h e
  split at h
  · simp at h
  · next v hv =>
    have eo : s.opening k = ((v.openLog (s.effTenant k.region.toNat) k.region.toNat true).2.setCont { k with state := .running },
        (v.openLog (s.effTenant k.region.toNat) k.region.toNat true).1) := by
      unfold State.opening
      dsimp only
      rw [← e, hv]
    split at h
    · simp at h
    · rw [if_pos (show (k.first || decide (k.frame = 0)) = true by simp [hf])] at h
      simp only [Except.ok.injEq] at h
      rw [eo, ← h]
      dsimp only
      split <;> rfl

/-- A core without what the acquires of a first step change of it. -/
def Core.started (c : Core) : Core :=
  { c.unacquired with ctx := none, l := { c.unacquired.l with astat := 0 } }

/-- A stream without its acquire status and without a watch's mark. -/
def Stream.started (x : Stream) : Stream := { x with waitW := none, astat := 0 }

theorem Core.started_strm {c d : Core} (h : c.started = d.started) (j : Strm) : (c.strm j).started = (d.strm j).started := by
  cases j with
  | l => exact congrArg (·.l) h
  | c => exact congrArg (·.c.started) h
  | s => exact congrArg (·.s.started) h

variable {s t : State} {k : Cont}

/-- But for what its acquires change, a first step's core is the one that dispatch sets up. -/
theorem State.beginStep_started (h : s.beginStep k = .ok t) (hf : k.first = true) : t.core.started =
    ((s.opening k).1.newStep k ((s.opening k).1.newCtx k (s.effTenant k.region.toNat) (s.opening k).2)).started := by
  have ha := (State.acquireAll_acquired ((s.opening k).1.entered k (s.effTenant k.region.toNat) (s.opening k).2) k.startWords).1
  have e := congrArg (fun c : Core => ({ c with ctx := none, l := { c.l with astat := 0 } } : Core)) ha
  rw [State.beginStep_first h hf]
  exact e

/-- The step's context, but for its horizon, is the one that it begins with. -/
theorem State.beginStep_ctx (h : s.beginStep k = .ok t) (hf : k.first = true) : ∃ x, t.core.ctx = some x ∧
    ({ x.unfired with hzn := [], hcst := none } : StepCtx) =
      { ((s.opening k).1.newCtx k (s.effTenant k.region.toNat) (s.opening k).2).unfired with hzn := [], hcst := none } := by
  have ha := (State.acquireAll_acquired ((s.opening k).1.entered k (s.effTenant k.region.toNat) (s.opening k).2) k.startWords).1
  have e := congrArg (·.ctx) ha
  rw [State.beginStep_first h hf]
  exact Option.map_eq_some_iff.1 ((Option.map_map ..).symm.trans e)

/-- With nothing to acquire, the status is clear and the horizon empty. -/
theorem State.beginStep_none (h : s.beginStep k = .ok t) (hf : k.first = true) (hz : ∀ w ∈ k.startWords, w.stamp = 0) :
    t.core.l.astat = 0 ∧ t.core.ctx = some ((s.opening k).1.newCtx k (s.effTenant k.region.toNat) (s.opening k).2) := by
  rw [State.beginStep_first h hf, State.acquireAll_zero _ hz]
  exact ⟨rfl, rfl⟩

/-- With one word to acquire, its log is the horizon. -/
theorem State.beginStep_one (h : s.beginStep k = .ok t) (hf : k.first = true) {w : RelWord} (hw : k.startWords = [w])
    (hs : w.stamp ≠ 0) : ∃ x, t.core.ctx = some x ∧ x.hzn = [(w.log, w.tail)] := by
  rw [State.beginStep_first h hf, hw]
  exact State.acquire_hzn (s := (s.opening k).1.entered k (s.effTenant k.region.toNat) (s.opening k).2) rfl rfl hs

/-- After an acquire, or after a wake by a combine slot, the L1 is empty (R120, R122). -/
theorem State.beginStep_l1 (h : s.beginStep k = .ok t) (hf : k.first = true) (hw : k.wkind = 2 ∨ ∃ w ∈ k.startWords, w.stamp ≠ 0) :
    t.core.l1 = [] := by
  rw [State.beginStep_first h hf]
  dsimp only
  split
  · rfl
  · next hk =>
    rcases hw with hw | hw
    · exact absurd hw hk
    · exact acquireFold_l1 _ _ hw

/-! ### Its fields -/

theorem State.newStep_strm (u : State) (k : Cont) (x : StepCtx) (j : Strm) : ∃ y pc sec,
    (u.newStep k x).strm j = startStream y pc sec (firstRegs k.xyz) (Vector.replicate 8 false) := by
  cases j with
  | l => exact ⟨_, _, _, rfl⟩
  | c => exact ⟨_, _, _, rfl⟩
  | s => exact ⟨_, _, _, rfl⟩

theorem lookupD_of_above {α : Type} {l : List (Nat × α)} {k : Nat} (d : α) (h : ∀ e ∈ l, k < e.1) : lookupD l k d = d := by
  cases l with
  | nil => rfl
  | cons e l =>
    have := h e (by simp)
    rw [lookupD, if_neg (by omega), if_pos this]

theorem State.newStep_sem (u : State) (k : Cont) (x : StepCtx) (v : BitVec 8) : (u.newStep k x).sem v = 0 := by
  refine lookupD_of_above 0 fun e he => ?_
  have hv : (u.newStep k x).semPhys v = v.toNat := rfl
  have := of_decide_eq_true (List.mem_filter.1 he).2
  have := v.isLt
  omega

theorem State.vacate_forTenant (c : Core) (ft : BitVec 64) (ten : BitVec 16) :
    let last := (c.ctx.map fun x => x.tenant).or c.lastTen
    let d := (c.vacate ft).forTenant ten
    (last ≠ some ten → d.tile = [] ∧ d.accs32 = [] ∧ d.wb = []) ∧
    (last = some ten → d.tile = c.tile ∧ d.accs32 = c.accs32 ∧ d.wb = c.wb) := by
  have e : (c.vacate ft).lastTen = (c.ctx.map fun x => x.tenant).or c.lastTen := by
    cases h : c.ctx <;> simp [Core.vacate, h]
  dsimp only
  rw [← e]
  unfold Core.forTenant
  split
  · next h => exact ⟨fun n => absurd h n, fun _ => ⟨rfl, rfl, rfl⟩⟩
  · next h => exact ⟨fun _ => ⟨rfl, rfl, rfl⟩, fun n => absurd n h⟩

/-- The other fields of a new step's core that dispatch empties (R28, R44, R60). -/
theorem State.newStep_empty (u : State) (k : Cont) (x : StepCtx) : let c := u.newStep k x
    c.accs = [] ∧ c.mtx.q = [] ∧ c.copy = [] ∧ c.defq = [] ∧ c.ldq.ents = [] ∧ c.sdq.ents = [] ∧ ∀ j : Fin 6, c.bq[j].ents = [] := by
  have e : (u.newStep k x).accs = [] ∧ (u.newStep k x).mtx.q = [] ∧ (u.newStep k x).copy = [] ∧ (u.newStep k x).defq = [] ∧
      (u.newStep k x).ldq.ents = [] ∧ (u.newStep k x).sdq.ents = [] ∧ (u.newStep k x).bq = Vector.replicate 6 ⟨[], 0⟩ := by
    unfold State.newStep Core.forTenant
    dsimp only
    split <;> exact ⟨rfl, rfl, rfl, rfl, rfl, rfl, rfl⟩
  obtain ⟨h1, h2, h3, h4, h5, h6, h7⟩ := e
  refine ⟨h1, h2, h3, h4, h5, h6, fun j => ?_⟩
  rw [h7]
  simp

theorem State.dispatchCaps_get (u : State) (k : Cont) (ten : Nat) :
    let v := u.dispatchCaps k ten
    let ct := (k.capten.map (·.toNat)).getD ten
    v[0] = some (u.bindCap ct k.codecap.toNat 0b00101 0 none) ∧
    v[1] = (if k.card.isEmpty then none else some (u.bindCap ct (cardF k.card 24 0 16) 0b00001
      (cardF k.card 24 16 48 + k.argidx.toNat * cardArgSize k.card) (some (cardArgSize k.card)))) ∧
    v[2] = some (u.bindCap ten (u.rcb k.region.toNat 112 2) 0b11111 0 none) ∧
    v[3] = some (u.bindCap ten (u.rcb k.region.toNat 114 2) 0b11111 0 none) ∧
    (∀ i : Fin 16, 4 ≤ i.val → i.val < 15 → v[i] = none) ∧
    v[15] = some ⟨true, BitVec.ofNat 16 ten, 0, 0, 0, devInfoBytes, 0b00001⟩ := by
  unfold State.dispatchCaps
  dsimp only
  refine ⟨?_, ?_, ?_, ?_, fun i h1 h2 => ?_, ?_⟩
  · split <;> simp
  · split <;> simp
  · simp
  · simp
  · split <;> simp [show (0 : Nat) ≠ i.val by omega, show (1 : Nat) ≠ i.val by omega,
      show (2 : Nat) ≠ i.val by omega, show (3 : Nat) ≠ i.val by omega, show (15 : Nat) ≠ i.val by omega]
  · simp

/-! ### The number of its log (R107) -/

theorem leastFrom_none {p : Nat → Bool} : ∀ {f lo : Nat}, leastFrom p lo f = none → ∀ j, lo ≤ j → j < lo + f → p j = false
  | 0, lo, _, j, h1, h2 => by omega
  | f + 1, lo, h, j, h1, h2 => by
    unfold leastFrom at h
    split at h
    · simp at h
    · next hp =>
      by_cases e : j = lo
      · simpa [e] using hp
      · exact leastFrom_none h j (by omega) (by omega)

/-- The next log number is one that no log in use has, when there is one among as many as there are logs and one more. -/
theorem State.newLogNum_free (s : State)
    (h : ∃ q, q ≤ s.logs.length ∧ s.logBusy (BitVec.ofNat 32 (s.podpos.toNat * 2 ^ 22 + (s.logseq + q) % 2 ^ 22)) = false) :
    s.logBusy s.newLogNum.1 = false := by
  obtain ⟨q, hq, hb⟩ := h
  unfold State.newLogNum
  dsimp only
  cases e : leastFrom (fun q => !s.logBusy (BitVec.ofNat 32 (s.podpos.toNat * 2 ^ 22 + q % 2 ^ 22))) s.logseq (s.logs.length + 1) with
  | none =>
    have hp := leastFrom_none e (s.logseq + q) (by omega) (by omega)
    rw [hb] at hp
    cases hp
  | some n =>
    obtain ⟨-, -, hn, -⟩ := leastFrom_spec e
    simpa using hn

theorem MemOnly.logBusy (h : MemOnly s t) (n : BitVec 32) : t.logBusy n = s.logBusy n := by
  rw [State.logBusy, h.logs, State.logBusy]

theorem MemOnly.newLogNum (h : MemOnly s t) : t.newLogNum.1 = s.newLogNum.1 := by
  simp only [State.newLogNum, h.logs, h.podpos, h.logseq, State.logBusy]

/-- The step's log: open, empty, its own, and under the next number of its package. -/
theorem State.opening_log (s : State) (k : Cont) : (s.opening k).2 = s.newLogNum.1 ∧
    (s.opening k).1.log? (s.opening k).2 =
      some ⟨(s.opening k).2, BitVec.ofNat 16 (s.effTenant k.region.toNat), k.region, 0, 0, [], true, true⟩ := by
  have h0 : MemOnly s (if (k.first && k.frame != 0) = true then (s.onRc (s.effTenant k.region.toNat) k.frame.toNat 400).1 else s) := by
    split
    · exact s.onRc_memOnly ..
    · exact .refl s
  unfold State.opening
  dsimp only
  generalize (if (k.first && k.frame != 0) = true then (s.onRc (s.effTenant k.region.toNat) k.frame.toNat 400).1 else s) = r at h0 ⊢
  have h := h0.trans (r.recordOk_memOnly (s.effTenant k.region.toNat) k)
  generalize (r.recordOk (s.effTenant k.region.toNat) k).1 = v at h ⊢
  refine ⟨h.newLogNum, ?_⟩
  rw [(State.setCont_memOnly _ _).log?]
  simp [State.log?, State.openLog]

/-! ### The statement -/

/-- Each stream at the start of a first step (R24, R28, R44). -/
theorem State.beginStep_strm (h : s.beginStep k = .ok t) (hf : k.first = true) (j : Strm) : let x := t.core.strm j
    (∀ i : Fin 16, x.n[i] = if i.val < 4 then BitVec.ofNat 64 (k.xyz.getD i.val 0) else 0) ∧ (∀ i : Fin 8, i ≠ 0 → x.pred i = false) ∧
    x.shdr = x.pc ∧ x.insec = false ∧ x.retired = x.begun ∧ x.rq = [] ∧ x.loops = [] ∧ x.lc = Vector.replicate 3 0 ∧
    x.sb = Vector.replicate 8 0 ∧ x.hnd = false ∧ x.pend = [] ∧ x.ended = none := by
  obtain ⟨y, pc, sec, e⟩ := (s.opening k).1.newStep_strm k
    ((s.opening k).1.newCtx k (s.effTenant k.region.toNat) (s.opening k).2) j
  have q := Core.started_strm (State.beginStep_started h hf) j
  rw [e] at q
  generalize t.core.strm j = x at q
  have hn : x.n = firstRegs k.xyz := congrArg (·.n) q
  have hp : x.p = Vector.replicate 8 false := congrArg (·.p) q
  have hpc : x.pc = pc := congrArg (·.pc) q
  have hsh : x.shdr = pc := congrArg (·.shdr) q
  have hr : x.retired = sec := congrArg (·.retired) q
  have hb : x.begun = sec := congrArg (·.begun) q
  refine ⟨fun i => ?_, fun i hi => ?_, hsh.trans hpc.symm, congrArg (·.insec) q, hr.trans hb.symm, congrArg (·.rq) q,
    congrArg (·.loops) q, congrArg (·.lc) q, congrArg (·.sb) q, congrArg (·.hnd) q, congrArg (·.pend) q, congrArg (·.ended) q⟩
  · simp [hn, firstRegs]
  · simp [Stream.pred, hp, hi]

theorem Cont.startWords_first (k : Cont) (hf : k.first = true) :
    (∀ f, k.firing = some f → k.startWords = f.words ++ k.joinw.toList) ∧
    (k.firing = none → k.startWords = (if k.card.isEmpty then [] else [cardSpRel k.card]) ++ k.joinw.toList) := by
  refine ⟨fun f h => ?_, fun h => ?_⟩
  · simp [Cont.startWords, hf, h]
  · simp [Cont.startWords, hf, h]

/-- The capabilities at the start of a first step (R60, R388). -/
theorem State.beginStep_caps (h : s.beginStep k = .ok t) (hf : k.first = true) :
    t.core.caps = (s.opening k).1.dispatchCaps k (s.effTenant k.region.toNat % 65536) := by
  have e : t.core.caps = (s.opening k).1.dispatchCaps k (BitVec.ofNat 16 (s.effTenant k.region.toNat)).toNat :=
    congrArg (·.caps) (State.beginStep_started h hf)
  rwa [BitVec.toNat_ofNat] at e

theorem ofNat16_mod (n : Nat) : BitVec.ofNat 16 (n % 65536) = BitVec.ofNat 16 n := by
  apply BitVec.eq_of_toNat_eq
  simp

/-- The stores of the core where the step's tenant is the last one's, and where it is not (R59). -/
theorem State.beginStep_stores (h : s.beginStep k = .ok t) (hf : k.first = true) :
    let u := (s.opening k).1
    let ten := BitVec.ofNat 16 (s.effTenant k.region.toNat)
    let last := (u.core.ctx.map fun x => x.tenant).or u.core.lastTen
    (last ≠ some ten → t.core.tile = [] ∧ t.core.accs32 = [] ∧ t.core.wb = []) ∧
    (last = some ten → t.core.tile = u.core.tile ∧ t.core.accs32 = u.core.accs32 ∧ t.core.wb = u.core.wb) := by
  have q := State.beginStep_started h hf
  obtain ⟨f1, f2⟩ := State.vacate_forTenant (s.opening k).1.core (s.opening k).1.ftime
    (BitVec.ofNat 16 (s.effTenant k.region.toNat))
  have e1 := congrArg (·.tile) q
  have e2 := congrArg (·.accs32) q
  have e3 := congrArg (·.wb) q
  refine ⟨fun n => ?_, fun n => ?_⟩
  · obtain ⟨g1, g2, g3⟩ := f1 n
    exact ⟨e1.trans g1, e2.trans g2, e3.trans g3⟩
  · obtain ⟨g1, g2, g3⟩ := f2 n
    exact ⟨e1.trans g1, e2.trans g2, e3.trans g3⟩

/-- Settles O56: the core that dispatch sets up, kept by the acquires, and the number and state of the step's log. -/
theorem dispatchStart : Obligations.DispatchStart := by
  unfold Obligations.DispatchStart
  intro s t k h hf
  dsimp only
  have q := State.beginStep_started h hf
  obtain ⟨x, hx, ex⟩ := State.beginStep_ctx h hf
  obtain ⟨hnum, hlog⟩ := s.opening_log k
  obtain ⟨hfir, hcard⟩ := k.startWords_first hf
  obtain ⟨e1, e2, e3, e4, e5, e6, e7⟩ := (s.opening k).1.newStep_empty k
    ((s.opening k).1.newCtx k (s.effTenant k.region.toNat) (s.opening k).2)
  obtain ⟨c0, c1, c2, c3, c4, c15⟩ := (s.opening k).1.dispatchCaps_get k (s.effTenant k.region.toNat % 65536)
  rw [ofNat16_mod] at c15
  rw [← State.beginStep_caps h hf] at c0 c1 c2 c3 c4 c15
  obtain ⟨f1, f2⟩ := State.beginStep_stores h hf
  have hsem := (s.opening k).1.newStep_sem k ((s.opening k).1.newCtx k (s.effTenant k.region.toNat) (s.opening k).2)
  have hbusy := fun hq => hnum ▸ s.newLogNum_free hq
  refine ⟨congrArg (·.phase) q, State.beginStep_strm h hf, congrArg (·.l.pc) q, congrArg (·.c.pc) q, congrArg (·.s.pc) q,
    congrArg (·.l.begun) q, congrArg (·.c.begun) q, congrArg (·.s.begun) q,
    fun v => (congrArg (fun c : Core => c.sem v) q).trans (hsem v), congrArg (·.smap) q, congrArg (·.sh) q, congrArg (·.shS) q,
    congrArg (·.mreg) q, congrArg (·.mregS) q, (congrArg (·.accs) q).trans e1, (congrArg (·.mtx.q) q).trans e2,
    (congrArg (·.copy) q).trans e3, (congrArg (·.defq) q).trans e4, (congrArg (·.ldq.ents) q).trans e5,
    (congrArg (·.sdq.ents) q).trans e6, fun j => (congrArg (fun c : Core => c.bq[j].ents) q).trans (e7 j), c0, c1, c2, c3, c4, c15,
    congrArg (·.chk) q, congrArg (·.seed) q, congrArg (·.displo) q, congrArg (·.disphi) q, congrArg (·.hndlc) q,
    congrArg (·.hndls) q, congrArg (·.wdlim) q, f1, f2, hlog, hbusy, hfir, hcard,
    fun hz => (State.beginStep_none h hf hz).1, State.beginStep_l1 h hf, x, hx, congrArg (·.va) ex, congrArg (·.region) ex,
    congrArg (·.depth) ex, congrArg (·.tenant) ex, congrArg (·.log) ex, congrArg (·.ftok) ex, congrArg (·.seq) ex,
    congrArg (·.firing) ex, Option.map_eq_none_iff.1 (congrArg (·.watch) ex), congrArg (·.decl) ex, congrArg (·.declB) ex,
    congrArg (·.written) ex, congrArg (·.wdRaised) ex, fun hz => ?_, fun w hw hs => ?_⟩
  · have e := hx.symm.trans (State.beginStep_none h hf hz).2
    rw [Option.some.inj e]
    rfl
  · obtain ⟨y, hy, ey⟩ := State.beginStep_one h hf hw hs
    rw [Option.some.inj (hx.symm.trans hy)]
    exact ey

end Sys2Proof.Machine
end

section
/-!
SUPPORT. REL.commit, SPAWN and CTXLIVE (R33, R36, R215, R313 to R315): what their effects come to.
-/

namespace Sys2Proof.Machine

/-! ### REL.commit -/

/-- The effect of a REL.commit whose flag is checked, at the end instruction that follows it. -/
def commitEffect (h : Hdr) (p : Bool) (m : MAddr) (t : State) : Done :=
  match t.flagPart m [permW, permA] .write with
  | (t, .error b) => t.badDone b
  | (t, .ok q) =>
    if q.part.pois then .trap t { t.precise .poison 0 with info := 2 }
    else
      match t.cur.ended, t.commitEnd with
      | some _, (after, _) =>
        if isDcc t.cid then .hold .endIns
        else if t.core.meetReady && t.core.decider = t.who then t.commitNow h p q.part.addr after else .hold .endIns
      | none, (_, some w) =>
        if t.canMeet t.who w then .stay (t.mapCur fun x => { x with ended := some w, hold := .endIns })
        else t.trapDone .illegal
      | none, (_, none) => t.trapDone .illegal

variable {h : Hdr} {p : Bool} {m : MAddr} {s u : State} {q : PPart}

theorem execRelCommit_eq (he : s.commitEnd.2.isSome = true) :
    exec (.relCommit h p m) s = issue (gateM [.s]) h (useS [m.oreg.src]) (commitEffect h p m) s := issueIf_eq he

theorem commitEffect_arrives (hq : s.flagPart m [permW, permA] .write = (u, .ok q)) (hp : q.part.pois = false)
    (hn : u.cur.ended = none) {w : EndWait} (hw : u.commitEnd.2 = some w) : commitEffect h p m s =
      if u.canMeet u.who w then .stay (u.mapCur fun x => { x with ended := some w, hold := .endIns }) else u.trapDone .illegal := by
  obtain ⟨a, o, e⟩ : ∃ a o, u.commitEnd = (a, o) := ⟨_, _, rfl⟩
  rw [e] at hw
  dsimp only at hw
  subst hw
  simp only [commitEffect, hq, hp, hn, e, Bool.false_eq_true, if_false]

theorem commitEffect_meets (hq : s.flagPart m [permW, permA] .write = (u, .ok q)) (hp : q.part.pois = false)
    (hs : u.cur.ended.isSome = true) (hd : isDcc u.cid = false) (hm : u.core.meetReady = true) (hw : u.core.decider = u.who) :
    commitEffect h p m s = u.commitNow h p q.part.addr u.commitEnd.1 := by
  obtain ⟨w, e⟩ := Option.isSome_iff_exists.1 hs
  simp [commitEffect, hq, hp, e, hd, hm, hw]

theorem State.commitNow_ok {x : StepCtx} {t v : State} {r : RelSt} {flag : Nat} {after : State} (hx : u.core.ctx = some x)
    (ht : u.writeEnd x (x.endCont (u.core.setStrm .s after.core.s).afterEnds (u.planOf u.core.deciding)) = .ok t)
    (hv : t.sealSlow true (some flag) true = .ok (v, r)) : u.commitNow h p flag after =
      .go (((v.mapCtx fun y => { y with written := true }).mapCur fun y => { y with ended := none }).addAcc h .none p .rel (some r)) := by
  simp [State.commitNow, hx, ht, hv]

/-! ### SPAWN -/

/-- The effect of a SPAWN. -/
def spawnEffect (h : Hdr) (d : Dst) (p : Bool) (m : MAddr) (t : State) : Done :=
  match t.memAccess [] m 128 128 [permR] .read with
  | (t, .error b) => t.badDone b
  | (t, .ok ps) =>
    if t.soWait ps then .hold .other
    else
      let own := t.ownBytes (partsOf ps)
      let (t, bs) := t.readWith State.readPart (partsOf ps)
      let bs := overlayOwn own (partsOf ps) bs
      let card := bs.map (·.1)
      let reg := cardRegion card
      let step := (t.core.ctx.map fun x => x.region.toNat).getD 0
      if bs.any (·.2) then t.sendRel h true .pkg d p (.spawn (BitVec.ofNat 16 reg) card true ⟨0, 0⟩)
      else if !t.spawnable step reg then t.trapDone .perm
      else t.sendRel h true .pkg d p (.spawn (BitVec.ofNat 16 reg) card false ⟨0, 0⟩)

theorem execSpawn_eq (h : Hdr) (d : Dst) (p : Bool) (m : MAddr) (s : State) :
    exec (.spawn h d p m) s = issue (gateM anyStrm) h (useD [m.oreg.src] d) (spawnEffect h d p m) s := rfl

/-- The card that a SPAWN reads, the step's own records over it (R113). -/
def State.spawnCardBytes (u : State) (ps : List PPart) : State × List PByte :=
  ((u.readWith State.readPart (partsOf ps)).1,
    overlayOwn (u.ownBytes (partsOf ps)) (partsOf ps) (u.readWith State.readPart (partsOf ps)).2)

theorem spawnEffect_read {d : Dst} {ps : List PPart} (hr : s.memAccess [] m 128 128 [permR] .read = (u, .ok ps))
    (hw : u.soWait ps = false) : spawnEffect h d p m s =
      let r := u.spawnCardBytes ps
      let card := r.2.map (·.1)
      if r.2.any (·.2) then r.1.sendRel h true .pkg d p (.spawn (BitVec.ofNat 16 (cardRegion card)) card true ⟨0, 0⟩)
      else if !r.1.spawnable ((r.1.core.ctx.map fun x => x.region.toNat).getD 0) (cardRegion card) then r.1.trapDone .perm
      else r.1.sendRel h true .pkg d p (.spawn (BitVec.ofNat 16 (cardRegion card)) card false ⟨0, 0⟩) := by
  simp only [spawnEffect, hr, hw, Bool.false_eq_true, if_false]
  rfl

theorem State.freeSlot_spec {reg k : Nat} (h : s.freeSlot reg = some k) :
    k < 4096 ∧ s.job? reg k = none ∧ ∀ i, i < k → (s.job? reg i).isSome = true := by
  obtain ⟨-, h1, h2, h3⟩ := leastFrom_spec h
  refine ⟨by omega, by simpa using h2, fun i hi => ?_⟩
  have := h3 i (Nat.zero_le i) hi
  simpa [Option.isSome_iff_ne_none] using this

theorem State.spawn_deep {x : StepCtx} (hx : s.core.ctx = some x) (hd : 8 ≤ x.depth.val) (reg : Nat) (card : List Byte) (w : RelWord) :
    s.spawn reg card w = (s, 2 ^ 63 + 3) := by
  simp [State.spawn, hx, hd]

theorem State.spawn_full {x : StepCtx} (hx : s.core.ctx = some x) (hd : x.depth.val < 8) {reg : Nat} (hf : s.freeSlot reg = none)
    (card : List Byte) (w : RelWord) : s.spawn reg card w = (s, 2 ^ 63 + 4) := by
  simp [State.spawn, hx, Nat.not_le.2 hd, hf]

theorem State.spawn_placed {x : StepCtx} (hx : s.core.ctx = some x) (hd : x.depth.val < 8) {reg k : Nat} (hf : s.freeSlot reg = some k)
    (card : List Byte) (w : RelWord) :
    s.spawn reg card w = (s.placeCard reg k x.tenant (spawnCard card (x.depth.val + 1) x.va w) false, k) := by
  simp [State.spawn, hx, Nat.not_le.2 hd, hf]

/-! ### CTXLIVE -/

/-- The effect of a CTXLIVE that declares a range. -/
def liveEffect (acc : Bool) (a b : Src) (imm : BitVec 32) (t : State) : Done :=
  match t.core.ctx with
  | none => t.trapDone .illegal
  | some x =>
    let n := (t.valAfter imm [a] b).toNat
    match appendLive x.decl acc (t.val imm a).toNat n with
    | none => t.trapDone .illegal
    | some l =>
      let kib := if acc then accKib n else 0
      let t := if isDcc t.cid then t else t.charge x.region.toNat .acc kib
      .go (t.mapCtx fun x => { x with decl := l, declB := true, accKib := x.accKib + kib })

theorem execCtxlive_eq (h : Hdr) (acc : Bool) (a b : Src) (imm : BitVec 32) (s : State) :
    exec (if acc then .ctxliveAcc h a b imm else .ctxliveTile h a b imm) s =
      issue (gateR anyStrm [a, b]) h (useS [a, b]) (liveEffect acc a b imm) s := by
  cases acc <;> rfl

theorem liveEffect_bad {acc : Bool} {a b : Src} {imm : BitVec 32} {t : State}
    (hb : ∀ x, t.core.ctx = some x → appendLive x.decl acc (t.val imm a).toNat (t.valAfter imm [a] b).toNat = none) :
    liveEffect acc a b imm t = t.trapDone .illegal := by
  cases hx : t.core.ctx with
  | none => simp [liveEffect, hx]
  | some x => simp [liveEffect, hx, hb x hx]

theorem liveEffect_ok {acc : Bool} {a b : Src} {imm : BitVec 32} {t : State} {x : StepCtx} {l : List LiveRange}
    (hx : t.core.ctx = some x) (hc : t.cid < 0x1000)
    (hl : appendLive x.decl acc (t.val imm a).toNat (t.valAfter imm [a] b).toNat = some l) :
    liveEffect acc a b imm t = .go ((t.charge x.region.toNat .acc (if acc then accKib (t.valAfter imm [a] b).toNat else 0)).mapCtx
      fun x => { x with decl := l, declB := true,
                        accKib := x.accKib + if acc then accKib (t.valAfter imm [a] b).toNat else 0 }) := by
  have hd : isDcc t.cid = false := decide_eq_false (by omega)
  simp [liveEffect, hx, hl, hd]

theorem appendLive_none {l : List LiveRange} {acc : Bool} {a b : Nat} (h : b = 0 ∨ (if acc then 524288 else 1024) < a + b ∨
    8 ≤ (l.filter fun r : LiveRange => r.acc = acc).length) : appendLive l acc a b = none :=
  if_pos (by simpa [or_assoc] using h)

theorem appendLive_some {l : List LiveRange} {acc : Bool} {a b : Nat} (h0 : b ≠ 0) (h1 : a + b ≤ if acc then 524288 else 1024)
    (h2 : (l.filter fun r : LiveRange => r.acc = acc).length < 8) : appendLive l acc a b = some (l ++ [⟨acc, a, b⟩]) :=
  if_neg (by simp [h0, Nat.not_lt.2 h1, Nat.not_le.2 h2])

/-! ### The statement -/

/-- Settles O50: each instruction's effect, issued. -/
theorem stepInstructions : Obligations.StepInstructions := by
  unfold Obligations.StepInstructions
  refine ⟨?_, ?_, fun r card bad w0 w => rfl, ?_, ?_, ?_, fun l acc a b => ⟨appendLive_none, appendLive_some⟩⟩
  · intro h p m s u q he hend hq hp
    refine ⟨fun w hn hw => ⟨fun hc => ?_, fun hc => ?_⟩, fun x t v r hs hd hm hw hx ht hv => ?_⟩
    · rw [execRelCommit_eq hend, issue_stay he]
      rw [commitEffect_arrives hq hp hn hw, if_pos hc]
    · rw [execRelCommit_eq hend, issue_trap he]
      rw [commitEffect_arrives hq hp hn hw, if_neg (by simp [hc])]
      rfl
    · rw [execRelCommit_eq hend, issue_go he]
      rw [commitEffect_meets hq hp hs hd hm hw, State.commitNow_ok hx ht hv]
  · intro h d p m s u ps use he hr hw
    have hs := spawnEffect_read (h := h) (d := d) (p := p) hr hw
    refine ⟨fun hb => ?_, fun hb hn => ?_, fun hb hn => ?_⟩
    · exact sends_of (execSpawn_eq h d p m s) he (hs.trans (if_pos hb))
    · rw [execSpawn_eq, issue_trap he]
      exact hs.trans ((if_neg (ne_true_of_eq_false hb)).trans (if_pos (congrArg Bool.not hn)))
    · exact sends_of (execSpawn_eq h d p m s) he
        (hs.trans ((if_neg (ne_true_of_eq_false hb)).trans (if_neg (ne_true_of_eq_false (congrArg Bool.not hn)))))
  · intro s reg card w x hx
    refine ⟨fun hd => State.spawn_deep hx hd reg card w, fun hd hf => State.spawn_full hx hd hf card w, fun k hd hf => ?_⟩
    obtain ⟨h1, h2, -⟩ := State.freeSlot_spec hf
    exact ⟨State.spawn_placed hx hd hf card w, h1, h2⟩
  · intro h acc a b imm i hi
    subst hi
    refine ⟨traps_of (execCtxlive_eq h acc a b imm) fun t => liveEffect_bad, fun x l => ?_⟩
    exact gives_of (execCtxlive_eq h acc a b imm) fun t ht => liveEffect_ok ht.1 ht.2.1 ht.2.2
  · exact fun h => gives_of (fun s => rfl) fun t _ => rfl

end Sys2Proof.Machine
end

section
/-!
SUPPORT. Launch, dealing and completion of job cards (R22 to R28, R36, R37, R388): what each event leaves, and the traversal orders.
-/

namespace Sys2Proof.Machine

variable {s t u : State}

/-! ### Slots -/

theorem State.setJob_job? (s : State) (j : Job) : (s.setJob j).job? j.region j.slot = some j := by
  simp [State.setJob, State.job?]

@[simp] theorem State.setJob_mem (s : State) (j : Job) : (s.setJob j).mem = s.mem := rfl

/-- The order in which a card is judged before a chunk of it is dealt. -/
theorem State.dealChunk_some {r slot : Nat} {j : Job} (hj : s.job? r slot = some j) : s.dealChunk r slot =
    let s := s.touchSlot r slot
    let card := s.slotCard r slot
    if j.rel.isSome || 2 ≤ cardJState card then s
    else if !s.wellFormed r then s.rejectCard r slot 2
    else if !cardOk card false then s.rejectCard r slot 1
    else if s.fenced (s.effFdom r) then s
    else if j.left != 0 then s.dealSome j card (min j.left (cardGroups card - cardCursor card))
    else if s.mayDeal r slot then s.dealSome j card (s.chunkSize r slot card)
    else s := by
  rw [State.dealChunk, hj]

theorem State.dealChunk_released {r slot : Nat} {j : Job} (hj : s.job? r slot = some j) (hr : j.rel.isSome = true) :
    s.dealChunk r slot = s.touchSlot r slot := by
  simp [State.dealChunk_some hj, hr]

theorem State.jobComplete_released {r slot : Nat} {j : Job} (hj : s.job? r slot = some j) (hr : j.rel.isSome = true) :
    s.jobComplete r slot = s.touchSlot r slot := by
  simp [State.jobComplete, hj, hr]

/-- A card that passes every check is dealt from: the rest of its chunk, else a new chunk when one may begin. -/
theorem State.dealChunk_live {r slot : Nat} {j : Job} (hj : s.job? r slot = some j) :
    let u := s.touchSlot r slot
    let card := u.slotCard r slot
    j.rel = none ∧ cardJState card < 2 ∧ u.wellFormed r = true ∧ cardOk card false = true ∧ u.fenced (u.effFdom r) = false →
    s.dealChunk r slot = if j.left != 0 then u.dealSome j card (min j.left (cardGroups card - cardCursor card))
      else if u.mayDeal r slot then u.dealSome j card (u.chunkSize r slot card) else u := by
  rintro u card ⟨hr, hs, hw, hc, hf⟩
  have hs' : ¬2 ≤ cardJState card := Nat.not_le.2 hs
  simp only [u, card] at hs' hw hc hf
  simp [State.dealChunk_some hj, u, card, hr, hs', hw, hc, hf]

/-! ### Host launches (R388) -/

theorem State.setFn_fn (s : State) (n : Nat) (f : HostFn) : (s.setFn n f).fn n = f := lookupD_insertAt_same ..

@[simp] theorem State.setFn_job? (s : State) (n : Nat) (f : HostFn) (r slot : Nat) : (s.setFn n f).job? r slot = s.job? r slot := rfl

@[simp] theorem State.setFn_mem (s : State) (n : Nat) (f : HostFn) : (s.setFn n f).mem = s.mem := rfl

theorem State.hostLaunch_posted {fn : Nat} (h : s.launchPosted fn = true) : s.hostLaunch fn =
    let t := s.launch (s.fn fn).tenroot.toNat
      (s.mem.bytes (keyOf 2 ((s.fn fn).lrbase.toNat + 128 * ((s.fn fn).lrhead.toNat % (s.fn fn).lrsize.toNat))) 128)
    t.setFn fn { t.fn fn with lrhead := (s.fn fn).lrhead + 1 } := by
  simp [State.hostLaunch, h]

theorem State.hostLaunch_idle {fn : Nat} (h : s.launchPosted fn = false) : s.hostLaunch fn = s := by
  simp [State.hostLaunch, h]

theorem State.launch_accepted {root k : Nat} {card : List Byte} (hv : s.rcbV root = true) (hc : s.launchCode root card = 0)
    (hf : s.freeSlot (cardRegion card) = some k) : s.launch root card =
      s.placeCard (cardRegion card) k (BitVec.ofNat 16 (s.rcb root 34 2)) (launchCard card) true := by
  simp [State.launch, hv, hc, hf]

theorem State.launch_refused {root : Nat} {card : List Byte} (hv : s.rcbV root = true) (hc : s.launchCode root card ≠ 0)
    (hw : s.writeCompletion (s.rcb root 34 2) card (complWord 0 0 (s.launchCode root card)) ⟨0, 0⟩ = (u, true)) :
    s.launch root card = u := by
  obtain ⟨n, hn⟩ := Nat.exists_eq_add_one_of_ne_zero hc
  simp only [hn] at hw
  simp only [State.launch, hv, Bool.not_true, Bool.false_eq_true, if_false, hn, hw, if_true]

theorem State.placeCard_job? (s : State) (r slot : Nat) (ten : BitVec 16) (card : List Byte) (host : Bool) :
    (s.placeCard r slot ten card host).job? r slot = some ⟨r, slot, ten, [], none, none, 0, host, 0⟩ := State.setJob_job? ..

theorem State.placeCard_mem (s : State) (r slot : Nat) (ten : BitVec 16) (card : List Byte) (host : Bool) :
    let u := s.devStore (s.slotAddr r slot) (card.take 128)
    (s.placeCard r slot ten card host).mem = (u.setRcb r 194 2 ((u.rcb r 194 2 + 1) % 8192)).mem := by
  intro u
  rw [State.placeCard, State.setJob_mem]

theorem State.launchCode_cases (s : State) (root : Nat) (card : List Byte) :
    let r := cardRegion card
    let here := s.wellFormed r = true ∧ s.inSubtree r root = true
    (¬here → s.launchCode root card = 2) ∧ (here → cardOk card true = false → s.launchCode root card = 1) ∧
    (here → cardOk card true = true → cardDepth card ≠ 0 → s.launchCode root card = 3) ∧
    (here → cardOk card true = true → cardDepth card = 0 → s.freeSlot r = none → s.launchCode root card = 4) ∧
    (∀ k, here → cardOk card true = true → cardDepth card = 0 → s.freeSlot r = some k → s.launchCode root card = 0) := by
  have e : ∀ a b : Bool, ¬(a = true ∧ b = true) → (!a || !b) = true := by decide
  refine ⟨fun h => if_pos (e _ _ h), ?_⟩
  simp +contextual [State.launchCode]

/-! ### Dealing (R27) -/

theorem ceilDiv_bounds {n k : Nat} (hk : 0 < k) : n ≤ (n + k - 1) / k * k ∧ (n + k - 1) / k * k < n + k := by
  have h := Nat.div_add_mod (n + k - 1) k
  have hm := Nat.mod_lt (n + k - 1) hk
  rw [Nat.mul_comm] at h
  omega

theorem State.dealFrom_succ (s : State) (r slot : Nat) (card : List Byte) (ct : Option (BitVec 16)) (pos n : Nat) :
    (∀ u, s.freeRecord r = (u, none) → s.dealFrom r slot card ct pos (n + 1) = (u, 0)) ∧
    ∀ u va pa, s.freeRecord r = (u, some (va, pa)) → let p := cardGroupAt card pos
      let g := p.1 + cardDimX card * (p.2.1 + cardDimY card * p.2.2)
      let v := u.newCont card r va pa (cardF card 0 32 3) (cardDepth card) [p.1, p.2.1, p.2.2, g]
        (if cardArgCount card = 1 then 0 else g) (if cardFStride card = 0 then 0 else cardFBase card + g * cardFStride card)
        (u.slotAddr r slot) none (some (BitVec.ofNat 16 r, slot)) ct
      let d := v.dealFrom r slot card ct (pos + 1) n
      s.dealFrom r slot card ct pos (n + 1) = (d.1, d.2 + 1) := by
  refine ⟨fun u h => by rw [State.dealFrom, h], fun u va pa h => ?_⟩
  rw [State.dealFrom, h]

/-- No more continuations are made than asked for. -/
theorem State.dealFrom_le (r slot : Nat) (card : List Byte) (ct : Option (BitVec 16)) : ∀ (n pos : Nat) (s : State),
    (s.dealFrom r slot card ct pos n).2 ≤ n
  | 0, _, _ => le_rfl
  | n + 1, pos, s => by
    obtain ⟨none_, some_⟩ := s.dealFrom_succ r slot card ct pos n
    rcases h : s.freeRecord r with ⟨u, _ | ⟨va, pa⟩⟩
    · rw [none_ u h]
      exact Nat.zero_le _
    · rw [some_ u va pa h]
      exact Nat.succ_le_succ (dealFrom_le r slot card ct n _ _)

/-- The continuation that is made of a card in a record, before it is ready. -/
theorem State.newCont_spec (s : State) (card : List Byte) (r va pa prio depth : Nat) (xyz : List Nat) (arg frame origin : Nat)
    (firing : Option Firing) (job : Option (BitVec 16 × Nat)) (ct : Option (BitVec 16)) :
    ∃ c, (s.newCont card r va pa prio depth xyz arg frame origin firing job ct).cont? pa = some c ∧ c.state = .ready ∧ c.first = true ∧
      c.va = va ∧ c.region = BitVec.ofNat 16 r ∧ c.xyz = xyz ∧ c.argidx = BitVec.ofNat 48 arg ∧ c.frame = BitVec.ofNat 57 frame ∧
      c.card = card ∧ c.codecap = BitVec.ofNat 16 (cardF card 0 0 16) ∧ c.pcl = BitVec.ofNat 32 (cardF card 8 0 32) ∧
      c.pcc = BitVec.ofNat 32 (cardF card 12 0 32) ∧ c.pcs = BitVec.ofNat 32 (cardF card 16 0 32) ∧ c.secl = 0xFFF ∧ c.wkind = 0 ∧
      c.depth = Fin.ofNat 16 depth ∧ c.job = job ∧ c.capten = ct := by
  refine ⟨_, State.cont?_of_enter (State.makeReady_conts _ _) rfl, ?_⟩
  simp only [State.readied, and_self]

theorem State.mayDeal_eq_false {r slot : Nat} (h : s.undealt r slot = true ∨ s.overBudget r = true) : s.mayDeal r slot = false := by
  rcases h with h | h <;> simp [State.mayDeal, h]

theorem State.chunkSize_spec (s : State) (r slot : Nat) (card : List Byte) : let left := cardGroups card - cardCursor card
    let ka := cardF card 0 48 8 * max 1 (s.jobCores r slot)
    0 < ka → ∃ q, left ≤ q * ka ∧ q * ka < left + ka ∧
      s.chunkSize r slot card = min left (max (cardF card 20 0 16) (min (cardF card 22 0 16) q)) := by
  intro left ka hk
  obtain ⟨h1, h2⟩ := ceilDiv_bounds (n := left) hk
  exact ⟨_, h1, h2, rfl⟩

/-! ### Traversal (R25, R26) -/

theorem planePoint_rows (w h p : Nat) : planePoint 0 w h p = (p % w, p / w) := rfl

theorem planePoint_columns (w h p : Nat) : planePoint 1 w h p = (p / h, p % h) := rfl

/-- A position within a band of the card is a position in one of the band's planes. -/
theorem cardGroupAt_band (card : List Byte) (b i : Nat) : let w := cardDimX card
    let h := cardDimY card
    let band := if cardF card 0 42 5 = 0 then w else 2 ^ cardF card 0 42 5
    let wb := min band (w - b * band)
    i < wb * h * cardDimZ card → let q := planePoint (cardF card 0 40 2) wb h (i % (wb * h))
      cardGroupAt card (b * (band * h * cardDimZ card) + i) = (b * band + q.1, q.2, i / (wb * h)) := by
  intro w h band wb hi
  have hle : wb * h * cardDimZ card ≤ band * h * cardDimZ card :=
    Nat.mul_le_mul_right _ (Nat.mul_le_mul_right _ (Nat.min_le_left _ _))
  have hlt : i < band * h * cardDimZ card := Nat.lt_of_lt_of_le hi hle
  have hd : (b * (band * h * cardDimZ card) + i) / (band * h * cardDimZ card) = b := by
    rw [Nat.mul_comm, Nat.mul_add_div (by omega), Nat.div_eq_of_lt hlt, Nat.add_zero]
  have hm : (b * (band * h * cardDimZ card) + i) % (band * h * cardDimZ card) = i := by
    rw [Nat.mul_comm, Nat.mul_add_mod, Nat.mod_eq_of_lt hlt]
  simp only [cardGroupAt]
  simp only [w, h, band, wb] at hd hm ⊢
  rw [hd, hm]

theorem cardGroupAt_orders (card : List Byte) (b i : Nat) : let w := cardDimX card
    let h := cardDimY card
    let band := if cardF card 0 42 5 = 0 then w else 2 ^ cardF card 0 42 5
    let wb := min band (w - b * band)
    i < wb * h * cardDimZ card → let p := cardGroupAt card (b * (band * h * cardDimZ card) + i)
      (cardF card 0 40 2 = 0 → p = (b * band + i % wb, i / wb % h, i / (wb * h))) ∧
      (cardF card 0 40 2 = 1 → p = (b * band + i / h % wb, i % h, i / (wb * h))) ∧
      (2 ≤ cardF card 0 40 2 → let q := planePoint (cardF card 0 40 2) wb h (i % (wb * h))
        p = (b * band + q.1, q.2, i / (wb * h))) := by
  intro w h band wb hi p
  have e : p = _ := cardGroupAt_band card b i hi
  refine ⟨fun h0 => ?_, fun h1 => ?_, fun _ => e⟩
  · rw [e, h0, planePoint_rows, Nat.mod_mul_right_mod, Nat.mod_mul_right_div_self]
  · rw [e, h1, planePoint_columns, Nat.mod_mul_left_mod, Nat.mod_mul_left_div_self]

theorem nthPoint_spec (pt : Nat → Nat × Nat) (inside : Nat × Nat → Bool) : ∀ (f p m q : Nat), m ≤ q → q < m + f →
    inside (pt q) = true → ((List.range' m (q - m)).filter fun i => inside (pt i)).length = p → nthPoint pt inside f p m = pt q
  | 0, _, _, _, h1, h2, _, _ => by omega
  | f + 1, p, m, q, h1, h2, hq, hp => by
    rcases Nat.eq_or_lt_of_le h1 with rfl | h
    · simp only [Nat.sub_self, List.range'_zero, List.filter_nil, List.length_nil] at hp
      rw [nthPoint, if_pos hq, if_pos hp.symm]
    · rw [show q - m = (q - (m + 1)) + 1 by omega, List.range'_succ] at hp
      have ih := nthPoint_spec pt inside f (p - 1) (m + 1) q h (by omega) hq
      have ih' := nthPoint_spec pt inside f p (m + 1) q h (by omega) hq
      by_cases hm : inside (pt m) = true
      · rw [List.filter_cons_of_pos (p := fun i => inside (pt i)) hm, List.length_cons] at hp
        rw [nthPoint, if_pos hm, if_neg (by omega), ih (by omega)]
      · rw [List.filter_cons_of_neg (p := fun i => inside (pt i)) hm] at hp
        rw [nthPoint, if_neg hm, ih' hp]

theorem evenBits_testBit : ∀ (f m i : Nat), i < f → (evenBits f m).testBit i = m.testBit (2 * i)
  | f + 1, m, 0, _ => by simp [evenBits, Nat.testBit_zero, Nat.add_mul_mod_self_left]
  | f + 1, m, i + 1, h => by
    have hd : (evenBits (f + 1) m) / 2 = evenBits f (m / 4) := by rw [evenBits]; omega
    rw [Nat.testBit_succ, hd, evenBits_testBit f _ i (by omega), show 2 * (i + 1) = 2 * i + 1 + 1 by omega, Nat.testBit_succ,
      Nat.testBit_succ, Nat.div_div_eq_div_mul]

/-! ### The completion word (R37) -/

theorem complWord_fields {nd nf ec : Nat} (hd : nd < 2 ^ 48) (hf : nf < 256) (he : ec < 64) : let w := complWord nd nf ec
    w % 2 ^ 48 = nd ∧ w / 2 ^ 48 % 256 = nf ∧ w / 2 ^ 56 % 64 = ec ∧ w.testBit 62 = decide (ec ≠ 0) ∧ w.testBit 63 = true ∧ w < 2 ^ 64 := by
  intro w
  have hw : w = nd + nf * 2 ^ 48 + ec * 2 ^ 56 + (if ec = 0 then 0 else 2 ^ 62) + 2 ^ 63 := rfl
  by_cases h : ec = 0
  · rw [if_pos h] at hw
    simp only [Nat.testBit_eq_decide_div_mod_eq, decide_eq_true_eq, h, decide_eq_decide]
    omega
  · rw [if_neg h] at hw
    simp only [Nat.testBit_eq_decide_div_mod_eq, decide_eq_true_eq, decide_eq_decide]
    omega

/-! ### The statement's clauses on cards -/

theorem hostLaunch_clause (s : State) (fn : Nat) :
    exec (.hostLaunch fn) s = .next (s.hostLaunch fn) ∧ (s.launchPosted fn = false → s.hostLaunch fn = s) ∧
    (s.launchPosted fn = true → ((s.hostLaunch fn).fn fn).lrhead = (s.fn fn).lrhead + 1) ∧
    let f := s.fn fn
    let card := s.mem.bytes (keyOf 2 (f.lrbase.toNat + 128 * (f.lrhead.toNat % f.lrsize.toNat))) 128
    let root := f.tenroot.toNat
    let r := cardRegion card
    let ten := s.rcb root 34 2
    (∀ slot, s.launchPosted fn = true → s.rcbV root = true → s.launchCode root card = 0 → s.freeSlot r = some slot →
      let u := s.devStore (s.slotAddr r slot) ((launchCard card).take 128)
      (s.hostLaunch fn).job? r slot = some ⟨r, slot, BitVec.ofNat 16 ten, [], none, none, 0, true, 0⟩ ∧
      (s.hostLaunch fn).mem = (u.setRcb r 194 2 ((u.rcb r 194 2 + 1) % 8192)).mem) ∧
    ∀ u, s.launchPosted fn = true → s.rcbV root = true → s.launchCode root card ≠ 0 →
      s.writeCompletion ten card (complWord 0 0 (s.launchCode root card)) ⟨0, 0⟩ = (u, true) → (s.hostLaunch fn).mem = u.mem := by
  refine ⟨rfl, State.hostLaunch_idle, fun h => ?_, fun slot h hv hc hf => ?_, fun u h hv hc hw => ?_⟩
  · rw [State.hostLaunch_posted h]
    exact congrArg HostFn.lrhead (State.setFn_fn ..)
  · rw [State.hostLaunch_posted h, State.launch_accepted hv hc hf]
    dsimp only
    rw [State.setFn_job?, State.setFn_mem]
    exact ⟨State.placeCard_job? .., State.placeCard_mem ..⟩
  · rw [State.hostLaunch_posted h, State.launch_refused hv hc hw, State.setFn_mem]

theorem launchCode_clause (s : State) (root : Nat) (card : List Byte) : let r := cardRegion card
    let here := s.wellFormed r = true ∧ s.inSubtree r root = true
    (¬here → s.launchCode root card = 2) ∧ (here → cardOk card true = false → s.launchCode root card = 1) ∧
    (here → cardOk card true = true → cardDepth card ≠ 0 → s.launchCode root card = 3) ∧
    (here → cardOk card true = true → cardDepth card = 0 → s.freeSlot r = none → s.launchCode root card = 4) ∧
    (∀ k, here → cardOk card true = true → cardDepth card = 0 → s.freeSlot r = some k → s.launchCode root card = 0 ∧
      k < 4096 ∧ s.job? r k = none ∧ ∀ i, i < k → (s.job? r i).isSome = true) := by
  obtain ⟨h2, h1, h3, h4, h0⟩ := s.launchCode_cases root card
  exact ⟨h2, h1, h3, h4, fun k h hc hd hf => ⟨h0 k h hc hd hf, State.freeSlot_spec hf⟩⟩

theorem jobs_clause (s : State) (r slot : Nat) :
    exec (.dealChunk r slot) s = .next (s.dealChunk r slot) ∧ exec (.jobComplete r slot) s = .next (s.jobComplete r slot) ∧
    exec (.completionWordWrite r slot) s = .next (s.completionWrite r slot) ∧
    (s.job? r slot = none → s.dealChunk r slot = s ∧ s.jobComplete r slot = s ∧ s.completionWrite r slot = s) ∧
    ∀ j, s.job? r slot = some j → (j.rel = none → s.completionWrite r slot = s) ∧
      (j.rel.isSome → s.dealChunk r slot = s.touchSlot r slot ∧ s.jobComplete r slot = s.touchSlot r slot) ∧
      let u := s.touchSlot r slot
      let card := u.slotCard r slot
      let live := j.rel = none ∧ cardJState card < 2 ∧ u.wellFormed r = true ∧ cardOk card false = true ∧ u.fenced (u.effFdom r) = false
      (live → j.left ≠ 0 → s.dealChunk r slot = u.dealSome j card (min j.left (cardGroups card - cardCursor card))) ∧
      (live → j.left = 0 → u.undealt r slot = false → u.overBudget r = false →
        s.dealChunk r slot = u.dealSome j card (u.chunkSize r slot card)) ∧
      (live → j.left = 0 → u.undealt r slot = true ∨ u.overBudget r = true → s.dealChunk r slot = u) := by
  refine ⟨rfl, rfl, rfl, fun h => ?_, fun j hj => ⟨fun h => ?_, fun h => ?_, fun hl h0 => ?_, fun hl h0 hu hb => ?_, fun hl h0 hb => ?_⟩⟩
  · simp [State.dealChunk, State.jobComplete, State.completionWrite, h]
  · simp [State.completionWrite, hj, h]
  · exact ⟨State.dealChunk_released hj h, State.jobComplete_released hj h⟩
  · rw [State.dealChunk_live hj hl, if_pos (bne_iff_ne.2 h0)]
  · have hm : (s.touchSlot r slot).mayDeal r slot = true := by rw [State.mayDeal, hu, hb]; rfl
    rw [State.dealChunk_live hj hl, h0, if_neg (by decide), if_pos hm]
  · rw [State.dealChunk_live hj hl, h0, if_neg (by decide), State.mayDeal_eq_false hb, if_neg (by decide)]

end Sys2Proof.Machine
end

section
/-!
SUPPORT. The dispatcher, claims, wakes, timers, power gating, spills and leases by time (R29, R30, R39, R104, R106, R111, R385 to R398,
R426, R445): what each event leaves.
-/

namespace Sys2Proof.Machine

variable {s t u : State}

/-! ### The dispatcher (R385 to R392) -/

theorem State.dispatchOne_clause (s : State) :
    exec .dispatch s = .next s.dispatchOne ∧ (s.pickRegion = none → s.dispatchOne = s) ∧
    ∀ r k, s.pickRegion = some (r, k) → (s.place k = none → s.dispatchOne = s.wakeGroups s.wakeList) ∧
      ∀ n, s.place k = some n → s.dispatchOne = s.startHead k n := by
  refine ⟨rfl, fun h => by rw [State.dispatchOne, h], fun r k h => ⟨fun hp => ?_, fun n hp => ?_⟩⟩ <;> simp only [State.dispatchOne, h, hp]

theorem State.startHead_dropped {k : Cont} (n : Nat) (h : s.claimed k = (t, none)) : s.startHead k n = { t with rot := k.region } := by
  rw [State.startHead, h]

theorem State.startHead_clause (s : State) (k : Cont) (n : Nat) (t : State) :
    (s.claimed k = (t, none) → s.startHead k n = { t with rot := k.region }) ∧
    ∀ c, s.claimed k = (t, some c) →
      (c.wkind = 5 → (∀ u e, t.readImage 0 (c.wopnd.toNat * 64) = (u, .error e) → s.startHead k n = u.dispatchFault c) ∧
        ∀ u ps bs, t.readImage 0 (c.wopnd.toNat * 64) = (u, .ok (ps, bs)) →
          s.startHead k n = (u.countDispatch c).onCore n fun v => v.resumeStep bs ps c) ∧
      (c.wkind ≠ 5 → (∀ u, ((t.countDispatch c).focus n).beginStep c = .ok u → s.startHead k n = u.focus t.cid) ∧
        ∀ u v, ((t.countDispatch c).focus n).beginStep c = .error u → (t.focus n).beginStep c = .error v →
          s.startHead k n = (v.focus t.cid).dispatchFault c) := by
  refine ⟨State.startHead_dropped n, fun c h => ⟨fun hw => ⟨fun u e hr => ?_, fun u ps bs hr => ?_⟩,
    fun hw => ⟨fun u hb => ?_, fun u v hb he => ?_⟩⟩⟩
  · simp only [State.startHead, h, hw, if_true, hr]
  · simp only [State.startHead, h, hw, if_true, hr]
  · simp only [State.startHead, h, hw, if_false, hb]
  · simp only [State.startHead, h, hw, if_false, hb, he]

theorem State.dispatchFault_clause (s : State) (k : Cont) :
    (s.dispatchFault k).cont? k.pa = some { k with state := .faulted, imgKib := 0 } ∧ (s.countDispatch k).rot = k.region :=
  ⟨State.setCont_cont? _ { k with state := .faulted, imgKib := 0 }, rfl⟩

/-! ### Claims (R426) -/

/-- A continuation of the pool is entered without a word to a local home. -/
theorem State.setCont_pool (s : State) {c : Cont} (h : c.isLocal = false) : s.setCont c = { s with conts := enterCont s.conts c } := by
  simp [State.setCont, h, enterCont]

theorem State.mem_dropCont {k c : Cont} (h : c ∈ (s.dropCont k).conts) : c.pa ≠ k.pa := by
  have h' := (List.mem_filter.1 h).2
  simpa using h'

theorem State.cont?_pa {pa : Nat} {k : Cont} (h : s.cont? pa = some k) : k.pa = pa := by
  simpa using List.find?_some h

theorem State.claimed_clause (s : State) (k : Cont) :
    (k.isLocal = true → s.claimed k = (s, some (k.stamped (s.recToken k.pa, s.recSteps k.pa)))) ∧
    (k.isLocal = false → ∀ t, (∀ c, s.claim k = (t, some c) → s.claimed k = (t.setCont c, some c)) ∧
      (s.claim k = (t, none) → ∀ c ∈ (s.claimed k).1.conts, c.pa ≠ k.pa)) := by
  refine ⟨fun h => by rw [State.claimed, if_pos h], fun h t => ⟨fun c hc => ?_, fun hc c hm => ?_⟩⟩
  · simp only [State.claimed, h, hc, Bool.false_eq_true, if_false]
  · simp only [State.claimed, h, hc, Bool.false_eq_true, if_false] at hm
    exact State.mem_dropCont hm

/-- The dispatcher's answer to a claim changes its continuations alone. -/
theorem State.claimAnswer_eq (s : State) (pa : Nat) (e : Option (Nat × Nat)) : ∃ l, s.claimAnswer pa e = { s with conts := l } := by
  unfold State.claimAnswer
  split
  · split
    · next k _ h =>
      simp only [Bool.and_eq_true, Bool.not_eq_true'] at h
      split
      · exact ⟨_, State.setCont_pool s (c := k.stamped _) h.2⟩
      · exact ⟨_, rfl⟩
    · exact ⟨_, rfl⟩
  · exact ⟨_, rfl⟩

theorem State.claimAnswer_granted {pa : Nat} {k : Cont} (e : Nat × Nat) (hk : s.cont? pa = some k) (hr : k.state = .ready)
    (hl : k.isLocal = false) : s.claimAnswer pa (some e) = s.setCont (k.stamped e) := by
  simp [State.claimAnswer, hk, hr, hl]

theorem State.claimAnswer_refused {pa : Nat} {k : Cont} (hk : s.cont? pa = some k) (hr : k.state = .ready) (hl : k.isLocal = false) :
    s.claimAnswer pa none = s.dropCont k := by
  simp [State.claimAnswer, hk, hr, hl]

theorem State.claimAt_free {pa src tok epoch : Nat}
    (h : s.recToken pa = tok ∧ lookupD s.holders pa src = src ∧ lookupD s.mgmt.epochs src 0 = epoch) :
    s.claimAt pa src tok epoch = ({ s with holders := insertAt s.holders pa src }, some (s.recToken pa, s.recSteps pa)) := by
  rw [State.claimAt, if_pos (by simp [h])]

theorem State.claimAt_held {pa src tok epoch : Nat}
    (h : ¬(s.recToken pa = tok ∧ lookupD s.holders pa src = src ∧ lookupD s.mgmt.epochs src 0 = epoch)) :
    s.claimAt pa src tok epoch = (s, none) := by
  rw [State.claimAt, if_neg (by simpa [and_assoc] using h)]

/-- An event at a home that answers, of a transaction that it has no outcome of. -/
theorem State.atHome_fresh {tx : Txn} {down : Nat} {f : State → State × Nat × List Byte} (hu : s.nodeUp tx.node = true)
    (ho : s.outcome? tx = none) : s.atHome tx down f = (f s).1.settled tx (f s).2.1 (f s).2.2 := by
  simp only [State.atHome, hu, if_true, State.once, ho]

theorem State.atHome_again {tx : Txn} {down : Nat} {f : State → State × Nat × List Byte} {o : Outc} (hu : s.nodeUp tx.node = true)
    (ho : s.outcome? tx = some o) : s.atHome tx down f = s.answer tx o.status o.data := by
  simp only [State.atHome, hu, if_true, State.once, ho]

theorem State.atHome_down {tx : Txn} {down : Nat} {f : State → State × Nat × List Byte} (hu : s.nodeUp tx.node = false) :
    s.atHome tx down f = s.answer tx down [] := by
  simp only [State.atHome, hu, Bool.false_eq_true, if_false]

/-- What a claim leaves besides its answer: u after the home's part, e what the sender gets. -/
theorem State.claimTxn_leaves {c : ClaimTxn} {e : Option (Nat × Nat)} (hu : s.nodeUp c.head.node = true)
    (ho : s.outcome? c.head = none) (hc : s.claimAt (txnKey c.head) c.head.src c.tok.toNat c.epoch.toNat = (u, e)) :
    ∃ v : State, s.claimTxn c = v.answer c.head (claimOutcome e).1 (claimOutcome e).2 ∧ v.holders = u.holders ∧ v.mem = u.mem ∧
      (s.mine c.head = true → v.conts = (u.claimAnswer (txnKey c.head) e).conts) ∧ (s.mine c.head = false → v.conts = u.conts) := by
  have hm : u.mine c.head = s.mine c.head := by
    unfold State.claimAt at hc
    split at hc <;> cases hc <;> rfl
  obtain ⟨l, hl⟩ := u.claimAnswer_eq (txnKey c.head) e
  refine ⟨_, (State.atHome_fresh hu ho).trans (by rw [hc]; rfl), ?_⟩
  dsimp only
  rw [hm, hl]
  by_cases h : s.mine c.head = true
  · simp [h]
  · simp [h]

theorem State.claimTxn_clause (s : State) (t : Txn) (tok epoch : BitVec 32) : let c : ClaimTxn := ⟨t, tok, epoch⟩
    exec (.claim c) s = .next (s.claimTxn c) ∧
    (s.nodeUp t.node = false → s.claimTxn c = s.answer t 5 []) ∧
    (∀ o, s.nodeUp t.node = true → s.outcome? t = some o → s.claimTxn c = s.answer t o.status o.data) ∧
    (s.nodeUp t.node = true → s.outcome? t = none → let pa := txnKey t
      let e := (s.recToken pa, s.recSteps pa)
      let free := s.recToken pa = tok.toNat ∧ lookupD s.holders pa t.src = t.src ∧ lookupD s.mgmt.epochs t.src 0 = epoch.toNat
      (free → ∃ u : State, s.claimTxn c = u.answer t 0 (natLe 4 e.1 ++ natLe 4 e.2) ∧ lookupD u.holders pa 1024 = t.src ∧ u.mem = s.mem ∧
        (s.mine t = false → u.conts = s.conts) ∧
        ∀ k, s.mine t = true → s.cont? pa = some k → k.state = .ready → k.isLocal = false → u.cont? pa = some (k.stamped e)) ∧
      (¬free → ∃ u : State, s.claimTxn c = u.answer t 5 [] ∧ u.holders = s.holders ∧ u.mem = s.mem ∧
        (s.mine t = false → u.conts = s.conts) ∧
        ∀ k, s.mine t = true → s.cont? pa = some k → k.state = .ready → k.isLocal = false → ∀ y ∈ u.conts, y.pa ≠ pa)) := by
  intro c
  refine ⟨rfl, State.atHome_down, fun o hu ho => State.atHome_again hu ho, fun hu ho => ⟨fun hf => ?_, fun hf => ?_⟩⟩
  · obtain ⟨v, hv, hh, hm, hmine, hother⟩ := State.claimTxn_leaves (c := c) hu ho (State.claimAt_free hf)
    refine ⟨v, hv, ?_, hm, hother, fun k h hk hr hl => ?_⟩
    · rw [hh]
      exact lookupD_insertAt_same ..
    · have e := (hmine h).trans (congrArg State.conts (State.claimAnswer_granted _ (k := k) hk hr hl))
      have hp : k.pa = txnKey t := State.cont?_pa hk
      exact State.cont?_of_enter (e.trans (State.setCont_conts ..)) hp
  · obtain ⟨v, hv, hh, hm, hmine, hother⟩ := State.claimTxn_leaves (c := c) hu ho (State.claimAt_held hf)
    refine ⟨v, hv, hh, hm, hother, fun k h hk hr hl y hy => ?_⟩
    rw [hmine h, State.claimAnswer_refused hk hr hl] at hy
    exact State.cont?_pa hk ▸ State.mem_dropCont hy

/-! ### Wakes (R29, R30, R38) -/

theorem State.wakeCont_suspended {pa : Nat} {k : Cont} (hk : s.cont? pa = some k) (hs : k.state = .suspended) : s.wakeCont pa =
    if 6 ≤ k.wkind.toNat then s.setCont { k with state := .faulted }
    else if s.wakeHolds k then
      let (s, j) := if k.wkind = 3 then s.joinWordOf k else (s, none)
      s.makeReady { k with cmbWake := false, joinw := j }
    else s.lookJoin k := by
  simp [State.wakeCont, hk, hs]

theorem State.wakes_clause (s : State) (pa : Nat) (k : Cont) (hk : s.cont? pa = some k) :
    (k.state ≠ .suspended → exec (.continuationWake pa) s = .next s) ∧
    (k.state = .suspended → 6 ≤ k.wkind.toNat → exec (.continuationWake pa) s = .next (s.setCont { k with state := .faulted })) ∧
    (k.state = .suspended → k.wkind.toNat < 6 → s.wakeHolds k = false →
      exec (.continuationWake pa) s = .next (s.lookJoin k) ∧ (k.wkind ≠ 3 → s.lookJoin k = s)) ∧
    (k.state = .suspended → k.wkind.toNat < 6 → s.wakeHolds k = true →
      (k.wkind = 3 → exec (.continuationWake pa) s = .next
        ((s.joinWordOf k).1.makeReady { k with cmbWake := false, joinw := (s.joinWordOf k).2 })) ∧
      (k.wkind ≠ 3 → exec (.continuationWake pa) s = .next (s.makeReady { k with cmbWake := false, joinw := none }))) ∧
    (k.state = .faulted → exec (.supervisorFree pa) s = .next (s.freeDone k true none)) ∧
    (k.state ≠ .faulted → exec (.supervisorFree pa) s = .next s) := by
  refine ⟨fun hs => ?_, fun hs hw => ?_, fun hs hw hh => ⟨?_, fun h3 => if_neg h3⟩, fun hs hw hh => ⟨fun h3 => ?_, fun h3 => ?_⟩,
    fun hs => ?_, fun hs => ?_⟩
  · exact congrArg Host.Outcome.next (by simp [State.wakeCont, hk, hs])
  · exact congrArg Host.Outcome.next (by rw [State.wakeCont_suspended hk hs, if_pos hw])
  · refine congrArg Host.Outcome.next ?_
    rw [State.wakeCont_suspended hk hs, if_neg (Nat.not_le.2 hw), if_neg (ne_true_of_eq_false hh)]
  · refine congrArg Host.Outcome.next ?_
    rw [State.wakeCont_suspended hk hs, if_neg (Nat.not_le.2 hw), if_pos hh, if_pos h3]
  · refine congrArg Host.Outcome.next ?_
    rw [State.wakeCont_suspended hk hs, if_neg (Nat.not_le.2 hw), if_pos hh, if_neg h3]
  · exact congrArg Host.Outcome.next (by simp [State.supervisorFree, hk, hs])
  · exact congrArg Host.Outcome.next (by simp [State.supervisorFree, hk, hs])

/-! ### The timer wheel (R39, R398) -/

/-- The release of one due entry. -/
def State.releaseEntry (s : State) (e : WheelEnt) : State :=
  match s.cont? e.crec with
  | some k => if k.state = .parked then s.makeReady k else s
  | none => s

theorem State.releaseEntry_wheel (s : State) (e : WheelEnt) : (s.releaseEntry e).wheel = s.wheel := by
  unfold State.releaseEntry
  split
  · split
    · exact (State.makeReady_memOnly s _).wheel
    · rfl
  · rfl

theorem State.slotBoundary_eq (s : State) : s.slotBoundary =
    let u := s.dueEntries.foldl State.releaseEntry { s with wheel := s.wheel.filter fun e => !s.dueEntries.contains e }
    if s.dueEntries.isEmpty then u else u.eventAll 1 := rfl

theorem State.slotBoundary_idle (h : s.dueEntries = []) : s.slotBoundary = s := by
  simp [State.slotBoundary_eq, h]

theorem State.slotBoundary_wheel (s : State) : s.slotBoundary.wheel = s.wheel.filter fun e => !s.dueEntries.contains e := by
  have hf : ∀ (l : List WheelEnt) (u : State), (l.foldl State.releaseEntry u).wheel = u.wheel := by
    intro l
    induction l with
    | nil => exact fun _ => rfl
    | cons e l ih => exact fun u => (ih _).trans (u.releaseEntry_wheel e)
  rw [State.slotBoundary_eq]
  dsimp only
  split
  · exact hf _ _
  · exact (State.eventAll_memOnly _ 1).wheel.trans (hf _ _)

theorem State.slotBoundary_clause (s : State) :
    ∃ t, exec .timerSlotBoundary s = .next t ∧ ∀ e ∈ t.wheel, e ∈ s.wheel ∧ e ∉ s.dueEntries := by
  refine ⟨_, rfl, fun e he => ?_⟩
  rw [State.slotBoundary_wheel] at he
  simpa using he

theorem State.overflowMove_eq (s : State) (pa : Nat) : s.overflowMove pa =
    { s with wheel := s.wheel.map fun (e : WheelEnt) => if e.crec = pa ∧ s.inWheel e.due = true then { e with slot := true } else e } := by
  simp only [State.overflowMove, Bool.and_eq_true, decide_eq_true_eq]

/-! ### Power gating (R392, R445) -/

theorem State.coreAt_putCore_same (s : State) (n : Nat) (c : Core) : (s.putCore n c).coreAt n = c := by
  unfold State.putCore
  split
  · next h => exact if_pos h
  · next h => exact (if_neg h).trans (lookupD_insertAt_same ..)

theorem State.coreAt_putCore_ne (s : State) {n m : Nat} (c : Core) (h : m ≠ n) : (s.putCore n c).coreAt m = s.coreAt m := by
  unfold State.putCore
  split
  · next hn =>
    have hm : ¬m = s.cid := hn ▸ h
    exact (if_neg hm).trans (if_neg hm).symm
  · simp only [State.coreAt, lookupD_insertAt_ne _ _ _ h]

/-- A group in a phase. -/
def State.setGroup (s : State) (g : Nat) (p : GroupPhase) : State := { s with groups := insertAt s.groups g p }

theorem State.setGroup_groupOf (s : State) (g : Nat) (p : GroupPhase) : (s.setGroup g p).groupOf g = p := lookupD_insertAt_same ..

theorem State.setGroup_coreAt (s : State) (g : Nat) (p : GroupPhase) (n : Nat) : (s.setGroup g p).coreAt n = s.coreAt n := rfl

/-- The first n cores of a group have what a function gives each of them. -/
theorem mapGroup_prefix (P : Core → Prop) {f : Core → Core} (hf : ∀ c, P (f c)) (g : Nat) (s : State) : ∀ n i, i < n →
    P (((List.range n).foldl (fun s i => s.putCore (16 * g + i) (f (s.coreAt (16 * g + i)))) s).coreAt (16 * g + i))
  | n + 1, i, hi => by
    rw [List.range_succ, List.foldl_append, List.foldl_cons, List.foldl_nil]
    by_cases h : i = n
    · rw [h, State.coreAt_putCore_same]
      exact hf _
    · rw [State.coreAt_putCore_ne _ _ (by omega)]
      exact mapGroup_prefix P hf g s n i (by omega)

theorem State.mapGroup_coreAt (P : Core → Prop) {f : Core → Core} (hf : ∀ c, P (f c)) (g : Nat) (s : State) {i : Nat} (hi : i < 16) :
    P ((s.mapGroup g f).coreAt (16 * g + i)) := mapGroup_prefix P hf g s 16 i hi

theorem State.gated_clause (s : State) (g : Nat) : (s.gateable g = false → exec (.groupGate g) s = .next s) ∧
    (s.gateable g = true → ∃ t, exec (.groupGate g) s = .next t ∧ t.groupOf g = .gated ∧ ∀ i, i < 16 →
      (t.coreAt (16 * g + i)).tile = [] ∧ (t.coreAt (16 * g + i)).wb = [] ∧ (t.coreAt (16 * g + i)).accs32 = []) := by
  refine ⟨fun h => congrArg Host.Outcome.next (if_neg (ne_true_of_eq_false h)), fun h => ?_⟩
  have e : s.groupGate g = (s.mapGroup g Core.unpowered).setGroup g .gated := by
    unfold State.groupGate
    rw [if_pos h]
    rfl
  refine ⟨(s.mapGroup g Core.unpowered).setGroup g .gated, congrArg Host.Outcome.next e, State.setGroup_groupOf .., fun i hi => ?_⟩
  rw [State.setGroup_coreAt]
  exact State.mapGroup_coreAt (fun c => c.tile = [] ∧ c.wb = [] ∧ c.accs32 = []) (fun c => ⟨rfl, rfl, rfl⟩) g s hi

theorem State.woken_clause (s : State) (g : Nat) (due : BitVec 64) (hg : s.groupOf g = .waking due) :
    (s.ftime.toNat < due.toNat → exec (.groupWakeDone g) s = .next s) ∧
    (due.toNat ≤ s.ftime.toNat → ∃ t, exec (.groupWakeDone g) s = .next t ∧ t.groupOf g = .awake) := by
  refine ⟨fun h => congrArg Host.Outcome.next ?_, fun h => ⟨(s.mapGroup g fun c => { c with idleAt := s.ftime }).setGroup g .awake,
    congrArg Host.Outcome.next ?_, State.setGroup_groupOf ..⟩⟩
  · simp only [State.groupWakeDone, hg, if_neg (Nat.not_le.2 h)]
  · simp only [State.groupWakeDone, hg, if_pos h]
    rfl

/-! ### Spills (R111) -/

theorem State.mapBillet_nums (s : State) (log : BitVec 32) (seg : Nat) (f : Billet → Billet) :
    (s.mapBillet log seg f).logs.map (·.num) = s.logs.map (·.num) := by
  simp only [State.mapBillet, List.map_map]
  refine List.map_congr_left fun g _ => ?_
  simp only [Function.comp]
  split <;> rfl

/-- The billet of a segment after a function that keeps segments has been applied to it. -/
theorem State.mapBillet_billet? (s : State) (log : BitVec 32) (seg : Nat) {f : Billet → Billet} (hf : ∀ b, (f b).seg = b.seg) :
    (s.mapBillet log seg f).billet? log seg = (s.billet? log seg).map f := by
  have hl : (s.mapBillet log seg f).log? log =
      (s.log? log).map fun g => { g with bills := g.bills.map fun b => if b.seg = seg then f b else b } := by
    simp only [State.log?, State.mapBillet]
    induction s.logs with
    | nil => rfl
    | cons g l ih => by_cases h : g.num = log <;> simp [h, ih]
  simp only [State.billet?, hl]
  cases s.log? log with
  | none => rfl
  | some g =>
    simp only [Option.map_some, Option.bind_some]
    induction g.bills with
    | nil => rfl
    | cons b l ih => by_cases h : b.seg = seg <;> simp [h, hf, ih]

theorem State.writeBillet_memOnly (s : State) (log : BitVec 32) (b : Billet) : MemOnly s (s.writeBillet log b) := by
  unfold State.writeBillet
  split
  · exact s.devStore_memOnly ..
  · exact .refl s

theorem MemOnly.billet? (h : MemOnly s t) (log : BitVec 32) (seg : Nat) : t.billet? log seg = s.billet? log seg := by
  simp only [State.billet?, h.log?]

theorem State.spill_due {log : BitVec 32} {seg : Nat} {b : Billet} (hb : s.billet? log seg = some b) (hs : b.spilled = false)
    (hc : b.closed = true ∨ b.isSealed = true) :
    s.spill log seg = (s.writeBillet log b).mapBillet log seg fun b => { b with spilled := true } := by
  have h : ((b.closed || b.isSealed) && !b.spilled) = true := by simpa [hs] using hc
  simp only [State.spill, hb, h, if_true]

theorem State.spill_not {log : BitVec 32} {seg : Nat} {b : Billet} (hb : s.billet? log seg = some b)
    (h : b.spilled = true ∨ b.closed = false ∧ b.isSealed = false) : s.spill log seg = s := by
  have h' : ((b.closed || b.isSealed) && !b.spilled) = false := by
    rcases h with h | ⟨h1, h2⟩
    · simp [h]
    · simp [h1, h2]
  simp only [State.spill, hb, h', Bool.false_eq_true, if_false]

theorem Billet.spillable (b : Billet) : (b.spilled = true ∨ b.closed = false ∧ b.isSealed = false) ∨
    b.spilled = false ∧ (b.closed = true ∨ b.isSealed = true) := by
  cases b.spilled <;> cases b.closed <;> cases b.isSealed <;> decide

theorem State.spill_clause (s : State) (log : BitVec 32) (seg : Nat) : let t := s.spill log seg
    t.logs.map (·.num) = s.logs.map (·.num) ∧
    (∀ b, t.billet? log seg = some b → b.closed = true ∨ b.isSealed = true → b.spilled = true) ∧
    ∀ b, s.billet? log seg = some b → (b.spilled = true ∨ b.closed = false ∧ b.isSealed = false → t = s) ∧
      (b.spilled = false → b.closed = true ∨ b.isSealed = true → t.mem = (s.writeBillet log b).mem) := by
  intro t
  cases hb : s.billet? log seg with
  | none =>
    have ht : t = s := by simp only [t, State.spill, hb]
    rw [ht, hb]
    exact ⟨rfl, fun b h => (Option.some_ne_none b h.symm).elim, fun b h => (Option.some_ne_none b h.symm).elim⟩
  | some b =>
    rcases b.spillable with hn | ⟨hs, hc⟩
    · have ht : t = s := State.spill_not hb hn
      rw [ht, hb]
      refine ⟨rfl, fun b' h hc => ?_, fun b' h => ⟨fun _ => rfl, fun hs hc => ?_⟩⟩ <;> cases h
      · exact hn.resolve_right fun hn => by simp [hn] at hc
      · exact (hn.elim (by simp [hs]) fun hn => by simp [hn] at hc)
    · have ht : t = _ := State.spill_due hb hs hc
      have hw := s.writeBillet_memOnly log b
      refine ⟨?_, fun b' h _ => ?_, fun b' h => ⟨fun hn => ?_, fun _ _ => ?_⟩⟩
      · rw [ht, State.mapBillet_nums, hw.logs]
      · rw [ht, State.mapBillet_billet? _ _ _ (f := fun b => { b with spilled := true }) (fun _ => rfl), hw.billet?, hb] at h
        cases h
        rfl
      · cases h
        exact State.spill_not hb hn
      · cases h
        rw [ht]
        rfl

/-! ### Leases by time (R104, R106) -/

/-- A transaction sent stands at a port and takes a sequence number; nothing else changes. -/
theorem State.send_eq (s : State) (op n a : Nat) (bs : List Byte) : ∃ q p, s.send op n a bs = { s with txseq := q, ports := p } := by
  have toPort : ∀ (u : State) (bs : List Byte), ∃ p, u.toPort n bs = { u with ports := p } := by
    intro u bs
    unfold State.toPort
    dsimp only
    split
    · exact ⟨_, rfl⟩
    · exact ⟨_, rfl⟩
  unfold State.send
  dsimp only
  split
  · obtain ⟨p, hp⟩ := toPort { s with txseq := insertAt s.txseq n ((lookupD s.txseq n 0 + 1) % 2 ^ 32) }
      (txnHeader op n s.podpos.toNat (lookupD s.txseq n 0) a ++ bs)
    exact ⟨_, p, hp⟩
  · obtain ⟨p, hp⟩ := toPort s (txnHeader op n s.podpos.toNat 0 a ++ bs)
    exact ⟨_, p, hp⟩

theorem State.mem_loseLease {x : Lease} {page : Nat} (h : x ∈ (s.loseLease page).leases) : x.page ≠ page := by
  have h' := (List.mem_filter.1 h).2
  simpa using h'

theorem State.renewLease_granted {l : Lease} (h : s.renews l.page s.podpos.toNat l.grant = true) : (s.renewLease l).leases =
    s.leases.map fun (x : Lease) => if x.page = l.page then { x with grant := s.ftime, used := false, lapse := false } else x := by
  obtain ⟨q, p, e⟩ := s.send_eq 0x04 (poolNode (l.page * 65536)) (paOf (l.page * 65536)) (natLe 8 l.grant.toNat)
  unfold State.renewLease
  simp only [e]
  exact congrArg State.leases (if_pos h)

theorem State.renewLease_refused {l : Lease} (h : s.renews l.page s.podpos.toNat l.grant = false) :
    ∃ u : State, s.renewLease l = u.loseLease l.page := by
  obtain ⟨q, p, e⟩ := s.send_eq 0x04 (poolNode (l.page * 65536)) (paOf (l.page * 65536)) (natLe 8 l.grant.toNat)
  unfold State.renewLease
  simp only [e]
  exact ⟨_, if_neg (ne_true_of_eq_false h)⟩

theorem State.leases_clause (s : State) (page : Nat) (l : Lease) (hl : (s.leases.find? fun l => l.page = page) = some l) :
    (s.renewDue l = false → exec (.leaseRenewal page) s = .next s) ∧
    (s.renewDue l = true → s.renewWanted l = true → exec (.leaseRenewal page) s = .next (s.renewLease l)) ∧
    (s.renewDue l = true → s.renewWanted l = false → ∃ t, exec (.leaseRenewal page) s = .next t ∧ t.mem = s.mem ∧
      (∀ x ∈ t.leases, x.page = page → x.lapse = true) ∧ t.leases.map (·.page) = s.leases.map (·.page)) ∧
    (s.renewDue l = true ↔ l.served s.ftime = true ∧ l.lapse = false ∧ l.grant.toNat + 2000000 ≤ s.ftime.toNat) ∧
    (s.renews page s.podpos.toNat l.grant = true → ∀ x ∈ (s.renewLease l).leases, x.page = page → x.grant = s.ftime) ∧
    (s.renews page s.podpos.toNat l.grant = false → ∀ x ∈ (s.renewLease l).leases, x.page ≠ page) ∧
    (l.served s.ftime = true → exec (.leaseExpiry page) s = .next s) ∧
    (l.served s.ftime = false → exec (.leaseExpiry page) s = .next (s.loseLease page)) ∧
    (∀ x ∈ (s.loseLease page).leases, x.page ≠ page) ∧ (l.served s.ftime = true ↔ s.ftime.toNat < l.grant.toNat + 3990000) := by
  have hp : l.page = page := by simpa using List.find?_some hl
  subst hp
  refine ⟨fun hd => ?_, fun hd hw => ?_, fun hd hw => ?_, by simp [State.renewDue, and_assoc], fun h x hx he => ?_, fun h x hx => ?_,
    fun h => ?_, fun h => ?_, fun x => State.mem_loseLease, by simp [Lease.served]⟩
  · exact congrArg Host.Outcome.next (by simp [State.leaseRenewal, hl, hd])
  · exact congrArg Host.Outcome.next (by simp [State.leaseRenewal, hl, hd, hw])
  · have e : s.leaseRenewal l.page =
        { s with leases := s.leases.map fun (x : Lease) => if x.page = l.page then { x with lapse := true } else x } := by
      simp [State.leaseRenewal, hl, hd, hw]
    refine ⟨_, congrArg Host.Outcome.next e, rfl, fun x hx he => ?_, ?_⟩
    · obtain ⟨y, -, rfl⟩ := List.mem_map.1 hx
      split at he <;> simp_all
    · rw [List.map_map]
      refine List.map_congr_left fun y _ => ?_
      simp only [Function.comp]
      split <;> rfl
  · rw [State.renewLease_granted h] at hx
    obtain ⟨y, -, rfl⟩ := List.mem_map.1 hx
    split at he <;> simp_all
  · obtain ⟨u, hu⟩ := State.renewLease_refused h
    exact State.mem_loseLease (hu ▸ hx)
  · exact congrArg Host.Outcome.next (by simp [State.leaseExpiry, hl, h])
  · exact congrArg Host.Outcome.next (by simp [State.leaseExpiry, hl, h])

/-! ### The statement -/

/-- Settles O55: a lemma on each family of events. -/
theorem schedulerEvents : Obligations.SchedulerEvents := by
  unfold Obligations.SchedulerEvents
  refine ⟨hostLaunch_clause, launchCode_clause, jobs_clause, State.chunkSize_spec, ?_, State.dealFrom_succ, State.newCont_spec, ?_,
    fun pt inside f p m q => nthPoint_spec pt inside f p m q, ?_, by decide, fun nd nf ec => complWord_fields, State.dispatchOne_clause,
    State.startHead_clause, State.claimed_clause, State.dispatchFault_clause, State.claimTxn_clause, State.wakes_clause, ?_,
    State.slotBoundary_clause, ?_, State.gated_clause, State.woken_clause, ?_, State.leases_clause⟩
  · exact fun s j card n => ⟨State.dealFrom_le .., rfl⟩
  · exact fun card b i _ hi => cardGroupAt_orders card b i hi
  · exact fun m i h => ⟨evenBits_testBit 32 m i h, (evenBits_testBit 32 _ i h).trans (Nat.testBit_succ ..).symm⟩
  · exact fun s h => congrArg Host.Outcome.next (State.slotBoundary_idle h)
  · exact fun s pa => congrArg Host.Outcome.next (s.overflowMove_eq pa)
  · exact fun s log seg => ⟨rfl, _, rfl, s.spill_clause _ seg⟩

end Sys2Proof.Machine
end

section
/-!
SUPPORT. Homes of pool memory: what an atomic of the device leaves of bytes and keys (R102, R121), and the outcomes that a home keeps
(R422, R423).
-/

namespace Sys2Proof.Machine

variable {s t u : State}

/-! ### Keys left alone -/

@[simp] theorem State.putCore_keys (s : State) (n : Nat) (c : Core) : (s.putCore n c).keys = s.keys := by
  unfold State.putCore
  split <;> rfl

@[simp] theorem State.eventDcc_keys (s : State) (d b : Nat) : (s.eventDcc d b).keys = s.keys := State.putCore_keys ..

@[simp] theorem State.eventAll_keys (s : State) (b : Nat) : (s.eventAll b).keys = s.keys :=
  foldl_keeps (fun (t : State) => t.keys = s.keys) _ _ _ rfl fun t d ht => (State.eventDcc_keys t d b).trans ht

@[simp] theorem State.ashWrite_keys (s : State) (r : Nat) (bs : List Byte) : (s.ashWrite r bs).keys = s.keys := by
  unfold State.ashWrite
  dsimp only
  repeat' split
  all_goals simp

@[simp] theorem State.poisonLine_keys (s : State) (l : Nat) : (s.poisonLine l).keys = s.keys := by
  unfold State.poisonLine
  split <;> rfl

@[simp] theorem State.beginSparing_keys (s : State) (k b r : Nat) : (s.beginSparing k b r).keys = s.keys := by
  unfold State.beginSparing
  split <;> rfl

@[simp] theorem State.foundBad_keys (s : State) (l : Nat) : (s.foundBad l).keys = s.keys := by
  unfold State.foundBad State.ashNote
  simp

@[simp] theorem State.coverPoison_keys (s : State) (a n : Nat) : (s.coverPoison a n).keys = s.keys := by
  unfold State.coverPoison State.detect
  dsimp only
  split
  · rfl
  · refine foldl_keeps (fun (t : State) => t.keys = s.keys) _ _ _ rfl fun t l ht => ?_
    split
    · exact (State.foundBad_keys t l).trans ht
    · exact ht

@[simp] theorem State.fireWatches_keys (s : State) : s.fireWatches.keys = s.keys := by
  unfold State.fireWatches
  dsimp only
  split
  · rfl
  · refine foldl_keeps (fun (t : State) => t.keys = s.keys) _ _ _ rfl fun t w ht => ?_
    split
    · exact ht
    · rw [State.putCore_keys]
      exact ht

/-! ### Merges of a write that is the newest of its bytes -/

theorem mergeByte_newest {m : Mem} {ks : List (Nat × Key)} {a : Nat} {b : Byte} {k : Key} (h : k.higher (keyAt ks a) = true) :
    mergeByte m ks a b k = (m.put a b, insertAt ks a k) := if_pos h

theorem keyAt_mergeByte_ne (m : Mem) (ks : List (Nat × Key)) {a c : Nat} (b : Byte) (k : Key) (h : c ≠ a) :
    keyAt (mergeByte m ks a b k).2 c = keyAt ks c := by
  unfold mergeByte
  split
  · exact lookupD_insertAt_ne ks k Key.zero h
  · rfl

/-- A merge stores the bytes when its key is higher than the key of each of them. -/
theorem mergeBytes_newest {k : Key} : ∀ {bs : List Byte} {m : Mem} {ks : List (Nat × Key)} {a : Nat},
    (∀ i, i < bs.length → k.higher (keyAt ks (a + i)) = true) → (mergeBytes m ks a bs k).1 = m.store a bs
  | [], _, _, _, _ => rfl
  | b :: bs, m, ks, a, h => by
    have h0 : k.higher (keyAt ks a) = true := h 0 (Nat.succ_pos _)
    rw [mergeBytes, Mem.store, mergeByte_newest h0]
    refine mergeBytes_newest fun i hi => ?_
    have hk := h (i + 1) (Nat.succ_lt_succ hi)
    have hne : a + 1 + i ≠ a := by omega
    rw [keyAt, lookupD_insertAt_ne _ _ _ hne, show a + 1 + i = a + (i + 1) by omega]
    exact hk

theorem keyAt_mergeBytes_outside {k : Key} {c : Nat} : ∀ {bs : List Byte} {m : Mem} {ks : List (Nat × Key)} {a : Nat},
    c < a ∨ a + bs.length ≤ c → keyAt (mergeBytes m ks a bs k).2 c = keyAt ks c
  | [], _, _, _, _ => rfl
  | b :: bs, m, ks, a, h => by
    rw [List.length_cons] at h
    rw [mergeBytes]
    exact (keyAt_mergeBytes_outside (by omega)).trans (keyAt_mergeByte_ne m ks b k (by omega))

/-- An atomic of the device on bytes outside local HBM that wins on each of them stores them. -/
theorem State.devAtomic_mem {a : Nat} {bs : List Byte} (ha : spaceOf a ≠ 0) (hw : s.keyWins a bs.length) :
    (s.devAtomic a bs).mem = s.mem.store a bs := by
  unfold State.devAtomic State.homeMerge
  simp only [ha, Bool.false_eq_true, if_false, State.fireWatches_mem, State.coverPoison_mem, State.coverPoison_keys]
  exact mergeBytes_newest hw

theorem State.devAtomic_keyAt {a c : Nat} {bs : List Byte} (ha : spaceOf a ≠ 0) (hc : c < a ∨ a + bs.length ≤ c) :
    keyAt (s.devAtomic a bs).keys c = keyAt s.keys c := by
  unfold State.devAtomic State.homeMerge
  simp only [ha, Bool.false_eq_true, if_false, State.fireWatches_keys, State.coverPoison_mem, State.coverPoison_keys]
  exact keyAt_mergeBytes_outside hc

theorem State.atomKey_congr {a n : Nat} (hf : t.ftime = s.ftime) (hk : ∀ i, i < n → keyAt t.keys (a + i) = keyAt s.keys (a + i)) :
    t.atomKey a n = s.atomKey a n := by
  have h : ∀ (l : List Nat) (m : Key), (∀ i ∈ l, i < n) →
      l.foldl (fun m i => if (keyAt t.keys (a + i)).higher m then keyAt t.keys (a + i) else m) m =
      l.foldl (fun m i => if (keyAt s.keys (a + i)).higher m then keyAt s.keys (a + i) else m) m := by
    intro l
    induction l with
    | nil => exact fun _ _ => rfl
    | cons i l ih =>
      intro m hl
      rw [List.foldl_cons, List.foldl_cons, hk i (hl i (List.mem_cons_self ..))]
      exact ih _ fun j hj => hl j (List.mem_cons_of_mem _ hj)
  unfold State.atomKey
  rw [hf, h _ _ fun i hi => List.mem_range.1 hi]

/-- An atomic on other bytes leaves it so that the next one wins. -/
theorem State.devAtomic_keyWins {a c n : Nat} {bs : List Byte} (ha : spaceOf a ≠ 0) (hc : c + n ≤ a ∨ a + bs.length ≤ c)
    (hw : s.keyWins c n) : (s.devAtomic a bs).keyWins c n := by
  have hk : ∀ i, i < n → keyAt (s.devAtomic a bs).keys (c + i) = keyAt s.keys (c + i) :=
    fun i hi => State.devAtomic_keyAt ha (by omega)
  intro i hi
  rw [hk i hi, State.atomKey_congr (s.devAtomic_memOnly a bs).ftime hk]
  exact hw i hi

/-! ### Elements -/

/-- Each element of a combination is that of the two operands. -/
theorem bytesNat_combine (f : Nat → Nat → Nat) (b : Nat) : ∀ (n i : Nat) (old new : List Byte), i < n →
    bytesNat (combine f b n old new) (i * b) b = f (bytesNat old (i * b) b) (bytesNat new (i * b) b) % 2 ^ (8 * b)
  | n + 1, 0, old, new, _ => by
    have h : ((combine f b (n + 1) old new).drop (0 * b)).take b = natLe b (f (leNat (old.take b)) (leNat (new.take b))) := by
      rw [Nat.zero_mul, List.drop_zero, combine, List.take_left' (length_natLe ..)]
    rw [bytesNat, h, leNat_natLe]
    simp only [bytesNat, Nat.zero_mul, List.drop_zero]
  | n + 1, i + 1, old, new, h => by
    have e : (i + 1) * b = b + i * b := by rw [Nat.add_mul, Nat.one_mul, Nat.add_comm]
    have hd : (combine f b (n + 1) old new).drop (b + i * b) = (combine f b n (old.drop b) (new.drop b)).drop (i * b) := by
      rw [combine, ← List.drop_drop, List.drop_left' (length_natLe ..)]
    have ih := bytesNat_combine f b n i (old.drop b) (new.drop b) (by omega)
    simp only [bytesNat, List.drop_drop] at ih ⊢
    rw [e, hd, ih]

/-! ### Answers and outcomes (R422, R423) -/

/-- A home with the outcome of a transaction kept. -/
def State.recorded (s : State) (tx : Txn) (st : Nat) (bs : List Byte) : State :=
  { s with outs := keepOutcome s.outs ⟨tx.src, tx.node, tx.tseq, st, bs⟩ }

@[simp] theorem State.recorded_mem (s : State) (tx : Txn) (st : Nat) (bs : List Byte) : (s.recorded tx st bs).mem = s.mem := rfl
theorem State.once_fresh {tx : Txn} {f : State → State × Nat × List Byte} (ho : s.outcome? tx = none) :
    s.once tx f = (f s).1.settled tx (f s).2.1 (f s).2.2 := by
  simp only [State.once, ho]

theorem State.once_again {tx : Txn} {f : State → State × Nat × List Byte} {o : Outc} (ho : s.outcome? tx = some o) :
    s.once tx f = s.answer tx o.status o.data := by
  simp only [State.once, ho]

section
variable {tx : Txn} {down st : Nat} {rs : List (Nat × Nat)} {own : Bool} {held : Accepted} {f : State → State}

theorem State.applyWrite_down (hu : s.nodeUp tx.node = false) : s.applyWrite tx down st rs own held f = s.answer tx down [] := by
  simp only [State.applyWrite, hu, Bool.not_false, if_true]

theorem State.applyWrite_again {o : Outc} (hu : s.nodeUp tx.node = true) (ho : s.outcome? tx = some o) :
    s.applyWrite tx down st rs own held f = s.answer tx o.status o.data := by
  simp only [State.applyWrite, hu, Bool.not_true, Bool.false_eq_true, if_false, ho]

theorem State.applyWrite_refused (hu : s.nodeUp tx.node = true) (ho : s.outcome? tx = none) (hs : st ≠ 0) :
    s.applyWrite tx down st rs own held f = s.settled tx st [] := by
  simp only [State.applyWrite, hu, Bool.not_true, Bool.false_eq_true, if_false, ho, bne_iff_ne.2 hs, if_true]

theorem State.applyWrite_done (hu : s.nodeUp tx.node = true) (ho : s.outcome? tx = none) (hr : (s.recallPages (poolPages rs) own).2 = true) :
    s.applyWrite tx down 0 rs own held f = (f (s.recallPages (poolPages rs) own).1).settled tx 0 [] := by
  obtain ⟨v, w, e⟩ : ∃ v w, s.recallPages (poolPages rs) own = (v, w) := ⟨_, _, rfl⟩
  rw [e] at hr ⊢
  dsimp only at hr
  subst hr
  simp [State.applyWrite, hu, ho, e]

theorem State.applyWrite_held (hu : s.nodeUp tx.node = true) (ho : s.outcome? tx = none) (hr : (s.recallPages (poolPages rs) own).2 = false) :
    s.applyWrite tx down 0 rs own held f = (s.recallPages (poolPages rs) own).1.keepHeld held := by
  obtain ⟨v, w, e⟩ : ∃ v w, s.recallPages (poolPages rs) own = (v, w) := ⟨_, _, rfl⟩
  rw [e] at hr ⊢
  dsimp only at hr
  subst hr
  simp [State.applyWrite, hu, ho, e]

end

theorem spaceOf_keyOf (sp : Nat) {a : Nat} (h : a < 2 ^ 64) : spaceOf (keyOf sp a) = sp := by
  unfold spaceOf keyOf
  omega

/-- A write in place at a pool node that answers. -/
theorem State.homePut_pool {a : Nat} {bs : List Byte} (ha : spaceOf a = 1) (hu : s.nodeUp (poolNode a) = true) :
    (s.homePut a bs).1.mem = s.mem.store a bs := by
  simp only [State.homePut, ha, hu, if_true, State.updateCopies_mem, State.coverPoison_mem]

end Sys2Proof.Machine
end

section
/-!
SUPPORT. Transactions at pool homes, and agents that do not answer (R41, R104 to R106, R119, R422 to R428): what each event leaves.
-/

namespace Sys2Proof.Machine

variable {s t u : State}

/-! ### Reads -/

theorem State.poolData_down {tx : Txn} (hu : s.nodeUp tx.node = false) (a n : Nat) : s.poolData tx a n = (s, 15, []) := by
  simp only [State.poolData, hu, Bool.not_false, if_true]
  rfl

theorem State.poolData_up {tx : Txn} (hu : s.nodeUp tx.node = true) (a n : Nat) : s.poolData tx a n =
    if (s.homeRead a n).2.any (·.2) then ((s.homeRead a n).1, 15, []) else ((s.homeRead a n).1, 0, (s.homeRead a n).2.map (·.1)) := by
  simp only [State.poolData, hu, Bool.not_true, Bool.false_eq_true, if_false]
  rfl

theorem reads_clause (s : State) (tx : Txn) (n : Nat) :
    (readOk tx.addr n = false → exec (.read tx n) s = .next (s.answer tx 5 [])) ∧
    (readOk tx.addr n = true → s.nodeUp tx.node = false → exec (.read tx n) s = .next (s.answer tx 15 [])) ∧
    (readOk tx.addr n = true → s.nodeUp tx.node = true → let r := s.homeRead (txnKey tx) n
      exec (.read tx n) s = .next (if r.2.any (·.2) then r.1.answer tx 15 [] else r.1.answer tx 0 (r.2.map (·.1)))) ∧
    let p := s.bulkPieces tx (txnKey tx) 256 (min n (2 ^ 20))
    exec (.bulkGet tx n) s = .next (p.1.answer tx 0 p.2) := by
  refine ⟨fun h => congrArg Host.Outcome.next (if_neg (ne_true_of_eq_false h)), fun h hu => congrArg Host.Outcome.next ?_,
    fun h hu => congrArg Host.Outcome.next ?_, rfl⟩
  · rw [if_pos h, State.poolData_down hu]
  · rw [if_pos h, State.poolData_up hu]
    by_cases hp : (s.homeRead (txnKey tx) n).2.any (·.2) = true
    · rw [if_pos hp, if_pos hp]
    · rw [if_neg hp, if_neg hp]

theorem readOk_iff (a n : Nat) : readOk a n = true ↔ 64 ≤ n ∧ n ≤ 4096 ∧ n % 64 = 0 ∧ a % 64 = 0 := by
  simp [readOk, and_assoc]

theorem State.bulkPieces_succ (s : State) (tx : Txn) (a f n : Nat) (h : 0 < n) : let p := s.poolData tx a (min n 4096)
    let q := p.1.bulkPieces tx (a + min n 4096) f (n - min n 4096)
    s.bulkPieces tx a (f + 1) n = (q.1, BitVec.ofNat 8 p.2.1 :: p.2.2 ++ q.2) := if_neg (Nat.ne_of_gt h)

/-! ### Leases at the wire (R105, R106, R425) -/

theorem State.renews_iff (s : State) (page pos : Nat) (g : BitVec 64) : s.renews page pos g = true ↔
    s.nodeUp (poolNode (page * 65536)) = true ∧ s.recallOn page = false ∧
      ∃ h ∈ s.hleases, h.page = page ∧ h.pos = pos ∧ h.grant = g ∧ s.ftime.toNat < g.toNat + 4010000 := by
  simp only [State.renews, HomeLease.live, Bool.and_eq_true, Bool.not_eq_true', List.any_eq_true, decide_eq_true_eq, and_assoc]
  refine and_congr_right fun _ => and_congr_right fun _ => exists_congr fun h => ?_
  refine and_congr_right fun _ => and_congr_right fun _ => and_congr_right fun _ => and_congr_right fun e => ?_
  rw [e]

theorem State.leaseAcquire_refused {tx : Txn} (h : s.nodeUp tx.node = false ∨ s.recallOn (leasePage (txnKey tx)) = true) :
    s.leaseAcquire tx = (if s.mine tx then s.loseLease (leasePage (txnKey tx)) else s).answer tx 5 [] :=
  if_pos (by simpa using h)

theorem State.leaseAcquire_granted {tx : Txn} (hu : s.nodeUp tx.node = true) (hr : s.recallOn (leasePage (txnKey tx)) = false) :
    s.leaseAcquire tx = ((if s.mine tx then s.takeGrant (leasePage (txnKey tx)) else s).grant (leasePage (txnKey tx)) tx.src).grantAnswer tx
      (leasePage (txnKey tx)) :=
  if_neg (by simp [hu, hr])

theorem State.leaseRelease_gone {tx : Txn} (hu : s.nodeUp tx.node = true) :
    ∀ h ∈ (s.leaseRelease tx).hleases, ¬(h.page = leasePage (txnKey tx) ∧ h.pos = tx.src) := by
  have hu' : (if s.mine tx then s.loseLease (leasePage (txnKey tx)) else s).nodeUp tx.node = true := by
    split
    · rw [(s.loseLease_memOnly _).nodeUp, hu]
    · exact hu
  rintro h hm ⟨hp, hs⟩
  simp only [State.leaseRelease, hu', if_true] at hm
  have hf := (List.mem_filter.1 hm).2
  simp [hp, hs] at hf

theorem leases_wire_clause (s : State) (tx : Txn) (g : BitVec 64) : let page := leasePage (txnKey tx)
    exec (.leaseAcquire tx) s = .next (s.leaseAcquire tx) ∧ exec (.leaseRenew tx g) s = .next (s.leaseRenew tx g) ∧
    exec (.leaseRelease tx) s = .next (s.leaseRelease tx) ∧ exec (.leaseRecall tx) s = .next (s.recall tx) ∧
    (s.nodeUp tx.node = false ∨ s.recallOn page = true →
      s.leaseAcquire tx = (if s.mine tx then s.loseLease page else s).answer tx 5 []) ∧
    (s.nodeUp tx.node = true → s.recallOn page = false →
      s.leaseAcquire tx = ((if s.mine tx then s.takeGrant page else s).grant page tx.src).grantAnswer tx page) ∧
    (s.renews page tx.src g = true ↔ s.nodeUp (poolNode (page * 65536)) = true ∧ s.recallOn page = false ∧
      ∃ h ∈ s.hleases, h.page = page ∧ h.pos = tx.src ∧ h.grant = g ∧ s.ftime.toNat < g.toNat + 4010000) ∧
    (s.renews page tx.src g = false → s.leaseRenew tx g = (if s.mine tx then s.loseLease page else s).answer tx 5 []) ∧
    (s.mine tx = false → s.renews page tx.src g = true → s.leaseRenew tx g = (s.grant page tx.src).answer tx 0 (natLe 8 s.ftime.toNat)) ∧
    (s.nodeUp tx.node = true → ∀ h ∈ (s.leaseRelease tx).hleases, ¬(h.page = page ∧ h.pos = tx.src)) ∧
    (∀ l ∈ (s.recall tx).leases, l.page ≠ page) ∧ ∃ h ∈ (s.grant page tx.src).hleases, h = ⟨page, tx.src, s.ftime⟩ := by
  refine ⟨rfl, rfl, rfl, rfl, State.leaseAcquire_refused, State.leaseAcquire_granted, State.renews_iff .., fun h => ?_, fun hm h => ?_,
    State.leaseRelease_gone, fun l hl => State.mem_loseLease hl, _, List.mem_cons_self .., rfl⟩
  · exact if_neg (ne_true_of_eq_false h)
  · have hm' : (s.grant (leasePage (txnKey tx)) tx.src).mine tx = false := hm
    simp only [State.leaseRenew, h, if_true, hm', Bool.false_eq_true, if_false]

/-! ### Atomics, reductions and writes in place (R105, R211, R213) -/

theorem atomics_clause (s : State) (tx : Txn) (op : AtKind) (w64 sgn : Bool) (a b : Word) :
    exec (.atomic tx op w64 sgn a b) s = .next (s.poolAtomic tx op w64 sgn a b) ∧
    ∀ u old, let n := if w64 then 8 else 4
      s.nodeUp tx.node = true → s.outcome? tx = none →
      s.homeNat (txnKey tx) n = (u, some old) → ∃ v : State, s.poolAtomic tx op w64 sgn a b = v.answer tx 0 (natLe n old) ∧
        v.mem = (match atomNew op (8 * n) sgn old a.toNat b.toNat with
          | some new => u.homeModify tx (txnKey tx) (natLe n new)
          | none => u).mem := by
  refine ⟨rfl, ?_⟩
  intro u old n hu ho hn
  cases hop : atomNew op (8 * n) sgn old a.toNat b.toNat with
  | none =>
    refine ⟨u.recorded tx 0 (natLe n old), (State.atHome_fresh hu ho).trans ?_, rfl⟩
    simp only [n] at hn hop
    simp only [hn, hop]
    rfl
  | some new =>
    refine ⟨(u.homeModify tx (txnKey tx) (natLe n new)).recorded tx 0 (natLe n old), (State.atHome_fresh hu ho).trans ?_, rfl⟩
    simp only [n] at hn hop
    simp only [hn, hop]
    rfl

theorem reductions_clause (s : State) (tx : Txn) (op : RedKind) (ety : EType) (bs : List Byte) :
    exec (.reduction tx op ety bs) s = .next (s.poolReduce tx op ety bs) ∧
    (s.nodeUp tx.node = false → s.poolReduce tx op ety bs = s.answer tx 15 []) ∧
    ∀ u old, s.nodeUp tx.node = true → s.outcome? tx = none → s.homeRead (txnKey tx) bs.length = (u, old) →
      (old.any (·.2) = true → ∃ v : State, s.poolReduce tx op ety bs = v.answer tx 15 [] ∧ v.mem = u.mem) ∧
      (old.any (·.2) = false → ∃ v : State, s.poolReduce tx op ety bs = v.answer tx 0 [] ∧ let b := elemBytes ety
        v.mem = (u.homeModify tx (txnKey tx) (combine (credNew op ety) b (bs.length / b) (old.map (·.1)) bs)).mem) := by
  refine ⟨rfl, State.atHome_down, fun u old hu ho hr => ⟨fun hp => ⟨u.recorded tx 15 [], ?_, rfl⟩, fun hp => ?_⟩⟩
  · refine (State.atHome_fresh hu ho).trans ?_
    simp only [hr, hp, if_true]
    rfl
  · refine ⟨(u.homeModify tx (txnKey tx) _).recorded tx 0 [], (State.atHome_fresh hu ho).trans ?_, rfl⟩
    simp only [hr, hp, Bool.false_eq_true, if_false]
    rfl

theorem State.devAtomic_get (s : State) (a : Nat) (bs : List Byte) (i : Nat) (w : s.memWf) (ha : spaceOf a = 1) (hw : s.keyWins a bs.length)
    (hi : i < bs.length) : (s.devAtomic a bs).mem.get (a + i) = bs.getD i 0 := by
  rw [State.devAtomic_mem (by omega) hw, Mem.get_store a bs _ w, if_pos (by omega), Nat.add_sub_cancel_left]

theorem poolWrite_clause (s : State) (tx : Txn) (bs : List Byte) : exec (.inPlaceWrite tx bs) s = .next (s.poolWrite tx bs) ∧
    (s.nodeUp tx.node = true → s.outcome? tx = none → poolNode (txnKey tx) = tx.node → tx.addr < 2 ^ 64 →
      let r := s.recallPages (poolPages [(txnKey tx, bs.length)]) (!s.mine tx)
      (r.2 = true → ∃ v : State, s.poolWrite tx bs = v.answer tx 0 [] ∧ v.mem = r.1.mem.store (txnKey tx) bs) ∧
      (r.2 = false → s.poolWrite tx bs = r.1.keepHeld (.write tx bs))) := by
  refine ⟨rfl, fun hu ho hn ha => ⟨fun hr => ⟨_, State.applyWrite_done hu ho hr, ?_⟩, fun hr => State.applyWrite_held hu ho hr⟩⟩
  refine State.homePut_pool (spaceOf_keyOf 1 ha) ?_
  rw [(s.recallPages_memOnly _ _).nodeUp, hn, hu]

/-! ### What waits at the homes -/

theorem State.mem_keepHeld (s : State) (h : Accepted) : h ∈ (s.keepHeld h).accepted := by
  unfold State.keepHeld
  split
  · next hc => simpa using hc
  · simp

theorem State.keepHeld_rest (s : State) (h : Accepted) : { s.keepHeld h with accepted := s.accepted } = s := by
  unfold State.keepHeld
  split <;> rfl

theorem State.retryHeld_one {h : Accepted} (e : s.accepted = [h]) : s.retryHeld = State.carryOut { s with accepted := [] } h := by
  simp [State.retryHeld, e]

/-! ### Billets and commits (R34, R119) -/

section
variable {tx : Txn} {num : BitVec 32} {b : Billet} {body : List Byte} {again : Bool}

theorem State.billetShip_none (h : billetOf body = none) : s.billetShip tx body again =
    s.applyWrite tx 3 4 [] true (.ship tx body) id := by
  simp only [State.billetShip, h]

theorem State.billetShip_some (h : billetOf body = some (num, b)) : s.billetShip tx body again =
    s.applyWrite tx 3 (if again then (if s.deadTargets b then 3 else 0) else s.shipCheck tx b) b.ranges true (.ship tx body)
      fun s => s.takeBillet tx num b := by
  simp only [State.billetShip, h]

theorem State.shipCheck_stale (h : tx.addr ≠ 0 ∧ b.ftok.toNat < s.recToken (txnKey tx)) : s.shipCheck tx b = 1 :=
  if_pos (by simp [h])

theorem State.shipCheck_fresh (h : ¬(tx.addr ≠ 0 ∧ b.ftok.toNat < s.recToken (txnKey tx))) :
    s.shipCheck tx b = if s.deadTargets b then 3 else 0 :=
  if_neg (by simpa using h)

end

theorem billetShip_clause (s : State) (tx : Txn) (head area : List Byte) : let body := head ++ area
    exec (.billetShip tx head area) s = .next (s.billetShip tx body false) ∧
    (s.nodeUp tx.node = false → s.billetShip tx body false = s.answer tx 3 []) ∧
    (∀ o, s.nodeUp tx.node = true → s.outcome? tx = some o → s.billetShip tx body false = s.answer tx o.status o.data) ∧
    (s.nodeUp tx.node = true → s.outcome? tx = none →
      (billetOf body = none → ∃ v : State, s.billetShip tx body false = v.answer tx 4 [] ∧ v.mem = s.mem) ∧
      ∀ num b, billetOf body = some (num, b) → let stale := tx.addr ≠ 0 ∧ b.ftok.toNat < s.recToken (txnKey tx)
        (stale → ∃ v : State, s.billetShip tx body false = v.answer tx 1 [] ∧ v.mem = s.mem) ∧
        (¬stale → s.deadTargets b = true → ∃ v : State, s.billetShip tx body false = v.answer tx 3 [] ∧ v.mem = s.mem) ∧
        (¬stale → s.deadTargets b = false → let r := s.recallPages (poolPages b.ranges) true
          (r.2 = false → s.billetShip tx body false = r.1.keepHeld (.ship tx body)) ∧
          (r.2 = true → ∃ v : State, s.billetShip tx body false = v.answer tx 0 [] ∧ v.mem = (r.1.takeBillet tx num b).mem)) ∧
        (s.deadTargets b = false → (s.recallPages (poolPages b.ranges) true).2 = true →
          ∃ v : State, s.carryOut (.ship tx body) = v.answer tx 0 [])) := by
  intro body
  refine ⟨rfl, fun hu => ?_, fun o hu ho => ?_, fun hu ho => ⟨fun hb => ?_, fun num b hb => ?_⟩⟩
  · cases hb : billetOf body with
    | none => rw [State.billetShip_none hb, State.applyWrite_down hu]
    | some e => rw [State.billetShip_some (num := e.1) (b := e.2) hb, State.applyWrite_down hu]
  · cases hb : billetOf body with
    | none => rw [State.billetShip_none hb, State.applyWrite_again hu ho]
    | some e => rw [State.billetShip_some (num := e.1) (b := e.2) hb, State.applyWrite_again hu ho]
  · rw [State.billetShip_none hb, State.applyWrite_refused hu ho (by decide)]
    exact ⟨_, rfl, rfl⟩
  · have hship (again : Bool) := State.billetShip_some (s := s) (tx := tx) (again := again) hb
    have first := hship false
    have second := hship true
    rw [if_neg (by decide)] at first
    rw [if_pos rfl] at second
    refine ⟨fun hs => ?_, fun hs hd => ?_, fun hs hd => ⟨fun hr => ?_, fun hr => ?_⟩, fun hd hr => ?_⟩
    · rw [first, State.shipCheck_stale hs, State.applyWrite_refused hu ho (by decide)]
      exact ⟨_, rfl, rfl⟩
    · rw [first, State.shipCheck_fresh hs, if_pos hd, State.applyWrite_refused hu ho (by decide)]
      exact ⟨_, rfl, rfl⟩
    · rw [first, State.shipCheck_fresh hs, hd, if_neg (by decide), State.applyWrite_held hu ho hr]
    · rw [first, State.shipCheck_fresh hs, hd, if_neg (by decide), State.applyWrite_done hu ho hr]
      exact ⟨_, rfl, rfl⟩
    · rw [State.carryOut, second, hd, if_neg (by decide), State.applyWrite_done hu ho hr]
      exact ⟨_, rfl⟩

theorem noteOpen_clause (s : State) (num : BitVec 32) (b : Billet) (pa : Nat) (o : OpenRel)
    (h : o ∈ (s.noteOpen num b pa).opens ∧ o.pa = pa ∧ o.log = num ∧ o.stamp = b.stamp) : b.lastRel = false ∧ o.since = s.ftime := by
  obtain ⟨hm, hp, hl, hs⟩ := h
  have hrest : o ∉ s.opens.filter fun o => !(o.pa = pa && o.log = num && o.stamp = b.stamp) := by simp [hp, hl, hs]
  by_cases hb : b.lastRel = true
  · simp only [State.noteOpen, hb, if_true] at hm
    exact (hrest hm).elim
  · simp only [State.noteOpen, if_neg hb, List.mem_cons] at hm
    rcases hm with rfl | hm
    · exact ⟨by simpa using hb, rfl⟩
    · exact (hrest hm).elim

/-- The release of a commit kept at the log home of its record. -/
def State.keepCommit (s : State) (pa : Nat) (w : RelWord) : State := { s with commits := insertAt s.commits pa w }

/-- A record without a holder. -/
def State.dropHolder (s : State) (pa : Nat) : State := { s with holders := s.holders.filter fun h => h.1 != pa }

/-- What a commit leaves at the log home of its record. -/
def State.applyCommit (s : State) (pa : Nat) (l : List (BitVec 32 × Billet)) (r : Rec) (w : RelWord) : State :=
  let u := ((l.foldl (fun (s : State) e => s.applyShipped e.1 e.2 (some pa)) s).devAtomic (pa + 56)
    (natLe 4 (bytesNat r.data 56 4 + 1))).keepCommit pa w
  (if bytesNat r.data 0 1 % 16 = 4 then u.dropHolder pa else u).reapLogs

theorem State.keepCommit_commits (s : State) (pa : Nat) (w : RelWord) : lookupD (s.keepCommit pa w).commits pa ⟨0, 0⟩ = w :=
  lookupD_insertAt_same ..

@[simp] theorem State.dropHolder_commits (s : State) (pa : Nat) : (s.dropHolder pa).commits = s.commits := rfl
@[simp] theorem State.dropHolder_podpos (s : State) (pa : Nat) : (s.dropHolder pa).podpos = s.podpos := rfl
@[simp] theorem State.dropHolder_mem (s : State) (pa : Nat) : (s.dropHolder pa).mem = s.mem := rfl
@[simp] theorem State.dropHolder_holders (s : State) (pa : Nat) : (s.dropHolder pa).holders = s.holders.filter fun h => h.1 != pa := rfl

theorem State.applyCommit_commits (s : State) (pa : Nat) (l : List (BitVec 32 × Billet)) (r : Rec) (w : RelWord) :
    lookupD (s.applyCommit pa l r w).commits pa ⟨0, 0⟩ = w := by
  unfold State.applyCommit
  dsimp only
  rw [(State.reapLogs_memLogs _).commits]
  split
  · rw [State.dropHolder_commits, State.keepCommit_commits]
  · rw [State.keepCommit_commits]

section
variable {tx : Txn} {num : BitVec 32} {b tail : Billet} {bodies : List (List Byte)} {l : List (BitVec 32 × Billet)} {r : Rec}

theorem State.stepCommit_some (hl : billetsOf bodies = some l) (hc : commitRec (l.map (·.2)) (txnKey tx) = some (b, r))
    (ht : l.getLast? = some (num, tail)) : s.stepCommit tx bodies false =
      s.applyWrite tx 3 (s.commitCheck (txnKey tx) (l.map (·.2)) (b, r)) ((txnKey tx, 64) :: (l.map (·.2)).flatMap Billet.ranges) true
        (.commit tx bodies) fun s => s.applyCommit (txnKey tx) l r (tail.word num) := by
  unfold State.stepCommit
  split
  · next h => exact (Option.some_ne_none l (hl.symm.trans h)).elim
  · next l' h =>
    cases Option.some.inj (hl.symm.trans h)
    extract_lets pa bs
    rw [hc, ht]
    rfl

end

theorem commits_clause (s : State) (tx : Txn) (bodies : List (List Byte)) :
    exec (.stepCommit tx bodies) s = .next (s.stepCommit tx bodies false) ∧
    ∀ l num tail b r, billetsOf bodies = some l → let bs := l.map (·.2)
      commitRec bs (txnKey tx) = some (b, r) → l.getLast? = some (num, tail) → s.nodeUp tx.node = true → s.outcome? tx = none →
      (b.ftok.toNat ≠ s.recToken (txnKey tx) → ∃ v : State, s.stepCommit tx bodies false = v.answer tx 1 [] ∧ v.mem = s.mem ∧ v.holders = s.holders) ∧
      (b.ftok.toNat = s.recToken (txnKey tx) → bytesNat r.data 56 4 ≠ s.recSteps (txnKey tx) →
        ∃ v : State, s.stepCommit tx bodies false = v.answer tx 2 [] ∧ v.mem = s.mem ∧ v.holders = s.holders) ∧
      (b.ftok.toNat = s.recToken (txnKey tx) → bytesNat r.data 56 4 = s.recSteps (txnKey tx) → bs.any s.deadTargets = false →
        let q := s.recallPages (poolPages ((txnKey tx, 64) :: bs.flatMap Billet.ranges)) true
        (q.2 = false → s.stepCommit tx bodies false = q.1.keepHeld (.commit tx bodies)) ∧
        (q.2 = true → ∃ v : State, s.stepCommit tx bodies false = v.answer tx 0 [] ∧ lookupD v.commits (txnKey tx) ⟨0, 0⟩ = tail.word num)) := by
  refine ⟨rfl, ?_⟩
  intro l num tail b r hl bs hc ht hu ho
  have e := State.stepCommit_some (s := s) hl hc ht
  refine ⟨fun hf => ?_, fun hf hn => ?_, fun hf hn hd => ?_⟩
  · have hs : s.commitCheck (txnKey tx) (l.map (·.2)) (b, r) = 1 := if_pos (bne_iff_ne.2 hf)
    rw [e, hs, State.applyWrite_refused hu ho (by decide)]
    exact ⟨_, rfl, rfl, rfl⟩
  · have hs : s.commitCheck (txnKey tx) (l.map (·.2)) (b, r) = 2 := by simp [State.commitCheck, hf, hn]
    rw [e, hs, State.applyWrite_refused hu ho (by decide)]
    exact ⟨_, rfl, rfl, rfl⟩
  · have hs : s.commitCheck (txnKey tx) (l.map (·.2)) (b, r) = 0 := by
      rw [State.commitCheck, if_neg (by simp [hf]), if_neg (by simp [hn]), hd, if_neg (by decide)]
    rw [e, hs]
    refine ⟨fun hr => State.applyWrite_held hu ho hr, fun hr => ⟨_, State.applyWrite_done hu ho hr, ?_⟩⟩
    exact State.applyCommit_commits ..

end Sys2Proof.Machine
end

section
/-!
SUPPORT. The loss of a package, collectives from peers, lost completions and nodes that do not answer (R41, R427, R428), and the
statement about transactions at pool homes.
-/

namespace Sys2Proof.Machine

variable {s t u : State}

/-! ### Raised records (R41, R427) -/

/-- The device writes of a raise, before the record loses its holder. -/
def State.raiseWrites (s : State) (pa : Nat) : State :=
  ((s.devAtomic pa (natLe 1 (s.mem.nat pa 1 / 16 * 16 + 1))).devAtomic (pa + 40) (natLe 8 0)).devAtomic (pa + 60)
    (natLe 4 ((s.recToken pa + 1) % 2 ^ 32))

theorem State.raiseRecord_eq (s : State) (pa : Nat) : s.raiseRecord pa = (s.raiseWrites pa).dropHolder pa := rfl

theorem State.raiseWrites_memOnly (s : State) (pa : Nat) : MemOnly s (s.raiseWrites pa) :=
  ((s.devAtomic_memOnly ..).trans (State.devAtomic_memOnly ..)).trans (State.devAtomic_memOnly ..)

theorem State.raiseRecord_holders (s : State) (pa : Nat) : (s.raiseRecord pa).holders = s.holders.filter fun h => h.1 != pa := by
  rw [State.raiseRecord_eq, State.dropHolder_holders, (s.raiseWrites_memOnly pa).holders]

theorem State.raiseRecord_podpos (s : State) (pa : Nat) : (s.raiseRecord pa).podpos = s.podpos := by
  rw [State.raiseRecord_eq, State.dropHolder_podpos, (s.raiseWrites_memOnly pa).podpos]

theorem raiseFold_podpos (l : List Nat) (s : State) : (l.foldl State.raiseRecord s).podpos = s.podpos :=
  foldl_keeps (fun (t : State) => t.podpos = s.podpos) _ _ _ rfl fun t pa ht => (t.raiseRecord_podpos pa).trans ht

/-- Records that are raised lose their holders, and no record gets one. -/
theorem raiseFold_holders : ∀ (l : List Nat) (s : State), ∀ h ∈ (l.foldl State.raiseRecord s).holders, h ∈ s.holders ∧ h.1 ∉ l
  | [], _, _, hm => ⟨hm, List.not_mem_nil⟩
  | pa :: l, s, h, hm => by
    rw [List.foldl_cons] at hm
    obtain ⟨h1, h2⟩ := raiseFold_holders l (s.raiseRecord pa) h hm
    rw [State.raiseRecord_holders, List.mem_filter] at h1
    have hne : h.1 ≠ pa := by simpa using h1.2
    exact ⟨h1.1, List.not_mem_cons_of_ne_of_not_mem hne h2⟩

theorem State.raiseWrites_mem {pa : Nat} (h0 : spaceOf pa = 1) (k0 : s.keyWins pa 1)
    (k40 : s.keyWins (pa + 40) 8) (k60 : s.keyWins (pa + 60) 4) : (s.raiseWrites pa).mem =
      ((s.mem.store pa (natLe 1 (s.mem.nat pa 1 / 16 * 16 + 1))).store (pa + 40) (natLe 8 0)).store (pa + 60)
        (natLe 4 ((s.recToken pa + 1) % 2 ^ 32)) := by
  have hs : ∀ d, spaceOf (pa + d) ≠ 0 := by
    intro d
    unfold spaceOf at h0 ⊢
    omega
  have hs0 : spaceOf pa ≠ 0 := hs 0
  have w40 := State.devAtomic_keyWins (bs := natLe 1 (s.mem.nat pa 1 / 16 * 16 + 1)) hs0
    (by rw [length_natLe]; omega) k40
  have w60 := State.devAtomic_keyWins (bs := natLe 1 (s.mem.nat pa 1 / 16 * 16 + 1)) hs0
    (by rw [length_natLe]; omega) k60
  have w60' := State.devAtomic_keyWins (bs := natLe 8 0) (hs 40) (by rw [length_natLe]; omega) w60
  unfold State.raiseWrites
  rw [State.devAtomic_mem (hs 60) (by rw [length_natLe]; exact w60'),
    State.devAtomic_mem (hs 40) (by rw [length_natLe]; exact w40),
    State.devAtomic_mem hs0 (by rw [length_natLe]; exact k0)]

theorem raiseRecord_clause (s : State) (pa : Nat) : (∀ h ∈ (s.raiseRecord pa).holders, h.1 ≠ pa) ∧
    (s.memWf → spaceOf pa = 1 → spaceOf (pa + 63) = 1 → s.keyWins pa 1 → s.keyWins (pa + 40) 8 → s.keyWins (pa + 60) 4 → let t := s.raiseRecord pa
      t.mem.nat (pa + 60) 4 = (s.recToken pa + 1) % 2 ^ 32 ∧ t.mem.nat (pa + 40) 8 = 0 ∧ t.mem.nat pa 1 % 16 = 1 ∧
      ∀ a, a ≠ pa → (a < pa + 40 ∨ pa + 48 ≤ a) → (a < pa + 60 ∨ pa + 64 ≤ a) → t.mem.get a = s.mem.get a) := by
  refine ⟨fun h hm => ?_, fun w h0 _ k0 k40 k60 => ?_⟩
  · rw [State.raiseRecord_holders, List.mem_filter] at hm
    simpa using hm.2
  · have e := State.raiseWrites_mem h0 k0 k40 k60
    have w1 := Mem.wf_store pa (natLe 1 (s.mem.nat pa 1 / 16 * 16 + 1)) w
    have w2 := Mem.wf_store (pa + 40) (natLe 8 0) w1
    dsimp only
    rw [State.raiseRecord_eq, State.dropHolder_mem, e]
    refine ⟨?_, ?_, ?_, fun a ha h40 h60 => ?_⟩
    · rw [Mem.nat_store _ _ _ w2, Nat.mod_mod]
    · rw [Mem.nat, Mem.bytes_store_ne _ _ _ _ w2 (by omega), ← Mem.nat, Mem.nat_store _ _ _ w1, Nat.zero_mod]
    · rw [Mem.nat, Mem.bytes_store_ne _ _ _ _ w2 (by omega), Mem.bytes_store_ne _ _ _ _ w1 (by omega), ← Mem.nat, Mem.nat_store _ _ _ w]
      omega
    · rw [Mem.get_store _ _ _ w2, if_neg (by rw [length_natLe]; omega), Mem.get_store _ _ _ w1, if_neg (by rw [length_natLe]; omega),
        Mem.get_store _ _ _ w, if_neg (by rw [length_natLe]; omega)]

/-! ### Reassigned records -/

/-- The continuation of a record, adopted: the fields that its bytes give. -/
theorem State.adopt_eq (s : State) (va pa region : Nat) (bs : List Byte) (lost : Bool) : ∃ fr card xyz relw frm,
    s.adopt va pa region bs lost = ({ s with free := fr },
      { contOf va pa (BitVec.ofNat 16 (s.effTenant region)) bs with
        region := BitVec.ofNat 16 region, card := card, xyz := xyz, raised := lost, relw := relw, frmKib := frm }) := by
  unfold State.adopt
  dsimp only
  split <;> exact ⟨_, _, _, _, _, rfl⟩

theorem State.makeReady_holders (s : State) (c : Cont) : (s.makeReady c).holders = s.holders := (s.makeReady_memOnly c).holders

theorem State.reassign_poisoned {tx : Txn} {bs : List PByte} (reg : Nat) (ho : s.outcome? tx = none)
    (hr : s.homeRead (txnKey tx) 64 = (u, bs)) (hp : bs.any (·.2) = true) :
    s.reassign tx reg = (u.recorded tx 15 []).answer tx 15 [] := by
  refine (State.once_fresh ho).trans ?_
  simp only [hr, hp, if_true]
  rfl

theorem State.reassign_adopted {tx : Txn} {bs : List PByte} (reg : Nat) (ho : s.outcome? tx = none)
    (hr : s.homeRead (txnKey tx) 64 = (u, bs)) (hp : bs.any (·.2) = false) : ∃ va fr card xyz relw frm, s.reassign tx reg =
      ((State.makeReady { u with free := fr } { contOf va (txnKey tx) (BitVec.ofNat 16 (u.effTenant reg)) (bs.map (·.1)) with
        region := BitVec.ofNat 16 reg, card := card, xyz := xyz, raised := true, relw := relw, frmKib := frm }).recorded tx 0 []).answer
        tx 0 [] := by
  let va := (u.findVa (u.effTenant reg) (u.rcb reg 120 8 % 2 ^ 57) (txnKey tx) (u.rcb reg 128 4) 0).getD (paOf (txnKey tx))
  obtain ⟨fr, card, xyz, relw, frm, e⟩ := u.adopt_eq va (txnKey tx) reg (bs.map (·.1)) true
  refine ⟨va, fr, card, xyz, relw, frm, (State.once_fresh ho).trans ?_⟩
  simp only [va] at e
  simp only [hr, hp, Bool.false_eq_true, if_false, e]
  rfl

theorem State.reassign_holders (s : State) (tx : Txn) (reg : Nat) : (s.reassign tx reg).holders = s.holders := by
  cases ho : s.outcome? tx with
  | some o =>
    have e : s.reassign tx reg = s.answer tx o.status o.data := State.once_again ho
    rw [e]
    rfl
  | none =>
    rcases hr : s.homeRead (txnKey tx) 64 with ⟨u, bs⟩
    have hu : u.holders = s.holders := by
      have h := (s.homeRead_memOnly (txnKey tx) 64).holders
      rwa [hr] at h
    by_cases hp : bs.any (·.2) = true
    · rw [State.reassign_poisoned reg ho hr hp]
      exact hu
    · obtain ⟨va, fr, card, xyz, relw, frm, e⟩ := State.reassign_adopted reg ho hr (Bool.eq_false_iff.2 hp)
      rw [e]
      exact (State.makeReady_holders ..).trans hu

theorem State.handOver_holders (s : State) (node pa : Nat) : (s.handOver node pa).holders = s.holders := State.reassign_holders ..

theorem reassign_clause (s : State) (tx : Txn) (reg : Nat) : exec (.reassign tx reg) s = .next (s.reassign tx reg) ∧
    ∀ u bs, s.outcome? tx = none → s.homeRead (txnKey tx) 64 = (u, bs) →
    (bs.any (·.2) = true → ∃ v : State, s.reassign tx reg = v.answer tx 15 [] ∧ v.conts = u.conts) ∧
    (bs.any (·.2) = false → ∃ (v : State) (k : Cont), s.reassign tx reg = v.answer tx 0 [] ∧ v.cont? (txnKey tx) = some k ∧ k.state = .ready ∧
      k.raised = true ∧ k.region = BitVec.ofNat 16 reg ∧ k.job = none ∧ k.firing = none ∧
      let w := contOf k.va (txnKey tx) k.tenant (bs.map (·.1))
      k.codecap = w.codecap ∧ k.pcl = w.pcl ∧ k.pcc = w.pcc ∧ k.pcs = w.pcs ∧ k.frame = w.frame ∧ k.secl = w.secl ∧ k.first = w.first ∧
      k.ftoken = w.ftoken ∧ k.stepseq = w.stepseq) := by
  refine ⟨rfl, fun u bs ho hr => ⟨fun hp => ⟨_, State.reassign_poisoned reg ho hr hp, rfl⟩, fun hp => ?_⟩⟩
  obtain ⟨va, fr, card, xyz, relw, frm, e⟩ := State.reassign_adopted reg ho hr hp
  refine ⟨_, _, e, State.cont?_of_enter (State.makeReady_conts _ _) rfl, ?_⟩
  simp only [State.readied, contOf, and_self]

/-! ### Token raises -/

/-- The records of a lost package at a node raised, and handed to this package when they are for it. -/
def State.raiseAll (s : State) (tx : Txn) (lost target : Nat) : State :=
  let u := (s.heldRecs lost tx.node).foldl State.raiseRecord s
  if target = u.podpos.toNat then (s.heldRecs lost tx.node).foldl (fun v pa => v.handOver tx.node pa) u else u

theorem State.raiseAll_holders (s : State) (tx : Txn) (lost target : Nat) :
    (s.raiseAll tx lost target).holders = ((s.heldRecs lost tx.node).foldl State.raiseRecord s).holders := by
  unfold State.raiseAll
  dsimp only
  split
  · exact foldl_keeps (fun (t : State) => t.holders = ((s.heldRecs lost tx.node).foldl State.raiseRecord s).holders) _ _ _ rfl
      fun t pa ht => (t.handOver_holders tx.node pa).trans ht
  · rfl

theorem State.raiseAll_elsewhere {target : Nat} (tx : Txn) (lost : Nat) (h : target ≠ s.podpos.toNat) :
    s.raiseAll tx lost target = (s.heldRecs lost tx.node).foldl State.raiseRecord s := by
  unfold State.raiseAll
  dsimp only
  rw [raiseFold_podpos, if_neg h]

theorem State.tokenRaise_done {tx : Txn} {lost target : Nat} (hu : s.nodeUp tx.node = true) (ho : s.outcome? tx = none)
    (hp : (s.heldRecs lost tx.node).any s.relPending = false) : s.tokenRaise tx lost target =
      ((s.raiseAll tx lost target).recorded tx 0 (natLe 4 (s.heldRecs lost tx.node).length)).answer tx 0
        (natLe 4 (s.heldRecs lost tx.node).length) :=
  (if_neg (by simp [hp])).trans (State.atHome_fresh hu ho)

theorem tokenRaise_clause (s : State) (tx : Txn) (lost target : Nat) :
    exec (.tokenRaise tx lost target) s = .next (s.tokenRaise tx lost target) ∧ let recs := s.heldRecs lost tx.node
    (s.nodeUp tx.node = false → s.tokenRaise tx lost target = s.answer tx 3 []) ∧
    (s.nodeUp tx.node = true → s.outcome? tx = none →
      (recs.any s.relPending = true → s.tokenRaise tx lost target = s.keepHeld (.raise tx lost target)) ∧
      (recs.any s.relPending = false → ∃ v : State, s.tokenRaise tx lost target = v.answer tx 0 (natLe 4 recs.length) ∧
        (∀ h ∈ v.holders, h ∈ s.holders ∧ h.1 ∉ recs) ∧
        (target ≠ s.podpos.toNat → v.mem = (recs.foldl State.raiseRecord s).mem))) := by
  refine ⟨rfl, fun hu => ?_, fun hu ho => ⟨fun hp => ?_, fun hp => ?_⟩⟩
  · exact (if_neg (by simp [hu])).trans (State.atHome_down hu)
  · exact if_pos (by simp [hu, ho, hp])
  · refine ⟨_, State.tokenRaise_done hu ho hp, fun h hm => ?_, fun ht => ?_⟩
    · exact raiseFold_holders _ _ h (s.raiseAll_holders tx lost target ▸ hm)
    · exact (State.recorded_mem ..).trans (congrArg State.mem (State.raiseAll_elsewhere tx lost ht))

/-! ### Collectives from peers (R240) -/

/-- A collective with one participant more. -/
def Coll.joined (c : Coll) (g : GroupRec) (p : CollPart) : Coll :=
  { c with
    parts := c.parts.filter (fun q => q.rank != p.rank) ++ [p]
    failed := if c.nrank != g.nrank || c.parts.any fun q => !(q.kind = p.kind && q.op = p.op && q.ety = p.ety && q.n = p.n)
      then some .illegal else c.failed }

/-- The collective that a participant joins: one with no participants when none has arrived. -/
def State.collOf (s : State) (g : GroupRec) : Coll := (s.coll? g).getD ⟨g.group, g.seq, g.nrank, [], none⟩

theorem State.collOf_names (s : State) (g : GroupRec) : (s.collOf g).group = g.group ∧ (s.collOf g).seq = g.seq := by
  unfold State.collOf
  cases h : s.coll? g with
  | none => exact ⟨rfl, rfl⟩
  | some c => simpa using List.find?_some h

theorem State.joinColl_coll? (s : State) (g : GroupRec) (p : CollPart) : (s.joinColl g p).coll? g = some ((s.collOf g).joined g p) := by
  obtain ⟨h1, h2⟩ := s.collOf_names g
  have hn : (s.colls.filter fun c => !(c.group = g.group && c.seq = g.seq)).find? (fun c => c.group = g.group && c.seq = g.seq) = none := by
    rw [List.find?_eq_none]
    intro c hc hn
    have hf := (List.mem_filter.1 hc).2
    rw [hn] at hf
    exact Bool.false_ne_true hf
  have hj : ((s.collOf g).joined g p).group = g.group ∧ ((s.collOf g).joined g p).seq = g.seq := ⟨h1, h2⟩
  change ((s.colls.filter fun c => !(c.group = g.group && c.seq = g.seq)) ++ [(s.collOf g).joined g p]).find? _ = _
  rw [List.find?_append, hn, Option.none_or, List.find?_cons_of_pos]
  simp [hj]

theorem collective_clause (s : State) (tx : Txn) (b : CollBlock) :
    exec (.collective tx b) s = .next (s.collBlocks tx b) ∧ let g : GroupRec := ⟨b.group, b.nrank, b.rank, b.seq, 0, 0⟩
    (s.collBlocks tx b).mem = s.mem ∧ ∃ c, (s.collBlocks tx b).coll? g = some c ∧
      ⟨b.rank, b.kind, b.op, b.ety, b.n, b.data, none⟩ ∈ c.parts ∧ (s.coll? g = none → c.failed = none ∧ c.parts.length = 1) ∧
      ∀ old, s.coll? g = some old → (∀ q ∈ old.parts, q.rank ≠ b.rank → q ∈ c.parts) ∧
        ((old.nrank ≠ b.nrank ∨ ∃ q ∈ old.parts, q.kind ≠ b.kind ∨ q.op ≠ b.op ∨ q.ety ≠ b.ety ∨ q.n ≠ b.n) → c.failed = some .illegal) := by
  refine ⟨rfl, rfl, _, State.joinColl_coll? .., ?_, fun hn => ?_, fun old ho => ⟨fun q hq hr => ?_, fun h => ?_⟩⟩
  · simp [Coll.joined]
  · simp [Coll.joined, State.collOf, hn]
  · simp [Coll.joined, State.collOf, ho, hq, hr]
  · simp only [Coll.joined, State.collOf, ho, Option.getD_some]
    refine if_pos ?_
    rcases h with h | ⟨q, hq, h⟩
    · simp [h]
    · rw [Bool.or_eq_true, List.any_eq_true]
      refine .inr ⟨q, hq, ?_⟩
      rcases h with h | h | h | h <;> simp [h]

/-! ### Poison, reserved codes, lost completions -/

theorem poison_clause (s : State) (tx : Txn) : (s.mine tx = false → exec (.poison tx) s = .next (s.answer tx 15 [])) ∧
    (s.mine tx = true → s.core.acc? tx.addr = none → exec (.poison tx) s = .next s) ∧
    ∀ a, s.mine tx = true → s.core.acc? tx.addr = some a → a.rel = none → exec (.poison tx) s = .next (s.poisonAcc a) := by
  refine ⟨fun hm => congrArg Host.Outcome.next ?_, fun hm ha => congrArg Host.Outcome.next ?_, fun a hm ha hr => congrArg Host.Outcome.next ?_⟩
  · exact if_neg (ne_true_of_eq_false hm)
  · simp only [State.poisonTxn, hm, if_true, ha]
  · simp only [State.poisonTxn, hm, if_true, ha, hr, Option.isNone_none]

/-- A write in host memory, which the device makes itself. -/
theorem State.homeWrite_host {a : Nat} {bs : List Byte} (ha : a < 2 ^ 64) (hu : s.homeUp (keyOf 2 a) = true) :
    (s.homeWrite (keyOf 2 a) bs).1 = { s with mem := s.mem.store (keyOf 2 a) bs } := by
  have hs : spaceOf (keyOf 2 a) = 2 := spaceOf_keyOf 2 ha
  simp only [State.homeUp, hs] at hu
  simp [State.homeWrite, State.homePut, hs, hu]

/-- What is written for a lost job: the completion word, and an empty release word where one stands beside it. -/
def lostBytes (addr : Nat) : List Byte := natLe 8 (complWord 0 0 6) ++ (if addr % 16 = 8 then natLe 16 0 else [])

theorem lostBytes_eq (addr : Nat) :
    lostBytes addr = natLe 8 (2 ^ 63 + 2 ^ 62 + 6 * 2 ^ 56) ++ (if addr % 16 = 8 then natLe 16 0 else []) :=
  congrArg (natLe 8 · ++ _) (by decide)

section
variable {space : Fin 2} {addr : Nat}

theorem State.lostCompletion_none (h : s.homeUp (keyOf (space.val + 1) addr) = false ∨
    bitOf (s.mem.nat (keyOf (space.val + 1) addr) 8) 63 = true) : s.lostCompletion space addr = s :=
  if_pos (by simpa using h)

variable (hu : s.homeUp (keyOf (space.val + 1) addr) = true) (hb : bitOf (s.mem.nat (keyOf (space.val + 1) addr) 8) 63 = false)
include hu hb

theorem State.lostCompletion_pool (h0 : space = 0)
    (hq : (s.recallPages (poolPages [(keyOf (space.val + 1) addr, (lostBytes addr).length)]) true).2 = true) :
    s.lostCompletion space addr = (s.recallPages (poolPages [(keyOf (space.val + 1) addr, (lostBytes addr).length)]) true).1.devAtomic
      (keyOf (space.val + 1) addr) (lostBytes addr) := by
  subst h0
  rcases e : s.recallPages (poolPages [(keyOf ((0 : Fin 2).val + 1) addr, (lostBytes addr).length)]) true with ⟨v, w⟩
  rw [e] at hq
  dsimp only at hq
  subst hq
  unfold lostBytes at e ⊢
  unfold State.lostCompletion
  dsimp only
  rw [hu, hb, if_neg (by decide), if_pos rfl, e]

theorem State.lostCompletion_held (h0 : space = 0)
    (hq : (s.recallPages (poolPages [(keyOf (space.val + 1) addr, (lostBytes addr).length)]) true).2 = false) :
    s.lostCompletion space addr = (s.recallPages (poolPages [(keyOf (space.val + 1) addr, (lostBytes addr).length)]) true).1.keepHeld
      (.lost space addr) := by
  subst h0
  rcases e : s.recallPages (poolPages [(keyOf ((0 : Fin 2).val + 1) addr, (lostBytes addr).length)]) true with ⟨v, w⟩
  rw [e] at hq
  dsimp only at hq
  subst hq
  unfold lostBytes at e
  unfold State.lostCompletion
  dsimp only
  rw [hu, hb, if_neg (by decide), if_pos rfl, e]

theorem State.lostCompletion_host (h1 : space = 1) (ha : addr < 2 ^ 64) :
    s.lostCompletion space addr = { s with mem := s.mem.store (keyOf (space.val + 1) addr) (lostBytes addr) } := by
  subst h1
  have e : s.lostCompletion 1 addr = (s.homeWrite (keyOf 2 addr) (lostBytes addr)).1 :=
    (if_neg (by rw [hu, hb]; decide)).trans (if_neg (by decide))
  exact e.trans (State.homeWrite_host ha hu)

end

theorem lostCompletion_clause (s : State) (space : Fin 2) (addr : Nat) : let k := keyOf (space.val + 1) addr
    let bs := natLe 8 (2 ^ 63 + 2 ^ 62 + 6 * 2 ^ 56) ++ (if addr % 16 = 8 then natLe 16 0 else [])
    let q := s.recallPages (poolPages [(k, bs.length)]) true
    let open_ := s.homeUp k = true ∧ bitOf (s.mem.nat k 8) 63 = false
    (s.homeUp k = false → exec (.lostCompletionWrite space addr) s = .next s) ∧
    (bitOf (s.mem.nat k 8) 63 = true → exec (.lostCompletionWrite space addr) s = .next s) ∧
    (open_ → space = 0 → q.2 = true → exec (.lostCompletionWrite space addr) s = .next (q.1.devAtomic k bs)) ∧
    (open_ → space = 0 → q.2 = false → exec (.lostCompletionWrite space addr) s = .next (q.1.keepHeld (.lost space addr))) ∧
    (open_ → space = 1 → addr < 2 ^ 64 → exec (.lostCompletionWrite space addr) s = .next { s with mem := s.mem.store k bs }) := by
  rw [← lostBytes_eq]
  exact ⟨fun h => congrArg Host.Outcome.next (State.lostCompletion_none (.inl h)),
    fun h => congrArg Host.Outcome.next (State.lostCompletion_none (.inr h)),
    fun h h0 hq => congrArg Host.Outcome.next (State.lostCompletion_pool h.1 h.2 h0 hq),
    fun h h0 hq => congrArg Host.Outcome.next (State.lostCompletion_held h.1 h.2 h0 hq),
    fun h h1 ha => congrArg Host.Outcome.next (State.lostCompletion_host h.1 h.2 h1 ha)⟩

/-! ### Nodes that do not answer (R428) -/

/-- This package loses some pages with what is pending on them. -/
def State.losePages (s : State) (pages : List Nat) : State := pages.foldl (fun s p => (s.loseLease p).discardPending p) s

theorem State.losePages_nodes (s : State) (pages : List Nat) : (s.losePages pages).nodes = s.nodes :=
  foldl_keeps (fun (t : State) => t.nodes = s.nodes) _ _ _ rfl fun t p ht => (t.loseLease_memOnly p).nodes.trans ht

theorem State.mem_losePages {l : Lease} : ∀ {pages : List Nat} {s : State}, l ∈ (s.losePages pages).leases → l ∈ s.leases ∧ l.page ∉ pages
  | [], _, h => ⟨h, List.not_mem_nil⟩
  | p :: pages, s, h => by
    obtain ⟨h1, h2⟩ := mem_losePages (s := (s.loseLease p).discardPending p) h
    exact ⟨(List.mem_filter.1 h1).1, List.not_mem_cons_of_ne_of_not_mem (State.mem_loseLease (s := s) h1) h2⟩

theorem State.mem_dropNode {node : Nat} {l : Lease} (h : l ∈ (s.dropNode node).leases) : poolNode (l.page * 65536) ≠ node := by
  obtain ⟨hl, hp⟩ := State.mem_losePages (s := s) h
  intro hn
  exact hp (List.mem_map.2 ⟨l, List.mem_filter.2 ⟨hl, decide_eq_true hn⟩, rfl⟩)

theorem State.dropNode_nodes (s : State) (node : Nat) : (s.dropNode node).nodes = s.nodes := State.losePages_nodes ..

theorem State.setNode_clause (s : State) (node : Nat) (x : NodeState) : lookupD (s.setNode node x).nodes node .up = x ∧
    (x ≠ .up → ∀ l ∈ (s.setNode node x).leases, poolNode (l.page * 65536) ≠ node) := by
  refine ⟨?_, fun hx l hl => ?_⟩
  · unfold State.setNode
    dsimp only
    split
    · exact lookupD_insertAt_same ..
    · rw [State.dropNode_nodes]
      exact lookupD_insertAt_same ..
  · unfold State.setNode at hl
    dsimp only at hl
    rw [if_neg hx] at hl
    exact State.mem_dropNode hl

theorem nodes_clause (s : State) (node : Nat) : (s.nodeUp node = true → s.overdue node = true →
      exec (.responseTimeout node) s = .next (s.setNode node .unresponsive)) ∧
    (s.nodeUp node = false ∨ s.overdue node = false → exec (.responseTimeout node) s = .next s) ∧
    exec (.nodeStateWrite node true) s = .next (s.setNode node .up) ∧ exec (.nodeStateWrite node false) s = .next (s.setNode node .dead) ∧
    ∀ x, lookupD (s.setNode node x).nodes node .up = x ∧
      (x ≠ .up → ∀ l ∈ (s.setNode node x).leases, poolNode (l.page * 65536) ≠ node) := by
  refine ⟨fun hu ho => congrArg Host.Outcome.next (if_pos (by rw [hu, ho]; rfl)), fun h => congrArg Host.Outcome.next (if_neg ?_), rfl, rfl,
    s.setNode_clause node⟩
  rcases h with h | h <;> simp [h]

/-! ### The statement -/

/-- Settles O57: a lemma on each family of transactions. -/
theorem poolEvents : Obligations.PoolEvents := by
  unfold Obligations.PoolEvents
  refine ⟨reads_clause, readOk_iff, State.bulkPieces_succ, ?_, leases_wire_clause, fun s tx f o => State.once_again,
    fun s tx down f => State.atHome_down, atomics_clause, reductions_clause, ?_, State.devAtomic_get, poolWrite_clause, ?_, billetShip_clause,
    noteOpen_clause, commits_clause, tokenRaise_clause, raiseRecord_clause, reassign_clause, collective_clause, poison_clause,
    fun s op tx => rfl, lostCompletion_clause, nodes_clause⟩
  · exact fun s tx st bs => ⟨lookupD_insertAt_same .., rfl⟩
  · exact fun f b n i old new hi _ _ => bytesNat_combine f b n i old new hi
  · exact fun s h => ⟨s.mem_keepHeld h, s.keepHeld_rest h, State.retryHeld_one⟩

end Sys2Proof.Machine
end

section
/-!
SUPPORT. Frames of what instructions of registers do (R43 to R52): each operation on the issuing stream, its queues and its place
keeps `registerFrame`, and the frames of several compose.
-/

namespace Sys2Proof.Machine

/-! ### Frames compose -/

theorem sameBeside_trans {s t u : State} (hw : t.who = s.who) (h : sameBeside s t) (k : sameBeside t u) : sameBeside s u := by
  obtain ⟨h1, h2⟩ := h
  obtain ⟨k1, k2⟩ := k
  refine ⟨?_, fun j hj => (k2 j (hw ▸ hj)).trans (h2 j hj)⟩
  exact (congrArg (fun c : Core => { c with
    l := s.core.l, c := s.core.c, s := s.core.s, ldq := s.core.ldq, sdq := s.core.sdq, bq := s.core.bq, accs := s.core.accs
    nextId := s.core.nextId, issued := s.core.issued }) k1).trans h1

theorem sameControl_trans {s t u : State} (h : sameControl s t) (k : sameControl t u) : sameControl s u := by
  obtain ⟨h1, h2, h3, h4, h5, h6, h7, h8, h9⟩ := h
  obtain ⟨k1, k2, k3, k4, k5, k6, k7, k8, k9⟩ := k
  exact ⟨k1.trans h1, k2.trans h2, k3.trans h3, k4.trans h4, k5.trans h5, k6.trans h6, k7.trans h7, k8.trans h8, k9.trans h9⟩

theorem streamFrame_trans {d : Dst} {ps : List (Fin 8)} {s t u : State} (h : streamFrame d ps s t) (k : streamFrame d ps t u) :
    streamFrame d ps s u := by
  obtain ⟨ho, hb, hc, hn, hp, hm, hq⟩ := h
  obtain ⟨ko, kb, kc, kn, kp, km, kq⟩ := k
  exact ⟨sameOutside_trans ho ko, sameBeside_trans (sameOutside_who ho) hb kb, sameControl_trans hc kc,
    fun j hj => (kn j hj).trans (hn j hj), fun j hj => (kp j hj).trans (hp j hj), fun a => (km a).trans (hm a),
    fun hd => (kq hd).trans (hq hd)⟩

theorem registerFrame_trans {d : Dst} {ps : List (Fin 8)} {s t u : State} (h : registerFrame d ps s t)
    (k : registerFrame d ps t u) : registerFrame d ps s u :=
  ⟨streamFrame_trans h.1 k.1, k.2.trans h.2⟩

/-! ### What the frame asks of the issuing stream -/

/-- The stream y keeps of x what a register instruction with destination d and predicates ps leaves. -/
def Stream.Keeps (d : Dst) (ps : List (Fin 8)) (x y : Stream) : Prop :=
  (y.sb = x.sb ∧ y.pend = x.pend ∧ y.tf = x.tf ∧ y.hnd = x.hnd ∧ y.saved = x.saved ∧ y.stopo = x.stopo ∧ y.astat = x.astat ∧
    y.ended = x.ended ∧ y.asleep = x.asleep) ∧
  (∀ k : Fin 16, d ≠ .n k → y.n[k] = x.n[k]) ∧ (∀ k, k ∉ ps → y.pred k = x.pred k) ∧ (d ≠ .t → y.rq = x.rq)

theorem registerFrame_setCur {d : Dst} {ps : List (Fin 8)} {s : State} {y : Stream} (h : s.cur.Keeps d ps y) :
    registerFrame d ps s (s.setCur y) := by
  obtain ⟨hc, hn, hp, hq⟩ := h
  refine ⟨⟨rfl, ⟨?_, fun k hk => Core.strm_setStrm_ne _ _ hk⟩, ?_, ?_, ?_, fun a => rfl, ?_⟩, by simp [State.setCur]⟩
  · unfold State.setCur Core.setStrm
    cases s.who <;> rfl
  · simpa only [sameControl, State.cur_setCur] using hc
  · simpa only [sameScalars, State.cur_setCur] using hn
  · simpa only [samePreds, State.cur_setCur] using hp
  · simpa only [State.cur_setCur] using hq

/-- Queues, outstanding accesses and the issue mark are outside the frame. -/
theorem registerFrame_queues (d : Dst) (ps : List (Fin 8)) (s : State) (q r : DataQ) (l : List Acc) (n : Nat) (b : Bool) :
    registerFrame d ps s { s with core := { s.core with ldq := q, sdq := r, accs := l, nextId := n, issued := b } } := by
  have e : ({ s with core := { s.core with ldq := q, sdq := r, accs := l, nextId := n, issued := b } } : State).cur = s.cur := by
    unfold State.cur Core.strm
    cases s.who <;> rfl
  refine ⟨⟨rfl, ⟨rfl, fun k _ => by cases k <;> rfl⟩, ?_, ?_, ?_, fun a => rfl, fun _ => congrArg _ e⟩, rfl⟩
  · simp only [sameControl, e, and_self]
  · intro k _
    rw [e]
  · intro k _
    rw [e]

/-! ### The place of a stream -/

/-- The stream without its place: its address, section, loops and prefixes. -/
def Stream.unplaced (x : Stream) : Stream :=
  { x with
    pc := 0, shdr := 0, insec := false, slen := 0, secs := [], retired := 0, loops := [], lc := Vector.replicate 3 0
    wide := none, wideAt := 0, rows := none, npfx := 0 }

theorem Stream.keeps_of_unplaced {d : Dst} {ps : List (Fin 8)} {x y : Stream} (h : y.unplaced = x.unplaced) : x.Keeps d ps y := by
  have f {α : Type} (g : Stream → α) : g y.unplaced = g x.unplaced := congrArg g h
  exact ⟨⟨f (·.sb), f (·.pend), f (·.tf), f (·.hnd), f (·.saved), f (·.stopo), f (·.astat), f (·.ended), f (·.asleep)⟩,
    fun k _ => f (·.n[k]), fun k _ => f (·.pred k), fun _ => f (·.rq)⟩

theorem loopNext_unplaced (x : Stream) (next : BitVec 32) (l : List LoopLvl) : (loopNext x next l).unplaced = x.unplaced := by
  induction l generalizing x with
  | nil => rfl
  | cons v rest ih =>
    unfold loopNext
    split
    · dsimp only
      split
      · rfl
      · exact ih _
    · rfl

/-- A stream that falls to its next word changes its place only. -/
theorem Core.fallTo_place (c : Core) (k : Strm) (next : BitVec 32) :
    ∃ y, c.fallTo k next = c.setStrm k y ∧ y.unplaced = (c.strm k).unplaced := by
  have hn := loopNext_unplaced (c.strm k) next (c.strm k).loops
  unfold Core.fallTo
  dsimp only
  split
  · obtain ⟨secs, r, h⟩ := (c.setStrm k (loopNext (c.strm k) next (c.strm k).loops).noPfx).goHeader_eq k
      (loopNext (c.strm k) next (c.strm k).loops).pc
    rw [h, Core.setStrm_setStrm]
    exact ⟨_, rfl, by rw [Core.strm_setStrm]; exact hn⟩
  · exact ⟨_, rfl, hn⟩

theorem State.advance_place (s : State) : ∃ y, s.advance = s.setCur y ∧ y.unplaced = s.cur.unplaced := by
  obtain ⟨y, h, hy⟩ := s.core.fallTo_place s.who s.cur.next
  exact ⟨y, congrArg (fun c => ({ s with core := c } : State)) h, hy⟩

/-! ### Data queues and outstanding accesses -/

theorem Core.setPopQ_eq (c : Core) (k : Strm) (x : DataQ) : ∃ q r, c.setPopQ k x = { c with ldq := q, sdq := r } := by
  cases k
  · exact ⟨c.ldq, c.sdq, rfl⟩
  · exact ⟨x, c.sdq, rfl⟩
  · exact ⟨c.ldq, x, rfl⟩

theorem Core.setPushQ_eq (c : Core) (k : Strm) (x : DataQ) : ∃ q r, c.setPushQ k x = { c with ldq := q, sdq := r } := by
  cases k
  · exact ⟨x, c.sdq, rfl⟩
  · exact ⟨c.ldq, x, rfl⟩
  · exact ⟨c.ldq, c.sdq, rfl⟩

/-- Other accesses outstanding. -/
def State.setAccs (s : State) (l : List Acc) : State := { s with core := { s.core with accs := l } }

@[simp] theorem State.setAccs_cur (s : State) (l : List Acc) : (s.setAccs l).cur = s.cur := by
  unfold State.setAccs State.cur Core.strm
  cases s.who <;> rfl

/-- The outstanding accesses when the issuing stream writes n k: none of its own writes it any more (R43). -/
def State.accsWithout (s : State) (k : Fin 16) : List Acc :=
  s.core.accs.map fun (a : Acc) => if a.strm = s.who then { a with dst := a.dst.without k } else a

theorem State.putN_eq (s : State) (k : Fin 16) (v : Word) :
    s.putN k v = (s.setAccs (s.accsWithout k)).setCur (s.cur.setN k v) := by
  rw [← State.setAccs_cur s (s.accsWithout k)]
  rfl

theorem State.putPred_eq (s : State) (k : Fin 8) (b : Bool) : ∃ l, s.putPred k b = (s.setAccs l).setCur (s.cur.setPred k b) := by
  by_cases h : k = 7
  · refine ⟨s.core.accs.map fun (a : Acc) => if a.strm = s.who then { a with p7w := false } else a, ?_⟩
    rw [← State.setAccs_cur s]
    unfold State.putPred
    simp only [if_pos h]
    rfl
  · refine ⟨s.core.accs, ?_⟩
    unfold State.putPred
    simp only [if_neg h]
    rfl

/-! ### The frame of each operation -/

section
variable (d : Dst) (ps : List (Fin 8)) (s : State)

theorem State.advance_frame : registerFrame d ps s s.advance := by
  obtain ⟨y, h, hy⟩ := s.advance_place
  rw [h]
  exact registerFrame_setCur (Stream.keeps_of_unplaced hy)

theorem State.stall_frame (k : Hold) : registerFrame d ps s (s.stall k) :=
  registerFrame_setCur ⟨⟨rfl, rfl, rfl, rfl, rfl, rfl, rfl, rfl, rfl⟩, fun _ _ => rfl, fun _ _ => rfl, fun _ => rfl⟩

theorem State.markIssued_frame : registerFrame d ps s s.markIssued :=
  registerFrame_trans (s.stall_frame d ps .issuing) (registerFrame_queues d ps (s.stall .issuing) _ _ _ _ true)

theorem State.popSrc_frame (a : Src) : registerFrame d ps s (s.popSrc a) := by
  cases a
  case q =>
    obtain ⟨q, r, h⟩ := s.core.setPopQ_eq s.who (s.core.popQ s.who).pop
    unfold State.popSrc
    rw [h]
    exact registerFrame_queues d ps s ..
  all_goals exact registerFrame_queues d ps s ..

theorem State.popAll_frame (srcs : List Src) : registerFrame d ps s (s.popAll srcs) := by
  induction srcs generalizing s with
  | nil => exact registerFrame_queues d ps s _ _ _ _ _
  | cons a l ih => exact registerFrame_trans (s.popSrc_frame d ps a) (ih (s.popSrc a))

theorem State.finish_frame (u : Use) : registerFrame d ps s (s.finish u) :=
  registerFrame_trans (s.popAll_frame d ps u.srcs) (State.advance_frame d ps _)

end

theorem Stream.keeps_setN (ps : List (Fin 8)) (x : Stream) (k : Fin 16) (v : Word) : x.Keeps (.n k) ps (x.setN k v) := by
  refine ⟨⟨rfl, rfl, rfl, rfl, rfl, rfl, rfl, rfl, rfl⟩, fun j hj => ?_, fun _ _ => rfl, fun _ => rfl⟩
  have hne : k.val ≠ j.val := fun e => hj (congrArg Dst.n (Fin.ext e))
  exact Vector.getElem_set_ne k.isLt j.isLt hne

theorem Stream.keeps_alloc (ps : List (Fin 8)) (x : Stream) (v : Option Word) : x.Keeps .t ps (x.alloc v) :=
  ⟨⟨rfl, rfl, rfl, rfl, rfl, rfl, rfl, rfl, rfl⟩, fun _ _ => rfl, fun _ _ => rfl, fun h => absurd rfl h⟩

theorem Stream.keeps_trans {d : Dst} {ps : List (Fin 8)} {x y z : Stream} (h : x.Keeps d ps y) (k : y.Keeps d ps z) :
    x.Keeps d ps z := by
  obtain ⟨⟨h1, h2, h3, h4, h5, h6, h7, h8, h9⟩, hn, hp, hq⟩ := h
  obtain ⟨⟨k1, k2, k3, k4, k5, k6, k7, k8, k9⟩, kn, kp, kq⟩ := k
  exact ⟨⟨k1.trans h1, k2.trans h2, k3.trans h3, k4.trans h4, k5.trans h5, k6.trans h6, k7.trans h7, k8.trans h8, k9.trans h9⟩,
    fun j hj => (kn j hj).trans (hn j hj), fun j hj => (kp j hj).trans (hp j hj), fun hd => (kq hd).trans (hq hd)⟩

theorem Stream.keeps_allocZeros (ps : List (Fin 8)) (x : Stream) (n : Nat) : x.Keeps .t ps (x.allocZeros n) := by
  induction n generalizing x with
  | zero => exact Stream.keeps_of_unplaced rfl
  | succ n ih => exact Stream.keeps_trans (x.keeps_alloc ps (some 0)) (ih _)

theorem Stream.keeps_setPred (d : Dst) {ps : List (Fin 8)} (x : Stream) {k : Fin 8} (hk : k ∈ ps) (b : Bool) :
    x.Keeps d ps (x.setPred k b) := by
  by_cases h0 : k = 0
  · subst h0
    exact Stream.keeps_of_unplaced rfl
  · have e : x.setPred k b = { x with p := x.p.set k b } := if_neg h0
    rw [e]
    refine ⟨⟨rfl, rfl, rfl, rfl, rfl, rfl, rfl, rfl, rfl⟩, fun _ _ => rfl, fun j hj => ?_, fun _ => rfl⟩
    rw [← e]
    exact x.pred_setPred_ne b fun ejk => hj (ejk ▸ hk)

theorem State.setAccs_frame (d : Dst) (ps : List (Fin 8)) (s : State) (l : List Acc) : registerFrame d ps s (s.setAccs l) :=
  registerFrame_queues d ps s ..

theorem State.putPred_frame (d : Dst) {ps : List (Fin 8)} (s : State) {k : Fin 8} (hk : k ∈ ps) (b : Bool) :
    registerFrame d ps s (s.putPred k b) := by
  obtain ⟨l, h⟩ := s.putPred_eq k b
  rw [h]
  refine registerFrame_trans (s.setAccs_frame d ps l) (registerFrame_setCur ?_)
  rw [State.setAccs_cur]
  exact s.cur.keeps_setPred d hk b

theorem State.putDst_frame (ps : List (Fin 8)) (s : State) (d : Dst) (v : Word) : registerFrame d ps s (s.putDst d v) := by
  cases d with
  | n k =>
    rw [State.putDst, State.putN_eq]
    refine registerFrame_trans (s.setAccs_frame _ ps _) (registerFrame_setCur ?_)
    rw [State.setAccs_cur]
    exact s.cur.keeps_setN ps k v
  | t => exact registerFrame_setCur (s.cur.keeps_alloc ps (some v))
  | q =>
    obtain ⟨q, r, h⟩ := s.core.setPushQ_eq s.who ((s.core.pushQ s.who).push ⟨some v, true, s.core.nextId⟩)
    rw [State.putDst, h]
    exact registerFrame_queues .q ps s ..
  | discard => exact registerFrame_queues .discard ps s ..

end Sys2Proof.Machine
end

section
/-!
SUPPORT. How every instruction with a header issues, and what goes by under a false guard (R48, R52).
-/

namespace Sys2Proof.Machine

/-! ### Every instruction with a header issues -/

/-- The outcome o is a trap of the encoding, or that of an issue in state s by a header, of an instruction that allocates n result
entries. -/
inductive Issued (h : Hdr) (n : Nat) (s : State) (o : Host.Outcome State Fault Refusal) : Prop where
  | plain {g : Gate} {u : Use} {eff : State → Done} (ho : o = issue g h u eff s) (hn : u.allocs = n)
  | trapped {t : Trap} (ho : o = .next (s.raise t))
  | checked {ok : Bool} {g : Gate} {u : Use} {eff : State → Done} (ho : o = issueIf ok g h u eff s) (hn : u.allocs = n)

section shared
variable {h : Hdr} {s : State} {d : Dst} {a b : Src} {srcs : List Src} {imm : BitVec 32} {m : MAddr}

theorem issued_valueOp {f : State → Word} {n : Nat} (hn : d.allocs = n) : Issued h n s (valueOp h srcs d f s) := .plain rfl hn

theorem issued_outcomeOp {p : Fin 8} {f : State → Bool} : Issued h d.allocs s (outcomeOp h srcs d p f s) := .plain rfl rfl

theorem issued_sleepOp {mode : Fin 3} : Issued h 0 s (sleepOp h a imm mode s) := .plain rfl rfl

theorem issued_atomOp {op : AtKind} {w64 sgn rl aq p : Bool} {scope : Scope} {vals : State → Word × Word} :
    Issued h 1 s (atomOp h op srcs w64 sgn rl aq p scope m vals s) := .plain rfl rfl

theorem issued_reduceOp {n : Nat} {kind : Nat → PageKind → Word → AccKind} : Issued h 0 s (reduceOp h a n m kind s) := .plain rfl rfl

theorem issued_copyIssue {strms : List Strm} {i : Instr} {op : CopyOp} {e : EHdr} {sel : List OReg} :
    Issued h 1 s (copyIssue strms h i op e sel s) := .plain rfl rfl

theorem issued_vecOp {g : Gate} {u : Use} {k : Fin 4} {ok : Shp → Bool} {eff : State → Shp → Done} {n : Nat} (hn : u.allocs = n) :
    Issued h n s (vecOp g h u k ok eff s) := .plain rfl hn

theorem issued_elemOp {v : VCom} {ok : EType → EType → Bool} {vd : BitVec 10} {ins : Shp → List (Tile × (Nat → Nat))}
    {f : State → Shp → Nat → Nat} : Issued h 0 s (elemOp h srcs v ok vd ins f s) := issued_vecOp rfl

theorem issued_redOp {o : VRedOp} {ok : EType → EType → Bool} {f : Shp → List (Nat × Bool) → Nat} :
    Issued h 0 s (redOp h o ok f s) := issued_vecOp rfl

theorem issued_mtxIssue {i : Instr} {op : MtxOp} {e : EHdr} {sel : List OReg} : Issued h 0 s (mtxIssue h i op e sel s) :=
  .plain rfl rfl

theorem issued_rickOp {kind : Nat → AccKind} : Issued h d.allocs s (rickOp h d a imm kind s) := .plain rfl rfl

theorem issued_liveOp {acc : Bool} : Issued h 0 s (liveOp h acc a b imm s) := .plain rfl rfl

theorem issued_tlbinv {busy : State → Word → Word → Bool} {drop : State → Word → Word → State} :
    Issued h 0 s (tlbinv h a b imm busy drop s) := .plain rfl rfl

theorem issued_endOp {g : Gate} {last : Bool} {tag : BitVec 7} {kind : State → State × Except Bad EndKind} :
    Issued h 0 s (endOp h g srcs last tag kind s) := .checked rfl rfl

theorem issued_csrx {csr : BitVec 12} {f : Word → Word → Word} : Issued h d.allocs s (csrx h d csr a f s) := .checked rfl rfl

theorem issued_loop {cnt : LoopCount} {body : BitVec 16} : Issued h 0 s (execLoop h cnt body s) := by
  unfold execLoop
  exact .plain rfl rfl

theorem issued_acas {o : AcasOp} : Issued h 1 s (execAcas h o s) := by
  unfold execAcas
  exact issued_atomOp

/-- VINS of IMM32 without its PFXI is a trap before everything else. -/
theorem issued_vins {shp : Fin 4} {ty : EType} {vd : BitVec 10} {idx : VIdx} : Issued h 0 s (execVins h shp ty vd a idx s) := by
  unfold execVins
  dsimp only
  split
  · exact .trapped rfl
  · exact issued_vecOp rfl

theorem issued_arith {o : IArith} {f : Int → Int → Int} : Issued h o.d.allocs s (arith h o f s) := issued_valueOp rfl
theorem issued_arithNs {o : IBin} {f : Int → Int → Int} : Issued h o.d.allocs s (arithNs h o f s) := issued_valueOp rfl
theorem issued_bitwise {o : IBin} {f : Nat → Nat → Nat} : Issued h o.d.allocs s (bitwise h o f s) := issued_valueOp rfl
theorem issued_bitCount {o : IUn} {f : Nat → Nat → Nat} : Issued h o.d.allocs s (bitCount h o f s) := issued_valueOp rfl
theorem issued_field2 {f : Nat → Nat → Nat} : Issued h d.allocs s (field2 h d a b imm f s) := issued_valueOp rfl
theorem issued_float2 {f : Nat → Nat → Nat} : Issued h d.allocs s (float2 h d a b imm f s) := issued_valueOp rfl

theorem issued_atom1 {op : AtKind} {o : AtOp} : Issued h 1 s (atom1 h op o s) := issued_atomOp

theorem issued_vecArith {o : VBin} {ff : EType → RMode → Bool → Nat → Nat → Nat} {fi : Int → Int → Int} :
    Issued h 0 s (vecArith h o ff fi s) := issued_elemOp

theorem issued_vecBin {o : VBit} {ok : EType → EType → Bool} {f : EType → Nat → Nat → Nat} : Issued h 0 s (vecBin h o ok f s) :=
  issued_elemOp

theorem issued_vecSign {o : VAbsOp} {ff : Nat → Nat → Nat} {fi : Int → Int} : Issued h 0 s (vecSign h o ff fi s) := issued_elemOp

theorem issued_sfuOp {o : VUn} {f : FV → SF} : Issued h 0 s (sfuOp h o f s) := issued_elemOp

theorem issued_treeRed {o : VRedOp} {ok : EType → EType → Bool} {ident : Nat} {conv : Nat → Nat} {op : Nat → Nat → Nat} :
    Issued h 0 s (treeRed h o ok ident conv op s) := issued_redOp

theorem issued_updOp {o : UOp} {ks : List Nat} {rd : Shp → List Tile} {mom : List (BitVec 10)}
    {f : State → Shp → Nat → Nat × List Nat} : Issued h 0 s (updOp h o ks rd mom f s) := issued_vecOp rfl

theorem issued_maskOp {shp : Fin 4} {f : List Nat → Nat} {ma : Fin 16} : Issued h d.allocs s (maskOp h shp d f ma s) :=
  issued_vecOp rfl

end shared

/-- One case for each operation that instructions share; the events have no header. -/
theorem exec_issued {i : Instr} {h : Hdr} (s : State) (hi : i.hdr? = some h) : Issued h (entriesOf i) s (exec i s) := by
  unfold exec
  cases i
  case sel | plog | br | brIndirect | bc | bq | bqNobranch | bpush | jtab | call | callIndirect | ret | lbrk | nop | ends |
    sbwait | ld | ldTile | ldq | st | stTile | stq | pref | rel | rell | acq | acql | lsync | waita | waitaArm | wcancel | swait |
    ssig | cst | cinfo | cchk | cstat | drstep | vshape | mlog | mstat | mstop | xdeq | xcmb | xdone | spawn | ctxliveClr | trap |
    eret | ctxsv | ctxld | semmap | mdrain | preempt | cmintMint | cmintRevoke | haltWfi | haltStop =>
    cases hi
    exact .plain rfl rfl
  case qpush | qpop | qcnt | relCommit | fence | cld | cnarrow | xenq | xenqTile | csrr | csrw =>
    cases hi
    exact .checked rfl rfl
  case div | bfi | mov | movi | lea | ffma | fcvt | rdtime | rdid | lstat | srd =>
    cases hi
    exact issued_valueOp rfl
  case add | sub | mul =>
    cases hi
    exact issued_arith
  case mulh | rem | min | max =>
    cases hi
    exact issued_arithNs
  case and | or | xor | andn | shl | shr | sar | rotl =>
    cases hi
    exact issued_bitwise
  case clz | ctz | popc =>
    cases hi
    exact issued_bitCount
  case sext | zext | bfx =>
    cases hi
    exact issued_field2
  case fadd | fmul | fmin | fmax =>
    cases hi
    exact issued_float2
  case cmp | fcmp =>
    cases hi
    exact issued_outcomeOp
  case sleep | sleepUntil | sleepFor =>
    cases hi
    exact issued_sleepOp
  case loop =>
    cases hi
    exact issued_loop
  case acas =>
    cases hi
    exact issued_acas
  case afadd =>
    cases hi
    exact issued_atomOp
  case aadd | amin | amax | aand | aor | axor | aswp =>
    cases hi
    exact issued_atom1
  case redi | redf =>
    cases hi
    exact issued_reduceOp
  case cpy | cpyn | cpyt | cgath | cscat | cfill | cred | credc | ccoll | cbget | draft =>
    cases hi
    exact issued_copyIssue
  case vcmp | vqntMx | vscan | vsincos | vtrn | vperm | vshuf | vsort | vmrg | vdrop | vdefer | vdrain | vext =>
    cases hi
    exact issued_vecOp rfl
  case vins =>
    cases hi
    exact issued_vins
  case vfma | vsel | vmov | vbcast | viota | vcvt | vqnt | vdqnt | vdqntMx | vrng =>
    cases hi
    exact issued_elemOp
  case vadd | vsub | vmul =>
    cases hi
    exact issued_vecArith
  case vmin | vmax | vand | vor | vxor | vshl | vshr | vsar =>
    cases hi
    exact issued_vecBin
  case vabs | vneg =>
    cases hi
    exact issued_vecSign
  case vexp2 | vlog2 | vrcp | vrsqrt | vsqrt | vtanh | vsig =>
    cases hi
    exact issued_sfuOp
  case vargmax =>
    cases hi
    exact issued_redOp
  case vrsum | vrmax | vramax | vrmin =>
    cases hi
    exact issued_treeRed
  case uaxpby | uadamw | uema | usgdm | uclipVal | uclipNrm =>
    cases hi
    exact issued_updOp
  case mcnt | mfirst =>
    cases hi
    exact issued_maskOp
  case mma | mmaz | azero | adrain | aload | aacc | mcksumOpen | mcksumClose =>
    cases hi
    exact issued_mtxIssue
  case xstat | xkick =>
    cases hi
    exact issued_rickOp
  case ctxliveTile | ctxliveAcc =>
    cases hi
    exact issued_liveOp
  case tlbinvVa | tlbinvTnt | tlbinvAll | tlbinvCap | tlbinvIc =>
    cases hi
    exact issued_tlbinv
  case susp | suspCmb | yield | exit | join | twheel =>
    cases hi
    exact issued_endOp
  case csrxSwp | csrxSet | csrxClr =>
    cases hi
    exact issued_csrx
  all_goals cases hi

/-! ### A false guard -/

/-- What is not a trap of its encoding and no stall goes by under a false guard. -/
theorem Issued.goesBy {h : Hdr} {n : Nat} {s : State} {o : Host.Outcome State Fault Refusal} (hi : Issued h n s o)
    (hg : s.guard h = false) : (∃ t, o = .next (s.raise t)) ∨ (∃ k, o = .next (s.stall k)) ∨
      o = .next (s.markIssued.skip ⟨[], [], .discard, n⟩) := by
  cases hi with
  | trapped ho => exact .inl ⟨_, ho⟩
  | plain ho hn =>
    subst ho hn
    exact issue_false hg
  | checked ho hn =>
    subst ho hn
    exact issueIf_false hg

theorem State.skip_frame (s : State) (u : Use) : registerFrame .t [] s (s.skip u) :=
  registerFrame_trans (registerFrame_setCur (s.cur.keeps_allocZeros [] u.allocs)) (State.advance_frame .t [] _)

/-- A skip changes the issuing stream only. -/
theorem State.skip_eq (s : State) (u : Use) : ∃ y, s.skip u = s.setCur y ∧ y.rq = (s.cur.allocZeros u.allocs).rq := by
  obtain ⟨y, h, hy⟩ := (s.mapCur fun x => x.allocZeros u.allocs).advance_place
  refine ⟨y, ?_, ?_⟩
  · rw [State.skip, h]
    unfold State.mapCur State.setCur
    rw [Core.setStrm_setStrm]
  · have e := congrArg Stream.rq hy
    rw [State.cur_mapCur] at e
    exact e

theorem Stream.entry_alloc (x : Stream) (v : Option Word) {k : Nat} (hk : k < 16) :
    (x.alloc v).entry k = if k = 0 then v else x.entry (k - 1) := by
  unfold Stream.entry Stream.alloc
  dsimp only
  rw [List.getD_eq_getElem?_getD, List.getElem?_take_of_lt hk]
  cases k with
  | zero => rfl
  | succ k => simp

/-- n zero entries stand before the ones that were there. -/
theorem Stream.entry_allocZeros (x : Stream) {n k : Nat} (hn : n ≤ 16) (hk : k < 16) :
    (x.allocZeros n).entry k = if k < n then some 0 else x.entry (k - n) := by
  induction n generalizing x with
  | zero => rfl
  | succ n ih =>
    rw [Stream.allocZeros, ih _ (by omega)]
    split
    · rw [if_pos (by omega)]
    · rw [Stream.entry_alloc _ _ (by omega)]
      split
      · rw [if_pos (by omega)]
      · rw [if_neg (by omega), Nat.sub_sub]

theorem State.stall_only (s : State) (k : Hold) : { (s.stall k).cur with hold := s.cur.hold } = s.cur ∧
    { (s.stall k).core with l := s.core.l, c := s.core.c, s := s.core.s } = s.core := by
  refine ⟨by rw [State.stall, State.cur_mapCur], ?_⟩
  unfold State.stall State.mapCur State.setCur Core.setStrm
  cases s.who <;> rfl

/-- Settles O9: every instruction with a header issues, and a skip and a stall keep their frames. -/
theorem predicatedFalse : Obligations.PredicatedFalse := by
  unfold Obligations.PredicatedFalse
  refine ⟨⟨fun i h s hi hg => (exec_issued s hi).goesBy hg, fun s u => ?_⟩, fun s k => ?_⟩
  · obtain ⟨y, h, hy⟩ := s.markIssued.skip_eq u
    refine ⟨registerFrame_trans (s.markIssued_frame .t []) (s.markIssued.skip_frame u), ?_, ?_, ?_, fun hu k hk => ?_⟩
    · simp [h]
    · simp [h]
    · simp [h]
    · have e := s.markIssued.cur.entry_allocZeros hu hk
      rw [State.markIssued_cur] at e
      rw [h, State.cur_setCur, Stream.entry, hy, State.markIssued_cur]
      exact e
  · exact ⟨sameOutside_stall s k, (s.stall_only k).1, (s.stall_only k).2, fun j hj => Core.strm_setStrm_ne _ _ hj⟩

end Sys2Proof.Machine
end

section
/-!
SUPPORT. The instructions of groups SINT and SFLT and those that read one register, within their frame (R42 to R54, R171 to R183,
R200, R201, R220, R225).
-/

namespace Sys2Proof.Machine

theorem issue_frame {g : Gate} {h : Hdr} {u : Use} {eff : State → Done} {ps : List (Fin 8)} {s t v : State} (he : Executes g h u s)
    (ht : issue g h u eff s = .next t) (hv : eff s.markIssued = .go v) (hf : registerFrame u.dst ps s.markIssued v) :
    registerFrame u.dst ps s t := by
  rw [issue_go he hv] at ht
  cases ht
  exact registerFrame_trans (s.markIssued_frame _ ps) (registerFrame_trans hf (v.finish_frame _ ps u))

/-! ### Instructions of one value -/

/-- The outcome o is that of an instruction whose whole effect is one value for its destination. -/
def ValueOut (h : Hdr) (srcs : List Src) (d : Dst) (s : State) (o : Host.Outcome State Fault Refusal) : Prop :=
  ∃ f, o = valueOp h srcs d f s

theorem valueOp_frame {h : Hdr} {srcs : List Src} {d : Dst} {f : State → Word} {s t : State}
    (he : Executes (gateR anyStrm srcs) h (useD srcs d) s) (ht : valueOp h srcs d f s = .next t) : registerFrame d [] s t :=
  issue_frame he ht rfl (State.putDst_frame [] _ _ _)

/-- A family of instructions whose meanings e are of one value. -/
theorem valueFramed_of {α : Type} {i : Hdr → α → Instr} {srcs : α → List Src} {d : α → Dst}
    (e : Hdr → α → State → Host.Outcome State Fault Refusal) (hv : ∀ h o s, ValueOut h (srcs o) (d o) s (e h o s))
    (he : ∀ h o s, exec (i h o) s = e h o s := by intros; rfl) : valueFramed i srcs d := by
  intro h o s t hx ht
  obtain ⟨f, hf⟩ := hv h o s
  rw [he, hf] at ht
  exact valueOp_frame hx ht

section shared
variable {h : Hdr} {s : State} {d : Dst} {a b : Src} {srcs : List Src} {imm : BitVec 32}

theorem valueOut_valueOp {f : State → Word} : ValueOut h srcs d s (valueOp h srcs d f s) := ⟨f, rfl⟩

theorem valueOut_arith {o : IArith} {f : Int → Int → Int} : ValueOut h [o.a, o.b] o.d s (arith h o f s) := ⟨_, rfl⟩
theorem valueOut_arithNs {o : IBin} {f : Int → Int → Int} : ValueOut h [o.a, o.b] o.d s (arithNs h o f s) := ⟨_, rfl⟩
theorem valueOut_bitwise {o : IBin} {f : Nat → Nat → Nat} : ValueOut h [o.a, o.b] o.d s (bitwise h o f s) := ⟨_, rfl⟩
theorem valueOut_bitCount {o : IUn} {f : Nat → Nat → Nat} : ValueOut h [o.a] o.d s (bitCount h o f s) := ⟨_, rfl⟩
theorem valueOut_field2 {f : Nat → Nat → Nat} : ValueOut h [a, b] d s (field2 h d a b imm f s) := ⟨_, rfl⟩
theorem valueOut_float2 {f : Nat → Nat → Nat} : ValueOut h [a, b] d s (float2 h d a b imm f s) := ⟨_, rfl⟩

end shared

theorem outcomeOp_frame {h : Hdr} {srcs : List Src} {d : Dst} {p : Fin 8} {f : State → Bool} {s t : State}
    (he : Executes (gateR anyStrm srcs) h (useD srcs d) s) (ht : outcomeOp h srcs d p f s = .next t) : registerFrame d [p] s t :=
  issue_frame he ht rfl (registerFrame_trans (State.putPred_frame d _ (List.mem_singleton_self p) _) (State.putDst_frame [p] _ d _))

/-! ### The statement -/

/-- Settles O16: each instruction by the operation that its family shares. -/
theorem scalarFrame : Obligations.ScalarFrame := by
  unfold Obligations.ScalarFrame
  refine ⟨valueFramed_of execAdd fun _ _ _ => valueOut_arith,
    valueFramed_of execSub fun _ _ _ => valueOut_arith,
    valueFramed_of execMul fun _ _ _ => valueOut_arith,
    valueFramed_of execDiv fun _ _ _ => valueOut_valueOp,
    valueFramed_of execMulh fun _ _ _ => valueOut_arithNs,
    valueFramed_of execRem fun _ _ _ => valueOut_arithNs,
    valueFramed_of execAnd fun _ _ _ => valueOut_bitwise,
    valueFramed_of execOr fun _ _ _ => valueOut_bitwise,
    valueFramed_of execXor fun _ _ _ => valueOut_bitwise,
    valueFramed_of execAndn fun _ _ _ => valueOut_bitwise,
    valueFramed_of execShl fun _ _ _ => valueOut_bitwise,
    valueFramed_of execShr fun _ _ _ => valueOut_bitwise,
    valueFramed_of execSar fun _ _ _ => valueOut_bitwise,
    valueFramed_of execRotl fun _ _ _ => valueOut_bitwise,
    valueFramed_of execMin fun _ _ _ => valueOut_arithNs,
    valueFramed_of execMax fun _ _ _ => valueOut_arithNs,
    valueFramed_of execClz fun _ _ _ => valueOut_bitCount,
    valueFramed_of execCtz fun _ _ _ => valueOut_bitCount,
    valueFramed_of execPopc fun _ _ _ => valueOut_bitCount,
    valueFramed_of execMov fun _ _ _ => valueOut_valueOp,
    valueFramed_of execSext fun _ _ _ => valueOut_field2,
    valueFramed_of execZext fun _ _ _ => valueOut_field2,
    valueFramed_of execBfx fun _ _ _ => valueOut_field2,
    valueFramed_of execBfi fun _ _ _ => valueOut_valueOp,
    fun sh => valueFramed_of (execLea · sh ·) fun _ _ _ => valueOut_valueOp,
    valueFramed_of execFadd fun _ _ _ => valueOut_float2,
    valueFramed_of execFmul fun _ _ _ => valueOut_float2,
    valueFramed_of execFmin fun _ _ _ => valueOut_float2,
    valueFramed_of execFmax fun _ _ _ => valueOut_float2,
    valueFramed_of execFfma fun _ _ _ => valueOut_valueOp,
    valueFramed_of execFcvt fun _ _ _ => valueOut_valueOp,
    fun x => valueFramed_of (execRdtime · x ·) fun _ _ _ => valueOut_valueOp,
    fun x => valueFramed_of (execRdid · x ·) fun _ _ _ => valueOut_valueOp,
    fun x => valueFramed_of (execLstat · x ·) fun _ _ _ => valueOut_valueOp,
    fun x => valueFramed_of (execSrd · x ·) fun _ _ _ => valueOut_valueOp,
    ?_, ?_, ?_, ?_, ?_⟩
  · exact fun h d k v s t he ht => valueOp_frame he (show execMovi h d k v s = .next t from ht)
  · exact fun h o s t he ht => issue_frame he (show execSel h o s = .next t from ht) rfl (State.putDst_frame [] _ _ _)
  · exact fun h o s t he ht => outcomeOp_frame he (show execCmp h o s = .next t from ht)
  · exact fun h o s t he ht => outcomeOp_frame he (show execFcmp h o s = .next t from ht)
  · exact fun h pd pa pb tbl s t he ht => issue_frame he (show execPlog h pd pa pb tbl s = .next t from ht) rfl
      (State.putPred_frame _ _ (List.mem_singleton_self pd) _)

end Sys2Proof.Machine
end

section
/-!
SUPPORT. What a write of each destination leaves (R43, R46, R50, R155).
-/

namespace Sys2Proof.Machine

section
variable (s : State) (v : Word)

/-! ### A named scalar -/

theorem State.putN_cur (k : Fin 16) : (s.putN k v).cur = s.cur.setN k v := by
  rw [State.putN_eq, State.cur_setCur]

theorem State.putN_n (k : Fin 16) : (s.putN k v).cur.n[k] = v ∧ ∀ j, j ≠ k → (s.putN k v).cur.n[j] = s.cur.n[j] := by
  rw [s.putN_cur v k]
  exact ⟨Vector.getElem_set_self k.isLt, fun j hj => Vector.getElem_set_ne k.isLt j.isLt fun e => hj (Fin.ext e.symm)⟩

/-! ### A result entry -/

theorem State.putDst_t_cur : (s.putDst .t v).cur = s.cur.alloc (some v) := s.cur_setCur _

theorem State.putDst_t_entry : (s.putDst .t v).cur.entry 0 = some v ∧
    ∀ k, k < 15 → (s.putDst .t v).cur.entry (k + 1) = s.cur.entry k := by
  rw [s.putDst_t_cur v]
  refine ⟨Stream.entry_alloc _ _ (by omega), fun k hk => ?_⟩
  rw [Stream.entry_alloc _ _ (by omega), if_neg (by omega), Nat.add_sub_cancel]

/-! ### An entry of the queue that the stream pushes -/

theorem State.putDst_q_l (h : s.who = .l) :
    ∃ e, (s.putDst .q v).core.ldq.ents = s.core.ldq.ents ++ [e] ∧ e.val = some v ∧ e.fresh = true := by
  refine ⟨⟨some v, true, s.core.nextId⟩, ?_, rfl, rfl⟩
  simp only [State.putDst, h]
  rfl

theorem State.putDst_q_c (h : s.who = .c) :
    ∃ e, (s.putDst .q v).core.sdq.ents = s.core.sdq.ents ++ [e] ∧ e.val = some v ∧ e.fresh = true := by
  refine ⟨⟨some v, true, s.core.nextId⟩, ?_, rfl, rfl⟩
  simp only [State.putDst, h]
  rfl

/-! ### What stays, whatever the destination -/

/-- What a destination leaves of the core beside the frame. -/
def sameIssue (d : Dst) (s t : State) : Prop :=
  t.cur.pc = s.cur.pc ∧ ((∀ k, d ≠ .n k) → t.core.accs = s.core.accs) ∧ t.core.nextId = s.core.nextId ∧
  t.core.issued = s.core.issued ∧ (d ≠ .q ∨ s.who = .c → t.core.ldq = s.core.ldq) ∧
  (d ≠ .q ∨ s.who = .l → t.core.sdq = s.core.sdq)

theorem State.putDst_sameIssue (d : Dst) : sameIssue d s (s.putDst d v) := by
  cases d with
  | n k =>
    refine ⟨?_, fun h => absurd rfl (h k), ?_, ?_, fun _ => ?_, fun _ => ?_⟩
    · exact (congrArg Stream.pc (s.putN_cur v k)).trans rfl
    all_goals
      rw [State.putDst, State.putN_eq]
      simp [State.setAccs]
  | t =>
    refine ⟨(congrArg Stream.pc (s.putDst_t_cur v)).trans rfl, fun _ => ?_, ?_, ?_, fun _ => ?_, fun _ => ?_⟩
    all_goals simp [State.putDst]
  | q =>
    cases hw : s.who with
    | l => simp [sameIssue, State.putDst, State.cur, Core.setPushQ, Core.strm, hw]
    | c => simp [sameIssue, State.putDst, State.cur, Core.setPushQ, Core.strm, hw]
    | s => simp [sameIssue, State.putDst, State.cur, Core.setPushQ, Core.strm, hw]
  | discard => exact ⟨rfl, fun _ => rfl, rfl, rfl, fun _ => rfl, fun _ => rfl⟩

end

/-- Settles O10: the write of each kind of destination, and its frame. -/
theorem destinationWrites : Obligations.DestinationWrites := by
  unfold Obligations.DestinationWrites
  intro s v
  exact ⟨s.putN_n v, (s.putDst_t_entry v).1, (s.putDst_t_entry v).2, s.putDst_q_l v, s.putDst_q_c v, rfl,
    fun d => ⟨s.putDst_frame [] d v, s.putDst_sameIssue v d⟩⟩

end Sys2Proof.Machine
end

section
/-!
SUPPORT. The queues between streams (R50, R51, R187, R188, R202): what their instructions come to, and where they are ILLEGAL.
-/

namespace Sys2Proof.Machine

/-! ### Branch-outcome queues -/

theorem Core.setBq_same (c : Core) (k : Fin 6) (q : BitQ) : (c.setBq k q).bq[k] = q := Vector.getElem_set_self k.isLt

theorem Core.setBq_ne (c : Core) {j k : Fin 6} (q : BitQ) (h : j ≠ k) : (c.setBq k q).bq[j] = c.bq[j] :=
  Vector.getElem_set_ne k.isLt j.isLt fun e => h (Fin.ext e.symm)

theorem bqMoves_clause (s : State) (k : Fin 6) (b : Bool) : (s.pushBqAt k b).core.bq[k].ents = s.core.bq[k].ents ++ [(b, true)] ∧
    (s.popBqAt k).core.bq[k].ents = s.core.bq[k].ents.tail ∧
    ∀ j : Fin 6, j ≠ k → (s.pushBqAt k b).core.bq[j] = s.core.bq[j] ∧ (s.popBqAt k).core.bq[j] = s.core.bq[j] := by
  refine ⟨?_, ?_, fun j hj => ⟨s.core.setBq_ne _ hj, s.core.setBq_ne _ hj⟩⟩
  · exact congrArg BitQ.ents (s.core.setBq_same k _)
  · exact congrArg BitQ.ents (s.core.setBq_same k _)

section
variable (h : Hdr) (q inv : Bool) (pd : Fin 8) (off : BitVec 32)

theorem bq_branches {s t : State} {x : Bool} (he : Executes (gateN anyStrm) h (useS []) s)
    (hx : (s.core.bq[popBq s.who q]).head? = some x) (hn : x ≠ inv) (hl : LeadsTo s.markIssued (s.cur.pc + off) t) :
    exec (.bq h q inv pd off) s = .next ((t.popBqAt (popBq s.who q)).putPred pd x) := by
  have e : (s.markIssued.core.bq[popBq s.markIssued.who q]).head? = some x := by simpa using hx
  refine (issue_stay he ?_ : execBq h q inv pd off s = _)
  simp only [e, bne_iff_ne.2 hn, if_true, target_markIssued, transfer_of hl]
  rfl

theorem bq_goesOn (x : Bool) : Gives (.bq h q inv pd off) (gateN anyStrm) h (useS [])
    (fun t => (t.core.bq[popBq t.who q]).head? = some x ∧ x = inv) fun t => (t.popBqAt (popBq t.who q)).putPred pd x := by
  refine gives_of (fun s => (rfl : execBq h q inv pd off s = _)) fun t ⟨hx, hi⟩ => ?_
  simp only [hx, hi, bne_self_eq_false, Bool.false_eq_true, if_false]

theorem bqNobranch_pops (x : Bool) : Gives (.bqNobranch h q inv pd) (gateN anyStrm) h (useS [])
    (fun t => (t.core.bq[popBq t.who q]).head? = some x) fun t => (t.popBqAt (popBq t.who q)).putPred pd x := by
  refine gives_of (fun s => (rfl : execBqNobranch h q inv pd s = _)) fun t hx => ?_
  simp only [hx]

theorem bq_stalls : Stalls (.bq h q inv pd off) (gateN anyStrm) h (useS []) fun t => (t.core.bq[popBq t.who q]).head? = none := by
  refine stalls_of (k := .bq) (fun s => (rfl : execBq h q inv pd off s = _)) fun t hx => ?_
  simp only [hx]

theorem bqNobranch_stalls :
    Stalls (.bqNobranch h q inv pd) (gateN anyStrm) h (useS []) fun t => (t.core.bq[popBq t.who q]).head? = none := by
  refine stalls_of (k := .bq) (fun s => (rfl : execBqNobranch h q inv pd s = _)) fun t hx => ?_
  simp only [hx]

end

theorem bpush_clause (h : Hdr) (tgt : Bool) (p : Fin 8) (inv : Bool) : let u : Use := { useS [] with preds := [p] }
    Gives (.bpush h tgt p inv) (gateN anyStrm) h u (fun t => (t.core.bq[pushBq t.who tgt]).ents.length < 16)
      (fun t => t.pushBqAt (pushBq t.who tgt) (xor (t.cur.pred p) inv)) ∧
    Stalls (.bpush h tgt p inv) (gateN anyStrm) h u fun t => 16 ≤ (t.core.bq[pushBq t.who tgt]).ents.length := by
  refine ⟨gives_of (fun s => (rfl : execBpush h tgt p inv s = _)) fun t hr => ?_,
    stalls_of (k := .bq) (fun s => (rfl : execBpush h tgt p inv s = _)) fun t hr => ?_⟩
  · simp only [BitQ.room, hr, decide_true, if_true]
  · simp only [BitQ.room, not_lt.2 hr, decide_false, Bool.false_eq_true, if_false]

/-! ### Operations with a check of their queue -/

/-- What an instruction gives whose fields are checked, where P tells that the check passes. -/
theorem gives_of_checked {i : Instr} {ok : State → Bool} {g : Gate} {h : Hdr} {u : Use} {eff : State → Done} {P : State → Prop}
    {f : State → State} (hi : ∀ s, exec i s = issueIf (ok s) g h u eff s) (hok : ∀ s, P s.markIssued → ok s = true)
    (hf : ∀ t, P t → eff t = .go (f t)) : Gives i g h u P f := by
  intro s he hp
  rw [hi, issueIf_eq (hok s hp), issue_go he (hf _ hp)]

theorem issueIf_illegal {g : Gate} {h : Hdr} {u : Use} {eff : State → Done} {s : State} (hg : s.gateTrap g u = none) :
    issueIf false g h u eff s = .next (s.raise (s.encTrap .illegal s.cur.npfx)) := by
  simp [issueIf, hg]

section
variable (h : Hdr) (q : Fin 8) (d : Dst) (p : Fin 8) (a : Src) (imm : BitVec 32)

theorem qpush_clause : Gives (.qpush h q p a imm) (gateR anyStrm [a]) h (useS [a])
      (fun t => qPusher q = t.who ∧ t.core.qCount q < qSize q) (fun t => (t.qPush q (t.val imm a)).putPred p true) ∧
    Gives (.qpush h q p a imm) (gateR anyStrm [a]) h (useS [a])
      (fun t => qPusher q = t.who ∧ qSize q ≤ t.core.qCount q) fun t => t.putPred p false := by
  refine ⟨gives_of_checked (fun s => (rfl : execQpush h q p a imm s = _)) (fun s hs => decide_eq_true hs.1) fun t ht => if_pos ht.2,
    gives_of_checked (fun s => (rfl : execQpush h q p a imm s = _)) (fun s hs => decide_eq_true hs.1) fun t ht =>
      if_neg (not_lt.2 ht.2)⟩

theorem qpop_clause (v : Word) (u : State) : Gives (.qpop h q d p) (gateN anyStrm) h (useD [] d)
      (fun t => qPopper q = t.who ∧ t.qPop q = some (v, u)) (fun _ => (u.putPred p true).putDst d v) ∧
    Gives (.qpop h q d p) (gateN anyStrm) h (useD [] d)
      (fun t => qPopper q = t.who ∧ t.qPop q = none) fun t => (t.putPred p false).putDst d 0 := by
  refine ⟨gives_of_checked (fun s => (rfl : execQpop h q d p s = _)) (fun s hs => decide_eq_true hs.1) fun t ht => ?_,
    gives_of_checked (fun s => (rfl : execQpop h q d p s = _)) (fun s hs => decide_eq_true hs.1) fun t ht => ?_⟩
  · simp only [ht.2]
  · simp only [ht.2]

theorem qcnt_gives : Gives (.qcnt h q d) (gateN anyStrm) h (useD [] d) (fun t => qPusher q = t.who ∨ qPopper q = t.who)
    fun t => t.putDst d (BitVec.ofNat 64 (t.core.qCount q)) := by
  refine gives_of_checked (fun s => (rfl : execQcnt h q d s = _)) (fun s hs => ?_) fun t ht => rfl
  simpa using hs

theorem qpush_illegal (s : State) (hg : s.gateTrap (gateR anyStrm [a]) (useS [a]) = none) (hq : qPusher q ≠ s.who) :
    exec (.qpush h q p a imm) s = .next (s.raise (s.encTrap .illegal s.cur.npfx)) := by
  show execQpush h q p a imm s = _
  rw [execQpush, decide_eq_false hq, issueIf_illegal hg]

theorem qpop_illegal (s : State) (hg : s.gateTrap (gateN anyStrm) (useD [] d) = none) (hq : qPopper q ≠ s.who) :
    exec (.qpop h q d p) s = .next (s.raise (s.encTrap .illegal s.cur.npfx)) := by
  show execQpop h q d p s = _
  rw [execQpop, decide_eq_false hq, issueIf_illegal hg]

theorem qcnt_illegal (s : State) (hg : s.gateTrap (gateN anyStrm) (useD [] d) = none) (h1 : qPusher q ≠ s.who)
    (h2 : qPopper q ≠ s.who) :
    exec (.qcnt h q d) s = .next (s.raise (s.encTrap .illegal s.cur.npfx)) := by
  show execQcnt h q d s = _
  rw [execQcnt, decide_eq_false h1, decide_eq_false h2]
  exact issueIf_illegal hg

end

/-- Settles O22: each queue operation by its case. -/
theorem queueResults : Obligations.QueueResults := by
  unfold Obligations.QueueResults
  exact ⟨⟨fun h q inv pd off s x t => bq_branches h q inv pd off, bq_goesOn, bqNobranch_pops, bq_stalls, bqNobranch_stalls,
    bpush_clause, qpush_clause, fun h q d p v u => qpop_clause h q d p v u, qcnt_gives, bqMoves_clause⟩,
    fun h q p a imm s => qpush_illegal h q p a imm s, fun h q d p s => qpop_illegal h q d p s, fun h q d s => qcnt_illegal h q d s⟩

end Sys2Proof.Machine
end

section
/-!
SUPPORT. The step of the machine (R42, R141, R162, R163): the turn of a stream that comes to an instruction, the bytes of a word; the
machine after a cold reset.
-/

namespace Sys2Proof

/-! ### The bytes of a word (R141) -/

theorem length_bytesOfWord (w : IWord) : (bytesOfWord w).length = 12 := by simp [bytesOfWord]

theorem getD_bytesOfWord (w : IWord) {i : Nat} (hi : i < 12) : (bytesOfWord w).getD i 0 = w.extractLsb' (8 * i) 8 := by
  simp [bytesOfWord, hi]

/-- Bit j of a word of bytes is bit j mod 8 of byte j / 8. -/
theorem getLsbD_wordOfBytes (bs : List Byte) {j : Nat} (hj : j < 96) :
    (wordOfBytes bs).getLsbD j = (bs.getD (j / 8) 0).getLsbD (j % 8) := by
  induction bs generalizing j with
  | nil => simp [wordOfBytes]
  | cons b bs ih =>
    have e : wordOfBytes (b :: bs) = wordOfBytes bs <<< 8 ||| b.setWidth 96 := rfl
    rw [e, BitVec.getLsbD_or, BitVec.getLsbD_shiftLeft, BitVec.getLsbD_setWidth]
    by_cases h8 : j < 8
    · simp [h8, hj, Nat.div_eq_of_lt h8, Nat.mod_eq_of_lt h8]
    · obtain ⟨k, rfl⟩ : ∃ k, j = k + 8 := ⟨j - 8, by omega⟩
      rw [Nat.add_div_right k (by decide), Nat.add_mod_right, List.getD_cons_succ, ← ih (by omega)]
      simp [hj]

theorem wordOfBytes_bytesOfWord (w : IWord) : wordOfBytes (bytesOfWord w) = w := by
  refine BitVec.eq_of_getLsbD_eq fun j hj => ?_
  rw [getLsbD_wordOfBytes _ hj, getD_bytesOfWord w (by omega), BitVec.getLsbD_extractLsb', Nat.div_add_mod]
  simp [Nat.mod_lt]

end Sys2Proof

namespace Sys2Proof.Machine

/-! ### The turn of a stream -/

theorem State.tryWord_run {u : State} {w : IWord} {i : Instr} (ht : u.wordTrap w = none) (hd : decodeWord w = .ok i) :
    u.tryWord w = .run u i := by
  simp only [State.tryWord, ht, hd]

/-- The turn of a stream that comes to a word comes to its instruction. -/
theorem State.strmTurn_run {s u : State} {k : Strm} {i : Instr} (h : FetchesNext s k u i) : s.strmTurn k = .run u i := by
  obtain ⟨hr, hp, he, hd, hs, hm, hi, w, hw, ht, hc⟩ := h
  have he' : (s.core.ending.any fun e => e.strm = k) = false := by simpa using he
  have hn : State.nextWord { s with who := k } = .run u i := by
    unfold State.nextWord
    rcases hw with ⟨hb, rfl⟩ | ⟨hb, v, bs, hf, rfl, rfl⟩
    · simp only [hb, State.tryWord_run ht hc]
    · simp only [hb, hf, State.tryWord_run ht hc]
  unfold State.strmTurn
  simp only [hr, hp, he', hd, hs, hm, hi, hn]
  rfl

theorem runTurn_run {before u : State} {i : Instr} : (isPfx i = false → runTurn before (.run u i) = exec i u) ∧
    (isPfx i = true → runTurn before (.run u i) = exec i { u with turn := before.turn, agenda := before.agenda }) := by
  constructor <;> intro h <;> simp [runTurn, State.keepTurn, h]

/-! ### The moves of a step -/

theorem step_turn {s : State} {k : Strm} (ha : s.agenda = []) (ht : s.turn = .strm k) :
    step s = runTurn s (State.strmTurn { s with turn := s.turn.next } k) := by
  simp only [step, ha, ht]

theorem step_move {s : State} {m : Move} {rest : List Move} (ha : s.agenda = m :: rest) :
    step s = runMove s { s with agenda := rest } m := by
  simp only [step, ha]

theorem State.deafTo_awake {s : State} (i : Instr) (h1 : s.boot ≠ .fatal) (h2 : s.boot ≠ .dead) : s.deafTo i = false := by
  simp [State.deafTo, h1, h2]

theorem step_event {s : State} {i : Instr} {rest : List Move} (ha : s.agenda = .ev i :: rest) :
    (s.deafTo i = false → step s = exec i { s with agenda := rest }) ∧
    (s.deafTo i = true → step s = .next { s with agenda := rest }) := by
  have e : (State.deafTo { s with agenda := rest } i) = s.deafTo i := rfl
  rw [step_move ha, runMove, e]
  constructor <;> intro h <;> simp [h]

/-- Settles O4: the turn that is taken, the agenda before it, and the bytes of a word. -/
theorem stepRuns : Obligations.StepRuns := by
  unfold Obligations.StepRuns
  refine ⟨fun s k u i ha ht hf => ?_, fun s n k rest u i ha hf => ?_, fun s i rest ha => ?_, ⟨rfl, rfl, rfl⟩, fun w => ?_⟩
  · rw [step_turn ha ht, State.strmTurn_run hf]
    exact runTurn_run
  · rw [step_move ha, runMove, State.strmTurn_run hf]
    exact runTurn_run
  · exact ⟨(step_event ha).1, (step_event ha).2, State.deafTo_awake i⟩
  · exact ⟨wordOfBytes_bytesOfWord w, length_bytesOfWord w, fun i hi => getD_bytesOfWord w hi⟩

/-! ### The machine after a cold reset -/

theorem mslots_reset {k : Nat} (hk : k < 16) : lookupD State.reset.mslots k [] = List.replicate 32 0 := by
  interval_cases k <;> rfl

/-- Settles O5: the values of `State.reset`. -/
theorem resetState : Obligations.ResetState := by
  unfold Obligations.ResetState
  refine ⟨rfl, rfl, rfl, rfl, rfl, rfl, fun k => by cases k <;> exact ⟨rfl, rfl, rfl⟩, rfl, rfl, rfl, rfl, rfl, rfl, rfl, rfl, rfl, rfl,
    rfl, rfl, rfl, rfl, rfl, rfl, rfl, fun n => ⟨rfl, rfl, rfl, rfl⟩, rfl, rfl, rfl, fun k hk => mslots_reset hk⟩

end Sys2Proof.Machine
end

section
/-!
SUPPORT. Watches and semaphores (R62, R223 to R225).
-/

namespace Sys2Proof.Machine

/-! ### Watches -/

section
variable (h : Hdr) (a : Src) (scope : Scope) (m : MAddr)

/-- WAITA with no watch of its own yet, and its word read: it goes by when the word differs or the wait table is full. -/
theorem waita_reads {s u : State} {p : Part} (he : Executes (gateM [.l]) h (useS [a, m.oreg.src]) s)
    (hw : s.markIssued.cur.waitW = none) (hp : s.markIssued.waitPart [a] m = (u, .ok p)) :
    (u.homeWord p.addr ≠ u.val 0 a → exec (.waita h a scope m) s = .next (u.finish (useS [a, m.oreg.src]))) ∧
    (u.homeWord p.addr = u.val 0 a → exec (.waita h a scope m) s = .next (if u.waitsFull p.addr then u.finish (useS [a, m.oreg.src])
      else (u.addWatch p.addr (u.val 0 a)).mapCur fun x => { x with waitW := some (p.addr, false) })) := by
  refine ⟨fun hd => (issue_go he ?_ : execWaita h a scope m s = _), fun hq => ?_⟩
  · simp only [hw, hp, bne_iff_ne.2 hd, Bool.true_or, if_true]
  · cases hf : u.waitsFull p.addr with
    | true =>
      refine (issue_go he ?_ : execWaita h a scope m s = _)
      simp only [hw, hp, hf, Bool.or_true, if_true]
    | false =>
      refine (issue_stay he ?_ : execWaita h a scope m s = _)
      simp [hw, hp, hf, hq]

theorem waita_fired : Gives (.waita h a scope m) (gateM [.l]) h (useS [a, m.oreg.src]) (fun t => ∃ w, t.cur.waitW = some (w, true))
    fun t => t.mapCur fun x => { x with waitW := none } := by
  refine gives_of (fun s => (rfl : execWaita h a scope m s = _)) fun t ⟨w, hw⟩ => ?_
  simp only [hw]

theorem waita_waits : Stalls (.waita h a scope m) (gateM [.l]) h (useS [a, m.oreg.src]) fun t => ∃ w, t.cur.waitW = some (w, false) := by
  refine stalls_of (k := .other) (fun s => (rfl : execWaita h a scope m s = _)) fun t ⟨w, hw⟩ => ?_
  simp only [hw]

theorem waitaArm_arms {s u : State} {p : Part} (he : Executes (gateM [.l]) h (useS [a, m.oreg.src]) s)
    (hp : s.markIssued.waitPart [a] m = (u, .ok p)) :
    let c := u.val 0 a
    let fired : Bool := decide (u.homeWord p.addr ≠ c) || u.waitsFull p.addr
    let v := u.dropArmed.mapCtx fun x => { x with watch := some ⟨p.va, p.addr, c, fired⟩ }
    exec (.waitaArm h a scope m) s = .next ((if fired then v else v.addWatch p.addr c).finish (useS [a, m.oreg.src])) := by
  refine (issue_go he ?_ : execWaitaArm h a scope m s = _)
  have e : (u.homeWord p.addr != u.val 0 a) = decide (u.homeWord p.addr ≠ u.val 0 a) := by simp [bne, beq_eq_decide]
  simp only [hp, e]

end

theorem wcancel_gives (h : Hdr) (d : Dst) : Gives (.wcancel h d) (gateN [.l]) h (useD [] d) always fun t =>
    t.dropArmed.putDst d (if (t.core.ctx.bind (·.watch)).any fun w => !w.fired then 1 else 0) := by
  refine gives_of (fun s => (rfl : execWcancel h d s = _)) fun t _ => ?_
  cases t.core.ctx.bind (·.watch) <;> rfl

/-! ### Semaphores -/

section
variable (h : Hdr) (sem : BitVec 8) (b : Bool) (a : Src) (imm : BitVec 32)

theorem swait_clause :
    Traps (.swait h sem b a imm) (gateR anyStrm [a]) h (useS [a]) (fun t => 65535 < (t.val imm a).toNat) .illegal ∧
    Stalls (.swait h sem b a imm) (gateR anyStrm [a]) h (useS [a])
      (fun t => (t.val imm a).toNat ≤ 65535 ∧ t.core.sem sem < (t.val imm a).toNat) ∧
    Gives (.swait h sem b a imm) (gateR anyStrm [a]) h (useS [a])
      (fun t => (t.val imm a).toNat ≤ 65535 ∧ (t.val imm a).toNat ≤ t.core.sem sem)
      fun t => if b then { t with core := t.core.setSem sem (t.core.sem sem - (t.val imm a).toNat) } else t := by
  have e : ∀ s, exec (.swait h sem b a imm) s = execSwait h sem b a imm s := fun s => rfl
  unfold execSwait at e
  refine ⟨traps_of e fun t ht => ?_, stalls_of (k := .other) e fun t ⟨h1, h2⟩ => ?_, gives_of e fun t ⟨h1, h2⟩ => ?_⟩
  · exact if_pos ht
  · exact (if_neg (not_lt.2 h1)).trans (if_pos h2)
  · exact (if_neg (not_lt.2 h1)).trans (if_neg (not_lt.2 h2))

theorem ssig_clause :
    Traps (.ssig h sem b a imm) (gateR anyStrm [a]) h (useS [a]) (fun t => 65535 < (t.val imm a).toNat) .illegal ∧
    Gives (.ssig h sem b a imm) (gateR anyStrm [a]) h (useS [a])
      (fun t => (t.val imm a).toNat ≤ 65535 ∧ (b = true ∨ t.core.sem sem + (t.val imm a).toNat ≤ 65535))
      (fun t => { t with core := t.core.setSem sem (if b then (t.val imm a).toNat else t.core.sem sem + (t.val imm a).toNat) }) ∧
    Goes (.ssig h sem b a imm) (gateR anyStrm [a]) h (useS [a])
      (fun t => (t.val imm a).toNat ≤ 65535 ∧ b = false ∧ 65535 < t.core.sem sem + (t.val imm a).toNat)
      fun t => State.raiseAfter { t with core := t.core.setSem sem 65535 } [a] .semovf 0 := by
  have e : ∀ s, exec (.ssig h sem b a imm) s = execSsig h sem b a imm s := fun s => rfl
  unfold execSsig at e
  refine ⟨traps_of e fun t ht => ?_, gives_of e fun t ⟨h1, h2⟩ => ?_, goes_of e fun t ⟨h1, h2, h3⟩ => ?_⟩
  · exact if_pos ht
  · refine (if_neg (not_lt.2 h1)).trans ?_
    cases b with
    | true => exact if_pos rfl
    | false =>
      have hs : t.core.sem sem + (t.val imm a).toNat ≤ 65535 := by simpa using h2
      simp only [Core.addSem, if_pos hs]
      rfl
  · refine (if_neg (not_lt.2 h1)).trans ?_
    subst h2
    simp only [Core.addSem, if_neg (not_le.2 h3)]
    rfl

end

theorem srd_gives (h : Hdr) (sem : BitVec 8) (d : Dst) : valueGives (.srd h sem d) h [] d fun t => BitVec.ofNat 64 (t.core.sem sem) :=
  have e : ∀ s, exec (.srd h sem d) s = execSrd h sem d s := fun s => rfl
  gives_of (fun s => (e s).trans (by unfold execSrd valueOp; rfl)) fun t _ => rfl

theorem Core.sem_setSem (c : Core) (v : BitVec 8) (n : Nat) : (c.setSem v n).sem v = n ∧
    ∀ w, c.semPhys w ≠ c.semPhys v → (c.setSem v n).sem w = c.sem w :=
  ⟨lookupD_insertAt_same .., fun _ hw => lookupD_insertAt_ne _ _ _ hw⟩

/-- Settles O32: each instruction by the state of its watch, and by its count. -/
theorem watchResults : Obligations.WatchResults := by
  unfold Obligations.WatchResults
  exact ⟨⟨fun h a scope m s u p he => waita_reads h a scope m he, waita_fired, waita_waits,
    fun h a scope m s u p he => waitaArm_arms h a scope m he, wcancel_gives⟩, swait_clause, ssig_clause, srd_gives, Core.sem_setSem⟩

end Sys2Proof.Machine
end

section
/-!
SUPPORT. What the checks of an access change of their own accord: TLBs, capability caches and what the memory system changes. And
what a read of memory leaves of the core in focus.
-/

namespace Sys2Proof.Machine

/-! ### The host link -/

@[simp] theorem State.putCore_host (s : State) (n : Nat) (c : Core) : (s.putCore n c).host = s.host := by
  unfold State.putCore
  split <;> rfl

@[simp] theorem State.eventAll_host (s : State) (b : Nat) : (s.eventAll b).host = s.host :=
  foldl_keeps (fun (t : State) => t.host = s.host) _ _ _ rfl fun t _ ht => (State.putCore_host t _ _).trans ht

@[simp] theorem State.ashWrite_host (s : State) (r : Nat) (bs : List Byte) : (s.ashWrite r bs).host = s.host := by
  unfold State.ashWrite State.eventDcc
  dsimp only
  repeat' split
  all_goals simp

@[simp] theorem State.foundBad_host (s : State) (l : Nat) : (s.foundBad l).host = s.host := by
  unfold State.foundBad State.ashNote State.beginSparing State.poisonLine
  dsimp only
  repeat' split
  all_goals simp [State.setRemap]

@[simp] theorem State.detect_host (s : State) (a n : Nat) : (s.detect a n).host = s.host := by
  unfold State.detect
  split
  · rfl
  · refine foldl_keeps (fun (t : State) => t.host = s.host) _ _ _ rfl fun t l ht => ?_
    split
    · exact (State.foundBad_host t l).trans ht
    · exact ht

/-! ### Looking -/

/-- A core without what the checks of an access change of it. -/
def Core.unlooked (c : Core) : Core := { c.unmem with tlb := [], ccache := [] }

/-- The state t comes from s by what the checks of an access and the prefetch of lines do: the core in focus is what it was but for its
caches, and memory too when the host holds no line. -/
def Looks (s t : State) : Prop :=
  t.core.unlooked = s.core.unlooked ∧ t.who = s.who ∧ (s.host.dirs = [] → t.host.dirs = [] ∧ t.mem = s.mem)

theorem Looks.refl (s : State) : Looks s s := ⟨rfl, rfl, fun h => ⟨h, rfl⟩⟩

theorem Looks.trans {s t u : State} (h : Looks s t) (k : Looks t u) : Looks s u := by
  obtain ⟨hc, hw, hm⟩ := h
  obtain ⟨kc, kw, km⟩ := k
  exact ⟨kc.trans hc, kw.trans hw, fun e => ⟨(km (hm e).1).1, (km (hm e).1).2.trans (hm e).2⟩⟩

theorem Looks.of_unmem {s t : State} (h : t.unmem = s.unmem) (hm : s.host.dirs = [] → t.host.dirs = [] ∧ t.mem = s.mem) : Looks s t :=
  ⟨congrArg (fun u => ({ u.core with tlb := [], ccache := [] } : Core)) h, congrArg (fun u => u.who) h, hm⟩

theorem State.touch_looks (s : State) (a n : Nat) : Looks s (s.touch a n) := by
  refine .of_unmem (s.touch_memOnly a n).1 fun h => ?_
  have e : s.touch a n = s.detect a n := by simp [State.touch, State.snoopRead, h]
  simp [e, h]

theorem State.ashNote_looks (s : State) (ring src code unit ten reg addr : Nat) (detail : List Byte) :
    Looks s (s.ashNote ring src code unit ten reg addr detail) :=
  .of_unmem (s.ashNote_memOnly ..).1 fun h => by simp [State.ashNote, h]

theorem State.walkFrom_looks (s : State) (va table : Nat) (lvls : List Nat) : Looks s (s.walkFrom va table lvls).1 := by
  induction lvls generalizing s table with
  | nil => exact .refl s
  | cons lvl rest ih =>
    have h := s.touch_looks (table + 16 * bitsOf va (levelShift lvl) (levelBits lvl)) 16
    unfold State.walkFrom
    dsimp only
    split
    · exact h
    · split
      · exact h.trans (State.ashNote_looks ..)
      · split
        · exact h
        · split
          · exact h
          · exact h.trans (ih ..)

theorem State.walk_looks (s : State) (ten va : Nat) : Looks s (s.walk ten va).1 := by
  have h := s.touch_looks (s.tdir.toNat + 32 * ten) 32
  unfold State.walk
  dsimp only
  split
  · exact h
  · split
    · exact h
    · exact h.trans (State.walkFrom_looks ..)

/-- TLBs and capability caches that change. -/
theorem looks_caches (s : State) (d : List (Nat × Die)) (l : List TlbEnt) (cc : List CapEnt) :
    Looks s { s with dies := d, core := { s.core with tlb := l, ccache := cc } } := ⟨rfl, rfl, fun h => ⟨h, rfl⟩⟩

theorem State.unenter_looks (s : State) (ten va : Nat) : Looks s (s.unenter ten va) := looks_caches ..

theorem State.translate_looks (s : State) (ten va : Nat) : Looks s (s.translate ten va).1 := by
  have h := s.walk_looks ten va
  unfold State.translate
  dsimp only
  split
  · exact .refl s
  · split
    · exact looks_caches ..
    · split
      · next e => rw [e] at h; exact h.trans (State.unenter_looks ..)
      · next e =>
        rw [e] at h
        split
        · exact h.trans (looks_caches ..)
        · exact h.trans (looks_caches ..)

theorem State.objEntry_looks (s : State) (ten obj : Nat) : Looks s (s.objEntry ten obj).1 := by
  have h := s.touch_looks (s.tdir.toNat + 32 * ten) 32
  unfold State.objEntry
  dsimp only
  split
  · exact .refl s
  · split
    · exact h
    · exact (h.trans (State.touch_looks ..)).trans (looks_caches ..)

theorem State.window_looks (s : State) (c : Option Cap) : Looks s (s.window c).1 := by
  cases c with
  | none => exact .refl s
  | some c =>
    have h := s.objEntry_looks c.ten.toNat c.obj.toNat
    unfold State.window
    dsimp only
    split
    · exact .refl s
    · split
      · next e => rw [e] at h; exact h
      · next e =>
        rw [e] at h
        split
        · exact h
        · exact h

theorem State.parts_looks (s : State) (ten va f n : Nat) : Looks s (s.parts ten va f n).1 := by
  induction f generalizing s va n with
  | zero => cases n <;> exact .refl s
  | succ f ih =>
    cases n with
    | zero => exact .refl s
    | succ n =>
      have h := s.translate_looks ten va
      simp only [State.parts]
      split
      · next e => rw [e] at h; exact h
      · next u g e =>
        rw [e] at h
        have k := h.trans (ih u (va + min (n + 1) (g.size - va % g.size)) (n + 1 - min (n + 1) (g.size - va % g.size)))
        split
        · next e => rw [e] at k; exact k
        · next e => rw [e] at k; exact k

theorem State.range_looks (s : State) (ten va n : Nat) (need : Need) : Looks s (s.range ten va n need).1 := by
  have h := s.parts_looks ten va (n / 4096 + 2) n
  unfold State.range
  split
  · next e => rw [e] at h; exact h
  · next e =>
    rw [e] at h
    split
    · exact h.trans (State.unenter_looks ..)
    · exact h

theorem State.access_looks (s : State) (ten : Nat) (c : Option Cap) (ea : Int) (n align : Nat) (perms : List Nat) (need : Need) :
    Looks s (s.access ten c ea n align perms need).1 := by
  have h := s.window_looks c
  unfold State.access
  split
  · next e => rw [e] at h; exact h
  · next e =>
    rw [e] at h
    dsimp only
    split
    · exact h
    · split
      · exact h
      · split
        · exact h
        · split
          · exact h
          · exact h.trans (State.range_looks ..)

theorem State.memAccess_looks (s : State) (before : List Src) (m : MAddr) (n align : Nat) (perms : List Nat) (need : Need) :
    Looks s (s.memAccess before m n align perms need).1 := s.access_looks ..

/-! ### Reading -/

theorem State.loadMiss_unmem (s : State) (l : Nat) : (s.loadMiss l).1.unmem = s.unmem :=
  ((s.viewLine_memOnly (l * 2)).trans (State.viewLine_memOnly _ (l * 2 + 1))).1

theorem State.loadLine_unmem (s : State) (l : Nat) : (s.loadLine l).1.unmem = s.unmem := by
  unfold State.loadLine
  split
  · split <;> rfl
  · exact s.loadMiss_unmem l

/-- Reads that keep `unmem`, folded over the lines. -/
theorem readLines_unmem {rd : State → Nat → State × List PByte} (hr : ∀ s l, (rd s l).1.unmem = s.unmem) (size : Nat) (s : State)
    (a n : Nat) : (readLines rd size s a n).1.unmem = s.unmem := by
  unfold readLines
  exact foldl_keeps (fun q : State × List PByte => q.1.unmem = s.unmem) _ (linesOf size a n) (s, []) rfl fun q l h => (hr q.1 l).trans h

theorem State.readPart_unmem (s : State) (p : Part) : (s.readPart p).1.unmem = s.unmem := by
  unfold State.readPart
  split
  · rfl
  · split
    · exact (s.soRead_memOnly ..).1
    · exact readLines_unmem State.loadLine_unmem ..

theorem State.readWith_unmem (s : State) (ps : List Part) : (s.readWith State.readPart ps).1.unmem = s.unmem := by
  unfold State.readWith
  exact foldl_keeps (fun q : State × List PByte => q.1.unmem = s.unmem) _ ps (s, []) rfl fun q p h => (q.1.readPart_unmem p).trans h

theorem State.prefLine_unmem (s : State) (a : Nat) (pv : Bool) : (s.prefLine a pv).unmem = s.unmem := by
  unfold State.prefLine
  split
  · rfl
  · split
    · exact ((s.viewLine_memOnly _).trans (State.viewLine_memOnly ..)).1
    · exact s.loadLine_unmem _

@[simp] theorem State.prefLine_mem (s : State) (a : Nat) (pv : Bool) : (s.prefLine a pv).mem = s.mem := by
  unfold State.prefLine
  repeat' split
  all_goals simp

/-! ### Loads at issue -/

/-- PREF looks at its address, and then fetches the line or does not. -/
theorem pref_fetches {h : Hdr} {pv : Bool} {scope : Scope} {m : MAddr} {s : State}
    (he : Executes (gateM [.l]) h (useS [m.oreg.src]) s) :
    ∃ u v : State, exec (.pref h pv scope m) s = .next (v.finish (useS [m.oreg.src])) ∧ Looks s.markIssued u ∧
      v.unmem = u.unmem ∧ v.mem = u.mem := by
  have k := s.markIssued.memAccess_looks [] m 1 1 [permR] .read
  cases e : s.markIssued.memAccess [] m 1 1 [permR] .read with
  | mk u r =>
    rw [e] at k
    cases r with
    | error b => exact ⟨u, u, (issue_go he (by simp only [e]) : execPref h pv scope m s = _), k, rfl, rfl⟩
    | ok ps =>
      cases ps with
      | nil => exact ⟨u, u, (issue_go he (by simp only [e]) : execPref h pv scope m s = _), k, rfl, rfl⟩
      | cons p ps =>
        by_cases hp : (p.part.kind = .so || p.part.pois) = true
        · exact ⟨u, u, (issue_go he (by simp only [e]; exact if_pos hp) : execPref h pv scope m s = _), k, rfl, rfl⟩
        · exact ⟨u, _, (issue_go he (by simp only [e]; exact if_neg hp) : execPref h pv scope m s = _), k, u.prefLine_unmem ..,
            u.prefLine_mem ..⟩

/-- A core that is the same but for its caches, a waiting watch and event bits has the same accesses and registers. -/
theorem stays_of_unlooked {s t : State} (hw : t.who = s.who) (hc : t.core.unlooked = s.core.unlooked) :
    t.core.accs = s.core.accs ∧ t.cur.n = s.cur.n ∧ t.cur.pend = s.cur.pend := by
  have hl : ({ t.core.l with waitW := none } : Stream) = { s.core.l with waitW := none } := congrArg (fun c => c.l) hc
  have hn : t.core.c = s.core.c ∧ t.core.s = s.core.s := ⟨congrArg (fun c => c.c) hc, congrArg (fun c => c.s) hc⟩
  refine ⟨congrArg (fun c => c.accs) hc, ?_⟩
  unfold State.cur
  rw [hw]
  cases s.who with
  | l => exact ⟨congrArg (fun x => x.n) hl, congrArg (fun x => x.pend) hl⟩
  | c => exact ⟨congrArg (fun x => x.n) hn.1, congrArg (fun x => x.pend) hn.1⟩
  | s => exact ⟨congrArg (fun x => x.n) hn.2, congrArg (fun x => x.pend) hn.2⟩

theorem pref_goes (h : Hdr) (pv : Bool) (scope : Scope) (m : MAddr) (s : State) (he : Executes (gateM [.l]) h (useS [m.oreg.src]) s) :
    ∃ u : State, exec (.pref h pv scope m) s = .next (u.finish (useS [m.oreg.src])) ∧ (s.host.dirs = [] → u.mem = s.mem) ∧
      u.core.accs = s.core.accs ∧ u.cur.n = s.cur.n ∧ u.cur.pend = s.cur.pend := by
  obtain ⟨u, v, hx, ⟨hc, hw, hm⟩, kc, km⟩ := pref_fetches he
  have kw : v.who = s.markIssued.who := (congrArg (fun x => x.who) kc).trans hw
  have hv : v.core.unlooked = s.markIssued.core.unlooked :=
    (congrArg (fun x => ({ x.core with tlb := [], ccache := [] } : Core)) kc).trans hc
  obtain ⟨ha, hn, hp⟩ := stays_of_unlooked kw hv
  rw [State.markIssued_cur] at hn hp
  exact ⟨v, hx, fun hd => km.trans (hm hd).2, ha.trans (s.core.setStrm_accs ..), hn, hp⟩

section
variable {h : Hdr} {s u : State}

theorem ld_departs {o : LdOp} {ps : List PPart} (he : Executes (gateM [.l]) h (useD [o.m.oreg.src] o.d) s)
    (hp : s.markIssued.memAccess [] o.m (2 ^ o.size.val) 1 [permR] .read = (u, .ok ps)) (hw : u.soWait ps = false) :
    exec (.ld h o) s = .next ((u.departs h o.d o.p
      (.load (2 ^ o.size.val) o.sx [partsOf ps] ((u.reserveDst o.d).2.ownBytes (partsOf ps)))).finish (useD [o.m.oreg.src] o.d)) := by
  refine (issue_go he ?_ : execLd h o s = _)
  simp only [hp, hw]
  rfl

theorem ldTile_departs {o : TileOp} {ps : List PPart} {byte n : Nat} (he : Executes (gateM [.l]) h (useS [o.a, o.m.oreg.src]) s)
    (ht : tileWord (s.markIssued.val 0 o.a).toNat = some (byte, n))
    (hp : s.markIssued.memAccess [o.a] o.m n 8 [permR] .read = (u, .ok ps)) (hw : u.soWait ps = false)
    (hb : u.core.breach [⟨1, byte, n, true⟩] = false) :
    exec (.ldTile h o) s = .next ((u.addAcc h .none false (.loadTile byte (partsOf ps) (u.ownBytes (partsOf ps))) none).finish
      (useS [o.a, o.m.oreg.src])) := by
  refine (issue_go he ?_ : execLdTile h o s = _)
  simp only [ht, hp, hw, State.owned, hb]
  rfl

theorem ldq_departs {o : QMemOp} {els : List (List PPart)} (he : Executes (gateM [.l]) h (useS [o.m.oreg.src]) s)
    (hr : s.markIssued.core.ldq.ents.length + (o.n.val + 1) ≤ 32)
    (hp : s.markIssued.elemParts [] o.m (2 ^ o.size.val) 1 [permR] .read 0 (o.n.val + 1) = (u, .ok els))
    (hw : u.soWait els.flatten = false) :
    let v := (u.reserveLdq (o.n.val + 1)).2
    exec (.ldq h o) s = .next ((v.addAcc h (.ldq (u.reserveLdq (o.n.val + 1)).1) false
      (.load (2 ^ o.size.val) o.sx (els.map partsOf) (v.ownBytes (partsOf els.flatten))) none).finish (useS [o.m.oreg.src])) := by
  have room : s.markIssued.core.ldq.room (o.n.val + 1) = true := decide_eq_true hr
  refine (issue_go he ?_ : execLdq h o s = _)
  simp only [room, hp, hw]
  rfl

end

theorem ldq_stalls (h : Hdr) (o : QMemOp) :
    Stalls (.ldq h o) (gateM [.l]) h (useS [o.m.oreg.src]) fun t => 32 < t.core.ldq.ents.length + (o.n.val + 1) := by
  refine stalls_of (k := .ldq) (fun s => (rfl : execLdq h o s = _)) fun t ht => ?_
  have room : t.core.ldq.room (o.n.val + 1) = false := decide_eq_false (not_le.2 ht)
  simp only [room]
  rfl

/-! ### An access on its way -/

/-- Two cores with the same streams. -/
theorem Core.strm_congr {c d : Core} (k : Strm) (hl : c.l = d.l) (hc : c.c = d.c) (hs : c.s = d.s) : c.strm k = d.strm k := by
  cases k with
  | l => exact hl
  | c => exact hc
  | s => exact hs

/-- A destination taken leaves the registers and the scoreboard of its stream, and the rest of the machine. -/
theorem State.reserveDst_stays (s : State) (d : Dst) :
    (s.reserveDst d).2.who = s.who ∧ (s.reserveDst d).2.mem = s.mem ∧ (s.reserveDst d).2.core.caps = s.core.caps ∧
    (s.reserveDst d).2.core.tile = s.core.tile ∧ (s.reserveDst d).2.cur.n = s.cur.n ∧ (s.reserveDst d).2.cur.p = s.cur.p ∧
    (s.reserveDst d).2.cur.sb = s.cur.sb := by
  cases d with
  | n k =>
    have e : (s.reserveDst (.n k)).2.cur = s.cur := Core.strm_congr _ rfl rfl rfl
    rw [e]
    exact ⟨rfl, rfl, rfl, rfl, rfl, rfl, rfl⟩
  | t =>
    have e : (s.reserveDst .t).2.cur = s.cur.alloc none := s.cur_setCur _
    rw [e]
    exact ⟨rfl, rfl, s.core.setStrm_caps .., s.core.setStrm_tile .., rfl, rfl, rfl⟩
  | q =>
    obtain ⟨q, r, hq⟩ := s.core.setPushQ_eq s.who ((s.core.pushQ s.who).push ⟨none, false, s.core.nextId⟩)
    have hc : (s.reserveDst .q).2.core = { s.core with ldq := q, sdq := r, nextId := s.core.nextId + 1 } :=
      congrArg (fun c : Core => { c with nextId := s.core.nextId + 1 }) hq
    have e : (s.reserveDst .q).2.cur = s.cur := by
      unfold State.cur
      rw [hc]
      exact Core.strm_congr _ rfl rfl rfl
    rw [e, hc]
    exact ⟨rfl, rfl, rfl, rfl, rfl, rfl, rfl⟩
  | discard => exact ⟨rfl, rfl, rfl, rfl, rfl, rfl, rfl⟩

/-- The access that State.addAcc puts last. -/
def State.newAcc (s : State) (h : Hdr) (d : ADst) (pform : Bool) (kind : AccKind) (rel : Option RelSt) : Acc where
  id := s.core.nextId
  strm := s.who
  sec := if s.cur.hnd then 0 else s.cur.serial
  slot := h.set
  dst := d
  pform := pform
  p7w := pform
  ipc := s.cur.pc
  word := BitVec.ofNat 2 s.cur.npfx
  hnd := s.cur.hnd
  rd := kind.isRead
  kind := kind
  rel := rel
  since := s.ftime

section
variable (s : State) (h : Hdr) (d : ADst) (p : Bool) (kind : AccKind) (rel : Option RelSt)

theorem State.addAcc_cur : (s.addAcc h d p kind rel).cur = s.cur.sbSet? h.set := by
  refine Eq.trans (Core.strm_congr _ ?_ ?_ ?_) (s.core.strm_setStrm s.who (s.cur.sbSet? h.set)) <;> rfl

theorem State.addAcc_stays : (s.addAcc h d p kind rel).mem = s.mem ∧ (s.addAcc h d p kind rel).core.caps = s.core.caps ∧
    (s.addAcc h d p kind rel).core.tile = s.core.tile :=
  ⟨rfl, s.core.setStrm_caps .., s.core.setStrm_tile ..⟩

theorem State.addAcc_accs : ∃ l, (s.addAcc h d p kind rel).core.accs = l ++ [s.newAcc h d p kind rel] ∧
    ∀ b ∈ l, ∃ c ∈ s.core.accs, b.strm = c.strm ∧ b.dst = c.dst := by
  cases p with
  | false => exact ⟨_, rfl, fun b hb => ⟨b, hb, rfl, rfl⟩⟩
  | true =>
    refine ⟨_, rfl, fun b hb => ?_⟩
    obtain ⟨c, hc, rfl⟩ := List.mem_map.1 hb
    refine ⟨c, hc, ?_⟩
    split <;> exact ⟨rfl, rfl⟩

end

@[simp] theorem ADst.writes_without (d : ADst) (k : Fin 16) : (d.without k).writes k = false := by
  cases d with
  | n j => by_cases h : j = k <;> simp [ADst.without, ADst.writes, h]
  | pair lo hi => by_cases h : lo = some k <;> by_cases h' : hi = some k <;> simp [ADst.without, ADst.writes, h, h']
  | _ => rfl

/-- A scalar taken: no older access of the stream still writes it (R43). -/
theorem State.reserveDst_n (s : State) (k : Fin 16) :
    (s.reserveDst (.n k)).1 = .n k ∧ ∀ c ∈ (s.reserveDst (.n k)).2.core.accs, c.strm = s.who → c.dst.writes k = false := by
  refine ⟨rfl, fun c hc hs => ?_⟩
  obtain ⟨b, -, rfl⟩ := List.mem_map.1 hc
  by_cases hb : b.strm = s.who
  · simp [hb]
  · simp [hb] at hs

theorem Stream.entry_alloc_none (x : Stream) : (x.alloc none).entry 0 = none := rfl

theorem Stream.sbSet?_entry (x : Stream) (j : Option (Fin 8)) (k : Nat) : (x.sbSet? j).entry k = x.entry k := by
  cases j <;> rfl

theorem Stream.sbSet?_regs (x : Stream) (j : Option (Fin 8)) : (x.sbSet? j).n = x.n ∧ (x.sbSet? j).p = x.p := by
  cases j <;> exact ⟨rfl, rfl⟩

/-- The last clause of O24, for each destination. -/
theorem State.departs_way (s : State) (h : Hdr) (d : Dst) (p : Bool) (kind : AccKind) :
    let t := s.departs h d p kind
    (∃ a, t.core.accs.getLast? = some a ∧ a.kind = kind ∧ a.strm = s.who ∧ a.slot = h.set ∧ a.pform = p ∧ a.rel = none ∧
      (∀ k, d = .n k → a.dst = .n k ∧ t.core.nFinal s.who k = false ∧
        ∀ b ∈ t.core.accs.dropLast, b.strm = s.who → b.dst.writes k = false) ∧
      (d = .t → a.dst = .entry s.cur.rqN ∧ t.cur.entry 0 = none) ∧ (d = .discard → a.dst = .none)) ∧
    (∀ k, h.set = some k → t.cur.sb[k] = s.cur.sb[k] + 1) ∧ t.cur.n = s.cur.n ∧ t.cur.p = s.cur.p ∧ t.mem = s.mem ∧
    t.core.caps = s.core.caps ∧ t.core.tile = s.core.tile := by
  intro t
  obtain ⟨hw, hm, hc, ht, hn, hp, hsb⟩ := s.reserveDst_stays d
  have ecur : t.cur = (s.reserveDst d).2.cur.sbSet? h.set := State.addAcc_cur ..
  obtain ⟨em, ec, et⟩ := (s.reserveDst d).2.addAcc_stays h (s.reserveDst d).1 p kind none
  obtain ⟨l, hl, older⟩ := (s.reserveDst d).2.addAcc_accs h (s.reserveDst d).1 p kind none
  obtain ⟨en, ep⟩ := (s.reserveDst d).2.cur.sbSet?_regs h.set
  have hl' : t.core.accs = l ++ [(s.reserveDst d).2.newAcc h (s.reserveDst d).1 p kind none] := hl
  refine ⟨⟨(s.reserveDst d).2.newAcc h (s.reserveDst d).1 p kind none, ?_, rfl, hw, rfl, rfl, rfl, ?_, ?_, ?_⟩, ?_, ?_, ?_,
    em.trans hm, ec.trans hc, et.trans ht⟩
  · simp [hl']
  · rintro k rfl
    obtain ⟨hd, none_writes⟩ := s.reserveDst_n k
    refine ⟨hd, ?_, fun b hb hs => ?_⟩
    · rw [Core.nFinal, hl']
      simp [State.newAcc, hd, hw, ADst.writes]
    · rw [hl', List.dropLast_concat] at hb
      obtain ⟨c, hc, e1, e2⟩ := older b hb
      rw [e2]
      exact none_writes c hc (e1 ▸ hs)
  · rintro rfl
    refine ⟨rfl, ?_⟩
    have e : (s.reserveDst .t).2.cur = s.cur.alloc none := s.cur_setCur _
    rw [ecur, Stream.sbSet?_entry, e, Stream.entry_alloc_none]
  · rintro rfl
    rfl
  · intro k hk
    rw [ecur, hk]
    simp [Stream.sbSet?, Stream.sbSet, hsb]
  · rw [ecur, en, hn]
  · rw [ecur, ep, hp]

/-- Settles O24: each form through the checks of its access; what an access on its way leaves, by its destination. -/
theorem loadsIssue : Obligations.LoadsIssue := by
  unfold Obligations.LoadsIssue
  exact ⟨⟨fun h o s u ps => ld_departs, fun h o s u ps byte n => ldTile_departs, fun h o s u els => ldq_departs, ldq_stalls,
    fun h pv scope m s he => pref_goes h pv scope m s he⟩, State.departs_way⟩

end Sys2Proof.Machine
end

section
/-!
SUPPORT. The end of an access: what it delivers to registers, result entries and queue entries, its slot, its trap (R46, R50, R54,
R205); and the bytes of a load.
-/

namespace Sys2Proof.Machine

/-! ### Queue entries filled -/

/-- One queue entry filled, where there is a value. -/
def DataQ.fill? (q : DataQ) (id : Nat) : Option Word → DataQ
  | some w => q.fill id w
  | none => q

theorem DataQ.fill?_stays (q : DataQ) (id : Nat) (v : Option Word) :
    (q.fill? id v).ents.length = q.ents.length ∧ (q.fill? id v).head = q.head := by
  cases v with
  | none => exact ⟨rfl, rfl⟩
  | some w => exact ⟨List.length_map _, rfl⟩

theorem DataQ.mem_fill? {q : DataQ} {id : Nat} {v : Option Word} {e : QEnt} (he : e ∈ (q.fill? id v).ents) :
    ∃ b ∈ q.ents, b.id = e.id ∧ e.val = if b.id = id then b.val.or v else b.val := by
  cases v with
  | none => exact ⟨e, he, rfl, by simp⟩
  | some w =>
    obtain ⟨b, hb, rfl⟩ := List.mem_map.1 he
    refine ⟨b, hb, ?_⟩
    by_cases h : b.id = id
    · cases hv : b.val <;> simp [h, hv]
    · simp [h]

/-- Queue entries filled one after the other: the values go by the numbers beside the entries' names. -/
def DataQ.fillAll (v : Nat → Option Word) (l : List (Nat × Nat)) (q : DataQ) : DataQ := l.foldl (fun q e => q.fill? e.1 (v e.2)) q

theorem DataQ.fillAll_stays (v : Nat → Option Word) (l : List (Nat × Nat)) (q : DataQ) :
    (q.fillAll v l).ents.length = q.ents.length ∧ (q.fillAll v l).head = q.head :=
  foldl_keeps (fun r : DataQ => r.ents.length = q.ents.length ∧ r.head = q.head) _ l q ⟨rfl, rfl⟩ fun r e h =>
    ⟨(r.fill?_stays e.1 (v e.2)).1.trans h.1, (r.fill?_stays e.1 (v e.2)).2.trans h.2⟩

theorem DataQ.mem_fillAll {v : Nat → Option Word} {l : List (Nat × Nat)} {q : DataQ} {e : QEnt} (hl : (l.map (·.1)).Nodup)
    (he : e ∈ (q.fillAll v l).ents) :
    ∃ b ∈ q.ents, b.id = e.id ∧ (∀ i, (e.id, i) ∈ l → e.val = b.val.or (v i)) ∧ (e.id ∉ l.map (·.1) → e.val = b.val) := by
  induction l generalizing q with
  | nil => exact ⟨e, he, rfl, by simp, fun _ => rfl⟩
  | cons p l ih =>
    obtain ⟨hp, hl⟩ := List.nodup_cons.1 hl
    obtain ⟨c, hc, hce, hin, hout⟩ := ih hl he
    obtain ⟨b, hb, hbc, hv⟩ := DataQ.mem_fill? hc
    refine ⟨b, hb, hbc.trans hce, fun i hi => ?_, fun hn => ?_⟩
    · rcases List.mem_cons.1 hi with h | h
      · have hid : e.id = p.1 := congrArg Prod.fst h
        have hi' : i = p.2 := congrArg Prod.snd h
        rw [hout (hid ▸ hp), hv, if_pos (hbc.trans (hce.trans hid)), hi']
      · have hid : e.id ≠ p.1 := fun h' => hp (List.mem_map.2 ⟨_, h, h'⟩)
        rw [hin i h, hv, if_neg (hbc.trans hce ▸ hid)]
    · rw [List.map_cons, List.mem_cons, not_or] at hn
      rw [hout hn.2, hv, if_neg (hbc.trans hce ▸ hn.1)]

/-! ### Results delivered -/

section
variable (c : Core) (k : Strm) (vals : List (Option Word))

theorem Core.deliver_n (j : Fin 16) :
    ((c.deliver k (.n j) vals).strm k).n[j] = (vals.getD 0 none).getD (c.strm k).n[j] := by
  unfold Core.deliver
  dsimp only
  cases vals.getD 0 none with
  | none => rfl
  | some w => simp [Stream.setN]

theorem Core.deliver_entry (i : Nat) : ((c.deliver k (.entry i) vals).strm k).rq =
    (c.strm k).rq.map fun e => if e.1 = i then (i, (vals.getD 0 none).or e.2) else e := by
  unfold Core.deliver
  dsimp only
  cases vals.getD 0 none with
  | some w => simp [Stream.fill, fillIn]
  | none =>
    refine (List.map_id'' (fun e => ?_) _).symm
    split
    · next h => simp [← h]
    · rfl

theorem Core.deliver_ldq (ids : List Nat) :
    (c.deliver k (.ldq ids) vals).ldq = c.ldq.fillAll (fun i => vals.getD i none) ids.zipIdx := by
  unfold Core.deliver DataQ.fillAll
  dsimp only
  generalize ids.zipIdx = l
  induction l generalizing c with
  | nil => rfl
  | cons p l ih =>
    rw [List.foldl_cons, List.foldl_cons, ih]
    cases h : vals.getD p.2 none with
    | none => simp only [DataQ.fill?]
    | some w => simp only [DataQ.fill?]

/-- A delivery to queue entries changes the data queues only. -/
theorem Core.deliver_queues (ids : List Nat) : ∃ q r, c.deliver k (.ldq ids) vals = { c with ldq := q, sdq := r } := by
  unfold Core.deliver
  refine foldl_keeps (fun x : Core => ∃ q r, x = { c with ldq := q, sdq := r }) _ _ _ ⟨c.ldq, c.sdq, rfl⟩ ?_
  rintro x e ⟨q, r, rfl⟩
  dsimp only
  split
  · exact ⟨_, _, rfl⟩
  · exact ⟨q, r, rfl⟩

/-- Predicates, scoreboard, pending traps and the mark of a handler that two streams share. -/
def Stream.SameControl (x y : Stream) : Prop := y.p = x.p ∧ y.sb = x.sb ∧ y.pend = x.pend ∧ y.hnd = x.hnd

theorem Core.deliver_stays (d : ADst) :
    (c.strm k).SameControl ((c.deliver k d vals).strm k) ∧ (c.deliver k d vals).tile = c.tile := by
  cases d with
  | ldq ids =>
    obtain ⟨q, r, h⟩ := c.deliver_queues k vals ids
    rw [h, Core.strm_congr (c := { c with ldq := q, sdq := r }) (d := c) k rfl rfl rfl]
    exact ⟨⟨rfl, rfl, rfl, rfl⟩, rfl⟩
  | _ =>
    unfold Core.deliver Stream.SameControl
    dsimp only
    repeat' split
    all_goals simp [Stream.setN, Stream.fill]

end

/-! ### The end of an access -/

/-- The stream of an access when its p7 is written. -/
def Stream.withP7 (x : Stream) (a : Acc) (b : Bool) : Stream :=
  if !a.p7w then x
  else if x.hnd && !a.hnd then { x with saved := x.saved.map fun z => { z with p := z.p.set 7 b } }
  else x.setPred 7 b

theorem Core.writeP7_eq (c : Core) (a : Acc) (b : Bool) : c.writeP7 a b = c.setStrm a.strm ((c.strm a.strm).withP7 a b) := by
  unfold Core.writeP7 Stream.withP7
  dsimp only
  split
  · exact (c.setStrm_self _).symm
  · split <;> rfl

/-- Registers, result entries, scoreboard and pending traps that two streams share. -/
def Stream.SameResults (x y : Stream) : Prop := y.n = x.n ∧ y.rq = x.rq ∧ y.sb = x.sb ∧ y.pend = x.pend

theorem Stream.withP7_results (x : Stream) (a : Acc) (b : Bool) : x.SameResults (x.withP7 a b) := by
  unfold Stream.withP7 Stream.setPred
  repeat' split
  all_goals exact ⟨rfl, rfl, rfl, rfl⟩

theorem Stream.withP7_pred {x : Stream} {a : Acc} (b : Bool) (hw : a.p7w = true) (hh : x.hnd = a.hnd) : (x.withP7 a b).pred 7 = b := by
  have hm : (x.hnd && !a.hnd) = false := by rw [hh]; exact Bool.and_not_self _
  simp [Stream.withP7, hw, hm, Stream.setPred, Stream.pred]

/-- A core without the access of an id. -/
def Core.dropAcc (c : Core) (id : Nat) : Core := { c with accs := c.accs.filter fun x => x.id != id }

theorem Core.strm_dropAcc (c : Core) (id : Nat) (k : Strm) : (c.dropAcc id).strm k = c.strm k := Core.strm_congr k rfl rfl rfl

theorem Core.mem_dropAcc {c : Core} {id : Nat} {b : Acc} (h : b ∈ (c.dropAcc id).accs) : b.id ≠ id := by
  simpa using (List.mem_filter.1 h).2

theorem State.endAcc_core (s : State) (a : Acc) : ∃ secs ret, (s.endAcc a).core = (s.core.dropAcc a.id).setStrm a.strm
    { (s.core.strm a.strm).sbClear? a.slot with secs := secs, retired := ret } := by
  have e : (s.endAcc a).core =
      ((s.core.dropAcc a.id).setStrm a.strm (((s.core.dropAcc a.id).strm a.strm).sbClear? a.slot)).retire a.strm := rfl
  rw [Core.strm_dropAcc] at e
  obtain ⟨secs, ret, h⟩ := ((s.core.dropAcc a.id).setStrm a.strm ((s.core.strm a.strm).sbClear? a.slot)).retire_eq a.strm
  rw [Core.strm_setStrm, Core.setStrm_setStrm] at h
  exact ⟨secs, ret, e.trans h⟩

/-- The traps that an access leaves pending. -/
def Acc.pends (a : Acc) (r : AccRes) (hnd : Bool) : List Trap :=
  match r.trap with
  | none => []
  | some (cause, info, aux) =>
    [{ a.trap cause info aux (a.dst.unfilled r.vals).1 (a.dst.unfilled r.vals).2 with inHnd := hnd }]

theorem Acc.pends_none {a : Acc} {r : AccRes} (hnd : Bool) (h : r.trap = none) : a.pends r hnd = [] := by
  rw [Acc.pends, h]

theorem Acc.pends_some {a : Acc} {r : AccRes} {cause : Cause} {info : Nat} {aux : Word} (hnd : Bool)
    (h : r.trap = some (cause, info, aux)) :
    ∃ x ∈ a.pends r hnd, x.cause = cause ∧ x.info = BitVec.ofNat 32 info ∧ x.ipc = a.ipc := by
  rw [Acc.pends, h]
  exact ⟨_, List.mem_singleton_self _, rfl, rfl, rfl⟩

/-- An access that ended: its stream has what was delivered, p7, a lower count of its slot and its trap; the queue and the tiles are
those of the delivery; the access is gone. -/
theorem State.finishAcc_ends (s : State) (a : Acc) (r : AccRes) :
    let c := s.core.deliver a.strm a.dst r.vals
    let t := s.finishAcc a r false
    (∃ secs ret hnd, t.core.strm a.strm =
        { ((c.strm a.strm).withP7 a r.ok).sbClear? a.slot with
          secs := secs, retired := ret, pend := (((c.strm a.strm).withP7 a r.ok).sbClear? a.slot).pend ++ a.pends r hnd }) ∧
    t.core.ldq = c.ldq ∧ t.core.tile = c.tile ∧ ∀ b ∈ t.core.accs, b.id ≠ a.id := by
  intro c t
  obtain ⟨secs, ret, h⟩ := State.endAcc_core { s with core := c.writeP7 a r.ok } a
  have gone : ∀ b ∈ ((c.writeP7 a r.ok).dropAcc a.id).accs, b.id ≠ a.id := fun b => Core.mem_dropAcc
  have hs : ((c.writeP7 a r.ok).strm a.strm) = (c.strm a.strm).withP7 a r.ok := by rw [Core.writeP7_eq, Core.strm_setStrm]
  have hq : (c.writeP7 a r.ok).ldq = c.ldq ∧ (c.writeP7 a r.ok).tile = c.tile := by
    rw [Core.writeP7_eq]
    exact ⟨Core.setStrm_ldq .., Core.setStrm_tile ..⟩
  dsimp only at h
  rw [hs] at h
  have ht : t = match r.trap with
      | none => (State.endAcc { s with core := c.writeP7 a r.ok } a)
      | some (cause, info, aux) => (State.endAcc { s with core := c.writeP7 a r.ok } a).pendOn a.strm
          (a.trap cause info aux (a.dst.unfilled r.vals).1 (a.dst.unfilled r.vals).2) := rfl
  cases hr : r.trap with
  | none =>
    rw [hr] at ht
    rw [ht, h]
    refine ⟨⟨secs, ret, false, ?_⟩, ?_, ?_, ?_⟩
    · rw [Acc.pends_none _ hr, List.append_nil, Core.strm_setStrm]
    · rw [Core.setStrm_ldq]; exact hq.1
    · rw [Core.setStrm_tile]; exact hq.2
    · rw [Core.setStrm_accs]; exact gone
  | some p =>
    obtain ⟨cause, info, aux⟩ := p
    rw [hr] at ht
    dsimp only at ht
    rw [ht]
    unfold State.pendOn
    dsimp only
    rw [h, Core.setStrm_setStrm, Core.strm_setStrm, Core.strm_setStrm]
    refine ⟨⟨secs, ret, (((c.strm a.strm).withP7 a r.ok).sbClear? a.slot).hnd, ?_⟩, ?_, ?_, ?_⟩
    · simp only [Acc.pends, hr]
    · rw [Core.setStrm_ldq]; exact hq.1
    · rw [Core.setStrm_tile]; exact hq.2
    · rw [Core.setStrm_accs]; exact gone

/-! ### Loads -/

theorem State.loadElems_unmem (s : State) (size : Nat) (sx : Bool) (own : List (Nat × Byte)) (elems : List (List Part)) :
    (s.loadElems size sx own elems).1.unmem = s.unmem := by
  induction elems generalizing s with
  | nil => rfl
  | cons ps rest ih => exact (ih _).trans (s.readWith_unmem ps)

/-- What a load gives: its values; under .p zeros for poison and a false p7; else a trap. -/
def loadRes (pform : Bool) (vals : List (Option Word)) : AccRes :=
  if vals.all (·.isSome) then ⟨vals, true, none⟩
  else if pform then ⟨vals.map fun v => some (v.getD 0), false, none⟩
  else ⟨vals, false, some (.poison, 0, 0)⟩

theorem State.performAcc_load {s u : State} {a : Acc} {size : Nat} {sx : Bool} {elems : List (List Part)} {own : List (Nat × Byte)}
    {vals : List (Option Word)} (hk : a.kind = .load size sx elems own) (hl : s.loadElems size sx own elems = (u, vals)) :
    s.performAcc a false = u.finishAcc a (loadRes a.pform vals) false := by
  unfold State.performAcc loadRes
  rw [hk]
  dsimp only
  rw [hl]
  dsimp only
  split
  · rfl
  · split <;> rfl

/-- A value of a list of options, none past its end. -/
theorem getD_none_eq_join (vals : List (Option Word)) (i : Nat) : vals.getD i none = (vals[i]?).join := by
  rw [List.getD_eq_getElem?_getD]
  cases vals[i]? <;> rfl

theorem loadRes_val (pform : Bool) (vals : List (Option Word)) (i : Nat) : (loadRes pform vals).vals.getD i none =
    if vals.all (·.isSome) = false ∧ pform = true then (vals[i]?).map (·.getD 0) else (vals[i]?).join := by
  unfold loadRes
  cases vals.all (·.isSome) with
  | true => exact getD_none_eq_join vals i
  | false =>
    cases pform with
    | false => exact getD_none_eq_join vals i
    | true =>
      refine (getD_none_eq_join (vals.map fun v => some (v.getD 0)) i).trans ?_
      rw [List.getElem?_map]
      cases vals[i]? <;> rfl

theorem loadRes_ok {pform : Bool} {vals : List (Option Word)} (h : vals.all (·.isSome) = true ∨ pform = true) :
    (loadRes pform vals).ok = vals.all (·.isSome) ∧ (loadRes pform vals).trap = none := by
  unfold loadRes
  cases hc : vals.all (·.isSome) with
  | true => exact ⟨rfl, rfl⟩
  | false =>
    rw [hc] at h
    rw [h.resolve_left Bool.false_ne_true]
    exact ⟨rfl, rfl⟩

theorem loadRes_trap {pform : Bool} {vals : List (Option Word)} (h : vals.all (·.isSome) = false) (hp : pform = false) :
    (loadRes pform vals).trap = some (.poison, 0, 0) := by
  simp [loadRes, h, hp]

/-- Memory's own changes leave a stream as it was but for a watch of a sleep. -/
theorem strm_of_unmem {s u : State} (h : u.unmem = s.unmem) (k : Strm) :
    ({ u.core.strm k with waitW := none } : Stream) = { s.core.strm k with waitW := none } := by
  have hc : u.core.unmem = s.core.unmem := congrArg (fun t => t.core) h
  cases k with
  | l => exact congrArg (fun c => c.l) hc
  | c => exact congrArg (fun c => ({ c.c with waitW := none } : Stream)) hc
  | s => exact congrArg (fun c => ({ c.s with waitW := none } : Stream)) hc

theorem exec_accessComplete {s : State} {a : Acc} (ha : s.core.acc? a.id = some a) (hr : a.rel = none) :
    exec (.accessComplete a.id) s = .next (s.performAcc a false) := by
  show execAccessComplete a.id s = _
  unfold execAccessComplete
  rw [ha]
  simp [hr]

theorem Stream.sbClear?_stays (x : Stream) (j : Option (Fin 8)) :
    (x.sbClear? j).n = x.n ∧ (x.sbClear? j).rq = x.rq ∧ (x.sbClear? j).pend = x.pend ∧ (x.sbClear? j).p = x.p := by
  cases j <;> exact ⟨rfl, rfl, rfl, rfl⟩

/-- An access that ended, seen from a state whose core in focus is the same but for what memory changes: its stream, by what was
delivered. -/
theorem ends_from {s u : State} (a : Acc) (r : AccRes) (h : u.unmem = s.unmem) :
    let x := s.core.strm a.strm
    let y := (u.finishAcc a r false).core.strm a.strm
    (∀ k, a.dst = .n k → y.n[k] = (r.vals.getD 0 none).getD x.n[k]) ∧
    (∀ i, a.dst = .entry i → y.rq = x.rq.map fun e => if e.1 = i then (i, (r.vals.getD 0 none).or e.2) else e) ∧
    (r.trap = none → y.pend = x.pend ∧ (a.p7w = true → x.hnd = a.hnd → y.pred 7 = r.ok)) ∧
    (∀ cause info aux, r.trap = some (cause, info, aux) →
      ∃ p ∈ y.pend, p.cause = cause ∧ p.info = BitVec.ofNat 32 info ∧ p.ipc = a.ipc) ∧
    ∀ j, a.slot = some j → y.sb[j] = x.sb[j] - 1 := by
  intro x y
  obtain ⟨⟨secs, ret, hnd, hy⟩, -, -, -⟩ := u.finishAcc_ends a r
  have hx := strm_of_unmem h a.strm
  obtain ⟨⟨-, dsb, dpend, dhnd⟩, -⟩ := u.core.deliver_stays a.strm r.vals a.dst
  generalize hz : (u.core.deliver a.strm a.dst r.vals).strm a.strm = z at hy dsb dpend dhnd
  have zsb : z.sb = x.sb := dsb.trans (congrArg (fun z => z.sb) hx)
  have zpend : z.pend = x.pend := dpend.trans (congrArg (fun z => z.pend) hx)
  have zhnd : z.hnd = x.hnd := dhnd.trans (congrArg (fun z => z.hnd) hx)
  obtain ⟨wn, wrq, wsb, wpend⟩ := z.withP7_results a r.ok
  obtain ⟨vn, vrq, vpend, vp⟩ := (z.withP7 a r.ok).sbClear?_stays a.slot
  have yn : y.n = z.n := (congrArg (fun t => t.n) hy).trans (vn.trans wn)
  have yrq : y.rq = z.rq := (congrArg (fun t => t.rq) hy).trans (vrq.trans wrq)
  have yp : y.p = (z.withP7 a r.ok).p := (congrArg (fun t => t.p) hy).trans vp
  have ysb : y.sb = ((z.withP7 a r.ok).sbClear? a.slot).sb := congrArg (fun t => t.sb) hy
  have ypend : y.pend = x.pend ++ a.pends r hnd := by
    rw [← zpend, ← wpend, ← vpend]
    exact congrArg (fun t => t.pend) hy
  refine ⟨fun k hk => ?_, fun i hi => ?_, fun ht => ⟨?_, fun hw hh => ?_⟩, fun cause info aux ht => ?_, fun j hj => ?_⟩
  · have e := u.core.deliver_n a.strm r.vals k
    rw [← hk, hz] at e
    rw [yn, e]
    exact congrArg (fun t => (r.vals.getD 0 none).getD t.n[k]) hx
  · have e := u.core.deliver_entry a.strm r.vals i
    rw [← hi, hz] at e
    have xrq : (u.core.strm a.strm).rq = x.rq := congrArg (fun t => t.rq) hx
    rw [yrq, e, xrq]
  · rw [ypend, Acc.pends_none _ ht, List.append_nil]
  · have e := Stream.withP7_pred (x := z) r.ok hw (zhnd.trans hh)
    unfold Stream.pred at e ⊢
    rw [yp]
    exact e
  · obtain ⟨p, hp, h'⟩ := Acc.pends_some hnd ht
    exact ⟨p, by rw [ypend]; exact List.mem_append_right _ hp, h'⟩
  · rw [ysb, hj]
    simp [Stream.sbClear?, Stream.sbClear, wsb, zsb]

/-- The queue entries of an access that ended. -/
theorem ldq_ends_from {s u : State} (a : Acc) (r : AccRes) (h : u.unmem = s.unmem) {ids : List Nat} (hd : a.dst = .ldq ids)
    (hn : ids.Nodup) :
    let t := u.finishAcc a r false
    (∀ j < ids.length, ∀ e ∈ t.core.ldq.ents, e.id = ids.getD j 0 →
      ∃ b ∈ s.core.ldq.ents, b.id = e.id ∧ e.val = b.val.or (r.vals.getD j none)) ∧
    t.core.ldq.ents.length = s.core.ldq.ents.length ∧ t.core.ldq.head = s.core.ldq.head := by
  intro t
  obtain ⟨-, hq, -, -⟩ := u.finishAcc_ends a r
  have hu : u.core.ldq = s.core.ldq := congrArg (fun z => z.core.ldq) h
  rw [hd, Core.deliver_ldq, hu] at hq
  have hq' : t.core.ldq = s.core.ldq.fillAll (fun i => r.vals.getD i none) ids.zipIdx := hq
  rw [hq']
  refine ⟨fun j hj e he hid => ?_, DataQ.fillAll_stays ..⟩
  obtain ⟨b, hb, hbe, hin, -⟩ := DataQ.mem_fillAll (by simpa using hn) he
  refine ⟨b, hb, hbe, hin j ?_⟩
  rw [hid, List.getD_eq_getElem _ _ hj, List.mk_mem_zipIdx_iff_getElem?]
  exact List.getElem?_eq_getElem hj

/-! ### LD.tile -/

/-- Bytes that are not poisoned are stored; every other byte stays. -/
theorem storeClean_other {m : Mem} {a x : Nat} {bs : List PByte} (w : m.wf = true)
    (hx : ∀ i b, x = a + i → bs[i]? ≠ some (b, false)) : (storeClean m a bs).get x = m.get x := by
  induction bs generalizing m a with
  | nil => rfl
  | cons e bs ih =>
    obtain ⟨b, p⟩ := e
    have tail : ∀ i c, x = a + 1 + i → bs[i]? ≠ some (c, false) := fun i c hi => hx (i + 1) c (by omega)
    cases p with
    | true => exact ih w tail
    | false =>
      have ne : x ≠ a := fun h => hx 0 b h rfl
      exact (ih (Mem.wf_put a b w) tail).trans (Mem.get_put_ne b w ne)

theorem storeClean_same {m : Mem} {a i : Nat} {b : Byte} {bs : List PByte} (w : m.wf = true) (hi : bs[i]? = some (b, false)) :
    (storeClean m a bs).get (a + i) = b := by
  induction bs generalizing m a i with
  | nil => simp at hi
  | cons e bs ih =>
    obtain ⟨c, p⟩ := e
    cases i with
    | zero =>
      obtain ⟨rfl, rfl⟩ : c = b ∧ p = false := by simpa using hi
      refine (storeClean_other (Mem.wf_put a c w) fun j d hj => ?_).trans (Mem.get_put_same c w)
      omega
    | succ i =>
      have w' : (if p then m else m.put a c).wf = true := by
        split
        · exact w
        · exact Mem.wf_put a c w
      have e := ih (a := a + 1) w' hi
      rwa [Nat.add_assoc, Nat.add_comm 1] at e

theorem State.performAcc_loadTile {s u : State} {a : Acc} {byte : Nat} {ps : List Part} {own : List (Nat × Byte)} {raw : List PByte}
    (hk : a.kind = .loadTile byte ps own) (hl : s.readWith State.readPart ps = (u, raw)) :
    s.performAcc a false = State.finishAcc { u with core := { u.core with tile := storeClean u.core.tile byte (overlayOwn own ps raw) } } a
      ⟨[], true, if (overlayOwn own ps raw).any (·.2) then some (.poison, 0, 0) else none⟩ false := by
  unfold State.performAcc
  rw [hk]
  dsimp only
  rw [hl]
  rfl

theorem loadTile_completes {s u : State} {a : Acc} {byte : Nat} {ps : List Part} {own : List (Nat × Byte)} {raw : List PByte}
    (ha : s.core.acc? a.id = some a) (hr : a.rel = none) (hk : a.kind = .loadTile byte ps own)
    (hl : s.readWith State.readPart ps = (u, raw)) (hw : s.core.tile.wf = true) :
    let bs := overlayOwn own ps raw
    ∃ t, exec (.accessComplete a.id) s = .next t ∧ (∀ b ∈ t.core.accs, b.id ≠ a.id) ∧
      (∀ i b, bs[i]? = some (b, false) → t.core.tile.get (byte + i) = b) ∧
      (∀ x, (∀ i b, x = byte + i → bs[i]? ≠ some (b, false)) → t.core.tile.get x = s.core.tile.get x) ∧
      ((∃ b, (b, true) ∈ bs) → ∃ x ∈ (t.core.strm a.strm).pend, x.cause = .poison ∧ x.info = 0 ∧ x.ipc = a.ipc) := by
  intro bs
  have hu : u.unmem = s.unmem := by simpa [hl] using s.readWith_unmem ps
  let v : State := { u with core := { u.core with tile := storeClean u.core.tile byte bs } }
  let r : AccRes := ⟨[], true, if bs.any (·.2) then some (.poison, 0, 0) else none⟩
  obtain ⟨⟨secs, ret, hnd, hy⟩, -, ht, gone⟩ := v.finishAcc_ends a r
  have htile : (v.finishAcc a r false).core.tile = storeClean s.core.tile byte bs := by
    rw [ht, (v.core.deliver_stays a.strm r.vals a.dst).2]
    exact congrArg (fun z => storeClean z.core.tile byte bs) hu
  refine ⟨v.finishAcc a r false, (exec_accessComplete ha hr).trans (congrArg _ (State.performAcc_loadTile hk hl)), gone,
    fun i b hi => ?_, fun x hx => ?_, fun ⟨b, hb⟩ => ?_⟩
  · rw [htile]
    exact storeClean_same hw hi
  · rw [htile]
    exact storeClean_other hw hx
  · have poisoned : bs.any (·.2) = true := List.any_eq_true.2 ⟨_, hb, rfl⟩
    obtain ⟨p, hp, h⟩ := Acc.pends_some (a := a) (r := r) hnd (if_pos poisoned)
    rw [hy]
    exact ⟨p, List.mem_append_right _ hp, h⟩

/-! ### The value of a load -/

theorem extendBytes_eq {size : Nat} (h0 : 0 < size) (h8 : size ≤ 8) (x : Nat) (sx : Bool) : extendBytes size sx x =
    if sx then (BitVec.ofNat (8 * size) x).signExtend 64 else (BitVec.ofNat (8 * size) x).setWidth 64 := by
  have hw : 2 ^ (8 * size) ≤ 2 ^ 64 := Nat.pow_le_pow_right (by omega) (by omega)
  have hlt : x % 2 ^ (8 * size) < 2 ^ (8 * size) := Nat.mod_lt _ (by positivity)
  have msb : (BitVec.ofNat (8 * size) x).msb = bitOf x (8 * size - 1) := by
    rw [BitVec.msb_eq_getLsbD_last, BitVec.getLsbD_ofNat]
    simp [bitOf]
    omega
  apply BitVec.eq_of_toNat_eq
  cases sx with
  | false => simp [extendBytes, BitVec.toNat_ofNat]
  | true =>
    simp only [extendBytes, Bool.true_and, if_true, BitVec.toNat_signExtend, msb, BitVec.toNat_setWidth, BitVec.toNat_ofNat]
    cases bitOf x (8 * size - 1) with
    | false => simp
    | true =>
      simp only [if_true, BitVec.toNat_ofNat]
      rw [Nat.mod_eq_of_lt (b := 2 ^ 64) (by omega), Nat.mod_eq_of_lt (b := 2 ^ 64) (by omega)]

theorem load_completes {s u : State} {a : Acc} {size : Nat} {sx : Bool} {elems : List (List Part)} {own : List (Nat × Byte)}
    {vals : List (Option Word)} (ha : s.core.acc? a.id = some a) (hr : a.rel = none) (hk : a.kind = .load size sx elems own)
    (hl : s.loadElems size sx own elems = (u, vals)) :
    let clean : Bool := vals.all (·.isSome)
    let got (i : Nat) : Option Word := if clean = false ∧ a.pform = true then (vals[i]?).map (·.getD 0) else (vals[i]?).join
    ∃ t, exec (.accessComplete a.id) s = .next t ∧ (∀ b ∈ t.core.accs, b.id ≠ a.id) ∧
      (∀ k, a.dst = .n k → (t.core.strm a.strm).n[k] = (got 0).getD (s.core.strm a.strm).n[k]) ∧
      (∀ i, a.dst = .entry i → (t.core.strm a.strm).rq =
        (s.core.strm a.strm).rq.map fun e => if e.1 = i then (i, (got 0).or e.2) else e) ∧
      (∀ ids, a.dst = .ldq ids → ids.Nodup → (∀ j < ids.length, ∀ e ∈ t.core.ldq.ents, e.id = ids.getD j 0 →
          ∃ b ∈ s.core.ldq.ents, b.id = e.id ∧ e.val = b.val.or (got j)) ∧
        t.core.ldq.ents.length = s.core.ldq.ents.length ∧ t.core.ldq.head = s.core.ldq.head) ∧
      (clean = true ∨ a.pform = true → (t.core.strm a.strm).pend = (s.core.strm a.strm).pend ∧
        (a.p7w = true → (s.core.strm a.strm).hnd = a.hnd → (t.core.strm a.strm).pred 7 = clean)) ∧
      (clean = false → a.pform = false → ∃ x ∈ (t.core.strm a.strm).pend, x.cause = .poison ∧ x.info = 0 ∧ x.ipc = a.ipc) ∧
      (∀ j, a.slot = some j → (t.core.strm a.strm).sb[j] = (s.core.strm a.strm).sb[j] - 1) := by
  intro clean got
  have hu : u.unmem = s.unmem := by simpa [hl] using s.loadElems_unmem size sx own elems
  have hgot (i : Nat) : (loadRes a.pform vals).vals.getD i none = got i := loadRes_val a.pform vals i
  obtain ⟨hn, hrq, hok, htrap, hsb⟩ := ends_from a (loadRes a.pform vals) hu
  have hq := fun ids => ldq_ends_from (ids := ids) a (loadRes a.pform vals) hu
  simp only [hgot] at hn hrq hq
  refine ⟨u.finishAcc a (loadRes a.pform vals) false, (exec_accessComplete ha hr).trans (congrArg _ (State.performAcc_load hk hl)),
    (u.finishAcc_ends a _).2.2.2, hn, hrq, hq, fun h => ?_, fun hc hp => htrap _ _ _ (loadRes_trap hc hp), hsb⟩
  obtain ⟨ok, none⟩ := loadRes_ok h
  rw [ok] at hok
  exact hok none

/-- Settles O25: the end of an access, with the values of a load and with the bytes of LD.tile. -/
theorem loadCompletes : Obligations.LoadCompletes := by
  unfold Obligations.LoadCompletes
  refine ⟨fun s u a size sx elems own vals => load_completes, fun s u a byte ps own raw => loadTile_completes,
    fun x sx => ⟨?_, ?_, ?_, ?_⟩⟩
  · exact extendBytes_eq (by decide) (by decide) x sx
  · exact extendBytes_eq (by decide) (by decide) x sx
  · exact extendBytes_eq (by decide) (by decide) x sx
  · have e := extendBytes_eq (size := 8) (by decide) (by decide) x sx
    rw [e]
    cases sx <;> simp

end Sys2Proof.Machine
end

section
/-!
SUPPORT. Faults of the engines and the events of the copy engine and the draft (R62, R126, R131, R230, R414).
-/

namespace Sys2Proof.Machine

/-! ### A trap pends, a fault is queued -/

section
variable (s : State) (k : Strm) (t : Trap)

theorem State.pendOn_core : (s.pendOn k t).core =
    s.core.setStrm k { s.core.strm k with pend := (s.core.strm k).pend ++ [{ t with inHnd := (s.core.strm k).hnd }] } := rfl

theorem State.pendOn_pends : ∃ x ∈ ((s.pendOn k t).core.strm k).pend,
    x.cause = t.cause ∧ x.eng = t.eng ∧ x.mtx = t.mtx ∧ x.tag = t.tag ∧ x.ipc = t.ipc := by
  rw [State.pendOn_core, Core.strm_setStrm]
  exact ⟨_, List.mem_append_right _ (List.mem_singleton_self _), rfl, rfl, rfl, rfl, rfl⟩

theorem State.pendOn_sb : ((s.pendOn k t).core.strm k).sb = (s.core.strm k).sb := by
  rw [State.pendOn_core, Core.strm_setStrm]

end

/-- The fault queue takes the record; the ash that goes with it changes the core in focus by event bits only. -/
theorem State.faultQueue_core (s : State) (f : FqRec) :
    (s.faultQueue f).core.unmem = { s.core with fq := s.core.fq ++ [f] }.unmem :=
  congrArg (fun u => u.core) ((State.ashNote_memOnly { s with core := { s.core with fq := s.core.fq ++ [f] } } ..).trans
    (State.eventDcc_memOnly ..)).1

theorem State.faultQueue_mem (s : State) (f : FqRec) : (s.faultQueue f).mem = s.mem := by
  simp [State.faultQueue, State.coreAsh, State.ashNote]

/-- A stream's scoreboard beside what memory changes. -/
theorem sb_of_unmem {c d : Core} (h : d.unmem = c.unmem) (k : Strm) : (d.strm k).sb = (c.strm k).sb := by
  cases k with
  | l => exact congrArg (fun x => x.l.sb) h
  | c => exact congrArg (fun x => x.c.sb) h
  | s => exact congrArg (fun x => x.s.sb) h

/-! ### Copy commands begin -/

theorem copyBegin_waits {s : State} (h : ∀ m, s.core.nextCopy = some m → s.core.sem m.e.wsem < m.e.wthr.toNat) :
    exec .copyCommandBegin s = .next s := by
  show execCopyCommandBegin s = _
  unfold execCopyCommandBegin
  cases hm : s.core.nextCopy with
  | none => rfl
  | some m =>
    have unmet : s.core.waitMet m.e = false := decide_eq_false (not_le.2 (h m hm))
    simp [unmet]

theorem copyBegin_begins {s u : State} {m m' : CCmd} (hm : s.core.nextCopy = some m) (hw : m.e.wthr.toNat ≤ s.core.sem m.e.wsem)
    (hb : s.beginCopy m = (u, .ok m')) : exec .copyCommandBegin s = .next (u.setCopy m') := by
  have met : s.core.waitMet m.e = true := decide_eq_true hw
  show execCopyCommandBegin s = _
  unfold execCopyCommandBegin
  simp [hm, met, hb]

/-- A command that begins now, with its view fixed (R131). -/
def State.begunNow (s : State) (m : CCmd) : CCmd :=
  { m with begun := true, seen := s.recsNow, since := s.ftime, hide := s.hiddenNow }

theorem beginCopy_plain {s : State} {m : CCmd} (h : m.op ∈ [CopyOp.cpy, .cfill, .cpyt false, .cgath, .cscat, .cred, .credc]) :
    s.beginCopy m = (s, .ok (s.begunNow m)) := by
  unfold State.beginCopy State.begunNow
  simp only [List.mem_cons, List.not_mem_nil, or_false] at h
  rcases h with h | h | h | h | h | h | h <;> simp only [h]

theorem beginCopy_cbget {s : State} {m : CCmd} (h : m.op = .cbget) : s.beginCopy m = (s.sendBulk (s.begunNow m), .ok (s.begunNow m)) := by
  unfold State.beginCopy State.begunNow
  simp only [h]

/-! ### Copy commands complete -/

theorem copyEnd_waits {s : State} {tag : BitVec 16}
    (h : ∀ m, s.core.copy.find? (fun m => m.tag = tag) = some m → s.copyReady m = false) :
    exec (.copyCommandComplete tag) s = .next s := by
  show execCopyCommandComplete tag s = _
  unfold execCopyCommandComplete
  cases hm : s.core.copy.find? fun m => m.tag = tag with
  | none => rfl
  | some m => simp [h m hm]

/-- A command of granules: what its run of granules comes to. -/
theorem copyEnd_runs {s t : State} {tag : BitVec 16} {m : CCmd} {r : Run} (hm : s.core.copy.find? (fun m => m.tag = tag) = some m)
    (hr : s.copyReady m = true) (hd : m.op ≠ .draft) (hg : granLoop s ⟨m, none, none⟩ (s.granEnd m - m.wbase) m.wbase = (t, r)) :
    exec (.copyCommandComplete tag) s = match r.stop, r.bad with
      | some .hole, _ => .fault .hbmHole
      | some _, _ => .next (t.setCopy r.m)
      | none, some (i, c, fva) => .next (t.copyFault r.m i c fva)
      | none, none => .next ((t.setCopy r.m).finishCopy r.m) := by
  show execCopyCommandComplete tag s = _
  unfold execCopyCommandComplete
  simp only [hm, hr, hd, hg, Bool.not_true, Bool.false_eq_true, if_false] <;> rfl

theorem copyEnd_clause {s t : State} {tag : BitVec 16} {m : CCmd} {r : Run}
    (hm : s.core.copy.find? (fun m => m.tag = tag) = some m) (hr : s.copyReady m = true) (hd : m.op ≠ .draft)
    (hg : granLoop s ⟨m, none, none⟩ (s.granEnd m - m.wbase) m.wbase = (t, r)) :
    (r.stop = none → r.bad = none → exec (.copyCommandComplete tag) s = .next ((t.setCopy r.m).finishCopy r.m)) ∧
    (∀ i c fva, r.stop = none → r.bad = some (i, c, fva) → exec (.copyCommandComplete tag) s = .next (t.copyFault r.m i c fva)) ∧
    ∀ b, r.stop = some b → b ≠ .hole → exec (.copyCommandComplete tag) s = .next (t.setCopy r.m) := by
  rw [copyEnd_runs hm hr hd hg]
  refine ⟨fun h1 h2 => by rw [h1, h2], fun i c fva h1 h2 => by rw [h1, h2], fun b h1 hb => ?_⟩
  rw [h1]
  cases b with
  | hole => exact absurd rfl hb
  | _ => rfl

theorem copyFault_clause (s : State) (m : CCmd) (unit : Nat) (c : Cause) (fva : Nat) (hm : m ∈ s.core.copy) :
    let t := s.copyFault m unit c fva
    (∃ x ∈ t.core.copy, x.tag = m.tag ∧ x.done = true ∧ x.fault = some c) ∧
    (∃ x ∈ (t.core.strm m.strm).pend, x.cause = c ∧ x.eng = true ∧ x.tag = m.tag ∧ x.ipc = m.ipc) ∧
    (t.core.strm m.strm).sb = (s.core.strm m.strm).sb ∧ t.core.sems = s.core.sems := by
  intro t
  let m' : CCmd := { m with done := true, fault := some c, fva := BitVec.ofNat 64 fva, unit := unit }
  let v := (s.setCopy m').faultQueue ⟨c, false, m.tag, BitVec.ofNat 24 unit, BitVec.ofNat 16 s.tenant, BitVec.ofNat 64 fva⟩
  have hv : v.core.unmem = { (s.setCopy m').core with fq := _ }.unmem := State.faultQueue_core ..
  obtain ⟨x, hx, xc, xe, -, xt, xi⟩ := v.pendOn_pends m.strm _
  refine ⟨⟨m', ?_, rfl, rfl, rfl⟩, ⟨x, hx, xc, xe, xt, xi⟩, ?_, ?_⟩
  · have hc : t.core.copy = (s.setCopy m').core.copy := (Core.setStrm_copy ..).trans (congrArg (fun c => c.copy) hv)
    rw [hc]
    exact List.mem_map.2 ⟨m, hm, if_pos rfl⟩
  · exact (v.pendOn_sb m.strm _).trans (sb_of_unmem hv m.strm)
  · exact (Core.setStrm_sems ..).trans (congrArg (fun c => c.sems) hv)

/-! ### The draft -/

theorem draft_without {s : State} {idx : Nat} (h : s.draftJob idx = none) :
    exec (.draftFetch idx) s = .next s ∧ exec (.draftArrival idx) s = .next s := by
  constructor
  · show execDraftFetch idx s = _
    unfold execDraftFetch
    rw [h]
  · show execDraftArrival idx s = _
    unfold execDraftArrival
    rw [h]

section
variable {s u : State} {idx : Nat} {j : DraftJob} {bs : List Byte}

theorem draftFetch_clause (hj : s.draftJob idx = some j) (hr : s.draftRead j.die idx = (u, some bs))
    (h0 : bytesNat bs 28 4 % 8 = 0) (hn : u.draftNext j bs = true) :
    (draftBad j bs = true → exec (.draftFetch idx) s = .next (u.draftEnd j 3)) ∧
    (draftBad j bs = false →
      let r := (draftPages bs).foldl (fun (a : State × Bool) p => ((a.1.takeLease p).1, a.2 && (a.1.takeLease p).2)) (u, true)
      exec (.draftFetch idx) s = .next (if r.2 then (r.1.draftStatus j.die idx 1).draftAsked j else r.1.draftEnd j 3)) := by
  have e : exec (.draftFetch idx) s = execDraftFetch idx s := rfl
  unfold execDraftFetch at e
  simp only [hj, hr, h0, hn, bne_self_eq_false, Bool.not_true, Bool.or_self, Bool.false_eq_true, if_false] at e
  refine ⟨fun hb => e.trans (if_pos hb), fun hb => ?_⟩
  intro r
  refine e.trans ((if_neg (by simp [hb])).trans ?_)
  show (match r with
    | (s, true) => _
    | (s, false) => _) = _
  obtain ⟨v, ok⟩ := r
  cases ok <;> rfl

theorem State.holdLease_view (s : State) (p : Nat) (till : BitVec 64) : (s.holdLease p till).view = s.view := by
  unfold State.holdLease
  split <;> rfl

/-- Holding a lease: the page is kept until then at least, and no page for less long than before. -/
theorem State.holdLease_kept (s : State) (p : Nat) (till : BitVec 64) :
    till.toNat ≤ (lookupD (s.holdLease p till).kept p 0).toNat ∧
    ∀ q, (lookupD s.kept q 0).toNat ≤ (lookupD (s.holdLease p till).kept q 0).toNat := by
  unfold State.holdLease
  split
  · next h =>
    refine ⟨le_of_eq (congrArg BitVec.toNat (lookupD_insertAt_same ..).symm), fun q => ?_⟩
    by_cases hq : q = p
    · subst hq
      rw [lookupD_insertAt_same]
      exact h.le
    · rw [lookupD_insertAt_ne _ _ _ hq]
  · next h => exact ⟨not_lt.1 h, fun q => le_rfl⟩

theorem holdLeases_kept (till : BitVec 64) (ps : List Nat) (s : State) :
    let t := ps.foldl (fun s p => s.holdLease p till) s
    t.view = s.view ∧ (∀ q, (lookupD s.kept q 0).toNat ≤ (lookupD t.kept q 0).toNat) ∧
      ∀ p ∈ ps, till.toNat ≤ (lookupD t.kept p 0).toNat := by
  induction ps generalizing s with
  | nil => exact ⟨rfl, fun _ => le_rfl, by simp⟩
  | cons p ps ih =>
    obtain ⟨hv, hk, hp⟩ := ih (s.holdLease p till)
    obtain ⟨kp, kq⟩ := s.holdLease_kept p till
    refine ⟨hv.trans (s.holdLease_view p till), fun q => (kq q).trans (hk q), fun q hq => ?_⟩
    rcases List.mem_cons.1 hq with rfl | hq
    · exact kp.trans (hk q)
    · exact hp q hq

theorem draftArrival_clause (hj : s.draftJob idx = some j) (hr : s.draftRead j.die idx = (u, some bs))
    (h1 : bytesNat bs 28 4 % 8 = 1) :
    let r := readLines State.viewLine 64 u (keyOf 1 (bytesNat bs 0 8)) (65536 * bytesNat bs 8 2)
    (r.2.any (·.2) = true → exec (.draftArrival idx) s = .next (r.1.draftEnd j 3)) ∧
    (r.2.any (·.2) = false → bytesNat bs 10 1 = 1 → exec (.draftArrival idx) s =
      .next ((r.1.sliceStore (bytesNat bs 11 1 * 2 ^ 21 + bytesNat bs 12 4) (r.2.map (·.1))).draftEnd j
        (if bytesNat bs 16 8 < u.ftime.toNat then 4 else 2))) ∧
    (r.2.any (·.2) = false → bytesNat bs 10 1 ≠ 1 → ∃ t, exec (.draftArrival idx) s = .next (State.draftEnd t j
      (if bytesNat bs 16 8 < u.ftime.toNat then 4 else 2)) ∧ t.view = r.1.view ∧
      ∀ p ∈ draftPages bs, (BitVec.ofNat 64 (bytesNat bs 16 8 + 2000000)).toNat ≤ (lookupD t.kept p 0).toNat) := by
  intro r
  have e : exec (.draftArrival idx) s = execDraftArrival idx s := rfl
  unfold execDraftArrival at e
  simp only [hj, hr, h1, bne_self_eq_false, Bool.false_eq_true, if_false] at e
  refine ⟨fun hp => ?_, fun hp ht => ?_, fun hp ht => ?_⟩
  · exact e.trans (if_pos hp)
  · exact e.trans ((if_neg (by rw [hp]; exact Bool.false_ne_true)).trans (if_pos ht))
  · obtain ⟨hv, -, hk⟩ := holdLeases_kept (BitVec.ofNat 64 (bytesNat bs 16 8 + 2000000)) (draftPages bs) r.1
    exact ⟨_, e.trans ((if_neg (by rw [hp]; exact Bool.false_ne_true)).trans (if_neg ht)), hv, hk⟩

end

/-- Settles O35: each event of the copy engine and the draft, by what its command or its entry is. -/
theorem copyEvents : Obligations.CopyEvents := by
  unfold Obligations.CopyEvents
  refine ⟨⟨fun s => copyBegin_waits, fun s m hm hw => ⟨fun h => ?_, fun h => ?_⟩, fun s tag => copyEnd_waits,
    fun s tag m t r => copyEnd_clause, fun s m unit c fva hm _ _ => copyFault_clause s m unit c fva hm⟩,
    fun s idx => draft_without, fun s idx j u bs => draftFetch_clause, fun s idx j u bs => draftArrival_clause⟩
  · exact copyBegin_begins hm hw (beginCopy_plain h)
  · exact copyBegin_begins hm hw (beginCopy_cbget h)

end Sys2Proof.Machine
end

section
/-!
SUPPORT. The events of the matrix engine (R62, R272, R276, R279, R285).
-/

namespace Sys2Proof.Machine

/-! ### Matrix commands begin -/

theorem mtxBegin_waits {s : State} (h : s.mtxReady = false) : exec .matrixCommandBegin s = .next s := by
  show execMatrixCommandBegin s = _
  unfold execMatrixCommandBegin
  cases s.core.mtx.q with
  | nil => rfl
  | cons m rest => simp [h]

section
variable {s : State} {m : MCmd} {rest : List MCmd}

/-- The head command begins at a K-group. -/
def State.beginMtx (s : State) (m : MCmd) (rest : List MCmd) (k : Nat) : State :=
  { s with core := { s.core with mtx := { s.core.mtx with q := { m with begun := true, kp := k } :: rest } } }

theorem mtxBegin_illegal (hq : s.core.mtx.q = m :: rest) (hr : s.mtxReady = true) (hc : s.core.mtx.ckOk m.op m.d = false) :
    exec .matrixCommandBegin s = .next (s.mtxFault m .illegal 0) := by
  show execMatrixCommandBegin s = _
  unfold execMatrixCommandBegin
  simp [hq, hr, hc]

/-- A command that passes the checks of the slots: where it begins, or its fault. -/
theorem mtxBegin_begins (hq : s.core.mtx.q = m :: rest) (hr : s.mtxReady = true) (hc : s.core.mtx.ckOk m.op m.d = true) :
    exec .matrixCommandBegin s =
      match (match m.product with
        | some o => s.core.startKp m o
        | none => some 0) with
      | none => .next (s.mtxFault m .illegal 0)
      | some k => if (k = 0 && m.product.any fun o => !s.core.blockOk o 0) = true then .next (s.mtxFault m .illegal 0)
        else .next (s.beginMtx m rest k) := by
  show execMatrixCommandBegin s = _
  unfold execMatrixCommandBegin
  simp only [hq, hr, hc, Bool.not_true, Bool.false_eq_true, if_false]
  rfl

theorem mtxBegin_clause (hq : s.core.mtx.q = m :: rest) (hr : s.mtxReady = true) (hc : s.core.mtx.ckOk m.op m.d = true) :
    (∀ o, m.product = some o → s.core.startKp m o = none → exec .matrixCommandBegin s = .next (s.mtxFault m .illegal 0)) ∧
    (∀ o, m.product = some o → s.core.startKp m o = some 0 → s.core.blockOk o 0 = false →
      exec .matrixCommandBegin s = .next (s.mtxFault m .illegal 0)) ∧
    (∀ o k, m.product = some o → s.core.startKp m o = some k → k ≠ 0 ∨ s.core.blockOk o 0 = true →
      exec .matrixCommandBegin s = .next (s.beginMtx m rest k)) ∧
    (m.product = none → exec .matrixCommandBegin s = .next (s.beginMtx m rest 0)) := by
  rw [mtxBegin_begins hq hr hc]
  refine ⟨fun o ho hk => ?_, fun o ho hk hb => ?_, fun o k ho hk hb => ?_, fun hn => ?_⟩
  · simp only [ho, hk]
  · simp [ho, hk, hb]
  · rcases hb with hb | hb <;> simp [ho, hk, hb]
  · simp [hn]

end

/-! ### Matrix commands complete -/

theorem mtxEnd_idle {s : State} (h : s.core.mtx.running = none) : exec .matrixCommandComplete s = .next s := by
  show execMatrixCommandComplete s = _
  unfold execMatrixCommandComplete
  rw [h]

theorem mtxEnd_ends {s : State} {m : MCmd} (h : s.core.mtx.running = some m) : exec .matrixCommandComplete s = .next (s.endMtx m) := by
  show execMatrixCommandComplete s = _
  unfold execMatrixCommandComplete
  rw [h]

/-- A command that is no product performs at once, or faults. -/
theorem endMtx_plain {s : State} {m : MCmd} (h : m.product = none) : s.endMtx m = match s.core.performMtx m.op m.d with
    | .ok c => (s.setCore c).finishMtx m
    | .error e => s.mtxFault m e 0 := by
  unfold State.endMtx
  rw [h]
  cases m.op <;> rfl

/-- A product stops at the first K-group that cannot be fetched. -/
theorem endMtx_bad {s : State} {m : MCmd} {o : Mma} {g : Nat} {z : Bool} {ck : Option (Fin 8)} (hm : m.op = .mma z ck)
    (ho : m.product = some o) (hg : s.core.badGroup o m.kp = some g) :
    s.endMtx m = (s.setCore (s.core.runGroups o z ck m.kp g)).mtxFault m .illegal g := by
  unfold State.endMtx
  simp only [hm, ho, hg]

theorem mtxFault_clause (s : State) (m : MCmd) (c : Cause) (kp : Nat) (rest : List MCmd) (hq : s.core.mtx.q = m :: rest) :
    let t := s.mtxFault m c kp
    (∃ x, t.core.mtx.q = x :: rest ∧ x.fault = some c ∧ x.kp = kp ∧ x.op = m.op ∧ x.d = m.d) ∧
    (∃ x ∈ (t.core.strm .c).pend, x.cause = c ∧ x.eng = true ∧ x.mtx = true ∧ x.ipc = m.ipc) ∧
    t.core.accs32 = s.core.accs32 ∧ t.core.tile = s.core.tile ∧ t.mem = s.mem ∧ (t.core.strm .c).sb = (s.core.strm .c).sb := by
  intro t
  let m' : MCmd := { m with begun := true, fault := some c, kp := kp }
  let w : State := { s with core := { s.core with mtx := { s.core.mtx with q := m' :: s.core.mtx.q.tail } } }
  let f : FqRec := ⟨c, true, 0, BitVec.ofNat 24 kp, BitVec.ofNat 16 w.tenant, 0⟩
  have hv : (w.faultQueue f).core.unmem = { w.core with fq := _ }.unmem := State.faultQueue_core ..
  obtain ⟨x, hx, xc, xe, xm, -, xi⟩ := (w.faultQueue f).pendOn_pends .c _
  refine ⟨⟨m', ?_, rfl, rfl, rfl, rfl⟩, ⟨x, hx, xc, xe, xm, xi⟩, ?_, ?_, State.faultQueue_mem w f, ?_⟩
  · have hm : t.core.mtx = w.core.mtx := (Core.setStrm_mtx ..).trans (congrArg (fun c => c.mtx) hv)
    have e : w.core.mtx.q = m' :: s.core.mtx.q.tail := rfl
    rw [hm, e, hq]
    rfl
  · exact (Core.setStrm_accs32 ..).trans (congrArg (fun c => c.accs32) hv)
  · exact (Core.setStrm_tile ..).trans (congrArg (fun c => c.tile) hv)
  · exact ((w.faultQueue f).pendOn_sb .c _).trans (sb_of_unmem hv .c)

/-- Settles O44: the head command by its state, its checks and whether it is a product; what a fault leaves. -/
theorem matrixEvents : Obligations.MatrixEvents := by
  unfold Obligations.MatrixEvents
  refine ⟨fun s => mtxBegin_waits, fun s m rest hq hr => ⟨mtxBegin_illegal hq hr, mtxBegin_clause hq hr⟩, fun s => mtxEnd_idle,
    fun s m hm hp => ⟨fun c hc => ?_, fun e he => ?_⟩, fun s m o g z ck hm hop ho hg => ?_,
    fun s m c kp rest hq _ => mtxFault_clause s m c kp rest hq⟩
  · rw [mtxEnd_ends hm, endMtx_plain hp, hc]
  · rw [mtxEnd_ends hm, endMtx_plain hp, he]
  · rw [mtxEnd_ends hm, endMtx_bad hop ho hg]

end Sys2Proof.Machine
end

section
/-!
SUPPORT. The numbers that values stand for and their order (R69, R79); sorting (R259); the pairwise tree (R80).
-/

namespace Sys2Proof.Machine

/-! ### e8m0 (R69) -/

theorem fvOf_e8m0 (x : Nat) : fvOf .e8m0 x = if x % 2 ^ 8 = 0xFF then .nan else .fin false 1 (((x % 2 ^ 8 : Nat) : Int) - 127) := rfl

/-- Settles O15: the two cases of the pattern. -/
theorem scalePatterns : Obligations.ScalePatterns := by
  unfold Obligations.ScalePatterns
  refine ⟨fun e he => ?_, rfl, fun x neg exp => ?_⟩
  · rw [fvOf_e8m0, Nat.mod_eq_of_lt (by omega), if_neg (by omega)]
  · rw [fvOf_e8m0]
    split <;> simp

/-! ### The number of a value -/

/-- ± man · 2^exp. -/
def signedNum (neg : Bool) (man : Nat) (exp : Int) : ℚ := (if neg then -(man : ℚ) else man) * 2 ^ exp

/-- A number at a smaller exponent, as a whole number of its units. -/
theorem signedNum_at {neg : Bool} {man : Nat} {exp e : Int} (h : e ≤ exp) :
    signedNum neg man exp = ((if neg then -((man : Int) * 2 ^ (exp - e).toNat) else (man : Int) * 2 ^ (exp - e).toNat : Int) : ℚ) * 2 ^ e := by
  obtain ⟨k, rfl⟩ := Int.le.dest h
  have hk : e + (k : Int) - e = k := by omega
  rw [signedNum, hk, Int.toNat_natCast, zpow_add₀ two_ne_zero, zpow_natCast]
  cases neg <;> simp <;> ring

theorem FV.fin_lt_fin (na nb : Bool) (ma mb : Nat) (ea eb : Int) :
    (FV.fin na ma ea).lt (.fin nb mb eb) = true ↔ signedNum na ma ea < signedNum nb mb eb := by
  rw [signedNum_at (min_le_left ea eb), signedNum_at (min_le_right ea eb),
    mul_lt_mul_iff_of_pos_right (zpow_pos two_pos _), Int.cast_lt]
  exact decide_eq_true_iff

/-- The place of a value among the numbers and the infinities. -/
def FV.rank : FV → WithBot (WithTop ℚ)
  | .nan => ⊥
  | .inf true => ⊥
  | .inf false => (⊤ : WithTop ℚ)
  | .fin n m e => ((signedNum n m e : ℚ) : WithTop ℚ)

/-- The order of two values that are no NaN is that of their numbers. -/
theorem FV.lt_iff_rank {a b : FV} (ha : a.isNan = false) (hb : b.isNan = false) : a.lt b = true ↔ a.rank < b.rank := by
  cases a with
  | nan => simp [FV.isNan] at ha
  | inf na =>
    cases b with
    | nan => simp [FV.isNan] at hb
    | inf nb => cases na <;> cases nb <;> simp [FV.lt, FV.rank]
    | fin nb mb eb => cases na <;> simp [FV.lt, FV.rank]
  | fin na ma ea =>
    cases b with
    | nan => simp [FV.isNan] at hb
    | inf nb =>
      cases nb with
      | true => simp [FV.lt, FV.rank]
      | false => exact iff_of_true rfl (WithBot.coe_lt_coe.2 (WithTop.coe_lt_top _))
    | fin nb mb eb =>
      rw [FV.fin_lt_fin, FV.rank, FV.rank, WithBot.coe_lt_coe, WithTop.coe_lt_coe]

theorem FV.rank_of_isZero {a : FV} (h : a.isZero = true) : a.rank = ((0 : ℚ) : WithTop ℚ) := by
  cases a with
  | nan => simp [FV.isZero] at h
  | inf n => simp [FV.isZero] at h
  | fin n m e =>
    have hm : m = 0 := of_decide_eq_true h
    subst hm
    simp [FV.rank, signedNum]

/-- The total order: by numbers, and -0 below +0. -/
theorem FV.below_iff {a b : FV} (ha : a.isNan = false) (hb : b.isNan = false) : a.below b = true ↔
    a.rank < b.rank ∨ (a.isZero = true ∧ b.isZero = true ∧ a.isNeg = true ∧ b.isNeg = false) := by
  rw [FV.below, Bool.or_eq_true, FV.lt_iff_rank ha hb]
  simp [and_assoc]

theorem FV.below_irrefl {a : FV} (ha : a.isNan = false) : a.below a = false := by
  rw [← Bool.not_eq_true, FV.below_iff ha ha]
  rintro (h | ⟨-, -, h1, h2⟩)
  · exact lt_irrefl _ h
  · simp [h1] at h2

theorem FV.below_trans {a b c : FV} (ha : a.isNan = false) (hb : b.isNan = false) (hc : c.isNan = false)
    (h : a.below b = true) (k : b.below c = true) : a.below c = true := by
  rw [FV.below_iff ha hb] at h
  rw [FV.below_iff hb hc] at k
  rw [FV.below_iff ha hc]
  rcases h with h | ⟨za, zb, -, pb⟩ <;> rcases k with k | ⟨zb', zc, nb, -⟩
  · exact .inl (lt_trans h k)
  · exact .inl (by rwa [FV.rank_of_isZero zc, ← FV.rank_of_isZero zb'])
  · exact .inl (by rwa [FV.rank_of_isZero za, ← FV.rank_of_isZero zb])
  · simp [nb] at pb

/-! ### The order of keys (R259) -/

theorem isNan_of_isNanBits {ty : EType} {x : Nat} (hi : ty.isInt = false) (h : isNanBits ty x = false) : (fvOf ty x).isNan = false := by
  simpa [isNanBits, hi] using h

theorem elemBelow_irrefl {ty : EType} {x : Nat} (h : isNanBits ty x = false) : elemBelow ty x x = false := by
  unfold elemBelow
  cases hi : ty.isInt with
  | true => simp
  | false => simpa using FV.below_irrefl (isNan_of_isNanBits hi h)

theorem elemBelow_trans {ty : EType} {x y z : Nat} (hx : isNanBits ty x = false) (hy : isNanBits ty y = false)
    (hz : isNanBits ty z = false) (h : elemBelow ty x y = true) (k : elemBelow ty y z = true) : elemBelow ty x z = true := by
  unfold elemBelow at h k ⊢
  cases hi : ty.isInt with
  | true =>
    simp only [hi, if_true, decide_eq_true_eq] at h k ⊢
    exact lt_trans h k
  | false =>
    simp only [hi, Bool.false_eq_true, if_false] at h k ⊢
    exact FV.below_trans (isNan_of_isNanBits hi hx) (isNan_of_isNanBits hi hy) (isNan_of_isNanBits hi hz) h k

theorem keyLt_desc (ty : EType) (a b : Nat × Nat) : keyLt ty true a b = keyLt ty false b a := rfl

theorem keyLt_asc {ty : EType} {a b : Nat × Nat} : keyLt ty false a b = true ↔
    isNanBits ty a.1 = false ∧ (isNanBits ty b.1 = true ∨ elemBelow ty a.1 b.1 = true) := by
  simp [keyLt]

theorem keyLt_irrefl (ty : EType) (desc : Bool) (a : Nat × Nat) : keyLt ty desc a a = false := by
  have asc : keyLt ty false a a = false := by
    rw [← Bool.not_eq_true, keyLt_asc]
    rintro ⟨h, h' | h'⟩
    · simp [h] at h'
    · simp [elemBelow_irrefl h] at h'
  cases desc
  · exact asc
  · exact asc

theorem keyLt_asc_trans {ty : EType} {a b c : Nat × Nat} (h : keyLt ty false a b = true) (k : keyLt ty false b c = true) :
    keyLt ty false a c = true := by
  obtain ⟨ha, h⟩ := keyLt_asc.1 h
  obtain ⟨hb, k⟩ := keyLt_asc.1 k
  have hab : elemBelow ty a.1 b.1 = true := h.resolve_left (by simp [hb])
  refine keyLt_asc.2 ⟨ha, ?_⟩
  cases hc : isNanBits ty c.1 with
  | true => exact .inl rfl
  | false => exact .inr (elemBelow_trans ha hb hc hab (k.resolve_left (by simp [hc])))

theorem keyLt_trans {ty : EType} {desc : Bool} {a b c : Nat × Nat} (h : keyLt ty desc a b = true)
    (k : keyLt ty desc b c = true) : keyLt ty desc a c = true := by
  cases desc with
  | false => exact keyLt_asc_trans h k
  | true => exact keyLt_asc_trans (a := c) k h

/-! ### Insertion sort -/

theorem insertBy_perm {α : Type} (lt : α → α → Bool) (x : α) (l : List α) : (insertBy lt x l).Perm (x :: l) := by
  induction l with
  | nil => exact .refl _
  | cons y l ih =>
    rw [insertBy]
    split
    · exact .refl _
    · exact (ih.cons y).trans (.swap x y l)

/-- What a strict order puts nowhere below what stands before it stays so when an element goes to its place. -/
theorem insertBy_pairwise {α : Type} {lt : α → α → Bool} (hi : ∀ a, lt a a = false)
    (ht : ∀ a b c, lt a b = true → lt b c = true → lt a c = true) (x : α) {l : List α}
    (h : l.Pairwise fun a b => lt b a = false) : (insertBy lt x l).Pairwise fun a b => lt b a = false := by
  induction l with
  | nil => exact List.pairwise_singleton _ _
  | cons y l ih =>
    obtain ⟨hy, hl⟩ := List.pairwise_cons.1 h
    have le_of_lt {z : α} (hxy : lt x y = true) (hzy : lt z y = false) : lt z x = false := by
      rw [← Bool.not_eq_true] at hzy ⊢
      exact fun hzx => hzy (ht z x y hzx hxy)
    rw [insertBy]
    split
    · next hxy =>
      refine List.pairwise_cons.2 ⟨fun z hz => le_of_lt hxy ?_, h⟩
      rcases List.mem_cons.1 hz with rfl | hz
      · exact hi _
      · exact hy z hz
    · next hxy =>
      refine List.pairwise_cons.2 ⟨fun z hz => ?_, ih hl⟩
      rcases List.mem_cons.1 ((insertBy_perm lt x l).mem_iff.1 hz) with rfl | hz
      · exact Bool.not_eq_true _ ▸ hxy
      · exact hy z hz

theorem foldl_insertBy_perm {α : Type} (lt : α → α → Bool) (l acc : List α) :
    (l.foldl (fun acc x => insertBy lt x acc) acc).Perm (l ++ acc) := by
  induction l generalizing acc with
  | nil => exact .refl _
  | cons x l ih =>
    rw [List.foldl_cons]
    exact (ih _).trans (((insertBy_perm lt x acc).append_left l).trans List.perm_middle)

theorem sortBy_perm {α : Type} (lt : α → α → Bool) (l : List α) : (sortBy lt l).Perm l :=
  (foldl_insertBy_perm lt l []).trans (by rw [List.append_nil])

theorem sortBy_pairwise {α : Type} {lt : α → α → Bool} (hi : ∀ a, lt a a = false)
    (ht : ∀ a b c, lt a b = true → lt b c = true → lt a c = true) (l : List α) :
    (sortBy lt l).Pairwise fun a b => lt b a = false :=
  List.foldlRecOn (motive := fun acc : List α => acc.Pairwise fun a b => lt b a = false) l _ .nil fun _ h x _ => insertBy_pairwise hi ht x h

/-! ### The pairwise tree (R80) -/

theorem length_pairUp_le {α : Type} (op : α → α → α) (l : List α) : (pairUp op l).length ≤ l.length := by
  induction l using pairUp.induct with
  | case1 x y l ih =>
    rw [pairUp, List.length_cons, List.length_cons, List.length_cons]
    omega
  | case2 l h =>
    rw [pairUp]
    exact h

section
variable {α : Type} {op : α → α → α} (assoc : ∀ a b c, op (op a b) c = op a (op b c))
include assoc

/-- Pairing neighbours leaves the fold. -/
theorem foldl_pairUp (a : α) (l : List α) : (pairUp op l).foldl op a = l.foldl op a := by
  induction l using pairUp.induct generalizing a with
  | case1 x y l ih =>
    rw [pairUp, List.foldl_cons, List.foldl_cons, List.foldl_cons, ih, assoc]
  | case2 l h =>
    rw [pairUp]
    exact h

/-- With a level for each element the tree ends in the fold. -/
theorem treeFold_eq_foldl (f : Nat) (x : α) (l : List α) (h : l.length ≤ f) : treeFold op f (x :: l) = [l.foldl op x] := by
  induction f generalizing x l with
  | zero => rw [List.length_eq_zero_iff.1 (Nat.le_zero.1 h)]; rfl
  | succ f ih =>
    cases l with
    | nil => rfl
    | cons y l =>
      show treeFold op f (op x y :: pairUp op l) = _
      rw [ih _ _ ((length_pairUp_le op l).trans (Nat.le_of_succ_le_succ h)), foldl_pairUp assoc, List.foldl_cons]

theorem tree_eq_foldl (d x : α) (l : List α) : tree op d (x :: l) = l.foldl op x := by
  rw [tree, treeFold_eq_foldl assoc _ x l (by simp only [List.length_cons]; omega)]
  rfl

end

end Sys2Proof.Machine
end

section
/-!
SUPPORT. Several writes in turn, read back: elements of tiles (R55, R65, R243) and whole lists of them.
-/

namespace Sys2Proof.Machine

/-! ### Writes to places of their own -/

/-- Writing for a key k puts val k where loc k says, and disturbs no other place of dom. -/
structure Writes {M K E V : Type} (ok : M → Prop) (dom : E → Prop) (put : M → K → M) (get : M → E → V) (loc : K → E)
    (val : K → V) : Prop where
  keeps : ∀ {m k}, ok m → ok (put m k)
  same : ∀ {m k}, ok m → get (put m k) (loc k) = val k
  other : ∀ {m k e}, ok m → dom (loc k) → dom e → e ≠ loc k → get (put m k) e = get m e

namespace Writes

variable {M K E V : Type} {ok : M → Prop} {dom : E → Prop} {put : M → K → M} {get : M → E → V} {loc : K → E} {val : K → V}
  (w : Writes ok dom put get loc val) {m : M} {l : List K}
include w

theorem keeps_foldl (hm : ok m) : ok (l.foldl put m) :=
  List.foldlRecOn (motive := ok) l put hm fun _ h _ _ => w.keeps h

theorem get_of_notMem (hm : ok m) (hl : ∀ k ∈ l, dom (loc k)) {e : E} (he : dom e) (hn : ∀ k ∈ l, e ≠ loc k) :
    get (l.foldl put m) e = get m e := by
  induction l generalizing m with
  | nil => rfl
  | cons k l ih =>
    rw [List.forall_mem_cons] at hl hn
    rw [List.foldl_cons, ih (w.keeps hm) hl.2 hn.2, w.other hm hl.1 he hn.1]

theorem get_of_mem (hm : ok m) (hl : ∀ k ∈ l, dom (loc k)) (hd : l.Pairwise fun a b => loc a ≠ loc b) {k : K} (hk : k ∈ l) :
    get (l.foldl put m) (loc k) = val k := by
  induction l generalizing m with
  | nil => simp at hk
  | cons j l ih =>
    obtain ⟨hj, hd⟩ := List.pairwise_cons.1 hd
    have hl' := List.forall_mem_cons.1 hl
    rw [List.foldl_cons]
    rcases List.mem_cons.1 hk with rfl | hk
    · rw [w.get_of_notMem (w.keeps hm) hl'.2 hl'.1 hj, w.same hm]
    · exact ih (w.keeps hm) hl'.2 hd hk

end Writes

/-! ### Numbers in memory -/

theorem Mem.nat_congr {m m' : Mem} {a n : Nat} (h : ∀ c, a ≤ c → c < a + n → m.get c = m'.get c) : m.nat a n = m'.nat a n := by
  refine congrArg leNat ?_
  induction n generalizing a with
  | zero => rfl
  | succ n ih => rw [Mem.bytes, Mem.bytes, h a le_rfl (by omega), ih fun c h1 h2 => h c (by omega) (by omega)]

theorem Mem.nat_lt (m : Mem) (a n : Nat) : m.nat a n < 2 ^ (8 * n) :=
  (leNat_lt _).trans_eq (by rw [Mem.length_bytes])

/-! ### Elements of a tile -/

theorem bits_eq_elemBytes {ty : EType} (h : ty ≠ .e2m1) : ty.bits = 8 * elemBytes ty := by
  cases ty
  case e2m1 => exact absurd rfl h
  all_goals rfl

/-- The first byte of an element, and how many bytes writing it touches. -/
def Tile.byteOf (t : Tile) (e : Nat) : Nat := t.base + if t.ty = .e2m1 then e / 2 else e * elemBytes t.ty
def Tile.width (t : Tile) : Nat := if t.ty = .e2m1 then 1 else elemBytes t.ty

variable {t : Tile} {m m' : Mem} {e x : Nat}

/-- An element reads its own bytes only. -/
theorem Tile.get_congr (h : ∀ c, t.byteOf e ≤ c → c < t.byteOf e + t.width → m.get c = m'.get c) : t.get m e = t.get m' e := by
  unfold Tile.get
  unfold Tile.byteOf Tile.width at h
  split
  · next ht =>
    simp only [ht, if_true] at h
    rw [h _ le_rfl (Nat.lt_succ_self _)]
  · next ht =>
    simp only [ht, if_false] at h
    exact Mem.nat_congr h

/-- Writing an element is a store of its own bytes. -/
theorem Tile.put_eq_store (t : Tile) (m : Mem) (e x : Nat) : ∃ bs, bs.length = t.width ∧ t.put m e x = m.store (t.byteOf e) bs := by
  unfold Tile.put Tile.byteOf Tile.width
  split
  · exact ⟨[_], rfl, rfl⟩
  · exact ⟨_, length_natLe _ _, rfl⟩

theorem Tile.wf_put (w : m.wf = true) : (t.put m e x).wf = true := by
  obtain ⟨bs, -, h⟩ := t.put_eq_store m e x
  rw [h]
  exact Mem.wf_store _ _ w

theorem Tile.byte_put (w : m.wf = true) {c : Nat} (h : c < t.byteOf e ∨ t.byteOf e + t.width ≤ c) :
    (t.put m e x).get c = m.get c := by
  obtain ⟨bs, hb, hp⟩ := t.put_eq_store m e x
  rw [hp, Mem.get_store _ _ _ w, if_neg (by omega)]

/-- The low or the high half of a byte of two halves. -/
theorem bitsOf_nibble (b x e : Nat) : bitsOf ((if e % 2 = 0 then b / 16 * 16 + x % 16 else x % 16 * 16 + b % 16) % 2 ^ 8) (4 * (e % 2)) 4 =
    x % 16 := by
  unfold bitsOf
  rcases Nat.mod_two_eq_zero_or_one e with h | h
  · simp only [h, Nat.shiftRight_eq_div_pow, if_true]
    omega
  · simp only [h, Nat.shiftRight_eq_div_pow, one_ne_zero, if_false]
    omega

theorem bitsOf_other_nibble (b x : Nat) {e e' : Nat} (h : e % 2 ≠ e' % 2) :
    bitsOf ((if e % 2 = 0 then b / 16 * 16 + x % 16 else x % 16 * 16 + b % 16) % 2 ^ 8) (4 * (e' % 2)) 4 = bitsOf b (4 * (e' % 2)) 4 := by
  unfold bitsOf
  rcases Nat.mod_two_eq_zero_or_one e with h1 | h1
  · have h2 : e' % 2 = 1 := by omega
    simp only [h1, h2, Nat.shiftRight_eq_div_pow, if_true]
    omega
  · have h2 : e' % 2 = 0 := by omega
    simp only [h1, h2, Nat.shiftRight_eq_div_pow, one_ne_zero, if_false]
    omega

theorem Tile.get_put_same (w : m.wf = true) : t.get (t.put m e x) e = x % 2 ^ t.ty.bits := by
  unfold Tile.get Tile.put
  split
  · next ht =>
    rw [Mem.get_put_same _ w, BitVec.toNat_ofNat, bitsOf_nibble, ht]
    rfl
  · next ht => rw [Mem.nat_store _ _ _ w, bits_eq_elemBytes ht]

/-- Two elements share no byte, but for the halves of one. -/
theorem Tile.byteOf_apart {e' : Nat} (h : e ≠ e') (hb : t.ty = .e2m1 → e / 2 ≠ e' / 2) :
    t.byteOf e + t.width ≤ t.byteOf e' ∨ t.byteOf e' + t.width ≤ t.byteOf e := by
  unfold Tile.byteOf Tile.width
  split
  · next ht => have := hb ht; omega
  · rcases Nat.lt_or_gt_of_ne h with h | h
    · have := Nat.mul_le_mul_right (elemBytes t.ty) h
      rw [Nat.succ_mul] at this
      omega
    · have := Nat.mul_le_mul_right (elemBytes t.ty) h
      rw [Nat.succ_mul] at this
      omega

theorem Tile.get_put_ne {e' : Nat} (w : m.wf = true) (h : e' ≠ e) : t.get (t.put m e x) e' = t.get m e' := by
  by_cases hb : t.ty = .e2m1 → e / 2 ≠ e' / 2
  · have := Tile.byteOf_apart h.symm hb
    exact Tile.get_congr fun c h1 h2 => Tile.byte_put w (by omega)
  · obtain ⟨ht, hb⟩ := Classical.not_imp.1 hb
    rw [not_not] at hb
    unfold Tile.get Tile.put
    rw [if_pos ht, if_pos ht, if_pos ht, ← hb, Mem.get_put_same _ w, BitVec.toNat_ofNat,
      bitsOf_other_nibble _ _ (by omega)]

/-- The bytes of the first n elements. -/
theorem Tile.byteOf_bounds {n : Nat} (h : e < n) : t.base ≤ t.byteOf e ∧ t.byteOf e + t.width ≤ t.base + rowBytes t.ty n := by
  unfold Tile.byteOf Tile.width rowBytes
  refine ⟨by omega, ?_⟩
  split
  · next ht => rw [ht]; simp only [EType.bits]; omega
  · next ht =>
    have := Nat.mul_le_mul_right (elemBytes t.ty) h
    rw [Nat.succ_mul] at this
    rw [bits_eq_elemBytes ht, show n * (8 * elemBytes t.ty) = 8 * (n * elemBytes t.ty) by ring]
    omega

/-! ### Lists of elements -/

theorem Tile.writes (t : Tile) : Writes (fun m => m.wf = true) (fun _ => True) (fun m (v : Nat × Nat) => t.put m v.1 v.2) t.get
    Prod.fst (fun v => v.2 % 2 ^ t.ty.bits) where
  keeps := Tile.wf_put
  same := Tile.get_put_same
  other w _ _ h := Tile.get_put_ne w h

section
variable {vs : List (Nat × Nat)} (w : m.wf = true)
include w

theorem Tile.wf_putAll : (t.putAll m vs).wf = true := t.writes.keeps_foldl w

theorem Tile.get_putAll_of_mem (hd : vs.Pairwise fun a b => a.1 ≠ b.1) (h : (e, x) ∈ vs) :
    t.get (t.putAll m vs) e = x % 2 ^ t.ty.bits :=
  t.writes.get_of_mem w (fun _ _ => trivial) hd h

theorem Tile.get_putAll_of_notMem (h : ∀ x, (e, x) ∉ vs) : t.get (t.putAll m vs) e = t.get m e :=
  t.writes.get_of_notMem w (fun _ _ => trivial) trivial fun v hv he => h v.2 (he ▸ hv)

/-- A byte outside the elements written stays. -/
theorem Tile.byte_putAll {c : Nat} (h : ∀ v ∈ vs, c < t.byteOf v.1 ∨ t.byteOf v.1 + t.width ≤ c) : (t.putAll m vs).get c = m.get c :=
  (List.foldlRecOn (motive := fun m' : Mem => m'.wf = true ∧ m'.get c = m.get c) vs _ ⟨w, rfl⟩ fun _ hm v hv =>
    ⟨Tile.wf_put hm.1, (Tile.byte_put hm.1 (h v hv)).trans hm.2⟩).2

/-- A value for each element of a list. -/
theorem Tile.get_putAll_map {es : List Nat} (f : Nat → Nat) (hd : es.Nodup) (e : Nat) :
    t.get (t.putAll m (es.map fun e => (e, f e))) e = if e ∈ es then f e % 2 ^ t.ty.bits else t.get m e := by
  split
  · next he => exact Tile.get_putAll_of_mem w (List.pairwise_map.2 hd) (List.mem_map_of_mem he)
  · next he =>
    refine Tile.get_putAll_of_notMem w fun x hx => he ?_
    obtain ⟨e', he', heq⟩ := List.mem_map.1 hx
    exact (Prod.mk.inj heq).1 ▸ he'

/-- A byte outside the first n elements stays where only these are written. -/
theorem Tile.byte_putAll_map {es : List Nat} (f : Nat → Nat) {n c : Nat} (hn : ∀ e ∈ es, e < n)
    (hc : c < t.base ∨ t.base + rowBytes t.ty n ≤ c) : (t.putAll m (es.map fun e => (e, f e))).get c = m.get c := by
  refine Tile.byte_putAll w fun v hv => ?_
  obtain ⟨e, he, rfl⟩ := List.mem_map.1 hv
  obtain ⟨h1, h2⟩ := t.byteOf_bounds (hn e he)
  dsimp only
  omega

end

theorem State.putTiles_tile (s : State) (d : Tile) (vs : List (Nat × Nat)) :
    (s.putTiles [(d, vs)]).core.tile = d.putAll s.core.tile vs := rfl

/-- Settles O40: sorting, the tree, and the list of writes. -/
theorem vectorOrder : Obligations.VectorOrder := by
  unfold Obligations.VectorOrder
  refine ⟨fun ty desc l => ⟨sortBy_perm _ l, sortBy_pairwise (keyLt_irrefl ty desc) (fun _ _ _ => keyLt_trans) l, keyLt_desc ty, ?_⟩,
    fun op d x l assoc => ⟨tree_eq_foldl assoc d x l, rfl, fun _ _ _ _ => rfl⟩, fun s d vs w hd => ?_⟩
  · intro a b ha
    rw [← Bool.not_eq_true, keyLt_asc, ha]
    simp
  · dsimp only
    rw [State.putTiles_tile]
    exact ⟨Tile.wf_putAll w, fun e x => Tile.get_putAll_of_mem w hd, fun e => Tile.get_putAll_of_notMem w,
      fun a ha => Tile.byte_putAll w fun v _ => .inl (ha.trans_le (Nat.le_add_right ..)), rfl⟩

end Sys2Proof.Machine
end

section
/-!
SUPPORT. Vector instructions that execute (R241 to R246): what the check of the windows leaves of them, the element-wise form, the
special functions (R256) and the updates (R288 to R290).
-/

namespace Sys2Proof.Machine

/-! ### What an instruction reads as it issues -/

section
variable (s : State)

@[simp] theorem State.markIssued_shape (k : Fin 4) : s.markIssued.shape k = s.shape k := by
  simp [State.shape]

@[simp] theorem State.markIssued_mask (k : Fin 16) : s.markIssued.mask k = s.mask k := by
  simp [State.mask]

@[simp] theorem State.markIssued_wset (p : Shp) (k : Fin 16) : s.markIssued.wset p k = s.wset p k := by
  simp [State.wset, State.rowsPass, State.markIssued_cur]

@[simp] theorem State.markIssued_vmode (r : VRound) (e : Nat) : s.markIssued.vmode r e = s.vmode r e := by
  simp [State.vmode, State.markIssued_cur]

@[simp] theorem State.markIssued_elem (v : BitVec 10) (p : Shp) (e : Nat) : s.markIssued.elem v p e = s.elem v p e := by
  simp [State.elem]

end

/-- The write set names elements of the shape, each once (R243). -/
theorem State.wset_spec (s : State) (p : Shp) (k : Fin 16) : (s.wset p k).Nodup ∧ ∀ e ∈ s.wset p k, e < p.n :=
  ⟨List.nodup_range.filter _, fun _ he => List.mem_range.1 (List.mem_filter.1 he).1⟩

/-- With no checking mode no window is broken (R65). -/
theorem State.vecGo_unchecked {s : State} {rd : List (Tile × List Nat)} {ws : List (Tile × List (Nat × Nat))} {post : State → State}
    (h : s.core.chk = false) : s.vecGo rd ws post = .go (post (s.putTiles ws)) := by
  simp [State.vecGo, State.owned, Core.breach, h]

/-! ### Instructions under a shape -/

/-- The form of a vector instruction gives what it writes. -/
theorem vecGives_of {i : Instr} {g : Gate} {h : Hdr} {u : Use} {k : Fin 4} {ok : Shp → Bool}
    {outs : State → Shp → List (Tile × List (Nat × Nat))} {post : State → Shp → State → State}
    (rd : State → Shp → List (Tile × List Nat))
    (hi : ∀ s, exec i s = vecOp g h u k ok (fun t p => t.vecGo (rd t p) (outs t p) (post t p)) s) :
    vecGives i g h u k ok outs post := by
  refine ⟨traps_of hi fun t ht => ?_, fun p => gives_of hi fun t ⟨hs, hok, hc⟩ => ?_⟩
  · cases hs : t.shape k with
    | none => rfl
    | some p => simp only [ht p hs]; rfl
  · simp only [hs, hok, if_true]
    exact State.vecGo_unchecked hc

/-! ### Element-wise instructions (R247) -/

/-- Other contents of the tile registers. -/
def State.withTile (s : State) (m : Mem) : State := { s with core := { s.core with tile := m } }

@[simp] theorem State.withTile_cur (s : State) (m : Mem) : (s.withTile m).cur = s.cur := by
  unfold State.withTile State.cur Core.strm
  cases s.who <;> rfl

/-- What keeps the frame after a write of tile registers keeps it but for the tile registers. -/
theorem registerFrame_withTile {d : Dst} {ps : List (Fin 8)} {s t : State} {m : Mem} (h : registerFrame d ps (s.withTile m) t) :
    registerFrame d ps s (t.withTile s.core.tile) := by
  obtain ⟨⟨ho, ⟨hb, hk⟩, hc, hn, hp, hm, hq⟩, hbq⟩ := h
  simp only [sameControl, sameScalars, samePreds, State.withTile_cur] at hc hn hp hq
  refine ⟨⟨?_, ⟨?_, fun k hne => ?_⟩, ?_, ?_, ?_, hm, ?_⟩, hbq⟩
  · have := congrArg (fun u : State => ({ u with core := s.core } : State)) ho
    exact this
  · exact congrArg (fun c : Core => ({ c with tile := s.core.tile } : Core)) hb
  · cases k <;> exact hk _ hne
  · simpa only [sameControl, State.withTile_cur] using hc
  · simpa only [sameScalars, State.withTile_cur] using hn
  · simpa only [samePreds, State.withTile_cur] using hp
  · simpa only [State.withTile_cur] using hq

theorem registerFrame_tile {d : Dst} {ps : List (Fin 8)} {s t : State} (h : registerFrame d ps s t) : t.core.tile = s.core.tile := by
  obtain ⟨⟨-, ⟨hb, -⟩, -⟩, -⟩ := h
  have := congrArg Core.tile hb
  exact this

/-- The state in which an element-wise instruction leaves the tile registers before its stream goes on. -/
def State.elemsPut (s : State) (v : VCom) (vd : BitVec 10) (p : Shp) (f : State → Shp → Nat → Nat) : State :=
  s.markIssued.withTile ((tileAt vd p.n v.ty).putAll s.core.tile ((s.wset p v.mask).map fun e => (e, f s p e)))

section
variable {h : Hdr} {srcs : List Src} {v : VCom} {ok : EType → EType → Bool} {vd : BitVec 10}
  {ins : Shp → List (Tile × (Nat → Nat))} {f : State → Shp → Nat → Nat}

/-- The element-wise form executes where its operands pass. -/
theorem elemOp_executes {s : State} {p : Shp} (he : Executes (gateV [.c]) h (useS srcs) s) (hc : s.core.chk = false)
    (hs : s.shape v.shp = some p) (hok : ok p.ty v.ty = true) (hfit : (tileAt vd p.n v.ty).fits = true)
    (hins : ∀ a ∈ (ins p).map (·.1), Tile.fits a = true) (hf : ∀ s p e, f s.markIssued p e = f s p e) :
    elemOp h srcs v ok vd ins f s = .next ((s.elemsPut v vd p f).finish (useS srcs)) := by
  have hins' : (ins p).all (fun a => a.1.fits) = true := List.all_eq_true.2 fun a ha => hins a.1 (List.mem_map_of_mem ha)
  unfold elemOp vecOp
  refine issue_go he ?_
  simp only [State.markIssued_shape, hs, hok, hfit, hins', Bool.and_self, if_true]
  rw [State.vecGo_unchecked (by simpa using hc)]
  simp only [id, State.putTiles, List.foldl_cons, List.foldl_nil, State.markIssued_core_tile, State.markIssued_wset, hf]
  rfl

/-- What the element-wise form gives: in W each element takes its value, every other byte stays. -/
theorem elemGives_of {i : Instr} (hi : ∀ s, exec i s = elemOp h srcs v ok vd ins f s) (hf : ∀ s p e, f s.markIssued p e = f s p e) :
    elemGives i h srcs v ok vd (fun p => (ins p).map (·.1)) f := by
  intro s p he w hc hs hok hfit hins d
  obtain ⟨hnd, hlt⟩ := s.wset_spec p v.mask
  have hfr := (s.elemsPut v vd p f).finish_frame .discard [] (useS srcs)
  have htile := registerFrame_tile hfr
  refine ⟨_, (hi s).trans (elemOp_executes he hc hs hok hfit hins hf), ?_, fun e _ => ?_, fun a ha => ?_⟩
  · have := registerFrame_trans (s.markIssued_frame .discard []) (registerFrame_withTile hfr)
    rwa [State.markIssued_core_tile] at this
  · rw [htile]
    exact Tile.get_putAll_map w (f s p) hnd e
  · rw [htile]
    exact Tile.byte_putAll_map w (f s p) hlt ha

end

/-! ### Special functions (R256) -/

theorem sfuGives_of {i : Instr} {h : Hdr} {o : VUn} {f : FV → SF} (hi : ∀ s, exec i s = sfuOp h o f s) : sfuGives i h o f :=
  elemGives_of (ins := fun p => [(fullTile o.va p, fun e => e)]) hi fun s p e => by
    rw [State.markIssued_vmode, State.markIssued_elem]

/-! ### Updates (R288 to R290) -/

theorem updGives_of {i : Instr} {h : Hdr} {o : UOp} {ks : List Nat} {rd : Shp → List Tile} {mom : List (BitVec 10)}
    {f : State → Shp → Nat → Nat × List Nat} (hi : ∀ s, exec i s = updOp h o ks rd mom f s) : updGives i h o ks rd mom f := by
  refine vecGives_of (fun t p => (fullTile o.va p, t.wset p o.v.mask) :: (rd p).map fun a => (a, t.wset p o.v.mask)) fun s => ?_
  rw [hi]
  unfold updOp
  simp only [List.map_map, Bool.and_assoc]
  rfl

/-- Settles O42: each instruction by the operation that its family shares. -/
theorem updateResults : Obligations.UpdateResults := by
  unfold Obligations.UpdateResults
  refine ⟨⟨fun h o => sfuGives_of fun _ => rfl, fun h o => sfuGives_of fun _ => rfl, fun h o => sfuGives_of fun _ => rfl,
    fun h o => sfuGives_of fun _ => rfl, fun h o => sfuGives_of fun _ => rfl, fun h o => sfuGives_of fun _ => rfl,
    fun h o => sfuGives_of fun _ => rfl, fun h o => vecGives_of (fun t p => [(fullTile o.va p, t.wset p o.v.mask)]) fun _ => rfl⟩,
    fun h o => updGives_of fun _ => rfl, fun h o => updGives_of fun _ => rfl, fun h nes o => updGives_of fun _ => rfl,
    fun h o => updGives_of fun _ => rfl, fun h o => updGives_of fun _ => rfl, fun h o => updGives_of fun _ => rfl⟩

end Sys2Proof.Machine
end

section
/-!
SUPPORT. What matrix commands compute (R87 to R92, R273, R280 to R283, R327): writes of the entries of a region, products, transfers,
injection, the check of sums of lines.
-/

namespace Sys2Proof.Machine

/-! ### Accumulator entries -/

/-- An entry of an accumulator file. -/
def accOf (m : Mem) (e : Nat) : Nat := m.nat (4 * e) 4

theorem Core.accGet_eq (c : Core) (e : Nat) : c.accGet e = accOf c.accs32 e := rfl

theorem accOf_lt (m : Mem) (e : Nat) : accOf m e < 2 ^ 32 := m.nat_lt (4 * e) 4

section
variable {m : Mem} {e x : Nat} (w : m.wf = true)
include w

theorem wf_putAcc : (putAcc m e x).wf = true := Mem.wf_store _ _ w

theorem accOf_putAcc_same : accOf (putAcc m e x) e = x % 2 ^ 32 := Mem.nat_store _ _ _ w

theorem accOf_putAcc_ne {j : Nat} (h : j ≠ e) : accOf (putAcc m e x) j = accOf m j := by
  refine congrArg leNat (Mem.bytes_store_ne _ _ _ _ w ?_)
  rw [length_natLe]
  omega

end

/-! ### Regions (R268) -/

theorem Region.mem_cells {r : Region} {i n : Nat} : (i, n) ∈ r.cells ↔ i < r.m ∧ n < r.n := by
  show (i, n) ∈ List.range r.m ×ˢ List.range r.n ↔ _
  rw [List.mem_product, List.mem_range, List.mem_range]

theorem Region.cells_nodup (r : Region) : r.cells.Nodup := List.nodup_range.product List.nodup_range

/-- Rows do not meet: an entry has one place in its region. -/
theorem Region.entry_inj {r : Region} (hp : r.n ≤ r.pitch) {i j n k : Nat} (hn : n < r.n) (hk : k < r.n)
    (h : r.entry i n = r.entry j k) : i = j ∧ n = k := by
  unfold Region.entry at h
  have key : i = j := by
    rcases Nat.lt_trichotomy i j with hl | rfl | hl
    · have := Nat.mul_le_mul_right r.pitch hl
      rw [Nat.succ_mul] at this
      omega
    · rfl
    · have := Nat.mul_le_mul_right r.pitch hl
      rw [Nat.succ_mul] at this
      omega
  subst key
  exact ⟨rfl, by omega⟩

theorem regionOf_pitch {w : Word} {mma : Bool} {r : Region} (h : regionOf w mma = some r) : r.n ≤ r.pitch := by
  unfold regionOf at h
  simp only [Option.ite_none_right_eq_some, Bool.and_eq_true, decide_eq_true_eq, Option.some.injEq] at h
  obtain ⟨⟨⟨-, h⟩, -⟩, rfl⟩ := h
  exact h

/-- Every entry of a region written: f gives the value of row i, column n. -/
def putRegion (m : Mem) (r : Region) (f : Nat → Nat → Nat) : Mem := r.cells.foldl (fun m c => putAcc m (r.entry c.1 c.2) (f c.1 c.2)) m

theorem putRegion_writes (r : Region) (f : Nat → Nat → Nat) : Writes (fun m => m.wf = true) (fun _ => True)
    (fun m (c : Nat × Nat) => putAcc m (r.entry c.1 c.2) (f c.1 c.2)) accOf (fun c => r.entry c.1 c.2) (fun c => f c.1 c.2 % 2 ^ 32) where
  keeps := wf_putAcc
  same := accOf_putAcc_same
  other w _ _ h := accOf_putAcc_ne w h

section
variable {m : Mem} {r : Region} (f : Nat → Nat → Nat) (w : m.wf = true)
include w

theorem wf_putRegion : (putRegion m r f).wf = true := (putRegion_writes r f).keeps_foldl w

theorem accOf_putRegion_mem (hp : r.n ≤ r.pitch) {i n : Nat} (hi : i < r.m) (hn : n < r.n) :
    accOf (putRegion m r f) (r.entry i n) = f i n % 2 ^ 32 := by
  refine (putRegion_writes r f).get_of_mem (k := (i, n)) w (fun _ _ => trivial) ?_ (Region.mem_cells.2 ⟨hi, hn⟩)
  refine List.Pairwise.imp_of_mem (fun {a b} ha hb hab he => hab ?_) r.cells_nodup
  obtain ⟨h1, h2⟩ := Region.entry_inj hp (Region.mem_cells.1 ha).2 (Region.mem_cells.1 hb).2 he
  exact Prod.ext h1 h2

theorem accOf_putRegion_other {e : Nat} (h : ∀ i n, i < r.m → n < r.n → e ≠ r.entry i n) :
    accOf (putRegion m r f) e = accOf m e :=
  (putRegion_writes r f).get_of_notMem w (fun _ _ => trivial) trivial fun (i, n) hc =>
    h i n (Region.mem_cells.1 hc).1 (Region.mem_cells.1 hc).2

end

/-! ### K-groups (R87 to R89, R273) -/

theorem MCmd.product_pitch {m : MCmd} {o : Mma} (h : m.product = some o) : o.r.n ≤ o.r.pitch := by
  unfold MCmd.product at h
  split at h
  · split at h
    · simp at h
    · next r hr =>
      split at h
      · cases h
        exact regionOf_pitch hr
      · simp at h
  · simp at h

theorem addI32_eq (a : Nat) (v : Int) : addI32 a v = ((a + v) % 2 ^ 32).toNat := rfl

theorem addI32_lt (a : Nat) (v : Int) : addI32 a v < 2 ^ 32 := by
  rw [addI32_eq]
  omega

/-- A product changes accumulator entries and slots only. -/
theorem Core.runGroups_eq (c : Core) (o : Mma) (z : Bool) (ck : Option (Fin 8)) (kp kp' : Nat) :
    ∃ sl, c.runGroups o z ck kp kp' =
      { c with accs32 := (c.runGroups o z ck kp kp').accs32, mtx := { c.mtx with slots := sl } } := by
  unfold Core.runGroups
  split
  · exact ⟨c.mtx.slots, rfl⟩
  · cases ck with
    | none => exact ⟨c.mtx.slots, rfl⟩
    | some k => cases h : c.mtx.slot? k <;> exact ⟨_, by simp only [h]; rfl⟩

section
variable (c : Core) (o : Mma) (z : Bool) (ck : Option (Fin 8)) (kp kp' : Nat)

@[simp] theorem Core.runGroups_tile : (c.runGroups o z ck kp kp').tile = c.tile := by
  obtain ⟨sl, h⟩ := c.runGroups_eq o z ck kp kp'
  rw [h]

@[simp] theorem Core.runGroups_wb : (c.runGroups o z ck kp kp').wb = c.wb := by
  obtain ⟨sl, h⟩ := c.runGroups_eq o z ck kp kp'
  rw [h]

@[simp] theorem Core.runGroups_accinj : (c.runGroups o z ck kp kp').accinj = c.accinj := by
  obtain ⟨sl, h⟩ := c.runGroups_eq o z ck kp kp'
  rw [h]

@[simp] theorem Core.runGroups_mtx_q : (c.runGroups o z ck kp kp').mtx.q = c.mtx.q := by
  obtain ⟨sl, h⟩ := c.runGroups_eq o z ck kp kp'
  rw [h]

@[simp] theorem Core.runGroups_mtx_cmpl : (c.runGroups o z ck kp kp').mtx.cmpl = c.mtx.cmpl := by
  obtain ⟨sl, h⟩ := c.runGroups_eq o z ck kp kp'
  rw [h]

end

/-- What a product leaves in its entries. -/
theorem Core.runGroups_accs32 (c : Core) (o : Mma) (z : Bool) (ck : Option (Fin 8)) {kp kp' : Nat} (h : kp < kp') :
    (c.runGroups o z ck kp kp').accs32 = putRegion c.accs32 o.r fun i n =>
      ((List.range (kp' - kp)).map (kp + ·)).foldl (c.accStep o i n) (if z = true ∧ kp = 0 then 0 else c.accGet (o.r.entry i n)) := by
  unfold Core.runGroups putRegion
  rw [if_neg (by omega)]
  simp only [List.foldl_map, Bool.and_eq_true, decide_eq_true_eq]

theorem Core.runGroups_none (c : Core) (o : Mma) (z : Bool) (ck : Option (Fin 8)) {kp kp' : Nat} (h : kp' ≤ kp) :
    c.runGroups o z ck kp kp' = c := if_pos h

/-! ### Injection (R327) -/

/-- The entry and the bit that ACCINJ names. -/
theorem bitsOf_toNat {n : Nat} (x : BitVec n) (lo w : Nat) : bitsOf x.toNat lo w = (x.extractLsb' lo w).toNat := by
  rw [BitVec.extractLsb'_toNat]
  rfl

/-- An entry under the injection that a value of ACCINJ arms. -/
def injected (a : BitVec 25) (e x : Nat) : Nat :=
  if a.getLsbD 24 = true ∧ e = (a.extractLsb' 0 19).toNat then x ^^^ 2 ^ (a.extractLsb' 19 5).toNat else x

section
variable (c : Core)

@[simp] theorem Core.inject_tile : c.inject.tile = c.tile := by unfold Core.inject; split <;> rfl
@[simp] theorem Core.inject_wb : c.inject.wb = c.wb := by unfold Core.inject; split <;> rfl
@[simp] theorem Core.inject_mtx : c.inject.mtx = c.mtx := by unfold Core.inject; split <;> rfl
@[simp] theorem Core.inject_accinj :
    c.inject.accinj = if c.accinj.getLsbD 24 then c.accinj &&& 0xFFFFFF else c.accinj := by unfold Core.inject; split <;> rfl

end

theorem Core.inject_accGet {c : Core} (w : c.accs32.wf = true) (e : Nat) : c.inject.accGet e = injected c.accinj e (c.accGet e) := by
  unfold Core.inject injected
  cases ha : c.accinj.getLsbD 24 with
  | false => simp
  | true =>
    simp only [if_true, true_and, bitsOf_toNat]
    rw [Core.accGet_eq]
    split
    · next h =>
      subst h
      refine (accOf_putAcc_same w).trans (Nat.mod_eq_of_lt ?_)
      exact Nat.xor_lt_two_pow (accOf_lt _ _) (Nat.pow_lt_pow_right (by omega) (BitVec.isLt _))
    · next h => exact accOf_putAcc_ne w h

/-! ### Products complete -/

theorem endMtx_product {s : State} {m : MCmd} {o : Mma} {z : Bool} {ck : Option (Fin 8)} (hm : m.op = .mma z ck)
    (ho : m.product = some o) (hg : s.core.badGroup o m.kp = none) :
    s.endMtx m = (s.setCore (s.core.runGroups o z ck m.kp o.kg)).finishMtx m := by
  unfold State.endMtx
  simp only [hm, ho, hg]

/-- A product completes without a signal. -/
theorem State.finishMtx_product {s : State} {m : MCmd} {o : Mma} (ho : m.product = some o) (he : m.e.sinc = 0) :
    s.finishMtx m = s.setCore (s.core.inject.popMtx m) := by
  unfold State.finishMtx State.signal
  simp only [he, ho, Option.isSome_some, if_true]

section
variable (c : Core) (m : MCmd)

@[simp] theorem Core.popMtx_accs32 : (c.popMtx m).accs32 = c.accs32 := by simp [Core.popMtx]
@[simp] theorem Core.popMtx_tile : (c.popMtx m).tile = c.tile := by simp [Core.popMtx]
@[simp] theorem Core.popMtx_wb : (c.popMtx m).wb = c.wb := by simp [Core.popMtx]
@[simp] theorem Core.popMtx_accinj : (c.popMtx m).accinj = c.accinj := by simp [Core.popMtx]
@[simp] theorem Core.popMtx_q : (c.popMtx m).mtx.q = c.mtx.q.tail := by simp [Core.popMtx]
@[simp] theorem Core.popMtx_cmpl : (c.popMtx m).mtx.cmpl = c.mtx.cmpl + 1 := by simp [Core.popMtx]

end

/-- A product that can be performed to its end: its K-groups, the injection, its place in the queue (R273, R327). -/
theorem mtxEnd_product {s : State} {m : MCmd} {o : Mma} {z : Bool} {ck : Option (Fin 8)} (hr : s.core.mtx.running = some m)
    (hm : m.op = .mma z ck) (ho : m.product = some o) (hg : s.core.badGroup o m.kp = none) (he : m.e.sinc = 0) :
    exec .matrixCommandComplete s = .next (s.setCore ((s.core.runGroups o z ck m.kp o.kg).inject.popMtx m)) := by
  rw [mtxEnd_ends hr, endMtx_product hm ho hg, State.finishMtx_product ho he]
  rfl

section
variable {c : Core} {o : Mma} (z : Bool) (ck : Option (Fin 8)) {kp : Nat} (m : MCmd) (w : c.accs32.wf = true)
include w

theorem Core.runGroups_wf (kp' : Nat) : (c.runGroups o z ck kp kp').accs32.wf = true := by
  rcases Nat.lt_or_ge kp kp' with hl | hl
  · rw [c.runGroups_accs32 o z ck hl]
    exact wf_putRegion _ w
  · rwa [c.runGroups_none o z ck hl]

theorem Core.product_accGet (e : Nat) : ((c.runGroups o z ck kp o.kg).inject.popMtx m).accGet e =
    injected c.accinj e ((c.runGroups o z ck kp o.kg).accGet e) := by
  rw [Core.accGet_eq, Core.popMtx_accs32, ← Core.accGet_eq, Core.inject_accGet (Core.runGroups_wf z ck w o.kg), Core.runGroups_accinj]

/-- An entry of the product's region: its K-groups added in order. -/
theorem Core.product_entry (hp : o.r.n ≤ o.r.pitch) {i n : Nat} (hi : i < o.r.m) (hn : n < o.r.n) (hk : kp < o.kg) :
    ((c.runGroups o z ck kp o.kg).inject.popMtx m).accGet (o.r.entry i n) = injected c.accinj (o.r.entry i n)
      (((List.range (o.kg - kp)).map (kp + ·)).foldl (c.accStep o i n)
        (if z = true ∧ kp = 0 then 0 else c.accGet (o.r.entry i n)) % 2 ^ 32) := by
  rw [Core.product_accGet z ck m w, Core.accGet_eq, c.runGroups_accs32 o z ck hk, accOf_putRegion_mem _ w hp hi hn]

/-- Every other entry. -/
theorem Core.product_other {e : Nat} (he : ∀ i n, i < o.r.m → n < o.r.n → e ≠ o.r.entry i n) :
    ((c.runGroups o z ck kp o.kg).inject.popMtx m).accGet e = injected c.accinj e (c.accGet e) := by
  rw [Core.product_accGet z ck m w]
  rcases Nat.lt_or_ge kp o.kg with hl | hl
  · rw [Core.accGet_eq, c.runGroups_accs32 o z ck hl, accOf_putRegion_other _ w he, ← Core.accGet_eq]
  · rw [c.runGroups_none o z ck hl]

end

/-! ### Transfers (R280 to R283) -/

theorem xWordOf_pitch {w : Word} {r : Region} {drain : Bool} {x : XWord} (h : xWordOf w r drain = some x) :
    rowBytes x.ty r.n ≤ x.pitch := by
  unfold xWordOf at h
  dsimp only at h
  split at h
  · simp at h
  · simp only [Option.ite_none_right_eq_some, Bool.and_eq_true, decide_eq_true_eq, Option.some.injEq] at h
    obtain ⟨⟨⟨-, h⟩, -⟩, rfl⟩ := h
    exact h

/-- The elements of a row lie within its pitch. -/
theorem XWord.row_bounds {r : Region} {x : XWord} (hp : rowBytes x.ty r.n ≤ x.pitch) (i : Nat) {n : Nat} (hn : n < r.n) :
    x.byte + i * x.pitch ≤ (x.row i).byteOf n ∧ (x.row i).byteOf n + (x.row i).width ≤ x.byte + (i + 1) * x.pitch := by
  obtain ⟨h1, h2⟩ := (x.row i).byteOf_bounds hn
  refine ⟨h1, h2.trans ?_⟩
  rw [Nat.succ_mul, ← Nat.add_assoc]
  exact Nat.add_le_add_left hp _

/-- A drain writes the elements of its rows, each to bytes of its row. -/
theorem XWord.row_writes {r : Region} {x : XWord} (hp : rowBytes x.ty r.n ≤ x.pitch) (f : Nat → Nat → Nat) :
    Writes (fun m => m.wf = true) (fun c : Nat × Nat => c.2 < r.n) (fun m (c : Nat × Nat) => (x.row c.1).put m c.2 (f c.1 c.2))
      (fun m c => (x.row c.1).get m c.2) id (fun c => f c.1 c.2 % 2 ^ x.ty.bits) where
  keeps := Tile.wf_put
  same := Tile.get_put_same
  other {m k e} w hk he hne := by
    by_cases h : e.1 = k.1
    · rw [h]
      exact Tile.get_put_ne w fun h2 => hne (Prod.ext h h2)
    · obtain ⟨k1, k2⟩ := XWord.row_bounds hp k.1 hk
      obtain ⟨e1, e2⟩ := XWord.row_bounds hp e.1 he
      refine Tile.get_congr fun a h1 h2 => Tile.byte_put w ?_
      dsimp only [id] at k1 k2
      rcases Nat.lt_or_gt_of_ne h with h | h
      · have : (e.1 + 1) * x.pitch ≤ k.1 * x.pitch := Nat.mul_le_mul_right _ h
        omega
      · have : (k.1 + 1) * x.pitch ≤ e.1 * x.pitch := Nat.mul_le_mul_right _ h
        omega

section
variable {c : Core} {d : Vector Word 4} {r : Region} (hr : regionOf d[0] false = some r)
include hr

theorem performMtx_azero (w : c.accs32.wf = true) : ∃ b, c.performMtx .azero d = .ok b ∧ b.tile = c.tile ∧
    (∀ i n, i < r.m → n < r.n → b.accGet (r.entry i n) = 0) ∧
    ∀ e, (∀ i n, i < r.m → n < r.n → e ≠ r.entry i n) → b.accGet e = c.accGet e := by
  refine ⟨{ c with accs32 := putRegion c.accs32 r fun _ _ => 0 }, ?_, rfl, fun i n hi hn => ?_, fun e he => ?_⟩
  · unfold Core.performMtx
    simp only [hr]
    rfl
  · rw [Core.accGet_eq, accOf_putRegion_mem _ w (regionOf_pitch hr) hi hn, Nat.zero_mod]
  · rw [Core.accGet_eq, accOf_putRegion_other _ w he, Core.accGet_eq]

variable {x : XWord} {sc : Option (BitVec 32)} (hs : scaleOf d[2] = some sc)
include hs

theorem performMtx_load (w : c.accs32.wf = true) (hx : xWordOf d[1] r false = some x) (add : Bool) :
    ∃ b, c.performMtx (if add then .aacc else .aload) d = .ok b ∧ b.tile = c.tile ∧
      (∀ i n, i < r.m → n < r.n → b.accGet (r.entry i n) =
        loadEntry r x sc add (c.accGet (r.entry i n)) ((x.row i).get c.tile n) % 2 ^ 32) ∧
      ∀ e, (∀ i n, i < r.m → n < r.n → e ≠ r.entry i n) → b.accGet e = c.accGet e := by
  have hacc : (c.loadAcc r x sc add).accs32 = putRegion c.accs32 r fun i n =>
      loadEntry r x sc add (c.accGet (r.entry i n)) ((x.row i).get c.tile n) := rfl
  refine ⟨c.loadAcc r x sc add, ?_, rfl, fun i n hi hn => ?_, fun e he => ?_⟩
  · unfold Core.performMtx
    cases add <;> simp [hr, hx, hs]
  · rw [Core.accGet_eq, hacc, accOf_putRegion_mem _ w (regionOf_pitch hr) hi hn]
  · rw [Core.accGet_eq, hacc, accOf_putRegion_other _ w he, Core.accGet_eq]

theorem performMtx_drain (w : c.accs32.wf = true) (hx : xWordOf d[1] r true = some x) (wt : c.tile.wf = true) :
    ∃ b, c.performMtx (.adrain none) d = .ok b ∧
      (∀ i n, i < r.m → n < r.n → (x.row i).get b.tile n = drainElem r x sc (c.accGet (r.entry i n)) % 2 ^ x.ty.bits) ∧
      (∀ i n, i < r.m → n < r.n → b.accGet (r.entry i n) = if x.clr then 0 else c.accGet (r.entry i n)) ∧
      ∀ e, (∀ i n, i < r.m → n < r.n → e ≠ r.entry i n) → b.accGet e = c.accGet e := by
  have hw := XWord.row_writes (xWordOf_pitch hx) fun i n => drainElem r x sc (c.accGet (r.entry i n))
  have hacc : (c.drain r x sc).accs32 = if x.clr then putRegion c.accs32 r fun _ _ => 0 else c.accs32 := rfl
  refine ⟨c.drain r x sc, ?_, fun i n hi hn => ?_, fun i n hi hn => ?_, fun e he => ?_⟩
  · unfold Core.performMtx
    simp [hr, hx, hs]
  · exact hw.get_of_mem (k := (i, n)) wt (fun _ hc => (Region.mem_cells.1 hc).2) r.cells_nodup (Region.mem_cells.2 ⟨hi, hn⟩)
  · rw [Core.accGet_eq, hacc]
    split
    · exact accOf_putRegion_mem _ w (regionOf_pitch hr) hi hn
    · rfl
  · rw [Core.accGet_eq, hacc]
    split
    · exact accOf_putRegion_other _ w he
    · rfl

theorem performMtx_abft {j : Fin 8} {k : CkSlot} (hx : xWordOf d[1] r true = some x) (hj : c.mtx.slot? j = some k)
    (hb : c.abftCheck r k = none) : c.performMtx (.adrain (some j)) d = .error .abft := by
  unfold Core.performMtx
  simp [hr, hx, hs, hj, hb]

end

/-! ### Checks of sums (R91, R92) -/

section
variable {c : Core} {r : Region} {k : CkSlot}

/-- The columns and the rows that do not match. -/
def Core.badCols (c : Core) (r : Region) (k : CkSlot) : List Nat :=
  badLines r.int c.abftTol.toNat (c.lineSums r fun x => x).1 k.csCol k.abCol
def Core.badRows (c : Core) (r : Region) (k : CkSlot) : List Nat :=
  badLines r.int c.abftTol.toNat (c.lineSums r fun x => x).2 k.csRow k.abRow

theorem abftCheck_match (hc : c.badCols r k = []) (hr : c.badRows r k = []) : c.abftCheck r k = some c := by
  unfold Core.badCols at hc
  unfold Core.badRows at hr
  simp only [Core.abftCheck, hc, hr]

/-- One column and one row off: the entry where they cross takes what the column lacks, and the correction counts. -/
theorem abftCheck_corrects {n i : Nat} (hc : c.badCols r k = [n]) (hr : c.badRows r k = [i]) (w : c.accs32.wf = true) :
    ∃ b, c.abftCheck r k = some b ∧ b.tile = c.tile ∧
      b.abftCnt = (if c.abftCnt = BitVec.allOnes 32 then c.abftCnt else c.abftCnt + 1) ∧
      (r.int = true → b.accGet (r.entry i n) =
        ((c.accGet (r.entry i n) + (((k.csCol.getD n 0).toNat : Int) - (c.lineSums r fun x => x).1.getD n 0)) % 2 ^ 32).toNat) ∧
      ∀ e, e ≠ r.entry i n → b.accGet e = c.accGet e := by
  unfold Core.badCols at hc
  unfold Core.badRows at hr
  simp only [Core.abftCheck, hc, hr]
  refine ⟨_, rfl, rfl, rfl, fun hi => ?_, fun e he => accOf_putAcc_ne w he⟩
  simp only [hi, if_true]
  exact (accOf_putAcc_same w).trans (Nat.mod_eq_of_lt (addI32_lt _ _))

/-- Any other pattern of lines off. -/
theorem abftCheck_fails (h0 : ¬(c.badCols r k = [] ∧ c.badRows r k = [])) (h1 : ¬∃ n i, c.badCols r k = [n] ∧ c.badRows r k = [i]) :
    c.abftCheck r k = none := by
  unfold Core.badCols Core.badRows at h0 h1
  unfold Core.abftCheck
  dsimp only
  split
  · next hc hr => exact absurd ⟨hc, hr⟩ h0
  · next n i hc hr => exact absurd ⟨n, i, hc, hr⟩ h1
  · rfl

end

/-- Settles O45: products, transfers, steps of a K-group, and checks of sums. -/
theorem matrixProduct : Obligations.MatrixProduct := by
  unfold Obligations.MatrixProduct
  refine ⟨⟨fun s m o z ck hr hm ho hg he w _ => ⟨_, mtxEnd_product hr hm ho hg he, by simp, by simp, rfl, by simp, by simp,
      fun i n => Core.product_entry z ck m w (MCmd.product_pitch ho), fun e => Core.product_other z ck m w, by simp⟩, fun c d r hr w => ⟨performMtx_azero hr w,
      fun x sc hs => ⟨fun hx add => performMtx_load hr hs w hx add, fun hx wt => performMtx_drain hr hs w hx wt⟩⟩,
      fun c o i n a g hi => if_pos hi, fun c o i n a g hi => if_neg (by simp [hi])⟩,
    fun c r k => ⟨abftCheck_match, fun n i hc hr w => abftCheck_corrects hc hr w, fun h => abftCheck_fails h.1 h.2,
      fun d x sc j hr hx hs hj hb => performMtx_abft hr hs hx hj hb⟩⟩

end Sys2Proof.Machine
end
section
/-!
SUPPORT. The canonical form of memory through a step (R95, R141): what it asks of each kind of outcome, and what
keeps it in general.
-/

namespace Sys2Proof.Machine

-- Many short proofs in a row: each is elaborated before the next, so that none waits for another in a thread of its own.
set_option Elab.async false

variable {s t u : State}

/-! ### What the form asks of an outcome -/

/-- The state that an instruction, an event or a turn comes to. -/
def outWf : Host.Outcome State Fault Refusal → Prop
  | .next t => t.memWf
  | _ => True

/-- The state that an effect hands on. -/
def Done.wf : Done → Prop
  | .go t | .stay t | .wait t | .trap t _ => t.memWf
  | .hold _ | .stop _ => True

def Xfer.wf : Xfer → Prop
  | .to t | .illegal t | .fail t _ => t.memWf

def AtHeader.wf : AtHeader → Prop
  | .began t | .gated t | .illegal t | .fail t _ => t.memWf

def TurnOut.wf : TurnOut → Prop
  | .run t _ | .done t => t.memWf
  | .stop _ => True

/-- The state that a step which cannot end leaves, where its failure carries one. -/
def EndBad.wf : EndBad → Prop
  | .bad t _ | .wait t => t.memWf
  | .bill _ | .pois _ _ => True

/-! ### The form is one of the bytes alone -/

theorem memWf_of_mem (hs : s.memWf) (e : t.mem = s.mem) : t.memWf := by
  unfold State.memWf
  rw [e]
  exact hs

theorem memWf_commits (hs : s.memWf) (l : List (Nat × RelWord)) : ({ s with commits := l } : State).memWf := hs
theorem memWf_holders (hs : s.memWf) (l : List (Nat × Nat)) : ({ s with holders := l } : State).memWf := hs
theorem memWf_conts (hs : s.memWf) (l : List Cont) : ({ s with conts := l } : State).memWf := hs
theorem memWf_who (hs : s.memWf) (k : Strm) : ({ s with who := k } : State).memWf := hs

theorem ite_memWf {c : Prop} [Decidable c] (ht : t.memWf) (hu : u.memWf) : (if c then t else u).memWf := by
  split <;> assumption

theorem foldl_memWf {α : Type} (f : State → α → State) (l : List α) (s : State) (hs : s.memWf)
    (hf : ∀ t x, t.memWf → (f t x).memWf) : (l.foldl f s).memWf :=
  foldl_keeps State.memWf f l s hs hf

/-- A fold that carries a result beside the state. -/
theorem foldl_fst_memWf {α β : Type} (f : State × β → α → State × β) (l : List α) (p : State × β) (hp : p.1.memWf)
    (hf : ∀ p x, p.1.memWf → (f p x).1.memWf) : (l.foldl f p).1.memWf :=
  foldl_keeps (fun q : State × β => q.1.memWf) f l p hp hf

end Sys2Proof.Machine
end

section
/-!
SUPPORT. The memory system keeps the canonical form: registers, translation, leases, homes, logs, jobs and what is performed. Each
function keeps it because those that it calls do.
-/

namespace Sys2Proof.Machine

-- Many short proofs in a row: each is elaborated before the next, so that none waits for another in a thread of its own.
set_option Elab.async false

variable {s t u : State}

/-! ### Registers and queues -/

theorem State.setCur_memWf (hs : s.memWf) (x : Stream) : (s.setCur x).memWf := hs
theorem State.mapCur_memWf (hs : s.memWf) (f : Stream → Stream) : (s.mapCur f).memWf := hs
theorem State.setCore_memWf (hs : s.memWf) (c : Core) : (s.setCore c).memWf := hs
theorem State.putCore_memWf (hs : s.memWf) (n : Nat) (c : Core) : (s.putCore n c).memWf := memWf_of_mem hs (State.putCore_mem ..)
theorem State.focus_memWf (hs : s.memWf) (n : Nat) : (s.focus n).memWf := memWf_of_mem hs (State.focus_mem ..)
theorem State.mapCores_memWf (hs : s.memWf) (f : Core → Core) : (s.mapCores f).memWf := hs
theorem State.setDie_memWf (hs : s.memWf) (d : Nat) (x : Die) : (s.setDie d x).memWf := hs
theorem State.fresh_memWf (hs : s.memWf) : (s.fresh).2.memWf := hs
theorem State.putN_memWf (hs : s.memWf) (k : Fin 16) (v : Word) : (s.putN k v).memWf := hs
theorem State.putPred_memWf (hs : s.memWf) (k : Fin 8) (b : Bool) : (s.putPred k b).memWf := hs

theorem State.popSrc_memWf (hs : s.memWf) (b : Src) : (s.popSrc b).memWf := by
  unfold State.popSrc
  grind [State.memWf]

theorem State.putDst_memWf (hs : s.memWf) (d : Dst) (v : Word) : (s.putDst d v).memWf := by
  unfold State.putDst
  grind [State.setCur_memWf, State.putN_memWf, State.memWf]

theorem State.reserveDst_memWf (hs : s.memWf) (d : Dst) : (s.reserveDst d).2.memWf := by
  unfold State.reserveDst
  grind [State.setCur_memWf, State.memWf]

/-! ### Spare rows -/

theorem State.setRemap_memWf (hs : s.memWf) (stack idx : Nat) (w : BitVec 31) : (s.setRemap stack idx w).memWf := hs
theorem State.markSpare_memWf (hs : s.memWf) (stack bank k : Nat) : (s.markSpare stack bank k).memWf := hs

theorem State.beginSparing_memWf (hs : s.memWf) (stack bank row : Nat) : (s.beginSparing stack bank row).memWf :=
  memWf_of_mem hs (State.beginSparing_mem ..)

/-! ### Host copies, page tables, capabilities -/

theorem State.eventDcc_memWf (hs : s.memWf) (die bit : Nat) : (s.eventDcc die bit).memWf := memWf_of_mem hs (State.eventDcc_mem ..)
theorem State.eventAll_memWf (hs : s.memWf) (bit : Nat) : (s.eventAll bit).memWf := memWf_of_mem hs (State.eventAll_mem ..)

theorem State.ashWrite_memWf (hs : s.memWf) (ring : Nat) (rec_ : List Byte) : (s.ashWrite ring rec_).memWf :=
  memWf_of_mem hs (State.ashWrite_mem ..)

theorem State.ashNote_memWf (hs : s.memWf) (ring src code unit ten reg addr : Nat) (detail : List Byte) :
    (s.ashNote ring src code unit ten reg addr detail).memWf :=
  State.ashWrite_memWf hs ..

theorem State.ashFreeze_memWf (hs : s.memWf) (ring : Nat) : (s.ashFreeze ring).memWf := hs
theorem State.poisonLine_memWf (hs : s.memWf) (line : Nat) : (s.poisonLine line).memWf := memWf_of_mem hs (State.poisonLine_mem ..)
theorem State.foundBad_memWf (hs : s.memWf) (line : Nat) : (s.foundBad line).memWf := memWf_of_mem hs (State.foundBad_mem ..)
theorem State.detect_memWf (hs : s.memWf) (a n : Nat) : (s.detect a n).memWf := memWf_of_mem hs (State.detect_mem ..)

theorem State.walkFrom_memWf (hs : s.memWf) (va table : Nat) (l : List Nat) : (s.walkFrom va table l).1.memWf := by
  induction l generalizing s va table with
  | nil =>
    unfold State.walkFrom
    grind
  | cons x l ih =>
    unfold State.walkFrom
    grind [State.ashNote_memWf, State.touch_memWf]

theorem State.walk_memWf (hs : s.memWf) (ten va : Nat) : (s.walk ten va).1.memWf := by
  unfold State.walk
  grind [State.touch_memWf, !State.walkFrom_memWf]

theorem State.unenter_memWf (hs : s.memWf) (ten va : Nat) : (s.unenter ten va).memWf := hs

theorem State.translate_memWf (hs : s.memWf) (ten va : Nat) : (s.translate ten va).1.memWf := by
  unfold State.translate
  have h := State.walk_memWf hs ten va
  dsimp only
  split
  · exact hs
  · split
    · exact hs
    · split
      · next e => rw [e] at h; exact State.unenter_memWf h ..
      · next e => rw [e] at h; split <;> exact h

theorem State.objEntry_memWf (hs : s.memWf) (ten obj : Nat) : (s.objEntry ten obj).1.memWf := by
  unfold State.objEntry
  grind [State.touch_memWf, State.memWf]

theorem State.window_memWf (hs : s.memWf) (c : Option Cap) : (s.window c).1.memWf := by
  unfold State.window
  grind [!State.objEntry_memWf]

theorem State.parts_memWf (hs : s.memWf) (ten : Nat) (va : Nat) (n : Nat) (m : Nat) : (s.parts ten va n m).1.memWf := by
  induction n generalizing s ten va m with
  | zero =>
    unfold State.parts
    grind
  | succ f ih =>
    unfold State.parts
    grind [!State.translate_memWf]

theorem State.range_memWf (hs : s.memWf) (ten va n : Nat) (need : Need) : (s.range ten va n need).1.memWf := by
  unfold State.range
  grind [State.unenter_memWf, !State.parts_memWf]

theorem State.access_memWf (hs : s.memWf) (ten : Nat) (c : Option Cap) (ea : Int) (n align : Nat) (perms : List Nat) (need : Need) :
    (s.access ten c ea n align perms need).1.memWf := by
  unfold State.access
  grind [!State.window_memWf, !State.range_memWf]

/-! ### Regions and budgets -/

theorem State.touchBlock_memWf (hs : s.memWf) (r : Nat) : (s.touchBlock r).memWf := by
  unfold State.touchBlock
  grind [State.touch_memWf]

theorem State.touchPath_memWf (hs : s.memWf) (r : Nat) : (s.touchPath r).memWf := by
  unfold State.touchPath
  grind [State.touchBlock_memWf, foldl_memWf]

theorem State.setFence_memWf (hs : s.memWf) (fdom : Nat) : (s.setFence fdom).memWf := by
  unfold State.setFence
  grind [State.touch_memWf, State.devStore_memWf]

theorem State.setUsage_memWf (hs : s.memWf) (r : Nat) (b : Budget) (v : Nat) : (s.setUsage r b v).memWf := by
  unfold State.setUsage
  grind [State.setRcb_memWf]

theorem State.charge_memWf (hs : s.memWf) (r : Nat) (b : Budget) (n : Nat) : (s.charge r b n).memWf := by
  unfold State.charge
  grind [State.setUsage_memWf, foldl_memWf]

theorem State.uncharge_memWf (hs : s.memWf) (r : Nat) (b : Budget) (n : Nat) : (s.uncharge r b n).memWf := by
  unfold State.uncharge
  grind [State.setUsage_memWf, foldl_memWf]

theorem State.devParts_memWf (hs : s.memWf) (ten : Nat) (va : Nat) (n : Nat) (m : Nat) : (s.devParts ten va n m).1.memWf := by
  induction n generalizing s ten va m with
  | zero =>
    unfold State.devParts
    grind
  | succ f ih =>
    unfold State.devParts
    grind [!State.walk_memWf]

theorem State.devRange_memWf (hs : s.memWf) (ten va n : Nat) (need : Need) : (s.devRange ten va n need).1.memWf := by
  unfold State.devRange
  grind [!State.devParts_memWf]

/-! ### Leases, transactions, homes -/

theorem State.loseLease_memWf (hs : s.memWf) (page : Nat) : (s.loseLease page).memWf := hs
theorem State.discardPending_memWf (hs : s.memWf) (page : Nat) : (s.discardPending page).memWf := hs
theorem State.yieldLease_memWf (hs : s.memWf) (page : Nat) : (s.yieldLease page).memWf := hs

theorem State.recallPage_memWf (hs : s.memWf) (page : Nat) (own : Bool) : (s.recallPage page own).1.memWf :=
  memWf_of_mem hs (State.recallPage_mem ..)

theorem State.recallPages_memWf (hs : s.memWf) (pages : List Nat) (own : Bool) : (s.recallPages pages own).1.memWf :=
  memWf_of_mem hs (State.recallPages_mem ..)

theorem State.recallFor_memWf (hs : s.memWf) (a n : Nat) : (s.recallFor a n).memWf := memWf_of_mem hs (State.recallFor_mem ..)

theorem State.toPort_memWf (hs : s.memWf) (node : Nat) (bytes : List Byte) : (s.toPort node bytes).memWf :=
  memWf_of_mem hs (State.toPort_mem ..)

theorem State.sendAt_memWf (hs : s.memWf) (op a : Nat) (body : List Byte) : (s.sendAt op a body).memWf :=
  memWf_of_mem hs (State.sendAt_mem ..)

theorem State.keepSent_memWf (hs : s.memWf) (node st : Nat) (data : List Byte) : (s.keepSent node st data).memWf := by
  unfold State.keepSent
  grind [State.memWf]

theorem State.keepSentAt_memWf (hs : s.memWf) (a st : Nat) (data : List Byte) : (s.keepSentAt a st data).memWf :=
  memWf_of_mem hs (State.keepSentAt_mem ..)

theorem State.sendReads_memWf (hs : s.memWf) (a n : Nat) : (s.sendReads a n).memWf := by
  unfold State.sendReads
  grind [State.sendAt_memWf, foldl_memWf]

theorem State.useLease_memWf (hs : s.memWf) (page : Nat) : (s.useLease page).memWf := hs
theorem State.ownGrant_memWf (hs : s.memWf) (page : Nat) : (s.ownGrant page).memWf := memWf_of_mem hs (State.ownGrant_mem ..)
theorem State.takeLease_memWf (hs : s.memWf) (page : Nat) : (s.takeLease page).1.memWf := memWf_of_mem hs (State.takeLease_mem ..)
theorem State.fetchLine_memWf (hs : s.memWf) (line : Nat) : (s.fetchLine line).1.memWf := memWf_of_mem hs (State.fetchLine_mem ..)
theorem State.viewLine_memWf (hs : s.memWf) (line : Nat) : (s.viewLine line).1.memWf := memWf_of_mem hs (State.viewLine_mem ..)
theorem State.loadMiss_memWf (hs : s.memWf) (line : Nat) : (s.loadMiss line).1.memWf := memWf_of_mem hs (State.loadMiss_mem ..)
theorem State.loadLine_memWf (hs : s.memWf) (line : Nat) : (s.loadLine line).1.memWf := memWf_of_mem hs (State.loadLine_mem ..)

theorem readLines_memWf {rd : State → Nat → State × List PByte} (hr : ∀ s l, s.memWf → (rd s l).1.memWf) (hs : s.memWf)
    (size a n : Nat) : (readLines rd size s a n).1.memWf := by
  unfold readLines
  grind [foldl_fst_memWf]

theorem State.freeBytes_memWf (hs : s.memWf) (n : Nat) : (s.freeBytes n).1.memWf := memWf_of_mem hs (State.freeBytes_mem ..)

theorem State.soRead_memWf (hs : s.memWf) (a n : Nat) : (s.soRead a n).1.memWf := by
  unfold State.soRead
  grind [State.sendReads_memWf, !State.homeRead_memWf]

theorem State.readPart_memWf (hs : s.memWf) (p : Part) : (s.readPart p).1.memWf := by
  unfold State.readPart
  grind [!State.loadLine_memWf, !readLines_memWf, !State.soRead_memWf]

theorem State.viewPart_memWf (hs : s.memWf) (p : Part) : (s.viewPart p).1.memWf := by
  unfold State.viewPart
  grind [!State.viewLine_memWf, !readLines_memWf, !State.soRead_memWf]

theorem State.readWith_memWf {rd : State → Part → State × List PByte} (hr : ∀ s p, s.memWf → (rd s p).1.memWf) (hs : s.memWf)
    (ps : List Part) : (s.readWith rd ps).1.memWf := by
  unfold State.readWith
  grind [foldl_fst_memWf]

theorem State.updateCopies_memWf (hs : s.memWf) (a : Nat) (bs : List Byte) : (s.updateCopies a bs).memWf :=
  memWf_of_mem hs (State.updateCopies_mem ..)

theorem State.dropLine_memWf (hs : s.memWf) (a : Nat) : (s.dropLine a).memWf := memWf_of_mem hs (State.dropLine_mem ..)

/-! ### Logs and releases -/

theorem State.setLog_memWf (hs : s.memWf) (g : LogSt) : (s.setLog g).memWf := hs
theorem State.mapCtx_memWf (hs : s.memWf) (f : StepCtx → StepCtx) : (s.mapCtx f).memWf := hs
theorem State.newLogNum_memWf (hs : s.memWf) : (s.newLogNum).2.memWf := hs
theorem State.openLog_memWf (hs : s.memWf) (ten reg : Nat) (budget : Bool) : (s.openLog ten reg budget).2.memWf := hs

theorem State.writeBillet_memWf (hs : s.memWf) (log : BitVec 32) (b : Billet) : (s.writeBillet log b).memWf := by
  unfold State.writeBillet
  grind [State.devStore_memWf]

theorem State.newBillet_memWf (hs : s.memWf) (g : LogSt) (ftok : BitVec 32) {q : State × LogSt} (h : s.newBillet g ftok = .ok q) :
    q.1.memWf := by
  unfold State.newBillet at h
  grind [State.charge_memWf]

theorem State.appendTo_memWf (hs : s.memWf) (g : LogSt) (ftok : BitVec 32) (l : List Rec) {q : State × LogSt}
    (h : s.appendTo g ftok l = .ok q) : q.1.memWf := by
  induction l generalizing s g ftok with
  | nil =>
    unfold State.appendTo at h
    grind
  | cons x l ih =>
    unfold State.appendTo at h
    grind [→ State.newBillet_memWf]

theorem State.pinLoads_memWf (hs : s.memWf) (rs : List Rec) : (s.pinLoads rs).memWf := hs

theorem State.pinCopies_memWf (hs : s.memWf) (rs : List Rec) : (s.pinCopies rs).memWf := by
  unfold State.pinCopies
  grind [State.memWf]

theorem State.appendRecs_memWf (hs : s.memWf) (rs : List Rec) {t : State} (h : s.appendRecs rs = .ok t) : t.memWf := by
  unfold State.appendRecs at h
  grind [State.setLog_memWf, → State.appendTo_memWf, State.pinLoads_memWf, State.pinCopies_memWf]

theorem State.showCopy_memWf (hs : s.memWf) (tag : BitVec 16) : (s.showCopy tag).memWf := by
  unfold State.showCopy
  grind [State.setLog_memWf]

theorem State.restamp_memWf (hs : s.memWf) (g : LogSt) : (s.restamp g).memWf := by
  unfold State.restamp
  grind [State.writeBillet_memWf, foldl_memWf]

theorem State.sealLog_memWf (hs : s.memWf) (pool : Bool) {q : State × RelWord} (h : s.sealLog pool = .ok q) : q.1.memWf := by
  unfold State.sealLog at h
  grind [State.setLog_memWf, State.mapCtx_memWf, → State.newBillet_memWf, State.restamp_memWf]

theorem State.applyHome_memWf (hs : s.memWf) (log : BitVec 32) (b : Billet) (space : Nat) : (s.applyHome log b space).memWf := by
  unfold State.applyHome
  grind [State.homeMerge_memWf, foldl_memWf]

theorem State.mapBillet_memWf (hs : s.memWf) (log : BitVec 32) (seg : Nat) (f : Billet → Billet) :
    (s.mapBillet log seg f).memWf := hs

theorem State.refetch_memWf (hs : s.memWf) (log : BitVec 32) (b : Billet) : (s.refetch log b).1.memWf := by
  unfold State.refetch
  grind [State.touch_memWf, State.mapBillet_memWf]

theorem State.spill_memWf (hs : s.memWf) (log : BitVec 32) (seg : Nat) : (s.spill log seg).memWf := by
  unfold State.spill
  grind [State.writeBillet_memWf, State.mapBillet_memWf]

theorem State.compact_memWf (hs : s.memWf) (log : BitVec 32) (seg : Nat) : (s.compact log seg).memWf := by
  unfold State.compact
  grind [State.applyHome_memWf, State.mapBillet_memWf, !State.refetch_memWf, State.memWf]

theorem State.sendBillet_memWf (hs : s.memWf) (log : BitVec 32) (b : Billet) (home st : Nat) :
    (s.sendBillet log b home st).memWf := by
  unfold State.sendBillet
  grind [State.send_memWf, State.keepSent_memWf, foldl_memWf]

theorem State.ship_memWf (hs : s.memWf) (log : BitVec 32) (seg home : Nat) (alone : Bool) : (s.ship log seg home alone).memWf := by
  unfold State.ship
  grind [State.applyHome_memWf, State.mapBillet_memWf, !State.refetch_memWf, State.sendBillet_memWf, State.memWf]

theorem State.reapLogs_memWf (hs : s.memWf) : s.reapLogs.memWf := by
  unfold State.reapLogs
  grind [State.uncharge_memWf, State.setLog_memWf, foldl_memWf]

theorem State.relRecall_memWf (hs : s.memWf) (r : RelSt) : (s.relRecall r).1.memWf := by
  unfold State.relRecall
  grind [!State.recallPages_memWf]

theorem State.shipRelease_memWf (hs : s.memWf) (r : RelSt) (home : Nat) : (s.shipRelease r home).memWf := by
  unfold State.shipRelease
  grind [State.spill_memWf, State.compact_memWf, State.ship_memWf, foldl_memWf]

theorem State.sendCommit_memWf (hs : s.memWf) (x : StepCtx) (r : RelSt) (st : Nat) : (s.sendCommit x r st).memWf :=
  State.keepSentAt_memWf (State.sendAt_memWf hs ..) ..

theorem State.commitRecord_memWf (hs : s.memWf) (x : StepCtx) (r : RelSt) : (s.commitRecord x r).memWf := by
  have h := State.devAtomic_memWf (x.base.pa + 56) (natLe 4 (x.seq.toNat + 1)) (memWf_commits (State.sendCommit_memWf hs x r 0)
    (insertAt (s.sendCommit x r 0).commits x.base.pa r.word))
  unfold State.commitRecord
  exact ite_memWf (memWf_holders h _) h

theorem State.sendRefused_memWf (hs : s.memWf) (x : StepCtx) (r : RelSt) (st : Nat) : (s.sendRefused x r st).memWf := by
  unfold State.sendRefused
  grind [State.sendBillet_memWf, State.sendCommit_memWf, foldl_memWf]

theorem State.writeFlag_memWf (hs : s.memWf) (flag : Nat) (w : RelWord) : (s.writeFlag flag w).memWf := by
  unfold State.writeFlag
  grind [State.atomSend_memWf]

theorem State.finishRelease_memWf (hs : s.memWf) (r : RelSt) : (s.finishRelease r).1.memWf := by
  unfold State.finishRelease
  grind [State.mapCtx_memWf, State.shipRelease_memWf, State.commitRecord_memWf, State.sendRefused_memWf, State.writeFlag_memWf]

theorem State.replayRec_memWf (hs : s.memWf) (k : Key) (r : Rec) : (s.replayRec k r).memWf := by
  unfold State.replayRec
  grind [State.homeMerge_memWf, State.memWf]

theorem State.markReplayed_memWf (hs : s.memWf) (log : BitVec 32) (segs : List Nat) : (s.markReplayed log segs).memWf := hs

theorem State.replayLog_memWf (hs : s.memWf) (g : LogSt) (tail : Nat) : (s.replayLog g tail).1.memWf := by
  unfold State.replayLog
  grind [!State.refetch_memWf, State.replayRec_memWf, State.markReplayed_memWf, foldl_memWf, foldl_fst_memWf]

theorem State.settle_memWf (hs : s.memWf) (hzn : List (BitVec 32 × BitVec 16)) : (s.settle hzn).memWf := by
  unfold State.settle
  grind [State.compact_memWf, !State.replayLog_memWf, foldl_memWf]

theorem State.replay_memWf (hs : s.memWf) (w : RelWord) (ten : Nat) : (s.replay w ten).1.memWf := by
  unfold State.replay
  grind [!State.replayLog_memWf, foldl_fst_memWf]

theorem State.dropL1_memWf (hs : s.memWf) : s.dropL1.memWf := hs

theorem State.extendHorizon_memWf (hs : s.memWf) (e : BitVec 32 × BitVec 16) : (s.extendHorizon e).memWf := by
  unfold State.extendHorizon
  grind [State.mapCtx_memWf, State.settle_memWf]

theorem State.acquire_memWf (hs : s.memWf) (w : RelWord) : (s.acquire w).1.memWf := by
  unfold State.acquire
  grind [!State.replay_memWf, State.dropL1_memWf, State.extendHorizon_memWf]

/-! ### Continuations -/

theorem State.setCont_memWf (hs : s.memWf) (c : Cont) : (s.setCont c).memWf := by
  unfold State.setCont
  grind [State.devAtomic_memWf, State.memWf]

theorem State.freeCont_memWf (hs : s.memWf) (c : Cont) : (s.freeCont c).memWf := by
  unfold State.freeCont
  grind [State.devAtomic_memWf, State.memWf]

theorem State.makeReady_memWf (hs : s.memWf) (c : Cont) : (s.makeReady c).memWf := by
  unfold State.makeReady
  grind [State.setRcb_memWf, State.setCont_memWf]

theorem State.peek_memWf (hs : s.memWf) (ten va n : Nat) : (s.peek ten va n).1.memWf := by
  unfold State.peek
  grind [!State.devRange_memWf, !State.viewPart_memWf, !State.readWith_memWf]

theorem State.armWatch_memWf (hs : s.memWf) (pa : Nat) (w : Watch) : (s.armWatch pa w).memWf := by
  unfold State.armWatch
  grind [State.fireWatches_memWf, State.memWf]

theorem State.pendOn_memWf (hs : s.memWf) (k : Strm) (t : Trap) : (s.pendOn k t).memWf := hs

/-! ### Jobs -/

theorem State.findRecord_memWf (hs : s.memWf) (ten carea : Nat) (n : Nat) (m : Nat) : (s.findRecord ten carea n m).1.memWf := by
  induction n generalizing s ten carea m with
  | zero =>
    unfold State.findRecord
    grind
  | succ f ih =>
    unfold State.findRecord
    grind [State.ashNote_memWf, State.touch_memWf, !State.devRange_memWf]

theorem State.freeRecord_memWf (hs : s.memWf) (r : Nat) : (s.freeRecord r).1.memWf := State.findRecord_memWf hs ..

theorem State.newCont_memWf (hs : s.memWf) (card : List Byte) (r va pa prio depth : Nat) (xyz : List Nat) (arg frame origin : Nat)
    (firing : Option Firing) (job : Option (BitVec 16 × Nat)) (ct : Option (BitVec 16)) :
    (s.newCont card r va pa prio depth xyz arg frame origin firing job ct).memWf := by
  unfold State.newCont
  grind [State.devAtomic_memWf, State.makeReady_memWf]

theorem State.touchSlot_memWf (hs : s.memWf) (r slot : Nat) : (s.touchSlot r slot).memWf := by
  unfold State.touchSlot
  grind [State.touch_memWf, State.touchPath_memWf]

theorem State.setSlot_memWf (hs : s.memWf) (r slot off n v : Nat) : (s.setSlot r slot off n v).memWf := by
  unfold State.setSlot
  grind [State.devStore_memWf]

theorem State.setJob_memWf (hs : s.memWf) (j : Job) : (s.setJob j).memWf := hs

theorem State.placeCard_memWf (hs : s.memWf) (r slot : Nat) (ten : BitVec 16) (card : List Byte) (host : Bool) :
    (s.placeCard r slot ten card host).memWf := by
  unfold State.placeCard
  grind [State.devStore_memWf, State.setRcb_memWf, State.setJob_memWf]

theorem State.dealFrom_memWf (hs : s.memWf) (r slot : Nat) (card : List Byte) (ct : Option (BitVec 16)) (cursor : Nat) (n : Nat) :
    (s.dealFrom r slot card ct cursor n).1.memWf := by
  induction n generalizing s r slot card ct cursor with
  | zero =>
    unfold State.dealFrom
    grind
  | succ f ih =>
    unfold State.dealFrom
    grind [!State.freeRecord_memWf, State.newCont_memWf]

theorem State.rejectCard_memWf (hs : s.memWf) (r slot ecode : Nat) : (s.rejectCard r slot ecode).memWf := by
  unfold State.rejectCard
  grind [State.setJob_memWf]

theorem State.dealSome_memWf (hs : s.memWf) (j : Job) (card : List Byte) (n : Nat) : (s.dealSome j card n).memWf := by
  unfold State.dealSome
  grind [State.setSlot_memWf, State.setJob_memWf, !State.dealFrom_memWf]

theorem State.dealChunk_memWf (hs : s.memWf) (r slot : Nat) : (s.dealChunk r slot).memWf := by
  unfold State.dealChunk
  grind [State.touchSlot_memWf, State.rejectCard_memWf, State.dealSome_memWf]

theorem State.countFreed_memWf (hs : s.memWf) (c : Cont) (fault : Bool) (final : Option RelWord) :
    (s.countFreed c fault final).memWf := by
  unfold State.countFreed
  grind [State.settle_memWf, State.setSlot_memWf, State.setJob_memWf, State.memWf]

theorem State.jobComplete_memWf (hs : s.memWf) (r slot : Nat) : (s.jobComplete r slot).memWf := by
  unfold State.jobComplete
  grind [State.setLog_memWf, !State.openLog_memWf, State.touchSlot_memWf, State.setJob_memWf]

theorem State.writeCompletion_memWf (hs : s.memWf) (ten : Nat) (card : List Byte) (w : Nat) (rel : RelWord) :
    (s.writeCompletion ten card w rel).1.memWf := by
  unfold State.writeCompletion
  grind [!State.devRange_memWf, State.atomSend_memWf, foldl_fst_memWf]

theorem State.freeJob_memWf (hs : s.memWf) (r slot jstate : Nat) : (s.freeJob r slot jstate).memWf := by
  unfold State.freeJob
  grind [State.setRcb_memWf, State.setSlot_memWf, State.memWf]

theorem State.completionWrite_memWf (hs : s.memWf) (r slot : Nat) : (s.completionWrite r slot).memWf := by
  unfold State.completionWrite
  grind [State.ashNote_memWf, !State.writeCompletion_memWf, State.freeJob_memWf]

/-! ### Expert queues -/

theorem State.setRick_memWf (hs : s.memWf) (r : Nat) (x : Rick) : (s.setRick r x).memWf := hs

theorem State.pushRing_memWf (hs : s.memWf) (x : Rick) (t : Token) : (s.pushRing x t).1.memWf := by
  unfold State.pushRing
  grind [State.devStore_memWf]

theorem State.arriveAll_memWf (hs : s.memWf) (x : Rick) (l : List Token) : (s.arriveAll x l).1.memWf := by
  induction l generalizing s x with
  | nil =>
    unfold State.arriveAll
    grind
  | cons x l ih =>
    unfold State.arriveAll
    grind [!State.pushRing_memWf]

theorem State.rickCfg_memWf (hs : s.memWf) (r : Nat) : (s.rickCfg r).1.memWf := by
  unfold State.rickCfg
  grind [State.ashNote_memWf, State.touch_memWf, !State.peek_memWf, State.setRick_memWf]

theorem State.enqueue_memWf (hs : s.memWf) (ten r : Nat) (recs : List (List Byte)) (w : RelWord) :
    (s.enqueue ten r recs w).1.memWf := by
  unfold State.enqueue
  grind [State.charge_memWf, State.setRick_memWf, !State.arriveAll_memWf, !State.rickCfg_memWf]

theorem State.rickPick_memWf (hs : s.memWf) (die : Nat) : (s.rickPick die).1.memWf := by
  unfold State.rickPick
  grind [!State.rickCfg_memWf, foldl_fst_memWf]

theorem State.fireRick_memWf (hs : s.memWf) (r : Nat) (cfg : RickCfg) : (s.fireRick r cfg).memWf := by
  unfold State.fireRick
  grind [State.touch_memWf, State.charge_memWf, State.uncharge_memWf, !State.freeRecord_memWf, State.newCont_memWf,
    State.setRick_memWf, foldl_memWf]

theorem State.retireFiring_memWf (hs : s.memWf) (f : Firing) : (s.retireFiring f).memWf := by
  unfold State.retireFiring
  grind [State.setRick_memWf]

theorem State.freeFiring_memWf (hs : s.memWf) (c : Cont) : (s.freeFiring c).memWf := by
  unfold State.freeFiring
  grind [State.uncharge_memWf, State.setRick_memWf, State.retireFiring_memWf]

/-! ### Accesses performed -/

theorem State.endAcc_memWf (hs : s.memWf) (a : Acc) : (s.endAcc a).memWf := hs

theorem State.finishAcc_memWf (hs : s.memWf) (a : Acc) (r : AccRes) (discard : Bool) : (s.finishAcc a r discard).memWf := by
  unfold State.finishAcc
  grind [State.pendOn_memWf, State.endAcc_memWf, State.memWf]

theorem State.loadElem_memWf (hs : s.memWf) (ps : List Part) (own : List (Nat × Byte)) : (s.loadElem ps own).1.memWf := by
  unfold State.loadElem
  grind [!State.readPart_memWf, !State.readWith_memWf]

theorem State.loadElems_memWf (hs : s.memWf) (size : Nat) (sx : Bool) (own : List (Nat × Byte)) (l : List (List Part)) :
    (s.loadElems size sx own l).1.memWf := by
  induction l generalizing s size sx own with
  | nil =>
    unfold State.loadElems
    grind
  | cons x l ih =>
    unfold State.loadElems
    grind [!State.loadElem_memWf]

theorem State.homeNat_memWf (hs : s.memWf) (a n : Nat) : (s.homeNat a n).1.memWf := by
  unfold State.homeNat
  grind [!State.homeRead_memWf]

theorem State.doAtom_memWf (hs : s.memWf) (op : AtKind) (a : Nat) (rc w64 sgn : Bool) (x y : Nat) :
    (s.doAtom op a rc w64 sgn x y).1.memWf := by
  unfold State.doAtom
  grind [State.sendAt_memWf, State.keepSentAt_memWf, State.atomWrite_memWf, !State.homeNat_memWf]

theorem State.doRed_memWf (hs : s.memWf) (a n : Nat) (rc : Bool) (body : List Byte) (f : Nat → Nat) :
    (s.doRed a n rc body f).1.memWf := by
  unfold State.doRed
  grind [State.sendAt_memWf, State.keepSentAt_memWf, State.atomWrite_memWf, !State.homeNat_memWf]

theorem State.acqEnd_memWf (hs : s.memWf) (a : Acc) (st : Word) (stamp : Word) (discard : Bool) :
    (s.acqEnd a st stamp discard).memWf := by
  unfold State.acqEnd
  grind [State.finishAcc_memWf, State.memWf]

theorem State.arrive_memWf (hs : s.memWf) (a : Nat) : (s.arrive a).1.memWf := by
  have h (bs : List Byte) := State.devAtomic_memWf (a + 4) bs (State.touch_memWf a 16 hs)
  unfold State.arrive
  grind [State.touch_memWf, memWf_conts]

theorem State.spawn_memWf (hs : s.memWf) (reg : Nat) (card : List Byte) (w : RelWord) : (s.spawn reg card w).1.memWf := by
  unfold State.spawn
  grind [State.placeCard_memWf]

theorem State.preemptDone_memWf (hs : s.memWf) (a : Acc) (n : Nat) (discard : Bool) : (s.preemptDone a n discard).memWf := by
  unfold State.preemptDone
  grind [State.putCore_memWf, State.finishAcc_memWf]

theorem State.performAcc_memWf (hs : s.memWf) (a : Acc) (discard : Bool) : (s.performAcc a discard).memWf := by
  unfold State.performAcc
  grind [!State.homeRead_memWf, !State.readPart_memWf, !State.readWith_memWf, State.writeBillet_memWf, State.spill_memWf,
    State.dropL1_memWf, !State.acquire_memWf, State.setRick_memWf, !State.rickCfg_memWf, !State.enqueue_memWf,
    State.finishAcc_memWf, !State.loadElems_memWf, !State.doAtom_memWf, !State.doRed_memWf, State.acqEnd_memWf, !State.arrive_memWf,
    !State.spawn_memWf, State.preemptDone_memWf, foldl_memWf, State.memWf]

theorem State.relReady_memWf (hs : s.memWf) (r : RelSt) : (s.relReady r).1.memWf := by
  unfold State.relReady
  grind [!State.relRecall_memWf]

theorem State.completeRelease_memWf (hs : s.memWf) (a : Acc) (r : RelSt) (discard : Bool) :
    (s.completeRelease a r discard).memWf := by
  unfold State.completeRelease
  grind [!State.fresh_memWf, State.compact_memWf, !State.finishRelease_memWf, State.finishAcc_memWf, foldl_memWf, State.memWf]

theorem State.leaveRelease_memWf (hs : s.memWf) (r : RelSt) : (s.leaveRelease r).memWf := by
  unfold State.leaveRelease
  grind [State.send_memWf, State.sendAt_memWf, foldl_memWf, State.memWf]

theorem State.drainRelease_memWf (hs : s.memWf) (a : Acc) (r : RelSt) : (s.drainRelease a r).memWf := by
  unfold State.drainRelease
  grind [State.endAcc_memWf, !State.relReady_memWf, State.completeRelease_memWf, State.leaveRelease_memWf]

theorem State.drainAccs_memWf (hs : s.memWf) : s.drainAccs.memWf := by
  unfold State.drainAccs
  grind [State.performAcc_memWf, State.drainRelease_memWf, foldl_memWf]

end Sys2Proof.Machine
end

section
/-!
SUPPORT. What instructions are made of keeps the canonical form: fetching, traps, issue, and the groups SINT to CAP.
-/

namespace Sys2Proof.Machine

-- Many short proofs in a row: each is elaborated before the next, so that none waits for another in a thread of its own.
set_option Elab.async false

variable {s t u : State}

/-! ### Fetching and transfers -/

theorem State.codeUnit_memWf (hs : s.memWf) (u : Nat) : (s.codeUnit u).1.memWf := by
  unfold State.codeUnit
  grind [!State.viewLine_memWf, !readLines_memWf, State.memWf]

theorem State.codePart_memWf (hs : s.memWf) (p : Part) : (s.codePart p).1.memWf := by
  unfold State.codePart
  grind [!readLines_memWf, !State.soRead_memWf, !State.codeUnit_memWf]

theorem State.fetch_memWf (hs : s.memWf) (pc : BitVec 32) (n : Nat) : (s.fetch pc n).1.memWf := by
  unfold State.fetch
  grind [!State.access_memWf, !State.readWith_memWf, !State.codePart_memWf]

theorem State.header_memWf (hs : s.memWf) (pc : BitVec 32) : (s.header pc).1.memWf := by
  unfold State.header
  grind [!State.fetch_memWf]

theorem State.advance_memWf (hs : s.memWf) : s.advance.memWf := hs
theorem State.gotoWord_memWf (hs : s.memWf) (a : BitVec 32) : (s.gotoWord a).memWf := hs
theorem State.gotoHeader_memWf (hs : s.memWf) (a : BitVec 32) : (s.gotoHeader a).memWf := hs

theorem State.transfer_wf (hs : s.memWf) (a : BitVec 32) : (s.transfer a).wf := by
  unfold State.transfer
  grind [!State.header_memWf, State.gotoWord_memWf, State.gotoHeader_memWf, Done.wf, Xfer.wf]

theorem State.gotoReturn_memWf (hs : s.memWf) (hdr a : BitVec 32) : (s.gotoReturn hdr a).memWf := hs

theorem State.headerStep_wf (hs : s.memWf) : (s.headerStep).wf := by
  unfold State.headerStep
  grind [State.mapCur_memWf, !State.header_memWf, Done.wf, Xfer.wf, AtHeader.wf, State.memWf]

/-! ### The end of a step -/

theorem State.closeLog_memWf (hs : s.memWf) (num : BitVec 32) : (s.closeLog num).memWf := by
  unfold State.closeLog
  grind [State.reapLogs_memWf, State.memWf]

theorem State.dropWatches_memWf (hs : s.memWf) : s.dropWatches.memWf := hs

theorem State.leaveCore_memWf (hs : s.memWf) : s.leaveCore.memWf := by
  unfold State.leaveCore
  grind [State.uncharge_memWf, State.closeLog_memWf, State.dropWatches_memWf, State.memWf]

theorem State.discardOpen_memWf (hs : s.memWf) (num : BitVec 32) : (s.discardOpen num).memWf := by
  unfold State.discardOpen
  grind [State.uncharge_memWf, State.setLog_memWf]

theorem State.coreAsh_memWf (hs : s.memWf) (src code ten reg addr : Nat) (detail : List Byte) :
    (s.coreAsh src code ten reg addr detail).memWf :=
  State.ashNote_memWf hs ..

theorem State.trapAsh_memWf (hs : s.memWf) (t : Trap) (tf : Vector Word 16) (dropped : Nat) : (s.trapAsh t tf dropped).memWf :=
  State.coreAsh_memWf hs ..

theorem State.setFn_memWf (hs : s.memWf) (n : Nat) (f : HostFn) : (s.setFn n f).memWf := hs

theorem State.faultMessage_memWf (hs : s.memWf) (fn cause reg fdom crec ipc gcore : Nat) :
    (s.faultMessage fn cause reg fdom crec ipc gcore).memWf := by
  unfold State.faultMessage
  grind [State.setFn_memWf, State.store_memWf]

theorem State.haltCore_memWf (hs : s.memWf) (code addr : Nat) (detail : List Byte) : (s.haltCore code addr detail).memWf := by
  unfold State.haltCore
  grind [State.ashFreeze_memWf, State.coreAsh_memWf, State.memWf]

/-! ### Operands -/

theorem State.popAll_memWf (hs : s.memWf) (srcs : List Src) : (s.popAll srcs).memWf := by
  unfold State.popAll
  grind [State.popSrc_memWf, foldl_memWf]

/-! ### Traps and issue -/

theorem State.handlerHdr_memWf (hs : s.memWf) (k : Strm) : (s.handlerHdr k).1.memWf := by
  unfold State.handlerHdr
  grind [!State.header_memWf]

theorem State.dispAt_memWf (hs : s.memWf) (k : Strm) (t : Trap) : (s.dispAt k t).1.memWf := by
  unfold State.dispAt
  grind [!State.handlerHdr_memWf]

theorem State.setTf_memWf (hs : s.memWf) (k : Strm) (tf : Vector Word 16) : (s.setTf k tf).memWf := hs

theorem State.leaveWait_memWf (hs : s.memWf) (k : Strm) : (s.leaveWait k).memWf := by
  unfold State.leaveWait
  grind [State.memWf]

theorem State.enterHandler_memWf (hs : s.memWf) (k : Strm) (hdr : BitVec 32) (h : SecHdr) (t : Trap) :
    (s.enterHandler k hdr h t).memWf := by
  unfold State.enterHandler
  grind [State.setTf_memWf, State.leaveWait_memWf, State.memWf]

theorem State.dccTrap_memWf (hs : s.memWf) (k : Strm) (t : Trap) : (s.dccTrap k t).memWf := by
  unfold State.dccTrap
  grind [!State.header_memWf, State.haltCore_memWf, State.setTf_memWf, State.enterHandler_memWf]

theorem State.unpend_memWf (hs : s.memWf) (k : Strm) (t : Trap) : (s.unpend k t).memWf := hs

theorem State.takeTrap_memWf (hs : s.memWf) (k : Strm) (t : Trap) : (s.takeTrap k t).memWf := by
  unfold State.takeTrap
  grind [!State.dispAt_memWf, State.setTf_memWf, State.enterHandler_memWf, State.dccTrap_memWf, State.memWf]

theorem State.raise_memWf (hs : s.memWf) (t : Trap) : (s.raise t).memWf := State.takeTrap_memWf (State.mapCur_memWf hs ..) ..

theorem State.trapTaken_memWf (hs : s.memWf) (k : Strm) : (s.trapTaken k).memWf := by
  unfold State.trapTaken
  grind [State.unpend_memWf, State.takeTrap_memWf, State.memWf]

theorem State.pass_memWf (hs : s.memWf) : s.pass.memWf := hs

theorem State.raiseAfter_memWf (hs : s.memWf) (srcs : List Src) (c : Cause) (data : Word) : (s.raiseAfter srcs c data).memWf := by
  unfold State.raiseAfter
  grind [State.popAll_memWf, State.takeTrap_memWf, State.pass_memWf]

theorem State.deferAux_memWf (hs : s.memWf) (c : Cause) (info : Nat) (fva : Nat) (aux : Word) :
    (s.deferAux c info fva aux).memWf := hs

theorem State.deferTrap_memWf (hs : s.memWf) (c : Cause) (info : Nat) (fva : Nat) : (s.deferTrap c info fva).memWf := hs

theorem State.sleepAt_memWf (hs : s.memWf) (pc : BitVec 32) (n : Nat) (m : Nat) : (s.sleepAt pc n m).1.memWf := by
  induction n generalizing s pc m with
  | zero =>
    unfold State.sleepAt
    grind
  | succ f ih =>
    unfold State.sleepAt
    grind [!State.fetch_memWf]

theorem State.resumeSleep_memWf (hs : s.memWf) (k : Strm) (rpc : BitVec 32) (opnd : Word) (set : Option (Fin 8)) :
    (s.resumeSleep k rpc opnd set).memWf := by
  unfold State.resumeSleep
  grind [!State.sleepAt_memWf, State.memWf]

theorem State.returnTo_memWf (hs : s.memWf) (k : Strm) (h : SecHdr) (z : Saved) : (s.returnTo k h z).memWf := by
  unfold State.returnTo
  grind [State.resumeSleep_memWf, State.memWf]

theorem State.stall_memWf (hs : s.memWf) (k : Hold) : (s.stall k).memWf := hs
theorem State.markIssued_memWf (hs : s.memWf) : s.markIssued.memWf := hs
theorem State.unissued_memWf (ht : t.memWf) (s : State) : (t.unissued s).memWf := ht
theorem State.skip_memWf (hs : s.memWf) (u : Use) : (s.skip u).memWf := hs

theorem Done.out_outWf (hs : s.memWf) (u : Use) {d : Done} (hd : d.wf) : outWf (d.out s u) := by
  unfold Done.out
  grind [State.advance_memWf, State.popAll_memWf, State.raise_memWf, State.stall_memWf, State.unissued_memWf, Done.wf, outWf]

theorem State.newPromise_memWf (hs : s.memWf) (tag : BitVec 16) : (s.newPromise tag).2.memWf := hs

theorem issue_outWf (hs : s.memWf) (g : Gate) (h : Hdr) (u : Use) {eff : State → Done} (heff : ∀ t, t.memWf → (eff t).wf) : outWf
    (issue g h u eff s) := by
  unfold issue
  grind [State.raise_memWf, State.stall_memWf, State.markIssued_memWf, State.skip_memWf, Done.out_outWf, outWf]

theorem issueIf_outWf (hs : s.memWf) (ok : Bool) (g : Gate) (h : Hdr) (u : Use) {eff : State → Done}
    (heff : ∀ t, t.memWf → (eff t).wf) : outWf (issueIf ok g h u eff s) := by
  unfold issueIf
  grind [State.raise_memWf, issue_outWf, outWf]

theorem State.trapDone_wf (hs : s.memWf) (c : Cause) : (s.trapDone c).wf := by
  unfold State.trapDone
  grind [Done.wf]

theorem State.badDone_wf (hs : s.memWf) (b : Bad) : (s.badDone b).wf := by
  unfold State.badDone
  grind [Done.wf]

theorem State.fetchDone_wf (hs : s.memWf) (b : FetchBad) : (s.fetchDone b).wf := by
  unfold State.fetchDone
  grind [State.badDone_wf, Done.wf]

theorem State.memAccess_memWf (hs : s.memWf) (before : List Src) (m : MAddr) (n align : Nat) (perms : List Nat) (need : Need) :
    (s.memAccess before m n align perms need).1.memWf :=
  State.access_memWf hs ..

theorem State.addAcc_memWf (hs : s.memWf) (h : Hdr) (d : ADst) (pform : Bool) (kind : AccKind) (rel : Option RelSt) :
    (s.addAcc h d pform kind rel).memWf := hs

theorem State.sealFor_memWf (hs : s.memWf) (pool : Bool) (flag : Option Nat) (commit : Bool) {q : State × RelSt}
    (h : s.sealFor pool flag commit = .ok q) : q.1.memWf := by
  unfold State.sealFor at h
  grind [→ State.sealLog_memWf]

theorem State.noBillet_wf (hs : s.memWf) (b : NoBillet) : (s.noBillet b).wf := by
  unfold State.noBillet
  grind [State.trapDone_wf, Done.wf]

/-! ### Group SINT -/

theorem valueOp_outWf (hs : s.memWf) (h : Hdr) (srcs : List Src) (d : Dst) (f : State → Word) : outWf (valueOp h srcs d f s) := by
  unfold valueOp
  grind [State.putDst_memWf, issue_outWf, Done.wf]

theorem arith_outWf (hs : s.memWf) (h : Hdr) (o : IArith) (op : Int → Int → Int) : outWf (arith h o op s) := valueOp_outWf hs ..
theorem arithNs_outWf (hs : s.memWf) (h : Hdr) (o : IBin) (op : Int → Int → Int) : outWf (arithNs h o op s) := valueOp_outWf hs ..
theorem bitwise_outWf (hs : s.memWf) (h : Hdr) (o : IBin) (op : Nat → Nat → Nat) : outWf (bitwise h o op s) := valueOp_outWf hs ..
theorem bitCount_outWf (hs : s.memWf) (h : Hdr) (o : IUn) (f : Nat → Nat → Nat) : outWf (bitCount h o f s) := valueOp_outWf hs ..

theorem field2_outWf (hs : s.memWf) (h : Hdr) (d : Dst) (a b : Src) (imm : BitVec 32) (f : Nat → Nat → Nat) : outWf
    (field2 h d a b imm f s) :=
  valueOp_outWf hs ..

theorem outcomeOp_outWf (hs : s.memWf) (h : Hdr) (srcs : List Src) (d : Dst) (p : Fin 8) (f : State → Bool) : outWf
    (outcomeOp h srcs d p f s) := by
  unfold outcomeOp
  grind [State.putPred_memWf, State.putDst_memWf, issue_outWf, Done.wf]

theorem execSel_outWf (hs : s.memWf) (h : Hdr) (o : ISel) : outWf (execSel h o s) := by
  unfold execSel
  grind [State.putDst_memWf, issue_outWf, Done.wf]

/-! ### Group SFLT -/

theorem float2_outWf (hs : s.memWf) (h : Hdr) (d : Dst) (a b : Src) (imm : BitVec 32) (f : Nat → Nat → Nat) : outWf
    (float2 h d a b imm f s) :=
  valueOp_outWf hs ..

theorem execPlog_outWf (hs : s.memWf) (h : Hdr) (pd pa pb : Fin 8) (tbl : BitVec 4) : outWf (execPlog h pd pa pb tbl s) := by
  unfold execPlog
  grind [State.putPred_memWf, issue_outWf, Done.wf]

/-! ### Group CTRL -/

theorem xferDone_wf (srcs : List Src) {post : State → State} (hpost : ∀ t, t.memWf → (post t).memWf) {x : Xfer} (hx : x.wf) :
    (xferDone srcs post x).wf := by
  unfold xferDone
  grind [State.popAll_memWf, State.trapDone_wf, State.fetchDone_wf, Xfer.wf, Done.wf]

theorem execBr_outWf (hs : s.memWf) (h : Hdr) (off : BitVec 32) : outWf (execBr h off s) := by
  unfold execBr
  grind [State.transfer_wf, issue_outWf, xferDone_wf]

theorem execBrIndirect_outWf (hs : s.memWf) (h : Hdr) (a : Src) : outWf (execBrIndirect h a s) := by
  unfold execBrIndirect
  grind [State.transfer_wf, issue_outWf, xferDone_wf]

theorem execBc_outWf (hs : s.memWf) (h : Hdr) (cond : ICond) (ty : ITy) (a b : Src) (off : BitVec 32) : outWf
    (execBc h cond ty a b off s) := by
  unfold execBc
  grind [State.transfer_wf, issue_outWf, xferDone_wf, Done.wf]

theorem State.popBqAt_memWf (hs : s.memWf) (k : Fin 6) : (s.popBqAt k).memWf := hs
theorem State.pushBqAt_memWf (hs : s.memWf) (k : Fin 6) (b : Bool) : (s.pushBqAt k b).memWf := hs

theorem execBq_outWf (hs : s.memWf) (h : Hdr) (q inv : Bool) (pd : Fin 8) (off : BitVec 32) : outWf (execBq h q inv pd off s) := by
  unfold execBq
  grind [State.putPred_memWf, State.transfer_wf, issue_outWf, xferDone_wf, State.popBqAt_memWf, Done.wf]

theorem execBqNobranch_outWf (hs : s.memWf) (h : Hdr) (q _inv : Bool) (pd : Fin 8) : outWf (execBqNobranch h q _inv pd s) := by
  unfold execBqNobranch
  grind [State.putPred_memWf, issue_outWf, State.popBqAt_memWf, Done.wf]

theorem execBpush_outWf (hs : s.memWf) (h : Hdr) (tgt : Bool) (p : Fin 8) (inv : Bool) : outWf (execBpush h tgt p inv s) := by
  unfold execBpush
  grind [issue_outWf, State.pushBqAt_memWf, Done.wf]

theorem execJtab_outWf (hs : s.memWf) (h : Hdr) (a : Src) (cap : Fin 16) (len : BitVec 16) (off : BitVec 32) : outWf
    (execJtab h a cap len off s) := by
  unfold execJtab
  grind [!State.access_memWf, !State.loadElem_memWf, State.transfer_wf, issue_outWf, State.badDone_wf, xferDone_wf, Done.wf]

theorem callTo_wf (hs : s.memWf) (link : Dst) (srcs : List Src) (f : State → BitVec 32) : (callTo link srcs f s).wf := by
  unfold callTo
  grind [State.putDst_memWf, State.transfer_wf, State.trapDone_wf, xferDone_wf]

theorem execCall_outWf (hs : s.memWf) (h : Hdr) (link : Dst) (off : BitVec 32) : outWf (execCall h link off s) := by
  unfold execCall
  grind [issue_outWf, callTo_wf]

theorem execCallIndirect_outWf (hs : s.memWf) (h : Hdr) (link : Dst) (a : Src) : outWf (execCallIndirect h link a s) := by
  unfold execCallIndirect
  grind [issue_outWf, callTo_wf]

theorem execRet_outWf (hs : s.memWf) (h : Hdr) (a : Src) : outWf (execRet h a s) := by
  unfold execRet
  grind [!State.header_memWf, State.gotoWord_memWf, State.gotoReturn_memWf, State.popAll_memWf, issue_outWf, State.trapDone_wf,
    State.fetchDone_wf, Done.wf]

theorem execLoop_outWf (hs : s.memWf) (h : Hdr) (cnt : LoopCount) (body : BitVec 16) : outWf (execLoop h cnt body s) := by
  unfold execLoop
  grind [State.mapCur_memWf, State.popAll_memWf, issue_outWf, State.trapDone_wf, Done.wf, State.memWf]

theorem execLbrk_outWf (hs : s.memWf) (h : Hdr) (n : Fin 4) : outWf (execLbrk h n s) := by
  unfold execLbrk
  grind [State.mapCur_memWf, State.gotoWord_memWf, State.gotoHeader_memWf, issue_outWf, State.trapDone_wf, Done.wf]

theorem execNop_outWf (hs : s.memWf) (h : Hdr) : outWf (execNop h s) := by
  unfold execNop
  grind [issue_outWf, Done.wf]

theorem execEnds_outWf (hs : s.memWf) (h : Hdr) : outWf (execEnds h s) := by
  unfold execEnds
  grind [State.gotoHeader_memWf, issue_outWf, Done.wf]

theorem execSbwait_outWf (hs : s.memWf) (h : Hdr) (all : Bool) : outWf (execSbwait h all s) := by
  unfold execSbwait
  grind [issue_outWf, Done.wf]

theorem State.endSleep_memWf (hs : s.memWf) (z : Sleeping) : (s.endSleep z).memWf := by
  unfold State.endSleep
  grind [State.mapCur_memWf, State.advance_memWf, State.raise_memWf, !State.newPromise_memWf]

theorem sleepOp_outWf (hs : s.memWf) (h : Hdr) (a : Src) (imm : BitVec 32) (mode : Fin 3) : outWf (sleepOp h a imm mode s) := by
  unfold sleepOp
  grind [State.mapCur_memWf, State.popAll_memWf, issue_outWf, State.endSleep_memWf, Done.wf]

theorem execSleepEnd_outWf (hs : s.memWf) (k : Strm) : outWf (execSleepEnd k s) := by
  unfold execSleepEnd
  grind [State.endSleep_memWf, outWf, State.memWf]

theorem State.qPush_memWf (hs : s.memWf) (k : Fin 8) (v : Word) : (s.qPush k v).memWf := by
  unfold State.qPush
  grind [State.putDst_memWf, State.pushBqAt_memWf]

theorem State.qPop_memWf (hs : s.memWf) {k : Fin 8} {p : Word × State} (h : s.qPop k = some p) : p.2.memWf := by
  unfold State.qPop at h
  split at h
  · split at h
    · cases h
      exact State.popSrc_memWf hs .q
    · cases h
  · obtain ⟨b, -, rfl⟩ := Option.map_eq_some_iff.1 h
    exact State.popBqAt_memWf hs _

theorem execQpush_outWf (hs : s.memWf) (h : Hdr) (q : Fin 8) (p : Fin 8) (a : Src) (imm : BitVec 32) : outWf
    (execQpush h q p a imm s) := by
  unfold execQpush
  grind [State.putPred_memWf, issueIf_outWf, State.qPush_memWf, Done.wf]

theorem execQpop_outWf (hs : s.memWf) (h : Hdr) (q : Fin 8) (d : Dst) (p : Fin 8) : outWf (execQpop h q d p s) := by
  unfold execQpop
  grind [State.putPred_memWf, State.putDst_memWf, issueIf_outWf, → State.qPop_memWf, Done.wf]

theorem execQcnt_outWf (hs : s.memWf) (h : Hdr) (q : Fin 8) (d : Dst) : outWf (execQcnt h q d s) := by
  unfold execQcnt
  grind [State.putDst_memWf, issueIf_outWf, Done.wf]

theorem latchPfx_outWf (hs : s.memWf) (again : Bool) (f : Stream → Stream) : outWf (latchPfx again f s) := by
  unfold latchPfx
  grind [State.mapCur_memWf, State.raise_memWf, outWf]

/-! ### Ownership -/

theorem State.owned_wf (hs : s.memWf) (ws : List Win) {d : Done} (hd : d.wf) : (s.owned ws d).wf := by
  unfold State.owned
  grind [State.trapDone_wf]

/-! ### Group MEM -/

theorem State.elemParts_memWf (hs : s.memWf) (before : List Src) (m : MAddr) (size align : Nat) (perms : List Nat) (need : Need)
    (n : Nat) (i : Nat) : (s.elemParts before m size align perms need n i).1.memWf := by
  induction i generalizing s before m size align perms need n with
  | zero =>
    unfold State.elemParts
    grind
  | succ f ih =>
    unfold State.elemParts
    grind [!State.access_memWf]

theorem State.reserveLdq_memWf (hs : s.memWf) (n : Nat) : (s.reserveLdq n).2.memWf := hs

theorem State.writeWords_memWf (hs : s.memWf) (a : Nat) (l : List (List Byte)) : (s.writeWords a l).1.memWf := by
  induction l generalizing s a with
  | nil =>
    unfold State.writeWords
    grind
  | cons x l ih =>
    unfold State.writeWords
    grind [!State.homeWrite_memWf]

theorem State.writePlaced_memWf (hs : s.memWf) (n : Nat) (ps : List (Part × List Byte)) : (s.writePlaced n ps).1.memWf := by
  unfold State.writePlaced
  grind [!State.writeWords_memWf, foldl_fst_memWf]

theorem State.recallPlaced_memWf (hs : s.memWf) (ps : List Part) : (s.recallPlaced ps).1.memWf := State.recallPages_memWf hs ..

theorem State.storeBytes_memWf (hs : s.memWf) (kind : Fin 4) (run word : Nat) (ps : List Part) (bs : List Byte) {q : State × Bool}
    (h : s.storeBytes kind run word ps bs = .ok q) : q.1.memWf := by
  unfold State.storeBytes at h
  grind [→ State.appendRecs_memWf, !State.writePlaced_memWf]

theorem storeDone_wf (hs : s.memWf) (kind : Fin 4) (run word : Nat) (ps : List PPart) (bs : List Byte) {post : State → State}
    (hpost : ∀ t, t.memWf → (post t).memWf) : (storeDone s kind run word ps bs post).wf := by
  unfold storeDone
  grind [State.deferTrap_memWf, State.noBillet_wf, !State.recallPlaced_memWf, → State.storeBytes_memWf, Done.wf]

theorem execLd_outWf (hs : s.memWf) (h : Hdr) (o : LdOp) : outWf (execLd h o s) := by
  unfold execLd
  grind [!State.reserveDst_memWf, issue_outWf, State.badDone_wf, !State.memAccess_memWf, State.addAcc_memWf, Done.wf]

theorem execLdTile_outWf (hs : s.memWf) (h : Hdr) (o : TileOp) : outWf (execLdTile h o s) := by
  unfold execLdTile
  grind [issue_outWf, State.trapDone_wf, State.badDone_wf, !State.memAccess_memWf, State.addAcc_memWf, State.owned_wf, Done.wf]

theorem execLdq_outWf (hs : s.memWf) (h : Hdr) (o : QMemOp) : outWf (execLdq h o s) := by
  unfold execLdq
  grind [issue_outWf, State.badDone_wf, State.addAcc_memWf, !State.elemParts_memWf, !State.reserveLdq_memWf, Done.wf]

theorem execSt_outWf (hs : s.memWf) (h : Hdr) (o : StOp) : outWf (execSt h o s) := by
  unfold execSt
  grind [issue_outWf, State.badDone_wf, !State.memAccess_memWf, storeDone_wf]

theorem execStTile_outWf (hs : s.memWf) (h : Hdr) (o : TileOp) : outWf (execStTile h o s) := by
  unfold execStTile
  grind [issue_outWf, State.trapDone_wf, State.badDone_wf, !State.memAccess_memWf, State.owned_wf, storeDone_wf]

theorem State.popSdq_memWf (hs : s.memWf) (n : Nat) : (s.popSdq n).memWf := by
  induction n generalizing s with
  | zero =>
    unfold State.popSdq
    grind
  | succ f ih =>
    unfold State.popSdq
    grind [State.memWf]

theorem execStq_outWf (hs : s.memWf) (h : Hdr) (o : QMemOp) : outWf (execStq h o s) := by
  unfold execStq
  grind [issue_outWf, State.badDone_wf, !State.elemParts_memWf, storeDone_wf, State.popSdq_memWf, Done.wf]

theorem State.prefLine_memWf (hs : s.memWf) (a : Nat) (pv : Bool) : (s.prefLine a pv).memWf := by
  unfold State.prefLine
  grind [!State.viewLine_memWf, !State.loadLine_memWf]

theorem execPref_outWf (hs : s.memWf) (h : Hdr) (pv : Bool) (_scope : Scope) (m : MAddr) : outWf (execPref h pv _scope m s) := by
  unfold execPref
  grind [issue_outWf, !State.memAccess_memWf, State.prefLine_memWf, Done.wf]

theorem State.sendRel_wf (hs : s.memWf) (h : Hdr) (rl : Bool) (scope : Scope) (d : Dst) (pform : Bool) (kind : AccKind) :
    (s.sendRel h rl scope d pform kind).wf := by
  unfold State.sendRel
  grind [!State.reserveDst_memWf, State.addAcc_memWf, → State.sealFor_memWf, State.noBillet_wf, Done.wf]

theorem atomOp_outWf (hs : s.memWf) (h : Hdr) (op : AtKind) (srcs : List Src) (w64 sgn rl aq p : Bool) (scope : Scope) (m : MAddr)
    (vals : State → Word × Word) : outWf (atomOp h op srcs w64 sgn rl aq p scope m vals s) := by
  unfold atomOp
  grind [issue_outWf, State.trapDone_wf, State.badDone_wf, !State.memAccess_memWf, State.sendRel_wf, Done.wf]

theorem atom1_outWf (hs : s.memWf) (h : Hdr) (op : AtKind) (o : AtOp) : outWf (atom1 h op o s) := atomOp_outWf hs ..

theorem execAcas_outWf (hs : s.memWf) (h : Hdr) (o : AcasOp) : outWf (execAcas h o s) := by
  unfold execAcas
  grind [atomOp_outWf]

theorem reduceOp_outWf (hs : s.memWf) (h : Hdr) (a : Src) (n : Nat) (m : MAddr) (kind : Nat → PageKind → Word → AccKind) : outWf
    (reduceOp h a n m kind s) := by
  unfold reduceOp
  grind [issue_outWf, State.trapDone_wf, State.badDone_wf, !State.memAccess_memWf, State.addAcc_memWf, Done.wf]

theorem execReleaseComplete_outWf (hs : s.memWf) (id : Nat) : outWf (execReleaseComplete id s) := by
  unfold execReleaseComplete
  grind [!State.relReady_memWf, State.completeRelease_memWf, outWf]

theorem execAccessComplete_outWf (hs : s.memWf) (id : Nat) : outWf (execAccessComplete id s) := by
  unfold execAccessComplete
  grind [State.performAcc_memWf, outWf]

/-! ### Group SYNC -/

theorem State.flagPart_memWf (hs : s.memWf) (m : MAddr) (perms : List Nat) (need : Need) : (s.flagPart m perms need).1.memWf := by
  unfold State.flagPart
  grind [!State.memAccess_memWf]

theorem execRel_outWf (hs : s.memWf) (h : Hdr) (o : RelOp) : outWf (execRel h o s) := by
  unfold execRel
  grind [issue_outWf, State.badDone_wf, State.addAcc_memWf, → State.sealFor_memWf, State.noBillet_wf, !State.flagPart_memWf,
    Done.wf]

theorem State.reservePair_memWf (hs : s.memWf) (k : Fin 8) : (s.reservePair k).2.memWf := hs
theorem State.reserveTwo_memWf (hs : s.memWf) : (s.reserveTwo).2.memWf := hs

theorem execRell_outWf (hs : s.memWf) (h : Hdr) (scope : Scope) (p : Bool) (d : RelDst) : outWf (execRell h scope p d s) := by
  unfold execRell
  grind [issue_outWf, State.addAcc_memWf, → State.sealFor_memWf, State.noBillet_wf, !State.reservePair_memWf,
    !State.reserveTwo_memWf, Done.wf]

theorem execAcq_outWf (hs : s.memWf) (h : Hdr) (o : AcqOp) : outWf (execAcq h o s) := by
  unfold execAcq
  grind [!State.reserveDst_memWf, issue_outWf, State.badDone_wf, State.addAcc_memWf, !State.flagPart_memWf, Done.wf]

theorem execAcql_outWf (hs : s.memWf) (h : Hdr) (p : Bool) (a b : Src) : outWf (execAcql h p a b s) := by
  unfold execAcql
  grind [issue_outWf, State.addAcc_memWf, Done.wf]

theorem execFence_outWf (hs : s.memWf) (h : Hdr) (_scope : Scope) (kind : BitVec 4) : outWf (execFence h _scope kind s) := by
  unfold execFence
  grind [issueIf_outWf, Done.wf]

theorem execLsync_outWf (hs : s.memWf) (h : Hdr) : outWf (execLsync h s) := by
  unfold execLsync
  grind [issue_outWf, State.addAcc_memWf, Done.wf]

theorem State.waitPart_memWf (hs : s.memWf) (before : List Src) (m : MAddr) : (s.waitPart before m).1.memWf := by
  unfold State.waitPart
  grind [State.snoopRead_memWf, !State.memAccess_memWf]

theorem State.addWatch_memWf (hs : s.memWf) (a : Nat) (c : Word) : (s.addWatch a c).memWf := hs

theorem execWaita_outWf (hs : s.memWf) (h : Hdr) (a : Src) (_scope : Scope) (m : MAddr) : outWf (execWaita h a _scope m s) := by
  unfold execWaita
  grind [State.mapCur_memWf, issue_outWf, State.badDone_wf, !State.waitPart_memWf, State.addWatch_memWf, Done.wf]

theorem State.dropArmed_memWf (hs : s.memWf) : s.dropArmed.memWf := by
  unfold State.dropArmed
  grind [State.mapCtx_memWf, State.memWf]

theorem execWaitaArm_outWf (hs : s.memWf) (h : Hdr) (a : Src) (_scope : Scope) (m : MAddr) : outWf
    (execWaitaArm h a _scope m s) := by
  unfold execWaitaArm
  grind [State.mapCtx_memWf, issue_outWf, State.badDone_wf, !State.waitPart_memWf, State.addWatch_memWf, State.dropArmed_memWf,
    Done.wf]

theorem execWcancel_outWf (hs : s.memWf) (h : Hdr) (d : Dst) : outWf (execWcancel h d s) := by
  unfold execWcancel
  grind [State.putDst_memWf, issue_outWf, State.dropArmed_memWf, Done.wf]

theorem execSwait_outWf (hs : s.memWf) (h : Hdr) (sem : BitVec 8) (dec : Bool) (a : Src) (imm : BitVec 32) : outWf
    (execSwait h sem dec a imm s) := by
  unfold execSwait
  grind [issue_outWf, State.trapDone_wf, Done.wf, State.memWf]

theorem execSsig_outWf (hs : s.memWf) (h : Hdr) (sem : BitVec 8) (set : Bool) (a : Src) (imm : BitVec 32) : outWf
    (execSsig h sem set a imm s) := by
  unfold execSsig
  grind [State.raiseAfter_memWf, issue_outWf, State.trapDone_wf, Done.wf, State.memWf]

/-! ### Group CAP -/

theorem State.sealCap_memWf (hs : s.memWf) (c : Cap) : (s.sealCap c).2.memWf := hs

theorem State.openSeal_memWf (hs : s.memWf) (b : BitVec 128) : (s.openSeal b).1.memWf := by
  unfold State.openSeal
  grind [!State.window_memWf]

theorem execCld_outWf (hs : s.memWf) (h : Hdr) (o : CapMemOp) : outWf (execCld h o s) := by
  refine issueIf_outWf hs _ _ _ _ fun t ht => ?_
  have h1 := State.memAccess_memWf ht [] o.m 16 16 [permR] .read
  split
  · next e =>
    rw [e] at h1
    exact State.badDone_wf h1 _
  · next u ps e =>
    rw [e] at h1
    have h2 := State.loadElem_memWf h1 (partsOf ps) (u.ownBytes (partsOf ps))
    split
    · trivial
    · split
      · next e =>
        rw [e] at h2
        exact State.deferTrap_memWf h2 ..
      · next e =>
        rw [e] at h2
        exact h2
      · next n _ e =>
        rw [e] at h2
        have h3 := State.openSeal_memWf h2 (BitVec.ofNat 128 n)
        split <;> next e => rw [e] at h3; exact h3

theorem execCst_outWf (hs : s.memWf) (h : Hdr) (o : CapMemOp) : outWf (execCst h o s) := by
  unfold execCst
  grind [issue_outWf, State.badDone_wf, !State.memAccess_memWf, storeDone_wf, !State.sealCap_memWf]

theorem execCnarrow_outWf (hs : s.memWf) (h : Hdr) (o : CNarrowOp) : outWf (execCnarrow h o s) := by
  unfold execCnarrow
  grind [!State.window_memWf, issueIf_outWf, State.trapDone_wf, State.badDone_wf, Done.wf, State.memWf]

theorem execCinfo_outWf (hs : s.memWf) (h : Hdr) (fld : Fin 5) (d : Dst) (cs : Fin 16) : outWf (execCinfo h fld d cs s) := by
  unfold execCinfo
  grind [State.putDst_memWf, !State.window_memWf, issue_outWf, State.trapDone_wf, State.badDone_wf, Done.wf]

theorem execCchk_outWf (hs : s.memWf) (h : Hdr) (o : CChkOp) : outWf (execCchk h o s) := by
  unfold execCchk
  grind [State.putPred_memWf, !State.window_memWf, issue_outWf, Done.wf]

end Sys2Proof.Machine
end

section
/-!
SUPPORT. The engines and the scheduler keep the canonical form: the groups COPY to CONT, and what ends a step.
-/

namespace Sys2Proof.Machine

-- Many short proofs in a row: each is elaborated before the next, so that none waits for another in a thread of its own.
set_option Elab.async false

variable {s t u : State}

/-! ### Group COPY -/

theorem execCstat_outWf (hs : s.memWf) (h : Hdr) (sel : Fin 4) (d : Dst) (p : Fin 8) (a : Src) (imm : BitVec 32) : outWf
    (execCstat h sel d p a imm s) := by
  unfold execCstat
  grind [State.putPred_memWf, State.putDst_memWf, issue_outWf, Done.wf]

theorem State.sliceStore_memWf (hs : s.memWf) (a : Nat) (bs : List Byte) : (s.sliceStore a bs).memWf := hs

theorem State.putLocal_memWf (hs : s.memWf) (e : Ep) (off : Int) (bs : List Byte) : (s.putLocal e off bs).memWf := by
  unfold State.putLocal
  grind [State.sliceStore_memWf, State.memWf]

theorem State.rdEp_memWf (hs : s.memWf) (seen : Seen) (e : Ep) (off : Int) (n : Nat) : (s.rdEp seen e off n).1.memWf := by
  unfold State.rdEp
  grind [!State.access_memWf, !State.viewPart_memWf, !State.readWith_memWf]

theorem State.rdAll_memWf (hs : s.memWf) (seen : Seen) (l : List (Ep × Int × Nat)) : (s.rdAll seen l).1.memWf := by
  induction l generalizing s seen with
  | nil =>
    unfold State.rdAll
    grind
  | cons x l ih =>
    unfold State.rdAll
    grind [!State.rdEp_memWf]

theorem State.wrParts_memWf (hs : s.memWf) (perm : Nat) (l : List (Ep × Int × List Byte)) : (s.wrParts perm l).1.memWf := by
  induction l generalizing s perm with
  | nil =>
    unfold State.wrParts
    grind
  | cons x l ih =>
    unfold State.wrParts
    grind [!State.access_memWf]

theorem State.copyStore_memWf (hs : s.memWf) (tag : BitVec 16) (ws : List (Ep × Int × List Byte)) :
    (s.copyStore tag ws).1.memWf := by
  unfold State.copyStore
  grind [→ State.appendRecs_memWf, !State.writePlaced_memWf, !State.recallPlaced_memWf, State.putLocal_memWf, !State.wrParts_memWf,
    foldl_memWf]

theorem State.moveGran_memWf (hs : s.memWf) (m : CCmd) (rd : List (Ep × Int × Nat))
    (f : List (List Byte) → List (Ep × Int × List Byte)) : (s.moveGran m rd f).1.memWf := by
  unfold State.moveGran
  grind [!State.rdAll_memWf, !State.copyStore_memWf]

theorem State.refRead_memWf (hs : s.memWf) (w : Word) (align n : Nat) : (s.refRead w align n).1.memWf := by
  unfold State.refRead
  grind [!State.rdEp_memWf]

theorem State.cpynGran_memWf (hs : s.memWf) (m : CCmd) (i : Nat) : (s.cpynGran m i).1.memWf := by
  unfold State.cpynGran
  grind [!State.moveGran_memWf]

theorem State.cpytGran_memWf (hs : s.memWf) (m : CCmd) (cord : Bool) (i : Nat) : (s.cpytGran m cord i).1.memWf := by
  unfold State.cpytGran
  grind [!State.moveGran_memWf]

theorem State.cordHeaders_memWf (hs : s.memWf) (m : CCmd) : (s.cordHeaders m).memWf := by
  unfold State.cordHeaders
  grind [State.putLocal_memWf, foldl_memWf]

theorem State.rowGran_memWf (hs : s.memWf) (m : CCmd) (gather : Bool) (i : Nat) : (s.rowGran m gather i).1.memWf := by
  unfold State.rowGran
  grind [!State.moveGran_memWf]

theorem State.reduceParts_memWf (hs : s.memWf) (e : Ep) (off : Int) (bs : List Byte) : (s.reduceParts e off bs).1.memWf := by
  unfold State.reduceParts
  grind [!State.access_memWf]

theorem State.reduceInto_memWf (hs : s.memWf) (m : CCmd) (op : RedKind) (ty : EType) (e : Ep) (off : Int) (bs : List Byte) :
    (s.reduceInto m op ty e off bs).1.memWf := by
  unfold State.reduceInto
  grind [!State.homeWrite_memWf, !State.homeNat_memWf, !State.doRed_memWf, !State.rdEp_memWf, !State.copyStore_memWf,
    !State.reduceParts_memWf, foldl_memWf, foldl_fst_memWf]

theorem State.credGran_memWf (hs : s.memWf) (m : CCmd) (i : Nat) : (s.credGran m i).1.memWf := by
  unfold State.credGran
  grind [!State.rdEp_memWf, !State.reduceInto_memWf]

theorem State.reduceOk_memWf (hs : s.memWf) (m : CCmd) (e : Ep) (off : Int) (bs : List Byte) : (s.reduceOk m e off bs).1.memWf := by
  unfold State.reduceOk
  grind [!State.rdEp_memWf, !State.reduceParts_memWf]

theorem State.credcGran_memWf (hs : s.memWf) (m : CCmd) (i : Nat) : (s.credcGran m i).1.memWf := by
  unfold State.credcGran
  grind [!State.rdAll_memWf, !State.copyStore_memWf, !State.reduceInto_memWf, !State.reduceOk_memWf]

theorem State.joinColl_memWf (hs : s.memWf) (g : GroupRec) (p : CollPart) : (s.joinColl g p).memWf := hs

theorem State.touchColl_memWf (hs : s.memWf) (g : GroupRec) : (s.touchColl g).memWf := by
  unfold State.touchColl
  grind [!State.peek_memWf, foldl_memWf]

theorem State.collGran_memWf (hs : s.memWf) (m : CCmd) (i : Nat) : (s.collGran m i).1.memWf := by
  unfold State.collGran
  grind [!State.copyStore_memWf, State.touchColl_memWf]

theorem State.leaveColl_memWf (hs : s.memWf) (m : CCmd) : (s.leaveColl m).memWf := by
  unfold State.leaveColl
  grind [State.memWf]

theorem State.sendBulk_memWf (hs : s.memWf) (m : CCmd) : (s.sendBulk m).memWf := by
  unfold State.sendBulk
  grind [!State.access_memWf, State.sendAt_memWf]

theorem State.bulkPart_memWf (hs : s.memWf) (p : Part) : (s.bulkPart p).1.memWf := by
  unfold State.bulkPart
  grind [!State.homeRead_memWf, !State.viewPart_memWf]

theorem State.cbgetGran_memWf (hs : s.memWf) (m : CCmd) (i : Nat) : (s.cbgetGran m i).1.memWf := by
  unfold State.cbgetGran
  grind [!State.access_memWf, !State.readWith_memWf, !State.copyStore_memWf, !State.bulkPart_memWf]

theorem State.draftAt_memWf (hs : s.memWf) (die idx n : Nat) (need : Need) : (s.draftAt die idx n need).1.memWf :=
  State.devRange_memWf hs ..

theorem State.draftRead_memWf (hs : s.memWf) (die idx : Nat) : (s.draftRead die idx).1.memWf := by
  unfold State.draftRead
  grind [!State.peek_memWf]

theorem State.copyPromise_memWf (hs : s.memWf) (tag : BitVec 16) (spans : List Span) : (s.copyPromise tag spans).2.memWf := by
  unfold State.copyPromise
  grind [!State.newPromise_memWf]

theorem State.queueCopy_memWf (hs : s.memWf) (h : Hdr) (iw : BitVec 96) (op : CopyOp) (e : EHdr) (d : Vector Word 4)
    (spans : List Span) : (s.queueCopy h iw op e d spans).memWf := by
  unfold State.queueCopy
  grind [State.setCur_memWf, State.mapCtx_memWf, !State.copyPromise_memWf, State.memWf]

theorem copyIssue_outWf (hs : s.memWf) (strms : List Strm) (h : Hdr) (i : Instr) (op : CopyOp) (e : EHdr) (sel : List OReg) : outWf
    (copyIssue strms h i op e sel s) := by
  unfold copyIssue
  grind [issue_outWf, State.trapDone_wf, State.owned_wf, State.queueCopy_memWf, Done.wf]

theorem State.cpyGran_memWf (hs : s.memWf) (m : CCmd) (i : Nat) : (s.cpyGran m i).1.memWf := by
  unfold State.cpyGran
  grind [!State.moveGran_memWf]

theorem State.cfillGran_memWf (hs : s.memWf) (m : CCmd) (i : Nat) : (s.cfillGran m i).1.memWf := by
  unfold State.cfillGran
  grind [!State.copyStore_memWf]

theorem State.granule_memWf (hs : s.memWf) (m : CCmd) (i : Nat) : (s.granule m i).1.memWf := by
  unfold State.granule
  grind [!State.cpynGran_memWf, !State.cpytGran_memWf, !State.rowGran_memWf, !State.credGran_memWf, !State.credcGran_memWf,
    !State.collGran_memWf, !State.cbgetGran_memWf, !State.cpyGran_memWf, !State.cfillGran_memWf]

theorem granLoop_memWf (hs : s.memWf) (r : Run) (n : Nat) (m : Nat) : (granLoop s r n m).1.memWf := by
  induction n generalizing s r m with
  | zero =>
    unfold granLoop
    grind
  | succ f ih =>
    unfold granLoop
    grind [!State.granule_memWf]

theorem State.setCopy_memWf (hs : s.memWf) (m : CCmd) : (s.setCopy m).memWf := hs

theorem State.copyTrap_memWf (hs : s.memWf) (m : CCmd) (c : Cause) (info : Nat) (aux : Nat) (fva : Nat) :
    (s.copyTrap m c info aux fva).memWf := hs

theorem State.faultQueue_memWf (hs : s.memWf) (f : FqRec) : (s.faultQueue f).memWf := by
  unfold State.faultQueue
  grind [State.eventDcc_memWf, State.coreAsh_memWf, State.memWf]

theorem State.copyFault_memWf (hs : s.memWf) (m : CCmd) (unit : Nat) (c : Cause) (fva : Nat) :
    (s.copyFault m unit c fva).memWf := by
  unfold State.copyFault
  grind [State.setCopy_memWf, State.copyTrap_memWf, State.faultQueue_memWf]

theorem State.draftWrite_memWf (hs : s.memWf) (ps : List PPart) (bs : List Byte) : (s.draftWrite ps bs).memWf := by
  unfold State.draftWrite
  grind [!State.homeWrite_memWf, foldl_memWf]

theorem State.draftStatus_memWf (hs : s.memWf) (die idx st : Nat) : (s.draftStatus die idx st).memWf := by
  unfold State.draftStatus
  grind [!State.devRange_memWf, State.draftWrite_memWf]

theorem State.draftBegin_memWf (hs : s.memWf) (m : CCmd) : (s.draftBegin m).1.memWf := by
  unfold State.draftBegin
  split
  · next pg w _ _ =>
    have h := State.access_memWf hs s.tenant s.core.caps[pg.cap] pg.off (65536 * max 1 w.pages) 1 [permR] .read
    split
    · next e =>
      rw [e] at h
      exact h
    · next e =>
      rw [e] at h
      grind [State.setCore_memWf, State.setDie_memWf, !State.draftAt_memWf, State.draftWrite_memWf, State.memWf]
  · exact hs

theorem State.tryDraft_go_memWf (hs : s.memWf) (m : CCmd) : (State.tryDraft.go s m).1.memWf := by
  unfold State.tryDraft.go
  grind [!State.draftBegin_memWf]

theorem State.tryDraft_memWf (hs : s.memWf) (m : CCmd) : (s.tryDraft m).1.memWf := by
  unfold State.tryDraft
  grind [State.tryDraft_go_memWf]

theorem State.beginCopy_memWf (hs : s.memWf) (m : CCmd) : (s.beginCopy m).1.memWf := by
  unfold State.beginCopy
  grind [!State.rdEp_memWf, !State.refRead_memWf, State.cordHeaders_memWf, State.joinColl_memWf, State.sendBulk_memWf,
    !State.tryDraft_memWf]

theorem execCopyCommandBegin_outWf (hs : s.memWf) : outWf (execCopyCommandBegin s) := by
  unfold execCopyCommandBegin
  grind [State.setCopy_memWf, State.copyFault_memWf, !State.beginCopy_memWf, outWf]

theorem State.signal_memWf (hs : s.memWf) (e : EHdr) {overflow : State → State} (hoverflow : ∀ t, t.memWf → (overflow t).memWf) :
    (s.signal e overflow).memWf := by
  unfold State.signal
  grind [State.setCore_memWf]

theorem State.finishCopy_memWf (hs : s.memWf) (m : CCmd) : (s.finishCopy m).memWf := by
  unfold State.finishCopy
  grind [State.setCore_memWf, State.showCopy_memWf, State.leaveColl_memWf, State.copyTrap_memWf, State.signal_memWf]

theorem execCopyCommandComplete_outWf (hs : s.memWf) (tag : BitVec 16) : outWf (execCopyCommandComplete tag s) := by
  unfold execCopyCommandComplete
  grind [!granLoop_memWf, State.setCopy_memWf, State.copyFault_memWf, !State.tryDraft_memWf, State.finishCopy_memWf, outWf]

theorem State.finishGran_memWf (hs : s.memWf) (m : CCmd) (n : Nat) : (s.finishGran m n).memWf := by
  induction n generalizing s m with
  | zero =>
    unfold State.finishGran
    grind
  | succ f ih =>
    unfold State.finishGran
    grind [!State.granule_memWf, State.setCopy_memWf]

theorem State.finishHeld_memWf (hs : s.memWf) : s.finishHeld.memWf := by
  unfold State.finishHeld
  grind [State.finishGran_memWf, foldl_memWf]

theorem State.draftEnd_memWf (hs : s.memWf) (j : DraftJob) (st : Nat) : (s.draftEnd j st).memWf := by
  unfold State.draftEnd
  grind [State.focus_memWf, State.draftStatus_memWf, State.finishCopy_memWf, State.memWf]

theorem State.draftAsked_memWf (hs : s.memWf) (j : DraftJob) : (s.draftAsked j).memWf := hs

theorem execDraftFetch_outWf (hs : s.memWf) (idx : Nat) : outWf (execDraftFetch idx s) := by
  unfold execDraftFetch
  grind [!State.takeLease_memWf, !State.draftRead_memWf, State.draftStatus_memWf, State.draftEnd_memWf, State.draftAsked_memWf,
    outWf, foldl_fst_memWf]

theorem State.holdLease_memWf (hs : s.memWf) (page : Nat) (till : BitVec 64) : (s.holdLease page till).memWf := by
  unfold State.holdLease
  grind [State.memWf]

theorem execDraftArrival_outWf (hs : s.memWf) (idx : Nat) : outWf (execDraftArrival idx s) := by
  unfold execDraftArrival
  grind [!State.viewLine_memWf, !readLines_memWf, State.sliceStore_memWf, !State.draftRead_memWf, State.draftEnd_memWf,
    State.holdLease_memWf, outWf, foldl_memWf]

theorem State.draftStep_memWf (hs : s.memWf) (idx : BitVec 32) : (s.draftStep idx).1.memWf := by
  unfold State.draftStep
  grind [!State.draftRead_memWf]

theorem execDrstep_outWf (hs : s.memWf) (h : Hdr) (d : Dst) (a : Src) : outWf (execDrstep h d a s) := by
  unfold execDrstep
  grind [State.putDst_memWf, issue_outWf, !State.draftStep_memWf, Done.wf]

/-! ### Group VEC -/

theorem vecOp_outWf (hs : s.memWf) (g : Gate) (h : Hdr) (u : Use) (k : Fin 4) (ok : Shp → Bool) {eff : State → Shp → Done}
    (heff : ∀ t x, t.memWf → (eff t x).wf) : outWf (vecOp g h u k ok eff s) := by
  unfold vecOp
  grind [issue_outWf, State.trapDone_wf]

theorem State.putTiles_memWf (hs : s.memWf) (ws : List (Tile × List (Nat × Nat))) : (s.putTiles ws).memWf := hs

theorem State.vecGo_wf (hs : s.memWf) (rd : List (Tile × List Nat)) (ws : List (Tile × List (Nat × Nat))) {post : State → State}
    (hpost : ∀ t, t.memWf → (post t).memWf) : (s.vecGo rd ws post).wf := by
  unfold State.vecGo
  grind [State.owned_wf, State.putTiles_memWf, Done.wf]

theorem elemOp_outWf (hs : s.memWf) (h : Hdr) (srcs : List Src) (v : VCom) (ok : EType → EType → Bool) (vd : BitVec 10)
    (ins : Shp → List (Tile × (Nat → Nat))) (f : State → Shp → Nat → Nat) : outWf (elemOp h srcs v ok vd ins f s) := by
  unfold elemOp
  grind [vecOp_outWf, State.vecGo_wf]

theorem vecArith_outWf (hs : s.memWf) (h : Hdr) (o : VBin) (ff : EType → RMode → Bool → Nat → Nat → Nat) (fi : Int → Int → Int) :
    outWf (vecArith h o ff fi s) :=
  elemOp_outWf hs ..

theorem vecBin_outWf (hs : s.memWf) (h : Hdr) (o : VBit) (ok : EType → EType → Bool) (f : EType → Nat → Nat → Nat) : outWf
    (vecBin h o ok f s) :=
  elemOp_outWf hs ..

theorem vecSign_outWf (hs : s.memWf) (h : Hdr) (o : VAbsOp) (ff : Nat → Nat → Nat) (fi : Int → Int) : outWf (vecSign h o ff fi s) :=
  elemOp_outWf hs ..

theorem State.putMask_memWf (hs : s.memWf) (k : Fin 16) (v : BitVec 1024) : (s.putMask k v).memWf := hs

theorem execVcmp_outWf (hs : s.memWf) (h : Hdr) (o : VCmpOp) : outWf (execVcmp h o s) := by
  unfold execVcmp
  grind [vecOp_outWf, State.vecGo_wf, State.putMask_memWf]

theorem execVqntMx_outWf (hs : s.memWf) (h : Hdr) (o : VUn3) : outWf (execVqntMx h o s) := by
  unfold execVqntMx
  grind [vecOp_outWf, State.vecGo_wf]

/-! ### Group MTX -/

theorem State.queueMtx_memWf (hs : s.memWf) (h : Hdr) (iw : BitVec 96) (op : MtxOp) (e : EHdr) (d : Vector Word 4) :
    (s.queueMtx h iw op e d).memWf := hs

theorem mtxIssue_outWf (hs : s.memWf) (h : Hdr) (i : Instr) (op : MtxOp) (e : EHdr) (sel : List OReg) : outWf
    (mtxIssue h i op e sel s) := by
  unfold mtxIssue
  grind [issue_outWf, State.trapDone_wf, State.owned_wf, State.queueMtx_memWf, Done.wf]

theorem State.mtxFault_memWf (hs : s.memWf) (m : MCmd) (c : Cause) (kp : Nat) : (s.mtxFault m c kp).memWf := by
  unfold State.mtxFault
  grind [State.pendOn_memWf, State.faultQueue_memWf, State.memWf]

theorem State.finishMtx_memWf (hs : s.memWf) (m : MCmd) : (s.finishMtx m).memWf := by
  unfold State.finishMtx
  grind [State.setCore_memWf, State.pendOn_memWf, State.signal_memWf]

theorem State.endMtx_memWf (hs : s.memWf) (m : MCmd) : (s.endMtx m).memWf := by
  unfold State.endMtx
  grind [State.setCore_memWf, State.mtxFault_memWf, State.finishMtx_memWf]

theorem execMatrixCommandBegin_outWf (hs : s.memWf) : outWf (execMatrixCommandBegin s) := by
  unfold execMatrixCommandBegin
  grind [State.mtxFault_memWf, outWf, State.memWf]

theorem execMatrixCommandComplete_outWf (hs : s.memWf) : outWf (execMatrixCommandComplete s) := by
  unfold execMatrixCommandComplete
  grind [State.endMtx_memWf, outWf]

theorem State.stopMma_memWf (hs : s.memWf) (m : MCmd) (o : Mma) : (s.stopMma m o).1.memWf := hs

theorem execMstop_outWf (hs : s.memWf) (h : Hdr) (o : RUn) : outWf (execMstop h o s) := by
  unfold execMstop
  grind [State.setCore_memWf, State.putDst_memWf, issue_outWf, State.trapDone_wf, State.owned_wf, State.endMtx_memWf,
    !State.stopMma_memWf, Done.wf]

theorem execMstat_outWf (hs : s.memWf) (h : Hdr) (sel : Fin 3) (d : Dst) (p : Fin 8) : outWf (execMstat h sel d p s) := by
  unfold execMstat
  grind [State.putPred_memWf, State.putDst_memWf, issue_outWf, Done.wf, State.memWf]

/-! ### Group UPD -/

theorem updOp_outWf (hs : s.memWf) (h : Hdr) (o : UOp) (ks : List Nat) (rd : Shp → List Tile) (mom : List (BitVec 10))
    (f : State → Shp → Nat → Nat × List Nat) : outWf (updOp h o ks rd mom f s) := by
  unfold updOp
  grind [vecOp_outWf, State.vecGo_wf]

/-! ### Group EXP -/

theorem State.sendEnq_wf (hs : s.memWf) (h : Hdr) (d : Dst) (rl p : Bool) (rick : Nat) (recs : List (List Byte)) :
    (s.sendEnq h d rl p rick recs).wf := by
  unfold State.sendEnq
  grind [State.trapDone_wf, State.sendRel_wf]

theorem execXenq_outWf (hs : s.memWf) (h : Hdr) (d : Dst) (a : Src) (k : Fin 16) (rl p : Bool) (imm : BitVec 32) : outWf
    (execXenq h d a k rl p imm s) := by
  unfold execXenq
  grind [issueIf_outWf, State.sendEnq_wf]

theorem execXenqTile_outWf (hs : s.memWf) (h : Hdr) (d : Dst) (a w : Src) (rl p : Bool) (imm : BitVec 32) : outWf
    (execXenqTile h d a w rl p imm s) := by
  unfold execXenqTile
  grind [issueIf_outWf, State.trapDone_wf, State.owned_wf, State.sendEnq_wf]

theorem execXdeq_outWf (hs : s.memWf) (h : Hdr) (d : Dst) (a b c : Src) (imm : BitVec 32) : outWf (execXdeq h d a b c imm s) := by
  unfold execXdeq
  grind [State.putDst_memWf, State.deferTrap_memWf, issue_outWf, State.trapDone_wf, State.owned_wf, Done.wf, State.memWf]

theorem rickOp_outWf (hs : s.memWf) (h : Hdr) (d : Dst) (a : Src) (imm : BitVec 32) (kind : Nat → AccKind) : outWf
    (rickOp h d a imm kind s) := by
  unfold rickOp
  grind [issue_outWf, State.trapDone_wf, State.sendRel_wf]

theorem State.retireStep_memWf (hs : s.memWf) (f : Firing) : (s.retireStep f).memWf :=
  State.mapCtx_memWf (State.retireFiring_memWf hs ..) ..

theorem execXdone_outWf (hs : s.memWf) (h : Hdr) : outWf (execXdone h s) := by
  unfold execXdone
  grind [issue_outWf, State.trapDone_wf, State.retireStep_memWf, Done.wf]

theorem execXcmb_outWf (hs : s.memWf) (h : Hdr) (o : AcqOp) : outWf (execXcmb h o s) := by
  unfold execXcmb
  grind [issue_outWf, State.trapDone_wf, State.badDone_wf, !State.memAccess_memWf, State.sendRel_wf, Done.wf]

theorem State.rickUnit_memWf (hs : s.memWf) (die : Nat) : (s.rickUnit die).memWf := by
  unfold State.rickUnit
  grind [!State.rickPick_memWf, State.fireRick_memWf]

theorem execRickAgeExpiry_outWf (hs : s.memWf) (r : Nat) : outWf (execRickAgeExpiry r s) := by
  unfold execRickAgeExpiry
  grind [!State.rickCfg_memWf, State.rickUnit_memWf, outWf]

/-! ### Rollback -/

theorem State.discardWork_memWf (hs : s.memWf) : s.discardWork.memWf := by
  unfold State.discardWork
  grind [State.drainAccs_memWf, State.discardOpen_memWf, State.finishHeld_memWf, State.memWf]

theorem State.rollbackStep_memWf (hs : s.memWf) : s.rollbackStep.memWf := by
  unfold State.rollbackStep
  grind [State.makeReady_memWf, State.leaveCore_memWf, State.discardWork_memWf]

theorem State.fenceCore_memWf (hs : s.memWf) (cause : Nat) (n : Nat) : (s.fenceCore cause n).memWf := by
  unfold State.fenceCore
  grind [State.focus_memWf, State.coreAsh_memWf, State.rollbackStep_memWf]

theorem State.fenceDomain_memWf (hs : s.memWf) (fdom cause : Nat) : (s.fenceDomain fdom cause).memWf := by
  unfold State.fenceDomain
  grind [State.setFence_memWf, State.fenceCore_memWf, foldl_memWf]

theorem State.faultStep_memWf (hs : s.memWf) (t : Trap) : (s.faultStep t).memWf := by
  unfold State.faultStep
  grind [State.eventDcc_memWf, State.setCont_memWf, State.leaveCore_memWf, State.faultMessage_memWf, State.discardWork_memWf,
    State.fenceDomain_memWf]

theorem State.endByTraps_memWf (hs : s.memWf) : s.endByTraps.memWf := by
  unfold State.endByTraps
  grind [State.trapAsh_memWf, State.rollbackStep_memWf, State.faultStep_memWf, foldl_memWf]

/-! ### Group CONT -/

theorem State.spillClosed_memWf (hs : s.memWf) : s.spillClosed.memWf := by
  unfold State.spillClosed
  grind [State.spill_memWf, foldl_memWf]

theorem State.appendSlow_memWf (hs : s.memWf) (l : List Rec) {t : State} (h : s.appendSlow l = .ok t) : t.memWf := by
  induction l generalizing s with
  | nil =>
    unfold State.appendSlow at h
    grind
  | cons x l ih =>
    unfold State.appendSlow at h
    grind [→ State.appendRecs_memWf, State.spillClosed_memWf]

theorem State.writeFrame_memWf (hs : s.memWf) (frame : Nat) (bs : List Byte) {t : State} (h : s.writeFrame frame bs = .ok t) :
    t.memWf := by
  unfold State.writeFrame at h
  grind [!State.range_memWf, !State.writePlaced_memWf, !State.recallPlaced_memWf, → State.appendSlow_memWf]

theorem State.writeFrame_error_wf (hs : s.memWf) (frame : Nat) (bs : List Byte) {e : EndBad} (h : s.writeFrame frame bs = .error e)
    : e.wf := by
  unfold State.writeFrame at h
  grind [!State.range_memWf, !State.recallPlaced_memWf, EndBad.wf]

theorem State.writeEnd_memWf (hs : s.memWf) (x : StepCtx) (c : Cont) {t : State} (h : s.writeEnd x c = .ok t) : t.memWf := by
  unfold State.writeEnd at h
  grind [→ State.appendSlow_memWf, → State.writeFrame_memWf]

theorem State.writeEnd_error_wf (hs : s.memWf) (x : StepCtx) (c : Cont) {e : EndBad} (h : s.writeEnd x c = .error e) : e.wf := by
  unfold State.writeEnd at h
  grind [→ State.writeFrame_error_wf, EndBad.wf]

theorem State.sealSlow_memWf (hs : s.memWf) (pool : Bool) (flag : Option Nat) (commit : Bool) {q : State × RelSt}
    (h : s.sealSlow pool flag commit = .ok q) : q.1.memWf := by
  unfold State.sealSlow at h
  grind [→ State.sealFor_memWf, State.spillClosed_memWf]

theorem State.sealSlow_error_wf (pool : Bool) (flag : Option Nat) (commit : Bool) {e : EndBad}
    (h : s.sealSlow pool flag commit = .error e) : e.wf := by
  unfold State.sealSlow at h
  grind [EndBad.wf]

theorem State.dropHeld_memWf (hs : s.memWf) (x : StepCtx) : (s.dropHeld x).memWf := by
  unfold State.dropHeld
  grind [State.eventDcc_memWf, State.coreAsh_memWf, State.faultMessage_memWf, State.fenceDomain_memWf, foldl_memWf]

theorem State.closeStep_memWf (hs : s.memWf) (x : StepCtx) (p : EndPlan) {q : State × Cont} (h : s.closeStep x p = .ok q) :
    q.1.memWf := by
  unfold State.closeStep at h
  grind [!State.finishRelease_memWf, State.leaveCore_memWf, → State.writeEnd_memWf, → State.sealSlow_memWf, State.dropHeld_memWf,
    State.memWf]

theorem State.closeStep_error_wf (hs : s.memWf) (x : StepCtx) (p : EndPlan) {e : EndBad} (h : s.closeStep x p = .error e) :
    e.wf := by
  unfold State.closeStep at h
  grind [→ State.writeEnd_error_wf, → State.sealSlow_error_wf, EndBad.wf]

theorem State.park_memWf (hs : s.memWf) (c : Cont) (due : BitVec 64) (idx : Nat) : (s.park c due idx).memWf := by
  unfold State.park
  grind [State.devStore_memWf, State.setCont_memWf, State.memWf]

theorem State.suspend_memWf (hs : s.memWf) (c : Cont) : (s.suspend c).memWf := by
  unfold State.suspend
  grind [State.setCont_memWf, State.makeReady_memWf]

theorem State.armCombine_memWf (hs : s.memWf) (c : Cont) (a : Nat) : (s.armCombine c a).memWf := by
  unfold State.armCombine
  grind [State.devAtomic_memWf, State.setCont_memWf, State.makeReady_memWf]

theorem State.freeDone_memWf (hs : s.memWf) (c : Cont) (fault : Bool) (final : Option RelWord) :
    (s.freeDone c fault final).memWf := by
  unfold State.freeDone
  grind [State.freeCont_memWf, State.countFreed_memWf, State.freeFiring_memWf]

theorem State.endBad_wf (hs : s.memWf) {e : EndBad} (he : e.wf) : (s.endBad e).wf := by
  cases e with
  | bill b => exact State.noBillet_wf hs b
  | bad t b => exact State.badDone_wf he b
  | wait t => exact he
  | pois info aux => exact hs

theorem State.endBy_wf (hs : s.memWf) (x : StepCtx) (p : EndPlan) {post : State → Cont → State}
    (hpost : ∀ t x, t.memWf → (post t x).memWf) : (s.endBy x p post).wf := by
  unfold State.endBy
  grind [→ State.closeStep_memWf, State.endBad_wf, → State.closeStep_error_wf, Done.wf]

theorem State.goOn_memWf (hs : s.memWf) : s.goOn.memWf := by
  unfold State.goOn
  grind [State.memWf]

theorem State.joinDone_memWf (hs : s.memWf) (w : RelWord) : (s.joinDone w).memWf := by
  unfold State.joinDone
  grind [State.mapCur_memWf, !State.acquire_memWf, State.deferAux_memWf, State.goOn_memWf]

theorem State.slotOf_memWf (hs : s.memWf) (a : Nat) : (s.slotOf a).1.memWf := by
  unfold State.slotOf
  grind [!State.range_memWf]

theorem State.joinParts_memWf (hs : s.memWf) (va ten : Nat) (dev : Bool) : (s.joinParts va ten dev).1.memWf := by
  unfold State.joinParts
  grind [!State.range_memWf]

theorem State.slotOf_error_wf (hs : s.memWf) {a : Nat} {e : EndBad} (h : s.slotOf a = (t, .error e)) : e.wf := by
  unfold State.slotOf at h
  grind [!State.range_memWf, EndBad.wf]

/-- The 24 bytes of a JOIN as the meeting reads them. -/
theorem readWith_homes_memWf (hs : s.memWf) (ps : List Part) :
    (s.readWith (fun t q => if q.pois then (t, List.replicate q.len (0, true)) else t.homeRead q.addr q.len) ps).1.memWf := by
  refine State.readWith_memWf (fun t q ht => ?_) hs ps
  split
  · exact ht
  · exact State.homeRead_memWf _ _ ht

theorem State.meet_wf (hs : s.memWf) (srcs : List Src) : (s.meet srcs).wf := by
  unfold State.meet
  split
  · trivial
  · dsimp only
    split
    · trivial
    · split
      case h_1 =>
        refine State.endBy_wf hs _ _ fun t c ht => ?_
        grind [State.suspend_memWf, State.armWatch_memWf, State.makeReady_memWf]
      case h_2 a _ =>
        have h := State.slotOf_memWf hs a.toNat
        split
        · next e =>
          have he := State.slotOf_error_wf hs e
          rw [e] at h
          exact State.endBad_wf h he
        · next e =>
          rw [e] at h
          exact State.endBy_wf h _ _ fun t c ht => State.armCombine_memWf ht _ _
      case h_3 => exact State.endBy_wf hs _ _ fun t c ht => State.makeReady_memWf ht _
      case h_4 =>
        split
        · exact State.trapDone_wf hs _
        · split
          · exact State.endBy_wf hs _ _ fun t c ht => State.makeReady_memWf ht _
          · split
            · trivial
            · exact State.endBy_wf hs _ _ fun t c ht => State.park_memWf ht _ _ _
      case h_5 va ten dev _ =>
        have h := State.joinParts_memWf hs va ten dev
        split
        · next e =>
          rw [e] at h
          exact State.badDone_wf h _
        · next t ps e =>
          rw [e] at h
          have k := readWith_homes_memWf h ps
          grind [State.endBad_wf, State.joinDone_memWf, State.popAll_memWf, State.endBy_wf, State.suspend_memWf, Done.wf, EndBad.wf]
      case h_6 => exact State.endBy_wf hs _ _ fun t c ht => State.freeDone_memWf ht _ _ _

theorem endOp_outWf (hs : s.memWf) (h : Hdr) (g : Gate) (srcs : List Src) (last : Bool) (tag : BitVec 7)
    {kind : State → State × Except Bad EndKind} (hkind : ∀ t, t.memWf → (kind t).1.memWf) : outWf
    (endOp h g srcs last tag kind s) := by
  unfold endOp
  grind [State.mapCur_memWf, issueIf_outWf, State.trapDone_wf, State.badDone_wf, State.meet_wf, Done.wf]

theorem execSusp_outWf (hs : s.memWf) (h : Hdr) (tag : BitVec 7) : outWf (execSusp h tag s) := by
  unfold execSusp
  grind [endOp_outWf]

theorem execSuspCmb_outWf (hs : s.memWf) (h : Hdr) (tag : BitVec 7) (a : Src) (imm : BitVec 32) : outWf
    (execSuspCmb h tag a imm s) := by
  unfold execSuspCmb
  grind [endOp_outWf]

theorem execYield_outWf (hs : s.memWf) (h : Hdr) (tag : BitVec 7) : outWf (execYield h tag s) := by
  unfold execYield
  grind [endOp_outWf]

theorem execTwheel_outWf (hs : s.memWf) (h : Hdr) (tag : BitVec 7) (a : Src) (imm : BitVec 32) : outWf
    (execTwheel h tag a imm s) := by
  unfold execTwheel
  grind [endOp_outWf]

theorem State.joinWord_memWf (hs : s.memWf) (m : MAddr) : (s.joinWord m).1.memWf := by
  unfold State.joinWord
  grind [!State.window_memWf, !State.memAccess_memWf]

theorem execJoin_outWf (hs : s.memWf) (h : Hdr) (tag : BitVec 7) (_scope : Scope) (m : MAddr) : outWf
    (execJoin h tag _scope m s) := by
  unfold execJoin
  grind [endOp_outWf, !State.joinWord_memWf]

theorem execExit_outWf (hs : s.memWf) (h : Hdr) : outWf (execExit h s) := by
  unfold execExit
  grind [endOp_outWf]

theorem State.nextFrom_memWf (hs : s.memWf) (f : Nat) : (State.nextFrom f s).1.memWf := by
  induction f generalizing s with
  | zero => exact hs
  | succ f ih =>
    have hh := State.header_memWf hs s.cur.shdr
    have hf := State.fetch_memWf hs s.cur.pc 12
    unfold State.nextFrom
    dsimp only
    split
    · split
      · next h e =>
        rw [e] at hh
        have hm := State.mapCur_memWf hh fun x => x.begin s.cur.shdr h
        refine ih ?_
        split <;> exact hm
      · next e =>
        rw [e] at hh
        exact hh
    · split
      · next e =>
        rw [e] at hf
        exact hf
      · next e =>
        rw [e] at hf
        split
        · exact ih (State.mapCur_memWf hf _)
        · exact ih (State.mapCur_memWf hf _)
        · exact hf
        · exact hf

theorem State.commitEnd_memWf (hs : s.memWf) : (s.commitEnd).1.memWf := by
  unfold State.commitEnd
  grind [State.advance_memWf, !State.nextFrom_memWf]

theorem State.commitNow_wf (hs : s.memWf) (h : Hdr) (p : Bool) (flag : Nat) (after : State) : (s.commitNow h p flag after).wf := by
  unfold State.commitNow
  grind [State.mapCur_memWf, State.mapCtx_memWf, State.addAcc_memWf, → State.writeEnd_memWf, → State.sealSlow_memWf,
    State.endBad_wf, → State.writeEnd_error_wf, → State.sealSlow_error_wf, Done.wf]

theorem execRelCommit_outWf (hs : s.memWf) (h : Hdr) (p : Bool) (m : MAddr) : outWf (execRelCommit h p m s) := by
  unfold execRelCommit
  grind [State.mapCur_memWf, issueIf_outWf, State.trapDone_wf, State.badDone_wf, !State.flagPart_memWf, State.commitNow_wf, Done.wf]

theorem execSpawn_outWf (hs : s.memWf) (h : Hdr) (d : Dst) (p : Bool) (m : MAddr) : outWf (execSpawn h d p m s) := by
  unfold execSpawn
  grind [!State.readPart_memWf, !State.readWith_memWf, issue_outWf, State.trapDone_wf, State.badDone_wf, !State.memAccess_memWf,
    State.sendRel_wf, Done.wf]

theorem liveOp_outWf (hs : s.memWf) (h : Hdr) (acc : Bool) (a b : Src) (imm : BitVec 32) : outWf (liveOp h acc a b imm s) := by
  unfold liveOp
  grind [State.charge_memWf, State.mapCtx_memWf, issue_outWf, State.trapDone_wf, Done.wf]

theorem execCtxliveClr_outWf (hs : s.memWf) (h : Hdr) : outWf (execCtxliveClr h s) := by
  unfold execCtxliveClr
  grind [State.mapCtx_memWf, issue_outWf, Done.wf]

end Sys2Proof.Machine
end

section
/-!
SUPPORT. The rest of the package keeps the canonical form: the group SYS, images, the scheduler, pool homes, ports, the host, 
reliability, bring-up, and the groups VRED to VSFU.
-/

namespace Sys2Proof.Machine

-- Many short proofs in a row: each is elaborated before the next, so that none waits for another in a thread of its own.
set_option Elab.async false

variable {s t u : State}

/-! ### Group SYS -/

theorem execTrap_outWf (hs : s.memWf) (h : Hdr) (code : BitVec 16) : outWf (execTrap h code s) := by
  unfold execTrap
  grind [State.raiseAfter_memWf, issue_outWf, Done.wf]

theorem execEret_outWf (hs : s.memWf) (h : Hdr) : outWf (execEret h s) := by
  unfold execEret
  grind [!State.header_memWf, State.returnTo_memWf, issue_outWf, State.trapDone_wf, State.fetchDone_wf, Done.wf]

theorem State.mapDie_memWf (hs : s.memWf) (f : Die → Die) : (s.mapDie f).memWf := hs

theorem State.setCsr_memWf (hs : s.memWf) (csr : BitVec 12) (v : Word) : (s.setCsr csr v).memWf := by
  unfold State.setCsr
  grind [State.mapCur_memWf, State.mapDie_memWf, State.memWf]

theorem execCsrr_outWf (hs : s.memWf) (h : Hdr) (d : Dst) (csr : BitVec 12) : outWf (execCsrr h d csr s) := by
  unfold execCsrr
  grind [State.putDst_memWf, issueIf_outWf, Done.wf]

theorem execCsrw_outWf (hs : s.memWf) (h : Hdr) (csr : BitVec 12) (a : Src) : outWf (execCsrw h csr a s) := by
  unfold execCsrw
  grind [issueIf_outWf, State.setCsr_memWf, Done.wf]

theorem csrx_outWf (hs : s.memWf) (h : Hdr) (d : Dst) (csr : BitVec 12) (a : Src) (f : Word → Word → Word) : outWf
    (csrx h d csr a f s) := by
  unfold csrx
  grind [State.putDst_memWf, issueIf_outWf, State.setCsr_memWf, Done.wf]

theorem State.dropTlb_memWf (hs : s.memWf) (pkg : Bool) (hit : TlbEnt → Bool) : (s.dropTlb pkg hit).memWf := by
  unfold State.dropTlb
  grind [State.putCore_memWf, foldl_memWf, State.memWf]

theorem State.mapCovered_memWf (hs : s.memWf) (pkg : Bool) (f : Core → Core) : (s.mapCovered pkg f).memWf := by
  unfold State.mapCovered
  grind [State.putCore_memWf, foldl_memWf]

theorem tlbinv_outWf (hs : s.memWf) (h : Hdr) (a b : Src) (imm : BitVec 32) (busy : State → Word → Word → Bool)
    {drop : State → Word → Word → State} (hdrop : ∀ t x y, t.memWf → (drop t x y).memWf) : outWf
    (tlbinv h a b imm busy drop s) := by
  unfold tlbinv
  grind [issue_outWf, Done.wf]

theorem execTlbinvVa_outWf (hs : s.memWf) (h : Hdr) (pkg : Bool) (a b : Src) (imm : BitVec 32) : outWf
    (execTlbinvVa h pkg a b imm s) := by
  unfold execTlbinvVa
  grind [State.dropTlb_memWf, tlbinv_outWf]

theorem execTlbinvTnt_outWf (hs : s.memWf) (h : Hdr) (pkg : Bool) (a b : Src) (imm : BitVec 32) : outWf
    (execTlbinvTnt h pkg a b imm s) := by
  unfold execTlbinvTnt
  grind [State.dropTlb_memWf, tlbinv_outWf]

theorem execTlbinvAll_outWf (hs : s.memWf) (h : Hdr) (pkg : Bool) (a b : Src) (imm : BitVec 32) : outWf
    (execTlbinvAll h pkg a b imm s) := by
  unfold execTlbinvAll
  grind [State.dropTlb_memWf, tlbinv_outWf]

theorem execTlbinvCap_outWf (hs : s.memWf) (h : Hdr) (pkg : Bool) (a b : Src) (imm : BitVec 32) : outWf
    (execTlbinvCap h pkg a b imm s) := by
  unfold execTlbinvCap
  grind [State.mapCovered_memWf, tlbinv_outWf]

theorem execTlbinvIc_outWf (hs : s.memWf) (h : Hdr) (pkg : Bool) (a b : Src) (imm : BitVec 32) : outWf
    (execTlbinvIc h pkg a b imm s) := by
  unfold execTlbinvIc
  grind [State.mapCovered_memWf, tlbinv_outWf]

theorem State.rawRange_memWf (hs : s.memWf) (va n : Nat) (need : Need) : (s.rawRange va n need).1.memWf := by
  unfold State.rawRange
  grind [!State.range_memWf]

theorem State.rawRead_memWf (hs : s.memWf) (ps : List Part) : (s.rawRead ps).1.memWf := by
  unfold State.rawRead
  grind [!State.viewPart_memWf, !State.readWith_memWf]

theorem execSemmap_outWf (hs : s.memWf) (h : Hdr) (zero : Bool) (d : Dst) (a b : Src) (imm : BitVec 32) : outWf
    (execSemmap h zero d a b imm s) := by
  unfold execSemmap
  grind [State.putCore_memWf, State.putDst_memWf, issue_outWf, State.trapDone_wf, State.badDone_wf, !State.rawRange_memWf,
    !State.rawRead_memWf, Done.wf]

theorem State.mintEntry_memWf (hs : s.memWf) (ten obj : Nat) (desc : Option (List Byte)) : (s.mintEntry ten obj desc).1.memWf := by
  unfold State.mintEntry
  grind [State.mapCores_memWf, !State.homeWrite_memWf]

theorem State.mintDone_wf (hs : s.memWf) (d : Dst) (ten obj : Nat) (desc : Option (List Byte)) (ok : Bool) :
    (s.mintDone d ten obj desc ok).wf := by
  unfold State.mintDone
  grind [State.putDst_memWf, !State.mintEntry_memWf, Done.wf]

theorem execCmintMint_outWf (hs : s.memWf) (h : Hdr) (d : Dst) (a b c : Src) (imm : BitVec 32) : outWf
    (execCmintMint h d a b c imm s) := by
  unfold execCmintMint
  grind [issue_outWf, State.trapDone_wf, State.badDone_wf, !State.rawRange_memWf, !State.rawRead_memWf, State.mintDone_wf]

theorem execCmintRevoke_outWf (hs : s.memWf) (h : Hdr) (d : Dst) (a b c : Src) (imm : BitVec 32) : outWf
    (execCmintRevoke h d a b c imm s) := by
  unfold execCmintRevoke
  grind [issue_outWf, State.badDone_wf, !State.rawRange_memWf, State.mintDone_wf]

theorem execHaltWfi_outWf (hs : s.memWf) (h : Hdr) : outWf (execHaltWfi h s) := by
  unfold execHaltWfi
  grind [issue_outWf, Done.wf]

theorem execHaltStop_outWf (hs : s.memWf) (h : Hdr) : outWf (execHaltStop h s) := by
  unfold execHaltStop
  grind [State.advance_memWf, State.haltCore_memWf, issue_outWf, Done.wf]

theorem State.raiseAsync_memWf (hs : s.memWf) (t : Trap) : (s.raiseAsync t).memWf := by
  unfold State.raiseAsync
  grind [State.mapCtx_memWf, State.pendOn_memWf]

theorem State.queueTrap_memWf (hs : s.memWf) : s.queueTrap.memWf := by
  unfold State.queueTrap
  grind [State.raise_memWf, State.memWf]

theorem execQueueStallExpiry_outWf (hs : s.memWf) : outWf (execQueueStallExpiry s) := by
  unfold execQueueStallExpiry
  grind [State.queueTrap_memWf, outWf]

theorem State.watchdogFire_memWf (hs : s.memWf) : s.watchdogFire.memWf := by
  unfold State.watchdogFire
  grind [State.mapCtx_memWf, State.raiseAsync_memWf]

/-! ### Images -/

theorem State.sealAll_memWf (hs : s.memWf) : (s.sealAll).1.memWf := by
  unfold State.sealAll
  grind [!State.sealCap_memWf, foldl_fst_memWf]

theorem State.imageOf_memWf (hs : s.memWf) (x : StepCtx) : (s.imageOf x).1.memWf := by
  unfold State.imageOf
  grind [!State.sealAll_memWf, State.memWf]

theorem State.moveWork_memWf (hs : s.memWf) (a b : Nat) : (s.moveWork a b).memWf := hs
theorem State.restoreCore_memWf (hs : s.memWf) (bs : List Byte) (ps : ImgParts) (k : Cont) : (s.restoreCore bs ps k).memWf := hs

theorem State.resumeSleeps_memWf (hs : s.memWf) : s.resumeSleeps.memWf := by
  unfold State.resumeSleeps
  extract_lets fix
  have hf (t : State) (k : Strm) (ht : t.memWf) : (fix t k).memWf := by
    unfold fix
    have h1 := memWf_who ht k
    have h2 (a : BitVec 32) := State.sleepAt_memWf h1 a 3 0
    extract_lets v x w
    have hw : w.memWf := by
      unfold w
      split
      · exact State.mapCur_memWf (h2 _) _
      · exact h1
    clear_value w
    have h3 := State.sleepAt_memWf hw (x.tf[1].extractLsb' 0 32) 3 0
    split
    · split
      · exact State.mapCur_memWf h3 _
      · exact hw
    · exact hw
  exact hf _ _ (hf _ _ (hf _ _ hs))

theorem State.resumeDrafts_memWf (hs : s.memWf) (k : Strm) : (s.resumeDrafts k).memWf := hs

theorem State.resumeFaults_memWf (hs : s.memWf) : s.resumeFaults.memWf := by
  unfold State.resumeFaults
  grind [State.pendOn_memWf, State.copyTrap_memWf, foldl_memWf, State.memWf]

theorem State.resumeCopies_memWf (hs : s.memWf) : s.resumeCopies.memWf := by
  unfold State.resumeCopies
  grind [!State.refRead_memWf, State.setCopy_memWf, State.finishCopy_memWf, foldl_memWf]

theorem State.reopenBillet_memWf (hs : s.memWf) : s.reopenBillet.memWf := by
  unfold State.reopenBillet
  grind [State.setLog_memWf]

theorem State.resumeWatch_memWf (hs : s.memWf) (pa : Nat) : (s.resumeWatch pa).memWf := hs

theorem State.resumeStep_memWf (hs : s.memWf) (bs : List Byte) (ps : ImgParts) (k : Cont) : (s.resumeStep bs ps k).memWf := by
  unfold State.resumeStep
  grind [State.setCont_memWf, State.moveWork_memWf, State.restoreCore_memWf, State.resumeSleeps_memWf, State.resumeDrafts_memWf,
    State.resumeFaults_memWf, State.resumeCopies_memWf, State.reopenBillet_memWf, State.resumeWatch_memWf, State.memWf]

theorem State.readImage_memWf (hs : s.memWf) (ten va : Nat) : (s.readImage ten va).1.memWf := by
  unfold State.readImage
  grind [!State.peek_memWf]

theorem State.drainCore_memWf (hs : s.memWf) : (s.drainCore).1.memWf := by
  unfold State.drainCore
  grind [State.finishMtx_memWf, State.endMtx_memWf, !State.stopMma_memWf, State.memWf]

theorem State.spillAll_memWf (hs : s.memWf) : s.spillAll.memWf := by
  unfold State.spillAll
  grind [State.writeBillet_memWf, State.mapBillet_memWf, foldl_memWf]

theorem State.unload_memWf (hs : s.memWf) (x : StepCtx) (va : Nat) : (s.unload x va).memWf := by
  unfold State.unload
  grind [State.charge_memWf, State.uncharge_memWf, State.makeReady_memWf, State.moveWork_memWf, State.spillAll_memWf, State.memWf]

/-! ### Pre-emption -/

theorem State.onCore_memWf (hs : s.memWf) (n : Nat) {f : State → State} (hf : ∀ t, t.memWf → (f t).memWf) :
    (s.onCore n f).memWf := by
  unfold State.onCore
  grind [State.focus_memWf]

theorem State.askStop_memWf (hs : s.memWf) (a : Nat) : (s.askStop a).memWf := State.putCore_memWf hs ..

theorem State.decideStop_memWf (hs : s.memWf) (a : Nat) : (s.decideStop a).memWf := by
  unfold State.decideStop
  grind [State.putCore_memWf]

theorem execPreempt_outWf (hs : s.memWf) (h : Hdr) (wait : Bool) (o : RUn) : outWf (execPreempt h wait o s) := by
  unfold execPreempt
  grind [State.putCore_memWf, State.putDst_memWf, !State.reserveDst_memWf, issue_outWf, State.trapDone_wf, State.addAcc_memWf,
    State.askStop_memWf, State.decideStop_memWf, Done.wf]

theorem State.preemptStop_memWf (hs : s.memWf) : s.preemptStop.memWf := by
  unfold State.preemptStop
  grind [State.leaveWait_memWf, State.finishHeld_memWf, State.spillAll_memWf, State.memWf]

theorem execMdrain_outWf (hs : s.memWf) (h : Hdr) (o : RUn) : outWf (execMdrain h o s) := by
  unfold execMdrain
  grind [State.putDst_memWf, issue_outWf, State.trapDone_wf, !State.drainCore_memWf, State.onCore_memWf, Done.wf]

theorem State.writeParts_memWf (hs : s.memWf) (ps : List Part) (bs : List Byte) : (s.writeParts ps bs).memWf := by
  unfold State.writeParts
  grind [!State.homeWrite_memWf, State.atomWrite_memWf, State.atomSend_memWf, foldl_memWf]

theorem State.saveCore_memWf (hs : s.memWf) (a va : Nat) : (s.saveCore a va).1.memWf := by
  unfold State.saveCore
  grind [State.focus_memWf, !State.recallPlaced_memWf, !State.rawRange_memWf, !State.imageOf_memWf, !State.drainCore_memWf,
    State.unload_memWf, State.writeParts_memWf]

theorem execCtxsv_outWf (hs : s.memWf) (h : Hdr) (d : Dst) (a b : Src) (imm : BitVec 32) : outWf (execCtxsv h d a b imm s) := by
  unfold execCtxsv
  grind [State.putDst_memWf, issue_outWf, State.trapDone_wf, State.badDone_wf, !State.rawRange_memWf, !State.saveCore_memWf,
    Done.wf]

theorem State.resumeOn_memWf (hs : s.memWf) (a : Nat) (ps : ImgParts) (bs : List Byte) (k : Cont) :
    (s.resumeOn a ps bs k).1.memWf := by
  unfold State.resumeOn
  grind [State.charge_memWf, State.resumeStep_memWf, State.onCore_memWf]

theorem State.loadCore_memWf (hs : s.memWf) (a va : Nat) : (s.loadCore a va).1.memWf := by
  unfold State.loadCore
  grind [!State.readImage_memWf, !State.resumeOn_memWf]

theorem execCtxld_outWf (hs : s.memWf) (h : Hdr) (d : Dst) (a b : Src) (imm : BitVec 32) : outWf (execCtxld h d a b imm s) := by
  unfold execCtxld
  grind [State.putDst_memWf, issue_outWf, State.trapDone_wf, State.badDone_wf, !State.rawRange_memWf, !State.rawRead_memWf,
    !State.loadCore_memWf, Done.wf]

/-! ### Scheduling -/

theorem State.claimAt_memWf (hs : s.memWf) (pa src tok epoch : Nat) : (s.claimAt pa src tok epoch).1.memWf := by
  unfold State.claimAt
  grind [State.memWf]

theorem State.claim_memWf (hs : s.memWf) (k : Cont) : (s.claim k).1.memWf := by
  unfold State.claim
  grind [State.send_memWf, State.keepSent_memWf, !State.claimAt_memWf]

theorem State.dropCont_memWf (hs : s.memWf) (k : Cont) : (s.dropCont k).memWf := hs

theorem State.claimed_memWf (hs : s.memWf) (k : Cont) : (s.claimed k).1.memWf := by
  unfold State.claimed
  grind [State.setCont_memWf, !State.claim_memWf, State.dropCont_memWf]

theorem State.claimAnswer_memWf (hs : s.memWf) (pa : Nat) (e : Option (Nat × Nat)) : (s.claimAnswer pa e).memWf := by
  unfold State.claimAnswer
  grind [State.setCont_memWf, State.dropCont_memWf]

theorem State.wakeGroups_memWf (hs : s.memWf) (gs : List Nat) : (s.wakeGroups gs).memWf := hs

theorem State.readRc_memWf (hs : s.memWf) (ten va n : Nat) : (s.readRc ten va n).1.memWf := by
  unfold State.readRc
  grind [!State.devRange_memWf, !State.viewPart_memWf, !State.readWith_memWf]

theorem State.onRc_memWf (hs : s.memWf) (ten va n : Nat) : (s.onRc ten va n).1.memWf := by
  unfold State.onRc
  grind [!State.devRange_memWf]

theorem State.readFrame_memWf (hs : s.memWf) (ten va : Nat) : (s.readFrame ten va).1.memWf := by
  unfold State.readFrame
  grind [!State.readRc_memWf]

theorem State.recordOk_memWf (hs : s.memWf) (ten : Nat) (k : Cont) : (s.recordOk ten k).1.memWf := by
  unfold State.recordOk
  grind [!State.homeRead_memWf, !State.readRc_memWf]

theorem State.beginStep_memWf (hs : s.memWf) (k : Cont) (h : s.beginStep k = .ok t) : t.memWf := by
  unfold State.beginStep at h
  grind [!State.openLog_memWf, !State.acquire_memWf, State.setCont_memWf, State.dropL1_memWf, !State.onRc_memWf,
    !State.readFrame_memWf, !State.recordOk_memWf, foldl_fst_memWf, State.memWf]

theorem State.beginStep_error_memWf (hs : s.memWf) (k : Cont) (h : s.beginStep k = .error t) : t.memWf := by
  unfold State.beginStep at h
  grind [!State.openLog_memWf, !State.acquire_memWf, State.setCont_memWf, State.dropL1_memWf, !State.onRc_memWf,
    !State.readFrame_memWf, !State.recordOk_memWf, foldl_fst_memWf, State.memWf]

theorem State.countDispatch_memWf (hs : s.memWf) (k : Cont) : (s.countDispatch k).memWf := by
  unfold State.countDispatch
  grind [State.setRcb_memWf, State.charge_memWf, State.memWf]

theorem State.dispatchFault_memWf (hs : s.memWf) (k : Cont) : (s.dispatchFault k).memWf :=
  State.setCont_memWf (State.uncharge_memWf hs ..) ..

theorem State.startHead_memWf (hs : s.memWf) (k : Cont) (n : Nat) : (s.startHead k n).memWf := by
  have h := State.claimed_memWf hs k
  unfold State.startHead
  split
  · next e =>
    rw [e] at h
    exact h
  · next t k e =>
    rw [e] at h
    split
    · have hr := State.readImage_memWf h 0 (k.wopnd.toNat * 64)
      split
      · next e =>
        rw [e] at hr
        exact State.dispatchFault_memWf hr k
      · next e =>
        rw [e] at hr
        exact State.onCore_memWf (State.countDispatch_memWf hr k) n fun u hu => State.resumeStep_memWf hu _ _ k
    · dsimp only
      split
      · next e => exact State.focus_memWf (State.beginStep_memWf (State.focus_memWf (State.countDispatch_memWf h k) n) k e) _
      · split
        · next e =>
          exact State.dispatchFault_memWf (State.focus_memWf (State.beginStep_error_memWf (State.focus_memWf h n) k e) _) k
        · exact State.dispatchFault_memWf h k

theorem State.dispatchOne_memWf (hs : s.memWf) : s.dispatchOne.memWf := by
  unfold State.dispatchOne
  grind [State.wakeGroups_memWf, State.startHead_memWf]

theorem State.launch_memWf (hs : s.memWf) (root : Nat) (card : List Byte) : (s.launch root card).memWf := by
  unfold State.launch
  grind [State.ashNote_memWf, State.placeCard_memWf, !State.writeCompletion_memWf]

theorem State.hostLaunch_memWf (hs : s.memWf) (fn : Nat) : (s.hostLaunch fn).memWf := by
  unfold State.hostLaunch
  grind [State.setFn_memWf, State.launch_memWf]

theorem State.joinWordOf_memWf (hs : s.memWf) (k : Cont) : (s.joinWordOf k).1.memWf := by
  unfold State.joinWordOf
  grind [!State.peek_memWf]

theorem State.lookJoin_memWf (hs : s.memWf) (k : Cont) : (s.lookJoin k).memWf := by
  unfold State.lookJoin
  grind [!State.peek_memWf]

theorem State.wakeCont_memWf (hs : s.memWf) (pa : Nat) : (s.wakeCont pa).memWf := by
  unfold State.wakeCont
  grind [State.setCont_memWf, State.makeReady_memWf, !State.joinWordOf_memWf, State.lookJoin_memWf]

theorem State.supervisorFree_memWf (hs : s.memWf) (pa : Nat) : (s.supervisorFree pa).memWf := by
  unfold State.supervisorFree
  grind [State.freeDone_memWf]

theorem State.adopt_memWf (hs : s.memWf) (va pa region : Nat) (bs : List Byte) (lost : Bool) :
    (s.adopt va pa region bs lost).1.memWf := by
  unfold State.adopt
  grind [State.memWf]

theorem State.superviseReady_memWf (hs : s.memWf) (ten va : Nat) : (s.superviseReady ten va).memWf := by
  unfold State.superviseReady
  grind [!State.devRange_memWf, State.makeReady_memWf, !State.peek_memWf, !State.adopt_memWf]

theorem State.slotBoundary_memWf (hs : s.memWf) : s.slotBoundary.memWf := by
  unfold State.slotBoundary
  grind [State.eventAll_memWf, State.makeReady_memWf, foldl_memWf, State.memWf]

theorem State.overflowMove_memWf (hs : s.memWf) (pa : Nat) : (s.overflowMove pa).memWf := hs

theorem State.mapGroup_memWf (hs : s.memWf) (g : Nat) (f : Core → Core) : (s.mapGroup g f).memWf := by
  unfold State.mapGroup
  grind [State.putCore_memWf, foldl_memWf]

theorem State.groupGate_memWf (hs : s.memWf) (g : Nat) : (s.groupGate g).memWf := by
  unfold State.groupGate
  grind [State.mapGroup_memWf, State.memWf]

theorem State.groupWakeDone_memWf (hs : s.memWf) (g : Nat) : (s.groupWakeDone g).memWf := by
  unfold State.groupWakeDone
  grind [State.mapGroup_memWf, State.memWf]

/-! ### Pool homes -/

theorem execCompaction_outWf (hs : s.memWf) (log seg : Nat) : outWf (execCompaction log seg s) := by
  unfold execCompaction
  grind [State.compact_memWf, State.reapLogs_memWf, outWf]

theorem State.renewLease_memWf (hs : s.memWf) (l : Lease) : (s.renewLease l).memWf := by
  unfold State.renewLease
  grind [State.loseLease_memWf, State.send_memWf, State.memWf]

theorem State.leaseRenewal_memWf (hs : s.memWf) (page : Nat) : (s.leaseRenewal page).memWf := by
  unfold State.leaseRenewal
  split
  · split
    · exact hs
    · split
      · exact State.renewLease_memWf hs _
      · exact hs
  · exact hs

theorem State.leaseExpiry_memWf (hs : s.memWf) (page : Nat) : (s.leaseExpiry page).memWf := by
  unfold State.leaseExpiry
  split
  · split
    · exact hs
    · exact State.loseLease_memWf hs _
  · exact hs

theorem State.answer_memWf (hs : s.memWf) (t : Txn) (status : Nat) (data : List Byte) : (s.answer t status data).memWf := hs
theorem State.settled_memWf (hs : s.memWf) (t : Txn) (st : Nat) (bs : List Byte) : (s.settled t st bs).memWf := hs

theorem State.once_memWf (hs : s.memWf) (t : Txn) {f : State → State × Nat × List Byte} (hf : ∀ t, t.memWf → (f t).1.memWf) :
    (s.once t f).memWf := by
  unfold State.once
  grind [State.answer_memWf, State.settled_memWf]

theorem State.atHome_memWf (hs : s.memWf) (t : Txn) (down : Nat) {f : State → State × Nat × List Byte}
    (hf : ∀ t, t.memWf → (f t).1.memWf) : (s.atHome t down f).memWf := by
  unfold State.atHome
  grind [State.answer_memWf, State.once_memWf]

theorem State.keepHeld_memWf (hs : s.memWf) (h : Accepted) : (s.keepHeld h).memWf := by
  unfold State.keepHeld
  grind [State.memWf]

theorem State.applyWrite_memWf (hs : s.memWf) (t : Txn) (down status : Nat) (rs : List (Nat × Nat)) (own : Bool) (held : Accepted)
    {f : State → State} (hf : ∀ t, t.memWf → (f t).memWf) : (s.applyWrite t down status rs own held f).memWf := by
  unfold State.applyWrite
  grind [!State.recallPages_memWf, State.answer_memWf, State.settled_memWf, State.keepHeld_memWf]

theorem State.poolData_memWf (hs : s.memWf) (t : Txn) (a n : Nat) : (s.poolData t a n).1.memWf := by
  unfold State.poolData
  grind [!State.homeRead_memWf]

theorem execRead_outWf (hs : s.memWf) (t : Txn) (len : Nat) : outWf (execRead t len s) := by
  unfold execRead
  grind [State.answer_memWf, !State.poolData_memWf, outWf]

theorem State.bulkPieces_memWf (hs : s.memWf) (t : Txn) (a : Nat) (n : Nat) (m : Nat) : (s.bulkPieces t a n m).1.memWf := by
  induction n generalizing s t a m with
  | zero =>
    unfold State.bulkPieces
    grind
  | succ f ih =>
    unfold State.bulkPieces
    grind [!State.poolData_memWf]

theorem execBulkGet_outWf (hs : s.memWf) (t : Txn) (len : Nat) : outWf (execBulkGet t len s) := by
  unfold execBulkGet
  grind [State.answer_memWf, !State.bulkPieces_memWf, outWf]

theorem State.grant_memWf (hs : s.memWf) (page pos : Nat) : (s.grant page pos).memWf := hs
theorem State.grantAnswer_memWf (hs : s.memWf) (t : Txn) (page : Nat) : (s.grantAnswer t page).memWf := hs
theorem State.takeGrant_memWf (hs : s.memWf) (page : Nat) : (s.takeGrant page).memWf := hs

theorem State.leaseAcquire_memWf (hs : s.memWf) (t : Txn) : (s.leaseAcquire t).memWf := by
  unfold State.leaseAcquire
  grind [State.loseLease_memWf, State.answer_memWf, State.grant_memWf, State.grantAnswer_memWf, State.takeGrant_memWf]

theorem State.leaseRenew_memWf (hs : s.memWf) (t : Txn) (g : BitVec 64) : (s.leaseRenew t g).memWf := by
  unfold State.leaseRenew
  grind [State.loseLease_memWf, State.answer_memWf, State.grant_memWf, State.memWf]

theorem State.leaseRelease_memWf (hs : s.memWf) (t : Txn) : (s.leaseRelease t).memWf := by
  unfold State.leaseRelease
  grind [State.loseLease_memWf, State.memWf]

theorem State.recall_memWf (hs : s.memWf) (t : Txn) : (s.recall t).memWf := hs

theorem State.keepBillet_memWf (hs : s.memWf) (num : BitVec 32) (b : Billet) (pa : Option Nat) : (s.keepBillet num b pa).memWf := by
  unfold State.keepBillet
  grind [State.mapBillet_memWf, State.memWf]

theorem State.applyShipped_memWf (hs : s.memWf) (num : BitVec 32) (b : Billet) (pa : Option Nat) :
    (s.applyShipped num b pa).memWf :=
  State.keepBillet_memWf (State.applyHome_memWf hs ..) ..

theorem State.noteOpen_memWf (hs : s.memWf) (num : BitVec 32) (b : Billet) (pa : Nat) : (s.noteOpen num b pa).memWf := hs

theorem State.takeBillet_memWf (hs : s.memWf) (t : Txn) (num : BitVec 32) (b : Billet) : (s.takeBillet t num b).memWf := by
  unfold State.takeBillet
  grind [State.reapLogs_memWf, State.applyShipped_memWf, State.noteOpen_memWf]

theorem State.billetShip_memWf (hs : s.memWf) (t : Txn) (body : List Byte) (again : Bool) : (s.billetShip t body again).memWf := by
  unfold State.billetShip
  grind [State.applyWrite_memWf, State.takeBillet_memWf]

theorem State.stepCommit_memWf (hs : s.memWf) (t : Txn) (bodies : List (List Byte)) (again : Bool) :
    (s.stepCommit t bodies again).memWf := by
  unfold State.stepCommit
  split
  · exact State.applyWrite_memWf hs _ _ _ _ _ _ fun _ hu => hu
  · next l _ =>
    extract_lets bs pa
    split
    · refine State.applyWrite_memWf hs _ _ _ _ _ _ fun u hu => ?_
      have h := foldl_memWf (fun (s : State) (e : BitVec 32 × Billet) => s.applyShipped e.1 e.2 (some pa)) l u hu
        fun _ _ hv => State.applyShipped_memWf hv _ _ _
      have h' (bs : List Byte) (l) := memWf_commits (State.devAtomic_memWf (pa + 56) bs h) l
      exact State.reapLogs_memWf (ite_memWf (memWf_holders (h' _ _) _) (h' _ _))
    · exact hs

theorem State.claimTxn_memWf (hs : s.memWf) (c : ClaimTxn) : (s.claimTxn c).memWf := by
  unfold State.claimTxn
  grind [!State.claimAt_memWf, State.claimAnswer_memWf, State.atHome_memWf]

theorem State.homeModify_memWf (hs : s.memWf) (t : Txn) (a : Nat) (bs : List Byte) : (s.homeModify t a bs).memWf := by
  unfold State.homeModify
  grind [State.homeMerge_memWf, State.atomWrite_memWf]

theorem State.poolAtomic_memWf (hs : s.memWf) (t : Txn) (op : AtKind) (w64 sgn : Bool) (a b : Word) :
    (s.poolAtomic t op w64 sgn a b).memWf := by
  unfold State.poolAtomic
  grind [!State.homeNat_memWf, State.atHome_memWf, State.homeModify_memWf]

theorem State.poolReduce_memWf (hs : s.memWf) (t : Txn) (op : RedKind) (ety : EType) (data : List Byte) :
    (s.poolReduce t op ety data).memWf := by
  unfold State.poolReduce
  grind [!State.homeRead_memWf, State.atHome_memWf, State.homeModify_memWf]

theorem State.poolWrite_memWf (hs : s.memWf) (t : Txn) (data : List Byte) : (s.poolWrite t data).memWf := by
  unfold State.poolWrite
  grind [!State.homePut_memWf, State.applyWrite_memWf]

theorem State.raiseRecord_memWf (hs : s.memWf) (pa : Nat) : (s.raiseRecord pa).memWf :=
  memWf_holders (State.devAtomic_memWf _ _ (State.devAtomic_memWf _ _ (State.devAtomic_memWf _ _ hs))) _

theorem State.reassign_memWf (hs : s.memWf) (t : Txn) (region : Nat) : (s.reassign t region).memWf := by
  unfold State.reassign
  grind [!State.homeRead_memWf, State.makeReady_memWf, !State.adopt_memWf, State.once_memWf]

theorem State.handOver_memWf (hs : s.memWf) (node pa : Nat) : (s.handOver node pa).memWf := by
  unfold State.handOver
  grind [State.reassign_memWf, State.memWf]

theorem State.tokenRaise_memWf (hs : s.memWf) (t : Txn) (lost target : Nat) : (s.tokenRaise t lost target).memWf := by
  unfold State.tokenRaise
  grind [State.atHome_memWf, State.keepHeld_memWf, State.raiseRecord_memWf, State.handOver_memWf, foldl_memWf]

theorem State.lostCompletion_memWf (hs : s.memWf) (space : Fin 2) (addr : Nat) : (s.lostCompletion space addr).memWf := by
  unfold State.lostCompletion
  extract_lets k bs
  have h := State.recallPages_memWf hs (poolPages [(k, bs.length)]) true
  split
  · exact hs
  · split
    · split
      · next e =>
        rw [e] at h
        exact State.devAtomic_memWf _ _ h
      · next e =>
        rw [e] at h
        exact State.keepHeld_memWf h _
    · exact State.homeWrite_memWf _ _ hs

theorem State.carryOut_memWf (hs : s.memWf) (b : Accepted) : (s.carryOut b).memWf := by
  unfold State.carryOut
  grind [State.billetShip_memWf, State.stepCommit_memWf, State.poolWrite_memWf, State.tokenRaise_memWf, State.lostCompletion_memWf]

theorem State.retryHeld_memWf (hs : s.memWf) : s.retryHeld.memWf := by
  unfold State.retryHeld
  grind [State.carryOut_memWf, foldl_memWf, State.memWf]

theorem State.recallAcked_memWf (hs : s.memWf) (page pos : Nat) : (s.recallAcked page pos).memWf := by
  unfold State.recallAcked
  grind [State.retryHeld_memWf, State.memWf]

theorem State.collBlocks_memWf (hs : s.memWf) (t : Txn) (b : CollBlock) : (s.collBlocks t b).memWf := hs

theorem State.poisonAcc_memWf (hs : s.memWf) (a : Acc) : (s.poisonAcc a).memWf := by
  unfold State.poisonAcc
  grind [State.finishAcc_memWf]

theorem State.poisonTxn_memWf (hs : s.memWf) (t : Txn) : (s.poisonTxn t).memWf := by
  unfold State.poisonTxn
  grind [State.answer_memWf, State.poisonAcc_memWf]

theorem State.dropNode_memWf (hs : s.memWf) (node : Nat) : (s.dropNode node).memWf := by
  unfold State.dropNode
  grind [State.loseLease_memWf, State.discardPending_memWf, foldl_memWf, State.memWf]

theorem State.setNode_memWf (hs : s.memWf) (node : Nat) (x : NodeState) : (s.setNode node x).memWf := by
  unfold State.setNode
  grind [State.dropNode_memWf, State.memWf]

theorem execResponseTimeout_outWf (hs : s.memWf) (node : Nat) : outWf (execResponseTimeout node s) := by
  unfold execResponseTimeout
  grind [State.setNode_memWf, outWf]

/-! ### Ports -/

theorem State.setPort_memWf (hs : s.memWf) (n : Nat) (p : Port) : (s.setPort n p).memWf := hs
theorem State.mapPort_memWf (hs : s.memWf) (n : Nat) (f : Port → Port) : (s.mapPort n f).memWf := hs

theorem execReplayTimeout_outWf (hs : s.memWf) (port : Nat) : outWf (execReplayTimeout port s) := by
  unfold execReplayTimeout
  grind [State.mapPort_memWf, outWf]

theorem State.portsClock_memWf (hs : s.memWf) (ns : Nat) : (s.portsClock ns).memWf := hs
theorem State.moveRoutes_memWf (hs : s.memWf) : s.moveRoutes.memWf := hs
theorem State.writeRoute_memWf (hs : s.memWf) (node port : Nat) : (s.writeRoute node port).memWf := hs

/-! ### The host -/

theorem State.mapFn_memWf (hs : s.memWf) (n : Nat) (f : HostFn → HostFn) : (s.mapFn n f).memWf := hs

theorem State.ringDoorbell_memWf (hs : s.memWf) (fn : Nat) (tail : BitVec 32) : (s.ringDoorbell fn tail).memWf :=
  State.eventAll_memWf (State.mapFn_memWf hs ..) ..

theorem State.snoopAll_memWf (hs : s.memWf) : s.snoopAll.memWf := by
  unfold State.snoopAll
  grind [State.snoopLine_memWf, foldl_memWf]

theorem State.closeWindow_memWf (hs : s.memWf) : s.closeWindow.memWf := by
  unfold State.closeWindow
  grind [State.snoopAll_memWf, State.memWf]

theorem State.writeSize_memWf (hs : s.memWf) (n : BitVec 9) : (s.writeSize n).memWf := by
  unfold State.writeSize
  grind [State.snoopLine_memWf, State.closeWindow_memWf, foldl_memWf, State.memWf]

theorem execHostWindowSet_outWf (hs : s.memWf) (base : BitVec 10) (size : BitVec 9) : outWf (execHostWindowSet base size s) := by
  unfold execHostWindowSet
  grind [State.writeSize_memWf, outWf, State.memWf]

theorem State.hostWrite_memWf (hs : s.memWf) (fn off : Nat) (v : Word) : (s.hostWrite fn off v).memWf := by
  unfold State.hostWrite
  grind [State.mapFn_memWf, State.ringDoorbell_memWf, State.writeSize_memWf, State.memWf]

theorem State.dirRoom_memWf (hs : s.memWf) : s.dirRoom.memWf := by
  unfold State.dirRoom
  grind [State.snoopLine_memWf]

theorem State.hostMem_memWf (hs : s.memWf) (line : Nat) (excl : Bool) (store : Option (List Byte)) :
    (s.hostMem line excl store).memWf :=
  ite_memWf hs (ite_memWf hs (State.memWf_host _ (State.dirRoom_memWf (State.snoopLine_memWf line hs))))

theorem State.hostSnoop_memWf (hs : s.memWf) (line : Nat) : (s.hostSnoop line).memWf := hs

theorem State.poisonHostAccs_memWf (hs : s.memWf) (n : Nat) : (s.poisonHostAccs n).memWf := by
  unfold State.poisonHostAccs
  grind [State.onCore_memWf, State.poisonAcc_memWf, foldl_memWf]

theorem State.hostLoss_memWf (hs : s.memWf) : s.hostLoss.memWf := by
  unfold State.hostLoss
  grind [State.eventAll_memWf, State.ashNote_memWf, State.poisonLine_memWf, State.poisonHostAccs_memWf, foldl_memWf, State.memWf]

theorem execHostLinkTrained_outWf (hs : s.memWf) : outWf (execHostLinkTrained s) := by
  unfold execHostLinkTrained
  grind [outWf, State.memWf]

/-! ### Reliability -/

theorem State.packageFatal_memWf (hs : s.memWf) : s.packageFatal.memWf := by
  unfold State.packageFatal
  grind [State.mapCores_memWf, State.ashFreeze_memWf, State.hostLoss_memWf, foldl_memWf, State.memWf]

theorem State.dccErrorStop_memWf (hs : s.memWf) (die : Nat) : (s.dccErrorStop die).memWf := by
  unfold State.dccErrorStop
  grind [State.haltCore_memWf, State.onCore_memWf]

theorem State.uncorrectable_memWf (hs : s.memWf) (code : BitVec 8) (loc : BitVec 24) : (s.uncorrectable code loc).memWf := by
  unfold State.uncorrectable
  grind [State.coreAsh_memWf, State.raiseAsync_memWf, State.dccErrorStop_memWf]

theorem State.scrub_memWf (hs : s.memWf) (line : Nat) (bad : Bool) : (s.scrub line bad).memWf := by
  unfold State.scrub
  grind [State.foundBad_memWf]

theorem State.lineError_memWf (hs : s.memWf) (line : Nat) : (s.lineError line).memWf := by
  unfold State.lineError
  grind [State.memWf]

theorem State.sliceError_memWf (hs : s.memWf) (addr : Nat) : (s.sliceError addr).memWf := by
  unfold State.sliceError
  grind [State.memWf]

theorem State.rickError_memWf (hs : s.memWf) (rick pos word : Nat) : (s.rickError rick pos word).memWf := hs
theorem State.corrected_memWf (hs : s.memWf) (unit : Nat) : (s.corrected unit).memWf := hs

theorem State.findSpare_memWf (hs : s.memWf) (stack bank : Nat) (fails : List Nat) (n : Nat) :
    (s.findSpare stack bank fails n).1.memWf := by
  induction n generalizing s stack bank fails with
  | zero =>
    unfold State.findSpare
    grind
  | succ f ih =>
    unfold State.findSpare
    grind [State.markSpare_memWf]

theorem State.rowError_memWf (hs : s.memWf) (stack bank row : Nat) : (s.rowError stack bank row).memWf := by
  unfold State.rowError
  grind [State.beginSparing_memWf, State.memWf]

theorem State.retireRow_memWf (hs : s.memWf) (stack bank row : Nat) (old : Option Remap) (lines : List Nat) :
    (s.retireRow stack bank row old lines).memWf := by
  unfold State.retireRow
  grind [State.ashNote_memWf, State.poisonLine_memWf, foldl_memWf]

theorem State.rowSparing_memWf (hs : s.memWf) (stack bank row : Nat) (fails lines : List Nat) :
    (s.rowSparing stack bank row fails lines).memWf := by
  unfold State.rowSparing
  grind [State.setRemap_memWf, State.beginSparing_memWf, State.ashNote_memWf, State.detect_memWf, !State.findSpare_memWf,
    State.retireRow_memWf, foldl_memWf, State.memWf]

theorem State.writeRemap_memWf (hs : s.memWf) (stack idx : Nat) (v : BitVec 31) : (s.writeRemap stack idx v).memWf := hs
theorem State.writeEpoch_memWf (hs : s.memWf) (src : Nat) (e : Nat) : (s.writeEpoch src e).memWf := hs

theorem State.mgmtWrite_memWf (hs : s.memWf) (off : Nat) (v : Word) : (s.mgmtWrite off v).memWf := by
  unfold State.mgmtWrite
  exact ite_memWf hs <| ite_memWf hs <| ite_memWf hs <| ite_memWf hs <| ite_memWf hs <| ite_memWf hs <|
    ite_memWf (State.mapPort_memWf hs _ _) <| ite_memWf (State.writeRoute_memWf hs _ _) <| ite_memWf hs <|
    ite_memWf (State.writeEpoch_memWf hs _ _) <| ite_memWf hs <| ite_memWf (State.writeRemap_memWf hs _ _ _) <| ite_memWf hs hs

theorem execAshUnfreeze_outWf (hs : s.memWf) (ring : Nat) : outWf (execAshUnfreeze ring s) := by
  unfold execAshUnfreeze
  grind [outWf, State.memWf]

theorem State.mapDieAt_memWf (hs : s.memWf) (n : Nat) (f : Die → Die) : (s.mapDieAt n f).memWf := hs

theorem State.dvfsChange_memWf (hs : s.memWf) (island : Nat) (v : Island) : (s.dvfsChange island v).memWf := by
  unfold State.dvfsChange
  grind [State.mapDieAt_memWf, State.memWf]

theorem execPowerCap_outWf (hs : s.memWf) (milliwatts die : Nat) : outWf (execPowerCap milliwatts die s) := by
  unfold execPowerCap
  grind [State.mapDieAt_memWf, outWf]

theorem State.thermalReport_memWf (hs : s.memWf) (die temp : Nat) : (s.thermalReport die temp).memWf := by
  unfold State.thermalReport
  grind [State.packageFatal_memWf, State.mapDieAt_memWf]

theorem execThermalTrip_outWf (hs : s.memWf) (die : Nat) : outWf (execThermalTrip die s) := by
  unfold execThermalTrip
  grind [State.packageFatal_memWf, State.mapDieAt_memWf, outWf]

/-! ### Bring-up -/

theorem State.outside_memWf (hs : s.memWf) (base : State) : (s.outside base).memWf := Mem.wf_filter _ hs

theorem State.warmReset_memWf (hs : s.memWf) : s.warmReset.memWf := by
  unfold State.warmReset
  grind [State.outside_memWf, State.memWf]

theorem State.extend_memWf (hs : s.memWf) (slot : Nat) (digest : List Byte) : (s.extend slot digest).memWf := hs

theorem State.collierHalt_memWf (hs : s.memWf) : s.collierHalt.memWf := by
  unfold State.collierHalt
  grind [State.ashNote_memWf, State.memWf]

theorem State.tinder_memWf (hs : s.memWf) (copyA copyB : List Byte) : (s.tinder copyA copyB).memWf := by
  unfold State.tinder
  grind [State.extend_memWf, State.collierHalt_memWf, State.memWf]

theorem State.measureAll_memWf (hs : s.memWf) (imgs : List (List Byte)) (l : List Nat) : (s.measureAll imgs l).1.memWf := by
  induction l generalizing s imgs with
  | nil =>
    unfold State.measureAll
    grind
  | cons x l ih =>
    unfold State.measureAll
    grind [State.extend_memWf]

theorem State.measureLate_memWf (hs : s.memWf) (img : List Byte) : (s.measureLate img).memWf := by
  unfold State.measureLate
  grind [State.extend_memWf]

theorem State.startDcc_memWf (hs : s.memWf) (k : KindlingCfg) (die : Nat) : (s.startDcc k die).memWf := by
  unfold State.startDcc
  grind [!State.openLog_memWf, State.onCore_memWf, State.memWf]

theorem State.loadSupervisor_memWf (hs : s.memWf) (imgs : List (List Byte)) : (s.loadSupervisor imgs).memWf := by
  unfold State.loadSupervisor
  split
  · exact State.store_memWf _ _ hs
  · exact hs

theorem State.kindling_memWf (hs : s.memWf) (k : KindlingCfg) : (s.kindling k).memWf := by
  have h := State.measureAll_memWf hs k.images [1, 2, 3]
  unfold State.kindling
  split
  · exact hs
  · split
    · next e =>
      rw [e] at h
      exact State.collierHalt_memWf h
    · next u e =>
      rw [e] at h
      extract_lets u1 far u2 u3 u4
      have h2 : u2.memWf := Mem.wf_filter _ (State.extend_memWf h 0 (sha3 Config.certChain))
      have h3 : u3.memWf := foldl_memWf _ _ _ h2 fun v p hv => State.mapPort_memWf hv _ _
      have h4 : u4.memWf := h3
      exact foldl_memWf _ _ _ (State.loadSupervisor_memWf h4 _) fun v d hv => State.startDcc_memWf hv k d

theorem State.reply_memWf (hs : s.memWf) (resp : List Byte) : (s.reply resp).memWf := hs
theorem State.replyVca_memWf (hs : s.memWf) (req resp : List Byte) : (s.replyVca req resp).memWf := hs
theorem State.spdmError_memWf (hs : s.memWf) (code : Nat) : (s.spdmError code).memWf := hs
theorem State.spdmFree_memWf (hs : s.memWf) (n : Nat) : (s.spdmFree n).2.memWf := hs

theorem execGetVersion_outWf (hs : s.memWf) : outWf (execGetVersion s) := by
  unfold execGetVersion
  grind [State.replyVca_memWf, outWf, State.memWf]

theorem execGetCapabilities_outWf (hs : s.memWf) : outWf (execGetCapabilities s) := by
  unfold execGetCapabilities
  grind [State.replyVca_memWf, State.spdmError_memWf, !State.spdmFree_memWf, outWf, State.memWf]

theorem execNegotiateAlgorithms_outWf (hs : s.memWf) (hash asym : Bool) : outWf (execNegotiateAlgorithms hash asym s) := by
  unfold execNegotiateAlgorithms
  grind [State.replyVca_memWf, State.spdmError_memWf, !State.spdmFree_memWf, outWf, State.memWf]

theorem execGetDigests_outWf (hs : s.memWf) : outWf (execGetDigests s) := by
  unfold execGetDigests
  grind [State.reply_memWf, State.spdmError_memWf, outWf]

theorem execGetCertificate_outWf (hs : s.memWf) (off len : Nat) : outWf (execGetCertificate off len s) := by
  unfold execGetCertificate
  grind [State.reply_memWf, State.spdmError_memWf, outWf]

theorem execGetMeasurements_outWf (hs : s.memWf) (idx : BitVec 8) (sign : Bool) (q : MeasReq) : outWf
    (execGetMeasurements idx sign q s) := by
  unfold execGetMeasurements
  grind [State.reply_memWf, State.spdmError_memWf, !State.spdmFree_memWf, outWf, State.memWf]

theorem execUnsupportedRequest_outWf (hs : s.memWf) : outWf (execUnsupportedRequest s) := by
  unfold execUnsupportedRequest
  grind [State.spdmError_memWf, !State.spdmFree_memWf, outWf]

/-! ### Group VRED -/

theorem redOp_outWf (hs : s.memWf) (h : Hdr) (o : VRedOp) (ok : EType → EType → Bool) (f : Shp → List (Nat × Bool) → Nat) : outWf
    (redOp h o ok f s) := by
  unfold redOp
  grind [vecOp_outWf, State.vecGo_wf]

theorem treeRed_outWf (hs : s.memWf) (h : Hdr) (o : VRedOp) (ok : EType → EType → Bool) (ident : Nat) (conv : Nat → Nat)
    (op : Nat → Nat → Nat) : outWf (treeRed h o ok ident conv op s) :=
  redOp_outWf hs ..

theorem execVscan_outWf (hs : s.memWf) (h : Hdr) (o : VScanOp) : outWf (execVscan h o s) := by
  unfold execVscan
  grind [vecOp_outWf, State.vecGo_wf]

/-! ### Group VPERM -/

theorem execVtrn_outWf (hs : s.memWf) (h : Hdr) (o : VTrnOp) : outWf (execVtrn h o s) := by
  unfold execVtrn
  grind [vecOp_outWf, State.vecGo_wf]

theorem execVperm_outWf (hs : s.memWf) (h : Hdr) (o : VPermOp) : outWf (execVperm h o s) := by
  unfold execVperm
  grind [vecOp_outWf, State.vecGo_wf]

theorem execVshuf_outWf (hs : s.memWf) (h : Hdr) (o : VShufOp) : outWf (execVshuf h o s) := by
  unfold execVshuf
  grind [vecOp_outWf, State.vecGo_wf]

theorem execVsort_outWf (hs : s.memWf) (h : Hdr) (o : VSortOp) : outWf (execVsort h o s) := by
  unfold execVsort
  grind [vecOp_outWf, State.vecGo_wf]

theorem execVmrg_outWf (hs : s.memWf) (h : Hdr) (o : VMrgOp) : outWf (execVmrg h o s) := by
  unfold execVmrg
  grind [vecOp_outWf, State.vecGo_wf]

theorem execVdrop_outWf (hs : s.memWf) (h : Hdr) (o : VDropOp) : outWf (execVdrop h o s) := by
  unfold execVdrop
  grind [vecOp_outWf, State.vecGo_wf, State.putMask_memWf]

theorem State.deferPush_memWf (hs : s.memWf) (l : List DefEnt) : (s.deferPush l).memWf := hs

theorem execVdefer_outWf (hs : s.memWf) (h : Hdr) (o : VDeferOp) : outWf (execVdefer h o s) := by
  unfold execVdefer
  grind [State.putPred_memWf, State.owned_wf, vecOp_outWf, State.vecGo_wf, State.deferPush_memWf, Done.wf]

theorem execVdrain_outWf (hs : s.memWf) (h : Hdr) (o : VDrainOp) : outWf (execVdrain h o s) := by
  unfold execVdrain
  grind [vecOp_outWf, State.vecGo_wf, State.putMask_memWf, State.memWf]

theorem execVshape_outWf (hs : s.memWf) (h : Hdr) (sh : Fin 4) (v : ShapeVal) : outWf (execVshape h sh v s) := by
  unfold execVshape
  grind [issue_outWf, State.trapDone_wf, Done.wf, State.memWf]

theorem execMlog_outWf (hs : s.memWf) (h : Hdr) (md ma mb : Fin 16) (tbl : BitVec 4) : outWf (execMlog h md ma mb tbl s) := by
  unfold execMlog
  grind [issue_outWf, State.putMask_memWf, Done.wf]

theorem maskOp_outWf (hs : s.memWf) (h : Hdr) (shp : Fin 4) (d : Dst) (f : List Nat → Nat) (ma : Fin 16) : outWf
    (maskOp h shp d f ma s) := by
  unfold maskOp
  grind [State.putDst_memWf, vecOp_outWf, Done.wf]

theorem execVext_outWf (hs : s.memWf) (h : Hdr) (shp : Fin 4) (ty : EType) (d : Dst) (va : BitVec 10) (idx : VIdx) : outWf
    (execVext h shp ty d va idx s) := by
  unfold execVext
  grind [State.putDst_memWf, State.trapDone_wf, State.owned_wf, vecOp_outWf, Done.wf]

theorem execVins_outWf (hs : s.memWf) (h : Hdr) (shp : Fin 4) (ty : EType) (vd : BitVec 10) (a : Src) (idx : VIdx) : outWf
    (execVins h shp ty vd a idx s) := by
  unfold execVins
  grind [State.raise_memWf, State.trapDone_wf, vecOp_outWf, State.vecGo_wf, outWf]

/-! ### Group VSFU -/

theorem sfuOp_outWf (hs : s.memWf) (h : Hdr) (o : VUn) (f : FV → SF) : outWf (sfuOp h o f s) := elemOp_outWf hs ..

theorem execVsincos_outWf (hs : s.memWf) (h : Hdr) (o : VUn3) : outWf (execVsincos h o s) := by
  unfold execVsincos
  grind [vecOp_outWf, State.vecGo_wf]

end Sys2Proof.Machine
end

section
/-!
SUPPORT. Every instruction and every step keeps the canonical form of memory.
-/

namespace Sys2Proof.Machine

-- Many short proofs in a row: each is elaborated before the next, so that none waits for another in a thread of its own.
set_option Elab.async false

variable {s t u : State}

/-! ### Every instruction -/

/-- One case for each operation that instructions share, for each event that is one function of the package, and for each other
instruction. -/
theorem exec_outWf (hs : s.memWf) (i : Instr) : outWf (exec i s) := by
  unfold exec
  cases i
  case add | sub | mul => exact arith_outWf hs ..
  case mulh | rem | min | max => exact arithNs_outWf hs ..
  case div | bfi | mov | movi | lea | ffma | fcvt | rdtime | rdid | lstat | srd => exact valueOp_outWf hs ..
  case and | or | xor | andn | shl | shr | sar | rotl => exact bitwise_outWf hs ..
  case clz | ctz | popc => exact bitCount_outWf hs ..
  case sext | zext | bfx => exact field2_outWf hs ..
  case cmp | fcmp => exact outcomeOp_outWf hs ..
  case fadd | fmul | fmin | fmax => exact float2_outWf hs ..
  case sleep | sleepUntil | sleepFor => exact sleepOp_outWf hs ..
  case pfxi | pfxm => exact latchPfx_outWf hs ..
  case aadd | amin | amax | aand | aor | axor | aswp => exact atom1_outWf hs ..
  case afadd => exact atomOp_outWf hs ..
  case redi | redf => exact reduceOp_outWf hs ..
  case cpy | cpyn | cpyt | cgath | cscat | cfill | cred | credc | ccoll | cbget | draft => exact copyIssue_outWf hs ..
  case vadd | vsub | vmul => exact vecArith_outWf hs ..
  case vfma | vsel | vmov | vbcast | viota | vcvt | vqnt | vdqnt | vdqntMx | vrng => exact elemOp_outWf hs ..
  case vmin | vmax | vand | vor | vxor | vshl | vshr | vsar => exact vecBin_outWf hs ..
  case vabs | vneg => exact vecSign_outWf hs ..
  case mma | mmaz | azero | adrain | aload | aacc | mcksumOpen | mcksumClose => exact mtxIssue_outWf hs ..
  case uaxpby | uema | usgdm | uadamw | uclipVal | uclipNrm => exact updOp_outWf hs ..
  case xstat | xkick => exact rickOp_outWf hs ..
  case ctxliveTile | ctxliveAcc => exact liveOp_outWf hs ..
  case csrxSwp | csrxSet | csrxClr => exact csrx_outWf hs ..
  case vrsum | vrmax | vramax | vrmin => exact treeRed_outWf hs ..
  case vargmax => exact redOp_outWf hs ..
  case mcnt | mfirst => exact maskOp_outWf hs ..
  case vexp2 | vlog2 | vrcp | vrsqrt | vsqrt | vtanh | vsig => exact sfuOp_outWf hs ..
  case rickFiring => exact State.rickUnit_memWf hs ..
  case accinjWrite | corectlWrite | evpendClear | drtailWrite | draftRingConfigWrite | csrWrite => exact State.setCsr_memWf hs ..
  case trapTaken => exact State.trapTaken_memWf hs ..
  case watchdog => exact State.watchdogFire_memWf hs ..
  case preemptStop => exact State.preemptStop_memWf hs ..
  case dispatch => exact State.dispatchOne_memWf hs ..
  case hostLaunch => exact State.hostLaunch_memWf hs ..
  case dealChunk => exact State.dealChunk_memWf hs ..
  case jobComplete => exact State.jobComplete_memWf hs ..
  case completionWordWrite => exact State.completionWrite_memWf hs ..
  case continuationWake => exact State.wakeCont_memWf hs ..
  case supervisorFree => exact State.supervisorFree_memWf hs ..
  case timerSlotBoundary => exact State.slotBoundary_memWf hs ..
  case timerOverflowMove => exact State.overflowMove_memWf hs ..
  case groupGate => exact State.groupGate_memWf hs ..
  case groupWakeDone => exact State.groupWakeDone_memWf hs ..
  case billetSpill => exact State.spill_memWf hs ..
  case leaseRenewal => exact State.leaseRenewal_memWf hs ..
  case leaseExpiry => exact State.leaseExpiry_memWf hs ..
  case leaseAcquire => exact State.leaseAcquire_memWf hs ..
  case leaseRenew => exact State.leaseRenew_memWf hs ..
  case leaseRelease => exact State.leaseRelease_memWf hs ..
  case leaseRecall => exact State.recall_memWf hs ..
  case billetShip => exact State.billetShip_memWf hs ..
  case stepCommit => exact State.stepCommit_memWf hs ..
  case claim => exact State.claimTxn_memWf hs ..
  case atomic => exact State.poolAtomic_memWf hs ..
  case reduction => exact State.poolReduce_memWf hs ..
  case inPlaceWrite => exact State.poolWrite_memWf hs ..
  case reassign => exact State.reassign_memWf hs ..
  case tokenRaise => exact State.tokenRaise_memWf hs ..
  case lostCompletionWrite => exact State.lostCompletion_memWf hs ..
  case collective => exact State.collBlocks_memWf hs ..
  case poison => exact State.poisonTxn_memWf hs ..
  case reservedTransaction => exact State.ashNote_memWf hs ..
  case nodeStateWrite => exact State.setNode_memWf hs ..
  case dataFlit | nakFlit | idleFlit | trainingFlit | wavelengthWindow | spareLock | portBringup | laserMeasurement =>
    exact State.mapPort_memWf hs ..
  case launchRingDoorbell => exact State.ringDoorbell_memWf hs ..
  case faultRingTailWrite => exact State.mapFn_memWf hs ..
  case hostWindowClose => exact State.closeWindow_memWf hs ..
  case hostRegisterWrite => exact State.hostWrite_memWf hs ..
  case hostMemRequest => exact State.hostMem_memWf hs ..
  case hostSnoop => exact State.hostSnoop_memWf hs ..
  case hostLoss => exact State.hostLoss_memWf hs ..
  case packageFatal => exact State.packageFatal_memWf hs ..
  case dccErrorStop => exact State.dccErrorStop_memWf hs ..
  case ue => exact State.uncorrectable_memWf hs ..
  case hbmScrub => exact State.scrub_memWf hs ..
  case rowSparing => exact State.rowSparing_memWf hs ..
  case rowRemapWrite => exact State.writeRemap_memWf hs ..
  case mgmtRegisterWrite => exact State.mgmtWrite_memWf hs ..
  case dvfsChange => exact State.dvfsChange_memWf hs ..
  case thermalReport => exact State.thermalReport_memWf hs ..
  case coldReset => exact State.outside_memWf hs ..
  case warmReset => exact State.warmReset_memWf hs ..
  case tinder => exact State.tinder_memWf hs ..
  case kindling => exact State.kindling_memWf hs ..
  case sel => exact execSel_outWf hs ..
  case plog => exact execPlog_outWf hs ..
  case br => exact execBr_outWf hs ..
  case brIndirect => exact execBrIndirect_outWf hs ..
  case bc => exact execBc_outWf hs ..
  case bq => exact execBq_outWf hs ..
  case bqNobranch => exact execBqNobranch_outWf hs ..
  case bpush => exact execBpush_outWf hs ..
  case jtab => exact execJtab_outWf hs ..
  case call => exact execCall_outWf hs ..
  case callIndirect => exact execCallIndirect_outWf hs ..
  case ret => exact execRet_outWf hs ..
  case loop => exact execLoop_outWf hs ..
  case lbrk => exact execLbrk_outWf hs ..
  case nop => exact execNop_outWf hs ..
  case ends => exact execEnds_outWf hs ..
  case sbwait => exact execSbwait_outWf hs ..
  case sleepEnd => exact execSleepEnd_outWf hs ..
  case qpush => exact execQpush_outWf hs ..
  case qpop => exact execQpop_outWf hs ..
  case qcnt => exact execQcnt_outWf hs ..
  case ld => exact execLd_outWf hs ..
  case ldTile => exact execLdTile_outWf hs ..
  case ldq => exact execLdq_outWf hs ..
  case st => exact execSt_outWf hs ..
  case stTile => exact execStTile_outWf hs ..
  case stq => exact execStq_outWf hs ..
  case pref => exact execPref_outWf hs ..
  case acas => exact execAcas_outWf hs ..
  case releaseComplete => exact execReleaseComplete_outWf hs ..
  case accessComplete => exact execAccessComplete_outWf hs ..
  case rel => exact execRel_outWf hs ..
  case rell => exact execRell_outWf hs ..
  case acq => exact execAcq_outWf hs ..
  case acql => exact execAcql_outWf hs ..
  case fence => exact execFence_outWf hs ..
  case lsync => exact execLsync_outWf hs ..
  case waita => exact execWaita_outWf hs ..
  case waitaArm => exact execWaitaArm_outWf hs ..
  case wcancel => exact execWcancel_outWf hs ..
  case swait => exact execSwait_outWf hs ..
  case ssig => exact execSsig_outWf hs ..
  case cld => exact execCld_outWf hs ..
  case cst => exact execCst_outWf hs ..
  case cnarrow => exact execCnarrow_outWf hs ..
  case cinfo => exact execCinfo_outWf hs ..
  case cchk => exact execCchk_outWf hs ..
  case cstat => exact execCstat_outWf hs ..
  case copyCommandBegin => exact execCopyCommandBegin_outWf hs ..
  case copyCommandComplete => exact execCopyCommandComplete_outWf hs ..
  case draftFetch => exact execDraftFetch_outWf hs ..
  case draftArrival => exact execDraftArrival_outWf hs ..
  case drstep => exact execDrstep_outWf hs ..
  case vcmp => exact execVcmp_outWf hs ..
  case vqntMx => exact execVqntMx_outWf hs ..
  case matrixCommandBegin => exact execMatrixCommandBegin_outWf hs ..
  case matrixCommandComplete => exact execMatrixCommandComplete_outWf hs ..
  case mstop => exact execMstop_outWf hs ..
  case mstat => exact execMstat_outWf hs ..
  case xenq => exact execXenq_outWf hs ..
  case xenqTile => exact execXenqTile_outWf hs ..
  case xdeq => exact execXdeq_outWf hs ..
  case xdone => exact execXdone_outWf hs ..
  case xcmb => exact execXcmb_outWf hs ..
  case rickAgeExpiry => exact execRickAgeExpiry_outWf hs ..
  case susp => exact execSusp_outWf hs ..
  case suspCmb => exact execSuspCmb_outWf hs ..
  case yield => exact execYield_outWf hs ..
  case twheel => exact execTwheel_outWf hs ..
  case join => exact execJoin_outWf hs ..
  case exit => exact execExit_outWf hs ..
  case relCommit => exact execRelCommit_outWf hs ..
  case spawn => exact execSpawn_outWf hs ..
  case ctxliveClr => exact execCtxliveClr_outWf hs ..
  case trap => exact execTrap_outWf hs ..
  case eret => exact execEret_outWf hs ..
  case csrr => exact execCsrr_outWf hs ..
  case csrw => exact execCsrw_outWf hs ..
  case tlbinvVa => exact execTlbinvVa_outWf hs ..
  case tlbinvTnt => exact execTlbinvTnt_outWf hs ..
  case tlbinvAll => exact execTlbinvAll_outWf hs ..
  case tlbinvCap => exact execTlbinvCap_outWf hs ..
  case tlbinvIc => exact execTlbinvIc_outWf hs ..
  case semmap => exact execSemmap_outWf hs ..
  case cmintMint => exact execCmintMint_outWf hs ..
  case cmintRevoke => exact execCmintRevoke_outWf hs ..
  case haltWfi => exact execHaltWfi_outWf hs ..
  case haltStop => exact execHaltStop_outWf hs ..
  case queueStallExpiry => exact execQueueStallExpiry_outWf hs ..
  case preempt => exact execPreempt_outWf hs ..
  case mdrain => exact execMdrain_outWf hs ..
  case ctxsv => exact execCtxsv_outWf hs ..
  case ctxld => exact execCtxld_outWf hs ..
  case compaction => exact execCompaction_outWf hs ..
  case read => exact execRead_outWf hs ..
  case bulkGet => exact execBulkGet_outWf hs ..
  case responseTimeout => exact execResponseTimeout_outWf hs ..
  case replayTimeout => exact execReplayTimeout_outWf hs ..
  case hostWindowSet => exact execHostWindowSet_outWf hs ..
  case hostLinkTrained => exact execHostLinkTrained_outWf hs ..
  case ashUnfreeze => exact execAshUnfreeze_outWf hs ..
  case powerCap => exact execPowerCap_outWf hs ..
  case thermalTrip => exact execThermalTrip_outWf hs ..
  case getVersion => exact execGetVersion_outWf hs ..
  case getCapabilities => exact execGetCapabilities_outWf hs ..
  case negotiateAlgorithms => exact execNegotiateAlgorithms_outWf hs ..
  case getDigests => exact execGetDigests_outWf hs ..
  case getCertificate => exact execGetCertificate_outWf hs ..
  case getMeasurements => exact execGetMeasurements_outWf hs ..
  case unsupportedRequest => exact execUnsupportedRequest_outWf hs ..
  case vscan => exact execVscan_outWf hs ..
  case vtrn => exact execVtrn_outWf hs ..
  case vperm => exact execVperm_outWf hs ..
  case vshuf => exact execVshuf_outWf hs ..
  case vsort => exact execVsort_outWf hs ..
  case vmrg => exact execVmrg_outWf hs ..
  case vdrop => exact execVdrop_outWf hs ..
  case vdefer => exact execVdefer_outWf hs ..
  case vdrain => exact execVdrain_outWf hs ..
  case vshape => exact execVshape_outWf hs ..
  case mlog => exact execMlog_outWf hs ..
  case vext => exact execVext_outWf hs ..
  case vins => exact execVins_outWf hs ..
  case vsincos => exact execVsincos_outWf hs ..

/-! ### Turns and the clock -/

theorem State.fetchFailed_wf (hs : s.memWf) (b : FetchBad) : (s.fetchFailed b).wf := by
  unfold State.fetchFailed
  grind [State.raise_memWf, TurnOut.wf]

theorem State.tryWord_wf (hs : s.memWf) (w : IWord) : (s.tryWord w).wf := by
  unfold State.tryWord
  grind [State.raise_memWf, Xfer.wf, TurnOut.wf]

theorem State.nextWord_wf (hs : s.memWf) : (s.nextWord).wf := by
  unfold State.nextWord
  grind [State.mapCur_memWf, !State.fetch_memWf, State.fetchFailed_wf, State.tryWord_wf]

theorem State.headerTurn_wf (hs : s.memWf) : s.headerTurn.wf := by
  have h := State.headerStep_wf hs
  unfold State.headerTurn
  cases e : s.headerStep <;> rw [e] at h
  case began => exact h
  case gated => exact State.stall_memWf h _
  case illegal => exact State.raise_memWf h _
  case fail => exact State.fetchFailed_wf h _

theorem State.strmTurn_wf (hs : s.memWf) (k : Strm) : (s.strmTurn k).wf := by
  unfold State.strmTurn
  grind [State.trapTaken_memWf, State.endSleep_memWf, State.nextWord_wf, State.headerTurn_wf, TurnOut.wf, State.memWf]

/-- An event of the hardware is one of the events that exec runs. -/
theorem Hw.run_outWf (hs : s.memWf) (e : Hw) : outWf (e.run s) := by
  cases e with
  | release id => exact exec_outWf hs (.releaseComplete id)
  | access id => exact exec_outWf hs (.accessComplete id)
  | copyBegin => exact exec_outWf hs .copyCommandBegin
  | copyEnd tag => exact exec_outWf hs (.copyCommandComplete tag)
  | mtxBegin => exact exec_outWf hs .matrixCommandBegin
  | mtxEnd => exact exec_outWf hs .matrixCommandComplete
  | preemptStop => exact exec_outWf hs .preemptStop
  | draftFetch idx => exact exec_outWf hs (.draftFetch idx)
  | draftArrival idx => exact exec_outWf hs (.draftArrival idx)
  | spill log seg => exact exec_outWf hs (.billetSpill log seg)
  | compact log seg => exact exec_outWf hs (.compaction log seg)
  | dispatch => exact exec_outWf hs .dispatch
  | wake pa => exact exec_outWf hs (.continuationWake pa)
  | deal r slot => exact exec_outWf hs (.dealChunk r slot)
  | jobEnd r slot => exact exec_outWf hs (.jobComplete r slot)
  | complWord r slot => exact exec_outWf hs (.completionWordWrite r slot)
  | launch fn => exact exec_outWf hs (.hostLaunch fn)
  | rick die => exact exec_outWf hs (.rickFiring die)
  | slotBoundary => exact exec_outWf hs .timerSlotBoundary
  | overflow pa => exact exec_outWf hs (.timerOverflowMove pa)
  | gate g => exact exec_outWf hs (.groupGate g)
  | wakeDone g => exact exec_outWf hs (.groupWakeDone g)
  | renew page => exact exec_outWf hs (.leaseRenewal page)
  | expire page => exact exec_outWf hs (.leaseExpiry page)
  | replay port => exact exec_outWf hs (.replayTimeout port)
  | timeout node => exact exec_outWf hs (.responseTimeout node)
  | hostLoss => exact exec_outWf hs .hostLoss

/-! ### Turns and the clock -/

theorem State.hwTurn_outWf (hs : s.memWf) : outWf (s.hwTurn) := by
  unfold State.hwTurn
  grind [!State.fresh_memWf, Hw.run_outWf, outWf]

theorem State.queueDue_memWf (hs : s.memWf) : s.queueDue.memWf := by
  unfold State.queueDue
  grind [State.queueTrap_memWf]

theorem State.endSleeps_memWf (hs : s.memWf) : s.endSleeps.memWf := by
  refine foldl_memWf _ _ _ hs fun t k ht => ?_
  split
  · exact ite_memWf (State.endSleep_memWf (memWf_who ht k) _) ht
  · exact ht

theorem State.endCore_memWf (hs : s.memWf) : s.endCore.memWf := by
  unfold State.endCore
  grind [State.endByTraps_memWf, State.decideStop_memWf, State.endSleeps_memWf]

theorem State.endClock_memWf (hs : s.memWf) : s.endClock.memWf := by
  unfold State.endClock
  grind [State.onCore_memWf, State.endCore_memWf, foldl_memWf, State.memWf]

theorem State.count_memWf (hs : s.memWf) : s.count.memWf := hs

theorem State.homesClock_memWf (hs : s.memWf) : s.homesClock.memWf := by
  unfold State.homesClock
  grind [State.retryHeld_memWf]

theorem State.clock_memWf (hs : s.memWf) : s.clock.memWf := by
  unfold State.clock
  grind [State.mapCores_memWf, State.watchdogFire_memWf, State.onCore_memWf, State.portsClock_memWf, State.moveRoutes_memWf,
    State.queueDue_memWf, State.endClock_memWf, State.count_memWf, State.homesClock_memWf, foldl_memWf]

theorem State.clocks_memWf (hs : s.memWf) (n : Nat) : (s.clocks n).memWf := by
  induction n generalizing s with
  | zero =>
    unfold State.clocks
    grind
  | succ f ih =>
    unfold State.clocks
    grind [State.clock_memWf]

theorem State.tick_memWf (hs : s.memWf) : s.tick.memWf := by
  unfold State.tick
  grind [State.focus_memWf, State.clock_memWf]

theorem State.keepTurn_memWf (hs : s.memWf) (before : State) (i : Instr) : (s.keepTurn before i).memWf := ite_memWf hs hs

theorem runTurn_outWf {before : State} {o : TurnOut} (ho : o.wf) : outWf (runTurn before o) := by
  cases o with
  | run t i => exact exec_outWf (State.keepTurn_memWf ho before i) i
  | done t => exact ho
  | stop f => trivial

/-- A move asked for from outside: an event, a turn, clocks, or one function of the package. -/
theorem runMove_outWf (hs : s.memWf) (before : State) (m : Move) : outWf (runMove before s m) := by
  cases m with
  | ev i =>
    rw [runMove]
    split
    · exact hs
    · exact exec_outWf hs i
  | strm n k => exact runTurn_outWf (State.strmTurn_wf (State.focus_memWf hs n) k)
  | clocks n => exact State.clocks_memWf hs n
  | recallAck page pos => exact State.recallAcked_memWf hs page pos
  | mgmtRead off => exact hs
  | hostRead fn off => exact hs
  | dvsecRead => exact hs
  | doorbell die host => exact State.eventDcc_memWf hs die _
  | lineError line => exact State.lineError_memWf hs line
  | rowError stack bank row => exact State.rowError_memWf hs stack bank row
  | scrubbed => exact hs
  | sliceError addr => exact State.sliceError_memWf hs addr
  | rickError rick pos word => exact State.rickError_memWf hs rick pos word
  | corrected unit => exact State.corrected_memWf hs unit
  | makeReady tenant va => exact State.superviseReady_memWf hs tenant va
  | measure img => exact State.measureLate_memWf hs img

theorem step_outWf (hs : s.memWf) : outWf (step s) := by
  have h (l : List Move) (k : Turn) : ({ s with agenda := l, turn := k } : State).memWf := hs
  unfold step
  split
  · exact runMove_outWf (h _ s.turn) s _
  · split
    · exact runTurn_outWf (State.strmTurn_wf (h s.agenda _) _)
    · exact State.hwTurn_outWf (h s.agenda _)
    · exact State.tick_memWf (h s.agenda _)

/-- Settles O6: the moves, the turns and the clock, each by what it runs. -/
theorem memoryCanonical : Obligations.MemoryCanonical := by
  unfold Obligations.MemoryCanonical
  intro s t hs ht
  have h := step_outWf hs
  rwa [ht] at h

end Sys2Proof.Machine
end

section
/-!
SUPPORT. What a store of the issuing step changes (R98, R107, R209, R386, R387): in place, the bytes of its parts that are not RC;
for its records, the LOG usage fields when a billet is opened.
-/

namespace Sys2Proof.Machine

variable {s t u v x : State}

/-! ### The registers -/

/-- The registers of a core, its capabilities, semaphores and tile registers. -/
def Core.regs (c : Core) :=
  (c.l.n, c.l.p, c.c.n, c.c.p, c.s.n, c.s.p, c.caps, c.sems, c.tile)

/-- The stream in focus and the registers of its core. -/
def State.regs (s : State) := (s.who, s.core.regs)

theorem State.regs_stay (h : t.regs = s.regs) : t.cur.n = s.cur.n ∧ t.cur.p = s.cur.p ∧ t.core.caps = s.core.caps ∧
    t.core.sems = s.core.sems ∧ t.core.tile = s.core.tile := by
  simp only [State.regs, Core.regs, Prod.mk.injEq] at h
  obtain ⟨hw, ln, lp, cn, cp, sn, sp, hcaps, hsems, htile⟩ := h
  refine ⟨?_, ?_, hcaps, hsems, htile⟩
  · unfold State.cur Core.strm
    rw [hw]
    cases s.who with
    | l => exact ln
    | c => exact cn
    | s => exact sn
  · unfold State.cur Core.strm
    rw [hw]
    cases s.who with
    | l => exact lp
    | c => exact cp
    | s => exact sp

theorem MemOnly.regs (h : MemOnly s t) : t.regs = s.regs := by
  have e := congrArg State.regs h.1
  exact e

theorem MemOnly.root (h : MemOnly s t) : t.root = s.root := by
  have e := congrArg State.root h.1
  exact e

/-- The log of the step is that of its context, which a fired watch leaves. -/
theorem State.logNum_unmem (s : State) : s.unmem.logNum = s.logNum := by
  unfold State.logNum State.unmem Core.unmem
  cases s.core.ctx <;> rfl

theorem MemOnly.logNum (h : MemOnly s t) : t.logNum = s.logNum := by
  rw [← t.logNum_unmem, h.1, s.logNum_unmem]

theorem Looks.regs (h : Looks s t) : t.regs = s.regs := by
  have e := congrArg Core.regs h.1
  exact congrArg₂ Prod.mk h.2.1 e

theorem Core.setStrm_regs {c : Core} {k : Strm} {y : Stream} (hn : y.n = (c.strm k).n) (hp : y.p = (c.strm k).p) :
    (c.setStrm k y).regs = c.regs := by
  cases k <;> simp only [Core.setStrm, Core.strm, Core.regs] at hn hp ⊢ <;> rw [hn, hp]

theorem State.setCur_regs (s : State) {y : Stream} (hn : y.n = s.cur.n) (hp : y.p = s.cur.p) : (s.setCur y).regs = s.regs :=
  congrArg (Prod.mk s.who) (Core.setStrm_regs hn hp)

theorem State.markIssued_regs (s : State) : s.markIssued.regs = s.regs :=
  s.setCur_regs (y := { s.cur with hold := .issuing }) rfl rfl

theorem State.popSrc_regs (s : State) (a : Src) : (s.popSrc a).regs = s.regs := by
  cases a with
  | q =>
    obtain ⟨q, r, h⟩ := s.core.setPopQ_eq s.who (s.core.popQ s.who).pop
    show (s.who, (s.core.setPopQ s.who (s.core.popQ s.who).pop).regs) = s.regs
    rw [h]
    rfl
  | _ => rfl

theorem State.popAll_regs (s : State) (l : List Src) : (s.popAll l).regs = s.regs :=
  foldl_keeps (fun w : State => w.regs = s.regs) _ l s rfl fun w a h => (w.popSrc_regs a).trans h

theorem State.advance_regs (s : State) : s.advance.regs = s.regs := by
  obtain ⟨y, hy, hu⟩ := s.advance_place
  rw [hy]
  exact State.setCur_regs _ (congrArg (fun z => z.n) hu) (congrArg (fun z => z.p) hu)

theorem State.finish_regs (s : State) (w : Use) : (s.finish w).regs = s.regs :=
  (State.advance_regs _).trans (s.popAll_regs _)

theorem State.popAll_mem (s : State) (l : List Src) : (s.popAll l).mem = s.mem :=
  foldl_keeps (fun w : State => w.mem = s.mem) _ l s rfl fun w a h => by
    cases a <;> exact h

theorem State.finish_mem (s : State) (w : Use) : (s.finish w).mem = s.mem := s.popAll_mem _

theorem State.popSdq_stays (s : State) (n : Nat) : (s.popSdq n).regs = s.regs ∧ (s.popSdq n).mem = s.mem := by
  induction n generalizing s with
  | zero => exact ⟨rfl, rfl⟩
  | succ n ih => exact ih _

theorem State.deferTrap_stays (s : State) (c : Cause) (info fva : Nat) :
    (s.deferTrap c info fva).regs = s.regs ∧ (s.deferTrap c info fva).mem = s.mem := by
  exact ⟨congrArg (Prod.mk s.who) (Core.setStrm_regs rfl rfl), rfl⟩

/-! ### Homes without a host copy out -/

@[simp] theorem State.coverPoison_host (s : State) (a n : Nat) : (s.coverPoison a n).host = s.host := by
  simp [State.coverPoison]

@[simp] theorem State.fireWatches_host (s : State) : s.fireWatches.host = s.host := by
  unfold State.fireWatches
  dsimp only
  split
  · rfl
  · refine foldl_keeps (fun w : State => w.host = s.host) _ _ _ rfl fun w x h => ?_
    split
    · exact h
    · exact (State.putCore_host ..).trans h

theorem State.snoopWrite_none (h : s.host.dirs = []) (a n : Nat) : s.snoopWrite a n = s := by simp [State.snoopWrite, h]

theorem State.devStore_bare (h : s.host.dirs = []) (a : Nat) (bs : List Byte) :
    (s.devStore a bs).mem = s.mem.store a bs ∧ (s.devStore a bs).host = s.host := by
  simp [State.devStore, State.snoopWrite_none h]

@[simp] theorem State.toPort_host (s : State) (n : Nat) (bs : List Byte) : (s.toPort n bs).host = s.host := by
  unfold State.toPort
  dsimp only
  split <;> rfl

@[simp] theorem State.sendAt_host (s : State) (op a : Nat) (bs : List Byte) : (s.sendAt op a bs).host = s.host := by
  unfold State.sendAt State.send
  dsimp only
  repeat' split
  all_goals simp

@[simp] theorem State.keepSentAt_host (s : State) (a st : Nat) (bs : List Byte) : (s.keepSentAt a st bs).host = s.host := by
  unfold State.keepSentAt State.keepSent
  dsimp only
  repeat' split
  all_goals rfl

@[simp] theorem State.recallPage_host (s : State) (p : Nat) (own : Bool) : (s.recallPage p own).1.host = s.host := by
  have h : (if own then s.yieldLease p else s).host = s.host := by split <;> rfl
  unfold State.recallPage
  dsimp only
  generalize (if own then s.yieldLease p else s) = w at h ⊢
  split <;> exact h

@[simp] theorem State.recallPages_host (s : State) (ps : List Nat) (own : Bool) : (s.recallPages ps own).1.host = s.host :=
  foldl_keeps (fun w : State × Bool => w.1.host = s.host) _ _ _ rfl fun w p h => (w.1.recallPage_host p own).trans h

/-! ### Writes in place -/

theorem State.keepSentAt_memOnly (s : State) (a st : Nat) (bs : List Byte) : MemOnly s (s.keepSentAt a st bs) := by
  unfold State.keepSentAt State.keepSent
  dsimp only
  repeat' split
  · exact memOnly_fields ..
  · exact .refl s
  · exact .refl s

theorem State.updateCopies_memOnly (s : State) (a : Nat) (bs : List Byte) : MemOnly s (s.updateCopies a bs) := by
  have h : MemOnly s (s.mapCores fun c => { c with l1 := c.l1.map fun e => (e.1, updateLine e.1 e.2 a bs) }) :=
    ⟨rfl, fun e => by simp [State.mapCores, e]⟩
  unfold State.updateCopies
  dsimp only
  split
  · exact h.trans (memOnly_fields ..)
  · exact h

theorem State.homePut_memOnly (s : State) (a : Nat) (bs : List Byte) : MemOnly s (s.homePut a bs).1 := by
  unfold State.homePut
  split
  · exact (((s.snoopWrite_memOnly a _).trans (State.coverPoison_memOnly ..)).trans (memOnly_fields ..)).trans
      ((State.updateCopies_memOnly ..).trans (State.fireWatches_memOnly _))
  · split
    · exact ((memOnly_fields ..).trans (State.coverPoison_memOnly ..)).trans (State.updateCopies_memOnly ..)
    · exact .refl s
  · split
    · exact memOnly_fields ..
    · exact .refl s
  · exact memOnly_fields ..
  · exact .refl s

/-- The state t comes from s, in which no host copy of a line is out, by writes to bytes of A alone. -/
structure Changes (A : Nat → Prop) (s t : State) : Prop where
  wf : t.memWf
  host : t.host = s.host
  root : t.root = s.root
  regs : t.regs = s.regs
  agree : ∀ a, ¬A a → t.mem.get a = s.mem.get a

theorem Changes.refl {A : Nat → Prop} (h : s.memWf) : Changes A s s := ⟨h, rfl, rfl, rfl, fun _ _ => rfl⟩

theorem Changes.trans {A : Nat → Prop} (h : Changes A s t) (k : Changes A t u) : Changes A s u :=
  ⟨k.wf, k.host.trans h.host, k.root.trans h.root, k.regs.trans h.regs, fun a ha => (k.agree a ha).trans (h.agree a ha)⟩

theorem Changes.mono {A B : Nat → Prop} (h : Changes A s t) (hAB : ∀ a, A a → B a) : Changes B s t :=
  { h with agree := fun a ha => h.agree a fun hA => ha (hAB a hA) }

/-- What the memory system did to a state that has the memory of the other one, but for a store. -/
theorem changes_of_store {a : Nat} {bs : List Byte} (hm : MemOnly s t) (hh : t.host = s.host) (w : s.memWf)
    (h : t.mem = s.mem.store a bs ∨ t.mem = s.mem) : Changes (fun c => a ≤ c ∧ c < a + bs.length) s t := by
  have root : t.root = s.root := hm.root
  rcases h with h | h
  · refine ⟨?_, hh, root, hm.regs, fun c hc => ?_⟩
    · rw [State.memWf, h]
      exact Mem.wf_store a bs w
    · rw [h, Mem.get_store a bs c w, if_neg hc]
  · exact ⟨by rw [State.memWf, h]; exact w, hh, root, hm.regs, fun c _ => by rw [h]⟩

@[simp] theorem State.updateCopies_host (s : State) (a : Nat) (bs : List Byte) : (s.updateCopies a bs).host = s.host := by
  unfold State.updateCopies
  dsimp only
  split <;> rfl

theorem State.homePut_bare (h : s.host.dirs = []) (a : Nat) (bs : List Byte) :
    ((s.homePut a bs).1.mem = s.mem.store a bs ∨ (s.homePut a bs).1.mem = s.mem) ∧ (s.homePut a bs).1.host = s.host := by
  unfold State.homePut
  split
  · simp [State.snoopWrite_none h, State.updateCopies_mem]
  · split
    · simp [State.updateCopies_mem]
    · exact ⟨.inr rfl, rfl⟩
  · split
    · exact ⟨.inl rfl, rfl⟩
    · exact ⟨.inr rfl, rfl⟩
  · exact ⟨.inr rfl, rfl⟩
  · exact ⟨.inr rfl, rfl⟩

theorem State.homePut_changes (w : s.memWf) (h : s.host.dirs = []) (a : Nat) (bs : List Byte) :
    Changes (fun c => a ≤ c ∧ c < a + bs.length) s (s.homePut a bs).1 :=
  changes_of_store (s.homePut_memOnly a bs) (State.homePut_bare h a bs).2 w (State.homePut_bare h a bs).1

/-- The transactions that carry the bytes of a write to a pool home. -/
def State.sendsOf (s : State) (a : Nat) (bs : List Byte) : State :=
  if spaceOf a = 1 then
    (linesOf 64 a bs.length).foldl (fun (s : State) l =>
      let lo := max a (l * 64)
      let hi := min (a + bs.length) ((l + 1) * 64)
      (s.sendAt 0x0B lo ((bs.drop (lo - a)).take (hi - lo))).keepSentAt lo 0 []) s
  else s

theorem State.homeWrite_eq (s : State) (a : Nat) (bs : List Byte) : s.homeWrite a bs = (s.sendsOf a bs).homePut a bs := rfl

/-- Sending changes no byte. -/
theorem State.sendsOf_stays (s : State) (a : Nat) (bs : List Byte) :
    MemOnly s (s.sendsOf a bs) ∧ (s.sendsOf a bs).mem = s.mem ∧ (s.sendsOf a bs).host = s.host := by
  unfold State.sendsOf
  split
  · refine foldl_keeps (fun w : State => MemOnly s w ∧ w.mem = s.mem ∧ w.host = s.host) _ _ _ ⟨.refl s, rfl, rfl⟩ fun w l h => ?_
    obtain ⟨ho, hm, hh⟩ := h
    exact ⟨(ho.trans (State.sendAt_memOnly ..)).trans (State.keepSentAt_memOnly ..), by simp [hm], by simp [hh]⟩
  · exact ⟨.refl s, rfl, rfl⟩

theorem State.homeWrite_changes (w : s.memWf) (h : s.host.dirs = []) (a : Nat) (bs : List Byte) :
    Changes (fun c => a ≤ c ∧ c < a + bs.length) s (s.homeWrite a bs).1 := by
  obtain ⟨ho, hm, hh⟩ := s.sendsOf_stays a bs
  have wf : (s.sendsOf a bs).memWf := by rw [State.memWf, hm]; exact w
  rw [State.homeWrite_eq]
  exact (changes_of_store ho hh w (.inr hm)).trans (State.homePut_changes wf (by rw [hh, h]) a bs)

theorem State.writeWords_changes (w : s.memWf) (h : s.host.dirs = []) (a : Nat) (ws : List (List Byte)) :
    Changes (fun c => a ≤ c ∧ c < a + ws.flatten.length) s (s.writeWords a ws).1 := by
  induction ws generalizing s a with
  | nil => exact .refl w
  | cons b ws ih =>
    have k := State.homeWrite_changes w h a b
    have l := ih k.wf (by rw [k.host, h]) (a + b.length)
    simp only [List.flatten_cons, List.length_append]
    exact (k.mono fun c hc => by omega).trans (l.mono fun c hc => by omega)

theorem length_flatten_runs (n fuel : Nat) (bs : List Byte) : (runs n fuel bs).flatten.length ≤ bs.length := by
  induction fuel generalizing bs with
  | zero => exact Nat.zero_le _
  | succ fuel ih =>
    unfold runs
    split
    · exact Nat.zero_le _
    · have := ih (bs.drop n)
      simp only [List.flatten_cons, List.length_append, List.length_take, List.length_drop] at this ⊢
      omega

theorem splitBytes_le {ps : List Part} {bs : List Byte} {e : Part × List Byte} (h : e ∈ splitBytes ps bs) :
    e.1 ∈ ps ∧ e.2.length ≤ e.1.len := by
  induction ps generalizing bs with
  | nil => cases h
  | cons p ps ih =>
    rcases List.mem_cons.1 h with rfl | h
    · exact ⟨List.mem_cons_self, List.length_take_le ..⟩
    · exact ⟨List.mem_cons_of_mem _ (ih h).1, (ih h).2⟩

theorem State.writePlaced_changes {ps : List PPart} (w : s.memWf) (h : s.host.dirs = []) (n : Nat) (bs : List Byte) :
    Changes (inPlaceAt ps) s (s.writePlaced n (splitBytes (partsOf ps) bs)).1 := by
  unfold State.writePlaced
  refine List.foldlRecOn _ _ (motive := fun q : State × Bool => Changes (inPlaceAt ps) s q.1) (.refl w) fun q hq e he => ?_
  split
  · exact hq
  · next hrc =>
    obtain ⟨hp, hle⟩ := splitBytes_le he
    obtain ⟨p, hp, hpe⟩ := List.mem_map.1 hp
    refine hq.trans ((State.writeWords_changes hq.wf (by rw [hq.host, h]) ..).mono fun c hc => ⟨p, hp, ?_⟩)
    have := length_flatten_runs n e.2.length e.2
    rw [hpe]
    exact ⟨hrc, hc.1, by omega⟩

/-! ### Charges of a billet -/

theorem State.devNat_eq (h : s.host.dirs = []) (a n : Nat) : s.devNat a n = leNat (s.mem.bytes a n) := by
  simp [State.devNat, State.devBytes, h]

theorem Mem.bytes_congr {m l : Mem} {a n : Nat} (h : ∀ c, a ≤ c → c < a + n → m.get c = l.get c) : m.bytes a n = l.bytes a n := by
  induction n generalizing a with
  | zero => rfl
  | succ n ih =>
    rw [Mem.bytes, Mem.bytes, h a le_rfl (by omega), ih fun c h1 h2 => h c (by omega) (by omega)]

theorem Changes.devNat {A : Nat → Prop} (k : Changes A s t) (h : s.host.dirs = []) {a n : Nat}
    (hA : ∀ c, a ≤ c → c < a + n → ¬A c) : t.devNat a n = s.devNat a n := by
  rw [State.devNat_eq h, State.devNat_eq (by rw [k.host, h]), Mem.bytes_congr fun c h1 h2 => k.agree c (hA c h1 h2)]

/-- Usage fields lie apart from the root block and from the fields that make the paths, so writes to them move no path. -/
theorem logUsage.apart {a : Nat} (h : logUsage u a) : 200 ≤ (a - u.rtBase) % 256 ∧ u.rtBase ≤ a := by
  obtain ⟨g, r, -, -, h1, h2⟩ := h
  unfold State.rcbAddr at h1 h2
  omega

section
variable (h : u.host.dirs = []) (hroot : ∀ a, logUsage u a → ¬(u.root.toNat ≤ a ∧ a < u.root.toNat + 8))
  (k : Changes (logUsage u) u t)
include h hroot k

theorem Changes.rtBase : t.rtBase = u.rtBase := by
  unfold State.rtBase State.rootNat
  rw [k.root, k.devNat h fun c h1 h2 hc => hroot c hc (by omega)]

theorem Changes.rcbAddr (r : Nat) : t.rcbAddr r = u.rcbAddr r := by rw [State.rcbAddr, k.rtBase h hroot, State.rcbAddr]

theorem Changes.rcbParent (r : Nat) : t.rcbParent r = u.rcbParent r := by
  unfold State.rcbParent State.rcb
  rw [k.rcbAddr h hroot]
  refine k.devNat h fun c h1 h2 hc => ?_
  have := hc.apart
  unfold State.rcbAddr at h1 h2
  omega

theorem Changes.pathFrom (f r : Nat) : t.pathFrom f r = u.pathFrom f r := by
  induction f generalizing r with
  | zero => rfl
  | succ f ih =>
    unfold State.pathFrom
    rw [k.rcbParent h hroot]
    simp only [ih]

end

/-- A charge for a billet of the step's log stays in the usage fields of its path. -/
theorem Changes.charge {g : LogSt} (h : u.host.dirs = []) (hroot : ∀ a, logUsage u a → ¬(u.root.toNat ≤ a ∧ a < u.root.toNat + 8))
    (hg : u.log? u.logNum = some g) (n : Nat) (k : Changes (logUsage u) u t) :
    Changes (logUsage u) u (t.charge g.region.toNat .log n) := by
  have hpath : t.path g.region.toNat = u.path g.region.toNat := k.pathFrom h hroot 8 _
  unfold State.charge
  rw [hpath]
  refine List.foldlRecOn _ _ k fun v kv r hr => ?_
  have hd : v.host.dirs = [] := by rw [kv.host, h]
  refine kv.trans ((changes_of_store (v.setUsage_memOnly r .log _) (State.devStore_bare hd ..).2 kv.wf
    (.inl (State.devStore_bare hd ..).1)).mono fun c hc => ⟨g, r, hg, hr, ?_⟩)
  rw [kv.rcbAddr h hroot, length_natLe] at hc
  exact hc

/-! ### Records -/

@[simp] theorem LogSt.push_region (g : LogSt) (r : Rec) : (g.push r).region = g.region := by
  unfold LogSt.push LogSt.mapLast
  split <;> rfl

theorem State.newBillet_cases {g g' : LogSt} {ftok : BitVec 32} (h : t.newBillet g ftok = .ok (v, g')) :
    v = (if g.budget then t.charge g.region.toNat .log 4096 else t) ∧ ∃ l b, g' = { g with bills := l ++ [b] } := by
  unfold State.newBillet at h
  split at h
  · cases h
  · cases h
    exact ⟨rfl, _, _, rfl⟩

theorem Changes.appendTo {g g' : LogSt} {ftok : BitVec 32} (h : u.host.dirs = [])
    (hroot : ∀ a, logUsage u a → ¬(u.root.toNat ≤ a ∧ a < u.root.toNat + 8)) {l : LogSt} (hl : u.log? u.logNum = some l)
    (hg : g.region = l.region) {rs : List Rec} (k : Changes (logUsage u) u t) (e : t.appendTo g ftok rs = .ok (v, g')) :
    Changes (logUsage u) u v := by
  induction rs generalizing t g with
  | nil => cases e; exact k
  | cons r rs ih =>
    unfold State.appendTo at e
    split at e
    · exact ih (by simpa using hg) k e
    · split at e
      · cases e
      · next w f hb =>
        obtain ⟨rfl, b, c, rfl⟩ := State.newBillet_cases hb
        refine ih (by simpa using hg) ?_ e
        split
        · rw [hg]
          exact k.charge h hroot hl 4096
        · exact k

/-- The bookkeeping of a record in the core and in the log leaves memory and registers. -/
theorem State.pinned_stays (s : State) (rs : List Rec) (g : LogSt) : let t := ((s.pinLoads rs).pinCopies rs).setLog g
    t.mem = s.mem ∧ t.host = s.host ∧ t.root = s.root ∧ t.regs = s.regs := by
  dsimp only
  unfold State.pinCopies
  split <;> exact ⟨rfl, rfl, rfl, rfl⟩

theorem Changes.appendRecs {rs : List Rec} (h : u.host.dirs = [])
    (hroot : ∀ a, logUsage u a → ¬(u.root.toNat ≤ a ∧ a < u.root.toNat + 8)) (hlog : t.logNum = u.logNum ∧ t.logs = u.logs)
    (k : Changes (logUsage u) u t) (e : t.appendRecs rs = .ok v) : Changes (logUsage u) u v := by
  obtain ⟨hn, hs⟩ := hlog
  unfold State.appendRecs at e
  split at e
  · next x g hx hg =>
    rw [hn, State.log?, hs] at hg
    split at e
    · cases e
    · next w l ha =>
      cases e
      obtain ⟨hm, hh, hr, hreg⟩ := State.pinned_stays w rs l
      have kw := k.appendTo h hroot hg rfl ha
      exact ⟨by rw [State.memWf, hm]; exact kw.wf, hh.trans kw.host, hr.trans kw.root, hreg.trans kw.regs,
        fun a ha => (congrArg (·.get a) hm).trans (kw.agree a ha)⟩
  · cases e
    exact k

/-! ### A store as a whole -/

/-- Recalling leases changes no byte. -/
theorem State.recallPlaced_stays (s : State) (ps : List Part) :
    MemOnly s (s.recallPlaced ps).1 ∧ (s.recallPlaced ps).1.mem = s.mem ∧ (s.recallPlaced ps).1.host = s.host :=
  ⟨s.recallPages_memOnly _ _, s.recallPages_mem _ _, s.recallPages_host _ _⟩

theorem Changes.storeBytes {ps : List PPart} {bad : Bool} {kind : Fin 4} {run word : Nat} {bs : List Byte} (w : u.memWf)
    (h : u.host.dirs = []) (hroot : ∀ a, logUsage u a → ¬(u.root.toNat ≤ a ∧ a < u.root.toNat + 8))
    (hx : u.recallPlaced (partsOf ps) = (x, true)) (e : x.storeBytes kind run word (partsOf ps) bs = .ok (v, bad)) :
    Changes (fun a => inPlaceAt ps a ∨ logUsage u a) u v := by
  have hr := u.recallPlaced_stays (partsOf ps)
  rw [hx] at hr
  obtain ⟨ho, hm, hh⟩ := hr
  have k : Changes (logUsage u) u x := ⟨by rw [State.memWf, hm]; exact w, hh, ho.root, ho.regs, fun a _ => by rw [hm]⟩
  unfold State.storeBytes at e
  dsimp only at e
  split at e
  · cases e
  · next y ha =>
    have ky := k.appendRecs h hroot ⟨ho.logNum, ho.logs⟩ ha
    have kp := State.writePlaced_changes (ps := ps) ky.wf (by rw [ky.host, h]) word bs
    rw [Except.ok.inj e] at kp
    exact (ky.mono fun a => .inr).trans (kp.mono fun a => .inl)

/-- The checks before a store only look. -/
theorem State.elemParts_looks (s : State) (before : List Src) (m : MAddr) (size align : Nat) (perms : List Nat) (need : Need)
    (i n : Nat) : Looks s (s.elemParts before m size align perms need i n).1 := by
  induction n generalizing s i with
  | zero => exact .refl s
  | succ n ih =>
    have h := s.access_looks s.tenant s.core.caps[m.cap] (s.eaOf m (s.oregVal before m) + (i * size : Nat)) size align perms need
    unfold State.elemParts
    dsimp only
    split
    · next e => rw [e] at h; exact h
    · next w ps e =>
      rw [e] at h
      have k := ih w (i + 1)
      split
      · next e => rw [e] at k; exact h.trans k
      · next e => rw [e] at k; exact h.trans k

/-- A store that nothing holds goes. -/
theorem storeDone_go {kind : Fin 4} {run word : Nat} {ps : List PPart} {bs : List Byte} {post : State → State} {bad : Bool}
    (hso : u.soWait ps = false) (hrc : u.rcBusy ps = false) (hp : partsPois ps = false)
    (hx : u.recallPlaced (partsOf ps) = (x, true)) (e : x.storeBytes kind run word (partsOf ps) bs = .ok (v, bad)) :
    storeDone u kind run word ps bs post = .go (post (if bad then v.deferTrap .poison 6 0 else v)) := by
  simp only [storeDone, hso, hrc, hp, hx, e]
  rfl

theorem storeFramed_of {i : Instr} {h : Hdr} {srcs : List Src} {kind : Fin 4} {run word : Nat}
    {parts : State → State × Except Bad (List PPart)} {data : State → State → List Byte} {eff : State → Done} {post : State → State}
    (hi : ∀ s, exec i s = issue (gateM [.s]) h (useS srcs) eff s) (hlook : ∀ t, Looks t (parts t).1)
    (hpost : ∀ t, (post t).regs = t.regs ∧ (post t).mem = t.mem)
    (heff : ∀ t u ps, parts t = (u, .ok ps) → eff t = storeDone u kind run word ps (data t u) post) :
    storeFramed i h srcs kind run word parts data := by
  intro s t u x v ps bad he hp hso hrc hpois hx hst hw hd hroot hex
  obtain ⟨hbytes, hregs⟩ : (∀ a, ¬inPlaceAt ps a → ¬logUsage u a → t.mem.get a = s.mem.get a) ∧ t.regs = s.regs := by
    have hl := hlook s.markIssued
    rw [hp] at hl
    obtain ⟨hud, hum⟩ := hl.2.2 hd
    have k := Changes.storeBytes (by rw [State.memWf, hum]; exact hw) hud hroot hx hst
    rw [hi, issue_go he ((heff _ u ps hp).trans (storeDone_go hso hrc hpois hx hst))] at hex
    cases hex
    have hv : (if bad then v.deferTrap .poison 6 0 else v).regs = v.regs ∧
        (if bad then v.deferTrap .poison 6 0 else v).mem = v.mem := by
      split
      · exact v.deferTrap_stays ..
      · exact ⟨rfl, rfl⟩
    obtain ⟨hpr, hpm⟩ := hpost (if bad then v.deferTrap .poison 6 0 else v)
    constructor
    · intro a h1 h2
      rw [State.finish_mem, hpm, hv.2, k.agree a (not_or.2 ⟨h1, h2⟩), hum]
      rfl
    · rw [State.finish_regs, hpr, hv.1, k.regs, hl.regs, State.markIssued_regs]
  exact ⟨hbytes, State.regs_stay hregs⟩

theorem st_framed (h : Hdr) (o : StOp) : storeFramed (.st h o) h [o.a, o.m.oreg.src] 0 128 (2 ^ o.size.val)
    (fun t => t.memAccess [o.a] o.m (2 ^ o.size.val) 1 [permW] .write) fun _ u => natLe (2 ^ o.size.val) (u.val 0 o.a).toNat := by
  refine storeFramed_of (post := id) (fun s => (rfl : execSt h o s = _)) (fun t => t.memAccess_looks ..) (fun t => ⟨rfl, rfl⟩) ?_
  intro t u ps hp
  simp only [hp]

theorem tileStoreParts_ok {o : TileOp} {ps : List PPart} (h : tileStoreParts o t = (u, .ok ps)) :
    ∃ byte n, tileWord (t.val 0 o.a).toNat = some (byte, n) ∧ t.memAccess [o.a] o.m n 8 [permW] .write = (u, .ok ps) ∧
      u.core.breach [⟨1, byte, n, false⟩] = false := by
  unfold tileStoreParts at h
  split at h
  · cases h
  · next byte n e =>
    split at h
    · next w qs hm =>
      split at h
      · cases h
      · next hb =>
        cases h
        exact ⟨byte, n, e, hm, by simpa using hb⟩
    · cases h

theorem tileStoreParts_looks (o : TileOp) (t : State) : Looks t (tileStoreParts o t).1 := by
  unfold tileStoreParts
  split
  · exact .refl t
  · next byte n e =>
    have h := t.memAccess_looks [o.a] o.m n 8 [permW] .write
    split
    · next e =>
      rw [e] at h
      split
      · exact h
      · exact h
    · next e => rw [e] at h; exact h

theorem stTile_framed (h : Hdr) (o : TileOp) :
    storeFramed (.stTile h o) h [o.a, o.m.oreg.src] 1 1024 8 (tileStoreParts o) fun t u =>
      match tileWord (t.val 0 o.a).toNat with
      | some (byte, n) => u.core.tile.bytes byte n
      | none => [] := by
  refine storeFramed_of (post := id) (fun s => (rfl : execStTile h o s = _)) (tileStoreParts_looks o) (fun t => ⟨rfl, rfl⟩) ?_
  intro t u ps hp
  obtain ⟨byte, n, ht, hm, hb⟩ := tileStoreParts_ok hp
  simp only [ht, hm, State.owned, hb]
  rfl

theorem queueStoreParts_ok {o : QMemOp} {ps : List PPart} (h : queueStoreParts o t = (u, .ok ps)) :
    ∃ els, ¬t.core.sdq.poppable.length < (if o.m.oreg = .q then o.n.val + 1 + 1 else o.n.val + 1) ∧
      t.elemParts (List.replicate (o.n.val + 1) .q) o.m (2 ^ o.size.val) 1 [permW] .write 0 (o.n.val + 1) = (u, .ok els) ∧
      ps = els.flatten := by
  unfold queueStoreParts at h
  dsimp only at h
  generalize (if o.m.oreg = .q then o.n.val + 1 + 1 else o.n.val + 1) = pops at h ⊢
  split at h
  · cases h
  · next hq =>
    split at h
    · next w els he =>
      cases h
      exact ⟨els, hq, he, rfl⟩
    · cases h

theorem queueStoreParts_looks (o : QMemOp) (t : State) : Looks t (queueStoreParts o t).1 := by
  have h := t.elemParts_looks (List.replicate (o.n.val + 1) .q) o.m (2 ^ o.size.val) 1 [permW] .write 0 (o.n.val + 1)
  unfold queueStoreParts
  dsimp only
  generalize (if o.m.oreg = .q then o.n.val + 1 + 1 else o.n.val + 1) = pops
  split
  · exact .refl t
  · split
    · next e => rw [e] at h; exact h
    · next e => rw [e] at h; exact h

theorem stq_framed (h : Hdr) (o : QMemOp) :
    storeFramed (.stq h o) h [o.m.oreg.src] 0 128 (2 ^ o.size.val) (queueStoreParts o) fun _ u =>
      (u.core.sdq.poppable.take (o.n.val + 1)).flatMap fun x => natLe (2 ^ o.size.val) x.toNat := by
  refine storeFramed_of (post := fun t => t.popSdq (o.n.val + 1)) (fun s => (rfl : execStq h o s = _)) (queueStoreParts_looks o)
    (fun t => t.popSdq_stays _) ?_
  intro t u ps hp
  obtain ⟨els, hq, he, rfl⟩ := queueStoreParts_ok hp
  simp only [if_neg hq, he]

/-- Settles O27: the checks only look, records charge the usage fields of the log's path, and the rest is written in place. -/
theorem storeFrame : Obligations.StoreFrame := by
  unfold Obligations.StoreFrame
  exact ⟨st_framed, stTile_framed, stq_framed⟩

end Sys2Proof.Machine
end

section
/-!
SUPPORT. The bytes that a store in place leaves, and those that its step reads back from its own log (R98, R107, R113).
-/

namespace Sys2Proof.Machine

variable {s t u v : State}

/-! ### In place -/

theorem Mem.store_append (m : Mem) (a : Nat) (bs cs : List Byte) :
    m.store a (bs ++ cs) = (m.store a bs).store (a + bs.length) cs := by
  induction bs generalizing m a with
  | nil => rfl
  | cons b bs ih =>
    rw [List.cons_append, Mem.store, Mem.store, ih, List.length_cons, Nat.add_right_comm, Nat.add_assoc]

/-- Cut into runs that are not empty, the bytes are all there. -/
theorem flatten_runs {n : Nat} (hn : 0 < n) {fuel : Nat} {bs : List Byte} (h : bs.length ≤ fuel) :
    (runs n fuel bs).flatten = bs := by
  induction fuel generalizing bs with
  | zero => rw [List.length_eq_zero_iff.1 (Nat.le_zero.1 h)]; rfl
  | succ fuel ih =>
    unfold runs
    split
    · next e => rw [List.isEmpty_iff.1 e]; rfl
    · rw [List.flatten_cons, ih (by rw [List.length_drop]; omega), List.take_append_drop]

theorem State.homeWrite_local {a : Nat} (ha : spaceOf a = 0) (h : s.host.dirs = []) (bs : List Byte) :
    (s.homeWrite a bs).2 = false ∧ (s.homeWrite a bs).1.mem = s.mem.store a bs ∧ (s.homeWrite a bs).1.host = s.host := by
  simp [State.homeWrite, State.homePut, ha, State.snoopWrite_none h, State.updateCopies_mem]

/-- Words written in place in local HBM, one behind the other. -/
theorem State.writeWords_local {a : Nat} {ws : List (List Byte)} (ha : spaceOf (a + ws.flatten.length) = 0) (h : s.host.dirs = []) :
    (s.writeWords a ws).2 = false ∧ (s.writeWords a ws).1.mem = s.mem.store a ws.flatten := by
  induction ws generalizing s a with
  | nil => exact ⟨rfl, rfl⟩
  | cons b ws ih =>
    rw [List.flatten_cons, List.length_append, ← Nat.add_assoc] at ha
    have h0 : spaceOf a = 0 := Nat.div_eq_of_lt (lt_of_le_of_lt (by omega) (Nat.lt_of_div_eq_zero (by decide) ha))
    obtain ⟨hb, hm, hh⟩ := State.homeWrite_local h0 h b
    obtain ⟨ib, im⟩ := ih ha (hh ▸ h)
    unfold State.writeWords
    dsimp only
    rw [hb, ib, im, hm, List.flatten_cons, Mem.store_append]
    exact ⟨rfl, rfl⟩

theorem splitBytes_one {p : Part} {bs : List Byte} (h : bs.length = p.len) : splitBytes [p] bs = [(p, bs)] := by
  simp [splitBytes, ← h]

/-- Without records the log takes nothing. -/
theorem State.appendRecs_nil (h : s.appendRecs [] = .ok t) : t.mem = s.mem ∧ t.host = s.host := by
  unfold State.appendRecs State.appendTo at h
  split at h
  · next x g _ _ =>
    cases h
    obtain ⟨hm, hh, -, -⟩ := s.pinned_stays [] g
    exact ⟨hm, hh⟩
  · cases h
    exact ⟨rfl, rfl⟩

theorem State.storeBytes_local {p : Part} {bs : List Byte} {bad : Bool} {kind : Fin 4} {run word : Nat} (hk : p.kind ≠ .rc)
    (hp : spaceOf (p.addr + bs.length) = 0) (hl : bs.length = p.len) (hw : 0 < word) (wf : u.memWf) (hd : u.host.dirs = [])
    (e : u.storeBytes kind run word [p] bs = .ok (v, bad)) : bad = false ∧ v.mem.bytes p.addr p.len = bs := by
  unfold State.storeBytes at e
  rw [splitBytes_one hl] at e
  simp only [List.flatMap_cons, List.flatMap_nil, if_neg hk, List.append_nil] at e
  split at e
  · cases e
  · next t ha =>
    obtain ⟨hm, hh⟩ := State.appendRecs_nil ha
    have hf : (runs word bs.length bs).flatten = bs := flatten_runs hw le_rfl
    obtain ⟨hb, hs⟩ := State.writeWords_local (s := t) (a := p.addr) (ws := runs word bs.length bs) (by rw [hf, hp])
      (by rw [hh, hd])
    have e' : t.writePlaced word [(p, bs)] = (v, bad) := Except.ok.inj e
    simp only [State.writePlaced, List.foldl_cons, List.foldl_nil, if_neg hk, hb, Bool.or_false, Prod.mk.injEq] at e'
    obtain ⟨rfl, rfl⟩ := e'
    refine ⟨rfl, ?_⟩
    rw [hs, hf, hm, ← hl]
    exact Mem.bytes_store p.addr bs wf

/-! ### In the log of the step -/

/-- The record of a store of at most 128 bytes to an RC part. -/
def storeRec (p : Part) (bs : List Byte) : Rec := ⟨p.addr, bs, 0, false, 0, true, 0⟩

theorem partRecs_one {p : Part} {bs : List Byte} (h : bs ≠ []) (hl : bs.length ≤ 128) :
    partRecs 0 false 0 128 p bs = [storeRec p bs] := by
  obtain ⟨b, cs, rfl⟩ := List.exists_cons_of_ne_nil h
  have e : runs 128 (b :: cs).length (b :: cs) = [b :: cs] := by
    rw [List.length_cons, runs, if_neg (by simp), List.take_of_length_le hl, List.drop_of_length_le hl]
    unfold runs
    split <;> rfl
  rw [partRecs, e]
  rfl

/-- The records of a log, in its order. -/
def LogSt.recs (g : LogSt) : List Rec := g.bills.flatMap (·.recs)

theorem LogSt.push_recs {g : LogSt} (h : g.bills ≠ []) (r : Rec) : (g.push r).recs = g.recs ++ [{ r with rseq := g.nrec }] := by
  obtain ⟨l, b, e⟩ := List.eq_nil_or_concat g.bills |>.resolve_left h
  simp [LogSt.push, LogSt.mapLast, LogSt.recs, e]

@[simp] theorem LogSt.push_num (g : LogSt) (r : Rec) : (g.push r).num = g.num := by
  unfold LogSt.push LogSt.mapLast
  split <;> rfl

theorem LogSt.openFor_bills {g : LogSt} {n : Nat} (h : g.openFor n = true) : g.bills ≠ [] := by
  rintro e
  simp [LogSt.openFor, e] at h

theorem State.charge_memOnly (s : State) (r : Nat) (b : Budget) (n : Nat) : MemOnly s (s.charge r b n) :=
  MemOnly.of_foldl _ (fun t x => t.setUsage_memOnly x b _) _ _

/-- One record appended stands last in its log; without a budget memory stays. -/
theorem State.appendTo_one {g l : LogSt} {ftok : BitVec 32} {r : Rec} (e : s.appendTo g ftok [r] = .ok (t, l)) :
    (∃ rs n, l.recs = rs ++ [{ r with rseq := n }]) ∧ l.num = g.num ∧ MemOnly s t ∧ (g.budget = false → t.mem = s.mem) := by
  unfold State.appendTo at e
  split at e
  · next ho =>
    cases e
    exact ⟨⟨_, _, LogSt.push_recs (LogSt.openFor_bills ho) r⟩, g.push_num r, .refl s, fun _ => rfl⟩
  · split at e
    · cases e
    · next w f hb =>
      cases e
      obtain ⟨rfl, b, c, rfl⟩ := State.newBillet_cases hb
      refine ⟨⟨_, _, LogSt.push_recs (by simp) r⟩, LogSt.push_num .., ?_, fun hg => by simp [hg]⟩
      split
      · exact s.charge_memOnly ..
      · exact .refl s

/-- The log entered is the one found. -/
theorem State.log?_setLog {g l : LogSt} (h : s.log? l.num = some g) : (s.setLog l).log? l.num = some l := by
  unfold State.log? State.setLog at *
  dsimp only at *
  generalize s.logs = logs at h ⊢
  induction logs with
  | nil => cases h
  | cons y ys ih =>
    by_cases hy : y.num = l.num
    · simp [hy]
    · simp only [List.find?_cons, List.map_cons, if_neg hy, decide_eq_false hy] at h ⊢
      exact ih h

theorem State.log?_num {n : BitVec 32} {g : LogSt} (h : s.log? n = some g) : g.num = n := by
  simpa using List.find?_some h

/-- A log with a record last, once it is entered: its step reads the bytes of that record (R113). -/
theorem Rec.find?_cells (r : Rec) {i : Nat} (hi : i < r.data.length) (rest : List (Nat × Byte)) :
    (r.cells ++ rest).find? (fun e => e.1 = r.addr + i) = some (r.addr + i, r.data.getD i 0) := by
  have h : ∀ (bs : List Byte) (k i : Nat), i < bs.length →
      ((bs.zipIdx k).map fun (b, j) => (r.addr + j, b)).find? (fun e => e.1 = r.addr + (k + i)) =
        some (r.addr + (k + i), bs.getD i 0) := by
    intro bs
    induction bs with
    | nil => intro k i hi; cases hi
    | cons b bs ih =>
      intro k i hi
      cases i with
      | zero => simp
      | succ i =>
        rw [List.zipIdx_cons, List.map_cons, List.find?_cons_of_neg (by simp)]
        have := ih (k + 1) i (by simpa using hi)
        rw [show k + 1 + i = k + (i + 1) by omega] at this
        simpa using this
  have := h r.data 0 i hi
  rw [Nat.zero_add] at this
  unfold Rec.cells
  rw [List.find?_append, this]
  rfl

theorem State.ownBytes_last {p : Part} {bs : List Byte} {g : LogSt} {rs : List Rec} {n : BitVec 32} (hk : p.kind = .rc)
    (hl : bs.length = p.len) (h0 : bs ≠ []) (hg : s.log? s.logNum = some g)
    (hr : g.recs = rs ++ [{ storeRec p bs with rseq := n }]) :
    ∃ rest, s.ownBytes [p] = ({ storeRec p bs with rseq := n } : Rec).cells ++ rest := by
  have hpos : 0 < bs.length := List.length_pos_iff.2 h0
  have hr' : g.bills.flatMap (·.recs) = rs ++ [{ storeRec p bs with rseq := n }] := hr
  unfold State.ownBytes
  simp only [hg, hr', List.filter_append, List.filter_cons, List.filter_nil]
  rw [if_pos (by simp [storeRec, hk, ← hl, hpos])]
  exact ⟨_, by rw [List.reverse_append, List.reverse_singleton, List.singleton_append, List.flatMap_cons]⟩

/-- Pinning what loads and copies read leaves the logs. -/
theorem State.pinned_logs (s : State) (rs : List Rec) : let t := (s.pinLoads rs).pinCopies rs
    t.logs = s.logs ∧ t.logNum = s.logNum := by
  dsimp only
  unfold State.pinCopies
  split <;> exact ⟨rfl, rfl⟩

/-- One record appended to the log of the step. -/
theorem State.appendRecs_one {x : StepCtx} {g : LogSt} {r : Rec} (hx : u.core.ctx = some x) (hg : u.log? x.log = some g)
    (e : u.appendRecs [r] = .ok v) :
    (∃ (l : LogSt) (rs : List Rec) (n : BitVec 32), v.log? v.logNum = some l ∧ l.recs = rs ++ [{ r with rseq := n }]) ∧
    (g.budget = false → v.mem = u.mem) := by
  have hn : u.logNum = x.log := by rw [State.logNum, hx]
  unfold State.appendRecs at e
  rw [hx, hn, hg] at e
  dsimp only at e
  split at e
  · cases e
  · next w l ha =>
    cases e
    obtain ⟨⟨rs, n, hrs⟩, hnum, ho, hm⟩ := State.appendTo_one ha
    have hln : l.num = x.log := hnum.trans (State.log?_num hg)
    obtain ⟨hls, hpn⟩ := w.pinned_logs [r]
    have hw : ((w.pinLoads [r]).pinCopies [r]).log? l.num = some g := by
      rw [State.log?, hls, ho.logs, hln]
      exact hg
    refine ⟨⟨l, rs, n, ?_, hrs⟩, fun hb => ?_⟩
    · have hk : (((w.pinLoads [r]).pinCopies [r]).setLog l).logNum = l.num := (hpn.trans (ho.logNum.trans hn)).trans hln.symm
      rw [hk]
      exact State.log?_setLog hw
    · obtain ⟨hpm, -⟩ := w.pinned_stays [r] l
      rw [hpm, hm hb]

theorem State.storeBytes_own {p : Part} {bs : List Byte} {bad : Bool} {x : StepCtx} {g : LogSt} (hk : p.kind = .rc)
    (hl : bs.length = p.len) (hp : p.len ≤ 128) (hx : u.core.ctx = some x) (hg : u.log? x.log = some g)
    (e : u.storeBytes 0 128 p.len [p] bs = .ok (v, bad)) :
    (∀ i, i < p.len → (v.ownBytes [p]).find? (fun e => e.1 = p.addr + i) = some (p.addr + i, bs.getD i 0)) ∧
    (g.budget = false → v.mem = u.mem) := by
  unfold State.storeBytes at e
  rw [splitBytes_one hl] at e
  simp only [List.flatMap_cons, List.flatMap_nil, if_pos hk, List.append_nil] at e
  split at e
  · cases e
  · next t ha =>
    have e' : t.writePlaced p.len [(p, bs)] = (v, bad) := Except.ok.inj e
    simp only [State.writePlaced, List.foldl_cons, List.foldl_nil, if_pos hk, Prod.mk.injEq] at e'
    obtain ⟨rfl, -⟩ := e'
    by_cases h0 : bs = []
    · subst h0
      exact ⟨fun i hi => absurd hi (by rw [← hl]; simp), fun _ => (State.appendRecs_nil ha).1⟩
    · rw [partRecs_one h0 (hl ▸ hp)] at ha
      obtain ⟨⟨l, rs, n, hlog, hrs⟩, hm⟩ := State.appendRecs_one hx hg ha
      obtain ⟨rest, ho⟩ := State.ownBytes_last hk hl h0 hlog hrs
      refine ⟨fun i hi => ?_, hm⟩
      rw [ho]
      exact Rec.find?_cells { storeRec p bs with rseq := n } (hl ▸ hi) rest

/-- Settles O28: a store in place by its words, one behind the other; a store in the log by the record that stands last there. -/
theorem storedBytes : Obligations.StoredBytes := by
  unfold Obligations.StoredBytes
  exact ⟨fun u v p bs bad kind run word hk _ hp hl hw wf hd e => State.storeBytes_local hk hp hl hw wf hd e,
    fun u v p bs bad x g hk hl hp hx hg e => State.storeBytes_own hk hl hp hx hg e⟩

end Sys2Proof.Machine
end

section
/-!
SUPPORT. The checks of an access in their order (R94), the traps of their failures (R366), and stores at issue (R98, R105,
R107, R209).
-/

namespace Sys2Proof.Machine

/-! ### The checks of an access -/

section
variable {s u v : State} {ten n align : Nat} {c : Option Cap} {w : Window} {ea : Int} {perms : List Nat} {need : Need}

theorem State.access_null : s.access ten none ea n align perms need = (s, .error (.cause .capfault 0)) := rfl

variable (hw : s.window c = (u, .ok w))
include hw

theorem State.access_outside (h : ea < 0 ∨ (w.len : Int) < ea + n) :
    s.access ten c ea n align perms need = (u, .error (.cause .capfault 0)) := by
  have hb : (decide (ea < 0) || decide ((w.len : Int) < ea + n)) = true := by simpa using h
  simp only [State.access, hw]
  exact if_pos hb

/-- Inside the range the permissions decide, and then the alignment. -/
theorem State.access_inside (h0 : 0 ≤ ea) (h1 : ea + n ≤ w.len) : s.access ten c ea n align perms need =
    if perms.any fun p => !w.perm.getLsbD p then (u, .error (.cause .capfault 0))
    else
      if (w.vbase + ea.toNat) % align != 0 then (u, .error (.cause .align (w.vbase + ea.toNat)))
      else if (c.map (·.dev)).getD false then
        (u, .ok [⟨⟨keyOf devInfoSpace (w.vbase + ea.toNat - devInfoBase), n, .so, w.vbase + ea.toNat, false⟩, devInfoPg⟩])
      else u.range ((c.map fun x => x.ten.toNat).getD ten) (w.vbase + ea.toNat) n need := by
  have hb : ¬(decide (ea < 0) || decide ((w.len : Int) < ea + n)) = true := by simpa using ⟨h0, h1⟩
  simp only [State.access, hw]
  exact if_neg hb

theorem State.access_unpermitted (h0 : 0 ≤ ea) (h1 : ea + n ≤ w.len) {p : Nat} (hp : p ∈ perms) (h2 : w.perm.getLsbD p = false) :
    s.access ten c ea n align perms need = (u, .error (.cause .capfault 0)) := by
  rw [State.access_inside hw h0 h1, if_pos (List.any_eq_true.2 ⟨p, hp, by simp [h2]⟩)]

theorem State.access_permitted (h0 : 0 ≤ ea) (h1 : ea + n ≤ w.len) (h2 : ∀ p ∈ perms, w.perm.getLsbD p = true) :
    s.access ten c ea n align perms need =
      if (w.vbase + ea.toNat) % align != 0 then (u, .error (.cause .align (w.vbase + ea.toNat)))
      else if (c.map (·.dev)).getD false then
        (u, .ok [⟨⟨keyOf devInfoSpace (w.vbase + ea.toNat - devInfoBase), n, .so, w.vbase + ea.toNat, false⟩, devInfoPg⟩])
      else u.range ((c.map fun x => x.ten.toNat).getD ten) (w.vbase + ea.toNat) n need := by
  rw [State.access_inside hw h0 h1, if_neg]
  simpa using h2

theorem State.access_unaligned (h0 : 0 ≤ ea) (h1 : ea + n ≤ w.len) (h2 : ∀ p ∈ perms, w.perm.getLsbD p = true)
    (h3 : (w.vbase + ea.toNat) % align ≠ 0) :
    s.access ten c ea n align perms need = (u, .error (.cause .align (w.vbase + ea.toNat))) := by
  rw [State.access_permitted hw h0 h1 h2, if_pos (by simpa using h3)]

theorem State.access_translated (h0 : 0 ≤ ea) (h1 : ea + n ≤ w.len) (h2 : ∀ p ∈ perms, w.perm.getLsbD p = true)
    (h3 : (w.vbase + ea.toNat) % align = 0) {d : Cap} {ps : List PPart} (hc : c = some d) (hd : d.dev = false)
    (hr : u.range d.ten.toNat (w.vbase + ea.toNat) n need = (v, .ok ps)) :
    s.access ten c ea n align perms need = (v, .ok ps) := by
  subst hc
  rw [State.access_permitted hw h0 h1 h2, if_neg (by simp [h3]), if_neg (by simp [hd])]
  exact hr

end

/-! ### The traps of a failed check -/

section
variable {h : Hdr} {s u : State} {c : Cause} {fva : Nat}

theorem ld_traps {o : LdOp} (he : Executes (gateM [.l]) h (useD [o.m.oreg.src] o.d) s)
    (hm : s.markIssued.memAccess [] o.m (2 ^ o.size.val) 1 [permR] .read = (u, .error (.cause c fva))) :
    exec (.ld h o) s = .next (u.raise (u.precise c fva)) := by
  refine (issue_trap he ?_ : execLd h o s = _)
  simp only [hm, State.badDone]

theorem st_traps {o : StOp} (he : Executes (gateM [.s]) h (useS [o.a, o.m.oreg.src]) s)
    (hm : s.markIssued.memAccess [o.a] o.m (2 ^ o.size.val) 1 [permW] .write = (u, .error (.cause c fva))) :
    exec (.st h o) s = .next (u.raise (u.precise c fva)) := by
  refine (issue_trap he ?_ : execSt h o s = _)
  simp only [hm, State.badDone]

theorem atom1_traps {op : AtKind} {o : AtOp} (he : Executes (gateM [.l]) h (useD [o.a, o.m.oreg.src] .t) s)
    (hm : s.markIssued.memAccess [o.a] o.m (if o.w64 then 8 else 4) (if o.w64 then 8 else 4) [permA] .write =
      (u, .error (.cause c fva))) : atom1 h op o s = .next (u.raise (u.precise c fva)) := by
  have he' : Executes (gateM [.l]) h (useD ([o.a] ++ [o.m.oreg.src]) .t) s := he
  unfold atom1 atomOp
  refine issue_trap he' ?_
  simp only [hm, State.badDone]

theorem redi_traps {o : RediOp} (he : Executes (gateM [.s]) h (useS [o.a, o.m.oreg.src]) s)
    (hm : s.markIssued.memAccess [o.a] o.m (if o.w64 then 8 else 4) (if o.w64 then 8 else 4) [permA] .write =
      (u, .error (.cause c fva))) : exec (.redi h o) s = .next (u.raise (u.precise c fva)) := by
  show execRedi h o s = _
  unfold execRedi reduceOp
  refine issue_trap he ?_
  simp only [hm, State.badDone]

end

/-- Settles O23: each check where those before it pass, and the trap of the first that fails. -/
theorem accessChecks : Obligations.AccessChecks := by
  unfold Obligations.AccessChecks
  refine ⟨fun s c ea n align perms need => ⟨?_, fun u w hw => ⟨State.access_outside hw,
      fun h0 h1 p hp h2 => State.access_unpermitted hw h0 h1 hp h2, State.access_unaligned hw,
      fun v ps d h0 h1 h2 h3 hc hd hr => State.access_translated hw h0 h1 h2 h3 hc hd hr⟩⟩,
    fun h s u c fva => ⟨fun o => ld_traps, fun o => st_traps, fun o he hm => ⟨atom1_traps he hm, atom1_traps he hm⟩,
      fun o => redi_traps⟩⟩
  rintro rfl
  exact State.access_null

/-! ### Stores at issue -/

section
variable {u x : State} {kind : Fin 4} {run word : Nat} {ps : List PPart} {bs : List Byte} {post : State → State}

theorem storeDone_rcBusy (h : u.rcBusy ps = true) : storeDone u kind run word ps bs post = .hold .other := by
  simp [storeDone, h]

theorem storeDone_leased (hso : u.soWait ps = false) (hrc : u.rcBusy ps = false) (hp : partsPois ps = false)
    (hx : u.recallPlaced (partsOf ps) = (x, false)) : storeDone u kind run word ps bs post = .wait x := by
  simp only [storeDone, hso, hrc, hp, hx]
  rfl

end

section
variable {g : Gate} {h : Hdr} {w : Use} {eff : State → Done} {s t : State}

theorem issue_wait (he : Executes g h w s) (hf : eff s.markIssued = .wait t) :
    issue g h w eff s = .next ((t.unissued s).stall .other) := by
  rw [issue_eq he, hf]
  rfl

/-- A store with its checked parts at issue: a wait for a lease, or the store as a whole. -/
theorem store_issues {u x v : State} {kind : Fin 4} {run word : Nat} {ps : List PPart} {bs : List Byte} {post : State → State}
    {bad : Bool} {i : Instr} (hi : ∀ s, exec i s = issue g h w eff s) (he : Executes g h w s)
    (hf : eff s.markIssued = storeDone u kind run word ps bs post) (hso : u.soWait ps = false)
    (hrc : u.rcBusy ps = false) (hp : partsPois ps = false) :
    (u.recallPlaced (partsOf ps) = (x, false) → exec i s = .next ((x.unissued s).stall .other)) ∧
    (u.recallPlaced (partsOf ps) = (x, true) → x.storeBytes kind run word (partsOf ps) bs = .ok (v, bad) →
      exec i s = .next ((post (if bad then v.deferTrap .poison 6 0 else v)).finish w)) :=
  ⟨fun hx => (hi s).trans (issue_wait he (hf.trans (storeDone_leased hso hrc hp hx))),
    fun hx hb => (hi s).trans (issue_go he (hf.trans (storeDone_go hso hrc hp hx hb)))⟩

end

theorem st_issues (h : Hdr) (o : StOp) (s u x v : State) (ps : List PPart) (bad : Bool)
    (he : Executes (gateM [.s]) h (useS [o.a, o.m.oreg.src]) s)
    (hm : s.markIssued.memAccess [o.a] o.m (2 ^ o.size.val) 1 [permW] .write = (u, .ok ps)) :
    (u.rcBusy ps = true → exec (.st h o) s = .next (s.stall .other)) ∧ (u.soWait ps = false → u.rcBusy ps = false →
    partsPois ps = false →
    (u.recallPlaced (partsOf ps) = (x, false) → exec (.st h o) s = .next ((x.unissued s).stall .other)) ∧
    (u.recallPlaced (partsOf ps) = (x, true) →
      x.storeBytes 0 128 (2 ^ o.size.val) (partsOf ps) (natLe (2 ^ o.size.val) (u.val 0 o.a).toNat) = .ok (v, bad) →
      exec (.st h o) s = .next ((if bad then v.deferTrap .poison 6 0 else v).finish (useS [o.a, o.m.oreg.src])))) := by
  constructor
  · intro hrc
    refine (issue_hold he ?_ : execSt h o s = _)
    simp only [hm]
    exact storeDone_rcBusy hrc
  · intro hso hrc hp
    refine store_issues (post := id) (fun s => (rfl : execSt h o s = _)) he ?_ hso hrc hp
    simp only [hm]

theorem stTile_issues (h : Hdr) (o : TileOp) (s u x v : State) (ps : List PPart) (byte n : Nat) (bad : Bool)
    (he : Executes (gateM [.s]) h (useS [o.a, o.m.oreg.src]) s) (ht : tileWord (s.markIssued.val 0 o.a).toNat = some (byte, n))
    (hm : s.markIssued.memAccess [o.a] o.m n 8 [permW] .write = (u, .ok ps)) (hb : u.core.breach [⟨1, byte, n, false⟩] = false)
    (hso : u.soWait ps = false) (hrc : u.rcBusy ps = false) (hp : partsPois ps = false) :
    (u.recallPlaced (partsOf ps) = (x, false) → exec (.stTile h o) s = .next ((x.unissued s).stall .other)) ∧
    (u.recallPlaced (partsOf ps) = (x, true) →
      x.storeBytes 1 1024 8 (partsOf ps) (u.core.tile.bytes byte n) = .ok (v, bad) →
      exec (.stTile h o) s = .next ((if bad then v.deferTrap .poison 6 0 else v).finish (useS [o.a, o.m.oreg.src]))) := by
  refine store_issues (post := id) (fun s => (rfl : execStTile h o s = _)) he ?_ hso hrc hp
  simp only [ht, hm, State.owned, hb]
  rfl

theorem stq_issues (h : Hdr) (o : QMemOp) (s u x v : State) (els : List (List PPart)) (bad : Bool)
    (he : Executes (gateM [.s]) h (useS [o.m.oreg.src]) s)
    (hq : (if o.m.oreg = .q then o.n.val + 1 + 1 else o.n.val + 1) ≤ s.markIssued.core.sdq.poppable.length)
    (hm : s.markIssued.elemParts (List.replicate (o.n.val + 1) .q) o.m (2 ^ o.size.val) 1 [permW] .write 0 (o.n.val + 1) =
      (u, .ok els))
    (hso : u.soWait els.flatten = false) (hrc : u.rcBusy els.flatten = false) (hp : partsPois els.flatten = false) :
    (u.recallPlaced (partsOf els.flatten) = (x, false) → exec (.stq h o) s = .next ((x.unissued s).stall .other)) ∧
    (u.recallPlaced (partsOf els.flatten) = (x, true) →
      x.storeBytes 0 128 (2 ^ o.size.val) (partsOf els.flatten)
        ((u.core.sdq.poppable.take (o.n.val + 1)).flatMap fun x => natLe (2 ^ o.size.val) x.toNat) = .ok (v, bad) →
      exec (.stq h o) s =
        .next (((if bad then v.deferTrap .poison 6 0 else v).popSdq (o.n.val + 1)).finish (useS [o.m.oreg.src]))) := by
  refine store_issues (post := fun t => t.popSdq (o.n.val + 1)) (fun s => (rfl : execStq h o s = _)) he ?_ hso hrc hp
  simp only [if_neg (not_lt.2 hq), hm]

theorem stq_stalls (h : Hdr) (o : QMemOp) : Stalls (.stq h o) (gateM [.s]) h (useS [o.m.oreg.src]) fun t =>
    t.core.sdq.poppable.length < if o.m.oreg = .q then o.n.val + 2 else o.n.val + 1 :=
  stalls_of (k := .sdq) (fun s => (rfl : execStq h o s = _)) fun t ht => by simp only [if_pos ht]

/-- Settles O26: each store through its checked parts, and STQ's wait for values. -/
theorem storesIssue : Obligations.StoresIssue := by
  unfold Obligations.StoresIssue
  exact ⟨st_issues, stTile_issues, fun h o s u x v els bad he => stq_issues h o s u x v els bad he, stq_stalls⟩

end Sys2Proof.Machine
end

section
/-!
SUPPORT. Releases, acquires, fences and log waits at issue (R214 to R222), and what sealing a release leaves (R116, R117).
-/

namespace Sys2Proof.Machine

variable {s t u v : State}

/-! ### At issue -/

theorem rel_departs {h : Hdr} {o : RelOp} {p : PPart} {r : RelSt} (he : Executes (gateM [.s]) h (useS [o.m.oreg.src]) s)
    (hf : s.markIssued.flagPart o.m [permW, permA] .write = (u, .ok p)) (hp : p.part.pois = false)
    (hs : u.sealFor (o.scope = .pool) (some p.part.addr) false = .ok (v, r)) :
    exec (.rel h o) s = .next ((v.addAcc h .none o.p .rel (some r)).finish (useS [o.m.oreg.src])) := by
  refine (issue_go he ?_ : execRel h o s = _)
  simp only [hf, hp, hs]
  rfl

theorem rell_departs {h : Hdr} {scope : Scope} {p : Bool} {d : RelDst} {r : RelSt}
    (he : Executes (gateN [.s]) h ⟨[], [], .discard, RelDst.allocs d⟩ s)
    (hs : s.markIssued.sealFor (scope = .pool) none false = .ok (v, r)) :
    let e := match d with
      | .pair k => v.reservePair k
      | .t => v.reserveTwo
    exec (.rell h scope p d) s = .next ((e.2.addAcc h e.1 p .rel (some r)).finish ⟨[], [], .discard, RelDst.allocs d⟩) := by
  refine (issue_go he ?_ : execRell h scope p d s = _)
  cases d <;> simp only [hs]

theorem acq_departs {h : Hdr} {o : AcqOp} {p : PPart} (he : Executes (gateM [.l]) h (useD [o.m.oreg.src] o.d) s)
    (hf : s.markIssued.flagPart o.m [permR] .read = (u, .ok p)) :
    exec (.acq h o) s = .next ((u.departs h o.d o.p (.acqFlag p.part.addr p.part.pois)).finish (useD [o.m.oreg.src] o.d)) := by
  refine (issue_go he ?_ : execAcq h o s = _)
  simp only [hf]
  rfl

theorem acql_gives (h : Hdr) (p : Bool) (a b : Src) : Gives (.acql h p a b) (gateR [.l] [a, b]) h (useS [a, b]) always fun t =>
    t.addAcc h .none p (.acqWord ⟨t.val 0 a, t.valAfter 0 [a] b⟩) none :=
  gives_of (fun s => (rfl : execAcql h p a b s = _)) fun _ _ => rfl

theorem State.fenceHeld_iff (t : State) (kind : BitVec 4) : t.fenceHeld kind = true ↔
    ∃ a ∈ t.core.accs, a.strm = t.who ∧ (if a.rd then kind.getLsbD 0 else kind.getLsbD 1) = true := by
  simp [State.fenceHeld]

theorem stalls_of_checked {i : Instr} {ok : Bool} {g : Gate} {h : Hdr} {w : Use} {eff : State → Done} {P : State → Prop} {k : Hold}
    (hi : ∀ s, exec i s = issueIf ok g h w eff s) (hok : ok = true) (hf : ∀ t, P t → eff t = .hold k) : Stalls i g h w P :=
  stalls_of (fun s => (hi s).trans (issueIf_eq hok)) hf

/-- FENCE goes by or waits by the accesses that it selects (log entry 14). -/
theorem fence_clause (h : Hdr) (scope : Scope) (kind : BitVec 4) (h1 : kind.extractLsb' 0 2 ≠ 0) (h2 : kind.extractLsb' 2 2 ≠ 0) :
    let held (t : State) : Prop := ∃ a ∈ t.core.accs, a.strm = t.who ∧ (if a.rd then kind.getLsbD 0 else kind.getLsbD 1) = true
    Gives (.fence h scope kind) (gateM anyStrm) h (useS []) (fun t => ¬held t) id ∧
    Stalls (.fence h scope kind) (gateM anyStrm) h (useS []) held := by
  have hok : (kind.extractLsb' 0 2 != 0 && kind.extractLsb' 2 2 != 0) = true := by
    rw [Bool.and_eq_true, bne_iff_ne, bne_iff_ne]
    exact ⟨h1, h2⟩
  constructor
  · refine gives_of_checked (fun s => (rfl : execFence h scope kind s = _)) (fun s _ => hok) fun t ht => ?_
    exact if_neg fun hh => ht ((t.fenceHeld_iff kind).1 hh)
  · refine stalls_of_checked (k := .other) (fun s => (rfl : execFence h scope kind s = _)) hok fun t ht => ?_
    exact if_pos ((t.fenceHeld_iff kind).2 ht)

theorem lsync_gives (h : Hdr) : Gives (.lsync h) (gateN [.s]) h (useS []) always fun t =>
    t.addAcc h .none false (.lsync t.logNum (((t.log? t.logNum).map (·.nrec)).getD 0)) none :=
  gives_of (fun s => (rfl : execLsync h s = _)) fun _ _ => rfl

theorem lstat_gives (h : Hdr) (sel : Fin 6) (d : Dst) : valueGives (.lstat h sel d) h [] d fun t => t.logItem sel.val :=
  have e : ∀ s, exec (.lstat h sel d) s = execLstat h sel d s := fun s => rfl
  gives_of (fun s => (e s).trans (by unfold execLstat valueOp; rfl)) fun t _ => rfl

/-! ### The completion of a release -/

section
variable {id : Nat} {a : Acc} {r : RelSt}

theorem releaseComplete_behind (ha : s.core.acc? id = some a) (hr : a.rel = some r) (hb : s.core.relBehind r = true) :
    exec (.releaseComplete id) s = .next s := by
  show execReleaseComplete id s = _
  simp [execReleaseComplete, ha, hr, State.relReady, hb]

theorem releaseComplete_recalls {ok : Bool} (ha : s.core.acc? id = some a) (hr : a.rel = some r) (hb : s.core.relBehind r = false)
    (hl : s.relRecall r = (u, ok)) :
    exec (.releaseComplete id) s = .next (if ok then u.completeRelease a r false else u) := by
  show execReleaseComplete id s = _
  cases ok <;> simp [execReleaseComplete, ha, hr, State.relReady, hb, hl]

theorem releaseComplete_none (h : ∀ a, s.core.acc? id = some a → a.rel = none) : exec (.releaseComplete id) s = .next s := by
  show execReleaseComplete id s = _
  unfold execReleaseComplete
  split
  · rfl
  · next a ha => rw [h a ha]

end

/-! ### Stamps -/

/-- A stamp that is raised is higher (R117). -/
theorem stampHigher_raiseStamp (a past : BitVec 64) : stampHigher (raiseStamp a past) past = true := by
  unfold raiseStamp
  split
  · next h => exact h
  · have ha := a.isLt
    have hp := past.isLt
    have e : (BitVec.ofNat 64 (((past.toNat / 65536 + 1) % 2 ^ 48) * 65536 + a.toNat % 65536) - past).toNat =
        65536 + a.toNat % 65536 - past.toNat % 65536 := by
      rw [BitVec.toNat_sub, BitVec.toNat_ofNat]
      omega
    have hne : BitVec.ofNat 64 (((past.toNat / 65536 + 1) % 2 ^ 48) * 65536 + a.toNat % 65536) ≠ past := by
      intro h
      rw [h, BitVec.sub_self] at e
      simp at e
      omega
    unfold stampHigher
    rw [e, Bool.and_eq_true, bne_iff_ne, decide_eq_true_eq]
    exact ⟨hne, by omega⟩

theorem stampHigher_nextStamp (ftime : BitVec 64) {g : LogSt} (h : g.stamp ≠ 0) :
    stampHigher (nextStamp ftime g) g.stamp = true := by
  unfold nextStamp
  dsimp only
  rw [if_neg fun e => h (by simpa using (Bool.and_eq_true_iff.1 e).1)]
  exact stampHigher_raiseStamp _ _

/-! ### Sealing -/

/-- The second word of a release: the log's number, its tail, the offset and the kind of its horizon record, its scope. -/
def relHi (num tail hoff hk : Nat) (pool : Bool) : BitVec 64 :=
  BitVec.ofNat 64 (num + tail * 2 ^ 32 + hoff * 2 ^ 48 + hk * 2 ^ 57 + natOfBool pool * 2 ^ 59)

theorem relHi_fields {stamp : BitVec 64} {num tail hoff hk : Nat} {pool : Bool} (h1 : num < 2 ^ 32) (h2 : tail < 2 ^ 16)
    (h3 : hoff < 2 ^ 9) (h4 : hk < 4) : let w : RelWord := ⟨stamp, relHi num tail hoff hk pool⟩
    w.log.toNat = num ∧ w.tail.toNat = tail ∧ w.poolScope = pool := by
  intro w
  have hp : natOfBool pool < 2 := by cases pool <;> decide
  have hw : w.hi.toNat = num + tail * 2 ^ 32 + hoff * 2 ^ 48 + hk * 2 ^ 57 + natOfBool pool * 2 ^ 59 := by
    simp only [w, relHi, BitVec.toNat_ofNat]
    omega
  refine ⟨?_, ?_, ?_⟩
  · rw [RelWord.log, BitVec.extractLsb'_toNat, hw, Nat.shiftRight_eq_div_pow]
    omega
  · rw [RelWord.tail, BitVec.extractLsb'_toNat, hw, Nat.shiftRight_eq_div_pow]
    omega
  · rw [RelWord.poolScope, BitVec.getLsbD, hw, Nat.testBit_eq_decide_div_mod_eq]
    cases pool with
    | false =>
      rw [show natOfBool false = 0 from rfl]
      exact decide_eq_false (by omega)
    | true =>
      rw [show natOfBool true = 1 from rfl]
      exact decide_eq_true (by omega)

/-- Sealing seals all, and leaves what was sealed. -/
theorem mem_sealBills {stamp : BitVec 64} {hk : Fin 4} {pool : Bool} {l : List Billet} :
    (∀ b ∈ sealBills stamp hk pool l, b.isSealed = true) ∧ (sealBills stamp hk pool l).length = l.length ∧
    ∀ b ∈ l, b.isSealed = true → b ∈ sealBills stamp hk pool l := by
  unfold sealBills
  refine ⟨fun b hb => ?_, by simp, fun b hb hs => ?_⟩
  · obtain ⟨⟨c, i⟩, -, rfl⟩ := List.mem_map.1 hb
    dsimp only
    split
    · next h => exact h
    · rfl
  · obtain ⟨i, hi, e⟩ := List.getElem_of_mem hb
    refine List.mem_map.2 ⟨(b, i), List.mem_zipIdx_iff_getElem?.2 ?_, if_pos hs⟩
    simp [List.getElem?_eq_getElem hi, e]

theorem LogSt.openFor_last {g : LogSt} {n : Nat} (h : g.openFor n = true) :
    ∃ l b, g.bills = l ++ [b] ∧ b.isSealed = false ∧ b.used + n ≤ billetArea := by
  obtain ⟨l, b, e⟩ := List.eq_nil_or_concat g.bills |>.resolve_left (LogSt.openFor_bills h)
  rw [LogSt.openFor, e, List.concat_eq_append, List.getLast?_concat] at h
  simp only [Bool.and_eq_true, Bool.not_eq_true', decide_eq_true_eq] at h
  exact ⟨l, b, by rw [e, List.concat_eq_append], h.1.1, h.2⟩

/-- What a log offers for a release: a billet that is not sealed, last of all, and what was sealed before. -/
structure LogSt.Ready (g g' : LogSt) : Prop where
  num : g'.num = g.num
  stamp : g'.stamp = g.stamp
  last : ∃ l b, g'.bills = l ++ [b] ∧ b.isSealed = false ∧ ∀ c ∈ g.bills, c.isSealed = true → c ∈ l
  len : g'.bills.length ≤ 65536

/-- Where the horizon record of a release begins in the tail billet, in units of 8 bytes. -/
def LogSt.hoff (g : LogSt) : Nat :=
  match g.bills.getLast? with
  | some b => b.used / 8
  | none => 0

theorem LogSt.Ready.of_openFor {g : LogSt} {n : Nat} (h : g.openFor n = true) (hl : g.bills.length < 65536) :
    g.Ready g ∧ g.hoff < 2 ^ 9 := by
  obtain ⟨l, b, e, hb, hu⟩ := LogSt.openFor_last h
  refine ⟨⟨rfl, rfl, ⟨l, b, e, hb, fun c hc hs => ?_⟩, le_of_lt hl⟩, ?_⟩
  · rw [e, List.mem_append, List.mem_singleton] at hc
    refine hc.resolve_right ?_
    rintro rfl
    simp [hb] at hs
  · unfold billetArea at hu
    simp only [LogSt.hoff, e, List.getLast?_concat]
    omega

theorem LogSt.Ready.of_newBillet {g g' : LogSt} {ftok : BitVec 32} (h : s.newBillet g ftok = .ok (t, g'))
    (hl : g.bills.length < 65536) (hc : ∀ b ∈ g.bills, b.isSealed = true → b.closed = true) : g.Ready g' ∧ g'.hoff < 2 ^ 9 := by
  unfold State.newBillet at h
  split at h
  · cases h
  · cases h
    refine ⟨⟨rfl, rfl, ⟨_, _, rfl, rfl, fun b hb hs => List.mem_map.2 ⟨b, hb, ?_⟩⟩, by simpa using hl⟩, by simp [LogSt.hoff]⟩
    rw [← hc b hb hs]

/-- The horizon record goes to the open billet. -/
theorem LogSt.Ready.push {g g' : LogSt} (h : g.Ready g') (r : Rec) : g.Ready (g'.push r) := by
  obtain ⟨l, b, e, hb, hm⟩ := h.last
  have hp : (g'.push r).bills = l ++ [{ b with recs := b.recs ++ [{ r with rseq := g'.nrec }], used := b.used + r.size }] := by
    simp [LogSt.push, LogSt.mapLast, e]
  refine ⟨(g'.push_num r).trans h.num, ?_, ⟨l, _, hp, hb, hm⟩, ?_⟩
  · rw [← h.stamp]
    unfold LogSt.push LogSt.mapLast
    split <;> rfl
  · rw [hp]
    simpa [e] using h.len

/-- The log that a release finds: as it is where the open billet has room, else with a new billet. -/
theorem State.roomFor_ready {g g' : LogSt} {n : Nat} {ftok : BitVec 32}
    (h : (if g.openFor n then Except.ok (s, g) else s.newBillet g ftok) = .ok (t, g')) (hl : g.bills.length < 65536)
    (hc : ∀ b ∈ g.bills, b.isSealed = true → b.closed = true) : MemOnly s t ∧ g.Ready g' ∧ g'.hoff < 2 ^ 9 := by
  split at h
  · next ho =>
    cases h
    exact ⟨.refl s, LogSt.Ready.of_openFor ho hl⟩
  · obtain ⟨rfl, -⟩ := State.newBillet_cases h
    refine ⟨?_, LogSt.Ready.of_newBillet h hl hc⟩
    split
    · exact s.charge_memOnly ..
    · exact .refl s

theorem State.restamp_memOnly (s : State) (g : LogSt) : MemOnly s (s.restamp g) :=
  MemOnly.of_foldl _ (fun t b => by
    split
    · exact t.writeBillet_memOnly ..
    · exact .refl t) _ _

/-- A log sealed at a stamp. -/
def LogSt.sealWith (g : LogSt) (stamp : BitVec 64) (hk : Fin 4) (pool : Bool) : LogSt :=
  { g with stamp := stamp, bills := sealBills stamp hk pool g.bills }

/-- The kind of a step's horizon record, and the record (R118). -/
def StepCtx.hznKind (x : StepCtx) : Fin 4 := if x.hcst.isSome then 2 else if x.hzn.isEmpty then 0 else 1
def StepCtx.hznRec (x : StepCtx) : Rec := ⟨0, horizonData x.hzn x.hcst, 2, false, 0, true, 0⟩

theorem State.sealLog_ok {pool : Bool} {w : RelWord} {x : StepCtx} {g : LogSt} (hx : s.core.ctx = some x)
    (hg : s.log? x.log = some g) (h : s.sealLog pool = .ok (t, w)) :
    ∃ (v : State) (l : LogSt), (if g.openFor (if x.hznKind = 0 then 0 else x.hznRec.size) then Except.ok (s, g)
        else s.newBillet g x.ftok) = .ok (v, l) ∧
      let k := if x.hznKind = 0 then l else l.push x.hznRec
      let z := k.sealWith (nextStamp v.ftime k) x.hznKind pool
      t = ((v.restamp z).setLog z).mapCtx (fun x => { x with hcst := none }) ∧
      w = ⟨nextStamp v.ftime k, relHi k.num.toNat (k.bills.length - 1) (if x.hznKind = 0 then 0 else l.hoff)
        x.hznKind.val pool⟩ := by
  have hn : s.logNum = x.log := by rw [State.logNum, hx]
  unfold State.sealLog at h
  rw [hx, hn, hg] at h
  dsimp only at h
  split at h
  · cases h
  · next v l e =>
    refine ⟨v, l, e, ?_⟩
    have := Except.ok.inj h
    rw [Prod.mk.injEq] at this
    obtain ⟨rfl, rfl⟩ := this
    refine ⟨rfl, ?_⟩
    unfold relHi
    rw [ite_mul, zero_mul]
    rfl

theorem State.sealLog_leaves {pool : Bool} {w : RelWord} {x : StepCtx} {g : LogSt} (hx : s.core.ctx = some x)
    (hg : s.log? x.log = some g) (h : s.sealLog pool = .ok (t, w)) (hl : g.bills.length < 65536)
    (hc : ∀ b ∈ g.bills, b.isSealed = true → b.closed = true) :
    (∃ k, t.log? x.log = some k ∧ k.stamp = w.stamp ∧ (∀ b ∈ k.bills, b.isSealed = true) ∧ w.tail.toNat + 1 = k.bills.length ∧
      (∀ b ∈ g.bills, b.isSealed = true → b ∈ k.bills)) ∧
    w.log = g.num ∧ w.poolScope = pool ∧ (g.stamp ≠ 0 → stampHigher w.stamp g.stamp = true) := by
  obtain ⟨v, l, hv, ht, hw⟩ := State.sealLog_ok hx hg h
  obtain ⟨ho, hr, hoff⟩ := State.roomFor_ready hv hl hc
  have hk : g.Ready (if x.hznKind = 0 then l else l.push x.hznRec) := by
    split
    · exact hr
    · exact hr.push _
  generalize (if x.hznKind = 0 then l else l.push x.hznRec) = k at ht hw hk
  obtain ⟨m, b, hb, hu, hm⟩ := hk.last
  have hlen := hk.len
  have hpos : k.bills.length = m.length + 1 := by rw [hb, List.length_append, List.length_singleton]
  have hoff' : (if x.hznKind = 0 then 0 else l.hoff) < 2 ^ 9 := by
    split
    · decide
    · exact hoff
  obtain ⟨h1, h2, h3⟩ := relHi_fields (stamp := nextStamp v.ftime k) (pool := pool) (tail := k.bills.length - 1) k.num.isLt
    (by omega)
    hoff' x.hznKind.isLt
  rw [← hw] at h1 h2 h3
  obtain ⟨hall, hlen', hkeep⟩ := mem_sealBills (stamp := nextStamp v.ftime k) (hk := x.hznKind) (pool := pool) (l := k.bills)
  have hnum : k.num = x.log := hk.num.trans (State.log?_num hg)
  refine ⟨⟨k.sealWith (nextStamp v.ftime k) x.hznKind pool, ?_, by rw [hw]; rfl, hall, ?_, fun c hc hs => hkeep c ?_ hs⟩, ?_, h3,
    ?_⟩
  · have hz : ((v.restamp (k.sealWith (nextStamp v.ftime k) x.hznKind pool)).log? k.num) = some g := by
      rw [(State.restamp_memOnly v _).log?, ho.log?, hnum]
      exact hg
    rw [ht, ← hnum]
    exact State.log?_setLog (l := k.sealWith (nextStamp v.ftime k) x.hznKind pool) hz
  · rw [h2]
    show _ = (sealBills _ _ _ _).length
    omega
  · rw [hb]
    exact List.mem_append_left _ (hm c hc hs)
  · exact BitVec.eq_of_toNat_eq (h1.trans (congrArg _ hk.num))
  · intro hg0
    rw [hw]
    show stampHigher (nextStamp v.ftime k) g.stamp = true
    rw [← hk.stamp]
    exact stampHigher_nextStamp _ (by rw [hk.stamp]; exact hg0)

/-- Settles O31: each instruction at issue, the completion of a release, and what sealing leaves of the step's log. -/
theorem syncResults : Obligations.SyncResults := by
  unfold Obligations.SyncResults
  refine ⟨⟨fun h o s u v p r => rel_departs, ?_, fun h o s u p => acq_departs, acql_gives, fence_clause, lsync_gives, lstat_gives,
    fun s id a r ha hr => ⟨releaseComplete_behind ha hr, fun u hb hl => ?_, fun u hb hl => ?_⟩, fun s id => releaseComplete_none⟩,
    fun s t pool w x g hx hg hs hl hc => State.sealLog_leaves hx hg hs hl hc⟩
  · intro h scope p d s v r use he hs e
    cases d with
    | pair k => exact rell_departs (d := .pair k) he hs
    | t => exact rell_departs (d := .t) he hs
  · simpa using releaseComplete_recalls ha hr hb hl
  · simpa using releaseComplete_recalls ha hr hb hl

end Sys2Proof.Machine
end

section
/-!
SUPPORT. Capability instructions (R226, R227) and the images that they seal and open (R226, R409).
-/

namespace Sys2Proof.Machine

variable {s t u v : State} {h : Hdr}

/-! ### Effects behind a check of the fields -/

section
variable {g : Gate} {w : Use} {eff : State → Done} {ok : Bool} (hok : ok = true) (he : Executes g h w s)
include hok he

theorem issueIf_go (hf : eff s.markIssued = .go t) : issueIf ok g h w eff s = .next (t.finish w) :=
  (issueIf_eq hok).trans (issue_go he hf)

theorem issueIf_trap {x : Trap} (hf : eff s.markIssued = .trap t x) : issueIf ok g h w eff s = .next (t.raise x) :=
  (issueIf_eq hok).trans (issue_trap he hf)

end

/-! ### Loading and storing -/

section
variable {o : CapMemOp} {ps : List PPart} (he : Executes (gateM [.l]) h (useS [o.m.oreg.src]) s) (hcr : o.cr ≠ 0)
  (hm : s.markIssued.memAccess [] o.m 16 16 [permR] .read = (u, .ok ps)) (hso : u.soWait ps = false)

include he hcr hm hso

theorem cld_poison (hl : u.loadElem (partsOf ps) (u.ownBytes (partsOf ps)) = (v, none)) :
    exec (.cld h o) s = .next ((v.deferTrap .poison 0 0).finish (useS [o.m.oreg.src])) := by
  refine (issueIf_go (bne_iff_ne.2 hcr) he ?_ : execCld h o s = _)
  simp only [hm, hso, hl]
  rfl

theorem cld_null (hl : u.loadElem (partsOf ps) (u.ownBytes (partsOf ps)) = (v, some 0)) :
    exec (.cld h o) s = .next (State.finish { v with core := v.core.setCap o.cr none } (useS [o.m.oreg.src])) := by
  refine (issueIf_go (bne_iff_ne.2 hcr) he ?_ : execCld h o s = _)
  simp only [hm, hso, hl]
  rfl

theorem cld_opens {x : Nat} {w : State} {c : Option Cap} (hl : u.loadElem (partsOf ps) (u.ownBytes (partsOf ps)) = (v, some x))
    (hx : x ≠ 0) (hc : v.openSeal (BitVec.ofNat 128 x) = (w, c)) : exec (.cld h o) s = .next (match (generalizing := false) c with
      | some c => State.finish { w with core := w.core.setCap o.cr (some c) } (useS [o.m.oreg.src])
      | none => w.raise (w.precise .capfault 0)) := by
  obtain ⟨n, rfl⟩ := Nat.exists_eq_succ_of_ne_zero hx
  cases c with
  | some c =>
    refine (issueIf_go (bne_iff_ne.2 hcr) he ?_ : execCld h o s = _)
    simp only [hm, hso, hl, hc]
    rfl
  | none =>
    refine (issueIf_trap (bne_iff_ne.2 hcr) he ?_ : execCld h o s = _)
    simp only [hm, hso, hl, hc]
    rfl

end

/-- CLD into register 0 is ILLEGAL. -/
theorem cld_illegal {o : CapMemOp} (hcr : o.cr = 0) (hg : s.gateTrap (gateM [.l]) (useS [o.m.oreg.src]) = none) :
    exec (.cld h o) s = .next (s.raise (s.encTrap .illegal s.cur.npfx)) := by
  show execCld h o s = _
  unfold execCld
  rw [show (o.cr != 0) = false by simp [hcr]]
  exact issueIf_illegal hg

/-- The image that CST stores, and the package that keeps what it seals. -/
def State.capImage (s : State) (c : Option Cap) : BitVec 128 × State :=
  match c with
  | none => ((0 : BitVec 128), s)
  | some c => s.sealCap c

theorem cst_stores {o : CapMemOp} {x : State} {ps : List PPart} {bad : Bool} (he : Executes (gateM [.l]) h (useS [o.m.oreg.src]) s)
    (hm : s.markIssued.memAccess [] o.m 16 16 [permW] .write = (u, .ok ps))
    (hso : (u.capImage u.core.caps[o.cr]).2.soWait ps = false) (hrc : (u.capImage u.core.caps[o.cr]).2.rcBusy ps = false)
    (hp : partsPois ps = false) (hx : (u.capImage u.core.caps[o.cr]).2.recallPlaced (partsOf ps) = (x, true))
    (hb : x.storeBytes 0 128 16 (partsOf ps) (natLe 16 (u.capImage u.core.caps[o.cr]).1.toNat) = .ok (v, bad)) :
    exec (.cst h o) s = .next ((if bad then v.deferTrap .poison 6 0 else v).finish (useS [o.m.oreg.src])) := by
  refine (issue_go he ?_ : execCst h o s = _)
  simp only [hm]
  exact storeDone_go (post := id) hso hrc hp hx hb

/-! ### Narrowing, reading and checking -/

section
variable {o : CNarrowOp} {w : Window} (he : Executes (gateR [.l] [o.off, o.len]) h (useS [o.off, o.len]) s) (hcd : o.cd ≠ 0)
  (hw : s.markIssued.window s.markIssued.core.caps[o.cs] = (u, .ok w))

include he hcd hw

theorem cnarrow_traps (hn : w.perm.getLsbD permN = false ∨
      w.len < (s.markIssued.val o.imm o.off).toNat + (s.markIssued.valAfter o.imm [o.off] o.len).toNat) :
    exec (.cnarrow h o) s = .next (u.raise (u.precise .capfault 0)) := by
  refine (issueIf_trap (bne_iff_ne.2 hcd) he ?_ : execCnarrow h o s = _)
  simp only [hw]
  exact if_pos (by simpa using hn)

theorem cnarrow_narrows (hn : w.perm.getLsbD permN = true)
    (hl : (s.markIssued.val o.imm o.off).toNat + (s.markIssued.valAfter o.imm [o.off] o.len).toNat ≤ w.len) :
    exec (.cnarrow h o) s = .next (State.finish { u with core := u.core.setCap o.cd (u.core.caps[o.cs].map fun (c : Cap) =>
      { c with off := c.off + (s.markIssued.val o.imm o.off).toNat, len := (s.markIssued.valAfter o.imm [o.off] o.len).toNat,
               perm := c.perm &&& o.mask }) } (useS [o.off, o.len])) := by
  refine (issueIf_go (bne_iff_ne.2 hcd) he ?_ : execCnarrow h o s = _)
  simp only [hw]
  exact if_neg (by simp [hn, hl])

end

theorem capField_eq (w : Window) (c : Cap) (fld : Fin 5) : capField w c fld.val =
    match fld with | 0 => w.vbase | 1 => w.len | 2 => w.perm.toNat | 3 => c.obj.toNat | 4 => c.ten.toNat := by
  fin_cases fld <;> rfl

theorem cinfo_gives {fld : Fin 5} {d : Dst} {cs : Fin 16} {c : Cap} {w : Window} (he : Executes (gateN [.l]) h (useD [] d) s)
    (hc : s.markIssued.core.caps[cs] = some c) (hw : s.markIssued.window (some c) = (u, .ok w)) :
    exec (.cinfo h fld d cs) s = .next ((u.putDst d (BitVec.ofNat 64 (capField w c fld.val))).finish (useD [] d)) := by
  refine (issue_go he ?_ : execCinfo h fld d cs s = _)
  simp only [hc, hw]

theorem cchk_gives {o : CChkOp} {w : Except Bad Window} (he : Executes (gateR [.l] [o.off, o.len]) h (useS [o.off, o.len]) s)
    (hw : s.markIssued.window s.markIssued.core.caps[o.cs] = (u, w)) :
    exec (.cchk h o) s = .next ((u.putPred o.p (match (generalizing := false) w with
      | .error _ => false
      | .ok w => decide ((s.markIssued.val o.imm o.off).toNat + (s.markIssued.valAfter o.imm [o.off] o.len).toNat ≤ w.len) &&
          (w.perm &&& o.mask) = o.mask)).finish (useS [o.off, o.len])) := by
  refine (issue_go he ?_ : execCchk h o s = _)
  simp only [hw]
  cases w <;> rfl

/-! ### Images -/

theorem State.unsealCap_sealCap (s : State) (c : Cap) : (s.sealCap c).2.unsealCap (s.sealCap c).1 = some c := by
  simp [State.sealCap, State.unsealCap]

theorem State.openSeal_sealed (s : State) (c : Cap) : let t := (s.sealCap c).2
    t.openSeal (s.sealCap c).1 = if !c.dev && c.ten.toNat != t.tenant then (t, none) else
      ((t.window (some c)).1, match (t.window (some c)).2 with | .ok _ => some c | .error _ => none) := by
  intro t
  simp only [State.openSeal, t, State.unsealCap_sealCap]
  split
  · rfl
  · cases e : (s.sealCap c).2.window (some c) with
    | mk v r => cases r <;> rfl

/-- What is sealed opens for its tenant where its window is valid, and else opens nothing. -/
theorem State.sealCap_opens (s : State) (c : Cap) : let b := (s.sealCap c).1
    let t := (s.sealCap c).2
    (c.dev = false → c.ten.toNat ≠ t.tenant → t.openSeal b = (t, none)) ∧
    (c.dev = true ∨ c.ten.toNat = t.tenant → ∀ u w, t.window (some c) = (u, .ok w) → t.openSeal b = (u, some c)) ∧
    (c.dev = true ∨ c.ten.toNat = t.tenant → ∀ u e, t.window (some c) = (u, .error e) → t.openSeal b = (u, none)) := by
  intro b t
  have own (hc : c.dev = true ∨ c.ten.toNat = t.tenant) : ¬(!c.dev && c.ten.toNat != t.tenant) = true := by
    rcases hc with hc | hc <;> simp [hc]
  refine ⟨fun hd ht => ?_, fun hc u w hw => ?_, fun hc u e hw => ?_⟩
  · exact (s.openSeal_sealed c).trans (if_pos (by rw [hd]; exact bne_iff_ne.2 ht))
  · exact ((s.openSeal_sealed c).trans (if_neg (own hc))).trans (by rw [hw])
  · exact ((s.openSeal_sealed c).trans (if_neg (own hc))).trans (by rw [hw])

theorem State.window_revoked {c : Cap} {e : Nat} (hd : c.dev = false) (ho : s.objEntry c.ten.toNat c.obj.toNat = (s, some e))
    (hv : entV e = false ∨ entGen e ≠ c.gen.toNat) : s.window (some c) = (s, .error (.cause .capfault 0)) := by
  have hb : (!entV e || entGen e != c.gen.toNat) = true := by simpa using hv
  simp only [State.window, hd, ho, hb]
  rfl

/-- Settles O33: each instruction through its capability, and images through what the package keeps of them. -/
theorem capabilityResults : Obligations.CapabilityResults := by
  unfold Obligations.CapabilityResults
  refine ⟨⟨?_, ?_, ?_, ?_, fun h o s u w => cchk_gives, fun h o s hcr hg => cld_illegal hcr hg⟩, fun s c => ?_⟩
  · intro h o s u ps v n he hcr hm hso hl
    refine ⟨?_, ?_, ?_⟩
    · rintro rfl
      exact cld_poison he hcr hm hso hl
    · rintro rfl
      exact cld_null he hcr hm hso hl
    · rintro x w c rfl hx hc
      exact cld_opens he hcr hm hso hl hx hc
  · intro h o s u x ps v bad he hm image hso hrc hp hx hb
    exact cst_stores he hm hso hrc hp hx hb
  · intro h o s u w he hcd hw off len
    exact ⟨cnarrow_traps he hcd hw, cnarrow_narrows he hcd hw⟩
  · intro h fld d cs s u c w he hc hw
    have e := cinfo_gives (fld := fld) he hc hw
    rw [capField_eq] at e
    exact e
  · obtain ⟨h1, h2, h3⟩ := s.sealCap_opens c
    exact ⟨h1, h2, h3, fun e hd ho hv => State.window_revoked hd ho hv⟩

end Sys2Proof.Machine
end

section
/-!
SUPPORT. Copy commands at issue (R101, R228 to R238), what queueing one leaves (R228, R239), and their status (R240).
-/

namespace Sys2Proof.Machine

/-! ### The checks at issue -/

/-- What a copy command comes to as it issues. -/
def copyEff (h : Hdr) (i : Instr) (op : CopyOp) (e : EHdr) (sel : List OReg) (t : State) : Done :=
  match copySpans op (t.words4 sel) with
  | none => t.trapDone .illegal
  | some spans =>
    if t.who = .s && !writeDir op spans then t.trapDone .stream
    else if (t.issueSpans op (t.words4 sel) spans).any (fun p => !p.ep.fits p.len) || !t.credAligned op (t.words4 sel) ||
        !t.etypesOk op (t.words4 sel) then t.trapDone .illegal
    else if spans.any fun p => p.ep.spc = 4 && !t.sliceOk p.ep.slice then t.trapDone .perm
    else if 16 ≤ t.core.copy.length then .hold .other
    else t.owned (t.copyWins op (t.words4 sel)) (.go (t.queueCopy h (encode i) op e (t.words4 sel) spans))

theorem copyIssue_eq (strms : List Strm) (h : Hdr) (i : Instr) (op : CopyOp) (e : EHdr) (sel : List OReg) (s : State) :
    copyIssue strms h i op e sel s = issue (gateN strms) h ⟨sel.map OReg.src, [], .discard, 1⟩ (copyEff h i op e sel) s := rfl

section
variable {h : Hdr} {i : Instr} {op : CopyOp} {e : EHdr} {sel : List OReg} {t : State} {spans : List Span}

theorem copyEff_malformed (hs : copySpans op (t.words4 sel) = none) : copyEff h i op e sel t = .trap t (t.precise .illegal 0) := by
  simp only [copyEff, hs]
  rfl

theorem copyEff_stream (hs : copySpans op (t.words4 sel) = some spans) (hw : t.who = .s) (hd : writeDir op spans = false) :
    copyEff h i op e sel t = .trap t (t.precise .stream 0) := by
  simp only [copyEff, hs]
  exact if_pos (by simp [hw, hd])

/-- Past the check of its stream. -/
theorem copyEff_directed (hs : copySpans op (t.words4 sel) = some spans) (hw : t.who = .s → writeDir op spans = true) :
    copyEff h i op e sel t =
      if (t.issueSpans op (t.words4 sel) spans).any (fun p => !p.ep.fits p.len) || !t.credAligned op (t.words4 sel) ||
        !t.etypesOk op (t.words4 sel) then t.trapDone .illegal
      else if spans.any fun p => p.ep.spc = 4 && !t.sliceOk p.ep.slice then t.trapDone .perm
      else if 16 ≤ t.core.copy.length then .hold .other
      else t.owned (t.copyWins op (t.words4 sel)) (.go (t.queueCopy h (encode i) op e (t.words4 sel) spans)) := by
  simp only [copyEff, hs]
  refine if_neg fun hb => ?_
  obtain ⟨h1, h2⟩ := Bool.and_eq_true_iff.1 hb
  simp [hw (of_decide_eq_true h1)] at h2

theorem copyEff_etypes (hs : copySpans op (t.words4 sel) = some spans) (hw : t.who = .s → writeDir op spans = true)
    (he : t.etypesOk op (t.words4 sel) = false) : copyEff h i op e sel t = .trap t (t.precise .illegal 0) := by
  rw [copyEff_directed hs hw]
  exact if_pos (by simp [he])

theorem copyEff_passes (hp : CopyPasses t op (t.words4 sel) spans) : copyEff h i op e sel t =
    if 16 ≤ t.core.copy.length then .hold .other
    else t.owned (t.copyWins op (t.words4 sel)) (.go (t.queueCopy h (encode i) op e (t.words4 sel) spans)) := by
  obtain ⟨hs, hw, hf, hc, he, hl⟩ := hp
  rw [copyEff_directed hs hw, if_neg, if_neg]
  · simpa using hl
  · simpa [hc, he] using hf

end

theorem copyGoes_of {i : Instr} {strms : List Strm} {h : Hdr} {op : CopyOp} {e : EHdr} {sel : List OReg}
    (hi : ∀ s, exec i s = copyIssue strms h i op e sel s) : copyGoes i strms h op e sel := by
  have hi' : ∀ s, exec i s = issue (gateN strms) h ⟨sel.map OReg.src, [], .discard, 1⟩ (copyEff h i op e sel) s :=
    fun s => (hi s).trans (copyIssue_eq ..)
  refine ⟨traps_of hi' fun t => copyEff_malformed, traps_of hi' ?_, traps_of hi' ?_, stalls_of (k := .other) hi' ?_,
    fun spans => gives_of hi' ?_⟩
  · rintro t ⟨spans, hs, hw, he⟩
    exact copyEff_etypes hs hw he
  · rintro t ⟨spans, hs, hw, hd⟩
    exact copyEff_stream hs hw hd
  · rintro t ⟨spans, hp, hl⟩
    exact (copyEff_passes hp).trans (if_pos hl)
  · rintro t ⟨hp, hl, hb⟩
    refine ((copyEff_passes hp).trans (if_neg (not_le.2 hl))).trans ?_
    rw [State.owned, if_neg (by simp [hb])]

/-! ### Tags and promises -/

/-- The tags that a new command may not take. -/
def Core.heldTags (c : Core) : List (BitVec 16) := 0 :: (c.copy.map (·.tag) ++ c.cstat.map (·.tag))

/-- May a number be the next tag? -/
def Core.tagFree (c : Core) (t : Nat) : Bool :=
  !(t % 65536 = 0 || (c.copy.any fun m => m.tag.toNat = t % 65536) || c.cstat.any fun m => m.tag.toNat = t % 65536)

theorem Core.tagFree_iff (c : Core) (t : Nat) : c.tagFree t = true ↔ BitVec.ofNat 16 t ∉ c.heldTags := by
  have h (x : BitVec 16) : x = BitVec.ofNat 16 t ↔ x.toNat = t % 65536 := by
    rw [← BitVec.toNat_inj, BitVec.toNat_ofNat]
  have h0 : BitVec.ofNat 16 t = 0 ↔ t % 65536 = 0 := by
    rw [eq_comm, h, eq_comm]
    rfl
  simp only [Core.tagFree, Core.heldTags, Bool.not_eq_true', Bool.or_eq_false_iff, decide_eq_false_iff_not, List.any_eq_false,
    decide_eq_true_eq, List.mem_cons, List.mem_append, List.mem_map, h0, h, not_or, not_exists, not_and, and_assoc]

/-- Of 100 numbers in a row some tag is free. -/
theorem exists_free_tag (l : List (BitVec 16)) (hl : l.length < 100) (lo : Nat) :
    ∃ j, lo ≤ j ∧ j < lo + 100 ∧ BitVec.ofNat 16 j ∉ l := by
  by_contra hn
  push Not at hn
  have hsub : (List.range 100).map (fun i => BitVec.ofNat 16 (lo + i)) ⊆ l := by
    intro x hx
    obtain ⟨i, hi, rfl⟩ := List.mem_map.1 hx
    exact hn _ (by omega) (by have := List.mem_range.1 hi; omega)
  have hnd : ((List.range 100).map fun i => BitVec.ofNat 16 (lo + i)).Nodup := by
    refine List.Nodup.map_on (fun i hi j hj e => ?_) List.nodup_range
    have hi := List.mem_range.1 hi
    have hj := List.mem_range.1 hj
    have := congrArg BitVec.toNat e
    simp only [BitVec.toNat_ofNat] at this
    omega
  have := (hnd.subperm hsub).length_le
  simp at this
  omega

theorem State.nextTag_free (s : State) (hc : s.core.copy.length ≤ 16) (hs : s.core.cstat.length ≤ 64) :
    s.nextTag ∉ s.core.heldTags := by
  have hl : s.core.heldTags.length < 100 := by
    simp only [Core.heldTags, List.length_cons, List.length_append, List.length_map]
    omega
  have e : s.nextTag = BitVec.ofNat 16 ((leastFrom s.core.tagFree ((s.core.ctx.map (·.ntag.toNat)).getD 1) 100).getD
    ((s.core.ctx.map (·.ntag.toNat)).getD 1)) := rfl
  rw [e]
  generalize (s.core.ctx.map (·.ntag.toNat)).getD 1 = lo
  cases hk : leastFrom s.core.tagFree lo 100 with
  | some k => exact (s.core.tagFree_iff k).1 (leastFrom_spec hk).2.2.1
  | none =>
    obtain ⟨j, h1, h2, h3⟩ := exists_free_tag s.core.heldTags hl lo
    have := leastFrom_none hk j h1 h2
    rw [(s.core.tagFree_iff j).2 h3] at this
    cases this

/-- A promise names its tag, whatever its clock (R228). -/
theorem promise_tag (tag : BitVec 16) (n : Nat) : (BitVec.ofNat 64 (tag.toNat * 2 ^ 48 + n % 2 ^ 48)).extractLsb' 48 16 = tag := by
  apply BitVec.eq_of_toNat_eq
  have := tag.isLt
  rw [BitVec.extractLsb'_toNat, BitVec.toNat_ofNat, Nat.shiftRight_eq_div_pow]
  omega

theorem State.copyPromise_eq (s : State) (tag : BitVec 16) (spans : List Span) :
    ∃ n f, s.copyPromise tag spans = (BitVec.ofNat 64 (tag.toNat * 2 ^ 48 + n % 2 ^ 48), { s with free := f }) := by
  unfold State.copyPromise
  split
  · split
    · exact ⟨_, s.free, rfl⟩
    · exact ⟨_, _, rfl⟩
  · exact ⟨_, _, rfl⟩

/-! ### Queueing -/

/-- The command that State.queueCopy puts last. -/
def State.newCmd (s : State) (h : Hdr) (iw : BitVec 96) (op : CopyOp) (e : EHdr) (d : Vector Word 4) (tag : BitVec 16)
    (prom : Word) : CCmd where
  op := op
  iw := iw
  strm := s.who
  slot := h.set
  e := e
  d := d
  tag := tag
  prom := prom
  ipc := s.cur.pc
  entry := s.cur.rqN
  begun := false
  done := false
  fault := none
  fva := 0
  wbase := 0
  marks := []
  unit := 0
  seen := 0
  lay := []
  idx := 0
  wins := s.copyWins op d
  hide := []
  pins := []
  since := s.ftime
  acc := s.core.nextId
  comp := []
  old := []

/-- A command last in the queue, its result entry allocated and the next tag noted. -/
def State.withCmd (s : State) (m : CCmd) : State :=
  let y := (s.cur.alloc (if m.op = .draft then none else some m.prom)).sbSet? m.slot
  let s := (s.setCur y).mapCtx fun x => { x with ntag := m.tag + 1 }
  { s with core := { s.core with copy := s.core.copy ++ [m], nextId := s.core.nextId + 1 } }

theorem State.queueCopy_eq (s : State) (h : Hdr) (iw : BitVec 96) (op : CopyOp) (e : EHdr) (d : Vector Word 4) (spans : List Span) :
    ∃ n f, let u : State := { s with free := f }
      s.queueCopy h iw op e d spans =
        u.withCmd (u.newCmd h iw op e d s.nextTag (BitVec.ofNat 64 (s.nextTag.toNat * 2 ^ 48 + n % 2 ^ 48))) := by
  obtain ⟨n, f, hp⟩ := s.copyPromise_eq s.nextTag spans
  refine ⟨n, f, ?_⟩
  simp only [State.queueCopy, hp]
  rfl

section
variable (s : State) (m : CCmd)

theorem State.withCmd_cur : (s.withCmd m).cur = (s.cur.alloc (if m.op = .draft then none else some m.prom)).sbSet? m.slot := by
  refine Eq.trans (Core.strm_congr _ ?_ ?_ ?_) (s.core.strm_setStrm s.who _) <;> rfl

theorem State.withCmd_stays : (s.withCmd m).core.copy = s.core.copy ++ [m] ∧ (s.withCmd m).core.tile = s.core.tile ∧
    (s.withCmd m).core.wb = s.core.wb ∧ (s.withCmd m).core.accs32 = s.core.accs32 :=
  ⟨congrArg (· ++ [m]) (s.core.setStrm_copy ..), s.core.setStrm_tile .., s.core.setStrm_wb .., s.core.setStrm_accs32 ..⟩

/-- What the stream finds in its results, slots and registers. -/
theorem State.withCmd_results : (s.withCmd m).cur.entry 0 = (if m.op = .draft then none else some m.prom) ∧
    (∀ k, k < 15 → (s.withCmd m).cur.entry (k + 1) = s.cur.entry k) ∧
    (∀ k, m.slot = some k → (s.withCmd m).cur.sb[k] = s.cur.sb[k] + 1) ∧
    (s.withCmd m).cur.n = s.cur.n ∧ (s.withCmd m).cur.p = s.cur.p := by
  rw [State.withCmd_cur]
  obtain ⟨hn, hp⟩ := Stream.sbSet?_regs (s.cur.alloc (if m.op = .draft then none else some m.prom)) m.slot
  refine ⟨?_, fun k hk => ?_, fun k hk => ?_, hn, hp⟩
  · rw [Stream.sbSet?_entry, Stream.entry_alloc _ _ (by decide), if_pos rfl]
  · rw [Stream.sbSet?_entry, Stream.entry_alloc _ _ (by omega), if_neg (by omega), Nat.add_sub_cancel]
  · rw [hk]
    simp [Stream.sbSet?, Stream.sbSet, Stream.alloc]

end

/-- What queueing a command leaves (R228, R239). -/
theorem State.queueCopy_leaves {s t : State} {h : Hdr} {iw : BitVec 96} {op : CopyOp} {e : EHdr} {d : Vector Word 4}
    {spans : List Span} (hc : s.core.copy.length ≤ 16) (hs : s.core.cstat.length ≤ 64) (ht : t = s.queueCopy h iw op e d spans) :
    (∃ m, t.core.copy = s.core.copy ++ [m] ∧ m.op = op ∧ m.iw = iw ∧ m.e = e ∧ m.d = d ∧ m.strm = s.who ∧ m.begun = false ∧
      m.done = false ∧ m.tag ≠ 0 ∧ (∀ c ∈ s.core.copy, c.tag ≠ m.tag) ∧ (∀ c ∈ s.core.cstat, c.tag ≠ m.tag) ∧
      m.prom.extractLsb' 48 16 = m.tag ∧ t.cur.entry 0 = if op = .draft then none else some m.prom) ∧
    (∀ k, k < 15 → t.cur.entry (k + 1) = s.cur.entry k) ∧ (∀ k, h.set = some k → t.cur.sb[k] = s.cur.sb[k] + 1) ∧
    t.mem = s.mem ∧ t.cur.n = s.cur.n ∧ t.cur.p = s.cur.p ∧ t.core.tile = s.core.tile ∧ t.core.wb = s.core.wb ∧
    t.core.accs32 = s.core.accs32 ∧ t.slices = s.slices := by
  obtain ⟨n, f, hq⟩ := s.queueCopy_eq h iw op e d spans
  have hfree := s.nextTag_free hc hs
  simp only [Core.heldTags, List.mem_cons, List.mem_append, List.mem_map, not_or, not_exists, not_and] at hfree
  obtain ⟨h0, hcopy, hstat⟩ := hfree
  let u : State := { s with free := f }
  let m := u.newCmd h iw op e d s.nextTag (BitVec.ofNat 64 (s.nextTag.toNat * 2 ^ 48 + n % 2 ^ 48))
  have hu : t = u.withCmd m := ht.trans hq
  obtain ⟨hl, htile, hwb, hacc⟩ := u.withCmd_stays m
  obtain ⟨he, hes, hsb, hn, hp⟩ := u.withCmd_results m
  rw [hu]
  exact ⟨⟨m, hl, rfl, rfl, rfl, rfl, rfl, rfl, rfl, h0, hcopy, hstat, promise_tag .., he⟩, hes, hsb, rfl, hn, hp, htile, hwb, hacc,
    rfl⟩

/-! ### Status -/

/-- The window mask, bit by bit (R230). -/
theorem CCmd.mask_testBit (m : CCmd) {i : Nat} (hi : i < 64) : m.mask.testBit i = true ↔ m.wbase + i ∈ m.marks := by
  have h : ∀ n, (List.range n).foldl (fun x i => if m.marks.contains (m.wbase + i) then x + 2 ^ i else x) 0 < 2 ^ n ∧ ∀ i,
      ((List.range n).foldl (fun x i => if m.marks.contains (m.wbase + i) then x + 2 ^ i else x) 0).testBit i = true ↔
        i < n ∧ m.wbase + i ∈ m.marks := by
    intro n
    induction n with
    | zero => exact ⟨Nat.one_pos, fun i => by simp⟩
    | succ n ih =>
      obtain ⟨hlt, hbit⟩ := ih
      rw [List.range_succ, List.foldl_append, List.foldl_cons, List.foldl_nil]
      generalize (List.range n).foldl _ 0 = x at hlt hbit ⊢
      by_cases hc : m.wbase + n ∈ m.marks
      · rw [if_pos (by simpa using hc)]
        have e : x + 2 ^ n = 2 ^ n * 1 ||| x := by rw [← Nat.two_pow_add_eq_or_of_lt hlt]; omega
        refine ⟨by rw [Nat.pow_succ]; omega, fun i => ?_⟩
        rw [e, Nat.mul_one, Nat.testBit_or, Nat.testBit_two_pow, Bool.or_eq_true, hbit, decide_eq_true_eq]
        constructor
        · rintro (rfl | ⟨h1, h2⟩)
          · exact ⟨by omega, hc⟩
          · exact ⟨by omega, h2⟩
        · rintro ⟨h1, h2⟩
          exact (Nat.lt_or_eq_of_le (Nat.le_of_lt_succ h1)).symm.imp Eq.symm fun h => ⟨h, h2⟩
      · rw [if_neg (by simpa using hc)]
        refine ⟨by rw [Nat.pow_succ]; omega, fun i => (hbit i).trans ⟨fun ⟨h1, h2⟩ => ⟨by omega, h2⟩, fun ⟨h1, h2⟩ => ⟨?_, h2⟩⟩⟩
        refine lt_of_le_of_ne (Nat.le_of_lt_succ h1) ?_
        rintro rfl
        exact hc h2
  exact ((h 64).2 i).trans ⟨fun k => k.2, fun k => ⟨hi, k⟩⟩

/-- The status of a command that stands. -/
theorem Core.cstatItem_standing {c : Core} {tag : BitVec 16} {m : CCmd} (hm : c.copy.find? (fun m => m.tag = tag) = some m) :
    (∀ sel, (c.cstatItem tag sel).2 = m.done) ∧
    (c.cstatItem tag 0).1 = (if m.done then 1 else 0) + (if m.fault.isSome then 2 else 0) +
      (match m.fault with | some x => 4 * x.code | none => 0) + m.wbase % 2 ^ 32 * 2 ^ 16 + tag.toNat * 2 ^ 48 ∧
    (∀ i, i < 64 → ((c.cstatItem tag 1).1.testBit i = true ↔ m.wbase + i ∈ m.marks)) ∧
    (c.cstatItem tag 2).1 = m.fva.toNat ∧ (c.cstatItem tag 3).1 = m.wbase + m.marks.length := by
  have htag : m.tag = tag := by simpa using List.find?_some hm
  have e (sel : Nat) : c.cstatItem tag sel =
      (match sel with | 0 => m.status | 1 => m.mask | 2 => m.fva.toNat | _ => m.count, m.done) := by
    simp only [Core.cstatItem, hm] <;> rfl
  refine ⟨fun sel => congrArg Prod.snd (e sel), ?_, fun i hi => ?_, congrArg Prod.fst (e 2), congrArg Prod.fst (e 3)⟩
  · rw [e, ← htag]
    unfold CCmd.status statWord natOfBool
    cases m.done <;> cases m.fault <;> simp [Nat.mul_comm]
  · rw [e]
    exact m.mask_testBit hi

/-- A tag that no command bears reads as done without a fault. -/
theorem Core.cstatItem_gone {c : Core} {tag : BitVec 16} (hc : ∀ m ∈ c.copy, m.tag ≠ tag) (hs : ∀ m ∈ c.cstat, m.tag ≠ tag) :
    (∀ sel, (c.cstatItem tag sel).2 = true) ∧ (c.cstatItem tag 0).1 = 1 + tag.toNat * 2 ^ 48 ∧ (c.cstatItem tag 1).1 = 0 ∧
    (c.cstatItem tag 2).1 = 0 ∧ (c.cstatItem tag 3).1 = 0 := by
  have h1 : c.copy.find? (fun m => m.tag = tag) = none := List.find?_eq_none.2 fun m hm => by simpa using hc m hm
  have h2 : c.cstat.find? (fun m => m.tag = tag) = none := List.find?_eq_none.2 fun m hm => by simpa using hs m hm
  have e (sel : Nat) : c.cstatItem tag sel = (match sel with | 0 => statWord true none 0 tag | 3 => 0 | _ => 0, true) := by
    simp only [Core.cstatItem, h1, h2] <;> rfl
  refine ⟨fun sel => congrArg Prod.snd (e sel), ?_, congrArg Prod.fst (e 1), congrArg Prod.fst (e 2), congrArg Prod.fst (e 3)⟩
  rw [e]
  simp [statWord, natOfBool]

theorem cstat_gives (h : Hdr) (sel : Fin 4) (d : Dst) (p : Fin 8) (a : Src) (imm : BitVec 32) :
    Gives (.cstat h sel d p a imm) (gateR [.l, .s] [a]) h (useD [a] d) always fun t =>
      let r := t.core.cstatItem ((t.val imm a).extractLsb' 48 16) sel.val
      (t.putPred p r.2).putDst d (BitVec.ofNat 64 r.1) :=
  gives_of (fun s => (rfl : execCstat h sel d p a imm s = _)) fun _ _ => rfl

theorem drstep_gives (h : Hdr) (d : Dst) (a : Src) : Gives (.drstep h d a) (gateR [.l] [a]) h (useD [a] d) always fun t =>
    let r := t.draftStep ((t.val 0 a).setWidth 32)
    r.1.putDst d (BitVec.ofNat 64 r.2) :=
  gives_of (fun s => (rfl : execDrstep h d a s = _)) fun _ _ => rfl

/-- Settles O34: one argument for the eleven commands, what queueing leaves, and the status of a tag. -/
theorem copyIssues : Obligations.CopyIssue := by
  unfold Obligations.CopyIssue
  refine ⟨⟨fun h o => copyGoes_of fun _ => rfl, fun h o => copyGoes_of fun _ => rfl, fun h cord o => copyGoes_of fun _ => rfl,
    fun h o => copyGoes_of fun _ => rfl, fun h o => copyGoes_of fun _ => rfl, fun h o => copyGoes_of fun _ => rfl,
    fun h o => copyGoes_of fun _ => rfl, fun h o => copyGoes_of fun _ => rfl, fun h o => copyGoes_of fun _ => rfl,
    fun h o => copyGoes_of fun _ => rfl, fun h o => copyGoes_of fun _ => rfl⟩,
    fun s h iw op e d spans hc hs => State.queueCopy_leaves hc hs rfl, cstat_gives,
    fun c tag m => Core.cstatItem_standing, fun c tag => Core.cstatItem_gone, drstep_gives⟩

end Sys2Proof.Machine
end

section
/-!
SUPPORT. When the decoder answers: for each part of a word, the field that gives a value is the field the encoder writes for it.
-/

-- Many short proofs in a row: each is elaborated before the next, so that none waits for another in a thread of its own.
set_option Elab.async false

namespace Sys2Proof

/-! ### When a decoder answers -/

@[simp] theorem bind_eq_ok {α β : Type} {x : Dec α} {f : α → Dec β} {b : β} :
    x >>= f = .ok b ↔ ∃ a, x = .ok a ∧ f a = .ok b := by
  cases x <;> simp [bind, Except.bind]

@[simp] theorem map_eq_ok {α β : Type} {x : Dec α} {f : α → β} {b : β} : f <$> x = .ok b ↔ ∃ a, x = .ok a ∧ f a = b := by
  cases x <;> simp [Functor.map, Except.map]

@[simp] theorem pure_eq_ok {α : Type} {a b : α} : (pure a : Dec α) = .ok b ↔ a = b := by simp [pure, Except.pure]

@[simp] theorem need_eq_ok {c : Bool} {e : DecodeError} {u : Unit} : need c e = .ok u ↔ c = true := by
  cases c <;> simp [need]

/-- A decoder and an encoder of a code that undo each other, each code tried. -/
theorem dec_eq_ok_of {φ α : Type} {dec : φ → Dec α} {enc : α → φ} (h1 : ∀ a, dec (enc a) = .ok a)
    (h2 : ∀ f, ∀ a ∈ (dec f).toOption, enc a = f) {f : φ} {a : α} : dec f = .ok a ↔ enc a = f :=
  ⟨fun h => h2 f a (by simp [h, Except.toOption]), fun h => h ▸ h1 a⟩

/-! ### Fields of a word -/

/-- A field put together from two, by its parts. -/
@[simp] theorem append_eq_iff_extract {n m : Nat} {x : BitVec n} {y : BitVec m} {z : no_index (BitVec (n + m))} :
    @Eq (no_index (BitVec (n + m))) (@HAppend.hAppend (BitVec n) (BitVec m) (no_index (BitVec (n + m))) _ x y) z ↔
      x = z.extractLsb' m n ∧ y = z.extractLsb' 0 m := by
  constructor
  · rintro rfl
    exact ⟨BitVec.extractLsb'_append_eq_left.symm, BitVec.extractLsb'_append_eq_right.symm⟩
  · rintro ⟨rfl, rfl⟩
    exact BitVec.extractLsb'_append_extractLsb'

@[simp] theorem extract_extract {n : Nat} (x : BitVec n) {a k b w : Nat} (h : b + w ≤ k) :
    (x.extractLsb' a k).extractLsb' b w = x.extractLsb' (a + b) w := by
  ext i hi
  simp only [BitVec.getElem_extractLsb', BitVec.getLsbD_extractLsb', Nat.add_assoc, decide_eq_true_eq, Bool.and_eq_right_iff_imp]
  omega

@[simp] theorem ofNat_eq_extract {n k a w : Nat} {x : BitVec n} :
    BitVec.ofNat w k = x.extractLsb' a w ↔ x.extractLsb' a w = BitVec.ofNat w k := eq_comm

@[simp] theorem extract_append_left {n m : Nat} {x : BitVec n} {y : BitVec m} :
    BitVec.extractLsb' (n := no_index (n + m)) m n (@HAppend.hAppend (BitVec n) (BitVec m) (no_index (BitVec (n + m))) _ x y) = x :=
  BitVec.extractLsb'_append_eq_left

@[simp] theorem extract_append_right {n m : Nat} {x : BitVec n} {y : BitVec m} :
    BitVec.extractLsb' (n := no_index (n + m)) 0 m (@HAppend.hAppend (BitVec n) (BitVec m) (no_index (BitVec (n + m))) _ x y) = y :=
  BitVec.extractLsb'_append_eq_right

@[simp] theorem bit1_eq {x : BitVec 1} {b : Bool} : bit1 b = x ↔ x[0] = b := by revert x b; decide

@[simp] theorem bit_eq_one {x : BitVec 1} : x = 1#1 ↔ x[0] = true := by revert x; decide

@[simp] theorem bit_eq_zero {x : BitVec 1} : x = 0#1 ↔ x[0] = false := by revert x; decide

@[simp] theorem one_eq_bit {x : BitVec 1} : 1#1 = x ↔ x[0] = true := by revert x; decide

@[simp] theorem zero_eq_bit {x : BitVec 1} : 0#1 = x ↔ x[0] = false := by revert x; decide

@[simp] theorem ofFin_eq {n : Nat} {x : BitVec n} {k : Fin (2 ^ n)} : BitVec.ofFin k = x ↔ x.toFin = k := by
  rw [← BitVec.toFin_inj]
  exact eq_comm

/-- A number below n, written as a code. -/
@[simp] theorem ofNat_val_eq {w n : Nat} {k : Fin n} {x : BitVec w} (h : n ≤ 2 ^ w) : BitVec.ofNat w k.val = x ↔ x.toNat = k.val := by
  rw [← BitVec.toNat_inj, BitVec.toNat_ofNat, Nat.mod_eq_of_lt (by omega)]
  exact eq_comm

@[simp] theorem encP_eq {p : Fin 8} {x : BitVec 7} : encP p = x ↔ x.extractLsb' 3 4 = 0 ∧ p3 x = p := by
  simp [encP, p3]
@[simp] theorem encQ_eq {p : Fin 8} {x : BitVec 4} : encQ p = x ↔ x[3] = false ∧ (x.extractLsb' 0 3).toFin = p := by
  revert p x; decide
@[simp] theorem encC_eq {p : Fin 16} {x : BitVec 7} : encC p = x ↔ x.extractLsb' 4 3 = 0 ∧ (x.extractLsb' 0 4).toFin = p := by
  simp [encC]

/-! ### Selectors and codes -/

@[simp] theorem Src.dec_eq_ok {x : BitVec 7} {a : Src} : Src.dec x = .ok a ↔ a.enc = x := dec_eq_ok_of Src.dec_enc (by decide)
@[simp] theorem Dst.dec_eq_ok {x : BitVec 7} {a : Dst} : Dst.dec x = .ok a ↔ a.enc = x := dec_eq_ok_of Dst.dec_enc (by decide)
@[simp] theorem OReg.dec_eq_ok {x : BitVec 7} {a : OReg} : OReg.dec x = .ok a ↔ a.enc = x := dec_eq_ok_of OReg.dec_enc (by decide)
@[simp] theorem EType.dec_eq_ok {x : BitVec 4} {a : EType} : EType.dec x = .ok a ↔ a.enc = x := dec_eq_ok_of EType.dec_enc (by decide)
@[simp] theorem Scope.dec_eq_ok {x : BitVec 3} {a : Scope} : Scope.dec x = .ok a ↔ a.enc = x := dec_eq_ok_of Scope.dec_enc (by decide)
@[simp] theorem FCond.dec_eq_ok {x : BitVec 4} {a : FCond} : FCond.dec x = .ok a ↔ a.enc = x := dec_eq_ok_of FCond.dec_enc (by decide)
@[simp] theorem SFTy.dec_eq_ok {x : BitVec 4} {a : SFTy} : SFTy.dec x = .ok a ↔ a.enc = x := dec_eq_ok_of SFTy.dec_enc (by decide)
@[simp] theorem RedKind.dec_eq_ok {x : BitVec 3} {a : RedKind} : RedKind.dec x = .ok a ↔ a.enc = x :=
  dec_eq_ok_of (by rintro ⟨⟩ <;> rfl) (by decide)
@[simp] theorem FRedKind.dec_eq_ok {x : BitVec 2} {a : FRedKind} : FRedKind.dec x = .ok a ↔ a.enc = x :=
  dec_eq_ok_of (by rintro ⟨⟩ <;> rfl) (by decide)
@[simp] theorem size23_eq_ok {x : BitVec 3} {a : Bool} : size23 x = .ok a ↔ encW64 a = x := dec_eq_ok_of (by decide) (by decide)
@[simp] theorem size4_eq_ok {x : BitVec 3} {a : Fin 4} : size4 x = .ok a ↔ (0 : BitVec 1) ++ (BitVec.ofFin a : BitVec 2) = x :=
  dec_eq_ok_of size4_enc (by decide)
@[simp] theorem Src.decNoImm_eq_ok {x : BitVec 7} {a : Src} : Src.decNoImm x = .ok a ↔ a ≠ .imm ∧ a.enc = x := by
  rw [Src.decNoImm, ← Src.dec_eq_ok]
  split
  · next h =>
    subst h
    simp only [reduceCtorEq, false_iff, not_and, Src.dec_eq_ok]
    exact fun ha he => ha (Except.ok.inj ((Src.dec_enc a).symm.trans (he ▸ (Src.dec_enc .imm))))
  · next h => 
    refine ⟨fun e => ⟨?_, e⟩, And.right⟩
    rintro rfl
    exact h (Src.dec_eq_ok.1 e).symm
@[simp] theorem ITy.enc_eq {x : BitVec 4} {t : ITy} {s : Bool} : t.enc s = x ↔ ITy.dec x = t ∧ x[2] = s := by
  rcases t with ⟨a, w⟩; revert x a w s; decide
@[simp] theorem Rnd.enc_eq {x : BitVec 2} {r : Rnd} : r.enc = x ↔ Rnd.dec x = r := by revert x; cases r <;> decide
@[simp] theorem ICond.enc_eq {x : BitVec 3} {c : ICond} : c.enc = x ↔ ICond.dec x = c := by revert x; cases c <;> decide

/-! ### Operands of format R -/

section r
variable {f : FmtR}

@[simp] theorem decIArith_eq_ok {o : IArith} : decIArith f = .ok o ↔ immOk o.imm [o.a, o.b] = true ∧ encIArith o = f := by
  rcases f; rcases o; simp [decIArith, encIArith]; grind

@[simp] theorem decIBin_eq_ok {o : IBin} : decIBin f = .ok o ↔ immOk o.imm [o.a, o.b] = true ∧ encIBin o = f := by
  rcases f; rcases o; simp [decIBin, encIBin]; grind

@[simp] theorem decIUn_eq_ok {o : IUn} : decIUn f = .ok o ↔ immOk o.imm [o.a] = true ∧ encIUn o = f := by
  rcases f; rcases o; simp [decIUn, encIUn]; grind

@[simp] theorem decIExt_eq_ok {sz : BitVec 4} {o : IExt} :
    decIExt sz f = .ok o ↔ immOk o.imm [o.a, o.b] = true ∧ encIExt sz o = f := by
  rcases f; rcases o; simp [decIExt, encIExt]; grind

@[simp] theorem decIBfx_eq_ok {o : IBfx} : decIBfx f = .ok o ↔ immOk o.imm [o.a, o.b] = true ∧ encIBfx o = f := by
  rcases f; rcases o; simp [decIBfx, encIBfx]; grind

@[simp] theorem decITri_eq_ok {o : ITri} : decITri f = .ok o ↔ immOk o.imm [o.a, o.b, o.c] = true ∧ encITri f.cond o = f := by
  rcases f; rcases o; simp [decITri, encITri]; grind

@[simp] theorem decICmp_eq_ok {o : ICmp} : decICmp f = .ok o ↔ immOk o.imm [o.a, o.b] = true ∧ encICmp o = f := by
  rcases f; rcases o; simp [decICmp, encICmp]; grind

@[simp] theorem decISel_eq_ok {o : ISel} : decISel f = .ok o ↔ immOk o.imm [o.a, o.b] = true ∧ encISel o = f := by
  rcases f; rcases o; simp [decISel, encISel]; grind

@[simp] theorem decFBin_eq_ok {o : FBin} : decFBin f = .ok o ↔ immOk o.imm [o.a, o.b] = true ∧ encFBin o = f := by
  rcases f; rcases o; simp [decFBin, encFBin]; grind

@[simp] theorem decFTri_eq_ok {o : FTri} : decFTri f = .ok o ↔ immOk o.imm [o.a, o.b, o.c] = true ∧ encFTri o = f := by
  rcases f; rcases o; simp [decFTri, encFTri]; grind

@[simp] theorem decFMinMax_eq_ok {o : FMinMax} : decFMinMax f = .ok o ↔ immOk o.imm [o.a, o.b] = true ∧ encFMinMax o = f := by
  rcases f; rcases o; simp [decFMinMax, encFMinMax]; grind

@[simp] theorem decFCmp_eq_ok {o : FCmp} : decFCmp f = .ok o ↔ immOk o.imm [o.a, o.b] = true ∧ encFCmp o = f := by
  rcases f; rcases o; simp [decFCmp, encFCmp]; grind

theorem EType.isScalarFloat_eq (e : EType) : e.isScalarFloat = (e = .f32 || e = .bf16 || e = .f16) := by cases e <;> rfl

@[simp] theorem decFCvt_eq_ok {o : FCvt} :
    decFCvt f = .ok o ↔ (immOk o.imm [o.a] && (!o.toSz || !o.other.isScalarFloat)) = true ∧ encFCvt o = f := by
  rcases f; rcases o; simp [decFCvt, encFCvt, EType.isScalarFloat_eq]; grind

@[simp] theorem decRUn_eq_ok {o : RUn} : decRUn f = .ok o ↔ immOk o.imm [o.a] = true ∧ encRUn o f.cond = f := by
  rcases f; rcases o; simp [decRUn, encRUn]; grind

end r

/-! ### Operands of formats M and E -/

section me
variable {f : FmtM} {e : FmtE}

/-- The fields of format M around an address. -/
@[simp] theorem encMF_eq {data : BitVec 7} {size scope : BitVec 3} {kmod : BitVec 4} {m : MAddr} :
    encMF data size scope kmod m = f ↔ data = f.data ∧ size = f.size ∧ scope = f.scope ∧ kmod = f.kmod ∧ decMAddr f = .ok m := by
  rcases f; rcases m; simp [decMAddr, encMF]; grind

@[simp] theorem decAt_eq_ok {o : AtOp} : decAt f = .ok o ↔ (o.a != .imm) = true ∧ encAt o = f := by
  rcases f; rcases o; simp [decAt, encAt, -Bool.exists_bool]; grind

/-- The fields of format E around a command of three words. -/
@[simp] theorem encE3_eq {o : E3} {emod : BitVec 4} : encE3 o emod = e ↔ emod = e.emod ∧ decE3 e = .ok o := by
  rcases e; rcases o with ⟨⟨⟩, _⟩; simp [decE3, encE3, decEHdr]; grind

/-- The fields of format E around a command of four words. -/
@[simp] theorem encE4_eq {o : E4} {emod : BitVec 4} : encE4 o emod = e ↔ emod = e.emod ∧ decE4 e = .ok o := by
  rcases e; rcases o with ⟨⟨⟩, _⟩; simp [decE4, encE4, decEHdr]; grind

theorem encCk_eq {ck : Option (Fin 8)} {x : BitVec 4} : encCk ck = x ↔
    (if x[0] then ck = some (x.extractLsb' 1 3).toFin else x = 0 ∧ ck = none) := by
  revert ck x; decide

@[simp] theorem decCk_eq_ok {ck : Option (Fin 8)} : decCk e = .ok ck ↔ encCk ck = e.emod := by
  rw [encCk_eq]
  by_cases h : e.emod.getLsbD 0 <;> simp_all [decCk] <;> grind

end me

/-! ### Operands of format V -/

section v
variable {f : FmtV}

/-- The fields of format V around shape, type and mask. -/
@[simp] theorem VCom.put_eq {c : VCom} {vd va vb vc : BitVec 10} {rnd : BitVec 2} {sat : BitVec 1} {fn : BitVec 15} :
    c.put vd va vb vc rnd sat fn = f ↔
      vd = f.vd ∧ va = f.va ∧ vb = f.vb ∧ vc = f.vc ∧ rnd = f.rnd ∧ sat = f.sat ∧ fn = f.fn ∧ decVCom f = .ok c := by
  rcases f; rcases c; simp [VCom.put, decVCom]; grind

theorem encSr_eq {sr : Option (Fin 16)} {x : BitVec 5} : encSr sr = x ↔
    (if x[4] then sr = some (x.extractLsb' 0 4).toFin else x.extractLsb' 0 4 = 0 ∧ sr = none) := by
  revert sr x; decide

@[simp] theorem decSr_eq_ok {sr : Option (Fin 16)} : decSr f = .ok sr ↔ encSr sr = f.fn.extractLsb' 10 5 := by
  rw [encSr_eq]
  by_cases h : f.fn.getLsbD 14 <;> simp_all [decSr] <;> grind

theorem Rnd.dec_eq_rne {x : BitVec 2} : Rnd.dec x = .rne ↔ x = 0 := by revert x; decide

@[simp] theorem decVRound_eq_ok {i : Bool} {r : VRound} : decVRound i f = .ok r ↔
    (!i || (r.rnd == .rne && r.sr.isNone)) = true ∧ r.rnd.enc = f.rnd ∧ bit1 r.sat = f.sat ∧ encSr r.sr = f.fn.extractLsb' 10 5 := by
  rcases f; rcases r; simp [decVRound]; grind [Rnd.dec_eq_rne]

theorem BOp.fn_eq {b : BOp} {x : BitVec 7} : b.fn = x ↔ x[4] = false ∧ match b with
    | .full _ => x.extractLsb' 5 2 = 0 ∧ x.extractLsb' 0 4 = 0
    | .row _ => x.extractLsb' 5 2 = 1 ∧ x.extractLsb' 0 4 = 0
    | .col _ => x.extractLsb' 5 2 = 2 ∧ x.extractLsb' 0 4 = 0
    | .scal k => x.extractLsb' 5 2 = 3 ∧ (x.extractLsb' 0 4).toFin = k := by
  cases b with
  | scal k => revert k x; decide
  | full _ | row _ | col _ => simp only [BOp.fn]; revert x; decide

@[simp] theorem decBOp_eq_ok {b : BOp} : decBOp f = .ok b ↔ b.vb = f.vb ∧ b.fn = f.fn.extractLsb' 0 7 := by
  rw [BOp.fn_eq]
  rcases f with ⟨_, _, vb, _, _, _, _, _, _, fn⟩
  have h (x : BitVec 2) : x = 0 ∨ x = 1 ∨ x = 2 ∨ x = 3 := by revert x; decide
  rcases h (fn.extractLsb' 5 2) with h | h | h | h
  all_goals simp [decBOp, h]; cases b <;> simp [BOp.vb]; grind

@[simp] theorem encMreg_eq {k : Fin 16} {x : BitVec 10} : encMreg k = x ↔ mregOnly x = true ∧ mreg x = k := by
  simp [encMreg, mregOnly, mreg]

theorem VIdx.fn_eq {x : VIdx} {y : BitVec 15} : x.fn = y ↔ y.extractLsb' 5 10 = 0 ∧ match x with
    | .imm _ => y[4] = false ∧ y.extractLsb' 0 4 = 0
    | .reg k => y[4] = true ∧ (y.extractLsb' 0 4).toFin = k := by
  cases x with
  | imm _ =>
    have h : (0 : BitVec 15) = (0 : BitVec 10) ++ bit1 false ++ (0 : BitVec 4) := rfl
    rw [VIdx.fn, h]
    simp
    grind
  | reg k =>
    have h : (VIdx.reg k).fn = (0 : BitVec 10) ++ bit1 true ++ (BitVec.ofFin k : BitVec 4) := rfl
    rw [h]
    simp
    grind

@[simp] theorem decVIdx_eq_ok {x : VIdx} : decVIdx f = .ok x ↔ x.vc = f.vc ∧ x.fn = f.fn := by
  rw [VIdx.fn_eq]
  rcases f
  cases x <;> simp [decVIdx, VIdx.vc, ite_eq_iff, -BitVec.toFin_extractLsb'] <;> grind
@[simp] theorem decVBin_eq_ok {o : VBin} : decVBin f = .ok o ↔ roundOk o.v.ty o.r = true ∧ encVBin o = f := by
  rcases f; rcases o; simp [decVBin, encVBin, roundOk]; grind

@[simp] theorem decVTri_eq_ok {o : VTri} : decVTri f = .ok o ↔ roundOk o.v.ty o.r = true ∧ encVTri o = f := by
  rcases f; rcases o; simp [decVTri, encVTri, roundOk]; grind

@[simp] theorem decVBit_eq_ok {o : VBit} : decVBit f = .ok o ↔ encVBit o = f := by
  rcases f; rcases o; simp [decVBit, encVBit, noRound]; grind

@[simp] theorem decVAbs_eq_ok {o : VAbsOp} : decVAbs f = .ok o ↔ (o.v.ty.isInt || !o.sat) = true ∧ encVAbs o = f := by
  rcases f; rcases o; simp [decVAbs, encVAbs]; grind

@[simp] theorem decVCmp_eq_ok {o : VCmpOp} : decVCmp f = .ok o ↔ encVCmp o = f := by
  have h (c : FCond) (x : BitVec 3) : c.enc = 0#1 ++ x ↔ c.enc.extractLsb' 0 3 = x := by revert x; cases c <;> decide
  rcases f; rcases o; simp [decVCmp, encVCmp, noRound]; grind

@[simp] theorem decVSel_eq_ok {o : VSelOp} : decVSel f = .ok o ↔ encVSel o = f := by
  rcases f; rcases o; simp [decVSel, encVSel, noRound]; grind

@[simp] theorem decVMov_eq_ok {o : VMovOp} : decVMov f = .ok o ↔ o.v.put o.vd o.va 0 0 0 0 0 = f := by
  rcases f; rcases o; simp [decVMov, noRound]; grind

theorem BOp.notFull_iff {b : BOp} : b.notFull = true ↔ b.fn.extractLsb' 5 2 ≠ 0 := by
  cases b with
  | scal k => revert k; decide
  | full _ | row _ | col _ => simp [BOp.notFull, BOp.fn]

@[simp] theorem decVBc_eq_ok {o : VBcOp} : decVBc f = .ok o ↔
    o.b.notFull = true ∧ o.v.put o.vd 0 o.b.vb 0 0 0 ((0 : BitVec 8) ++ o.b.fn) = f := by
  rcases f; rcases o; simp [decVBc, noRound, BOp.notFull_iff]; grind [extract_extract]

@[simp] theorem decVIota_eq_ok {o : VIotaOp} : decVIota f = .ok o ↔
    o.v.put o.vd 0 0 0 0 0 ((0 : BitVec 13) ++ BitVec.ofNat 2 o.sel.val) = f := by
  rcases f with ⟨_, _, _, _, _, _, _, _, _, fn⟩; rcases o
  by_cases h : (fn.extractLsb' 0 2).toNat < 3
  · simp [decVIota, noRound, h, Fin.ext_iff, -BitVec.extractLsb'_toNat]; grind
  · simp [decVIota, noRound, h, -BitVec.extractLsb'_toNat]; grind

@[simp] theorem decVUn_eq_ok {o : VUn} : decVUn f = .ok o ↔ encVUn o = f := by
  rcases f; rcases o; simp [decVUn, encVUn]; grind

@[simp] theorem decVUn3_eq_ok {c : Bool} {o : VUn3} : decVUn3 c f = .ok o ↔ encVUn3 c (f.fn.getLsbD 0) o = f := by
  rcases f; rcases o; cases c <;> simp [decVUn3, encVUn3] <;> grind

@[simp] theorem decVRed_eq_ok {c : Bool} {o : VRedOp} : decVRed c f = .ok o ↔
    ((!o.v.ty.isInt || o.rnd == .rne) && (!o.sat || (c && o.v.ty.isInt))) = true ∧ encVRed o = f := by
  rcases f; rcases o; simp [decVRed, encVRed]; grind [Rnd.dec_eq_rne]

@[simp] theorem decVScan_eq_ok {o : VScanOp} : decVScan f = .ok o ↔
    ((!o.v.ty.isInt || o.rnd == .rne) && (!o.sat || o.v.ty.isInt)) = true ∧ encVScan o = f := by
  rcases f; rcases o; simp [decVScan, encVScan]; grind [Rnd.dec_eq_rne]

@[simp] theorem decVdefer_eq_ok {o : VDeferOp} : decVdefer f = .ok o ↔
    ((1 ≤ o.cnt.val || o.vb == 0) && (2 ≤ o.cnt.val || o.vc == 0) && (3 ≤ o.cnt.val || o.vd == 0)) = true ∧ encVdefer o = f := by
  rcases f; rcases o
  simp [decVdefer, encVdefer, noRound, -BitVec.toFin_extractLsb', -BitVec.extractLsb'_toNat]; grind [BitVec.val_toFin]

@[simp] theorem decVdrain_eq_ok {o : VDrainOp} : decVdrain f = .ok o ↔
    ((1 ≤ o.cnt.val || o.va == 0) && (2 ≤ o.cnt.val || o.vb == 0) && (3 ≤ o.cnt.val || o.vc == 0) && (!o.idx || o.cnt == 3)) = true ∧
      encVdrain o = f := by
  have h3 (x : BitVec 2) : x = 3#2 ↔ x.toFin = 3 := by revert x; decide
  have h0 (x : BitVec 4) : x.toFin = 0 ↔ x = 0#4 := by revert x; decide
  rcases f; rcases o
  simp [decVdrain, h3, h0, encVdrain, noRound, decVCom, -BitVec.toFin_extractLsb', -BitVec.extractLsb'_toNat]; grind [BitVec.val_toFin]

@[simp] theorem decUOp_eq_ok {useB useC useG even : Bool} {o : UOp} : decUOp useB useC useG even f = .ok o ↔
    (useB || o.vb == 0) = true ∧ (useC || o.vc == 0) = true ∧ (useG || o.g == 0) = true ∧
      (!even || (o.h.val % 2 == 0 && o.g.val % 2 == 0)) = true ∧ encUOp (f.fn.getLsbD 8) o = f := by
  have h0 (x : BitVec 4) : x.toFin = 0 ↔ x = 0#4 := by revert x; decide
  have h2 (x : BitVec 4) : x.toFin.val % 2 = 0 ↔ x[0] = false := by revert x; decide
  rcases f; rcases o; simp [decUOp, encUOp, -BitVec.toFin_extractLsb', -BitVec.extractLsb'_toNat]; grind

/-- A raw field of thirty bits, by its three parts. -/
theorem extract_thirds_eq {x : BitVec 30} {a b c : BitVec 10} :
    x = a ++ b ++ c ↔ x.extractLsb' 20 10 = a ∧ x.extractLsb' 10 10 = b ∧ x.extractLsb' 0 10 = c := by
  rw [eq_comm (a := x), append_eq_iff_extract, append_eq_iff_extract]
  simp only [eq_comm (a := a), eq_comm (a := b), eq_comm (a := c), extract_extract, and_assoc, Nat.reduceAdd, Nat.reduceLeDiff]

theorem encVshape_eq {k : Fin 4} {v : ShapeVal} : encVshape k v = f ↔
    bareV f = true ∧ f.shp = 0 ∧ f.vd.extractLsb' 2 8 = 0 ∧ (f.vd.extractLsb' 0 2).toFin = k ∧ f.fn.extractLsb' 5 10 = 0 ∧
    match v with
    | .reg n => f.fn[4] = true ∧ (f.fn.extractLsb' 0 4).toFin = n ∧ (0 : BitVec 30) = f.va ++ f.vb ++ f.vc
    | .imm r c e => f.fn[4] = false ∧ f.fn.extractLsb' 0 4 = 0 ∧ r ++ c ++ e ++ (0 : BitVec 4) = (f.va ++ f.vb ++ f.vc : BitVec 30) := by
  have hk {x : BitVec 10} : (0 : BitVec 8) ++ (BitVec.ofFin k : BitVec 2) = x ↔ x.extractLsb' 2 8 = 0 ∧ (x.extractLsb' 0 2).toFin = k := by
    simp
  have h := @VIdx.fn_eq
  rcases f
  cases v with
  | reg n =>
    replace h := @h (.reg n)
    simp only [VIdx.fn] at h
    simp only [encVshape, FmtV.mk.injEq, hk, h, bareV, extract_thirds_eq, Bool.and_eq_true, decide_eq_true_eq]
    grind
  | imm r c e =>
    replace h := @h (.imm 0)
    simp only [VIdx.fn] at h
    simp only [encVshape, FmtV.mk.injEq, hk, h, bareV, Bool.and_eq_true, decide_eq_true_eq]
    grind

@[simp] theorem decVshape_eq_ok {h : Hdr} {i : Instr} :
    decVshape h f = .ok i ↔ ∃ k v, i = .vshape h k v ∧ encVshape k v = f := by
  simp only [encVshape_eq]
  generalize hr : f.va ++ f.vb ++ f.vc = raw
  simp [decVshape, hr, ite_eq_iff, -BitVec.toFin_extractLsb']
  constructor
  · rintro ⟨⟨⟨⟨hb, hs⟩, hv⟩, hf⟩, ⟨h4, h0, rfl⟩ | ⟨h4, ⟨hl, hi⟩, rfl⟩⟩
    · exact ⟨.reg _, rfl, hb, hs, hv, hf, h4, rfl, h0.symm⟩
    · exact ⟨.imm _ _ _, rfl, hb, hs, hv, hf, h4, hi, ⟨⟨rfl, rfl⟩, rfl⟩, hl⟩
  · rintro ⟨v, rfl, hb, hs, hv, hf, hm⟩
    cases v <;> simp_all

end v

end Sys2Proof
end

section
/-!
SUPPORT. A word that decodes is the word of a well-formed instruction, group by group.
-/

-- Many short proofs in a row: each is elaborated before the next, so that none waits for another in a thread of its own.
set_option Elab.async false

namespace Sys2Proof

/-! ### A word that decodes, group by group -/

/-- The word of a well-formed instruction. -/
def IsWord (w : IWord) (i : Instr) : Prop := i.wellFormed = true ∧ encode i = w

@[simp] theorem ite_eq_ok {α : Type} {p : Prop} [Decidable p] {x y : Dec α} {b : α} :
    (if p then x else y) = .ok b ↔ p ∧ x = .ok b ∨ ¬p ∧ y = .ok b := by split <;> simp_all

@[simp] theorem dite_eq_ok {α : Type} {p : Prop} [Decidable p] {a : p → α} {e : DecodeError} {b : α} :
    (if c : p then (pure (a c) : Dec α) else .error e) = .ok b ↔ ∃ c : p, a c = b := by split <;> simp_all

theorem code4_low {x : BitVec 4} (h : x.extractLsb' 1 3 = 0#3) : (0#4 = x ↔ x[0] = false) ∧ (1#4 = x ↔ x[0] = true) := by
  revert x; decide
theorem code3_low {x : BitVec 4} (h : x.extractLsb' 1 2 = 0#2) :
    (x.extractLsb' 0 3 = 0#3 ↔ x[0] = false) ∧ (x.extractLsb' 0 3 = 1#3 ↔ x[0] = true) := by
  revert x; decide
theorem code_two {x : BitVec 4} (h : x.toNat < 3) : 2#4 = x ↔ x ≠ 0#4 ∧ x ≠ 1#4 := by
  revert x; decide

theorem code4_high {x : BitVec 4} (h : x[3] = false) :
    (x.extractLsb' 2 2 = 0#2 ↔ x[2] = false) ∧ (x.extractLsb' 2 2 = 1#2 ↔ x[2] = true) := by
  revert x; decide
theorem code7_low {x : BitVec 7} (h : x.extractLsb' 4 3 = 0#3) : @Eq (Fin 16) (x.extractLsb' 0 4).toFin (0 : Fin 16) ↔ x = 0#7 := by
  revert x; decide
theorem toFin2_eq_zero {x : BitVec 2} : @Eq (Fin 4) x.toFin (0 : Fin 4) ↔ x = 0#2 := by revert x; decide

/-- What a mask of one field leaves to be zero. -/
theorem opOnly_iff (lo w : Nat) (mask : BitVec 32) (hm : ∀ i : Fin 32, mask.getLsbD i = decide (lo ≤ i.val ∧ i.val < lo + w)) {f : FmtB} :
    opOnly f mask = true ↔ f.opnd.extractLsb' 0 lo = 0 ∧ f.opnd.extractLsb' (lo + w) (32 - (lo + w)) = 0 := by
  have hb : opOnly f mask = true ↔ ∀ i < 32, f.opnd.getLsbD i = true → lo ≤ i ∧ i < lo + w := by
    rw [opOnly, decide_eq_true_eq]
    simp only [Fin.forall_iff] at hm
    constructor
    · intro h i hi hx
      have := congrArg (·.getLsbD i) h
      simpa [hm i hi] using (show mask.getLsbD i = true by simpa [hi, hx] using this)
    · intro h
      apply BitVec.eq_of_getLsbD_eq
      intro i hi
      by_cases hx : f.opnd.getLsbD i = true
      · simp [hm i hi, h i hi hx]
      · simp [hx]
  have hz (a n : Nat) : f.opnd.extractLsb' a n = 0 ↔ ∀ i < n, f.opnd.getLsbD (a + i) = false := by
    simp [BitVec.eq_of_getElem_eq_iff]
  rw [hb, hz, hz]
  constructor
  · intro h
    exact ⟨fun i hi => by by_contra; grind, fun i hi => by by_contra; grind⟩
  · rintro ⟨h1, h2⟩ i hi hx
    by_contra hn
    by_cases hl : i < lo
    · have := h1 i hl
      simp_all
    · have := h2 (i - (lo + w)) (by omega)
      rw [show lo + w + (i - (lo + w)) = i by omega] at this
      simp_all

theorem eq_ofNat_of_toNat {w n : Nat} {x : BitVec w} (h : x.toNat = n) : x = BitVec.ofNat w n := by
  rw [← h, BitVec.ofNat_toNat, BitVec.setWidth_eq]

theorem isSome_ite_some {α : Type} {c : Bool} {a : α} : (if c then some a else none).isSome = c := by cases c <;> rfl

theorem getD_ite_some {α : Type} {c : Bool} {a : α} : (if c then some a else none).getD a = a := by cases c <;> rfl

section
variable {g m : BitVec 6} {h : Hdr}
theorem encR_inj {f f' : FmtR} : encR g m h f = encR g m h f' ↔ f = f' :=
  ⟨fun e => by rw [← encR_unpack g m h f, e, encR_unpack], fun e => e ▸ rfl⟩
theorem encV_inj {f f' : FmtV} : encV g m h f = encV g m h f' ↔ f = f' :=
  ⟨fun e => by rw [← encV_unpack g m h f, e, encV_unpack], fun e => e ▸ rfl⟩
theorem encM_inj {f f' : FmtM} : encM g m h f = encM g m h f' ↔ f = f' :=
  ⟨fun e => by rw [← encM_unpack g m h f, e, encM_unpack], fun e => e ▸ rfl⟩
theorem encE_inj {f f' : FmtE} : encE g m h f = encE g m h f' ↔ f = f' :=
  ⟨fun e => by rw [← encE_unpack g m h f, e, encE_unpack], fun e => e ▸ rfl⟩
theorem encB_inj {f f' : FmtB} : encB g m h f = encB g m h f' ↔ f = f' :=
  ⟨fun e => by rw [← encB_unpack g m h f, e, encB_unpack], fun e => e ▸ rfl⟩
end
variable {h : Hdr} {i : Instr} {m : Nat}

theorem decSint_isWord {f : FmtR} (hd : decSint m h f = .ok i) : IsWord (encR 0x01 (BitVec.ofNat 6 m) h f) i := by
  rcases f
  unfold decSint decMovi at hd
  split at hd
  all_goals simp [-BitVec.toFin_extractLsb', -BitVec.extractLsb'_toNat] at hd
  all_goals casesm* _ ∨ _, _ ∧ _, Exists _
  all_goals
    subst_vars
    delta IsWord Instr.wellFormed encode
    dsimp only
    simp_all [-BitVec.toFin_extractLsb', encR_inj, immOk]

theorem decSflt_isWord {f : FmtR} (hd : decSflt m h f = .ok i) : IsWord (encR 0x02 (BitVec.ofNat 6 m) h f) i := by
  rcases f
  unfold decSflt decPlog at hd
  split at hd
  all_goals simp [-BitVec.toFin_extractLsb', -BitVec.extractLsb'_toNat] at hd
  all_goals casesm* _ ∨ _, _ ∧ _, Exists _
  all_goals
    subst_vars
    delta IsWord Instr.wellFormed encode
    dsimp only
    simp_all [-BitVec.toFin_extractLsb', encR_inj, p3]

theorem decB_isWord {f : FmtB} (hd : decB m h f = .ok i) : IsWord (encB 0x03 (BitVec.ofNat 6 m) h f) i := by
  rcases f
  unfold decB opF at hd
  split at hd
  all_goals simp [-BitVec.toFin_extractLsb', -BitVec.extractLsb'_toNat, ite_eq_iff,
      opOnly_iff 25 7 0xFE000000#32 (by decide), opOnly_iff 14 18 0xFFFFC000#32 (by decide), opOnly_iff 0 3 7#32 (by decide),
      opOnly_iff 5 27 0xFFFFFFE0#32 (by decide), opOnly_iff 18 14 0xFFFC0000#32 (by decide), opOnly_iff 9 16 0x01FFFE00#32 (by decide),
      opOnly_iff 9 23 0xFFFFFE00#32 (by decide), opOnly_iff 0 2 3#32 (by decide)] at hd
  all_goals casesm* _ ∨ _, _ ∧ _, Exists _
  all_goals
    subst_vars
    delta IsWord Instr.wellFormed encode
    dsimp only
    simp_all [-BitVec.toFin_extractLsb', encB_inj, LoopCount.noImm, code4_high, toFin2_eq_zero]

theorem decCtrlR_isWord {f : FmtR} (hd : decCtrlR m h f = .ok i) : IsWord (encR 0x03 (BitVec.ofNat 6 m) h f) i := by
  rcases f
  unfold decCtrlR at hd
  split at hd
  all_goals simp [-BitVec.toFin_extractLsb', -BitVec.extractLsb'_toNat, ite_eq_iff, p3] at hd
  all_goals casesm* _ ∨ _, _ ∧ _, Exists _
  all_goals
    subst_vars
    delta IsWord Instr.wellFormed encode
    dsimp only
    simp_all [-BitVec.toFin_extractLsb', encR_inj, p3, encPInv, code_two]

theorem decMem_isWord {f : FmtM} (hd : decMem m h f = .ok i) : IsWord (encM 0x08 (BitVec.ofNat 6 m) h f) i := by
  rcases f
  unfold decMem at hd
  split at hd
  all_goals simp [-BitVec.toFin_extractLsb', -BitVec.extractLsb'_toNat, ite_eq_iff] at hd
  all_goals casesm* _ ∨ _, _ ∧ _, Exists _
  all_goals
    subst_vars
    delta IsWord Instr.wellFormed encode
    dsimp only
    simp_all [-BitVec.toFin_extractLsb', encM_inj]

theorem decSyncM_isWord {f : FmtM} (hd : decSyncM m h f = .ok i) : IsWord (encM 0x09 (BitVec.ofNat 6 m) h f) i := by
  rcases f
  unfold decSyncM at hd
  split at hd
  all_goals simp [-BitVec.toFin_extractLsb', -BitVec.extractLsb'_toNat, ite_eq_iff] at hd
  all_goals casesm* _ ∨ _, _ ∧ _, Exists _
  all_goals
    subst_vars
    delta IsWord Instr.wellFormed encode
    dsimp only
    simp_all [-BitVec.toFin_extractLsb', encM_inj, code3_low, code4_low]

theorem decSyncR_isWord {f : FmtR} (hd : decSyncR m h f = .ok i) : IsWord (encR 0x09 (BitVec.ofNat 6 m) h f) i := by
  rcases f
  unfold decSyncR at hd
  split at hd
  all_goals simp [-BitVec.toFin_extractLsb', -BitVec.extractLsb'_toNat, ite_eq_iff, semOf] at hd
  all_goals casesm* _ ∨ _, _ ∧ _, Exists _
  all_goals
    subst_vars
    delta IsWord Instr.wellFormed encode
    dsimp only
    simp_all [-BitVec.toFin_extractLsb', encR_inj]

theorem decCapM_isWord {f : FmtM} (hd : decCapM m h f = .ok i) : IsWord (encM 0x0A (BitVec.ofNat 6 m) h f) i := by
  rcases f
  unfold decCapM at hd
  split at hd
  all_goals simp [-BitVec.toFin_extractLsb', -BitVec.extractLsb'_toNat] at hd
  all_goals casesm* _ ∨ _, _ ∧ _, Exists _
  all_goals
    subst_vars
    delta IsWord Instr.wellFormed encode
    dsimp only
    simp_all [-BitVec.toFin_extractLsb', encM_inj, code7_low]

theorem decCapR_isWord {f : FmtR} (hd : decCapR m h f = .ok i) : IsWord (encR 0x0A (BitVec.ofNat 6 m) h f) i := by
  rcases f
  unfold decCapR at hd
  split at hd
  all_goals simp [-BitVec.toFin_extractLsb', -BitVec.extractLsb'_toNat, p3] at hd
  all_goals casesm* _ ∨ _, _ ∧ _, Exists _
  all_goals
    subst_vars
    delta IsWord Instr.wellFormed encode
    dsimp only
    simp_all [-BitVec.toFin_extractLsb', encR_inj, p3, code7_low]

theorem decCopyE_isWord {f : FmtE} (hd : decCopyE m h f = .ok i) : IsWord (encE 0x0C (BitVec.ofNat 6 m) h f) i := by
  rcases f
  unfold decCopyE noEmod at hd
  split at hd
  all_goals simp [-BitVec.toFin_extractLsb', -BitVec.extractLsb'_toNat] at hd
  all_goals casesm* _ ∨ _, _ ∧ _, Exists _
  all_goals
    subst_vars
    delta IsWord Instr.wellFormed encode
    dsimp only
    simp_all [-BitVec.toFin_extractLsb', encE_inj]

theorem decCopyR_isWord {f : FmtR} (hd : decCopyR m h f = .ok i) : IsWord (encR 0x0C (BitVec.ofNat 6 m) h f) i := by
  rcases f
  unfold decCopyR at hd
  split at hd
  all_goals simp [-BitVec.toFin_extractLsb', -BitVec.extractLsb'_toNat] at hd
  all_goals casesm* _ ∨ _, _ ∧ _, Exists _
  all_goals
    subst_vars
    delta IsWord Instr.wellFormed encode
    dsimp only
    simp_all [-BitVec.toFin_extractLsb', encR_inj]

theorem decVec_isWord {f : FmtV} (hd : decVec m h f = .ok i) : IsWord (encV 0x10 (BitVec.ofNat 6 m) h f) i := by
  rcases f
  unfold decVec at hd
  split at hd
  all_goals simp [-BitVec.toFin_extractLsb', -BitVec.extractLsb'_toNat, ite_eq_iff] at hd
  all_goals casesm* _ ∨ _, _ ∧ _, Exists _
  all_goals
    subst_vars
    delta IsWord Instr.wellFormed encode
    dsimp only
    simp_all [-BitVec.toFin_extractLsb', encV_inj]

theorem decVred_isWord {f : FmtV} (hd : decVred m h f = .ok i) : IsWord (encV 0x11 (BitVec.ofNat 6 m) h f) i := by
  rcases f
  unfold decVred at hd
  split at hd
  all_goals simp [-BitVec.toFin_extractLsb', -BitVec.extractLsb'_toNat] at hd
  all_goals casesm* _ ∨ _, _ ∧ _, Exists _
  all_goals
    subst_vars
    delta IsWord Instr.wellFormed encode
    dsimp only
    simp_all [-BitVec.toFin_extractLsb']

theorem decVsfu_isWord {f : FmtV} (hd : decVsfu m h f = .ok i) : IsWord (encV 0x12 (BitVec.ofNat 6 m) h f) i := by
  rcases f
  unfold decVsfu at hd
  split at hd
  all_goals simp [-BitVec.toFin_extractLsb', -BitVec.extractLsb'_toNat] at hd
  all_goals casesm* _ ∨ _, _ ∧ _, Exists _
  all_goals
    subst_vars
    delta IsWord Instr.wellFormed encode
    dsimp only
    simp_all [-BitVec.toFin_extractLsb']

theorem decVperm_isWord {f : FmtV} (hd : decVperm m h f = .ok i) : IsWord (encV 0x13 (BitVec.ofNat 6 m) h f) i := by
  rcases f
  unfold decVperm at hd
  split at hd
  all_goals simp [-BitVec.toFin_extractLsb', -BitVec.extractLsb'_toNat, ite_eq_iff, noRound, bareV, decVCom] at hd
  all_goals casesm* _ ∨ _, _ ∧ _, Exists _
  all_goals
    subst_vars
    delta IsWord Instr.wellFormed encode
    dsimp only
    simp_all [-BitVec.toFin_extractLsb', encV_inj, decVCom, isSome_ite_some, getD_ite_some]

theorem decMtxE_isWord {f : FmtE} (hd : decMtxE m h f = .ok i) : IsWord (encE 0x18 (BitVec.ofNat 6 m) h f) i := by
  rcases f
  unfold decMtxE noEmod at hd
  split at hd
  all_goals simp [-BitVec.toFin_extractLsb', -BitVec.extractLsb'_toNat, ite_eq_iff, decEHdr] at hd
  all_goals casesm* _ ∨ _, _ ∧ _, Exists _
  all_goals
    subst_vars
    delta IsWord Instr.wellFormed encode
    dsimp only
    simp_all [-BitVec.toFin_extractLsb', encE_inj]

theorem decMtxR_isWord {f : FmtR} (hd : decMtxR m h f = .ok i) : IsWord (encR 0x18 (BitVec.ofNat 6 m) h f) i := by
  rcases f
  unfold decMtxR at hd
  split at hd
  all_goals simp [-BitVec.toFin_extractLsb', -BitVec.extractLsb'_toNat] at hd
  all_goals casesm* _ ∨ _, _ ∧ _, Exists _
  all_goals
    subst_vars
    delta IsWord Instr.wellFormed encode
    dsimp only
    simp_all [-BitVec.toFin_extractLsb', encR_inj]

theorem decUpd_isWord {f : FmtV} (hd : decUpd m h f = .ok i) : IsWord (encV 0x1A (BitVec.ofNat 6 m) h f) i := by
  rcases f
  unfold decUpd at hd
  split at hd
  all_goals simp [-BitVec.toFin_extractLsb', -BitVec.extractLsb'_toNat, ite_eq_iff] at hd
  all_goals casesm* _ ∨ _, _ ∧ _, Exists _
  all_goals
    subst_vars
    delta IsWord Instr.wellFormed encode
    dsimp only
    simp_all [-BitVec.toFin_extractLsb']

theorem decExpR_isWord {f : FmtR} (hd : decExpR m h f = .ok i) : IsWord (encR 0x1C (BitVec.ofNat 6 m) h f) i := by
  rcases f
  unfold decExpR at hd
  split at hd
  all_goals simp [-BitVec.toFin_extractLsb', -BitVec.extractLsb'_toNat, ite_eq_iff] at hd
  all_goals casesm* _ ∨ _, _ ∧ _, Exists _
  all_goals
    subst_vars
    delta IsWord Instr.wellFormed encode
    dsimp only
    simp_all [-BitVec.toFin_extractLsb', encR_inj]

theorem decContR_isWord {f : FmtR} (hd : decContR m h f = .ok i) : IsWord (encR 0x1D (BitVec.ofNat 6 m) h f) i := by
  rcases f
  unfold decContR at hd
  split at hd
  all_goals simp [-BitVec.toFin_extractLsb', -BitVec.extractLsb'_toNat, ite_eq_iff] at hd
  all_goals casesm* _ ∨ _, _ ∧ _, Exists _
  all_goals
    subst_vars
    delta IsWord Instr.wellFormed encode
    dsimp only
    simp_all [-BitVec.toFin_extractLsb', encR_inj, code4_low, code_two]

theorem decContM_isWord {f : FmtM} (hd : decContM m h f = .ok i) : IsWord (encM 0x1D (BitVec.ofNat 6 m) h f) i := by
  rcases f
  unfold decContM at hd
  split at hd
  all_goals simp [-BitVec.toFin_extractLsb', -BitVec.extractLsb'_toNat] at hd
  all_goals casesm* _ ∨ _, _ ∧ _, Exists _
  all_goals
    subst_vars
    delta IsWord Instr.wellFormed encode
    dsimp only
    simp_all [-BitVec.toFin_extractLsb', encM_inj]

theorem decTlbinv_isWord {f : FmtR} (hd : decTlbinv h f = .ok i) : IsWord (encR 0x30 5#6 h f) i := by
  rcases f
  unfold decTlbinv at hd
  simp [-BitVec.toFin_extractLsb', -BitVec.extractLsb'_toNat] at hd
  obtain ⟨a, ha, b, hb, hr, hd⟩ := hd
  split at hd
  case h_6 => cases hd
  all_goals
    rename_i hk
    replace hk := eq_ofNat_of_toNat hk
    obtain rfl := Except.ok.inj hd
    simp_all [IsWord, Instr.wellFormed, encode, encR_inj]

theorem decCsrx_isWord {f : FmtR} (hd : decCsrx h f = .ok i) : IsWord (encR 0x30 4#6 h f) i := by
  rcases f
  unfold decCsrx decCsr at hd
  simp [-BitVec.toFin_extractLsb', -BitVec.extractLsb'_toNat] at hd
  casesm* _ ∨ _, _ ∧ _, Exists _
  all_goals
    subst_vars
    delta IsWord Instr.wellFormed encode
    dsimp only
    simp_all [encR_inj]

theorem decSys_isWord {f : FmtR} (hd : decSys m h f = .ok i) : IsWord (encR 0x30 (BitVec.ofNat 6 m) h f) i := by
  rcases f
  unfold decSys decCsr decSys3 at hd
  split at hd
  case h_5 => exact decCsrx_isWord hd
  case h_6 => exact decTlbinv_isWord hd
  all_goals simp [-BitVec.toFin_extractLsb', -BitVec.extractLsb'_toNat, ite_eq_iff, encRUn] at hd
  all_goals casesm* _ ∨ _, _ ∧ _, Exists _
  all_goals
    subst_vars
    delta IsWord Instr.wellFormed encode
    dsimp only
    simp_all [-BitVec.toFin_extractLsb', encR_inj, encRUn, code4_low]

end Sys2Proof
end

section
/-!
PROOFS. Encoding: the whole word.
-/

-- Many short proofs in a row: each is elaborated before the next, so that none waits for another in a thread of its own.
set_option Elab.async false

namespace Sys2Proof

/-! ### The whole word, put together again -/

theorem FmtR.pack_unpack (w : IWord) : (FmtR.unpack w).pack = w.extractLsb' 0 68 := by
  simp [FmtR.pack, FmtR.unpack]
theorem FmtV.pack_unpack (w : IWord) : (FmtV.unpack w).pack = w.extractLsb' 0 68 := by
  simp [FmtV.pack, FmtV.unpack]
theorem FmtM.pack_unpack (w : IWord) : (FmtM.unpack w).pack = w.extractLsb' 0 68 := by
  simp [FmtM.pack, FmtM.unpack]
theorem FmtE.pack_unpack (w : IWord) : (FmtE.unpack w).pack = w.extractLsb' 0 68 := by
  simp [FmtE.pack, FmtE.unpack]
theorem FmtB.pack_unpack (w : IWord) : (FmtB.unpack w).pack = w.extractLsb' 0 68 := by
  simp [FmtB.pack, FmtB.unpack]
theorem WHead.pack_unpack (w : IWord) : (WHead.unpack w).pack = w.extractLsb' 68 28 := by
  simp [WHead.pack, WHead.unpack]

theorem Hdr.dec_eq_ok {f : WHead} {h : Hdr} : Hdr.dec f = .ok h ↔ headOf f.grp f.minor h = f := by
  constructor
  · intro hd
    rcases f
    simp [Hdr.dec, -BitVec.toFin_extractLsb', -BitVec.extractLsb'_toNat] at hd
    obtain ⟨hs, rfl⟩ := hd
    simp [headOf]
    split <;> simp_all
  · intro e
    rw [← e]
    exact Hdr.dec_headOf _ _ h

/-- The word of a header that its first bits hold. -/
theorem enc_append_of_dec {w : IWord} {h : Hdr} (hd : Hdr.dec (WHead.unpack w) = .ok h) :
    h.enc (WHead.unpack w).grp (WHead.unpack w).minor ++ w.extractLsb' 0 68 = w := by
  have hh := congrArg WHead.pack (Hdr.dec_eq_ok.1 hd)
  rw [WHead.pack_unpack] at hh
  refine append_eq_iff_extract.2 ⟨hh, rfl⟩

theorem IsWord.congr {v w : IWord} {i : Instr} (hi : IsWord v i) (h : v = w) : IsWord w i := h ▸ hi

theorem decXcmb_isWord {h : Hdr} {i : Instr} {f : FmtM} (hd : decXcmb h f = .ok i) : IsWord (encM 0x1C 0x02 h f) i := by
  rcases f
  simp [decXcmb] at hd
  casesm* _ ∧ _, Exists _
  subst_vars
  delta IsWord Instr.wellFormed encode
  dsimp only
  simp_all [encM_inj]

theorem decodePayload_isWord {g m : BitVec 6} {h : Hdr} {w : IWord} {i : Instr} (hw : h.enc g m ++ w.extractLsb' 0 68 = w)
    (hd : decodePayload g.toNat m.toNat h w = .ok i) : IsWord w i := by
  have hm : BitVec.ofNat 6 m.toNat = m := (eq_ofNat_of_toNat rfl).symm
  have of {k : Nat} {p : BitVec 68} (hg : g.toNat = k) (hp : p = w.extractLsb' 0 68) :
      h.enc (BitVec.ofNat 6 k) (BitVec.ofNat 6 m.toNat) ++ p = w := by
    rw [← eq_ofNat_of_toNat hg, hm, hp, hw]
  unfold decodePayload at hd
  split at hd
  case h_1 hg => exact (decSint_isWord hd).congr (of hg (FmtR.pack_unpack w))
  case h_2 hg => exact (decSflt_isWord hd).congr (of hg (FmtR.pack_unpack w))
  case h_3 hg =>
    split at hd
    · exact (decCtrlR_isWord hd).congr (of hg (FmtR.pack_unpack w))
    · exact (decB_isWord hd).congr (of hg (FmtB.pack_unpack w))
  case h_4 hg => exact (decMem_isWord hd).congr (of hg (FmtM.pack_unpack w))
  case h_5 hg =>
    split at hd
    · exact (decSyncM_isWord hd).congr (of hg (FmtM.pack_unpack w))
    · exact (decSyncR_isWord hd).congr (of hg (FmtR.pack_unpack w))
  case h_6 hg =>
    split at hd
    · exact (decCapM_isWord hd).congr (of hg (FmtM.pack_unpack w))
    · exact (decCapR_isWord hd).congr (of hg (FmtR.pack_unpack w))
  case h_7 hg =>
    split at hd
    · exact (decCopyR_isWord hd).congr (of hg (FmtR.pack_unpack w))
    · exact (decCopyE_isWord hd).congr (of hg (FmtE.pack_unpack w))
  case h_8 hg => exact (decVec_isWord hd).congr (of hg (FmtV.pack_unpack w))
  case h_9 hg => exact (decVred_isWord hd).congr (of hg (FmtV.pack_unpack w))
  case h_10 hg => exact (decVsfu_isWord hd).congr (of hg (FmtV.pack_unpack w))
  case h_11 hg => exact (decVperm_isWord hd).congr (of hg (FmtV.pack_unpack w))
  case h_12 hg =>
    split at hd
    · exact (decMtxR_isWord hd).congr (of hg (FmtR.pack_unpack w))
    · exact (decMtxE_isWord hd).congr (of hg (FmtE.pack_unpack w))
  case h_13 hg => exact (decUpd_isWord hd).congr (of hg (FmtV.pack_unpack w))
  case h_14 hg =>
    split at hd
    · next hx =>
      have hf := of hg (FmtM.pack_unpack w)
      rw [hx] at hf
      exact (decXcmb_isWord hd).congr hf
    · exact (decExpR_isWord hd).congr (of hg (FmtR.pack_unpack w))
  case h_15 hg =>
    split at hd
    · exact (decContM_isWord hd).congr (of hg (FmtM.pack_unpack w))
    · exact (decContR_isWord hd).congr (of hg (FmtR.pack_unpack w))
  case h_16 hg => exact (decSys_isWord hd).congr (of hg (FmtR.pack_unpack w))
  case h_17 => cases hd

/-! ### Prefixes -/

theorem pfx_code {g m : Nat} (ho : opInfo g m ≠ none) (hg : 0x3E ≤ g) : m = 0 ∧ (g = 0x3E ∨ g = 0x3F) := by
  unfold opInfo at ho
  grind

theorem decPfxm_isWord {w : IWord} {i : Instr} (hd : decPfxm w = .ok i) (hw : (0x3F : BitVec 6) ++ (0 : BitVec 22) = w.extractLsb' 68 28) :
    IsWord w i := by
  simp [decPfxm] at hd
  obtain ⟨hz, hc, rfl⟩ := hd
  exact ⟨by simp [Instr.wellFormed]; grind, append_eq_iff_extract.2 ⟨hw, by simp [encPfxm]; grind⟩⟩

theorem decodePfx_isWord {w : IWord} {i : Instr} (ho : opInfo (WHead.unpack w).grp.toNat (WHead.unpack w).minor.toNat ≠ none)
    (hg : 0x3E ≤ (WHead.unpack w).grp.toNat) (hd : decodePfx (WHead.unpack w).grp.toNat w = .ok i) : IsWord w i := by
  have hm : (WHead.unpack w).minor = 0 := eq_ofNat_of_toNat (pfx_code ho hg).1
  simp only [decodePfx, ite_eq_ok, reduceCtorEq, and_false, false_or, Except.ok.injEq, ne_eq, Decidable.not_not] at hd
  have first {k : BitVec 6} (hk : (WHead.unpack w).grp = k) : k ++ (0 : BitVec 22) = w.extractLsb' 68 28 := by
    have h6 : (0 : BitVec 6) ++ (0 : BitVec 16) = (0 : BitVec 22) := rfl
    rw [← h6, append_eq_iff_extract, append_eq_iff_extract]
    simp_all [WHead.unpack]
  obtain ⟨hz, ⟨hk, rfl⟩ | ⟨hk, hd⟩⟩ := hd
  · exact ⟨rfl, append_eq_iff_extract.2 ⟨first (eq_ofNat_of_toNat hk), rfl⟩⟩
  · exact decPfxm_isWord hd (first (eq_ofNat_of_toNat ((pfx_code ho hg).2.resolve_left hk)))

theorem decodeWord_isWord {w : IWord} {i : Instr} (hd : decodeWord w = .ok i) : IsWord w i := by
  simp only [decodeWord, decodeHead, ite_eq_ok, reduceCtorEq, and_false, false_or] at hd
  obtain ⟨-, ho, ⟨hg, hd⟩ | ⟨hg, hd⟩⟩ := hd
  · exact decodePfx_isWord ho hg hd
  · obtain ⟨h, hh, hd⟩ := bind_eq_ok.1 hd
    exact decodePayload_isWord (enc_append_of_dec hh) hd

end Sys2Proof
end

section
open Sys2Proof Sys2Proof.Machine

/-- Settles O2: of every decoder, by the fields that it reads and the encoder writes. -/
theorem decodeExact : Obligations.DecodeExact := by
  unfold Obligations.DecodeExact
  exact fun _ _ hd => decodeWord_isWord hd

/-- Refutes O1: the operand record of STQ has the field sx of LDQ, for which the word of STQ has no bit (R209) and which a
well-formed STQ may set. The word of such an STQ decodes to the one with sx false. -/
theorem not_roundTrip : ¬Obligations.RoundTrip := by
  unfold Obligations.RoundTrip
  intro h
  have hd := h (.stq ⟨false, 0, 0, none⟩ ⟨0, true, 0, .core, ⟨0, .zero, 0⟩⟩) rfl (by decide)
  have he : decodeWord (encode (.stq ⟨false, 0, 0, none⟩ ⟨0, true, 0, .core, ⟨0, .zero, 0⟩⟩)) =
      .ok (.stq ⟨false, 0, 0, none⟩ ⟨0, false, 0, .core, ⟨0, .zero, 0⟩⟩) := by decide
  simpa using hd.symm.trans he

end

section
/-!
PROOFS. What decodes to nothing (R161), and the words of the spec.
-/

-- Many short proofs in a row: each is elaborated before the next, so that none waits for another in a thread of its own.
set_option Elab.async false

namespace Sys2Proof

open Machine

/-- The decoder asks for an assigned group and minor first (R161). -/
theorem decodeWord_ne_ok_of_unassigned {w : IWord} (h : opInfo (wordGroup w) (wordMinor w) = none) (i : Instr) :
    decodeWord w ≠ .ok i := by
  have hu : decodeHead (WHead.unpack w) w = .error .unassigned := if_pos h
  unfold decodeWord
  rw [hu]
  split <;> simp

theorem decodeWord_zero_ne_ok (i : Instr) : decodeWord 0 ≠ .ok i := by
  rw [decodeWord, if_pos rfl]
  simp

theorem opInfo_unassigned {g : Nat} (m : Nat) (hg : g = 0x00 ∨ 0x04 ≤ g ∧ g ≤ 0x07 ∨ g = 0x0B ∨ 0x0D ≤ g ∧ g ≤ 0x0F ∨
    0x14 ≤ g ∧ g ≤ 0x17 ∨ g = 0x19 ∨ g = 0x1B ∨ 0x1E ≤ g ∧ g ≤ 0x2F ∨ 0x31 ≤ g ∧ g ≤ 0x3D) : opInfo g m = none := by
  unfold opInfo
  dsimp only
  split
  case h_19 => rfl
  all_goals omega

/-- Settles O3: the words are ten concrete ones, each decoded; the unassigned ones fail at the decoder's first two questions. -/
theorem decodeExamples : Obligations.DecodeExamples := by
  unfold Obligations.DecodeExamples
  exact ⟨by decide, fun _ => decodeWord_ne_ok_of_unassigned, fun _ m => opInfo_unassigned m, decodeWord_zero_ne_ok⟩

end Sys2Proof
end

section
/-!
PROOFS. What transfers and the other instructions of CTRL come to (R147, R148, R184 to R202), and that no instruction is refused.
-/

-- Many short proofs in a row: each is elaborated before the next, so that none waits for another in a thread of its own.
set_option Elab.async false

namespace Sys2Proof.Machine

/-! ### Refusals -/

theorem Issued.not_refused {h : Hdr} {n : Nat} {s : State} {o : Host.Outcome State Fault Refusal} (hi : Issued h n s o) (r : Refusal) :
    o ≠ .refused r := by
  cases hi with
  | plain ho hn => exact ho ▸ issue_not_refused r
  | trapped ho => exact ho ▸ nofun
  | checked ho hn => exact ho ▸ issueIf_not_refused r

theorem latchPfx_not_refused (again : Bool) (f : Stream → Stream) (s : State) (r : Refusal) : latchPfx again f s ≠ .refused r := by
  unfold latchPfx
  split <;> nofun

/-- Events and prefixes move or stop: the events that ask first, each by its own cases, and the others by what they are. -/
theorem exec_not_refused_of_event {i : Instr} (s : State) (r : Refusal) (hi : i.hdr? = none) : exec i s ≠ .refused r := by
  cases i
  case pfxi | pfxm => exact latchPfx_not_refused _ _ s r
  case sleepEnd | releaseComplete | accessComplete | copyCommandBegin | copyCommandComplete | draftFetch | draftArrival |
      matrixCommandBegin | matrixCommandComplete | rickAgeExpiry =>
    simp only [exec, execSleepEnd, execReleaseComplete, execAccessComplete, execCopyCommandBegin, execCopyCommandComplete,
      execDraftFetch, execDraftArrival, execMatrixCommandBegin, execMatrixCommandComplete, execRickAgeExpiry]
    grind
  all_goals cases hi <;> exact nofun

/-- Settles O7: an instruction of a stream is issued or traps, and neither refuses; prefixes and events give a next state or stop. -/
theorem nothingRefused : Obligations.NothingRefused := by
  unfold Obligations.NothingRefused
  intro i s r
  cases hi : i.hdr? with
  | none => exact exec_not_refused_of_event s r hi
  | some h => exact (exec_issued s hi).not_refused r

/-! ### Transfers -/

section
variable {h : Hdr} {s t u : State} {a : Src}

/-- What goes on at a place of its own. -/
theorem goes_at {i : Instr} {g : Gate} {use : Use} {eff : State → Done} (hi : exec i s = issue g h use eff s) (he : Executes g h use s)
    (hf : eff s.markIssued = .stay t) : exec i s = .next t := hi.trans (issue_stay he hf)

/-- A transfer that leads to t ends its instruction there. -/
theorem xferDone_of {srcs : List Src} {post : State → State} {x : BitVec 32} (hl : LeadsTo u x t) :
    xferDone srcs post (u.transfer x) = .stay (post (t.popAll srcs)) := by
  rw [transfer_of hl]
  rfl

theorem callTo_of {link : Dst} {srcs : List Src} {f : State → BitVec 32} (hn : s.cur.next ≠ s.cur.secEnd)
    (hl : LeadsTo s.markIssued (f s.markIssued) t) : callTo link srcs f s.markIssued =
      .stay ((t.popAll srcs).putDst link (BitVec.ofNat 64 (s.cur.next.toNat + s.cur.shdr.toNat * 2 ^ 32))) := by
  have hm : s.markIssued.cur.next ≠ s.markIssued.cur.secEnd := by
    rw [State.markIssued_cur]
    exact hn
  rw [callTo, if_neg hm, xferDone_of hl]
  simp [State.linkRecord, State.markIssued_cur, Stream.next]

theorem ret_goes {g : SecHdr} {i : Nat} (he : Executes (gateN anyStrm) h (useS [a]) s)
    (hh : s.markIssued.header ((s.markIssued.val 0 a).extractLsb' 32 32) = (u, .ok (some g))) (hi : i < g.len.toNat)
    (hp : (s.markIssued.val 0 a).setWidth 32 = wordAddr ((s.markIssued.val 0 a).extractLsb' 32 32) i) :
    exec (.ret h a) s = .next ((if (s.markIssued.val 0 a).extractLsb' 32 32 = u.cur.shdr then
        u.gotoWord ((s.markIssued.val 0 a).setWidth 32)
      else u.gotoReturn ((s.markIssued.val 0 a).extractLsb' 32 32) ((s.markIssued.val 0 a).setWidth 32)).popAll [a]) := by
  refine goes_at (rfl : execRet h a s = _) he ?_
  simp only [hh, hp, wordIn_wordAddr hi, Option.isNone_some, Bool.false_eq_true, if_false]
  split <;> rfl

theorem jtab_past (h : Hdr) (a : Src) (cap : Fin 16) (len : BitVec 16) (off : BitVec 32) :
    Gives (.jtab h a cap len off) (gateN anyStrm) h (useS [a]) (fun t => len.toNat ≤ (t.val 0 a).toNat) id :=
  gives_of (fun s => (rfl : execJtab h a cap len off s = _)) fun _ ht => if_pos ht

theorem jtab_goes {cap : Fin 16} {len : BitVec 16} {off : BitVec 32} {v : State} {ps : List PPart} {e : Nat}
    (he : Executes (gateN anyStrm) h (useS [a]) s) (hi : (s.markIssued.val 0 a).toNat < len.toNat)
    (ha : s.markIssued.access s.tenant s.core.caps[cap] (off.toNat + 4 * (s.markIssued.val 0 a).toNat : Nat) 4 1 [permR] .read =
      (u, .ok ps)) (hw : u.soWait ps = false)
    (hr : u.loadElem (ps.map (·.part)) (u.ownBytes (ps.map (·.part))) = (v, some e))
    (hl : LeadsTo v (v.cur.pc + BitVec.ofNat 32 e) t) : exec (.jtab h a cap len off) s = .next (t.popAll [a]) := by
  refine goes_at (rfl : execJtab h a cap len off s = _) he ((if_neg (by omega)).trans ?_)
  have ha' : s.markIssued.access s.markIssued.tenant s.markIssued.core.caps[cap]
      (off.toNat + 4 * (s.markIssued.val 0 a).toNat : Nat) 4 1 [permR] .read = (u, .ok ps) := by
    simpa only [State.tenant, State.markIssued_core_ctx, State.markIssued_core_caps] using ha
  simp only [ha', hw, hr]
  exact xferDone_of hl

end

/-- Settles O17: each transfer by where its target leads, the two that go by as instructions that take no transfer. -/
theorem transfers : Obligations.Transfers := by
  unfold Obligations.Transfers
  refine ⟨fun h off s t he hl => ?_, fun h a s t he hl => ?_, fun h c ty a b off s t he hc hl => ?_, fun h c ty a b off => ?_,
    fun h link off s t he hn hl => ?_, fun h link a s t he hn hl => ?_, fun h a s u g i he hh hi hp => ret_goes he hh hi hp,
    jtab_past, fun h a cap len off s u v ps e t he hi ha hw hr hl => jtab_goes he hi ha hw hr hl⟩
  · rw [← target_markIssued] at hl
    exact goes_at (rfl : execBr h off s = _) he (xferDone_of hl)
  · exact goes_at (rfl : execBrIndirect h a s = _) he (xferDone_of hl)
  · rw [← target_markIssued] at hl
    exact goes_at (rfl : execBc h c ty a b off s = _) he ((if_pos hc).trans (xferDone_of hl))
  · exact gives_of (fun s => (rfl : execBc h c ty a b off s = _)) fun t ht => if_neg (ne_true_of_eq_false ht)
  · rw [← target_markIssued] at hl
    exact goes_at (rfl : execCall h link off s = _) he (callTo_of hn hl)
  · exact goes_at (rfl : execCallIndirect h link a s = _) he (callTo_of hn hl)

/-! ### The instructions that wait, and the prefixes -/

theorem Stream.quiet_iff {x : Stream} : x.quiet = true ↔ (∀ k : Fin 8, x.sb[k] = 0) ∧ ∀ e ∈ x.rq, e.2.isSome := by
  simp only [Stream.quiet, Bool.and_eq_true, List.all_eq_true, decide_eq_true_eq]
  refine and_congr ⟨fun h k => h _ (by simp), fun h y hy => ?_⟩ Iff.rfl
  obtain ⟨n, hn, rfl⟩ := List.mem_iff_getElem.1 hy
  exact h ⟨n, by simpa using hn⟩

theorem latchPfx_first {f : Stream → Stream} {s : State} {again : Bool} (ha : again = false) (hl : s.cur.pfxLast = false) :
    latchPfx again f s = .next (s.mapCur fun x => { f x with npfx := x.npfx + 1 }) := by
  simp [latchPfx, ha, hl]

theorem latchPfx_last {f : Stream → Stream} {s : State} {again : Bool} (hl : s.cur.pfxLast = true) :
    latchPfx again f s = .next (s.raise (s.encTrap .prefx s.cur.npfx)) := by
  simp [latchPfx, hl]

theorem valueGives_of {i : Instr} {h : Hdr} {srcs : List Src} {d : Dst} {f : State → Word} (hi : ∀ s, exec i s = valueOp h srcs d f s) :
    valueGives i h srcs d f :=
  gives_of (fun s => (hi s).trans (by unfold valueOp; rfl)) fun _ _ => rfl

/-- Settles O20: each instruction by what its execution says, RDID by the cases of its selector. -/
theorem waits : Obligations.Waits := by
  unfold Obligations.Waits
  refine ⟨⟨fun h => gives_of (fun s => (rfl : execNop h s = _)) fun _ _ => rfl,
    fun h => goes_of (fun s => (rfl : execEnds h s = _)) fun _ _ => rfl,
    fun h => gives_of (fun s => (rfl : execSbwait h false s = _)) fun _ _ => rfl,
    fun h => ⟨gives_of (fun s => (rfl : execSbwait h true s = _)) fun t ht => ?_,
      stalls_of (k := .other) (fun s => (rfl : execSbwait h true s = _)) fun t ht => ?_⟩,
    fun h d => valueGives_of fun s => rfl,
    fun h d => valueGives_of fun s => rfl,
    fun h sel d => valueGives_of fun s => rfl,
    fun s hw hl w => latchPfx_first (by rw [hw]; rfl) hl, fun s hr hl f => latchPfx_first (by rw [hr]; rfl) hl,
    fun s hl => ⟨fun w => latchPfx_last hl, fun f => latchPfx_last hl⟩⟩, fun s => ?_⟩
  · rw [if_neg]; · rfl
    simp [Stream.quiet_iff.2 ht]
  · exact if_pos (by simpa using mt Stream.quiet_iff.1 ht)
  · refine ⟨rfl, fun hc => ?_, fun hc => ?_, rfl, rfl, fun x hx => ?_, fun k => ?_, fun hc => ?_⟩
    · simp [State.ident, dieOf, isDcc, Nat.not_le.2 hc]
    · simp [State.ident, dieOf, isDcc, hc, State.systemMode, natOfBool]
    · simp [State.ident, hx]
    · match k with
      | 0 | 1 | 2 => rfl
    · simp [State.ident, isDcc, Nat.not_le.2 hc, State.systemMode, natOfBool]

/-! ### The frame of QCNT -/

/-- An instruction that keeps the frame ends no step by a trap (R368, R369). -/
theorem registerFrame.ending_eq {d : Dst} {ps : List (Fin 8)} {s t : State} (hf : registerFrame d ps s t) :
    t.core.ending = s.core.ending := by
  obtain ⟨⟨-, ⟨hcore, -⟩, -⟩, -⟩ := hf
  exact (congrArg Core.ending hcore :)

/-- After a cold reset a QCNT of queue 1, which stream L neither pushes nor pops, passes the checks of its encoding and then raises
ILLEGAL (R202), and that trap ends the step. -/
theorem qcnt_reset_ends_step :
    Executes (gateN anyStrm) ⟨false, 0, 0, none⟩ (useD [] (.n 0)) State.reset ∧
    ∃ t, exec (.qcnt ⟨false, 0, 0, none⟩ 1 (.n 0)) State.reset = .next t ∧ t.core.ending ≠ State.reset.core.ending :=
  ⟨⟨by decide, by decide, by decide⟩, _, qcnt_illegal _ _ _ _ (by decide) (by decide) (by decide), by decide⟩

/-- Refutes O18: `framed` speaks of every state in which the instruction executes, also of those in which it then raises ILLEGAL, and
a trap changes more than the frame allows. The clauses of QPUSH and QPOP ask that the stream is the queue's pusher or popper; that of
QCNT does not, and after a cold reset QCNT of queue 1 in stream L ends the step. -/
theorem not_controlFrame : ¬ Obligations.ControlFrame := by
  unfold Obligations.ControlFrame
  rintro ⟨-, -, -, -, qcnt_framed, -⟩
  obtain ⟨he, t, ht, hend⟩ := qcnt_reset_ends_step
  exact hend (qcnt_framed _ _ _ _ _ he ht).ending_eq

end Sys2Proof.Machine
end

section
/-!
SUPPORT. What the operand type of an integer instruction reads and writes (R150, R171), and 64-bit words under it.
-/

-- Many short proofs in a row: each is elaborated before the next, so that none waits for another in a thread of its own.
set_option Elab.async false

open Sys2Proof.Machine

namespace Sys2Proof

/-! ### Sign extension -/

/-- signFrom extends the pattern of the n low bits by its sign. -/
theorem ofNat_signFrom {n : Nat} (x : Nat) (hn : n ≤ 64) :
    BitVec.ofNat 64 (signFrom x n) = (BitVec.ofNat n x).signExtend 64 := by
  apply BitVec.eq_of_toNat_eq
  rw [BitVec.toNat_signExtend, BitVec.toNat_setWidth, BitVec.msb_eq_getLsbD_last, BitVec.toNat_ofNat, BitVec.toNat_ofNat, signFrom]
  have hx : x % 2 ^ n < 2 ^ n := Nat.mod_lt _ (Nat.two_pow_pos n)
  have h64 : 2 ^ n ≤ 2 ^ 64 := Nat.pow_le_pow_right two_pos hn
  rcases Nat.eq_zero_or_pos n with rfl | hpos
  · simp [Nat.mod_one]
  · rw [if_neg (by omega)]
    have hbit : (BitVec.ofNat n x).getLsbD (n - 1) = bitOf x (n - 1) := by
      rw [BitVec.getLsbD_ofNat, decide_eq_true (by omega), Bool.true_and, bitOf]
    rw [hbit, Nat.mod_eq_of_lt (hx.trans_le h64)]
    split <;> exact Nat.mod_eq_of_lt (by omega)

/-! ### The numbers of an operand type -/

/-- The number of a pattern of the type's width. -/
def ITy.num (t : ITy) (x : BitVec t.width) : Int := if t.sgn then x.toInt else x.toNat

/-- A pattern of the type's width, extended to 64 bits. -/
def ITy.widen (t : ITy) (x : BitVec t.width) : Word := if t.sgn then x.signExtend 64 else x.setWidth 64

theorem ITy.width_pos (t : ITy) : 0 < t.width := Nat.mul_pos (by decide) (Nat.two_pow_pos _)

theorem ITy.width_le (t : ITy) : t.width ≤ 64 :=
  Nat.mul_le_mul_left 8 (Nat.pow_le_pow_right two_pos (Nat.le_of_lt_succ t.w.isLt))

theorem toInt_eq_bitOf {w : Nat} (x : BitVec w) : x.toInt = if bitOf x.toNat (w - 1) then (x.toNat : Int) - (2 ^ w : Nat) else x.toNat := by
  rw [BitVec.toInt_eq_msb_cond, BitVec.msb_eq_getLsbD_last]
  rfl

theorem ITy.read_eq_num (t : ITy) (x : Word) : t.read x = t.num (x.setWidth t.width) := by
  unfold ITy.read ITy.num
  rw [toInt_eq_bitOf, BitVec.toNat_setWidth]
  cases t.sgn <;> simp

theorem ITy.extend_eq_widen (t : ITy) (r : Int) : t.extend r = t.widen (BitVec.ofInt t.width r) := by
  have hv : (r % (2 ^ t.width : Nat)).toNat = (BitVec.ofInt t.width r).toNat := (BitVec.toNat_ofInt r).symm
  have hs := ofNat_signFrom (BitVec.ofInt t.width r).toNat t.width_le
  have h0 : t.width ≠ 0 := t.width_pos.ne'
  rw [BitVec.ofNat_toNat, BitVec.setWidth_eq, signFrom, if_neg h0, Nat.mod_eq_of_lt (BitVec.isLt _)] at hs
  unfold ITy.extend ITy.widen
  rw [← hs, ← BitVec.ofNat_toNat]
  simp only [hv]
  cases t.sgn
  · rfl
  · simp only [Bool.true_and, if_true]
    split <;> rfl

theorem ITy.setWidth_widen (t : ITy) (x : BitVec t.width) : (t.widen x).setWidth t.width = x := by
  unfold ITy.widen
  split
  · refine BitVec.eq_of_getLsbD_eq fun i hi => ?_
    rw [BitVec.getLsbD_setWidth, BitVec.getLsbD_signExtend, if_pos hi, decide_eq_true hi,
      decide_eq_true (hi.trans_le t.width_le), Bool.true_and, Bool.true_and]
  · rw [BitVec.setWidth_setWidth_of_le x t.width_le, BitVec.setWidth_eq]

theorem ITy.ofInt_num (t : ITy) (x : BitVec t.width) : BitVec.ofInt t.width (t.num x) = x := by
  unfold ITy.num
  split
  · exact BitVec.ofInt_toInt
  · rw [BitVec.ofInt_natCast, BitVec.ofNat_toNat, BitVec.setWidth_eq]

theorem ITy.num_ofInt (t : ITy) {r : Int} (hlo : t.lo ≤ r) (hhi : r ≤ t.hi) : t.num (BitVec.ofInt t.width r) = r := by
  have hpow : 2 ^ t.width = 2 * 2 ^ (t.width - 1) := (mul_pow_sub_one t.width_pos.ne' 2).symm
  unfold ITy.lo at hlo
  unfold ITy.hi at hhi
  unfold ITy.num
  cases hs : t.sgn <;> simp only [hs, if_true, Bool.false_eq_true, if_false] at hlo hhi ⊢
  · rw [BitVec.toNat_ofInt, Int.toNat_of_nonneg (Int.emod_nonneg _ (by positivity)), Int.emod_eq_of_lt hlo (by omega)]
  · exact BitVec.toInt_ofInt_eq_self t.width_pos (by push_cast at hlo; exact hlo) (by push_cast at hhi; omega)

theorem ITy.read_extend (t : ITy) {r : Int} (hlo : t.lo ≤ r) (hhi : r ≤ t.hi) : t.read (t.extend r) = r := by
  rw [t.read_eq_num, t.extend_eq_widen, t.setWidth_widen, t.num_ofInt hlo hhi]

theorem ITy.lo_le_hi (t : ITy) : t.lo ≤ t.hi := by
  have h1 := Nat.two_pow_pos t.width
  have h2 := Nat.two_pow_pos (t.width - 1)
  unfold ITy.lo ITy.hi
  split <;> omega

/-- A saturated number is the nearest of the type. -/
theorem ITy.read_write_sat (t : ITy) (r : Int) : t.read (t.write true r) = max t.lo (min t.hi r) :=
  t.read_extend (le_max_left _ _) (max_le t.lo_le_hi (min_le_left _ _))

/-- Only the residue of a result counts. -/
theorem ITy.extend_natCast (t : ITy) {m : Nat} {x : BitVec t.width} (h : m % 2 ^ t.width = x.toNat) : t.extend m = t.extend x.toNat := by
  have he : BitVec.ofNat t.width m = BitVec.ofNat t.width x.toNat :=
    BitVec.eq_of_toNat_eq (by rw [BitVec.toNat_ofNat, BitVec.toNat_ofNat, h, Nat.mod_eq_of_lt x.isLt])
  rw [t.extend_eq_widen, t.extend_eq_widen, BitVec.ofInt_natCast, BitVec.ofInt_natCast, he]

/-! ### 64-bit words -/

section
variable (s : Bool) (a b : Word)

/-- The operand type of 64-bit words, signed or not. -/
abbrev ITy.full (s : Bool) : ITy := ⟨s, 3⟩

theorem ITy.full_extend (r : Int) : (ITy.full s).extend r = BitVec.ofInt 64 r := by
  rw [ITy.extend_eq_widen]
  cases s
  · exact BitVec.setWidth_eq _
  · exact BitVec.signExtend_eq _

theorem ITy.full_read : (ITy.full s).read a = if s then a.toInt else a.toNat := by
  rw [ITy.read_eq_num]
  exact congrArg (ITy.full s).num (BitVec.setWidth_eq a)

theorem ITy.ofInt_full_read : BitVec.ofInt 64 ((ITy.full s).read a) = a := by
  rw [ITy.read_eq_num]
  exact ((ITy.full s).ofInt_num _).trans (BitVec.setWidth_eq a)

theorem ITy.full_add : (ITy.full s).write false ((ITy.full s).read a + (ITy.full s).read b) = a + b := by
  rw [ITy.write, ITy.full_extend]
  exact (BitVec.ofInt_add _ _).trans (by rw [ITy.ofInt_full_read, ITy.ofInt_full_read])

theorem ITy.full_mul : (ITy.full s).write false ((ITy.full s).read a * (ITy.full s).read b) = a * b := by
  rw [ITy.write, ITy.full_extend]
  exact (BitVec.ofInt_mul _ _).trans (by rw [ITy.ofInt_full_read, ITy.ofInt_full_read])

theorem ITy.full_sub : (ITy.full s).write false ((ITy.full s).read a - (ITy.full s).read b) = a - b := by
  rw [ITy.write, ITy.full_extend, eq_sub_iff_add_eq]
  conv_lhs => rw [← ITy.ofInt_full_read s b]
  exact (BitVec.ofInt_add _ _).symm.trans (by simp [ITy.ofInt_full_read])

theorem ITy.full_div : (ITy.full s).write false (((ITy.full s).read a).tdiv ((ITy.full s).read b)) = if s then a.sdiv b else a / b := by
  rw [ITy.write, ITy.full_extend, ITy.full_read, ITy.full_read]
  cases s
  · exact (congrArg _ (Int.ofNat_tdiv _ _).symm).trans ((BitVec.ofInt_natCast _ _).trans BitVec.udiv_def.symm)
  · exact BitVec.eq_of_toInt_eq ((BitVec.toInt_ofInt _).trans (BitVec.toInt_sdiv a b).symm)

theorem ITy.full_rem : (ITy.full s).extend (remInt ((ITy.full s).read a) ((ITy.full s).read b)) = if s then a.srem b else a % b := by
  have hz (x y : Int) : remInt x y = x.tmod y := by
    unfold remInt
    split
    · simp [*]
    · rfl
  rw [ITy.full_extend, hz, ITy.full_read, ITy.full_read]
  cases s
  · exact (congrArg _ (Int.ofNat_tmod _ _).symm).trans ((BitVec.ofInt_natCast _ _).trans BitVec.umod_def.symm)
  · rw [if_pos rfl, if_pos rfl, if_pos rfl, ← BitVec.toInt_srem, BitVec.ofInt_toInt]

end

/-- Settles O11: numbers and patterns of the type's width are read and written as they are, and those of 64 bits are words. -/
theorem readingAndWriting : Obligations.ReadingAndWriting := by
  unfold Obligations.ReadingAndWriting
  refine ⟨fun t => ⟨t.read_eq_num, t.extend_eq_widen, fun r hlo hhi => ⟨?_, t.read_extend hlo hhi⟩, fun r hr => ?_, fun r hr => ?_⟩,
    fun s a b => ⟨ITy.full_add s a b, ITy.full_sub s a b, ITy.full_mul s a b, fun _ => ITy.full_div s a b, ITy.full_rem s a b⟩⟩
  · rw [t.read_write_sat, min_eq_right hhi, max_eq_right hlo]
  · rw [t.read_write_sat, max_eq_left (min_le_right _ _ |>.trans hr.le)]
  · rw [t.read_write_sat, min_eq_left hr.le, max_eq_right t.lo_le_hi]

end Sys2Proof
end

section
/-!
SUPPORT. What the instructions of group SINT give (R171 to R178): each by the operation that its family shares.
-/

-- Many short proofs in a row: each is elaborated before the next, so that none waits for another in a thread of its own.
set_option Elab.async false

namespace Sys2Proof.Machine

/-! ### Numbers of the operand type -/

section
variable {i : Instr} {h : Hdr}

theorem intGives_arith {o : IArith} {op : Int → Int → Int} (hi : ∀ s, exec i s = arith h o op s) :
    intGives i h o.ty o.d o.a o.b o.imm fun a b => o.ty.write o.sat (op a b) := valueGives_of hi

/-- The same without SAT, where f says what the operation op is. -/
theorem intGives_arithNs {o : IBin} {f : Int → Int → Int} (op : Int → Int → Int) (hi : ∀ s, exec i s = arithNs h o op s)
    (hf : ∀ a b, op a b = f a b) : intGives i h o.ty o.d o.a o.b o.imm fun a b => o.ty.extend (f a b) := by
  rw [← (funext₂ hf : op = f)]
  exact valueGives_of hi

end

theorem mulh_eq_fdiv (p : Int) (w : Nat) : p / (2 ^ w : Nat) = p.fdiv (2 ^ w : Nat) :=
  (Int.fdiv_eq_ediv_of_nonneg p (Int.natCast_nonneg _)).symm

theorem remInt_eq (a b : Int) : remInt a b = if b = 0 then a else a - b * a.tdiv b := by
  rw [remInt, Int.tmod_def]

/-! ### Patterns of the operand type's width -/

/-- A bitwise operation e is f on patterns when it gives f's pattern modulo 2^w. -/
theorem patGives_of {i : Hdr → IBin → Instr} {e : Nat → Nat → Nat → Nat} {f : (w : Nat) → BitVec w → BitVec w → BitVec w}
    (he : ∀ w (x y : BitVec w), e w x.toNat y.toNat % 2 ^ w = (f w x y).toNat)
    (hi : ∀ h o s, exec (i h o) s = bitwise h o (e o.ty.width) s) : patGives i f := by
  intro h o
  refine valueGives_of fun s => (hi h o s).trans (congrArg (valueOp h [o.a, o.b] o.d · s) (funext fun t => ?_))
  exact o.ty.extend_natCast (he _ (BitVec.ofNat _ _) (BitVec.ofNat _ _))

section
variable {w : Nat} (x y : BitVec w)

theorem andn_toNat : (x.toNat &&& (2 ^ w - 1 - y.toNat)) % 2 ^ w = (x &&& ~~~y).toNat := by
  rw [BitVec.toNat_and, BitVec.toNat_not, Nat.mod_eq_of_lt (Nat.and_lt_two_pow _ (by have := Nat.two_pow_pos w; omega))]

theorem signedPat_toNat : signedPat w x.toNat = x.toInt := (toInt_eq_bitOf x).symm

theorem sar_toNat (k : Nat) : (signedPat w x.toNat / (2 ^ k : Nat) % (2 ^ w : Nat)).toNat % 2 ^ w = (x.sshiftRight k).toNat := by
  rw [BitVec.sshiftRight, BitVec.toNat_ofInt, Int.shiftRight_eq_div_pow, signedPat_toNat]
  exact Nat.mod_eq_of_lt (by have := Int.emod_lt_of_pos (x.toInt / (2 ^ k : Nat)) (b := (2 ^ w : Nat)) (by positivity); omega)

theorem rotl_toNat (k : Nat) : rotlNat w x.toNat (k % w) % 2 ^ w = (x.rotateLeft (k % w)).toNat := by
  have hx : x.toNat >>> (w - k % w) < 2 ^ w := (Nat.shiftRight_le _ _).trans_lt x.isLt
  rw [rotlNat, Nat.mod_mod, Nat.or_mod_two_pow, Nat.mod_eq_of_lt hx, BitVec.toNat_rotateLeft, Nat.mod_mod]

end

theorem bitwise_clauses : patGives .and (fun _ a b => a &&& b) ∧ patGives .or (fun _ a b => a ||| b) ∧
    patGives .xor (fun _ a b => a ^^^ b) ∧ patGives .andn (fun _ a b => a &&& ~~~b) ∧
    patGives .shl (fun w a b => a <<< (b.toNat % w)) ∧ patGives .shr (fun w a b => a >>> (b.toNat % w)) ∧
    patGives .sar (fun w a b => a.sshiftRight (b.toNat % w)) ∧ patGives .rotl (fun w a b => a.rotateLeft (b.toNat % w)) := by
  refine ⟨patGives_of (e := fun _ a b => a &&& b) (fun w x y => ?_) fun h o s => (rfl : execAnd h o s = _),
    patGives_of (e := fun _ a b => a ||| b) (fun w x y => ?_) fun h o s => (rfl : execOr h o s = _),
    patGives_of (e := fun _ a b => a ^^^ b) (fun w x y => ?_) fun h o s => (rfl : execXor h o s = _),
    patGives_of (e := fun w a b => a &&& (2 ^ w - 1 - b)) (fun w => andn_toNat) fun h o s => (rfl : execAndn h o s = _),
    patGives_of (e := fun w a b => a <<< (b % w)) (fun w x y => (BitVec.toNat_shiftLeft ..).symm) fun h o s => (rfl : execShl h o s = _),
    patGives_of (e := fun w a b => a >>> (b % w)) (fun w x y => ?_) fun h o s => (rfl : execShr h o s = _),
    patGives_of (e := fun w a b => (signedPat w a / (2 ^ (b % w) : Nat) % (2 ^ w : Nat)).toNat) (fun w x y => sar_toNat x _)
      fun h o s => (rfl : execSar h o s = _),
    patGives_of (e := fun w a b => rotlNat w a (b % w)) (fun w x y => rotl_toNat x _) fun h o s => (rfl : execRotl h o s = _)⟩
  · exact Nat.mod_eq_of_lt (x &&& y).isLt
  · exact Nat.mod_eq_of_lt (x ||| y).isLt
  · exact Nat.mod_eq_of_lt (x ^^^ y).isLt
  · exact Nat.mod_eq_of_lt (x >>> (y.toNat % w)).isLt

/-! ### Counts -/

theorem countGives_of {i : Hdr → IUn → Instr} {f : Nat → Nat → Nat} (hi : ∀ h o s, exec (i h o) s = bitCount h o f s) :
    countGives i f := fun h o => valueGives_of (hi h o)

/-- The n high bits of w are zeros, and the next one below them, if there is one, is not. -/
theorem clzNat_counts (w x : Nat) : clzNat w x ≤ w ∧ (∀ j, w - clzNat w x ≤ j → j < w → x.testBit j = false) ∧
    (clzNat w x < w → x.testBit (w - 1 - clzNat w x) = true) := by
  induction w with
  | zero => exact ⟨le_rfl, fun j _ hj => absurd hj (Nat.not_lt_zero j), fun h => absurd h (lt_irrefl 0)⟩
  | succ w ih =>
    obtain ⟨hle, hzero, hone⟩ := ih
    rw [clzNat, bitOf]
    cases hb : x.testBit w with
    | true => exact ⟨Nat.zero_le _, fun j h1 h2 => by simp at h1; omega, fun _ => hb⟩
    | false =>
      rw [if_neg Bool.false_ne_true]
      refine ⟨Nat.succ_le_succ hle, fun j h1 h2 => ?_, fun h => ?_⟩
      · rcases Nat.lt_succ_iff_lt_or_eq.1 h2 with hj | rfl
        · exact hzero j (by omega) hj
        · exact hb
      · rw [show w + 1 - 1 - (clzNat w x + 1) = w - 1 - clzNat w x by omega]
        exact hone (by omega)

theorem ctzNat_counts (w x : Nat) : ctzNat w x ≤ w ∧ (∀ j, j < ctzNat w x → x.testBit j = false) ∧
    (ctzNat w x < w → x.testBit (ctzNat w x) = true) := by
  induction w generalizing x with
  | zero => exact ⟨le_rfl, fun j hj => absurd hj (Nat.not_lt_zero j), fun h => absurd h (lt_irrefl 0)⟩
  | succ w ih =>
    obtain ⟨hle, hzero, hone⟩ := ih (x / 2)
    rw [ctzNat, bitOf]
    cases hb : x.testBit 0 with
    | true => exact ⟨Nat.zero_le _, fun j hj => absurd hj (Nat.not_lt_zero j), fun _ => hb⟩
    | false =>
      rw [if_neg Bool.false_ne_true]
      refine ⟨Nat.succ_le_succ hle, fun j hj => ?_, fun h => ?_⟩
      · cases j with
        | zero => exact hb
        | succ j => exact (Nat.testBit_succ x j).trans (hzero j (Nat.lt_of_succ_lt_succ hj))
      · exact (Nat.testBit_succ x _).trans (hone (Nat.lt_of_succ_lt_succ h))

theorem popcNat_counts (w x : Nat) : popcNat w x = ((List.range w).filter fun j => x.testBit j).length := by
  induction w generalizing x with
  | zero => rfl
  | succ w ih =>
    rw [popcNat, bitOf, ih, List.range_succ_eq_map, List.filter_cons, List.filter_map, Function.comp_def]
    simp only [Nat.testBit_succ]
    cases x.testBit 0
    · simp [natOfBool]
    · simp [natOfBool, Nat.add_comm]

/-- Settles O12: the arithmetic on numbers, the bitwise rows on patterns, and what each count counts. -/
theorem integerResults : Obligations.IntegerResults := by
  unfold Obligations.IntegerResults
  refine ⟨⟨fun h o => intGives_arith fun s => (rfl : execAdd h o s = _),
      fun h o => intGives_arith fun s => (rfl : execSub h o s = _),
      fun h o => intGives_arith fun s => (rfl : execMul h o s = _),
      fun h o => intGives_arithNs _ (fun s => (rfl : execMulh h o s = _)) fun a b => mulh_eq_fdiv (a * b) o.ty.width,
      fun h o => valueGives_of fun s => (rfl : execDiv h o s = _),
      fun h o => intGives_arithNs _ (fun s => (rfl : execRem h o s = _)) remInt_eq,
      fun h o => intGives_arithNs _ (fun s => (rfl : execMin h o s = _)) min_def,
      fun h o => intGives_arithNs _ (fun s => (rfl : execMax h o s = _)) max_def⟩,
    bitwise_clauses, countGives_of fun h o s => (rfl : execClz h o s = _), countGives_of fun h o s => (rfl : execCtz h o s = _),
    countGives_of fun h o s => (rfl : execPopc h o s = _), fun w x _ => ?_⟩
  obtain ⟨hc1, hc2, hc3⟩ := clzNat_counts w x
  obtain ⟨ht1, ht2, ht3⟩ := ctzNat_counts w x
  exact ⟨hc1, hc2, hc3, ht1, ht2, ht3, popcNat_counts w x⟩

end Sys2Proof.Machine
end

section
/-!
SUPPORT. What the instructions on fields give, bit by bit (R174), and comparisons, selections, moves and addresses (R175 to R178).
-/

-- Many short proofs in a row: each is elaborated before the next, so that none waits for another in a thread of its own.
set_option Elab.async false

namespace Sys2Proof.Machine

/-! ### Fields (R174) -/

theorem fieldPos_eq (b : Nat) : fieldPos b = b % 64 := rfl

theorem fieldLen_eq (b : Nat) : fieldLen b = min (b / 64 % 128) 64 := by
  simp [fieldLen, bitsOf, Nat.shiftRight_eq_div_pow]

theorem fieldLen_le (b : Nat) : fieldLen b ≤ 64 := min_le_right _ _

/-- A bit of 64-bit words made from a number. -/
theorem getLsbD_ofNat64 {x j : Nat} (hj : j < 64) : (BitVec.ofNat 64 x).getLsbD j = x.testBit j := by
  rw [BitVec.getLsbD_ofNat, decide_eq_true hj, Bool.true_and]

/-- Above its field an extended word repeats the field's highest bit. -/
theorem getLsbD_signFrom {x n j : Nat} (hn : 0 < n) (hn' : n ≤ 64) (hj : j < 64) :
    (BitVec.ofNat 64 (signFrom x n)).getLsbD j = x.testBit (min j (n - 1)) := by
  rw [ofNat_signFrom x hn', BitVec.getLsbD_signExtend, decide_eq_true hj, Bool.true_and]
  split
  case isTrue h => rw [BitVec.getLsbD_ofNat, decide_eq_true h, Bool.true_and, min_eq_left (by omega)]
  case isFalse h =>
    rw [BitVec.msb_eq_getLsbD_last, BitVec.getLsbD_ofNat, decide_eq_true (by omega), Bool.true_and, min_eq_right (by omega)]

def sextWord (a b : Word) : Word := BitVec.ofNat 64 (signFrom a.toNat (fieldPos b.toNat + 1))

def zextWord (a b : Word) : Word := BitVec.ofNat 64 (a.toNat % 2 ^ (fieldPos b.toNat + 1))

def bfxWord (sgn : Bool) (a b : Word) : Word := BitVec.ofNat 64 (bfxNat sgn a.toNat b.toNat)

section
variable (a b c : Word) {j : Nat} (hj : j < 64)
include hj

theorem getLsbD_sextWord : (sextWord a b).getLsbD j = a.getLsbD (min j (fieldPos b.toNat)) :=
  getLsbD_signFrom (Nat.succ_pos _) (by rw [fieldPos_eq]; omega) hj

theorem getLsbD_zextWord : (zextWord a b).getLsbD j = (decide (j ≤ fieldPos b.toNat) && a.getLsbD j) := by
  rw [zextWord, getLsbD_ofNat64 hj, Nat.testBit_mod_two_pow, BitVec.testBit_toNat]
  simp only [Nat.lt_succ_iff]

theorem getLsbD_bfxWord_zero : (bfxWord false a b).getLsbD j =
    (decide (j < fieldLen b.toNat) && a.getLsbD (fieldPos b.toNat + j)) := by
  rw [bfxWord, getLsbD_ofNat64 hj]
  exact (Nat.testBit_mod_two_pow ..).trans (congrArg _ (Nat.testBit_shiftRight _))

theorem getLsbD_bfxWord_sign : (bfxWord true a b).getLsbD j =
    (decide (0 < fieldLen b.toNat) && a.getLsbD (fieldPos b.toNat + min j (fieldLen b.toNat - 1))) := by
  show (BitVec.ofNat 64 (signFrom _ (fieldLen b.toNat))).getLsbD j = _
  rcases Nat.eq_zero_or_pos (fieldLen b.toNat) with h0 | hpos
  · simp [h0, signFrom]
  · have hin : min j (fieldLen b.toNat - 1) < fieldLen b.toNat := (min_le_right _ _).trans_lt (by omega)
    rw [getLsbD_signFrom hpos (fieldLen_le _) hj, Nat.testBit_mod_two_pow, Nat.testBit_shiftRight, decide_eq_true hin,
      decide_eq_true hpos, BitVec.testBit_toNat]

theorem getLsbD_bfiWord : (bfiWord a b c).getLsbD j =
    if fieldPos b.toNat ≤ j ∧ j < fieldPos b.toNat + fieldLen b.toNat then a.getLsbD (j - fieldPos b.toNat) else c.getLsbD j := by
  have hmask {i : Nat} (hi : i < 64) : (BitVec.ofNat 64 (2 ^ fieldLen b.toNat - 1)).getLsbD i = decide (i < fieldLen b.toNat) := by
    rw [getLsbD_ofNat64 hi, Nat.testBit_two_pow_sub_one]
  unfold bfiWord
  rw [BitVec.getLsbD_or, BitVec.getLsbD_and, BitVec.getLsbD_not, BitVec.getLsbD_shiftLeft, BitVec.getLsbD_shiftLeft,
    BitVec.getLsbD_and, hmask (by omega), decide_eq_true hj]
  rcases Nat.lt_or_ge j (fieldPos b.toNat) with hlt | hge
  · simp [hlt, Nat.not_le.2 hlt]
  · by_cases hin : j - fieldPos b.toNat < fieldLen b.toNat
    · have : j < fieldPos b.toNat + fieldLen b.toNat := by omega
      simp [hge, hin, this, Nat.not_lt.2 hge]
    · have : ¬j < fieldPos b.toNat + fieldLen b.toNat := by omega
      simp [hge, hin, this, Nat.not_lt.2 hge]

end

/-! ### Comparisons (R175) -/

/-- The patterns of two words have no common bit when the words have none within the width. -/
theorem pat_and_pat_eq_zero (t : ITy) (a b : Word) : t.pat a &&& t.pat b = 0 ↔ (a &&& b).setWidth t.width = 0 := by
  have hn : t.pat a &&& t.pat b = ((a &&& b).setWidth t.width).toNat := by
    rw [BitVec.toNat_setWidth, BitVec.toNat_and, ITy.pat, ITy.pat, Nat.and_mod_two_pow]
  rw [hn]
  exact BitVec.toNat_inj (y := 0)

/-- Each condition by what it compares. -/
theorem condHolds_eq (c : ICond) (t : ITy) (a b : Word) :
    let both := (a &&& b).setWidth t.width
    condHolds c t a b = match c with
      | .eq => decide (t.read a = t.read b)
      | .ne => decide (t.read a ≠ t.read b)
      | .lt => decide (t.read a < t.read b)
      | .ge => decide (t.read b ≤ t.read a)
      | .le => decide (t.read a ≤ t.read b)
      | .gt => decide (t.read b < t.read a)
      | .tst => decide (both ≠ 0)
      | .ntst => decide (both = 0) := by
  cases c with
  | ne => exact Bool.eq_iff_iff.2 (bne_iff_ne.trans decide_eq_true_iff.symm)
  | tst => exact Bool.eq_iff_iff.2 ((bne_iff_ne.trans (not_congr (pat_and_pat_eq_zero t a b))).trans decide_eq_true_iff.symm)
  | ntst => exact decide_eq_decide.2 (pat_and_pat_eq_zero t a b)
  | _ => rfl

theorem outcomeOp_gives {i : Instr} {h : Hdr} {srcs : List Src} {d : Dst} {p : Fin 8} {e f : State → Bool}
    (hi : ∀ s, exec i s = outcomeOp h srcs d p e s) (he : ∀ t, e t = f t) :
    Gives i (gateR anyStrm srcs) h (useD srcs d) always fun t => (t.putPred p (f t)).putDst d (if f t then 1 else 0) := by
  rw [← (funext he : e = f)]
  exact gives_of (fun s => (hi s).trans (by unfold outcomeOp; rfl)) fun _ _ => rfl

/-! ### Selections and addresses (R176, R178) -/

theorem sel_gives (h : Hdr) (o : ISel) :
    Gives (.sel h o) (gateR anyStrm [o.a, o.b]) h { useD [o.a, o.b] o.d with preds := [o.p] } always fun t =>
      t.putDst o.d (o.ty.extend (o.ty.read (if xor (t.cur.pred o.p) o.inv then t.val o.imm o.a else t.valAfter o.imm [o.a] o.b))) :=
  gives_of (fun s => (rfl : execSel h o s = _)) fun _ _ => rfl

theorem mul_two_pow_eq_shiftLeft (x : Word) (k : Nat) : x * 2#64 ^ k = x <<< k :=
  BitVec.eq_of_toNat_eq (by simp [BitVec.toNat_mul, BitVec.toNat_pow, Nat.shiftLeft_eq])

theorem lea_gives (h : Hdr) (sh : Fin 16) (o : ITri) : valueGives (.lea h sh o) h [o.a, o.b, o.c] o.d fun t =>
    t.val o.imm o.a + t.valAfter o.imm [o.a] o.b * 2#64 ^ sh.val + t.valAfter o.imm [o.a, o.b] o.c := by
  simp only [mul_two_pow_eq_shiftLeft]
  exact valueGives_of fun s => (rfl : execLea h sh o s = _)

/-- Settles O13: the words of the four field instructions and their bits, and the others by what they write. -/
theorem fieldResults : Obligations.FieldResults := by
  unfold Obligations.FieldResults
  refine ⟨⟨sextWord, zextWord, bfxWord, bfiWord, fun h o => valueGives_of fun s => (rfl : execSext h o s = _),
      fun h o => valueGives_of fun s => (rfl : execZext h o s = _), fun h o => valueGives_of fun s => (rfl : execBfx h o s = _),
      fun h o => valueGives_of fun s => (rfl : execBfi h o s = _), fun a b c => ?_⟩,
    fun h o => outcomeOp_gives (fun s => (rfl : execCmp h o s = _)) fun t => condHolds_eq .., sel_gives,
    fun h o => valueGives_of fun s => (rfl : execMov h o s = _),
    fun h d k v => valueGives_of fun s => (rfl : execMovi h d k v s = _), lea_gives⟩
  rw [← fieldPos_eq, ← fieldLen_eq]
  exact fun j hj => ⟨getLsbD_sextWord a b hj, getLsbD_zextWord a b hj, getLsbD_bfxWord_zero a b hj, getLsbD_bfxWord_sign a b hj,
    getLsbD_bfiWord a b c hj⟩

end Sys2Proof.Machine
end

section
/-!
SUPPORT. What the instructions of group SFLT give (R179 to R183), and the special values of their arithmetic (R73, R79).
-/

-- Many short proofs in a row: each is elaborated before the next, so that none waits for another in a thread of its own.
set_option Elab.async false

namespace Sys2Proof.Machine

/-! ### Sums and products of special values -/

theorem FV.isNan_iff {x : FV} : x.isNan = true ↔ x = .nan := by cases x <;> simp [FV.isNan]

theorem FV.isZero_iff {x : FV} : x.isZero = true ↔ ∃ n e, x = .fin n 0 e := by cases x <;> simp [FV.isZero]

@[simp] theorem FV.nan_add (rd : Bool) (y : FV) : FV.add rd .nan y = .nan := by cases y <;> rfl
@[simp] theorem FV.add_nan (rd : Bool) (x : FV) : FV.add rd x .nan = .nan := by cases x <;> rfl
@[simp] theorem FV.nan_mul (y : FV) : FV.mul .nan y = .nan := by cases y <;> rfl
@[simp] theorem FV.mul_nan (x : FV) : FV.mul x .nan = .nan := by cases x <;> rfl

theorem FV.inf_add_inf_not (rd n : Bool) : FV.add rd (.inf n) (.inf !n) = .nan := by cases n <;> rfl

theorem FV.inf_mul_zero {y : FV} (n : Bool) (hy : y.isZero = true) : FV.mul (.inf n) y = .nan ∧ FV.mul y (.inf n) = .nan := by
  obtain ⟨m, e, rfl⟩ := FV.isZero_iff.1 hy
  exact ⟨rfl, rfl⟩

/-- A number added to its opposite: an exact zero, negative in RD. -/
theorem FV.fin_add_opposite (rd n : Bool) (m : Nat) (e : Int) : FV.add rd (.fin n m e) (.fin (!n) m e) = .fin rd 0 0 := by
  cases n <;> simp [FV.add]

/-! ### Their patterns -/

theorem ety_isFloat (ty : SFTy) : ty.ety.isFloat = true := by cases ty <;> rfl

theorem packArith_nan (ty : EType) (mode : RMode) (sat : Bool) : fadd.packArith ty mode sat .nan = canonNan ty := rfl

theorem packArith_zero {ty : EType} (hf : ty.isFloat = true) (mode : RMode) (sat neg : Bool) (e : Int) :
    fadd.packArith ty mode sat (.fin neg 0 e) = signBit ty neg := by
  simp [fadd.packArith, packFV, hf, roundFloat]

theorem isRd_iff (r : Rnd) : (RMode.rnd r).isRd = decide (r = .rd) := by cases r <;> rfl

section
variable {ty : EType} {mode : RMode} {sat : Bool} {a b c : Nat}

theorem fadd_of_nan (h : (fvOf ty a).add mode.isRd (fvOf ty b) = .nan) : fadd ty mode sat a b = canonNan ty := by
  rw [fadd, h, packArith_nan]

theorem fmul_of_nan (h : (fvOf ty a).mul (fvOf ty b) = .nan) : fmul ty mode sat a b = canonNan ty := by
  rw [fmul, h, packArith_nan]

theorem ffma_of_nan (h : fvOf ty a = .nan ∨ fvOf ty b = .nan ∨ fvOf ty c = .nan) : ffma ty mode sat a b c = canonNan ty := by
  unfold ffma
  rcases h with h | h | h <;> rw [h] <;> simp [packArith_nan]

theorem fadd_of_opposite {ty : SFTy} {r : Rnd} {n : Bool} {m : Nat} {e : Int} (ha : fvOf ty.ety a = .fin n m e)
    (hb : fvOf ty.ety b = .fin (!n) m e) : fadd ty.ety (.rnd r) sat a b = if r = .rd then 2 ^ (ty.ety.bits - 1) else 0 := by
  rw [fadd, ha, hb, FV.fin_add_opposite, packArith_zero (ety_isFloat ty), isRd_iff, signBit]
  simp only [decide_eq_true_eq]

/-- A NaN among two operands (R79). -/
theorem results_of_nan (h : fvOf ty a = .nan ∨ fvOf ty b = .nan) :
    fadd ty mode sat a b = canonNan ty ∧ fmul ty mode sat a b = canonNan ty ∧ fmin ty a b = canonNan ty ∧
    fmax ty a b = canonNan ty ∧ ∀ k, fcmp k (fvOf ty a) (fvOf ty b) = decide (k = .ne) := by
  have hn : ((fvOf ty a).isNan || (fvOf ty b).isNan) = true := by
    rwa [Bool.or_eq_true, FV.isNan_iff, FV.isNan_iff]
  refine ⟨fadd_of_nan ?_, fmul_of_nan ?_, if_pos hn, if_pos hn, fun k => if_pos hn⟩
  · rcases h with h | h <;> rw [h] <;> simp
  · rcases h with h | h <;> rw [h] <;> simp

end

/-! ### Zeros of opposite signs -/

theorem FV.isNan_of_isZero {x : FV} (hx : x.isZero = true) : x.isNan = false := by
  obtain ⟨n, e, rfl⟩ := FV.isZero_iff.1 hx
  rfl

section
variable {x y : FV} (hx : x.isZero = true) (hy : y.isZero = true)
include hx hy

theorem FV.zero_lt_zero : x.lt y = false := by
  rw [← Bool.not_eq_true, FV.lt_iff_rank (FV.isNan_of_isZero hx) (FV.isNan_of_isZero hy), FV.rank_of_isZero hx, FV.rank_of_isZero hy]
  exact lt_irrefl _

/-- Of two zeros the lower is -0 when the other is +0. -/
theorem FV.zero_below_zero : x.below y = (x.isNeg && !y.isNeg) := by
  rw [FV.below, FV.zero_lt_zero hx hy, hx, hy]
  rfl

end

theorem results_of_zeros {ty : EType} {a b : Nat} (ha : (fvOf ty a).isZero = true) (hb : (fvOf ty b).isZero = true)
    (na : (fvOf ty a).isNeg = true) (nb : (fvOf ty b).isNeg = false) :
    fmin ty a b = a % 2 ^ ty.bits ∧ fmin ty b a = a % 2 ^ ty.bits ∧ fmax ty a b = b % 2 ^ ty.bits ∧
    fmax ty b a = b % 2 ^ ty.bits ∧ fcmp .eq (fvOf ty a) (fvOf ty b) = true := by
  have hab : (fvOf ty a).below (fvOf ty b) = true := by rw [FV.zero_below_zero ha hb, na, nb]; rfl
  have hba : (fvOf ty b).below (fvOf ty a) = false := by rw [FV.zero_below_zero hb ha, na, nb]; rfl
  have zab := FV.zero_lt_zero ha hb
  have zba := FV.zero_lt_zero hb ha
  have ca := FV.isNan_of_isZero ha
  have cb := FV.isNan_of_isZero hb
  simp [fmin, fmax, fcmp, FV.eq, hab, hba, zab, zba, ca, cb]

/-! ### What the instructions write -/

theorem plogBit_eq (tbl : BitVec 4) (x y : Bool) :
    plogBit tbl x y = tbl.getLsbD ((if x then 2 else 0) + (if y then 1 else 0)) := by
  cases x <;> cases y <;> rfl

theorem plog_gives (h : Hdr) (pd pa pb : Fin 8) (tbl : BitVec 4) :
    Gives (.plog h pd pa pb tbl) (gateN anyStrm) h { useS [] with preds := [pa, pb] } always fun t =>
      t.putPred pd (tbl.getLsbD ((if t.cur.pred pa then 2 else 0) + (if t.cur.pred pb then 1 else 0))) :=
  gives_of (fun s => (rfl : execPlog h pd pa pb tbl s = _)) fun t _ => by rw [plogBit_eq]

/-- Settles O14: each instruction by the operation that its family shares, and the special values. -/
theorem floatResults : Obligations.FloatResults := by
  unfold Obligations.FloatResults
  refine ⟨⟨fun h o => valueGives_of fun s => (rfl : execFadd h o s = _), fun h o => valueGives_of fun s => (rfl : execFmul h o s = _),
    fun h o => valueGives_of fun s => (rfl : execFfma h o s = _), fun h o => valueGives_of fun s => (rfl : execFmin h o s = _),
    fun h o => valueGives_of fun s => (rfl : execFmax h o s = _),
    fun h o => outcomeOp_gives (fun s => (rfl : execFcmp h o s = _)) fun t => rfl,
    fun h o => valueGives_of fun s => (rfl : execFcvt h o s = _), plog_gives⟩,
    fun ty r a b c => ⟨results_of_nan, ffma_of_nan, fun n ha hb => fadd_of_nan ?_, fun n ha hb => ?_,
      fun n m e => fadd_of_opposite, results_of_zeros⟩⟩
  · rw [ha, hb, FV.inf_add_inf_not]
  · obtain ⟨hl, hr⟩ := FV.inf_mul_zero n hb
    exact ⟨fmul_of_nan (by rw [ha, hl]), fmul_of_nan (by rw [ha, hr])⟩

end Sys2Proof.Machine
end

section
/-!
SUPPORT. What hardware loops do: the step of a level, LOOP and LBRK (R49, R192 to R195).
-/

-- Many short proofs in a row: each is elaborated before the next, so that none waits for another in a thread of its own.
set_option Elab.async false

namespace Sys2Proof.Machine

/-! ### The step of a level (R193) -/

section
variable {x : Stream} {a : BitVec 32} {v w : LoopLvl} {rest more : List LoopLvl}

/-- A stream whose innermost level has passed once more through its body. -/
def Stream.countTrip (x : Stream) (rest : List LoopLvl) : Stream :=
  { x with lc := x.lc.set (lvlNum rest) (x.lc[lvlNum rest] + 1) }

/-- Where no level ends the stream goes on at the address. -/
theorem loopNext_off {l : List LoopLvl} (h : ∀ v rest, l = v :: rest → a ≠ v.stop) : loopNext x a l = { x with loops := l, pc := a } := by
  cases l with
  | nil => rfl
  | cons v rest => exact if_neg (h v rest rfl)

/-- A level whose count is not reached begins its body again. -/
theorem loopNext_again (h : x.lc[lvlNum rest] + 1 < v.count) :
    loopNext x v.stop (v :: rest) = { x.countTrip rest with loops := v :: rest, pc := v.start } :=
  (if_pos rfl).trans (if_pos h)

/-- A level whose count is reached closes, and the one around it is asked. -/
theorem loopNext_ends (h : v.count ≤ x.lc[lvlNum rest] + 1) :
    loopNext x v.stop (v :: rest) = loopNext (x.countTrip rest) v.stop rest :=
  (if_pos rfl).trans (if_neg (BitVec.not_lt.2 h))

theorem lvlNum_val (h : rest.length < 3) : (lvlNum rest).val = rest.length := Nat.mod_eq_of_lt h

theorem Stream.countTrip_lc (x : Stream) (rest : List LoopLvl) : (x.countTrip rest).lc[lvlNum rest] = x.lc[lvlNum rest] + 1 :=
  Vector.getElem_set_self _

theorem Stream.countTrip_lc_ne (x : Stream) {k : Fin 3} (h : lvlNum rest ≠ k) : (x.countTrip rest).lc[k] = x.lc[k] :=
  Vector.getElem_set_ne (lvlNum rest).isLt k.isLt fun e => h (Fin.ext e)

/-- The levels that are asked count no trip of a level within them. -/
theorem loopNext_lc {k : Fin 3} {l : List LoopLvl} (h : l.length ≤ k.val) : (loopNext x a l).lc[k] = x.lc[k] := by
  induction l generalizing x with
  | nil => rfl
  | cons v rest ih =>
    have hr : rest.length < k.val := h
    have hne : lvlNum rest ≠ k := fun e => by
      have := lvlNum_val (hr.trans k.isLt)
      rw [e] at this
      omega
    by_cases ha : a = v.stop
    · subst ha
      by_cases hc : x.lc[lvlNum rest] + 1 < v.count
      · rw [loopNext_again hc]
        exact x.countTrip_lc_ne hne
      · rw [loopNext_ends (BitVec.not_lt.1 hc), ih hr.le]
        exact x.countTrip_lc_ne hne
    · rw [loopNext_off fun u r e => by cases e; exact ha]

/-- Where two levels end at the same word and the inner one closes, the outer one steps too. -/
theorem loopNext_two (hm : more.length + 1 < 3) (hv : v.count ≤ x.lc[lvlNum (w :: more)] + 1) (hs : v.stop = w.stop) :
    let y := loopNext x v.stop (v :: w :: more)
    y.lc[lvlNum (w :: more)] = x.lc[lvlNum (w :: more)] + 1 ∧ y.lc[lvlNum more] = x.lc[lvlNum more] + 1 ∧
    (x.lc[lvlNum more] + 1 < w.count → y.loops = w :: more ∧ y.pc = w.start) ∧
    (w.count ≤ x.lc[lvlNum more] + 1 → (∀ u out, more = u :: out → w.stop ≠ u.stop) → y.loops = more ∧ y.pc = v.stop) := by
  have hin : (lvlNum (w :: more)).val = more.length + 1 := lvlNum_val hm
  have hout : (lvlNum more).val = more.length := lvlNum_val (Nat.lt_of_succ_lt hm)
  have hne : lvlNum more ≠ lvlNum (w :: more) := fun e => by
    rw [← e, hout] at hin
    omega
  have hc : (x.countTrip (w :: more)).lc[lvlNum more] = x.lc[lvlNum more] := x.countTrip_lc_ne hne.symm
  have hi : ((x.countTrip (w :: more)).countTrip more).lc[lvlNum (w :: more)] = x.lc[lvlNum (w :: more)] + 1 :=
    (Stream.countTrip_lc_ne _ hne).trans (x.countTrip_lc _)
  have ho : ((x.countTrip (w :: more)).countTrip more).lc[lvlNum more] = x.lc[lvlNum more] + 1 := by
    rw [Stream.countTrip_lc, hc]
  intro y
  have hy : y = loopNext (x.countTrip (w :: more)) w.stop (w :: more) := by rw [← hs]; exact loopNext_ends hv
  by_cases hw : x.lc[lvlNum more] + 1 < w.count
  · rw [loopNext_again (by rwa [hc])] at hy
    rw [hy]
    exact ⟨hi, ho, fun _ => ⟨rfl, rfl⟩, fun h => absurd hw (BitVec.not_lt.2 h)⟩
  · rw [loopNext_ends (by rw [hc]; exact BitVec.not_lt.1 hw)] at hy
    rw [hy, loopNext_lc (by omega), loopNext_lc (by omega)]
    refine ⟨hi, ho, fun h => absurd h hw, fun _ hstop => ?_⟩
    rw [loopNext_off hstop]
    exact ⟨rfl, hs.symm⟩

end

/-! ### LOOP (R192) -/

section
variable {i : Instr} {h : Hdr} {body : BitVec 16} {srcs : List Src} {n : State → BitVec 32} {t : State}

/-- The address after the body of a loop that opens. -/
def loopStop (body : BitVec 16) (t : State) : BitVec 32 := t.cur.next + BitVec.ofNat 32 (3 * body.toNat)

/-- Does an address of the section come before the end of the body? -/
abbrev loopPast (body : BitVec 16) (t : State) (e : BitVec 32) : Prop := (e - t.cur.shdr).toNat < (loopStop body t - t.cur.shdr).toNat

/-- A loop that may not open: no level is free, or its body is not within the section and the levels around it. -/
def loopBad (body : BitVec 16) (t : State) : Prop :=
  t.cur.loops.length = 3 ∨ loopPast body t t.cur.secEnd ∨ ∃ v ∈ t.cur.loops, loopPast body t v.stop


/-- What LOOP does as it issues: n is its count. -/
def loopEff (srcs : List Src) (n : State → BitVec 32) (body : BitVec 16) (t : State) : Done :=
  if 3 ≤ t.cur.loops.length || decide (loopPast body t t.cur.secEnd) || t.cur.loops.any (fun v => decide (loopPast body t v.stop)) then
    t.trapDone .illegal
  else if n t = 0 then .stay (State.popAll { t with core := t.core.fallTo t.who (loopStop body t) } srcs)
  else .go (t.mapCur fun x =>
    { x with lc := x.lc.set (lvlNum t.cur.loops) 0, loops := ⟨n t, t.cur.next, loopStop body t⟩ :: x.loops
             lbv := decide (body.toNat ≤ loopWords), lbuf := if x.loops.any LoopLvl.short then x.lbuf else [] })

theorem loopEff_trap (hb : loopBad body t) : loopEff srcs n body t = t.trapDone .illegal := by
  refine if_pos ?_
  simp only [Bool.or_eq_true, List.any_eq_true, decide_eq_true_eq]
  rcases hb with h | h | h
  · exact .inl (.inl h.ge)
  · exact .inl (.inr h)
  · exact .inr h

theorem loopEff_eq (hl : t.cur.loops.length ≤ 3) (hb : ¬loopBad body t) : loopEff srcs n body t =
    if n t = 0 then .stay (State.popAll { t with core := t.core.fallTo t.who (loopStop body t) } srcs)
    else .go (t.mapCur fun x =>
      { x with lc := x.lc.set (lvlNum x.loops) 0, loops := ⟨n t, t.cur.next, loopStop body t⟩ :: x.loops
               lbv := decide (body.toNat ≤ loopWords), lbuf := if x.loops.any LoopLvl.short then x.lbuf else [] }) := by
  refine if_neg fun hc => hb ?_
  simp only [Bool.or_eq_true, List.any_eq_true, decide_eq_true_eq] at hc
  rcases hc with (h | h) | h
  · exact .inl (by omega)
  · exact .inr (.inl h)
  · exact .inr (.inr h)

theorem loop_clause (hi : ∀ s, exec i s = issue (gateN anyStrm) h (useS srcs) (loopEff srcs n body) s) :
    Traps i (gateN anyStrm) h (useS srcs) (loopBad body) .illegal ∧
    Goes i (gateN anyStrm) h (useS srcs) (fun t => t.cur.loops.length ≤ 3 ∧ ¬loopBad body t ∧ n t = 0)
      (fun t => State.popAll { t with core := t.core.fallTo t.who (loopStop body t) } srcs) ∧
    Gives i (gateN anyStrm) h (useS srcs) (fun t => t.cur.loops.length ≤ 3 ∧ ¬loopBad body t ∧ n t ≠ 0) fun t =>
      t.mapCur fun x => { x with
        lc := x.lc.set (lvlNum x.loops) 0, loops := ⟨n t, t.cur.next, loopStop body t⟩ :: x.loops
        lbv := decide (body.toNat ≤ 256), lbuf := if x.loops.any LoopLvl.short then x.lbuf else [] } := by
  refine ⟨traps_of hi fun t => loopEff_trap, goes_of hi fun t ht => ?_, gives_of hi fun t ht => ?_⟩
  · obtain ⟨hl, hb, h0⟩ := ht
    rw [loopEff_eq hl hb, if_pos h0]
  · obtain ⟨hl, hb, h0⟩ := ht
    rw [loopEff_eq hl hb, if_neg h0]
    rfl

end

/-! ### LBRK (R195) -/

theorem lbrk_clause (h : Hdr) {n : Fin 4} (hn : 0 < n.val) :
    Traps (.lbrk h n) (gateN anyStrm) h (useS []) (fun t => t.cur.loops.length < n.val) .illegal ∧
    Goes (.lbrk h n) (gateN anyStrm) h (useS []) (fun t => n.val ≤ t.cur.loops.length) fun t =>
      let out := (t.cur.loops.getD (n.val - 1) ⟨0, 0, 0⟩).stop
      let u := t.mapCur fun x => { x with loops := x.loops.drop n.val }
      if out = t.cur.secEnd then u.gotoHeader out else u.gotoWord out := by
  refine ⟨traps_of (fun s => (rfl : execLbrk h n s = _)) fun t ht => ?_, goes_of (fun s => (rfl : execLbrk h n s = _)) fun t ht => ?_⟩
  · have he : (t.cur.loops.drop (n.val - 1)).head? = none := by
      rw [List.head?_drop, List.getElem?_eq_none (by omega)]
    simp only [he]
    rfl
  · have hlt : n.val - 1 < t.cur.loops.length := by omega
    have he : (t.cur.loops.drop (n.val - 1)).head? = some (t.cur.loops.getD (n.val - 1) ⟨0, 0, 0⟩) := by
      rw [List.head?_drop, List.getElem?_eq_getElem hlt, List.getD_eq_getElem _ _ hlt]
    have hend (u : Stream) (l : List LoopLvl) : Stream.secEnd { u with loops := l } = u.secEnd := rfl
    simp only [he, State.cur_mapCur, hend]
    split <;> rfl

/-- Settles O19: LOOP by its count and its checks, LBRK by its levels, and the step of a level. -/
theorem loops : Obligations.Loops := by
  unfold Obligations.Loops
  refine ⟨fun h cnt body => ?_, fun h n hn => lbrk_clause h hn, fun x a ha => ?_, fun x v rest hl hr => ?_⟩
  · cases cnt with
    | imm c => exact loop_clause (srcs := []) (n := fun _ => c) fun s => (rfl : execLoop h (.imm c) body s = _)
    | src a => exact loop_clause (srcs := [a]) (n := fun t => (t.val 0 a).setWidth 32) fun s => (rfl : execLoop h (.src a) body s = _)
  · rw [loopNext_off ha]
    exact ⟨rfl, rfl⟩
  · rw [hl]
    refine ⟨fun hc => ?_, fun hc hstop => ?_, fun w more hc hm hs => ?_⟩
    · rw [loopNext_again hc, ← hl]
      rfl
    · rw [loopNext_ends hc, loopNext_off hstop]
      rfl
    · subst hm
      exact loopNext_two hr hc hs

end Sys2Proof.Machine
end

section
/-!
SUPPORT. When the three sleeps end, and what their end leaves (R53, R198, R199).
-/

-- Many short proofs in a row: each is elaborated before the next, so that none waits for another in a thread of its own.
set_option Elab.async false

namespace Sys2Proof.Machine

section
variable {s t : State} {z : Sleeping}

/-! ### When a target is reached (R198) -/

/-- In promise mode the clock and the target are compared as 48-bit numbers that wrap. -/
theorem State.sleepOver_promise (s : State) (a c : Word) (n : Nat) (k : Option (Fin 8)) :
    s.sleepOver ⟨0, a, n, c, k⟩ = true ↔ (s.cyc.setWidth 48 - a.setWidth 48 : BitVec 48).toNat < 2 ^ 47 := by
  have he : (s.cyc.setWidth 48 - a.setWidth 48 : BitVec 48).toNat = (s.cyc.toNat + 2 ^ 48 - a.toNat % 2 ^ 48) % 2 ^ 48 := by
    rw [BitVec.toNat_sub, BitVec.toNat_setWidth, BitVec.toNat_setWidth]
    omega
  rw [State.sleepOver, if_pos rfl, decide_eq_true_iff, he]

theorem State.sleepOver_until (s : State) (a c : Word) (n : Nat) (k : Option (Fin 8)) :
    s.sleepOver ⟨1, a, n, c, k⟩ = true ↔ a ≤ s.cyc := decide_eq_true_iff

theorem State.sleepOver_for (s : State) (a c : Word) (n : Nat) (k : Option (Fin 8)) :
    s.sleepOver ⟨2, a, n, c, k⟩ = true ↔ c.toNat + min a.toNat (2 ^ 32 - 1) ≤ s.cyc.toNat := decide_eq_true_iff

/-- A sleep whose target is reached may end when its promise, if it has one, is kept. -/
theorem State.sleepKept_iff : s.sleepKept z = true ↔ (z.mode = 0 → s.core.tagBusy (z.opnd.extractLsb' 48 16) = false) := by
  simp only [State.sleepKept, Bool.or_eq_true, bne_iff_ne, Bool.not_eq_true', imp_iff_not_or]

/-! ### What the sources leave of it -/

theorem sameOutside_cyc (h : sameOutside s t) : t.cyc = s.cyc := by unfold sameOutside at h; rw [← h]

theorem State.popAll_sleepOver (s : State) (l : List Src) : (s.popAll l).sleepOver z = s.sleepOver z := by
  simp only [State.sleepOver, sameOutside_cyc (sameOutside_popAll l s)]

theorem State.popAll_copy (s : State) (l : List Src) : (s.popAll l).core.copy = s.core.copy := by
  obtain ⟨⟨-, ⟨hcore, -⟩, -⟩, -⟩ := State.popAll_frame .discard [] s l
  exact (congrArg Core.copy hcore :)

theorem State.popAll_sleepKept (s : State) (l : List Src) : (s.popAll l).sleepKept z = s.sleepKept z := by
  simp only [State.sleepKept, Core.tagBusy, State.popAll_copy]

/-! ### The end of a sleep (R199) -/

theorem State.endSleep_kept (h : s.sleepKept z = true) :
    s.endSleep z = (s.mapCur fun x => { x.sbClear? z.set with asleep := none, npfx := z.npfx }).advance := by
  refine if_neg fun hc => ?_
  obtain ⟨hm, hb⟩ := Bool.and_eq_true _ _ ▸ hc
  rw [State.sleepKept_iff.1 h (of_decide_eq_true hm)] at hb
  exact Bool.false_ne_true hb

/-- A promise that is not kept: the stream sleeps on and its trap names a later clock. -/
theorem State.endSleep_broken (hm : z.mode = 0) (hb : s.core.tagBusy (z.opnd.extractLsb' 48 16) = true) :
    ∃ (u : State) (t : Trap), s.endSleep z = u.raise t ∧ t.cause = .promise ∧ u.who = s.who ∧ u.cur.asleep = some z := by
  refine ⟨_, _, if_pos (by simp [hm, hb]), rfl, rfl, ?_⟩
  rw [State.cur_mapCur]

end

/-! ### The instructions -/

theorem sleep_clause {i : Instr} {h : Hdr} {a : Src} {imm : BitVec 32} {m : Fin 3} (hi : ∀ s, exec i s = sleepOp h a imm m s) :
    let z (t : State) : Sleeping := ⟨m, t.val imm a, t.cur.npfx, t.cyc, h.set⟩
    let kept (t : State) : Prop := m = 0 → t.core.tagBusy ((t.val imm a).extractLsb' 48 16) = false
    Goes i (gateR anyStrm [a]) h (useS [a]) (fun t => ¬(t.sleepOver (z t) = true ∧ kept t))
      (fun t => (t.popAll [a]).mapCur fun x => { x.noPfx.sbSet? h.set with asleep := some (z t) }) ∧
    Goes i (gateR anyStrm [a]) h (useS [a]) (fun t => t.sleepOver (z t) = true ∧ kept t)
      (fun t => ((t.popAll [a]).mapCur fun x => { x with asleep := none, npfx := t.cur.npfx }).advance) := by
  intro z kept
  have hk (t : State) : ((t.popAll [a]).sleepOver (z t) && (t.popAll [a]).sleepKept (z t)) = true ↔
      t.sleepOver (z t) = true ∧ kept t := by
    rw [Bool.and_eq_true, State.popAll_sleepOver, State.popAll_sleepKept, State.sleepKept_iff]
  refine ⟨goes_of (fun s => (hi s).trans (by unfold sleepOp; rfl)) fun t ht => ?_,
    goes_of (fun s => (hi s).trans (by unfold sleepOp; rfl)) fun t ht => ?_⟩
  · exact congrArg Done.stay (if_neg fun hc => ht ((hk t).1 hc))
  · have he := (hk t).2 ht
    refine congrArg Done.stay ((if_pos he).trans (State.endSleep_kept ?_))
    exact ((Bool.and_eq_true _ _).mp he).2

/-! ### The event -/

section
variable {s : State} {k : Strm} {z : Sleeping} (ha : (s.core.strm k).asleep = some z)
include ha

theorem sleepEnd_over (ho : s.sleepOver z = true) : exec (.sleepEnd k) s = .next (State.endSleep { s with who := k } z) := by
  show execSleepEnd k s = _
  rw [execSleepEnd, ha]
  exact if_pos ho

theorem sleepEnd_before (ho : s.sleepOver z = false) : exec (.sleepEnd k) s = .next s := by
  show execSleepEnd k s = _
  rw [execSleepEnd, ha]
  exact if_neg (ne_true_of_eq_false ho)

end

theorem sleepEnd_awake {s : State} {k : Strm} (ha : (s.core.strm k).asleep = none) : exec (.sleepEnd k) s = .next s := by
  show execSleepEnd k s = _
  rw [execSleepEnd, ha]

/-- Settles O21: the targets, the three instructions by the operation they share, and the event by its cases. -/
theorem sleeps : Obligations.Sleeps := by
  unfold Obligations.Sleeps
  refine ⟨fun s a n c k => ⟨s.sleepOver_promise a c n k, s.sleepOver_until a c n k, s.sleepOver_for a c n k⟩,
    fun i h a imm m hi => ?_, fun s k z ha ho hk => ?_, fun s k z ha ho hm hb => ?_, fun s k ho => ?_⟩
  · obtain ⟨rfl, rfl⟩ | ⟨rfl, rfl⟩ | ⟨rfl, rfl⟩ := hi
    · exact sleep_clause fun s => (rfl : execSleep h a imm s = _)
    · exact sleep_clause fun s => (rfl : execSleepUntil h a imm s = _)
    · exact sleep_clause fun s => (rfl : execSleepFor h a imm s = _)
  · exact (sleepEnd_over ha ho).trans (congrArg _ (State.endSleep_kept (s := { s with who := k }) (State.sleepKept_iff.2 hk)))
  · obtain ⟨u, t, he, hc, hw, hz⟩ := State.endSleep_broken (s := { s with who := k }) hm hb
    exact ⟨u, t, (sleepEnd_over ha ho).trans (congrArg _ he), hc, hw, by rwa [State.cur, hw] at hz⟩
  · cases ha : (s.core.strm k).asleep with
    | none => exact sleepEnd_awake ha
    | some z => exact sleepEnd_before ha (ho z ha)

end Sys2Proof.Machine
end

section
/-!
SUPPORT. The atomics and the reductions at issue (R140, R211 to R213).
-/

namespace Sys2Proof.Machine

theorem atomGoes_of {i : Instr} {h : Hdr} {op : AtKind} {srcs : List Src} {w64 sgn rl aq p : Bool} {scope : Scope} {m : MAddr}
    {vals : State → Word × Word} (hi : ∀ s, exec i s = atomOp h op srcs w64 sgn rl aq p scope m vals s) :
    atomGoes i h op srcs w64 sgn rl aq p scope m vals := by
  intro s u q ps he hm k
  refine ⟨fun hs => (hi s).trans (issue_trap he ?_), fun hs hw => sends_of (hi s) he ?_⟩
  · simp only [hm, if_pos hs]
  · simp only [hm, hs, hw, Bool.false_eq_true, if_false, k]

theorem reduceGoes_of {i : Instr} {h : Hdr} {a : Src} {n : Nat} {m : MAddr} {kind : Nat → PageKind → Word → AccKind}
    (hi : ∀ s, exec i s = reduceOp h a n m kind s) : reduceGoes i h a n m kind := by
  intro s u q ps he hm
  refine ⟨fun hs => (hi s).trans (issue_trap he ?_), fun hs hp hw => (hi s).trans (issue_go he ?_)⟩
  · simp only [hm, if_pos hs]
  · simp only [hm, hs, hp, hw, Bool.false_eq_true, if_false]

/-- Settles O29: the eleven instructions by the two operations they share. -/
theorem atomicsIssue : Obligations.AtomicsIssue := by
  unfold Obligations.AtomicsIssue
  exact ⟨fun h o => atomGoes_of fun s => (rfl : execAadd h o s = _), fun h o => atomGoes_of fun s => (rfl : execAmin h o s = _),
    fun h o => atomGoes_of fun s => (rfl : execAmax h o s = _), fun h o => atomGoes_of fun s => (rfl : execAand h o s = _),
    fun h o => atomGoes_of fun s => (rfl : execAor h o s = _), fun h o => atomGoes_of fun s => (rfl : execAxor h o s = _),
    fun h o => atomGoes_of fun s => (rfl : execAswp h o s = _), fun h o => atomGoes_of fun s => (rfl : execAcas h o s = _),
    fun h o => atomGoes_of fun s => (rfl : execAfadd h o s = _), fun h o => reduceGoes_of fun s => (rfl : execRedi h o s = _),
    fun h o => reduceGoes_of fun s => (rfl : execRedf h o s = _)⟩

end Sys2Proof.Machine
end

section
/-!
SUPPORT. What an atomic leaves at its home in local HBM and gives back (R211, R440).
-/

namespace Sys2Proof.Machine

/-! ### The new value (R211) -/

theorem asInt_toNat {w : Nat} (sgn : Bool) (x : BitVec w) : asInt w sgn x.toNat = if sgn then x.toInt else x.toNat := by
  rw [asInt, toInt_eq_bitOf, Nat.mod_eq_of_lt x.isLt]
  cases sgn <;> simp

theorem asInt_lt_iff {w : Nat} (sgn : Bool) (x y : BitVec w) :
    asInt w sgn x.toNat < asInt w sgn y.toNat ↔ (if sgn then x.slt y else x.ult y) = true := by
  rw [asInt_toNat, asInt_toNat]
  cases sgn
  · simp [BitVec.ult]
  · simp [BitVec.slt]

theorem atomNew_words {w : Nat} (sgn : Bool) (old a b : BitVec w) :
    let new (op : AtKind) : Option (BitVec w) := (atomNew op w sgn old.toNat a.toNat b.toNat).map (BitVec.ofNat w)
    let less (x y : BitVec w) : Bool := if sgn then x.slt y else x.ult y
    new .add = some (old + a) ∧ new .min = some (if less a old then a else old) ∧ new .max = some (if less old a then a else old) ∧
    new .and = some (old &&& a) ∧ new .or = some (old ||| a) ∧ new .xor = some (old ^^^ a) ∧ new .swp = some a ∧
    new .cas = (if old = a then some b else none) := by
  intro new less
  have word (x : BitVec w) : BitVec.ofNat w x.toNat = x := by simp
  have num (x : BitVec w) : x.toNat % 2 ^ w = x.toNat := Nat.mod_eq_of_lt x.isLt
  refine ⟨?_, ?_, ?_, ?_, ?_, ?_, ?_, ?_⟩ <;> simp only [new, less, atomNew, num, asInt_lt_iff, Option.map_some]
  · rw [← BitVec.toNat_add, word]
  · rw [← apply_ite BitVec.toNat, word]
  · rw [← apply_ite BitVec.toNat, word]
  · rw [← BitVec.toNat_and, word]
  · rw [← BitVec.toNat_or, word]
  · rw [← BitVec.toNat_xor, word]
  · rw [word]
  · simp only [BitVec.toNat_inj, apply_ite (Option.map (BitVec.ofNat w)), Option.map_some, Option.map_none, word]

theorem atomNew_fadd (sgn : Bool) (old b : Nat) {a : Nat} (ha : a < 2 ^ 32) :
    atomNew .fadd 32 sgn old a b = some (fadd .f32 (.rnd .rne) false old a) := by
  rw [atomNew, Nat.mod_eq_of_lt ha]

/-! ### Errors found by a read (R440) -/

section
variable {s : State} {l k : Nat}

theorem State.ashNote_errors (s : State) (ring src code unit ten reg addr : Nat) (detail : List Byte) :
    (s.ashNote ring src code unit ten reg addr detail).poisoned = s.poisoned ∧
    (s.ashNote ring src code unit ten reg addr detail).faulty = s.faulty := by
  have put (u : State) (n : Nat) (c : Core) : (u.putCore n c).poisoned = u.poisoned ∧ (u.putCore n c).faulty = u.faulty := by
    unfold State.putCore
    split <;> exact ⟨rfl, rfl⟩
  unfold State.ashNote State.ashWrite
  dsimp only
  split
  · exact ⟨rfl, rfl⟩
  · split
    · exact put ..
    · refine foldl_keeps (fun t : State => t.poisoned = s.poisoned ∧ t.faulty = s.faulty) _ _ _ ⟨rfl, rfl⟩ fun t d ht => ?_
      exact ⟨(put ..).1.trans ht.1, (put ..).2.trans ht.2⟩

theorem State.beginSparing_errors (s : State) (stack bank row : Nat) :
    (s.beginSparing stack bank row).poisoned = s.poisoned ∧ (s.beginSparing stack bank row).faulty = s.faulty := by
  unfold State.beginSparing
  split <;> exact ⟨rfl, rfl⟩

theorem State.mem_poisonLine : k ∈ (s.poisonLine l).poisoned ↔ k = l ∨ k ∈ s.poisoned := by
  unfold State.poisonLine
  split
  · next h => exact ⟨.inr, fun hk => hk.elim (fun e => e ▸ List.contains_iff_mem.1 h) id⟩
  · exact (insertBy_perm ..).mem_iff.trans List.mem_cons

/-- The line is poisoned and its error gone. -/
theorem State.mem_foundBad : (k ∈ (s.foundBad l).poisoned ↔ k = l ∨ k ∈ s.poisoned) ∧
    (k ∈ (s.foundBad l).faulty ↔ k ∈ s.faulty ∧ k ≠ l) := by
  unfold State.foundBad
  dsimp only
  rw [(State.beginSparing_errors ..).1, (State.beginSparing_errors ..).2, (State.ashNote_errors ..).1, (State.ashNote_errors ..).2]
  refine ⟨State.mem_poisonLine, ?_⟩
  have hf (u : State) : (u.poisonLine l).faulty = u.faulty := by
    unfold State.poisonLine
    split <;> rfl
  rw [hf, List.mem_filter, bne_iff_ne]

/-- A line that a read finds poisoned: it is poisoned, or has an error that cannot be corrected. -/
def State.lineBad (s : State) (l : Nat) : Prop := l ∈ s.poisoned ∨ l ∈ s.faulty

theorem State.lineBad_foundBad (h : l ∈ s.faulty) : (s.foundBad l).lineBad k ↔ s.lineBad k := by
  rw [State.lineBad, State.lineBad, State.mem_foundBad.1, State.mem_foundBad.2]
  by_cases e : k = l
  · subst e
    simp [h]
  · simp [e]

/-- The errors that a read of some lines finds. -/
def State.findErrors (s : State) (ls : List Nat) : State :=
  ls.foldl (fun s l => if s.faulty.contains l then s.foundBad l else s) s

theorem State.detect_none (h : s.faulty = []) (a n : Nat) : s.detect a n = s := by simp [State.detect, h]

theorem State.detect_eq_findErrors (h : s.faulty ≠ []) (a n : Nat) : s.detect a n = s.findErrors (linesOf 64 a n) :=
  if_neg (by simpa using h)

/-- A read makes poison of the errors in its lines, and of no others. -/
theorem State.findErrors_errors (ls : List Nat) (s : State) :
    ((s.findErrors ls).lineBad k ↔ s.lineBad k) ∧ (k ∈ (s.findErrors ls).faulty ↔ k ∈ s.faulty ∧ k ∉ ls) := by
  induction ls generalizing s with
  | nil => simp [State.findErrors]
  | cons l ls ih =>
    have step : s.findErrors (l :: ls) = (if s.faulty.contains l then s.foundBad l else s).findErrors ls := rfl
    rw [step, (ih _).1, (ih _).2, List.mem_cons, not_or]
    split
    · next h =>
      rw [State.lineBad_foundBad (List.contains_iff_mem.1 h), State.mem_foundBad.2, and_assoc]
      exact ⟨.rfl, .rfl⟩
    · next h =>
      have hl (hk : k ∈ s.faulty) : k ≠ l := fun e => h (List.contains_iff_mem.2 (e ▸ hk))
      exact ⟨.rfl, fun hk => ⟨hk.1, hl hk.1, hk.2⟩, fun hk => ⟨hk.1, hk.2.2⟩⟩

theorem mem_linesOf {size a n i : Nat} (hi : i < n) : (a + i) / size ∈ linesOf size a n := by
  have h1 : a / size ≤ (a + i) / size := Nat.div_le_div_right (by omega)
  have h2 : (a + i) / size ≤ (a + n - 1) / size := Nat.div_le_div_right (by omega)
  rw [linesOf, if_neg (by omega), List.mem_map]
  exact ⟨(a + i) / size - a / size, List.mem_range.2 (by omega), by omega⟩

theorem State.detect_linePois {a n i : Nat} (hi : i < n) :
    (s.detect a n).linePois (a + i) = true ↔ s.linePois (a + i) = true ∨ (a + i) / 64 ∈ s.faulty := by
  rw [State.linePois, State.linePois, List.contains_iff_mem, List.contains_iff_mem]
  by_cases h : s.faulty = []
  · simp [State.detect_none h, h]
  · obtain ⟨hb, hf⟩ := State.findErrors_errors (k := (a + i) / 64) (linesOf 64 a n) s
    rw [State.detect_eq_findErrors h]
    exact (or_iff_left fun e => (hf.1 e).2 (mem_linesOf hi)).symm.trans hb

end

/-! ### At a home in local HBM -/

theorem Mem.bytes_eq_map (m : Mem) (a n : Nat) : m.bytes a n = (List.range n).map fun i => m.get (a + i) := by
  have h := Mem.bytes_eq (m := m) (a := a) (bs := (List.range n).map fun i => m.get (a + i)) fun i hi => by
    rw [List.length_map, List.length_range] at hi
    simp [hi]
  rwa [List.length_map, List.length_range] at h

section
variable {s : State} {a n : Nat} (ha : spaceOf a = 0)
include ha

theorem State.sendAt_local (op : Nat) (bs : List Byte) : s.sendAt op a bs = s := by simp [State.sendAt, ha]

theorem State.keepSentAt_local (st : Nat) (bs : List Byte) : s.keepSentAt a st bs = s := by simp [State.keepSentAt, ha]

variable (hd : s.host.dirs = [])
include hd

theorem State.homeRead_local : s.homeRead a n =
    (s.detect a n, (List.range n).map fun i => (s.mem.get (a + i), (s.detect a n).linePois (a + i))) := by
  have ht : s.touch a n = s.detect a n := by simp [State.touch, State.snoopRead, hd]
  simp [State.homeRead, ha, ht]

theorem State.homeNat_bad (h : ∃ i, i < n ∧ (s.linePois (a + i) = true ∨ (a + i) / 64 ∈ s.faulty)) :
    s.homeNat a n = (s.detect a n, none) := by
  obtain ⟨i, hi, hb⟩ := h
  rw [State.homeNat, State.homeRead_local ha hd]
  refine congrArg _ (if_pos (List.any_eq_true.2 ⟨_, List.mem_map.2 ⟨i, List.mem_range.2 hi, rfl⟩, ?_⟩))
  exact (State.detect_linePois hi).2 hb

theorem State.homeNat_good (h : ∀ i, i < n → s.linePois (a + i) = false ∧ (a + i) / 64 ∉ s.faulty) :
    s.homeNat a n = (s.detect a n, some (s.mem.nat a n)) := by
  have clean : ¬((List.range n).map fun i => (s.mem.get (a + i), (s.detect a n).linePois (a + i))).any (·.2) = true := by
    intro e
    obtain ⟨b, hb, hp⟩ := List.any_eq_true.1 e
    obtain ⟨i, hi, rfl⟩ := List.mem_map.1 hb
    obtain ⟨h1, h2⟩ := h i (List.mem_range.1 hi)
    exact ((State.detect_linePois (List.mem_range.1 hi)).1 hp).elim (by simp [h1]) h2
  rw [State.homeNat, State.homeRead_local ha hd]
  refine congrArg _ ((if_neg clean).trans ?_)
  rw [Mem.nat, Mem.bytes_eq_map, List.map_map]
  rfl

theorem State.atomWrite_local (bs : List Byte) : (s.atomWrite a bs false).mem = s.mem.store a bs := by
  have hw : s.homeWrite a bs = s.homePut a bs := by simp [State.homeWrite, ha]
  simp [State.atomWrite, ha, ← hw, State.homeWrite_local ha hd]

end

section
variable {s t : State} {a n : Nat} {w64 : Bool} (hn : n = if w64 then 8 else 4) (ha : spaceOf a = 0) (op : AtKind) (sgn : Bool)
  (x y : Nat)
include hn ha

/-- An atomic in local HBM whose read gives nothing ends with it. -/
theorem State.doAtom_nothing (h : s.homeNat a n = (t, none)) : s.doAtom op a false w64 sgn x y = (t, none) := by
  simp only [State.doAtom, State.sendAt_local ha, ← hn, h, State.keepSentAt_local ha]

/-- One whose read gives a value writes the new one, if one is due. -/
theorem State.doAtom_value {old : Nat} (h : s.homeNat a n = (t, some old)) : s.doAtom op a false w64 sgn x y =
    (((atomNew op (8 * n) sgn old x y).map fun new => t.atomWrite a (natLe n new) false).getD t, some old) := by
  simp only [State.doAtom, State.sendAt_local ha, ← hn, h, State.keepSentAt_local ha]
  cases atomNew op (8 * n) sgn old x y <;> rfl

variable (hd : s.host.dirs = [])
include hd

/-- What an atomic leaves on lines without errors. -/
theorem State.doAtom_good (hw : s.memWf) (h : ∀ i, i < n → s.linePois (a + i) = false ∧ (a + i) / 64 ∉ s.faulty) :
    (s.doAtom op a false w64 sgn x y).2 = some (s.mem.nat a n) ∧
    (s.doAtom op a false w64 sgn x y).1.mem.nat a n =
      (atomNew op (8 * n) sgn (s.mem.nat a n) x y).getD (s.mem.nat a n) % 2 ^ (8 * n) ∧
    ∀ b, b < a ∨ a + n ≤ b → (s.doAtom op a false w64 sgn x y).1.mem.get b = s.mem.get b := by
  rw [State.doAtom_value hn ha op sgn x y (State.homeNat_good ha hd h)]
  refine ⟨rfl, ?_⟩
  cases atomNew op (8 * n) sgn (s.mem.nat a n) x y with
  | none =>
    rw [Option.map_none, Option.getD_none, Option.getD_none, State.detect_mem, Nat.mod_eq_of_lt (Mem.nat_lt ..)]
    exact ⟨rfl, fun b _ => rfl⟩
  | some new =>
    rw [Option.map_some, Option.getD_some, Option.getD_some, State.atomWrite_local ha ((State.detect_host ..).symm ▸ hd),
      State.detect_mem]
    refine ⟨Mem.nat_store a n new hw, fun b hb => ?_⟩
    rw [Mem.get_store a _ b hw, if_neg (by rw [length_natLe]; omega)]

end

/-- Settles O30: the new value by each operation, and the atomic by what its read finds. -/
theorem atomicResults : Obligations.AtomicResults := by
  unfold Obligations.AtomicResults
  refine ⟨fun w sgn old a b _ => atomNew_words sgn old a b, fun sgn old a b ha => atomNew_fadd sgn old b ha,
    fun s op a w64 sgn x y ha _ hw hd => ⟨fun h => ?_, State.doAtom_good rfl ha op sgn x y hd hw⟩⟩
  rw [State.doAtom_nothing rfl ha op sgn x y (State.homeNat_bad ha hd h)]
  exact ⟨rfl, State.detect_mem .., fun hf => State.detect_none hf ..⟩

end Sys2Proof.Machine
end

section
/-!
SUPPORT. CFILL and CPY among the tile registers, granule by granule to their end (R231, R234).
-/

namespace Sys2Proof.Machine

/-! ### Granules by blocks -/

/-- Bytes of a range of len bytes that lie before its granule i; the range begins at b within its 64-byte block. -/
def blockStart (b len i : Nat) : Nat := min len (if i = 0 then 0 else 64 - b % 64 + (i - 1) * 64)

theorem blockStart_zero (b len : Nat) : blockStart b len 0 = 0 := by simp [blockStart]

theorem blockStart_count (b len : Nat) : blockStart b len (blockCount 64 b len) = len := by
  unfold blockStart blockCount
  split <;> omega

theorem blockStart_le (b len i : Nat) : blockStart b len i ≤ len := min_le_left ..

/-- A granule takes what lies between its beginning and the next one's. -/
theorem blockRun_eq {b len i : Nat} (hi : i < blockCount 64 b len) :
    blockRun 64 b len i = (blockStart b len i, blockStart b len (i + 1) - blockStart b len i) ∧
    blockStart b len i ≤ blockStart b len (i + 1) := by
  unfold blockCount at hi
  unfold blockRun blockStart
  dsimp only
  rw [if_neg (Nat.succ_ne_zero i), Nat.add_sub_cancel]
  by_cases h : i = 0
  · subst h
    simp only [if_true, Prod.mk.injEq]
    omega
  · simp only [if_neg h, Prod.mk.injEq]
    omega

/-! ### A run of granules that all succeed -/

/-- A command that has come to granule i with every granule before it complete. -/
def CCmd.at_ (m : CCmd) (i : Nat) (old : List (Nat × Nat)) (comp : List Byte) : CCmd :=
  { m with wbase := i, marks := [], old := old, comp := comp }

section
variable (m : CCmd) (i : Nat) (old : List (Nat × Nat)) (comp : List Byte)

@[simp] theorem CCmd.at_op : (m.at_ i old comp).op = m.op := rfl
@[simp] theorem CCmd.at_d : (m.at_ i old comp).d = m.d := rfl
@[simp] theorem CCmd.at_e : (m.at_ i old comp).e = m.e := rfl
@[simp] theorem CCmd.at_tag : (m.at_ i old comp).tag = m.tag := rfl
@[simp] theorem CCmd.at_marks : (m.at_ i old comp).marks = [] := rfl

end

theorem CCmd.mark_at (m : CCmd) (i : Nat) (old : List (Nat × Nat)) (comp : List Byte) :
    (m.at_ i old comp).mark i = m.at_ (i + 1) [] [] := by
  simp [CCmd.mark, CCmd.at_, advanceBase]

/-- The granules from i on succeed one by one, each keeping P: none is skipped, and the run ends without failure or stop. -/
theorem granLoop_all {P : Nat → State → Prop} {m : CCmd} (n i : Nat) (old : List (Nat × Nat)) (comp : List Byte)
    (hstep : ∀ j t old comp, i ≤ j → j < i + n → P j t → ∃ u, t.granule (m.at_ j old comp) j = (u, .ok ()) ∧ P (j + 1) u)
    {s : State} (hs : P i s) :
    ∃ t old' comp', granLoop s ⟨m.at_ i old comp, none, none⟩ n i = (t, ⟨m.at_ (i + n) old' comp', none, none⟩) ∧ P (i + n) t := by
  induction n generalizing i old comp s with
  | zero => exact ⟨s, old, comp, rfl, hs⟩
  | succ n ih =>
    obtain ⟨u, hu, hp⟩ := hstep i s old comp le_rfl (by omega) hs
    obtain ⟨t, old', comp', ht, hq⟩ := ih (i + 1) [] [] (fun j t o c h1 h2 => hstep j t o c (by omega) (by omega)) hp
    refine ⟨t, old', comp', ?_, by rwa [show i + (n + 1) = i + 1 + n by omega]⟩
    unfold granLoop
    simp only [Option.isSome_none, Bool.or_self, Bool.false_eq_true, if_false, CCmd.at_marks, List.contains_nil, hu, CCmd.mark_at, ht]
    rw [show i + (n + 1) = i + 1 + n by omega]

/-! ### Bytes moved among the tile registers -/

/-- Between s and t, memory stays and the tile registers take the bytes f from address a on, n of them. -/
structure Moves (a n : Nat) (f : Nat → Byte) (s t : State) : Prop where
  mem : t.mem = s.mem
  wf : t.core.tile.wf = true
  tile : ∀ x, t.core.tile.get x = if a ≤ x ∧ x < a + n then f (x - a) else s.core.tile.get x

variable {s t : State} {m : CCmd} {c : Fin 16} {dst src len : Nat}

theorem inStore_tile {a o n : Nat} {l : Nat} (h : a + o + n ≤ 2 ^ 20) : inStore ⟨1, c, (a : Int), l⟩ (o : Int) n = true := by
  simp only [inStore, Bool.and_eq_true, decide_eq_true_eq]
  exact ⟨by omega, show (a : Int) + o + n ≤ ((2 ^ 20 : Nat) : Int) by omega⟩

theorem State.baseMod_tile (s : State) (a l : Nat) : s.baseMod ⟨1, c, (a : Int), l⟩ 64 = a % 64 := by
  show ((a : Int) % ((64 : Nat) : Int)).toNat = _
  omega

/-- An endpoint that is not memory uses no capability. -/
theorem State.epGone_tile {w : Word} {o : Int} {l : Nat} (h : epOf w = some ⟨1, c, o, l⟩) (s : State) : s.epGone w = false := by
  simp [State.epGone, h]

theorem State.appendRecs_nil_next (s : State) : ∃ u, s.appendRecs [] = .ok u ∧ u.mem = s.mem ∧ u.core.tile = s.core.tile := by
  unfold State.appendRecs State.appendTo
  split
  · next x g _ _ =>
    obtain ⟨hm, -, -, hr⟩ := s.pinned_stays [] g
    obtain ⟨-, -, -, -, ht⟩ := State.regs_stay hr
    exact ⟨_, rfl, hm, ht⟩
  · exact ⟨s, rfl, rfl, rfl⟩

/-- A write to the tile registers alone has no part in memory to check, to log or to wait for. -/
theorem State.copyStore_tile (s : State) (tag : BitVec 16) {a : Nat} (l : Nat) (bs : List Byte) (o : Nat)
    (ha : a + o + bs.length ≤ 2 ^ 20) : ∃ t, s.copyStore tag [(⟨1, c, (a : Int), l⟩, (o : Int), bs)] = (t, .ok ()) ∧
      t.mem = s.mem ∧ t.core.tile = s.core.tile.store (a + o) bs := by
  have hat : ((a : Int) + (o : Int)).toNat = a + o := by omega
  obtain ⟨u, hu, hm, ht⟩ := s.appendRecs_nil_next
  have hl : s.recallPlaced [] = (s, true) := rfl
  refine ⟨{ u with core := { u.core with tile := u.core.tile.store (a + o) bs } }, ?_, hm, by rw [ht]⟩
  simp [State.copyStore, State.wrParts, inStore_tile ha, hl, hu, State.writePlaced, State.putLocal, hat]

/-! ### A command of granules in the tile registers -/

/-- One more granule behind those that are there. -/
theorem Moves.next {a n k : Nat} {f : Nat → Byte} {u : State} (h : Moves a n f s t) (hm : u.mem = t.mem)
    (ht : u.core.tile = t.core.tile.store (a + n) ((List.range k).map fun j => f (n + j))) : Moves a (n + k) f s u := by
  refine ⟨hm.trans h.mem, ht ▸ Mem.wf_store _ _ h.wf, fun x => ?_⟩
  rw [ht, Mem.get_store _ _ _ h.wf, List.length_map, List.length_range, h.tile]
  by_cases hx : a + n ≤ x ∧ x < a + n + k
  · have hj : x - (a + n) < k := by omega
    rw [if_pos hx, if_pos (by omega), show x - a = n + (x - (a + n)) by omega]
    simp [hj]
  · rw [if_neg hx]
    exact if_congr (by omega) rfl rfl

/-- Every granule of m, at whatever point of its run, writes the bytes f of its block to the tile registers from dst on. -/
def GranulesWrite (m : CCmd) (c : Fin 16) (dst l len : Nat) (f : Nat → Byte) (s : State) : Prop :=
  ∀ (i : Nat) (t : State) old comp (off n : Nat), blockRun 64 (dst % 64) len i = (off, n) → off + n ≤ len → Moves dst off f s t →
    t.granule (m.at_ i old comp) i =
      t.copyStore m.tag [(⟨1, c, (dst : Int), l⟩, (off : Int), (List.range n).map fun j => f (off + j))]

/-- Such a granule adds its block to those before it. -/
theorem GranulesWrite.next {l j : Nat} {f : Nat → Byte} (hg : GranulesWrite m c dst l len f s) (hfits : dst + len ≤ 2 ^ 20)
    (hj : j < blockCount 64 (dst % 64) len) (h : Moves dst (blockStart (dst % 64) len j) f s t) (old : List (Nat × Nat))
    (comp : List Byte) :
    ∃ u, t.granule (m.at_ j old comp) j = (u, .ok ()) ∧ Moves dst (blockStart (dst % 64) len (j + 1)) f s u := by
  obtain ⟨hr, hle⟩ := blockRun_eq hj
  have hlen := blockStart_le (dst % 64) len (j + 1)
  rw [hg j t old comp _ _ hr (by omega) h]
  generalize blockStart (dst % 64) len j = off at h hle ⊢
  generalize blockStart (dst % 64) len (j + 1) = stop at hle hlen ⊢
  obtain ⟨u, hu, hm, ht⟩ := t.copyStore_tile (c := c) m.tag l ((List.range (stop - off)).map fun k => f (off + k)) off
    (show dst + off + _ ≤ _ by rw [List.length_map, List.length_range]; omega)
  have hn := h.next hm ht
  rw [Nat.add_sub_cancel' hle] at hn
  exact ⟨u, hu, hn⟩

theorem granLoop_moves {l : Nat} {f : Nat → Byte} (hg : GranulesWrite m c dst l len f s) (hfits : dst + len ≤ 2 ^ 20)
    (hw : s.core.tile.wf = true) (old : List (Nat × Nat)) (comp : List Byte) :
    ∃ t old' comp', granLoop s ⟨m.at_ 0 old comp, none, none⟩ (blockCount 64 (dst % 64) len) 0 =
      (t, ⟨m.at_ (blockCount 64 (dst % 64) len) old' comp', none, none⟩) ∧ Moves dst len f s t := by
  have start : Moves dst (blockStart (dst % 64) len 0) f s s :=
    ⟨rfl, hw, fun x => by rw [blockStart_zero, if_neg (by omega)]⟩
  obtain ⟨t, old', comp', ht, hp⟩ := granLoop_all (P := fun j => Moves dst (blockStart (dst % 64) len j) f s) (m := m)
    (blockCount 64 (dst % 64) len) 0 old comp (fun j t old comp _ hj h => hg.next hfits (by omega) h old comp) start
  rw [Nat.zero_add] at ht hp
  rw [blockStart_count] at hp
  exact ⟨t, old', comp', ht, hp⟩

/-- The end of a command that signals no semaphore and is no collective. -/
theorem State.finishCopy_quiet (s : State) (he : m.e.sinc = 0) (ho : m.op ≠ .ccoll) :
    (s.finishCopy m).mem = s.mem ∧ (s.finishCopy m).core.tile = s.core.tile ∧ ∀ x ∈ (s.finishCopy m).core.copy, x.tag ≠ m.tag := by
  have hs : (s.showCopy m.tag).mem = s.mem ∧ (s.showCopy m.tag).core = s.core := by
    unfold State.showCopy
    split <;> exact ⟨rfl, rfl⟩
  have hl : (s.showCopy m.tag).leaveColl m = s.showCopy m.tag := if_pos (by simpa using ho)
  have hq (u : State) (f : State → State) : u.signal m.e f = u := if_pos he
  unfold State.finishCopy
  dsimp only
  rw [hl, hq, hs.2]
  refine ⟨hs.1, Core.setStrm_tile .., fun x hx => ?_⟩
  exact bne_iff_ne.1 (List.mem_filter.1 hx).2

/-- A copy command of the core in focus that has begun with no granule complete, signals no semaphore, and fills len bytes of the
tile registers from dst on. -/
structure FillsTile (s : State) (m : CCmd) (c : Fin 16) (dst l len : Nat) : Prop where
  found : s.core.copy.find? (fun x => x.tag = m.tag) = some m
  begun : m.begun = true
  going : m.done = false
  base : m.wbase = 0
  marks : m.marks = []
  quiet : m.e.sinc = 0
  dest : epOf m.d[0] = some ⟨1, c, (dst : Int), l⟩
  length : lenWord m.d[2] = some len
  fits : dst + len ≤ 2 ^ 20
  wf : s.core.tile.wf = true

/-- CFILL and CPY among the tile registers end when all their granules have written. -/
theorem copyEnd_moves {l : Nat} {f : Nat → Byte} (h : FillsTile s m c dst l len) (hop : m.op = .cpy ∨ m.op = .cfill)
    (hgone : s.capGone m = false) (hg : GranulesWrite m c dst l len f s) :
    ∃ t, exec (.copyCommandComplete m.tag) s = .next t ∧ t.mem = s.mem ∧ (∀ x ∈ t.core.copy, x.tag ≠ m.tag) ∧
      ∀ a, t.core.tile.get a = if dst ≤ a ∧ a < dst + len then f (a - dst) else s.core.tile.get a := by
  have hm : m = m.at_ 0 m.old m.comp := by
    rw [CCmd.at_, ← h.base, ← h.marks]
  have hcount : s.granCount m = blockCount 64 (dst % 64) len := by
    rcases hop with ho | ho <;> simp only [State.granCount, ho, h.dest, h.length, State.baseMod_tile, Option.getD_some]
  have hn : s.granEnd m - m.wbase = blockCount 64 (dst % 64) len := by
    simp [State.granEnd, hgone, hcount, h.base]
  have hready : s.copyReady m = true := by
    rcases hop with ho | ho <;> simp [State.copyReady, h.begun, h.going, ho]
  have hplain : m.op ≠ .draft ∧ m.op ≠ .ccoll := by
    rcases hop with ho | ho <;> simp [ho]
  obtain ⟨t, old, comp, ht, hmoves⟩ := granLoop_moves hg h.fits h.wf m.old m.comp
  have hrun : granLoop s ⟨m, none, none⟩ (s.granEnd m - m.wbase) m.wbase =
      (t, ⟨m.at_ (blockCount 64 (dst % 64) len) old comp, none, none⟩) := by
    rw [hn, h.base, ← ht, ← hm]
  obtain ⟨qm, qt, qc⟩ := (t.setCopy (m.at_ (blockCount 64 (dst % 64) len) old comp)).finishCopy_quiet
    (m := m.at_ (blockCount 64 (dst % 64) len) old comp) h.quiet hplain.2
  refine ⟨_, (copyEnd_clause h.found hready hplain.1 hrun).1 rfl rfl, qm.trans hmoves.mem, qc, fun a => ?_⟩
  rw [qt]
  exact hmoves.tile a

/-! ### The two commands -/

theorem cfill_writes {l : Nat} (h : FillsTile s m c dst l len) (hop : m.op = .cfill) :
    GranulesWrite m c dst l len (fun x => (natLe 8 m.d[1].toNat).getD (x % 8) 0) s := by
  intro i t old comp off n hr _ _
  have hgone : t.capGone (m.at_ i old comp) = false := by
    simp [State.capGone, State.epGone_tile h.dest, hop]
  simp [State.granule, hgone, hop, State.cfillGran, h.dest, h.length, State.baseMod_tile, hr]

theorem cpy_writes {l : Nat} {k : Fin 16} (h : FillsTile s m c dst l len) (hop : m.op = .cpy)
    (h1 : epOf m.d[1] = some ⟨1, k, (src : Int), l⟩) (hsrc : src + len ≤ 2 ^ 20) (apart : src + len ≤ dst ∨ dst + len ≤ src) :
    GranulesWrite m c dst l len (fun x => s.core.tile.get (src + x)) s := by
  intro i t old comp off n hr hlen hmoves
  have hgone : t.capGone (m.at_ i old comp) = false := by
    simp [State.capGone, State.epGone_tile h.dest, State.epGone_tile h1]
  have hat : ((src : Int) + (off : Int)).toNat = src + off := by omega
  have hread : t.core.tile.bytes (src + off) n = (List.range n).map fun j => s.core.tile.get (src + (off + j)) := by
    rw [Mem.bytes_eq_map]
    refine List.map_congr_left fun j hj => ?_
    have := List.mem_range.1 hj
    rw [hmoves.tile, if_neg (by omega), Nat.add_assoc]
  have hrd (v : Seen) : t.rdAll v [(⟨1, k, (src : Int), l⟩, (off : Int), n)] =
      (t, .ok [(List.range n).map fun j => s.core.tile.get (src + (off + j))]) := by
    simp [State.rdAll, State.rdEp, inStore_tile (show src + off + n ≤ 2 ^ 20 by omega), Core.localBytes, hat, hread]
  simp [State.granule, hgone, hop, State.cpyGran, h.dest, h1, h.length, State.baseMod_tile, hr, State.moveGran, hrd]

/-- Settles O36: a run of granules, each of which writes its block. -/
theorem copyMoves : Obligations.CopyMoves := by
  unfold Obligations.CopyMoves
  intro s m c l dst len hfound hbegun hgoing hbase hmarks hquiet hdst hlen hfits hwf
  have h : FillsTile s m c dst l len := ⟨hfound, hbegun, hgoing, hbase, hmarks, hquiet, hdst, hlen, hfits, hwf⟩
  refine ⟨fun hop => copyEnd_moves h (.inr hop) ?_ (cfill_writes h hop),
    fun k src hop h1 hsrc apart => copyEnd_moves h (.inl hop) ?_ (cpy_writes h hop h1 hsrc apart)⟩
  · simp [State.capGone, State.epGone_tile hdst, hop]
  · simp [State.capGone, State.epGone_tile hdst, State.epGone_tile h1]

end Sys2Proof.Machine
end
